-- ==== Sys2Proof/Word.lean ====
section
/-!
DEFINITION. The words of the device (00 R2, R4; 01 R11, R12; 02 R34).
-/
namespace Sys2Proof

/-- A 32-bit register or instruction word. -/
abbrev Word := BitVec 32

/-- A 64-bit value: a register pair, an address, a memory entry. -/
abbrev DWord := BitVec 64

/-- One byte of memory. -/
abbrev Byte := BitVec 8

/-- The 64-bit value of a register pair: the even register holds bits [31:0] (01 R12). -/
def pairOf (lo hi : Word) : DWord := hi ++ lo

/-- Bits [31:0] of a 64-bit value. -/
def lowWord (x : DWord) : Word := x.setWidth 32

/-- Bits [63:32] of a 64-bit value. -/
def highWord (x : DWord) : Word := (x >>> 32).setWidth 32

end Sys2Proof
end

