-- ==== Sys2Proof/Config.lean ====
section
/-!
DEFINITION. What the spec leaves to the implementation, as constants without a body: a claim holds whatever their values.
-/
namespace Sys2Proof

/-- Which free granule a crew is given next, and so the order of its granules (11 R253: not specified; log 17). The argument
is the number of free granules and a serial number; the result is taken modulo that number. -/
opaque Config.granulePick : Nat → Nat → Nat

/-- Whether bytes and an XMSS signature of them verify under the root key in the fuses (21 R400; log 19). -/
opaque Config.imageSigned : List (BitVec 8) → List (BitVec 8) → Bool

/-- The XMSS signature of a report's bytes with the signature index, 2,820 bytes, lowest first (21 R402; log 19). -/
opaque Config.reportSignature : List (BitVec 8) → Nat → BitVec 22560

/-- The device serial number, 16 bytes, lowest first (21 R402; log 2). -/
opaque Config.serialNumber : BitVec 128

/-- Whether a cached translation that is still valid serves an access, or the device walks afresh (16 R326; log 12). The
argument is the serial number of the access. -/
opaque Config.tlbUsed : Nat → Bool

/-- Whether a coordinate look-aside entry that is still valid serves an access (17 R351; log 13). -/
opaque Config.clbUsed : Nat → Bool

/-- The significand of a transcendental result that interval refinement did not settle within its bound (06 R153; log 16).
No operand is known that reaches it. -/
opaque Config.unsettled : Nat → Int → Nat

/-- Whether the die cache serves the bytes of HBM that an access moves, or the HBM (16 R341; log 21). The argument is a serial number. -/
opaque Config.cached : Nat → Bool

/-- The memory reads of a walk that fills a translation look-aside entry (16 R341; log 21). The argument is a serial number. -/
opaque Config.walkReads : Nat → Nat

/-- The first frame of HBM of the grant region, and how many frames it has: the firmware's choice (16 R323; log 24). HBM has 2¹⁹ frames
of 2 MiB, and the region lies within it. -/
opaque Config.grantFirst : Nat
opaque Config.grantCount : Nat

/-- First machine address of the grant region, which no context may be granted (16 R323). -/
def Config.grantRegionBase : Nat := Config.grantFirst % 524288 * 0x200000

/-- Bytes of the grant region, a run of at least one frame (16 R323). -/
def Config.grantRegionSize : Nat := (Config.grantCount % (524288 - Config.grantFirst % 524288) + 1) * 0x200000

/-- Which namespaces the drive of a storage port has (16 R315; log 24). -/
opaque Config.namespaceExists : Nat → Nat → Bool

/-- The 4,096-byte logical blocks of a namespace; 0 where its logical blocks are of another size (19 R391; log 24). -/
opaque Config.namespaceBlocks : Nat → Nat → Nat

end Sys2Proof
end

