-- ==== Sys2Proof/Machine/Numbers.lean ====
section
/-!
DEFINITION. Number formats, exact values and the one rounding step (06 R144-R162; readings in log 40). A format is named by its code (01 R28).
-/
namespace Sys2Proof.Machine

/-- An exact result: NaN with a sign, an infinity, or a magnitude m × 2^e with a sign; with `sticky` the magnitude lies
strictly between m × 2^e and (m + 1) × 2^e (06 R144). -/
inductive Num where
  | nan (neg : Bool)
  | inf (neg : Bool)
  | num (neg : Bool) (m : Nat) (e : Int) (sticky : Bool)
  deriving DecidableEq, Repr

/-- A zero of a sign. -/
def Num.zero (neg : Bool) : Num := .num neg 0 0 false

/-- The canonical NaN (06 R147). -/
def Num.canonical : Num := .nan false

/-- Exception bits: invalid, divide-by-zero, overflow, underflow, inexact (06 R158). -/
abbrev Flags := BitVec 5

/-! ### Formats (06 R145-R150) -/

/-- Fraction bits of a floating-point format. -/
def fractionBits (code : Nat) : Nat :=
  match code with
  | 0 => 23 | 1 => 10 | 2 => 7 | 3 => 3 | 4 => 2 | 5 => 1 | 8 => 52 | _ => 0

/-- Exponent bits of a floating-point format. -/
def exponentBits (code : Nat) : Nat :=
  match code with
  | 0 => 8 | 1 => 5 | 2 => 8 | 3 => 4 | 4 => 5 | 5 => 2 | 8 => 11 | _ => 0

/-- Exponent bias of a floating-point format. -/
def bias (code : Nat) : Nat :=
  match code with
  | 0 => 127 | 1 => 15 | 2 => 127 | 3 => 7 | 4 => 15 | 5 => 1 | 8 => 1023 | _ => 0

/-- INT8 or INT4. -/
def isInteger (code : Nat) : Bool := code == 6 || code == 7

/-- A floating-point format. -/
def isFloat (code : Nat) : Bool := decide (code ≤ 5) || code == 8

/-- Flush applies to the format (06 R159). -/
def flushable (code : Nat) : Bool := isFloat code && code != 5

/-- Exponent of the subnormal grid. -/
def subnormalExp (code : Nat) : Int := 1 - (bias code : Int) - (fractionBits code : Int)

/-- Significand of the largest finite value: all fraction bits ones, but 0b110 in E4M3 (06 R145, R146). -/
def maxSignificand (code : Nat) : Nat := if code = 3 then 14 else 2 ^ (fractionBits code + 1) - 1

/-- Exponent of that significand's last bit: the largest exponent field is all ones but one, except in E4M3 and E2M1. -/
def maxExp (code : Nat) : Int :=
  let top : Nat := if code = 3 ∨ code = 5 then 2 ^ exponentBits code - 1 else 2 ^ exponentBits code - 2
  (top : Int) - (bias code : Int) - (fractionBits code : Int)

/-- The finite range of an integer format; −8 is left out of INT4 when the slot's outliers bit is set (06 R150). -/
def integerMin (code : Nat) (outliers : Bool) : Int := if code = 6 then -128 else if outliers then -7 else -8

/-- Upper end of the finite range of an integer format. -/
def integerMax (code : Nat) : Int := if code = 6 then 127 else 7

/-- The class of a stored value. -/
inductive NumClass where
  | zero | subnormal | normal | infinite | quiet | signalling
  deriving DecidableEq, Repr

/-- The class of a bit pattern of a format (06 R145, R146). -/
def classOf (code bits : Nat) : NumClass :=
  let fb := fractionBits code
  let frac := bits % 2 ^ fb
  let ex := bits / 2 ^ fb % 2 ^ exponentBits code
  if isInteger code then (if bits % 2 ^ (if code = 6 then 8 else 4) = 0 then .zero else .normal)
  else if code = 5 ∧ bits % 16 = 8 then .zero
  else if ex = 0 then (if frac = 0 then .zero else .subnormal)
  else if code = 5 then .normal
  else if ex = 2 ^ exponentBits code - 1 then
    if code = 3 then (if frac = 7 then .quiet else .normal)
    else if frac = 0 then .infinite
    else if frac / 2 ^ (fb - 1) = 1 then .quiet else .signalling
  else .normal

/-- The sign bit of a bit pattern; the escape code of E2M1 reads −0 (06 R148). -/
def signOf (code bits : Nat) : Bool :=
  if code = 6 then decide (bits % 256 ≥ 128) else if code = 7 then decide (bits % 16 ≥ 8)
  else bits / 2 ^ (fractionBits code + exponentBits code) % 2 == 1

/-- The value of a bit pattern read without an outlier list (06 R145-R149). -/
def decodeNum (code bits : Nat) : Num :=
  let neg := signOf code bits
  let fb := fractionBits code
  let frac := bits % 2 ^ fb
  let ex := bits / 2 ^ fb % 2 ^ exponentBits code
  if code = 6 then .num neg (if neg then 256 - bits % 256 else bits % 256) 0 false
  else if code = 7 then .num neg (if neg then 16 - bits % 16 else bits % 16) 0 false
  else
    match classOf code bits with
    | .zero => .zero neg
    | .subnormal => .num neg frac (subnormalExp code) false
    | .normal => .num neg (2 ^ fb + frac) ((ex : Int) - (bias code : Int) - (fb : Int)) false
    | .infinite => .inf neg
    | _ => .nan neg

/-- An operand of a vector instruction: a subnormal reads as zero of its sign under flush (06 R159). -/
def operand (code : Nat) (flush : Bool) (bits : Nat) : Num :=
  if flush && flushable code && classOf code bits == .subnormal then .zero (signOf code bits) else decodeNum code bits

/-- The operand is a signalling NaN (06 R146). -/
def isSignalling (code bits : Nat) : Bool := classOf code bits == .signalling

/-- Invalid, raised for a signalling NaN among the operands (06 R147). -/
def nanFlags (code : Nat) (operands : List Nat) : Flags := if operands.any (isSignalling code) then 1 else 0

/-! ### Encoding a value that lies on the grid -/

/-- The sign bit of a format's bit pattern. -/
def signBit (code : Nat) (neg : Bool) : Nat := if neg then 2 ^ (fractionBits code + exponentBits code) else 0

/-- The bit pattern of a finite value m × 2^e on the format's grid. -/
def encodeFinite (code : Nat) (neg : Bool) (m : Nat) (e : Int) : Nat :=
  let fb := fractionBits code
  if m = 0 then signBit code neg
  else
    let top := (m.log2 : Int) + e
    if top < 1 - (bias code : Int) then
      let d := e - subnormalExp code
      signBit code neg + (if d ≥ 0 then m * 2 ^ d.toNat else m / 2 ^ (-d).toNat)
    else
      let sig := if m.log2 ≤ fb then m * 2 ^ (fb - m.log2) else m / 2 ^ (m.log2 - fb)
      signBit code neg + (top + (bias code : Int)).toNat * 2 ^ fb + (sig - 2 ^ fb)

/-- The canonical NaN of a format with a sign (06 R146, R147). -/
def encodeNan (code : Nat) (neg : Bool) : Nat :=
  let fb := fractionBits code
  signBit code neg +
    (if code = 3 then 0x7F else (2 ^ exponentBits code - 1) * 2 ^ fb + 2 ^ (fb - 1))

/-- The infinity of a format that has one. -/
def encodeInf (code : Nat) (neg : Bool) : Nat :=
  signBit code neg + (2 ^ exponentBits code - 1) * 2 ^ fractionBits code

/-! ### Rounding (06 R154, R155, R158, R162) -/

/-- m × 2^e > m' × 2^e'. -/
def magnitudeAbove (m : Nat) (e : Int) (m' : Nat) (e' : Int) : Bool :=
  let low := min e e'
  decide (m' * 2 ^ (e' - low).toNat < m * 2 ^ (e - low).toNat)

/-- A magnitude split on the grid of spacing 2^q: the lower neighbour in units of the spacing, and what is discarded: rem /
2^d, with more below it if sticky. -/
structure Split where
  lo : Nat
  rem : Nat
  d : Nat
  sticky : Bool
  deriving DecidableEq, Repr

/-- Splits m × 2^e on the grid of spacing 2^q. -/
def splitAt (m : Nat) (e q : Int) (sticky : Bool) : Split :=
  if e ≥ q then ⟨m * 2 ^ (e - q).toNat, 0, 0, sticky⟩
  else
    let d := (q - e).toNat
    ⟨m / 2 ^ d, m % 2 ^ d, d, sticky⟩

/-- Nothing is discarded. -/
def Split.exact (p : Split) : Bool := p.rem == 0 && !p.sticky

/-- More than half a step is discarded. -/
def Split.aboveHalf (p : Split) : Bool :=
  p.d != 0 && (decide (2 ^ p.d < 2 * p.rem) || (2 * p.rem == 2 ^ p.d && p.sticky))

/-- Exactly half a step is discarded. -/
def Split.isHalf (p : Split) : Bool := p.d != 0 && 2 * p.rem == 2 ^ p.d && !p.sticky

/-- The upper neighbour is chosen (06 R155); `r` is the draw of SR (R161, R162). -/
def Split.up (p : Split) (mode r : Nat) (neg : Bool) : Bool :=
  !p.exact &&
  match mode with
  | 0 => p.aboveHalf || (p.isHalf && p.lo % 2 == 1)
  | 1 => false
  | 2 => !neg
  | 3 => neg
  | 4 => p.aboveHalf || p.isHalf
  | _ => decide (65536 ≤ p.rem * 65536 / 2 ^ p.d + r)

/-- `round(x, mode)` into a format, with the exceptions of the rounding (06 R154, R158). An infinity is returned as such; in E4M3
and E2M1, which have none, it exceeds the largest finite value, and overflow and inexact are raised (06 R144, R156; log 32). An
integer format's value is not yet kept to its range. -/
def roundNum (code mode r : Nat) (x : Num) : Num × Flags :=
  match x with
  | .num neg m e sticky =>
    if m = 0 && !sticky then (x, 0)
    else
      let top : Int := if m = 0 then e - 1 else (m.log2 : Int) + e
      let q : Int := if isInteger code then 0 else max (top - (fractionBits code : Int)) (subnormalExp code)
      let p := splitAt m e q sticky
      let m' := if p.up mode r neg then p.lo + 1 else p.lo
      let inexact : Flags := if p.exact then 0 else 16
      if isInteger code then (.num neg m' 0 false, inexact)
      else
        let beyond (k : Nat) : Bool := magnitudeAbove k q (maxSignificand code) (maxExp code)
        if beyond m' then
          let toMax := mode == 1 || (mode == 2 && neg) || (mode == 3 && !neg)
          (if toMax then .num neg (maxSignificand code) (maxExp code) false else .inf neg, 20)
        else if m' = p.lo && beyond (if p.up 0 0 neg then p.lo + 1 else p.lo) then (.num neg m' q false, 20)
        else
          let tiny := m' != 0 && !p.exact && !magnitudeAbove m' q (2 ^ fractionBits code - 1) (subnormalExp code)
          (.num neg m' q false, inexact ||| (if tiny then 8 else 0))
  | .inf _ => (x, if code = 3 ∨ code = 5 then 20 else 0)
  | .nan _ => (x, 0)

/-- The value is nonzero and below the smallest normal magnitude. -/
def isTiny (code : Nat) (y : Num) : Bool :=
  match y with
  | .num _ m e _ => m != 0 && !magnitudeAbove m e (2 ^ fractionBits code - 1) (subnormalExp code)
  | _ => false

/-- Flush of a rounded result (06 R159). -/
def flushResult (code : Nat) (flush : Bool) (y : Num) (flags : Flags) : Num × Flags :=
  if flush && flushable code && isTiny code y then
    match y with
    | .num neg _ _ _ => (.zero neg, flags ||| 24)
    | _ => (y, flags)
  else (y, flags)

/-- The integer a value on the integer grid stands for. -/
def Num.toInt (y : Num) : Int :=
  match y with
  | .num neg m e _ => if neg then -((m : Int) * 2 ^ e.toNat) else (m : Int) * 2 ^ e.toNat
  | _ => 0

/-- Delivers a value into a format, which may lack its class; a delivery that is invalid raises invalid alone (06 R156). -/
def deliver (code : Nat) (outliers : Bool) (y : Num) (flags : Flags) : Nat × Flags :=
  if isInteger code then
    let modulus : Int := if code = 6 then 256 else 16
    let put (v : Int) : Nat := (v % modulus).toNat
    match y with
    | .nan _ => (0, 1)
    | .inf neg => (put (if neg then integerMin code outliers else integerMax code), 1)
    | .num _ _ _ _ =>
      let v := y.toInt
      if v < integerMin code outliers then (put (integerMin code outliers), 1)
      else if v > integerMax code then (put (integerMax code), 1)
      else (put v, flags)
  else
    match y with
    | .nan neg => if code = 5 then (0, 1) else (encodeNan code neg, flags)
    | .inf neg =>
      if code = 5 then (encodeFinite code neg 3 1, flags)
      else if code = 3 then (encodeNan code neg, flags)
      else (encodeInf code neg, flags)
    | .num neg m e _ => if code = 5 && m == 0 then (0, flags) else (encodeFinite code neg m e, flags)

/-! ### Stochastic rounding (06 R160, R161) -/

/-- The hash H (06 R160). -/
def hashH (s k : Word) (t : Nat) : Word :=
  let x0 := k ^^^ (BitVec.ofNat 32 (t % 256) <<< 24) ^^^ s
  let x1 := (x0 ^^^ (x0 >>> 16)) * 0x3A8F05C5
  let x2 := (x1 ^^^ (x1 >>> 15)) * 0xB5026F5B
  x2 ^^^ (x2 >>> 16)

/-- The draw r of the j-th rounded result (06 R161). -/
def draw (seed key : Word) (t j : Nat) : Nat :=
  let h := (hashH seed key ((t + j / 2) % 256)).toNat
  if j % 2 = 0 then h % 65536 else h / 65536

/-! ### The modifier (02 R45, R47) -/

/-- The fields of a modifier word. -/
structure Modifier where
  saturate : Bool
  clamp : Bool
  negate : Bool
  absolute : Bool
  scale : Int
  override : Nat
  tag : Nat
  deriving DecidableEq, Repr

/-- Absolute, negate and scale on the exact result (02 R47). -/
def Modifier.before (m : Modifier) (x : Num) : Num :=
  let flip (neg : Bool) : Bool := (if m.absolute then false else neg) != m.negate
  match x with
  | .nan neg => .nan (flip neg)
  | .inf neg => .inf (flip neg)
  | .num neg k e st => .num (flip neg) k (if k = 0 && !st then e else e + m.scale) st

/-- Saturate and clamp on the rounded result (02 R47). -/
def Modifier.after (m : Modifier) (code : Nat) (outliers : Bool) (y : Num) : Num :=
  let y1 :=
    if !m.saturate then y
    else if isInteger code then
      match y with
      | .inf neg => if neg then .num true (integerMin code outliers).natAbs 0 false
                    else .num false (integerMax code).toNat 0 false
      | .num _ _ _ _ =>
        if y.toInt > integerMax code then .num false (integerMax code).toNat 0 false
        else if y.toInt < integerMin code outliers then .num true (integerMin code outliers).natAbs 0 false
        else y
      | .nan _ => y
    else
      match y with
      | .inf neg => .num neg (maxSignificand code) (maxExp code) false
      | _ => y
  if !m.clamp then y1
  else
    match y1 with
    | .nan _ => .zero false
    | .inf neg => if neg then .zero false else .num false 1 0 false
    | .num neg k e st =>
      if neg || k = 0 then .zero false
      else if magnitudeAbove k e 1 0 then .num false 1 0 false else .num neg k e st

/-- What a rounding depends on beside its operand: mode, flush, seed and key, modifier, and the slot's outliers bit (06
R165). -/
structure FpEnv where
  mode : Nat
  flush : Bool
  seed : Word
  key : Word
  outliers : Bool
  modifier : Option Modifier
  deriving DecidableEq, Repr

/-- The effective rounding mode (02 R47). -/
def FpEnv.effective (env : FpEnv) : Nat :=
  match env.modifier with
  | some m => if m.override = 0 then env.mode else m.override - 1
  | none => env.mode

/-- The draw for result j. -/
def FpEnv.draw (env : FpEnv) (j : Nat) : Nat :=
  Machine.draw env.seed env.key (match env.modifier with | some m => m.tag | none => 0) j

/-- From an exact result to the bits delivered into a format, with the exceptions: modifier, one rounding, saturate and clamp, delivery,
and the flush of what is delivered (02 R47, 06 R154-R159, 08 R203). `own` are the exceptions of the instruction's own cases. -/
def FpEnv.result (env : FpEnv) (code j : Nat) (x : Num) (own : Flags) : Nat × Flags :=
  let x1 := match env.modifier with
    | some m => m.before x
    | none => x
  let (y, f1) := roundNum code env.effective (env.draw j) x1
  let y2 := match env.modifier with
    | some m => m.after code env.outliers y
    | none => y
  let (y3, f2) := flushResult code env.flush y2 f1
  let (bits, f3) := deliver code env.outliers y3 f2
  (bits, own ||| f3)

/-! ### Exact sums and products (06 R157) -/

/-- The exact sum; an exact zero of operands of opposite sign is +0, or −0 under RDN. -/
def addNum (mode : Nat) (x y : Num) : Num × Flags :=
  match x, y with
  | .nan _, _ => (.canonical, 0)
  | _, .nan _ => (.canonical, 0)
  | .inf a, .inf b => if a == b then (.inf a, 0) else (.canonical, 1)
  | .inf a, _ => (.inf a, 0)
  | _, .inf b => (.inf b, 0)
  | .num na ma ea _, .num nb mb eb _ =>
    if ma = 0 && mb = 0 then (.zero (if na == nb then na else mode == 3), 0)
    else
      let e := if ma = 0 then eb else if mb = 0 then ea else min ea eb
      let v (neg : Bool) (m : Nat) (k : Int) : Int :=
        let w : Int := ((m * 2 ^ (k - e).toNat : Nat) : Int)
        if neg then -w else w
      let t := v na ma ea + v nb mb eb
      if t = 0 then (.zero (mode == 3), 0) else (.num (decide (t < 0)) t.natAbs e false, 0)

/-- The exact product; a zero takes the exclusive-or of the signs, and 0 × ∞ is invalid. -/
def mulNum (x y : Num) : Num × Flags :=
  match x, y with
  | .nan _, _ => (.canonical, 0)
  | _, .nan _ => (.canonical, 0)
  | .inf a, .inf b => (.inf (a != b), 0)
  | .inf a, .num b m _ _ => if m = 0 then (.canonical, 1) else (.inf (a != b), 0)
  | .num a m _ _, .inf b => if m = 0 then (.canonical, 1) else (.inf (a != b), 0)
  | .num a ma ea _, .num b mb eb _ => (.num (a != b) (ma * mb) (ea + eb) false, 0)

/-- The negation of an exact value. -/
def negNum (x : Num) : Num :=
  match x with
  | .nan s => .nan s
  | .inf s => .inf (!s)
  | .num s m e st => .num (!s) m e st

/-- a × b + c, exact; a product of 0 and ∞ is invalid even when c is a quiet NaN (08 R195). -/
def fmaNum (mode : Nat) (a b c : Num) : Num × Flags :=
  let (p, f1) := mulNum a b
  let (x, f2) := addNum mode p c
  (x, f1 ||| f2)

/-- The order of two values that are not NaN, −0 and +0 equal: less, equal, greater as −1, 0, 1. -/
def compareNum (x y : Num) : Int :=
  match x, y with
  | .inf a, .inf b => if a == b then 0 else if a then -1 else 1
  | .inf a, _ => if a then -1 else 1
  | _, .inf b => if b then 1 else -1
  | .num na ma ea _, .num nb mb eb _ =>
    if ma = 0 && mb = 0 then 0
    else
      let e := min ea eb
      let v (neg : Bool) (m : Nat) (k : Int) : Int :=
        let w : Int := ((m * 2 ^ (k - e).toNat : Nat) : Int)
        if neg then -w else w
      let a := v na ma ea
      let b := v nb mb eb
      if a < b then -1 else if a = b then 0 else 1
  | _, _ => 0

/-- FP32 addition as the floating-point atomics do it: one RNE rounding, no flush, no flags (03 R83). -/
def addFp32 (a b : Word) : Word :=
  BitVec.ofNat 32 (deliver 0 false (roundNum 0 0 0 (addNum 0 (decodeNum 0 a.toNat) (decodeNum 0 b.toNat)).1).1 0).1

end Sys2Proof.Machine
end

