-- ==== Sys2Proof/Syntax.lean ====
section
/-!
DEFINITION. The instructions and events of the device: one constructor for each row of spec/opcode_table.json.
A constructor of a row with an encoding carries that encoding's variable fields under the table's names and widths
(02 R37, R38; 16 R335); one-bit fields are Bool. A row without an encoding is an operation or event of the device (95);
what tells one occurrence from another (the gang, command, core, context, slot or hart it concerns, or the data an
outside party supplies) stands in State.subject when it comes about. The constructors without fields stand last.
-/
namespace Sys2Proof

/-- One instruction or event of the device. -/
inductive Instr where
  /-- MODIFIER (R47): Prefix word whose saturate, clamp, negate, absolute, scale, rounding-override and tag fields modify the eligible instruction after it, the pair acting as one instruction. -/
  | modifier (s : Bool) (c : Bool) (n : Bool) (u : Bool) (e : BitVec 6) (o : BitVec 3) (t : BitVec 8)
  /-- IADD (R170): Adds two 32-bit integers modulo 2^32, per active lane or once on scalars. -/
  | iadd (s : Bool) (d : BitVec 7) (a : BitVec 7) (b : BitVec 7)
  /-- ISUB (R170): Subtracts two 32-bit integers modulo 2^32. -/
  | isub (s : Bool) (d : BitVec 7) (a : BitVec 7) (b : BitVec 7)
  /-- IMUL (R170): Writes the low 32 bits of the product. -/
  | imul (s : Bool) (d : BitVec 7) (a : BitVec 7) (b : BitVec 7)
  /-- IMULHI (R170): Writes the high 32 bits of the signed 64-bit product. -/
  | imulhi (s : Bool) (d : BitVec 7) (a : BitVec 7) (b : BitVec 7)
  /-- IMULHU (R170): Writes the high 32 bits of the unsigned 64-bit product. -/
  | imulhu (s : Bool) (d : BitVec 7) (a : BitVec 7) (b : BitVec 7)
  /-- IMAD (R170): Writes d + a × b modulo 2^32, reading the destination. -/
  | imad (s : Bool) (d : BitVec 7) (a : BitVec 7) (b : BitVec 7)
  /-- IQUO (R171): Signed quotient truncated toward zero, with fixed results for division by zero and overflow. -/
  | iquo (s : Bool) (d : BitVec 7) (a : BitVec 7) (b : BitVec 7)
  /-- IQUO_U (R171): Unsigned quotient, 0xFFFF_FFFF on division by zero. -/
  | iquoU (s : Bool) (d : BitVec 7) (a : BitVec 7) (b : BitVec 7)
  /-- IREM (R171): Signed remainder carrying the dividend's sign. -/
  | irem (s : Bool) (d : BitVec 7) (a : BitVec 7) (b : BitVec 7)
  /-- IREM_U (R171): Unsigned remainder. -/
  | iremU (s : Bool) (d : BitVec 7) (a : BitVec 7) (b : BitVec 7)
  /-- IMIN (R170): Signed minimum of two integers. -/
  | imin (s : Bool) (d : BitVec 7) (a : BitVec 7) (b : BitVec 7)
  /-- IMIN_U (R170): Unsigned minimum of two integers. -/
  | iminU (s : Bool) (d : BitVec 7) (a : BitVec 7) (b : BitVec 7)
  /-- IMAX (R170): Signed maximum of two integers. -/
  | imax (s : Bool) (d : BitVec 7) (a : BitVec 7) (b : BitVec 7)
  /-- IMAX_U (R170): Unsigned maximum of two integers. -/
  | imaxU (s : Bool) (d : BitVec 7) (a : BitVec 7) (b : BitVec 7)
  /-- IABS (R170): Absolute value modulo 2^32. -/
  | iabs (s : Bool) (d : BitVec 7) (a : BitVec 7)
  /-- INEG (R170): Negation modulo 2^32. -/
  | ineg (s : Bool) (d : BitVec 7) (a : BitVec 7)
  /-- AND (R173): Bitwise and. -/
  | and (s : Bool) (d : BitVec 7) (a : BitVec 7) (b : BitVec 7)
  /-- ANDN (R173): Bitwise a and not b. -/
  | andn (s : Bool) (d : BitVec 7) (a : BitVec 7) (b : BitVec 7)
  /-- OR (R173): Bitwise or. -/
  | or (s : Bool) (d : BitVec 7) (a : BitVec 7) (b : BitVec 7)
  /-- ORN (R173): Bitwise a or not b. -/
  | orn (s : Bool) (d : BitVec 7) (a : BitVec 7) (b : BitVec 7)
  /-- XOR (R173): Bitwise exclusive or. -/
  | xor (s : Bool) (d : BitVec 7) (a : BitVec 7) (b : BitVec 7)
  /-- XNOR (R173): Bitwise not of exclusive or. -/
  | xnor (s : Bool) (d : BitVec 7) (a : BitVec 7) (b : BitVec 7)
  /-- NOT (R173): Bitwise not of a. -/
  | not (s : Bool) (d : BitVec 7) (a : BitVec 7)
  /-- SHL (R174): Logical left shift by the whole 32-bit amount, zero at 32 or more. -/
  | shl (s : Bool) (d : BitVec 7) (a : BitVec 7) (b : BitVec 7)
  /-- SHR (R174): Logical right shift by the whole 32-bit amount. -/
  | shr (s : Bool) (d : BitVec 7) (a : BitVec 7) (b : BitVec 7)
  /-- SAR (R174): Arithmetic right shift by the whole 32-bit amount. -/
  | sar (s : Bool) (d : BitVec 7) (a : BitVec 7) (b : BitVec 7)
  /-- ROL (R174): Rotate left by the amount modulo 32. -/
  | rol (s : Bool) (d : BitVec 7) (a : BitVec 7) (b : BitVec 7)
  /-- POPC (R175): Counts one bits. -/
  | popc (s : Bool) (d : BitVec 7) (a : BitVec 7)
  /-- CLZ (R175): Counts leading zero bits, 32 for zero. -/
  | clz (s : Bool) (d : BitVec 7) (a : BitVec 7)
  /-- CTZ (R175): Counts trailing zero bits, 32 for zero. -/
  | ctz (s : Bool) (d : BitVec 7) (a : BitVec 7)
  /-- BREV (R175): Reverses the bit order of a word. -/
  | brev (s : Bool) (d : BitVec 7) (a : BitVec 7)
  /-- BFE (R176): Extracts an unsigned bit field given by offset and length in b. -/
  | bfe (s : Bool) (d : BitVec 7) (a : BitVec 7) (b : BitVec 7)
  /-- BFE_S (R176): Extracts a sign-extended bit field. -/
  | bfeS (s : Bool) (d : BitVec 7) (a : BitVec 7) (b : BitVec 7)
  /-- BFI (R176): Inserts a field of a into d at the offset and length in b. -/
  | bfi (s : Bool) (d : BitVec 7) (a : BitVec 7) (b : BitVec 7)
  /-- SEL (R178): Selects va or vb per mask-enabled lane by the guard predicate used as data. -/
  | sel (d : BitVec 7) (a : BitVec 7) (b : BitVec 7)
  /-- ICMP_EQ (R179): Writes a predicate true where a equals b. -/
  | icmpEq (s : Bool) (d : BitVec 4) (a : BitVec 7) (b : BitVec 7)
  /-- ICMP_NE (R179): Writes a predicate true where a differs from b. -/
  | icmpNe (s : Bool) (d : BitVec 4) (a : BitVec 7) (b : BitVec 7)
  /-- ICMP_LT (R179): Writes a predicate for signed a < b. -/
  | icmpLt (s : Bool) (d : BitVec 4) (a : BitVec 7) (b : BitVec 7)
  /-- ICMP_LE (R179): Writes a predicate for signed a ≤ b. -/
  | icmpLe (s : Bool) (d : BitVec 4) (a : BitVec 7) (b : BitVec 7)
  /-- ICMP_LTU (R179): Writes a predicate for unsigned a < b. -/
  | icmpLtu (s : Bool) (d : BitVec 4) (a : BitVec 7) (b : BitVec 7)
  /-- ICMP_LEU (R179): Writes a predicate for unsigned a ≤ b. -/
  | icmpLeu (s : Bool) (d : BitVec 4) (a : BitVec 7) (b : BitVec 7)
  /-- ICMP_TST (R179): Writes a predicate true where a and b share a set bit. -/
  | icmpTst (s : Bool) (d : BitVec 4) (a : BitVec 7) (b : BitVec 7)
  /-- ICMP_TSTZ (R179): Writes a predicate true where a and b share no set bit. -/
  | icmpTstz (s : Bool) (d : BitVec 4) (a : BitVec 7) (b : BitVec 7)
  /-- ADD64 (R172): Adds two register pairs modulo 2^64. -/
  | add64 (s : Bool) (d : BitVec 7) (a : BitVec 7) (b : BitVec 7)
  /-- SUB64 (R172): Subtracts two register pairs modulo 2^64. -/
  | sub64 (s : Bool) (d : BitVec 7) (a : BitVec 7) (b : BitVec 7)
  /-- MUL64 (R172): Signed 32×32 product exact into a pair. -/
  | mul64 (s : Bool) (d : BitVec 7) (a : BitVec 7) (b : BitVec 7)
  /-- MUL64_U (R172): Unsigned 32×32 product exact into a pair. -/
  | mul64U (s : Bool) (d : BitVec 7) (a : BitVec 7) (b : BitVec 7)
  /-- LEA (R172): Adds a zero-extended register shifted left by n to a pair modulo 2^64. -/
  | lea (s : Bool) (d : BitVec 7) (a : BitVec 7) (b : BitVec 7) (n : BitVec 3)
  /-- ADDI (R177): Adds a sign-extended 10-bit immediate. -/
  | addi (s : Bool) (d : BitVec 7) (a : BitVec 7) (i : BitVec 10)
  /-- ANDI (R177): Ands with a zero-extended 10-bit immediate. -/
  | andi (s : Bool) (d : BitVec 7) (a : BitVec 7) (i : BitVec 10)
  /-- ORI (R177): Ors with a zero-extended 10-bit immediate. -/
  | ori (s : Bool) (d : BitVec 7) (a : BitVec 7) (i : BitVec 10)
  /-- XORI (R177): Exclusive-ors with a zero-extended 10-bit immediate. -/
  | xori (s : Bool) (d : BitVec 7) (a : BitVec 7) (i : BitVec 10)
  /-- SHLI (R174): Left shift by an immediate amount 0 to 31. -/
  | shli (s : Bool) (d : BitVec 7) (a : BitVec 7) (n : BitVec 5)
  /-- SHRI (R174): Logical right shift by an immediate amount. -/
  | shri (s : Bool) (d : BitVec 7) (a : BitVec 7) (n : BitVec 5)
  /-- SARI (R174): Arithmetic right shift by an immediate amount. -/
  | sari (s : Bool) (d : BitVec 7) (a : BitVec 7) (n : BitVec 5)
  /-- ROLI (R174): Rotate left by an immediate amount. -/
  | roli (s : Bool) (d : BitVec 7) (a : BitVec 7) (n : BitVec 5)
  /-- MOVI (R177): Writes a sign-extended 17-bit immediate. -/
  | movi (s : Bool) (d : BitVec 7) (i : BitVec 17)
  /-- MOVHI (R177): Writes bits [31:15] from a 17-bit immediate, keeping bits [14:0]. -/
  | movhi (s : Bool) (d : BitVec 7) (i : BitVec 17)
  /-- MOV (R180): Copies a register of one class to another of the same class. -/
  | mov (s : Bool) (d : BitVec 7) (a : BitVec 7)
  /-- BCAST (R180): Copies a scalar into a vector register in every active lane. -/
  | bcast (d : BitVec 7) (a : BitVec 7)
  /-- RDLANE (R180): Reads one lane of a vector register into a scalar. -/
  | rdlane (d : BitVec 7) (a : BitVec 7) (b : BitVec 7)
  /-- WRLANE (R180): Writes a scalar into one lane of a vector register. -/
  | wrlane (d : BitVec 7) (a : BitVec 7) (b : BitVec 7)
  /-- PAND (R181): Ands two predicates per active lane. -/
  | pand (d : BitVec 4) (a : BitVec 4) (b : BitVec 4)
  /-- POR (R181): Ors two predicates per active lane. -/
  | por (d : BitVec 4) (a : BitVec 4) (b : BitVec 4)
  /-- PXOR (R181): Exclusive-ors two predicates per active lane. -/
  | pxor (d : BitVec 4) (a : BitVec 4) (b : BitVec 4)
  /-- PNOT (R181): Inverts a predicate per active lane. -/
  | pnot (d : BitVec 4) (a : BitVec 4)
  /-- PTEST (R181): Writes 1 to a scalar if the predicate is true in any active lane. -/
  | ptest (d : BitVec 7) (a : BitVec 4)
  /-- PCNT (R181): Counts active lanes with the predicate true. -/
  | pcnt (d : BitVec 7) (a : BitVec 4)
  /-- PFIRST (R181): Gives the lowest active lane with the predicate true, or all ones. -/
  | pfirst (d : BitVec 7) (a : BitVec 4)
  /-- PBITS (R181): Writes the predicate of active lanes as a 64-bit mask into a scalar pair. -/
  | pbits (d : BitVec 7) (a : BitVec 4)
  /-- PSET (R182): Sets a predicate in each active lane from bit l of a scalar pair. -/
  | pset (d : BitVec 4) (a : BitVec 7)
  /-- IADDS (R170): Signed saturating addition. -/
  | iadds (s : Bool) (d : BitVec 7) (a : BitVec 7) (b : BitVec 7)
  /-- IADDUS (R170): Unsigned saturating addition. -/
  | iaddus (s : Bool) (d : BitVec 7) (a : BitVec 7) (b : BitVec 7)
  /-- ISUBS (R170): Signed saturating subtraction. -/
  | isubs (s : Bool) (d : BitVec 7) (a : BitVec 7) (b : BitVec 7)
  /-- ISUBUS (R170): Unsigned saturating subtraction. -/
  | isubus (s : Bool) (d : BitVec 7) (a : BitVec 7) (b : BitVec 7)
  /-- FADD (R195): Floating-point addition in the trim slot's format, rounded once. -/
  | fadd (d : BitVec 7) (a : BitVec 7) (b : BitVec 7)
  /-- FSUB (R195): Floating-point subtraction, rounded once. -/
  | fsub (d : BitVec 7) (a : BitVec 7) (b : BitVec 7)
  /-- FMUL (R195): Floating-point multiplication, rounded once. -/
  | fmul (d : BitVec 7) (a : BitVec 7) (b : BitVec 7)
  /-- FMA (R195): Fused a × b + d, rounded once. -/
  | fma (d : BitVec 7) (a : BitVec 7) (b : BitVec 7)
  /-- FMS (R195): Fused a × b − d, rounded once. -/
  | fms (d : BitVec 7) (a : BitVec 7) (b : BitVec 7)
  /-- FNMA (R195): Fused −(a × b) + d, rounded once. -/
  | fnma (d : BitVec 7) (a : BitVec 7) (b : BitVec 7)
  /-- FMIN (R196): Minimum with NaN propagation as canonical NaN. -/
  | fmin (d : BitVec 7) (a : BitVec 7) (b : BitVec 7)
  /-- FMAX (R196): Maximum with NaN propagation as canonical NaN. -/
  | fmax (d : BitVec 7) (a : BitVec 7) (b : BitVec 7)
  /-- FMINNUM (R196): Minimum returning the non-NaN operand. -/
  | fminnum (d : BitVec 7) (a : BitVec 7) (b : BitVec 7)
  /-- FMAXNUM (R196): Maximum returning the non-NaN operand. -/
  | fmaxnum (d : BitVec 7) (a : BitVec 7) (b : BitVec 7)
  /-- FDIV (R197): Correctly rounded division. -/
  | fdiv (d : BitVec 7) (a : BitVec 7) (b : BitVec 7)
  /-- FSQRT (R197): Correctly rounded square root. -/
  | fsqrt (d : BitVec 7) (a : BitVec 7)
  /-- FRCP (R198): Correctly rounded reciprocal. -/
  | frcp (d : BitVec 7) (a : BitVec 7)
  /-- FRSQ (R198): Correctly rounded reciprocal square root. -/
  | frsq (d : BitVec 7) (a : BitVec 7)
  /-- FEXP2 (R198): Correctly rounded 2^a. -/
  | fexp2 (d : BitVec 7) (a : BitVec 7)
  /-- FLOG2 (R198): Correctly rounded log2 a. -/
  | flog2 (d : BitVec 7) (a : BitVec 7)
  /-- FSIN (R198): Correctly rounded sin(π a). -/
  | fsin (d : BitVec 7) (a : BitVec 7)
  /-- FCOS (R198): Correctly rounded cos(π a). -/
  | fcos (d : BitVec 7) (a : BitVec 7)
  /-- FRINT (R198): Rounds to an integer under the effective mode. -/
  | frint (d : BitVec 7) (a : BitVec 7)
  /-- FFLOOR (R198): Largest integer not above a. -/
  | ffloor (d : BitVec 7) (a : BitVec 7)
  /-- FCMP_EQ (R201): Predicate for a = b. -/
  | fcmpEq (d : BitVec 4) (a : BitVec 7) (b : BitVec 7)
  /-- FCMP_NE (R201): Predicate for a ≠ b or unordered. -/
  | fcmpNe (d : BitVec 4) (a : BitVec 7) (b : BitVec 7)
  /-- FCMP_LT (R201): Predicate for a < b, invalid on any NaN. -/
  | fcmpLt (d : BitVec 4) (a : BitVec 7) (b : BitVec 7)
  /-- FCMP_LE (R201): Predicate for a ≤ b, invalid on any NaN. -/
  | fcmpLe (d : BitVec 4) (a : BitVec 7) (b : BitVec 7)
  /-- FCMP_UN (R201): Predicate for unordered operands. -/
  | fcmpUn (d : BitVec 4) (a : BitVec 7) (b : BitVec 7)
  /-- FCMP_ORD (R201): Predicate for ordered operands. -/
  | fcmpOrd (d : BitVec 4) (a : BitVec 7) (b : BitVec 7)
  /-- FCMP_LTU (R201): Predicate for a < b or unordered. -/
  | fcmpLtu (d : BitVec 4) (a : BitVec 7) (b : BitVec 7)
  /-- FCMP_LEU (R201): Predicate for a ≤ b or unordered. -/
  | fcmpLeu (d : BitVec 4) (a : BitVec 7) (b : BitVec 7)
  /-- FCLASS (R202): Writes a 10-bit class mask of the stored value. -/
  | fclass (d : BitVec 7) (a : BitVec 7)
  /-- CVT (R203): Converts from a source slot's format to the trim slot's format with one rounding. -/
  | cvt (d : BitVec 7) (a : BitVec 7) (f : BitVec 3)
  /-- CVTI (R204): Converts to a signed 32-bit integer. -/
  | cvti (d : BitVec 7) (a : BitVec 7)
  /-- CVTI_U (R204): Converts to an unsigned 32-bit integer. -/
  | cvtiU (d : BitVec 7) (a : BitVec 7)
  /-- CVTF (R205): Converts a signed 32-bit integer to the trim slot's format. -/
  | cvtf (d : BitVec 7) (a : BitVec 7)
  /-- CVTF_U (R205): Converts an unsigned 32-bit integer to the trim slot's format. -/
  | cvtfU (d : BitVec 7) (a : BitVec 7)
  /-- PACK_16 (R207): Inserts a 16-bit field at the lane-chosen position. -/
  | pack16 (d : BitVec 7) (a : BitVec 7) (b : BitVec 7)
  /-- PACK_8 (R207): Inserts an 8-bit field at the lane-chosen position. -/
  | pack8 (d : BitVec 7) (a : BitVec 7) (b : BitVec 7)
  /-- PACK_4 (R207): Inserts a 4-bit field at the lane-chosen position. -/
  | pack4 (d : BitVec 7) (a : BitVec 7) (b : BitVec 7)
  /-- UNPACK_16 (R207): Extracts a 16-bit field zero-extended. -/
  | unpack16 (d : BitVec 7) (a : BitVec 7) (b : BitVec 7)
  /-- UNPACK_8 (R207): Extracts an 8-bit field zero-extended. -/
  | unpack8 (d : BitVec 7) (a : BitVec 7) (b : BitVec 7)
  /-- UNPACK_4 (R207): Extracts a 4-bit field zero-extended. -/
  | unpack4 (d : BitVec 7) (a : BitVec 7) (b : BitVec 7)
  /-- XHIST (R210): Counts the exponent bins of each element into a scratchpad histogram atomically. -/
  | xhist (a : BitVec 7) (b : BitVec 7)
  /-- DOT2 (R208): Accumulates a 2-element FP16/BF16 dot product into FP32 with one rounding. -/
  | dot2 (d : BitVec 7) (a : BitVec 7) (b : BitVec 7)
  /-- DOT4 (R208): Accumulates a 4-element 8-bit dot product into FP32. -/
  | dot4 (d : BitVec 7) (a : BitVec 7) (b : BitVec 7)
  /-- DOT8 (R208): Accumulates an 8-element 4-bit dot product into FP32. -/
  | dot8 (d : BitVec 7) (a : BitVec 7) (b : BitVec 7)
  /-- RNG (R209): Writes H(seed, key, tag) per active lane. -/
  | rng (d : BitVec 7) (a : BitVec 7) (b : BitVec 7)
  /-- SHFL_IDX (R211): Copies from the lane indexed by a vector register. -/
  | shflIdx (d : BitVec 7) (a : BitVec 7) (b : BitVec 7)
  /-- SHFL_UP (R211): Copies from lane l − n. -/
  | shflUp (d : BitVec 7) (a : BitVec 7) (b : BitVec 7)
  /-- SHFL_DOWN (R211): Copies from lane l + n. -/
  | shflDown (d : BitVec 7) (a : BitVec 7) (b : BitVec 7)
  /-- SHFL_XOR (R211): Copies from lane l xor n. -/
  | shflXor (d : BitVec 7) (a : BitVec 7) (b : BitVec 7)
  /-- SHFL_BCAST (R211): Copies from lane n to every active lane. -/
  | shflBcast (d : BitVec 7) (a : BitVec 7) (b : BitVec 7)
  /-- VRED_FADD (R212): Fixed-tree floating sum of present lanes into a scalar, each node RNE. -/
  | vredFadd (d : BitVec 7) (a : BitVec 7)
  /-- VRED_FMAX (R212): Fixed-tree floating maximum into a scalar. -/
  | vredFmax (d : BitVec 7) (a : BitVec 7)
  /-- VRED_FMIN (R212): Fixed-tree floating minimum into a scalar. -/
  | vredFmin (d : BitVec 7) (a : BitVec 7)
  /-- VRED_IADD (R212): Integer sum of present lanes into a scalar. -/
  | vredIadd (d : BitVec 7) (a : BitVec 7)
  /-- VRED_IMAX (R212): Signed integer maximum into a scalar. -/
  | vredImax (d : BitVec 7) (a : BitVec 7)
  /-- VRED_IMIN (R212): Signed integer minimum into a scalar. -/
  | vredImin (d : BitVec 7) (a : BitVec 7)
  /-- VSCAN_FADD (R213): Inclusive floating prefix sum over active lanes in lane order. -/
  | vscanFadd (d : BitVec 7) (a : BitVec 7)
  /-- VSCAN_IADD (R213): Inclusive integer prefix sum over active lanes. -/
  | vscanIadd (d : BitVec 7) (a : BitVec 7)
  /-- VSCAN_IADDX (R213): Exclusive integer prefix sum over active lanes. -/
  | vscanIaddx (d : BitVec 7) (a : BitVec 7)
  /-- TRIM (R194): Writes the gang's trim register, effective from the next issued instruction. -/
  | trim (a : BitVec 7)
  /-- FSCALE (R200): Computes a × 2^n rounded once. -/
  | fscale (d : BitVec 7) (a : BitVec 7) (b : BitVec 7)
  /-- MMA (R231): Adds the product of A rows and a scratchpad B tile into an accumulator with exact sums and one promotion rounding. -/
  | mma (c : BitVec 2) (k : Bool) (a : BitVec 7) (b : BitVec 6) (l : BitVec 3) (m : BitVec 2)
  /-- MMAS (R232): Block-sparse matrix multiply-accumulate skipping blocks whose bitmap bit is clear. -/
  | mmas (c : BitVec 2) (k : Bool) (a : BitVec 7) (b : BitVec 6) (l : BitVec 3) (m : BitVec 2)
  /-- AZERO (R233): Writes +0 to all rows of an accumulator. -/
  | azero (k : BitVec 2)
  /-- ALOAD (R234): Loads FP32 rows into an accumulator bit for bit from global memory or scratchpad. -/
  | aload (k : BitVec 2) (a : BitVec 7) (g : Bool)
  /-- ADRAIN (R235): Drains accumulator rows to memory converted to the trim slot's format, optionally counting, zeroing and releasing the hold. -/
  | adrain (k : BitVec 2) (a : BitVec 7) (r : Bool) (z : Bool) (h : Bool) (g : Bool)
  /-- APEER_SEND (R237): Offers accumulator rows to an accumulator of a logical core. -/
  | apeerSend (k : BitVec 2) (a : BitVec 7)
  /-- APEER_RECV (R237): Waits for n offered sends and adds them in ascending sender core order. -/
  | apeerRecv (k : BitVec 2) (a : BitVec 7)
  /-- AROW_GET (R236): Copies 32 accumulator columns of each lane's row into vector registers. -/
  | arowGet (d : BitVec 7) (k : BitVec 2) (a : BitVec 7)
  /-- AROW_PUT (R236): Copies 32 vector registers into accumulator columns of each lane's row. -/
  | arowPut (d : BitVec 7) (k : BitVec 2) (a : BitVec 7)
  /-- CONVOY (R219): Selects a convoy definition as the gang's matrix group. -/
  | convoy (i : BitVec 3)
  /-- LD (R74): Per-lane global load of 1 to 16 bytes into vector registers. -/
  | ld (t : BitVec 7) (b : BitVec 6) (x : BitVec 7) (z : BitVec 3) (h : BitVec 2)
  /-- ST (R74): Per-lane global store, lane conflicts decided by age then lane. -/
  | st (t : BitVec 7) (b : BitVec 6) (x : BitVec 7) (z : BitVec 3) (h : BitVec 2)
  /-- LDSP (R74): Per-lane scratchpad load landing 20 clocks after its port clocks. -/
  | ldsp (t : BitVec 7) (b : BitVec 6) (x : BitVec 7) (z : BitVec 3)
  /-- STSP (R74): Per-lane scratchpad store. -/
  | stsp (t : BitVec 7) (b : BitVec 6) (x : BitVec 7) (z : BitVec 3)
  /-- LDACQ (R81): Per-lane 4-byte acquire load at a scope. -/
  | ldacq (t : BitVec 7) (b : BitVec 6) (x : BitVec 7) (c : BitVec 3)
  /-- STREL (R81): Per-lane 4-byte release store at a scope. -/
  | strel (t : BitVec 7) (b : BitVec 6) (x : BitVec 7) (c : BitVec 3)
  /-- ATOM_ADD (R82): Atomic add returning the old value. -/
  | atomAdd (t : BitVec 7) (b : BitVec 6) (x : BitVec 7) (c : BitVec 3)
  /-- ATOM_MIN (R82): Atomic signed minimum returning the old value. -/
  | atomMin (t : BitVec 7) (b : BitVec 6) (x : BitVec 7) (c : BitVec 3)
  /-- ATOM_MAX (R82): Atomic signed maximum returning the old value. -/
  | atomMax (t : BitVec 7) (b : BitVec 6) (x : BitVec 7) (c : BitVec 3)
  /-- ATOM_EXCH (R82): Atomic exchange returning the old value. -/
  | atomExch (t : BitVec 7) (b : BitVec 6) (x : BitVec 7) (c : BitVec 3)
  /-- ATOMB_AND (R82): Atomic and returning the old value. -/
  | atombAnd (t : BitVec 7) (b : BitVec 6) (x : BitVec 7) (c : BitVec 3)
  /-- ATOMB_OR (R82): Atomic or returning the old value. -/
  | atombOr (t : BitVec 7) (b : BitVec 6) (x : BitVec 7) (c : BitVec 3)
  /-- ATOMB_XOR (R82): Atomic exclusive or returning the old value. -/
  | atombXor (t : BitVec 7) (b : BitVec 6) (x : BitVec 7) (c : BitVec 3)
  /-- ATOMB_FADD (R83): Atomic FP32 add rounded RNE returning the old value; trapped in reproducible launches. -/
  | atombFadd (t : BitVec 7) (b : BitVec 6) (x : BitVec 7) (c : BitVec 3)
  /-- CAS (R82): Atomic compare-and-swap from a register pair returning the old value. -/
  | cas (t : BitVec 7) (b : BitVec 6) (x : BitVec 7) (c : BitVec 3)
  /-- MRED_ADD (R82): Atomic add returning nothing. -/
  | mredAdd (t : BitVec 7) (b : BitVec 6) (x : BitVec 7) (c : BitVec 3)
  /-- MRED_FADD (R83): Atomic FP32 add returning nothing; trapped in reproducible launches. -/
  | mredFadd (t : BitVec 7) (b : BitVec 6) (x : BitVec 7) (c : BitVec 3)
  /-- MRED_MIN (R82): Atomic signed minimum returning nothing. -/
  | mredMin (t : BitVec 7) (b : BitVec 6) (x : BitVec 7) (c : BitVec 3)
  /-- MRED_MAX (R82): Atomic signed maximum returning nothing. -/
  | mredMax (t : BitVec 7) (b : BitVec 6) (x : BitVec 7) (c : BitVec 3)
  /-- ORDAP (R87): Waits for the gang's turn on an append word, then appends lane values in order and advances the turn. -/
  | ordap (t : BitVec 7) (b : BitVec 6) (c : BitVec 3)
  /-- MRLOOK_VECTOR (R91): Per-lane mooring-table lookup giving a scratchpad offset or a miss. -/
  | mrlookVector (d : BitVec 7) (a : BitVec 7) (b : BitVec 7)
  /-- MRLOOK_SCALAR (R91): Single mooring-table lookup into a scalar. -/
  | mrlookScalar (d : BitVec 7) (a : BitVec 7)
  /-- MRSET (R92): Makes a mooring entry valid with a tag, invalidating other entries with that tag. -/
  | mrset (a : BitVec 7) (b : BitVec 7)
  /-- MRCLR (R93): Invalidates one mooring entry or all of the crew's entries. -/
  | mrclr (b : BitVec 7)
  /-- SLD (R75): Gang-state global load into scalar registers. -/
  | sld (t : BitVec 7) (b : BitVec 6) (z : BitVec 3) (h : BitVec 2)
  /-- SST (R75): Gang-state global store from scalar registers. -/
  | sst (t : BitVec 7) (b : BitVec 6) (z : BitVec 3) (h : BitVec 2)
  /-- PREF (R77): Starts die-cache fills of each active lane's line, changing no visible state and raising no trap. -/
  | pref (b : BitVec 6) (x : BitVec 7) (h : BitVec 2)
  /-- HMK (R97): Builds a handle register from four scalars after checking it. -/
  | hmk (k : BitVec 4) (a : BitVec 7)
  /-- HMK_GET (R97): Copies a handle register into four scalars. -/
  | hmkGet (d : BitVec 7) (k : BitVec 4)
  /-- CRC (R104): Crane command copying n bytes between global and scratchpad spaces, with an optional arrival. -/
  | crc (a : BitVec 7) (e : Bool) (n : BitVec 4) (y : Bool) (x : Bool)
  /-- CRT_TILE (R105): Crane moves a tensor tile into scratchpad with padding. -/
  | crtTile (k : BitVec 4) (a : BitVec 7) (e : Bool) (n : BitVec 4)
  /-- CRT_TR (R105): Crane moves a tensor tile into scratchpad transposed. -/
  | crtTr (k : BitVec 4) (a : BitVec 7) (e : Bool) (n : BitVec 4)
  /-- CRT_GATHER (R105): Crane gathers tensor rows by an index list into scratchpad. -/
  | crtGather (k : BitVec 4) (a : BitVec 7) (e : Bool) (n : BitVec 4)
  /-- CRT_DEQ (R106): Crane dequantises tokens of an INT4 key-value page into scratchpad. -/
  | crtDeq (t : Bool) (f : BitVec 4) (k : BitVec 4) (a : BitVec 7) (e : Bool) (n : BitVec 4)
  /-- LGT (R107): Lighter gathers indexed global elements into scratchpad. -/
  | lgt (a : BitVec 7) (e : Bool) (n : BitVec 4) (z : BitVec 2)
  /-- LSC (R107): Lighter scatters scratchpad elements to indexed global addresses. -/
  | lsc (a : BitVec 7) (e : Bool) (n : BitVec 4) (z : BitVec 2)
  /-- PIL_START (R109): Starts the gang's pilot chain over linked pages. -/
  | pilStart (a : BitVec 7) (e : Bool) (n : BitVec 4)
  /-- RCB (R114): Waits for a range counter to read zero, then binds it to a handle copy. -/
  | rcb (k : BitVec 4) (n : BitVec 3)
  /-- RCW (R115): Waits until a range counter reads n or less. -/
  | rcw (a : BitVec 7) (n : BitVec 3)
  /-- CCW (R117): Waits until a class counter reads n or less. -/
  | ccw (a : BitVec 7) (c : BitVec 3)
  /-- FENCE_ACQ (R118): Acquire fence over all of the gang's traffic. -/
  | fenceAcq (s : BitVec 3)
  /-- FENCE_REL (R118): Release fence waiting for all earlier accesses and engine commands. -/
  | fenceRel (s : BitVec 3)
  /-- FENCE_ACQREL (R118): Acquire and release fence. -/
  | fenceAcqrel (s : BitVec 3)
  /-- FENCE_SC (R140): Acquire-release fence taking part in the total orders of sequentially consistent fences. -/
  | fenceSc (s : BitVec 3)
  /-- FENCER_ACQ (R119): Acquire fence restricted to items of the named range counters. -/
  | fencerAcq (k : Bool) (m : BitVec 7) (s : BitVec 3)
  /-- FENCER_REL (R119): Release fence waiting for items of the named range counters. -/
  | fencerRel (k : Bool) (m : BitVec 7) (s : BitVec 3)
  /-- FENCER_ACQREL (R119): Acquire and release fence restricted to the named range counters. -/
  | fencerAcqrel (k : Bool) (m : BitVec 7) (s : BitVec 3)
  /-- CYIELD (R120): Issuing slices yield until a counter reads zero, then continue at a register address. -/
  | cyield (a : BitVec 7) (c : BitVec 4)
  /-- LDC (R353): Per-lane chart load by coordinates, background where absent or out of range. -/
  | ldc (d : BitVec 7) (k : BitVec 4) (a : BitVec 7) (z : BitVec 2)
  /-- STC (R353): Per-lane chart store by coordinates, allocating absent tiles. -/
  | stc (d : BitVec 7) (k : BitVec 4) (a : BitVec 7) (z : BitVec 2)
  /-- CHQ (R353): Per-lane chart query returning a tile block address, 0 or all ones. -/
  | chq (d : BitVec 7) (k : BitVec 4) (a : BitVec 7)
  /-- CHFREE (R357): Atomically unlinks the tile holding an element and returns its block address. -/
  | chfree (d : BitVec 7) (k : BitVec 4) (a : BitVec 7)
  /-- CHFREE_RET (R357): Puts a block back into the chart's pool. -/
  | chfreeRet (k : BitVec 4) (a : BitVec 7)
  /-- CLBINV (R358): Removes a chart's CLB entries in a scope and waits for accesses that used them. -/
  | clbinv (k : BitVec 4) (s : BitVec 3)
  /-- CLBINV_TILE (R358): Removes the CLB entries of one tile in a scope and waits for accesses that used them. -/
  | clbinvTile (k : BitVec 4) (a : BitVec 7) (s : BitVec 3)
  /-- MFST (R271): Binds the crew's manifest of first, count and stride. -/
  | mfst (a : BitVec 7)
  /-- TIDE_WAIT (R281): Waits until the tidemark passes a target, as a crew-scope acquire. -/
  | tideWait (s : Bool) (a : BitVec 7)
  /-- TIDE_AGE (R281): Writes each active lane's age and item into a vector pair. -/
  | tideAge (d : BitVec 7)
  /-- TIDE_MARK (R281): Writes the tidemark into a scalar. -/
  | tideMark (d : BitVec 7)
  /-- BR (R183): Conditional branch decided per slice, diverging a slice whose enabled lanes disagree. -/
  | br (p : BitVec 4) (n : Bool) (o : BitVec 20)
  /-- JMP (R184): Jumps to the 64-bit address in a scalar pair. -/
  | jmp (a : BitVec 7)
  /-- CALL (R185): Writes the return address to s126:127 and transfers control. -/
  | call (o : BitVec 20)
  /-- RET (R184): Returns to the address in a scalar pair. -/
  | ret (a : BitVec 7)
  /-- BAR (R257): Arrives on a crew barrier counter and waits for the next multiple of the gang count. -/
  | bar (a : BitVec 4)
  /-- BARC (R258): Arrives on a convoy barrier count and waits for the convoy's gangs. -/
  | barc (a : BitVec 3)
  /-- ARRIVE (R259): Adds one to a crew barrier counter without waiting. -/
  | arrive (a : BitVec 4)
  /-- AWAIT (R260): Waits until a crew barrier counter reaches a scalar target. -/
  | await (a : BitVec 4) (b : BitVec 7)
  /-- RSR (R187): Reads a special register into a vector, scalar or scalar pair. -/
  | rsr (s : Bool) (d : BitVec 7) (i : BitVec 10)
  /-- WSR_TRIM (R188): Writes the trim register from a scalar, checked by R17. -/
  | wsrTrim (d : BitVec 7)
  /-- WSR_SRKEY (R22): Writes each active lane's stochastic-rounding key. -/
  | wsrSrkey (d : BitVec 7)
  /-- WSR_FPFLAGS (R21): Writes the sticky floating-point flags, checked for reserved bits. -/
  | wsrFpflags (d : BitVec 7)
  /-- TRAP (R189): Raises USER_TRAP with a code and stops the gang after the instruction. -/
  | trap (c : BitVec 8)
  /-- TRAPIF (R189): Raises USER_TRAP if a predicate is true in any active lane. -/
  | trapif (p : BitVec 4) (c : BitVec 8)
  /-- BRK (R189): Raises BREAKPOINT with a code and stops the gang after the instruction. -/
  | brk (c : BitVec 8)
  /-- LNCH (R300): Releases at context scope and appends a launch record address to one of the context's queues. -/
  | lnch (d : BitVec 7) (a : BitVec 7) (b : BitVec 7)
  /-- CTX_NEW (R336): Creates a child context from a creation block. -/
  | ctxNew (p : BitVec 5) (b : BitVec 5) (d : BitVec 5)
  /-- CTX_NEW_ROOT (R337): Configures the root's queue table and fault ring once per reset. -/
  | ctxNewRoot (p : BitVec 5) (b : BitVec 5) (d : BitVec 5)
  /-- CTX_GRANT (R338): Grants a child memory, cores, ports, namespaces or a doorbell page. -/
  | ctxGrant (b : BitVec 5) (c : BitVec 5) (d : BitVec 5)
  /-- CTX_REVOKE (R344): Starts revoking a resource or a whole context, returning at once. -/
  | ctxRevoke (b : BitVec 5) (c : BitVec 5) (d : BitVec 5)
  /-- CTX_REVOKE_COLD (R391): Pages a halted context out to a namespace as an encrypted image, or re-points a cold image. -/
  | ctxRevokeCold (b : BitVec 5) (c : BitVec 5) (d : BitVec 5)
  /-- CTX_GO (R340): Moves a created or halted child to running, restoring saved state. -/
  | ctxGo (c : BitVec 5) (d : BitVec 5)
  /-- CTX_HALT_QUERY (R340): Returns the child's state without changing it. -/
  | ctxHaltQuery (m : BitVec 5) (c : BitVec 5) (d : BitVec 5)
  /-- CTX_HALT_SOFT (R379): Starts the soft step of the pre-emption ladder for the child and its descendants. -/
  | ctxHaltSoft (m : BitVec 5) (c : BitVec 5) (d : BitVec 5)
  /-- CTX_HALT_FORCED (R379): Starts the forced step, raising the halt line and starting the kill timer. -/
  | ctxHaltForced (m : BitVec 5) (c : BitVec 5) (d : BitVec 5)
  /-- CTX_BUDGET (R343): Moves time and energy units between parent and child and sets the budget mode. -/
  | ctxBudget (b : BitVec 5) (c : BitVec 5) (d : BitVec 5)
  /-- CTX_SCOPE (R339): Sets the child's scope-policy register. -/
  | ctxScope (s : BitVec 5) (c : BitVec 5) (d : BitVec 5)
  /-- TLBINV_VIRTUAL (R327): Broadcasts an invalidation of a context's virtual range. -/
  | tlbinvVirtual (a : BitVec 5) (c : BitVec 5)
  /-- TLBINV_FRAMES (R327): Broadcasts an invalidation of a context's physical frames and every translation through them. -/
  | tlbinvFrames (a : BitVec 5) (c : BitVec 5)
  /-- NOP (R53): The all-zero word executes once per gang and changes nothing except the program counter. -/
  | nop
  /-- CONVOY_NONE (R219): Returns the gang to solo matrix issue. -/
  | convoyNone
  /-- PIL_NEXT (R111): Frees the oldest outstanding pilot notice. -/
  | pilNext
  /-- PIL_STOP (R111): Ends the gang's pilot chain at once. -/
  | pilStop
  /-- CYIELD_RESUME (R120): Yielded slices continue at their saved address once the named counter reads zero. -/
  | cyieldResume
  /-- BERTH (R274): Enters refill mode, or berths active lanes or retires them from the retire step. -/
  | berth
  /-- REFILL_CHECK (R277): At the end of a step or when the draw window opens, the gang counts lanes and drains, waits, runs an episode or starts a body pass. -/
  | refillCheck
  /-- JOIN (R245): Pops the slice's mask stack, running the pending path or reuniting lanes. -/
  | join
  /-- REGANG (R251): Waits until every live slice waits at a regang, then merges slices at the same address. -/
  | regang
  /-- EXIT (R186): Ends the enabled lanes of each issuing slice, ending slices and the gang when none remain. -/
  | exit
  /-- LOAD_SECTOR (R69): A 32-byte sector of a global load arrives and its bytes are written to the lanes' destination registers. -/
  | loadSector
  /-- ENGINE_COMMAND_COMPLETE (R101): An engine command completes in class order, lowering its counters and making its arrival. -/
  | engineCommandComplete
  /-- PILOT_NOTICE (R110): The pilot commits to a page when fewer than four notices are outstanding, fetches it and writes a notice. -/
  | pilotNotice
  /-- EPOCH_MARKER (R136): A die receives an epoch marker and raises its applied vector entry for the sender. -/
  | epochMarker
  /-- HOST_LINK_WRITE (R139): A host write to device memory is applied in arrival order unless it carries Relaxed Ordering. -/
  | hostLinkWrite
  /-- QUAY_LINK_WRITE (R139): A write from a peer device over a quay link is applied in arrival order. -/
  | quayLinkWrite
  /-- DOORBELL (R294): A write of a queue number to the context's doorbell page makes the device read that queue's tail. -/
  | doorbell
  /-- LEASE_QUANTUM_BOUNDARY (R298): Every 250 µs, still-ready mapped queues are appended to the service list and the first 512 are mapped. -/
  | leaseQuantumBoundary
  /-- LAUNCH_ACCEPT (R292): A mapped slot reads and checks its head entry's record and accepts it, handing the launch to the distributor. -/
  | launchAccept
  /-- CREW_PLACE (R301): Each clock the distributor places the lowest unplaced crew of the first launch that fits on a core. -/
  | crewPlace
  /-- CREW_END (R186): When all gangs have ended and their items completed, the crew's scratchpad, counters, convoy and mooring entries are released. -/
  | crewEnd
  /-- LAUNCH_COMPLETE (R293): When every crew has ended the device writes state 2 as a system-scope release. -/
  | launchComplete
  /-- RETRY_TIMER (R331): Every 50 µs held accesses and side-log entries are retried. -/
  | retryTimer
  /-- PENDING_RECORD_WRITE (R421): When a full fault ring's head moves, pending records are written in order. -/
  | pendingRecordWrite
  /-- BARRIER_TIMEOUT (R263): A gang waiting at bar, barc or await for 2^32 counted clocks stops with BARRIER_TIMEOUT. -/
  | barrierTimeout
  /-- COLLECTION_WINDOW_CLOSE (R377): After 32 clocks the collection window closes and the core raises the halt line. -/
  | collectionWindowClose
  /-- HALT_COMPLETE (R371): Once units stopped, vectors caught up and records and save area written, the context reads halted. -/
  | haltComplete
  /-- GRACE_TIMER_EXPIRY (R379): The grace timer expiring in the soft step with a crew resident moves the context to the forced step. -/
  | graceTimerExpiry
  /-- KILL_TIMER_EXPIRY (R380): The kill timer expiring before the halt completes resets the context's units and discards its work. -/
  | killTimerExpiry
  /-- BUDGET_EXHAUSTED (R342): A drawn time or energy counter reaching zero forces every drawing context to the forced step. -/
  | budgetExhausted
  /-- FRAME_PULL (R393): After a parent grants a cold frame, the device reads, decrypts and checks it and writes it into the new frame. -/
  | framePull
  /-- REVOCATION_END (R344): When a revocation's steps finish, an end record with cause none is written to the acting parent's ring. -/
  | revocationEnd
  /-- TLBFENCE_RETIRE (R328): A tlbfence retires once its hart's invalidations have completed, triggering retries of held accesses. -/
  | tlbfenceRetire
  /-- PATROL_SCRUB (R396): The patrol scrubber reads every HBM sector once in 24 hours and reports uncorrectable sectors to the root's ring. -/
  | patrolScrub
  /-- TLBFENCE (R328): Waits for the hart's earlier invalidations to complete. -/
  | tlbfence
  /-- DEVICE_RESET (R400): The ROM brings up Ethernet, obtains a boot URI by DHCPv6 and fetches the image, or enters minimal mode. -/
  | deviceReset
  /-- IMAGE_FETCHED (R400): The fetched image's signature is checked, measurements extended and root firmware started. -/
  | imageFetched
  /-- IMAGE_FETCH_TIMEOUT (R403): No image fetched within 120 s fails the start with reason 0x01. -/
  | imageFetchTimeout
  /-- STAGE_READY (R403): A stage reports ready; when all have, the failed-start count is set to zero. -/
  | stageReady
  /-- STAGE_READY_TIMEOUT (R403): A stage not ready within 60 s fails the start with reason 0x04. -/
  | stageReadyTimeout
  /-- MINIMAL_MODE_RETRY (R403): A management retry request in minimal mode sets the count to 2 and resets the device. -/
  | minimalModeRetry
  /-- MEASUREMENT_REPORT (R402): A nonce request is answered with a signed report of the measurement registers, burning a signature index. -/
  | measurementReport
  /-- SECURITY_SENSOR (R404): A security sensor acts by logging, halting by reset, or erasing keys then halting. -/
  | securitySensor
  /-- POWER_REMOVED (R404): Removal of the 48 V input stops everything, sensors, timestamp and management included. -/
  | powerRemoved
  /-- MANAGEMENT_REQUEST (R407): A PLDM request over MCTP is answered with failure reasons, disabled-unit marks, sensors, error counts or budget counters. -/
  | managementRequest
  /-- ILLEGAL_INSTRUCTION (R53): A gang issues a word with an unassigned opcode, an unlisted selector value, a nonzero must-be-zero field or a bad form, and stops precisely with ILLEGAL_INSTRUCTION, changing nothing. -/
  | illegalInstruction
  /-- INSTRUCTION_FETCH_FAULT (R36): A gang's fetch of its next word cannot be translated or lacks execute permission, so the gang stops before issue with PAGE_FAULT_LOAD, GRANT_FAULT or PROTECTION at the fetch address. -/
  | instructionFetchFault
  /-- ENGINE_ACCESS_FAULT (R103): Part way through an engine or gantry command, an access faults in translation (the command is held and a ring record written), or meets a non-canonical address, MISALIGNED, MEMORY_UNCORRECTABLE or malformed page, outlier or row data (the engine writes its stop record and raises the halt line). -/
  | engineAccessFault
  deriving DecidableEq, Repr

end Sys2Proof
end

