-- ==== Sys2Proof/Machine/State.lean ====
section
/-!
DEFINITION. The state of the device: everything the spec names, as plain data, and the state right after reset.
Sparse data is a list of key and value pairs with strictly rising keys; the accessors stand in Machine/Ops.lean. Fields of
this model's own (DESIGN CHOICE, log 5) say which agent acts next and are marked as such.
-/
namespace Sys2Proof.Machine

/-- Values by key; an unlisted key holds zero and no listed value is zero, so equal contents are equal lists. -/
abbrev Cells (w : Nat) := List (Nat × BitVec w)

/-- Records by key. -/
abbrev Table (α : Type) := List (Nat × α)

/-- The causes of 19 R366, in code order (codes 0x00 to 0x1E). -/
inductive Trap where
  | none | illegalInstruction | illegalFormat | registerRange | misaligned | pageFaultLoad | pageFaultStore
  | protection | grantFault | scopeDenied | chartAlloc | chartFormat | scratchpadRange | barrierMisuse | convoyMismatch
  | fpInvalid | fpDivzero | fpOverflow | fpUnderflow | fpInexact | userTrap | breakpoint | memoryUncorrectable
  | pageUnreachable | barrierTimeout | budgetExhausted | killed | restoreShortfall | manifestFault | engineFault
  | reproViolation
  deriving DecidableEq, Repr

/-! ### Launches (01 R23-R31) -/

/-- A launch record as copied at acceptance (01 R23, R31). -/
structure LaunchRecord where
  /-- Kernel entry address (offset 0x00). -/
  entry : DWord
  /-- Refill section addresses (0x08, 0x10, 0x18); zero when refill is off. -/
  prologue : DWord
  body : DWord
  retire : DWord
  /-- Number of crews (0x20). -/
  crewCount : DWord
  /-- Parameter-block address (0x28). -/
  params : DWord
  /-- Geometry word (0x30; R24) and control word (0x34; R25). -/
  geometry : Word
  control : Word
  /-- Launch identifier (0x38). -/
  ident : Word
  /-- Predecessor identifiers (0x40), four words. -/
  preds : List Word
  /-- Launch seeds 0 to 3 (0x50). -/
  seeds : List Word
  /-- Format slots 0 to 7 (0x60; R27). -/
  slots : List (BitVec 16)
  /-- Role map (0x70). -/
  roles : DWord
  /-- Convoy definitions 0 to 7 (0x80; R26). -/
  convoys : List Word
  deriving DecidableEq, Repr

/-- An accepted launch that has not completed (13 R292, R301; 19 R382). -/
structure Launch where
  record : LaunchRecord
  /-- Queue number and entry count it was taken from (13 R291). -/
  queue : Nat
  /-- Virtual address of its command entry. -/
  entryAddr : DWord
  /-- Order of acceptance within the context (13 R301). -/
  order : Nat
  /-- Next unplaced crew index (13 R301). -/
  nextCrew : Nat
  /-- Crews that have ended. -/
  crewsEnded : Nat
  /-- State 1 accepted, or state 5 stopped by a halt that may resume (13 R292, 19 R378). -/
  stopped : Bool
  /-- The code with which a halt has stopped it; 0 for none. -/
  code : Nat
  deriving DecidableEq, Repr

/-! ### Slices and gangs -/

/-- The kind of a mask-stack entry (11 R243). -/
inductive EntryKind where
  | running | pending | resumed | resumedFree
  deriving DecidableEq, Repr

/-- One mask-stack entry (11 R243). -/
structure MaskEntry where
  mask : BitVec 4
  kind : EntryKind
  addr : DWord
  deriving DecidableEq, Repr

/-- Whether a slice runs, has finished its part of a refill step (12 R274, R275), or has ended (11 R246). -/
inductive SliceStatus where
  | running | finished | ended
  deriving DecidableEq, Repr

/-- A slice that has yielded: the counter it waits on and where it continues (04 R120). -/
structure Yield where
  counter : Nat
  target : DWord
  deriving DecidableEq, Repr

/-- One slice: four lanes with one program counter and a mask stack, top entry first (01 R32, 11 R243). -/
structure Slice where
  pc : DWord
  stack : List MaskEntry
  status : SliceStatus
  /-- Issue group, named by the lowest slice index in it (11 R248). -/
  group : Nat
  /-- Waiting at a `regang` (11 R251). -/
  parked : Bool
  yielded : Option Yield
  deriving DecidableEq, Repr

/-- The state of a lane in refill mode (12 R269). -/
inductive LaneState where
  | outside | fresh | working | berthed | idle
  deriving DecidableEq, Repr

/-- The step a gang in refill mode is in (12 R269, 19 R384). -/
inductive RefillStep where
  | bodyPass | retire | prologue | check
  deriving DecidableEq, Repr

/-- Refill mode: the step, the state of each lane, and the slices saved by the entering `berth` (12 R273). -/
structure Refill where
  step : RefillStep
  lanes : List LaneState
  saved : List Slice
  deriving DecidableEq, Repr

/-- A gang-level wait that keeps state: `bar` or `barc` with its 64-bit target, or an `await` (11 R264); or an
instruction of one group that has issued and keeps the gang from issuing any other. -/
inductive Wait where
  | none
  | bar (counter target : Nat)
  | barc (defn target : Nat)
  /-- `await`, which waits at issue, with its target (11 R260). -/
  | await (counter : Nat) (target : Word)
  /-- A release fence waits for what is earlier (04 R118, R119), an access behind a logged one or for room in the side log (16 R332, R418),
  or `stc` has begun an allocation (17 R355). -/
  | issued (group : Nat)
  /-- `ordap` waits for its turn (03 R88); with an active lane it counts already, on `ldcount`, `ccload` and these range counters (03 R70, 04
  R112). -/
  | ordap (group : Nat) (counted : Option (BitVec 8))
  /-- `clbinv` has removed its entries and waits for the accesses issued below this serial number (17 R358). -/
  | cleared (group serial : Nat)
  deriving DecidableEq, Repr

/-- A faulting access that holds its gang or command (03 R78, 04 R103, 16 R331). `retry` is set by a retry event. -/
structure Hold where
  cause : Trap
  addr : DWord
  retry : Bool
  /-- The issue group of the instruction at which a gang is held; zero for a command. -/
  group : Nat
  deriving DecidableEq, Repr

/-- A range counter: its count and the handle it is bound to, zero when unbound (04 R112). -/
structure RangeCounter where
  count : Nat
  binding : BitVec 128
  /-- Entry-wise maximum of the applied vectors that served the reads of its items that have completed (05 R136). -/
  seen : List DWord
  deriving DecidableEq, Repr

/-- One byte of a load still to land: register key (register x 64 + lane, or the register for a scalar load), byte number,
value. -/
structure Piece where
  key : Nat
  index : Nat
  value : Byte
  deriving DecidableEq, Repr

/-- A sector of a load that is still to land: its pieces, and the range counters that cover some of its bytes (04 R113). -/
structure Sector where
  counted : BitVec 8
  pieces : List Piece
  deriving DecidableEq, Repr

/-- A load whose data is still landing, sector by sector (03 R69, R70). -/
structure Load where
  id : Nat
  /-- Into s registers instead of v registers. -/
  scalar : Bool
  /-- Destination registers, pending until the whole load has landed. -/
  dests : List Nat
  sectors : List Sector
  /-- Counted on `ldcount` and `ccload` (03 R70, 04 R116); chart accesses are not. -/
  onCounter : Bool
  /-- The range counters on which it still counts (04 R112, R113). -/
  counted : BitVec 8
  /-- Entry-wise maximum of the applied vectors that served its reads (05 R136). -/
  seen : List DWord
  /-- The tiles it reads through a chart: descriptor address and tile coordinates (17 R358). -/
  tiles : List (Nat × Nat × Nat × Nat)
  deriving DecidableEq, Repr

/-- A fault met in translation: its cause, the address a record gives, the level of the failing grant array, and the context
in whose ring the record starts (16 R333, R334). -/
structure AccessFault where
  cause : Trap
  addr : DWord
  level : Nat
  ring : Nat
  deriving DecidableEq, Repr

/-- A chart as its descriptor gives it: `e` is the number of bytes of an element (17 R345). -/
structure Chart where
  desc : Nat
  root : Nat
  ex : Nat
  ey : Nat
  ez : Nat
  size : Nat
  e : Nat
  background : Nat
  pool : Nat
  deriving DecidableEq, Repr

/-- Blocks that an `stc` has taken from a pool and filled for a lane, and has yet to link: the link's address and depth (17 R355). -/
structure Allocation where
  lane : Nat
  link : Nat
  depth : Nat
  blocks : List Nat
  deriving DecidableEq, Repr

/-- A lane of an `stc` whose element has a tile: the tile's coordinates, and the element's address (17 R353). -/
structure LaneTile where
  lane : Nat
  tile : Nat × Nat × Nat
  va : Nat
  deriving DecidableEq, Repr

/-- A lane of an `stc` that is to be logged: what failed in it, none where it only stands behind a logged entry, and the blocks that it has
taken and could not put back (16 R332, R418; 17 R354). -/
structure LaneFault where
  lane : Nat
  fault : Option AccessFault
  owed : List Nat
  deriving DecidableEq, Repr

/-- An `stc` between its turns (17 R352-R355): the serial number at which it has begun, the chart that it has checked, the lanes that have
acted, the one that has lost its swap, and the blocks of the one that has yet to make it. -/
structure ChartStore where
  id : Nat
  chart : Chart
  tiles : List LaneTile
  faults : List LaneFault
  lost : Option Nat
  taken : Option Allocation
  deriving DecidableEq, Repr

/-- A notice to whose page the pilot has committed, and that is not yet written (04 R110). -/
structure Notice where
  /-- The serial number that the next command had when the pilot committed to it: it is an item issued then (04 R112). -/
  id : Nat
  /-- Its chain: the serial number, address, page size, notice ring, arrival and stamp of its `pil.start`. -/
  chain : Nat
  pc : DWord
  pageSize : Nat
  ring : Nat
  arrival : Option Nat
  stamp : List DWord
  /-- Its number in the chain. -/
  number : Nat
  page : DWord
  /-- The terminating notice. -/
  terminal : Bool
  /-- Bytes 8 to 15 of its page's header, once the pilot has read it, and what served that read (05 R136). -/
  header : Option Nat
  seen : List DWord
  /-- The range counters on which it counts (04 R112). -/
  counted : BitVec 8
  /-- The fault at which the read of its page holds the pilot (04 R103). -/
  held : Option Hold
  deriving DecidableEq, Repr

/-- The pilot of a gang: its last chain, and the notices of that and of earlier ones (04 R109-R111). -/
structure Chain where
  /-- Serial number, among the commands', of its `pil.start`, and that instruction's address. -/
  id : Nat
  pc : DWord
  /-- Address of the next page to commit to; none until the header of the page before has been read. -/
  next : Option DWord
  /-- The next notice is the terminating one: the last page's successor was 0. -/
  terminal : Bool
  committed : Nat
  limit : Nat
  pageSize : Nat
  /-- Scratchpad offset of the notice ring. -/
  ring : Nat
  arrival : Option Nat
  /-- Notices written and not yet freed by `pil.next`. -/
  unfreed : Nat
  /-- Nothing further is committed. -/
  ended : Bool
  /-- The notices committed to and not yet written, oldest first, with those of earlier chains. -/
  notices : List Notice
  stamp : List DWord
  deriving DecidableEq, Repr

/-- A stop record (19 R372). -/
structure StopRecord where
  timestamp : Nat
  source : Nat
  cause : Trap
  flags : BitVec 8
  ctx : Nat
  core : Nat
  laneMask : DWord
  age : Word
  gang : Nat
  code : Nat
  address : DWord
  pc : DWord
  trapPc : DWord
  launch : Word
  deriving DecidableEq, Repr

/-- A resident gang, keyed by core x 128 + partition x 8 + rotation position (01 R11, R14, R32; 19 R384). -/
structure Gang where
  ctx : Nat
  /-- Key of its crew. -/
  crew : Nat
  /-- Gang index in the crew. -/
  index : Nat
  /-- Gang width in lanes: 16, 32 or 64. -/
  width : Nat
  /-- Declared vector registers per lane. -/
  nregs : Nat
  /-- Vector registers, keyed by register x 64 + lane. -/
  v : Cells 32
  /-- Scalar registers. -/
  s : Cells 32
  /-- Predicates p1 to p15 as lane masks. -/
  p : Cells 64
  /-- Handle registers. -/
  k : Cells 128
  /-- Stochastic-rounding keys by lane. -/
  srkey : Cells 32
  trim : Word
  fpflags : Word
  /-- Age of each lane's iteration, 0xFFFF_FFFF for none (01 R19). -/
  ages : List Word
  slices : List Slice
  /-- Lowest slice of the group that last issued (11 R249). -/
  lastGroup : Nat
  /-- Instruction words issued (01 R20). -/
  words : Nat
  /-- Selected convoy definition; none is solo (09 R219). -/
  convoy : Option Nat
  rc : List RangeCounter
  /-- Loads in issue order; a landed load stays until every earlier one has landed (04 R116). -/
  loads : List Load
  chain : Option Chain
  wait : Wait
  /-- Counted clocks of the wait (11 R263). -/
  waited : Nat
  held : Option Hold
  /-- The gang has stopped at this record and issues nothing (19 R369). -/
  stop : Option StopRecord
  stamp : List DWord
  /-- Entry-wise maximum of the applied vectors that served its value-returning accesses so far, which an acquire fence covers (05
  R136). -/
  seen : List DWord
  /-- The same for the completed items of each class counter, numbered as in 04 R117 (05 R136). -/
  classSeen : List (List DWord)
  /-- The `stc` that has begun an allocation and is not done (17 R355). -/
  alloc : Option ChartStore
  refill : Option Refill
  deriving DecidableEq, Repr

/-! ### Crews, convoys, engines -/

/-- A gang's issue group waiting at a rendezvous latch (09 R221), with its rows' register words as they stand. -/
structure Arrival where
  gang : Nat
  group : Nat
  sparse : Bool
  acc : Nat
  keep : Bool
  slot : Nat
  rows : Nat
  /-- First A register and base pair fields. -/
  a : Nat
  b : Nat
  /-- Active lanes. -/
  lanes : DWord
  /-- Register words v(a) to v(a+44) of each lane of the gang. -/
  words : List (List Word)
  /-- Registers s(2b), s(2b+2), s(2b+3), s(2b+4). -/
  scalars : List Word
  trim : Word
  pc : DWord
  deriving DecidableEq, Repr

/-- A convoy-table entry (11 R254). The operand latch stands in the gantry bank. -/
structure Convoy where
  defn : Nat
  /-- Gang indices in list order. -/
  gangs : List Nat
  arrivals : List Arrival
  /-- Convoy barrier arrival total (11 R257). -/
  total : Nat
  deriving DecidableEq, Repr

/-- A crew's manifest (12 R271). -/
structure Manifest where
  first : Word
  count : Word
  stride : Word
  next : Nat
  tidemark : Nat
  /-- Retired ages above the tidemark. -/
  retired : List Nat
  /-- The last draw: its clock, and the index of the gang that drew (12 R278). -/
  drew : Option (Nat × Nat)
  deriving DecidableEq, Repr

/-- A resident crew, keyed by core x 8 + crew slot (11 R252). -/
structure Crew where
  ctx : Nat
  /-- Identifier of its launch. -/
  launch : Word
  record : LaunchRecord
  index : Nat
  /-- Gang keys in gang-index order. -/
  gangs : List Nat
  /-- Scratchpad granules of the core in the order of the crew's offsets (11 R253). -/
  granules : List Nat
  /-- Barrier arrival totals (11 R257). -/
  barriers : Cells 64
  convoys : List Convoy
  manifest : Option Manifest
  /-- Mooring entries: entry number to tag plus one (03 R90). -/
  mooring : Cells 64
  deriving DecidableEq, Repr

/-- What a side-log entry performs (16 R332). -/
inductive SideOp where
  | store | redAdd | redFadd | redMin | redMax
  /-- A chart store: descriptor address and coordinates (17 R354). -/
  | chart (desc : DWord) (x y z : Word)
  deriving DecidableEq, Repr

/-- A side-log entry (16 R332). -/
structure SideEntry where
  op : SideOp
  addr : DWord
  data : BitVec 128
  size : Nat
  gang : Nat
  ctx : Nat
  lane : Option Nat
  age : Word
  cause : Trap
  launch : Word
  repro : Bool
  /-- The address its fault record gave; none while it only stands behind an overlapping entry. -/
  faultAt : Option DWord
  /-- The range counters that cover some of its bytes and counted its item (04 R112). -/
  counted : BitVec 8
  /-- The instruction it belongs to: a range counter falls when the last entry of the item whose bytes it covers has been
  performed (04 R113). -/
  item : Nat
  /-- An entry of `strel`: its write begins an epoch when it is performed (05 R135). -/
  release : Bool
  /-- The gang's stamp at issue (05 R137). -/
  stamp : List DWord
  /-- Blocks that its lane has taken and could not put back, each with its pool: a retry puts them back first (17 R354). -/
  owed : List (Nat × Nat)
  deriving DecidableEq, Repr

/-- What an engine command does, with its block as read at issue (04 R98). -/
inductive Work where
  /-- `crc`: source and destination spaces (true for scratchpad), addresses, byte count (04 R104). -/
  | copy (srcPad dstPad : Bool) (src dst : DWord) (n : Nat)
  /-- `crt` modes 0 to 2 (04 R105). -/
  | tile (mode : Nat) (handle : BitVec 128) (dst pitch r0 c0 m n : Nat) (pad : Word) (index : Nat)
  /-- `crt` mode 3 (04 R106). -/
  | dequant (format : Nat) (transpose : Bool) (handle : BitVec 128) (dst pitch : Nat) (page : DWord) (j0 n : Nat) (pad : Word)
  /-- `lgt` and `lsc` (04 R107). -/
  | gather (size index n : Nat) (base : DWord) (data : Nat)
  | scatter (size index n : Nat) (base : DWord) (data : Nat)
  /-- `mma` and `mmas`, released (09 R221, R230). `latch` keys the group's operand latch. -/
  | joint (sparse : Bool) (acc : Nat) (keep : Bool) (slot rows : Nat) (latch : Nat) (parts : List Arrival)
  | azero (acc : Nat)
  | aload (acc : Nat) (pad : Bool) (src : DWord) (pitch first count : Nat)
  | adrain (acc : Nat) (pad hist zero release : Bool) (dst : DWord) (pitch first count : Nat) (table : Nat) (key : Word)
      (slot : BitVec 16) (trim : Word) (modifier : Option Modifier) (seed : Word)
  | peerSend (acc destCore destAcc rows : Nat)
  /-- The offered sends it takes, by command, and the trim at issue. -/
  | peerRecv (acc rows : Nat) (sends : List Nat) (trim : Word)
  | rowGet (acc d row col : Nat) (lanes : DWord)
  | rowPut (acc row col : Nat) (lanes : DWord) (words : List (List Word))
  deriving DecidableEq, Repr

/-- Engine classes (04 R98, numbered as in R117). -/
inductive EngineClass where
  | crane | lighter | gantry | pilot
  deriving DecidableEq, Repr

/-- An outstanding engine command (04 R98-R103). -/
structure Command where
  /-- Issue order over the device. -/
  id : Nat
  cls : EngineClass
  work : Work
  /-- The gangs that count it, the issuing gang first. -/
  gangs : List Nat
  ctx : Nat
  crew : Nat
  launch : Word
  /-- Barrier counter to arrive on at completion (04 R102). -/
  arrival : Option Nat
  /-- It has stopped its context, and is performed no further before a resume (04 R103; 19 R369). -/
  stopped : Bool
  /-- Leading elements, bytes or rows already performed (19 R370). -/
  progress : Nat
  held : Option Hold
  /-- Range counters of the issuing gang, and of each further gang, that counted it (04 R112). -/
  counted : List (BitVec 8)
  stamp : List DWord
  /-- Entry-wise maximum of the applied vectors that served its reads (05 R136). -/
  seen : List DWord
  pc : DWord
  /-- An offered peer send waits for a receive (09 R237). -/
  offered : Bool
  /-- Its own work is done; it counts as complete after every earlier command of its class and gang (04 R101). -/
  done : Bool
  deriving DecidableEq, Repr

/-- An offered peer send (09 R237). -/
structure Offer where
  cmd : Nat
  /-- Logical cores of the sender and of the destination. -/
  core : Nat
  dest : Nat
  acc : Nat
  destAcc : Nat
  rows : Nat
  deriving DecidableEq, Repr

/-- A gantry accumulator bank of one context on one core (09 R225, R238). -/
structure Bank where
  /-- Elements keyed by accumulator x 24,576 + row x 128 + column. -/
  acc : Cells 32
  /-- Crew key plus one of each accumulator's holder, zero when unheld. -/
  holds : Cells 32
  /-- Operand latches that hold rows: by gang field of a solo gang, or 128 + crew slot x 8 + convoy definition; per row the
  register words, none where not held (09 R224, 19 R387). -/
  latches : Table (List (List (Option Word)))
  offers : List Offer
  deriving DecidableEq, Repr

/-- An event collected in a floating-point collection window (19 R377). -/
structure WindowEvent where
  issued : Nat
  gang : Nat
  cause : Trap
  lanes : DWord
  address : DWord
  pc : DWord
  trapPc : DWord
  deriving DecidableEq, Repr

/-- An open collection window (19 R377). -/
structure Window where
  ctx : Nat
  closes : Nat
  events : List WindowEvent
  deriving DecidableEq, Repr

/-- A cached composed translation (16 R325). -/
structure TlbEntry where
  ctx : Nat
  /-- Virtual base and log2 of the size it covers. -/
  va : Nat
  log2 : Nat
  machine : Nat
  read : Bool
  write : Bool
  execute : Bool
  /-- The context of each grant entry of its chain, and the first frame there that it passes through. -/
  chain : List (Nat × Nat)
  deriving DecidableEq, Repr

/-- A coordinate look-aside entry (17 R351). -/
structure ClbEntry where
  ctx : Nat
  desc : Nat
  tx : Nat
  ty : Nat
  tz : Nat
  block : Nat
  /-- The contexts and frames its block and descriptor translate through. -/
  chain : List (Nat × Nat)
  /-- Entry-wise maximum of the applied vectors that served the reads of its links (17 R360). -/
  seen : List DWord
  deriving DecidableEq, Repr

/-- An issue port: the rotation position that last had a turn plus one, and the clock until which it is occupied. -/
structure Port where
  last : Nat
  busy : Nat
  deriving DecidableEq, Repr

/-- A physical compute core: die x 48 + core. -/
structure Core where
  disabledPartitions : List Nat
  gantryDisabled : Bool
  /-- Scratchpad bytes by physical offset. -/
  scratch : Cells 8
  /-- Last holding context plus one of each granule, zero for none (11 R253). -/
  holders : Cells 32
  sideLog : List SideEntry
  banks : Table Bank
  /-- Contexts whose banks are in the gantry, most recently used first, at most two (09 R238). -/
  residentBanks : List Nat
  windows : List Window
  tlb : List TlbEntry
  clb : List ClbEntry
  /-- Issue ports, keyed by partition x 2 + port. -/
  ports : Table Port
  /-- Contexts placed here, most recent first (13 R305). -/
  placed : List Nat
  deriving DecidableEq, Repr

/-- A compute die (05 R135, R136). -/
structure Die where
  epoch : DWord
  /-- Newest epoch received from each of the four dies. -/
  applied : List DWord
  /-- Last-level TLB (16 R325). -/
  tlb : List TlbEntry
  deriving DecidableEq, Repr

/-- An epoch marker in flight (05 R135). -/
structure Marker where
  src : Nat
  dst : Nat
  epoch : DWord
  deriving DecidableEq, Repr

/-! ### Contexts -/

/-- The state of a context (16 R314), in the order of its codes. -/
inductive ContextState where
  | created | running | halting | halted | revoking
  deriving DecidableEq, Repr

/-- A fault-ring record (16 R333). -/
structure FaultRecord where
  address : DWord
  timestamp : Nat
  ctx : Nat
  cause : Trap
  flags : BitVec 8
  core : Nat
  gang : Nat
  level : Nat
  age : Word
  deriving DecidableEq, Repr

/-- What a record that waits for room in its ring keeps waiting (16 R334, 19 R421). -/
inductive Blocked where
  | none
  | gang (key : Nat)
  | command (id : Nat)
  | queue (ctx q : Nat)
  | port (port ctx : Nat)
  deriving DecidableEq, Repr

/-- A record waiting for room in the ring of a context. -/
structure PendingRecord where
  ring : Nat
  record : FaultRecord
  blocks : Blocked
  deriving DecidableEq, Repr

/-- A DMA access of a port that is held at a fault, with its command (16 R334, 04 R103). -/
structure PortHold where
  port : Nat
  ctx : Nat
  va : Nat
  data : List Byte
  write : Bool
  hold : Hold
  deriving DecidableEq, Repr

/-- The pre-emption ladder of a halt in progress (19 R379). -/
structure Halt where
  /-- In the forced step: the halt line is raised (19 R367). -/
  forced : Bool
  cause : Trap
  /-- Clock at which the grace timer expires in the soft step, and the kill timer in the forced step. -/
  deadline : Nat
  /-- Stop records of events and engines, in event order. -/
  records : List StopRecord
  /-- It was running when the halt of an ancestor began, and resumes with that ancestor (16 R340). -/
  resume : Bool
  /-- It halts with an ancestor, whose halt it is: the ancestor's timers and notice are its own. -/
  inherited : Bool
  /-- The context whose halt this is: itself, or that ancestor. -/
  root : Nat
  deriving DecidableEq, Repr

/-- One logical core of a saved context (19 R381-R387). -/
structure SavedCore where
  logical : Nat
  /-- Stop records of the core's units, first event first (19 R375, R383). -/
  records : List StopRecord
  /-- Crews by crew slot with the scratchpad image of each (19 R383, R385). -/
  crews : Table (Crew × Cells 8)
  /-- Gangs by gang slot (19 R384). -/
  gangs : Table Gang
  sideLog : List SideEntry
  bank : Option Bank
  deriving DecidableEq, Repr

/-- The save area of a halted context (19 R381, R382; log 22). -/
structure Saved where
  cause : Trap
  forced : Bool
  haltTime : Nat
  /-- Stop records of lighters and ports, in event order (19 R382). -/
  records : List StopRecord
  cores : List SavedCore
  commands : List Command
  deriving DecidableEq, Repr

/-- A revocation in progress (16 R344, 19 R391). -/
structure Revocation where
  kind : Nat
  size : Nat
  a : Nat
  b : Nat
  /-- The acting parent. -/
  actor : Nat
  /-- Machine addresses of the frames to scrub; until then a grant of one is busy. -/
  scrub : List Nat
  /-- The physical compute cores to remove (kind 1). -/
  cores : List Nat
  /-- What was issued below this serial number ends before the frames are scrubbed (16 R328). -/
  serial : Nat
  deriving DecidableEq, Repr

/-- Time and energy counters of a context (16 R341, R342). -/
structure Budget where
  carved : Bool
  time : DWord
  energy : DWord
  /-- Consumption not yet amounting to a unit: clocks and femtojoules. -/
  clocks : Nat
  femtojoules : Nat
  /-- A counter that is drawn from has reached zero and the halt of R342 has not yet been taken. -/
  exhausted : Bool
  deriving DecidableEq, Repr

/-- An entry of the failure list (13 R297). -/
structure Failure where
  ident : Word
  state : Nat
  code : Nat
  deriving DecidableEq, Repr

/-- A context (16 R314, R315, R336). -/
structure Context where
  parent : Nat
  depth : Nat
  state : ContextState
  /-- Clock at which it was created (01 R20). -/
  createdAt : Nat
  /-- The root alone: configured by its `ctx.new` (16 R337). -/
  configured : Bool
  root : Nat
  sizes : List Nat
  frames : Nat
  queues : Nat
  queueTable : Nat
  ringAddr : Nat
  ringEntries : Nat
  /-- Grant array entries by frame (16 R323). -/
  grants : Cells 64
  /-- Frames marked cold (19 R391). -/
  coldFrames : List Nat
  /-- Physical compute cores in logical order (16 R315). -/
  cores : List Nat
  gpCores : List Nat
  ports : List Nat
  /-- Storage port and namespace identifier; the root holds besides every namespace that no other context holds. -/
  namespaces : List (Nat × Nat)
  /-- Physical address of the doorbell page (16 R338). -/
  doorbell : Option Nat
  /-- Scope policy: bit 0 device, bit 1 system (16 R339). -/
  scope : BitVec 2
  budget : Budget
  launches : List Launch
  failures : List Failure
  accepted : Nat
  /-- Freed crew slots that have the first claim on the next crew: the clock at which each was freed, and its core (13 R304). -/
  freed : List (Nat × Nat)
  halt : Option Halt
  saved : Option Saved
  cold : Bool
  resumeWithParent : Bool
  /-- The context with whose halt it last halted: itself, or the ancestor with which it resumes (16 R340). -/
  haltRoot : Nat
  /-- It is assigned a virtual function of the host link (21 R406). -/
  function : Bool
  pullFailures : Nat
  /-- Where its cold image lies: storage port and namespace (19 R391). -/
  image : Option (Nat × Nat)
  revocation : Option Revocation
  deriving DecidableEq, Repr

/-- A cold image on a namespace (19 R392; log 20): its frames' bytes and the grant arrays, readable while its key is held. -/
structure Image where
  port : Nat
  namespaceId : Nat
  ctx : Nat
  /-- Contexts of the image with their saved state. -/
  contexts : Table Context
  /-- The cold context's frames with their bytes. -/
  frames : Table (Cells 8)
  deriving DecidableEq, Repr

/-- A software queue: context and number (13 R290). -/
structure QueueId where
  ctx : Nat
  number : Nat
  deriving DecidableEq, Repr

/-- A write of a queue's structures that the device has yet to make, in order (13 R420). -/
structure QueueWrite where
  queue : QueueId
  addr : DWord
  size : Nat
  data : Nat
  deriving DecidableEq, Repr

/-! ### Harts and the life of the device -/

/-- Privilege modes of a hart (16 R316, R335). -/
inductive Priv where
  | machine | hypervisor | virtualSupervisor | user | virtualUser
  deriving DecidableEq, Repr

/-- A general-purpose core of the base die (16 R316). -/
structure Hart where
  x : Cells 64
  pc : DWord
  mode : Priv
  mstatus : DWord
  mtvec : DWord
  mepc : DWord
  mcause : DWord
  mtval : DWord
  /-- Invalidations issued and not yet fenced (16 R328). -/
  unfenced : Nat
  /-- It waits in `tlbfence`, for what was issued below this serial number (16 R328). -/
  fencing : Option Nat
  /-- Supervisor external interrupts raised by fault records (16 R333). -/
  interrupts : Nat
  deriving DecidableEq, Repr

/-- Phases of a start (21 R400, R403). -/
inductive Phase where
  | fetching | starting | running | minimal
  deriving DecidableEq, Repr

/-- Sensor actions, weakest first (21 R404). -/
inductive SensorAction where
  | log | halt | erase
  deriving DecidableEq, Repr

/-- A measurement report (21 R402). -/
structure Report where
  /-- 16 bytes. -/
  serialNumber : List Byte
  startCount : Nat
  registers : List (List Byte)
  nonce : List Byte
  index : Word
  signature : List Byte
  deriving DecidableEq, Repr

/-- The marks of disabled units that the fuses hold: cores, partitions of cores, and the gantries of cores (01 R10). -/
structure Marks where
  cores : List Nat
  partitions : List (Nat × Nat)
  gantries : List Nat
  deriving DecidableEq, Repr

/-- Starting, attesting and managing the device (21). -/
structure Boot where
  phase : Phase
  failedStarts : Nat
  /-- Reason code of the last failed start, 0 for none (21 R403). -/
  lastReason : Nat
  fused : Marks
  /-- The network port, 0 to 7, on which the image came: the first to gain a link (21 R400). -/
  port : Option Nat
  /-- Stages that have been started, each with its clock, and those that have not reported ready (21 R400, R403). -/
  started : List (Nat × Nat)
  awaited : List Nat
  /-- The clock at which the image was found good, and its stages were due to start (21 R403). -/
  since : Nat
  /-- Roles of the stages of the image. -/
  stages : List Nat
  /-- Measurement registers 0 to 7 of 64 bytes (21 R401). -/
  measurements : List (List Byte)
  startCount : Nat
  signatureIndex : Nat
  reports : List Report
  sensorActions : List SensorAction
  /-- Contexts whose cold-image key the volatile key store holds (19 R392, 21 R404). -/
  keys : List Nat
  /-- Corrected soft errors by storage kind x 5 + die (21 R407). -/
  corrected : Cells 64
  /-- The last management answer, as numbers (21 R407). -/
  answer : List Nat
  deriving DecidableEq, Repr

/-! ### The model's own fields -/

/-- What an event concerns: `who`, `what` and `which` name the gang, command, core, context, slot, hart or sector, as the
event's meaning says; `data` and `flag` are what an outside party supplies. -/
structure Subject where
  who : Nat
  what : Nat
  which : Nat
  data : List Byte
  flag : Bool
  deriving DecidableEq, Repr

/-- What the world outside, or software the spec does not give, does to the device. -/
inductive Outside where
  /-- A soft error of one bit is corrected: storage kind and die (19 R395). -/
  | corrected (kind die : Nat)
  /-- A sector of HBM can no longer be corrected (19 R396). -/
  | sector (addr : Nat)
  /-- A word of a register file, scratchpad or accumulator bank of a context cannot be corrected (19 R396). -/
  | word (ctx : Nat)
  /-- A spill or fill of a gantry bank of a context cannot reach its region (19 R388). -/
  | bank (ctx : Nat)
  /-- A compute die fails its self-test in a start (21 R403). -/
  | selfTest
  /-- A unit fails its self-test, and root firmware marks it at start: a core, a partition of a core, the gantry of a core (01
  R10). -/
  | coreFails (core : Nat)
  | partitionFails (core partition : Nat)
  | gantryFails (core : Nat)
  /-- Root firmware starts a stage of the image (21 R400). -/
  | stage (number : Nat)
  /-- A context is assigned a virtual function of the host link, or it is taken from it (21 R406). -/
  | function (ctx : Nat) (assigned : Bool)
  /-- The root firmware sets the ladder's timers at boot (19 R379). -/
  | timers (graceNs killNs : Nat)
  /-- The root firmware changes a sensor's action (21 R404). -/
  | sensorAction (sensor : Nat) (action : SensorAction)
  /-- The DMA of a port (network p at p, storage p at 8 + p) reads or writes bytes of one sector for a context (16 R325). -/
  | dma (port ctx va : Nat) (data : List Byte) (write : Bool)
  /-- Instructions of RV64GC, which the spec names and does not give, have brought a hart to this state (log 23). -/
  | hart (number : Nat) (hart : Hart)
  deriving DecidableEq, Repr

/-- The next thing to happen (DESIGN CHOICE, log 5). -/
inductive Turn where
  /-- An issue port offers a turn (13 R306). -/
  | port (core partition port : Nat)
  /-- A hart executes one instruction. -/
  | hart (number : Nat)
  /-- An event comes about. -/
  | event (event : Instr) (subject : Subject)
  /-- Clocks pass. -/
  | elapse (clocks : Nat)
  /-- The world outside acts. -/
  | outside (act : Outside)
  deriving DecidableEq, Repr

/-- Bytes of global space that a chart access has moved, for a context on a core: of a descriptor, links, elements, a pool or new blocks (16
R341). -/
structure Moved where
  core : Nat
  ctx : Nat
  va : Nat
  bytes : Nat
  deriving DecidableEq, Repr

/-- The state of the device. -/
structure State where
  /-- Machine memory, byte by address (16 R317). -/
  mem : List Host.Cell
  /-- Arithmetic clocks since the device reset (01 R5, R20). -/
  clock : Nat
  powered : Bool
  boot : Boot
  /-- Ladder timers in nanoseconds (19 R379). -/
  graceNs : Nat
  killNs : Nat
  /-- Clocks at which the next retry and the next quantum boundary fall (16 R331, 13 R298). -/
  retryDue : Nat
  quantumDue : Nat
  disabledCores : List Nat
  /-- Addresses of uncorrectable HBM sectors (19 R396). -/
  badSectors : List Nat
  pending : List PendingRecord
  dies : List Die
  markers : List Marker
  /-- Port TLBs: network port p at p, storage port p at 8 + p (16 R325). -/
  portTlbs : Table (List TlbEntry)
  /-- The shoot-down sequence number. Each TLB, port TLB and CLB keeps one, and since every invalidation is broadcast to all of them
  they are equal (16 R327, R329). -/
  shootDowns : Nat
  cores : Table Core
  contexts : Table Context
  crews : Table Crew
  gangs : Table Gang
  /-- Engine commands in issue order. -/
  commands : List Command
  /-- Hardware queue slots and their queues (13 R298). -/
  slots : Table QueueId
  service : List QueueId
  /-- The queues of the service list that have joined it in this clock (13 R298). -/
  joining : List QueueId
  /-- Queues whose doorbell has been written and whose entries are not all taken (13 R294). -/
  rung : List QueueId
  /-- Time stamps of the last mapping of each queue, keyed by context x 65,536 + number. -/
  lastMapped : Table Nat
  /-- The slot each queue last had, by the same key (13 R298). -/
  lastSlot : Table Nat
  /-- Writes of queue structures not yet made, in order (13 R420). -/
  queueWrites : List QueueWrite
  /-- Crews have been placed for the clocks below this one (13 R301). -/
  placedUntil : Nat
  /-- Queues that a fault of R420 holds, with the address of the access. -/
  heldQueues : List (QueueId × Hold)
  /-- Accesses of ports that a fault holds, at most one for a port and context (16 R334). -/
  portHolds : List PortHold
  harts : Table Hart
  images : List Image
  /-- Next identifier for commands and loads. -/
  serial : Nat
  /-- What the turn under way has moved in charts, and has not drawn energy for (model). -/
  chartMoves : List Moved
  /-- The issuing gang and group (model). -/
  gang : Nat
  group : Nat
  /-- The acting hart (model). -/
  hart : Nat
  /-- The occurrence an event concerns (model). -/
  subject : Subject
  /-- The turn was not used: the instruction waits at issue (model). -/
  idle : Bool
  /-- The fault met by the last fetch: cause, fetch address, level, and the context whose ring takes its record (model). -/
  fetchFault : Option (Trap × DWord × Nat × Nat)
  /-- The turns to come (model). -/
  agenda : List Turn
  deriving DecidableEq, Repr

/-- Reasons the machine stops. -/
inductive Fault where
  /-- `step` with the 48 V input removed: nothing runs (21 R404; log 25). Safe. -/
  | noPower
  /-- `exec` of a gang's or hart's instruction in a state that names no resident gang or no hart: no run of `step` meets it,
  since a turn is only given to an agent that exists. Safe. -/
  | noIssuer
  deriving DecidableEq, Repr

/-- Reasons the model gives no meaning. -/
inductive Refusal where
  /-- Raised by the dispatch arm of an instruction without a meaning. Safe. -/
  | notModelled (mnemonic : String)
  /-- Raised by `step` for a hart's word that is no context instruction: the spec names RV64GC and does not give its
  instructions. Safe. -/
  | riscvBase
  deriving DecidableEq, Repr

/-! ### Reset -/

/-- A core right after reset: nothing resident, scratchpad reading zero (11 R253). -/
def Core.fresh : Core where
  disabledPartitions := []
  gantryDisabled := false
  scratch := []
  holders := []
  sideLog := []
  banks := []
  residentBanks := []
  windows := []
  tlb := []
  clb := []
  ports := []
  placed := []

/-- A die right after reset (log 3). -/
def Die.fresh : Die where
  epoch := 0
  applied := [0, 0, 0, 0]
  tlb := []

/-- A hart right after reset (log 4). -/
def Hart.fresh : Hart where
  x := []
  pc := 0
  mode := .machine
  mstatus := 0
  mtvec := 0
  mepc := 0
  mcause := 0
  mtval := 0
  unfenced := 0
  fencing := none
  interrupts := 0

/-- A context with no resource, in state created (16 R336); `root` is the level-0 node. -/
def Context.fresh (parent depth : Nat) : Context where
  parent := parent
  depth := depth
  state := .created
  createdAt := 0
  configured := false
  root := 0
  sizes := []
  frames := 0
  queues := 0
  queueTable := 0
  ringAddr := 0
  ringEntries := 0
  grants := []
  coldFrames := []
  cores := []
  gpCores := []
  ports := []
  namespaces := []
  doorbell := none
  scope := 0
  budget := { carved := false, time := 0, energy := 0, clocks := 0, femtojoules := 0, exhausted := false }
  launches := []
  failures := []
  accepted := 0
  freed := []
  halt := none
  saved := none
  cold := false
  resumeWithParent := false
  haltRoot := 0
  function := false
  pullFailures := 0
  image := none
  revocation := none

/-- The root context right after reset: running, holding every enabled core, general-purpose core and port, with both
scopes, and not yet configured (16 R314, R315, R337, R339). -/
def Context.rootFresh : Context :=
  { Context.fresh 0 0 with
    state := .running
    cores := List.range 192
    gpCores := List.range 16
    ports := List.range 8
    namespaces := []
    scope := 3
    budget := { carved := true, time := 0, energy := 0, clocks := 0, femtojoules := 0, exhausted := false } }

/-- The boot state right after a first reset (21 R400, R401, R404; log 2). -/
def Boot.fresh : Boot where
  phase := .fetching
  failedStarts := 0
  lastReason := 0
  fused := { cores := [], partitions := [], gantries := [] }
  port := none
  started := []
  awaited := []
  since := 0
  stages := []
  measurements := List.replicate 8 (List.replicate 64 0)
  startCount := 0
  signatureIndex := 0
  reports := []
  sensorActions := [.erase, .halt, .halt, .halt]
  keys := []
  corrected := []
  answer := []

/-- An event that concerns nothing in particular. -/
def Subject.none : Subject where
  who := 0
  what := 0
  which := 0
  data := []
  flag := false

/-- The device right after reset: every field at the value the spec states, and where it states none at the value the log
names (INVENTORY.md, State). -/
def State.reset : State where
  mem := []
  clock := 0
  powered := true
  boot := Boot.fresh
  graceNs := 500000
  killNs := 20000000
  retryDue := 65000
  quantumDue := 325000
  disabledCores := []
  badSectors := []
  pending := []
  dies := List.replicate 4 Die.fresh
  markers := []
  portTlbs := []
  shootDowns := 0
  cores := []
  contexts := [(0, Context.rootFresh)]
  crews := []
  gangs := []
  commands := []
  slots := []
  service := []
  joining := []
  rung := []
  lastMapped := []
  lastSlot := []
  queueWrites := []
  placedUntil := 0
  heldQueues := []
  portHolds := []
  harts := []
  images := []
  serial := 0
  chartMoves := []
  gang := 0
  group := 0
  hart := 0
  subject := Subject.none
  idle := false
  fetchFault := none
  agenda := []

end Sys2Proof.Machine
end

