-- ==== Sys2Proof/Machine/Cells.lean ====
section
/-!
DEFINITION. Sparse values and tables by key, in one canonical form: keys strictly rising and, for values, none zero.
-/
namespace Sys2Proof.Machine

/-- The value at a key; zero where none is listed. -/
def Cells.get {w : Nat} : Cells w → Nat → BitVec w
  | [], _ => 0
  | (k, x) :: rest, key => if k = key then x else Cells.get rest key

/-- Puts an entry at its place among rising keys, in the stead of one with its key. -/
def Cells.put {w : Nat} : Cells w → Nat → BitVec w → Cells w
  | [], key, x => [(key, x)]
  | (k, y) :: rest, key, x =>
    if key < k then (key, x) :: (k, y) :: rest
    else if key = k then (key, x) :: rest
    else (k, y) :: Cells.put rest key x

/-- Puts a value at a key; writing zero removes the entry. -/
def Cells.set {w : Nat} (c : Cells w) (key : Nat) (x : BitVec w) : Cells w :=
  if x = 0 then c.filter fun e => e.1 != key else c.put key x

/-- The canonical form: keys above `low` (none: any), strictly rising, no value zero. -/
def Cells.wfFrom {w : Nat} : Option Nat → Cells w → Bool
  | _, [] => true
  | low, (k, x) :: rest =>
    (match low with
      | none => true
      | some l => decide (l < k)) && decide (x ≠ 0) && Cells.wfFrom (some k) rest

/-- Keys strictly rising and no listed value zero. -/
def Cells.wf {w : Nat} (c : Cells w) : Bool := Cells.wfFrom none c

/-- Writes `f l` at `key l` for each `l`, in list order. -/
def Cells.setAll {w : Nat} (c : Cells w) (keys : List Nat) (key : Nat → Nat) (f : Nat → BitVec w) : Cells w :=
  keys.foldl (fun acc l => acc.set (key l) (f l)) c

/-- The entries whose key satisfies a test. -/
def Cells.restrict {w : Nat} (c : Cells w) (p : Nat → Bool) : Cells w := c.filter fun e => p e.1

/-- The record at a key. -/
def Table.find {α : Type} : Table α → Nat → Option α
  | [], _ => none
  | (k, x) :: rest, key => if k = key then some x else Table.find rest key

/-- Puts a record at a key. -/
def Table.put {α : Type} : Table α → Nat → α → Table α
  | [], key, x => [(key, x)]
  | (k, y) :: rest, key, x =>
    if key < k then (key, x) :: (k, y) :: rest
    else if key = k then (key, x) :: rest
    else (k, y) :: Table.put rest key x

/-- Removes the record at a key. -/
def Table.erase {α : Type} (t : Table α) (key : Nat) : Table α := t.filter fun e => e.1 != key

/-- Applies a function to every record. -/
def Table.update {α : Type} (t : Table α) (f : Nat → α → α) : Table α := t.map fun e => (e.1, f e.1 e.2)

/-- The records in key order. -/
def Table.values {α : Type} (t : Table α) : List α := t.map (·.2)

/-- The keys in order. -/
def Table.keys {α : Type} (t : Table α) : List Nat := t.map (·.1)

/-- Replaces the element at an index. -/
def replaceAt {α : Type} : List α → Nat → (α → α) → List α
  | [], _, _ => []
  | x :: rest, 0, f => f x :: rest
  | x :: rest, n + 1, f => x :: replaceAt rest n f

end Sys2Proof.Machine
end

