-- ==== Sys2Proof/Machine/Ops.lean ====
section
/-!
DEFINITION. The named operations over the state: register access, active lanes, issue groups, the issue checks, taking a
stop-class trap (the shared exception operation, 19 R366-R374) and its halt line, and the continuation after it.
-/
namespace Sys2Proof.Machine

/-- What an instruction or event answers. -/
abbrev Result := Host.Outcome State Fault Refusal

/-! ### Words and lanes -/

/-- The mask with the bits of the listed lanes set. -/
def maskOf (lanes : List Nat) : DWord := lanes.foldl (fun m l => m ||| BitVec.twoPow 64 l) 0

/-- The lanes below `n` whose bit is set, in ascending order. -/
def lanesOf (mask : DWord) (n : Nat) : List Nat := (List.range n).filter fun l => mask.getLsbD l

/-- The code of a trap (19 R366). -/
def trapCode : Trap → Nat
  | .none => 0x00 | .illegalInstruction => 0x01 | .illegalFormat => 0x02 | .registerRange => 0x03 | .misaligned => 0x04
  | .pageFaultLoad => 0x05 | .pageFaultStore => 0x06 | .protection => 0x07 | .grantFault => 0x08 | .scopeDenied => 0x09
  | .chartAlloc => 0x0A | .chartFormat => 0x0B | .scratchpadRange => 0x0C | .barrierMisuse => 0x0D
  | .convoyMismatch => 0x0E | .fpInvalid => 0x0F | .fpDivzero => 0x10 | .fpOverflow => 0x11 | .fpUnderflow => 0x12
  | .fpInexact => 0x13 | .userTrap => 0x14 | .breakpoint => 0x15 | .memoryUncorrectable => 0x16
  | .pageUnreachable => 0x17 | .barrierTimeout => 0x18 | .budgetExhausted => 0x19 | .killed => 0x1A
  | .restoreShortfall => 0x1B | .manifestFault => 0x1C | .engineFault => 0x1D | .reproViolation => 0x1E

/-! ### Tables of the state -/

/-- A physical core; one that nothing has used is fresh. -/
def State.core (s : State) (n : Nat) : Core := (s.cores.find n).getD Core.fresh

/-- Replaces a core. -/
def State.setCore (s : State) (n : Nat) (c : Core) : State := { s with cores := s.cores.put n c }

/-- A context. -/
def State.context (s : State) (n : Nat) : Option Context := s.contexts.find n

/-- Replaces a context. -/
def State.setContext (s : State) (n : Nat) (c : Context) : State := { s with contexts := s.contexts.put n c }

/-- Applies a function to a context, if it exists. -/
def State.modifyContext (s : State) (n : Nat) (f : Context → Context) : State :=
  match s.contexts.find n with
  | none => s
  | some c => s.setContext n (f c)

/-- Replaces the gang at a key. -/
def State.setGang (s : State) (key : Nat) (g : Gang) : State := { s with gangs := s.gangs.put key g }

/-- Replaces the crew at a key. -/
def State.setCrew (s : State) (key : Nat) (c : Crew) : State := { s with crews := s.crews.put key c }

/-- The core on which a gang stands. -/
def coreOf (gang : Nat) : Nat := gang / 128

/-- The gang field of records: partition in [6:3], rotation position in [2:0] (19 R372). -/
def gangField (gang : Nat) : Nat := gang % 128

/-- The compute die of a core. -/
def dieOf (core : Nat) : Nat := core / 48

/-- The global timestamp in nanoseconds (21 R405); the clock runs at 1.3 GHz (00 R5). -/
def State.timestamp (s : State) : Nat := s.clock * 10 / 13

/-- A number of nanoseconds in clocks, rounded down where it is no whole number of them (DESIGN CHOICE, log 46: 00 R5 gives the clock, and
no rule says which way a duration rounds). -/
def clocksOf (ns : Nat) : Nat := ns * 13 / 10

/-- The position of a physical core in a context's logical order; 0xFFFF when the context does not hold it (16 R315). -/
def Context.logicalCore (c : Context) (core : Nat) : Nat :=
  if c.cores.contains core then c.cores.idxOf core else 0xFFFF

/-- The logical dies of a context, in the order in which its cores' dies first appear (16 R315). -/
def Context.dies (c : Context) : List Nat := (c.cores.map dieOf).eraseDups

/-- Whether context `n` lies strictly below context `a` (16 R314: depth at most 4). -/
def State.belowFuel (s : State) (a : Nat) : Nat → Nat → Bool
  | 0, _ => false
  | fuel + 1, n =>
    match s.contexts.find n with
    | none => false
    | some c => if c.depth = 0 then false else c.parent == a || s.belowFuel a fuel c.parent

/-- Whether context `n` lies strictly below context `a`. -/
def State.below (s : State) (n a : Nat) : Bool := s.belowFuel a 5 n

/-- The launch record a gang runs under. -/
def State.crewOf (s : State) (g : Gang) : Option Crew := s.crews.find g.crew

/-- A 16-bit format slot of the launch (01 R27); zero when absent. -/
def LaunchRecord.slot (r : LaunchRecord) (i : Nat) : BitVec 16 := r.slots.getD i 0

/-- A launch seed (01 R23). -/
def LaunchRecord.seed (r : LaunchRecord) (i : Nat) : Word := r.seeds.getD i 0

/-- The reproducible flag (01 R25). -/
def LaunchRecord.reproducible (r : LaunchRecord) : Bool := r.control.getLsbD 0

/-- The refill flag (01 R25). -/
def LaunchRecord.refill (r : LaunchRecord) : Bool := r.control.getLsbD 1

/-- The refill threshold (01 R25). -/
def LaunchRecord.threshold (r : LaunchRecord) : Nat := (r.control.extractLsb 8 2).toNat

/-- Gangs per crew (01 R24). -/
def LaunchRecord.gangCount (r : LaunchRecord) : Nat := (r.geometry.extractLsb 5 2).toNat + 1

/-- Gang width in lanes (01 R24). -/
def LaunchRecord.width (r : LaunchRecord) : Nat := 16 * 2 ^ (r.geometry.extractLsb 1 0).toNat

/-! ### Registers (01 R11-R13) -/

/-- Lane `l` of v register `r`. -/
def Gang.vreg (g : Gang) (r l : Nat) : Word := g.v.get (r * 64 + l)

/-- Lane `l` of the v pair at `r` (01 R12). -/
def Gang.vpair (g : Gang) (r l : Nat) : DWord := pairOf (g.vreg r l) (g.vreg (r + 1) l)

/-- Scalar register `r`. -/
def Gang.sreg (g : Gang) (r : Nat) : Word := g.s.get r

/-- The s pair at `r` (01 R12). -/
def Gang.spair (g : Gang) (r : Nat) : DWord := pairOf (g.sreg r) (g.sreg (r + 1))

/-- Predicate `i` in lane `l`; p0 reads true (01 R13). -/
def Gang.preg (g : Gang) (i l : Nat) : Bool := i == 0 || (g.p.get i).getLsbD l

/-- Handle register `i`. -/
def Gang.kreg (g : Gang) (i : Nat) : BitVec 128 := g.k.get i

/-- Writes `f l` to v register `r` in each listed lane. -/
def Gang.setV (g : Gang) (r : Nat) (lanes : List Nat) (f : Nat → Word) : Gang :=
  { g with v := g.v.setAll lanes (fun l => r * 64 + l) f }

/-- Writes `f l` to the v pair at `r` in each listed lane. -/
def Gang.setVpair (g : Gang) (r : Nat) (lanes : List Nat) (f : Nat → DWord) : Gang :=
  (g.setV r lanes fun l => lowWord (f l)).setV (r + 1) lanes fun l => highWord (f l)

/-- Writes a scalar register. -/
def Gang.setS (g : Gang) (r : Nat) (x : Word) : Gang := { g with s := g.s.set r x }

/-- Writes an s pair. -/
def Gang.setSpair (g : Gang) (r : Nat) (x : DWord) : Gang := (g.setS r (lowWord x)).setS (r + 1) (highWord x)

/-- Writes `f l` to predicate `i` in each listed lane; a write to p0 is discarded (01 R13). -/
def Gang.setP (g : Gang) (i : Nat) (lanes : List Nat) (f : Nat → Bool) : Gang :=
  if i = 0 then g
  else { g with p := g.p.set i ((g.p.get i &&& ~~~(maskOf lanes)) ||| maskOf (lanes.filter f)) }

/-- Writes a handle register. -/
def Gang.setK (g : Gang) (i : Nat) (x : BitVec 128) : Gang := { g with k := g.k.set i x }

/-! ### Slices, groups and lanes (00 R6, 11 R243, R248) -/

/-- The lanes the top of a slice's mask stack enables (11 R243). -/
def Slice.top (sl : Slice) : BitVec 4 :=
  match sl.stack with
  | [] => 0
  | e :: _ => e.mask

/-- The slice is one of those that issue with a group: running, in the group, neither parked nor yielded (11 R249). -/
def Slice.issues (sl : Slice) (group : Nat) : Bool :=
  sl.status == .running && sl.group == group && !sl.parked && sl.yielded.isNone

/-- The indices of the slices that issue with a group, ascending. -/
def Gang.members (g : Gang) (group : Nat) : List Nat :=
  (List.range g.slices.length).filter fun j =>
    match g.slices[j]? with
    | none => false
    | some sl => sl.issues group

/-- The program counter of a group. -/
def Gang.pc (g : Gang) (group : Nat) : DWord :=
  match g.slices.find? fun sl => sl.issues group with
  | none => 0
  | some sl => sl.pc

/-- The lane's slice issues and the top of its mask stack enables the lane. -/
def Gang.isEnabled (g : Gang) (group l : Nat) : Bool :=
  match g.slices[l / 4]? with
  | none => false
  | some sl => sl.issues group && sl.top.getLsbD (l % 4)

/-- The guard predicate of a lane with the guard sense applied (01 R16, R18). -/
def Gang.guard (g : Gang) (l : Nat) : Bool :=
  g.preg (g.trim.extractLsb 3 0).toNat l != g.trim.getLsbD 4

/-- The enabled lanes of a group, ascending; a gang has at most 64 (01 R11), and no slice stands beyond its width. -/
def Gang.enabled (g : Gang) (group : Nat) : List Nat := (List.range 64).filter fun l => g.isEnabled group l

/-- The active lanes of a group, ascending (00 R6). -/
def Gang.active (g : Gang) (group : Nat) : List Nat :=
  (List.range 64).filter fun l => g.isEnabled group l && g.guard l

/-- The slice counts among the live ones (11 R248). -/
def Slice.live (sl : Slice) : Bool := sl.status != .ended

/-- The gang has parted: its live slices lie in more than one group (11 R248). A slice that has finished its part of a refill step is
in none (12 R275). -/
def Gang.parted (g : Gang) : Bool :=
  match g.slices.filter (fun sl => sl.status == .running) with
  | [] => false
  | sl :: rest => rest.any fun x => x.group != sl.group

/-- The loop of 11 R245 at a join at `j`. Where it would continue past the join, a slice at the end of its part of a refill
step (`atEnd`) finishes instead (12 R275). -/
def Slice.unwind (sl : Slice) (j : DWord) (atEnd : Bool) : List MaskEntry → Slice
  | [] => { sl with stack := [], status := if atEnd then .finished else .ended }
  | e :: rest =>
    match e.kind with
    | .pending => { sl with pc := e.addr, stack := { e with kind := .resumed, addr := j } :: rest }
    | .resumed =>
      if e.addr = j && !rest.isEmpty then sl.unwind j atEnd rest
      else if atEnd then { sl with pc := j, stack := e :: rest, status := .finished }
      else { sl with pc := j + 4, stack := e :: rest }
    | _ =>
      if atEnd then { sl with pc := j, stack := e :: rest, status := .finished }
      else { sl with pc := j + 4, stack := e :: rest }

/-- A slice that arrives at the address ending its part of a refill step (12 R275). A pending path that resumes at that very
address arrives at once. -/
def Slice.arrive (stop : DWord) : Nat → Slice → Slice
  | 0, sl => sl
  | fuel + 1, sl =>
    if sl.status == .running && sl.pc == stop then
      match sl.stack with
      | _ :: x :: rest => Slice.arrive stop fuel (sl.unwind stop true (x :: rest))
      | _ => { sl with status := .finished }
    else sl

/-- Splits the slices that issued together by their next program counters, each new group named by its lowest slice (11
R248). -/
def Gang.regroup (g : Gang) (members : List Nat) : Gang :=
  let leader (pc : DWord) (j : Nat) : Nat :=
    (members.find? fun i =>
      match g.slices[i]? with
      | none => false
      | some sl => sl.status == .running && sl.pc == pc).getD j
  { g with slices := g.slices.mapIdx fun j sl =>
      if members.contains j && sl.status == .running then { sl with group := leader sl.pc j } else sl }

/-- The slices that run, when all of them wait at a `regang`, are released: those at one address form one group, and each
continues at the next word, arriving where its refill step ends (`stop`). One word counts for each address (11 R251; log 29). A slice that
has finished its part of a refill step is live (R248) and waits at no `regang`; the release does not wait for it (DESIGN CHOICE, log 29: it
issues nothing before the step's end, and R251 does not name it). -/
def Gang.releaseParked (g : Gang) (stop : Option DWord) : Gang :=
  let running := g.slices.filter fun sl => sl.status == .running
  if running.isEmpty || !running.all Slice.parked then g
  else
    let go (sl : Slice) : Slice :=
      let sl' := { sl with parked := false, pc := sl.pc + 4 }
      match stop with
      | none => sl'
      | some a => Slice.arrive a 9 sl'
    let leader (sl : Slice) (j : Nat) : Nat :=
      ((List.range g.slices.length).find? fun i =>
        match g.slices[i]? with
        | none => false
        | some x => x.status == .running && x.pc == sl.pc && (go x).pc == (go sl).pc && (go x).status == .running).getD j
    { g with
      slices := g.slices.mapIdx fun j sl =>
        if sl.status == .running then { go sl with group := leader sl j } else sl
      words := g.words + (running.map Slice.pc).eraseDups.length }

/-- Applies a function to the slices that issue with a group. -/
def Gang.mapMembers (g : Gang) (group : Nat) (f : Nat → Slice → Slice) : Gang :=
  { g with slices := g.slices.mapIdx fun j sl => if sl.issues group then f j sl else sl }

/-- The group's instruction of `words` words is done: each of its slices continues as `f` says, arrives where its refill step
ends (`stop`), and the group splits by the program counters (11 R248). -/
def Gang.proceed (g : Gang) (group words : Nat) (stop : Option DWord) (f : Nat → Slice → Slice) : Gang :=
  let g' := g.mapMembers group fun j sl =>
    match stop with
    | none => f j sl
    | some a => Slice.arrive a 9 (f j sl)
  let g2 := { g'.regroup (g.members group) with words := g.words + words, lastGroup := group }
  match stop with
  | none => g2
  | some _ => g2.releaseParked stop

/-- The address at whose arrival a slice finishes its part of the gang's refill step (12 R275). -/
def State.stepEnd (s : State) (g : Gang) : Option DWord :=
  match g.refill, s.crews.find g.crew with
  | some r, some c =>
    match r.step with
    | .bodyPass => some c.record.retire
    | .prologue => some c.record.body
    | _ => none
  | _, _ => none

/-- The slice continues at the next word. -/
def Slice.next (words _j : Nat) (sl : Slice) : Slice := { sl with pc := sl.pc + BitVec.ofNat 64 (4 * words) }

/-! ### Outcomes of an instruction -/

/-- The instruction waits at issue: nothing changes but the mark that the turn was not used. -/
def State.waiting (s : State) : Result := .next { s with idle := true }

/-- The instruction has issued and is not done, or holds its gang: until it is done, only its group of the gang issues (04 R118, R119; 16
R332, R418). -/
def State.waitAlone (s : State) (g : Gang) : Result :=
  .next { s.setGang s.gang { g with wait := .issued s.group } with idle := true }

/-- The issuing gang becomes `g` and its slices continue as `f` says. -/
def State.proceed (s : State) (g : Gang) (words : Nat) (f : Nat → Slice → Slice) : State :=
  s.setGang s.gang (g.proceed s.group words (s.stepEnd g) f)

/-- The issuing gang becomes `g` and its slices continue after an instruction of `words` words. -/
def State.advance (s : State) (g : Gang) (words : Nat) : State := s.proceed g words (Slice.next words)

/-- The instruction completes with the issuing gang as `g`. -/
def State.finish (s : State) (g : Gang) (words : Nat := 1) : Result := .next (s.advance g words)

/-! ### Stop-class traps (19 R366-R374) -/

/-- The age a record gives: that of the lowest lane in its mask (12 R286). -/
def Gang.ageOf (g : Gang) (lanes : List Nat) : Word :=
  match lanes with
  | [] => 0xFFFFFFFF
  | l :: _ => g.ages.getD l 0xFFFFFFFF

/-- The context's halt line is raised (19 R367). -/
def State.lineRaised (s : State) (ctx : Nat) : Bool :=
  match s.context ctx with
  | none => false
  | some c =>
    match c.halt with
    | none => false
    | some h => h.forced

/-- The origin flag of the record of an event: the event raises the halt line, which is not raised yet (19 R372). -/
def State.originFlag (s : State) (ctx : Nat) : BitVec 8 := if s.lineRaised ctx then 0 else 1

/-- The source of a record is a unit of a core, and not a lighter, a die's memory controllers or the base die (19 R372, R373). -/
def coreSource (source : Nat) : Bool := decide (source % 4096 < 0x300) && decide (source / 4096 < 4)

/-- What a stop record says of its event, beside the gang's own identity. -/
structure TrapEvent where
  cause : Trap
  lanes : List Nat
  address : DWord
  code : Nat
  /-- Flags [0] origin and [1] precise. -/
  origin : Bool
  precise : Bool
  /-- Address at which the gang resumes, and of the instruction that raised the trap. -/
  pc : DWord
  trapPc : DWord
  /-- The source number where it is not the gang's issue unit (19 R373). -/
  source : Option Nat := none
  deriving DecidableEq, Repr

/-- The stop record of a gang (19 R372, R373). -/
def State.stopRecord (s : State) (key : Nat) (g : Gang) (e : TrapEvent) : StopRecord where
  timestamp := s.timestamp
  source := e.source.getD (dieOf (coreOf key) * 4096 + coreOf key % 48 * 16)
  cause := e.cause
  flags := (if e.origin then 1 else 0) ||| (if e.precise then 2 else 0) ||| (if g.refill.isSome then 8 else 0)
  ctx := g.ctx
  core := match s.context g.ctx with
    | none => 0xFFFF
    | some c => if e.source.isNone || e.source.any coreSource then c.logicalCore (coreOf key) else 0xFFFF
  laneMask := maskOf e.lanes
  age := g.ageOf e.lanes
  gang := gangField key
  code := e.code
  address := e.address
  pc := e.pc
  trapPc := e.trapPc
  launch := match s.crews.find g.crew with
    | none => 0
    | some c => c.launch

/-- A context whose halt line rises, by a halt of context `root`: a running context, and one in the soft step, enter the forced step; a
line already raised stays as it is (19 R367, R379). -/
def Context.raise (c : Context) (cause : Trap) (inherited : Bool) (root deadline : Nat) : Context :=
  match c.state, c.halt with
  | .running, _ =>
    { c with
      state := .halting
      halt := some { forced := true, cause := cause, deadline := deadline, records := [], resume := inherited,
                     inherited := inherited, root := root } }
  | .halting, some h =>
    if h.forced then c
    else { c with halt := some { h with forced := true, cause := cause, deadline := deadline,
                                        inherited := h.inherited && inherited } }
  | _, _ => c

/-- Raises the halt line of a context and of all its descendants (19 R367); the kill timer starts (R379). -/
def State.raiseLine (s : State) (ctx : Nat) (cause : Trap) : State :=
  { s with contexts := s.contexts.update fun n c =>
      if n = ctx then c.raise cause false ctx (s.clock + clocksOf s.killNs)
      else if s.below n ctx then c.raise cause true ctx (s.clock + clocksOf s.killNs)
      else c }

/-- TAKING A STOP-CLASS TRAP: the gang's stop record is made, the gang issues nothing further, and the halt line of its
context rises. Saved are the pc at which the gang resumes and the trapping instruction's address; nothing else of the gang
changes (19 R366, R367, R372). -/
def State.stopGang (s : State) (key : Nat) (g : Gang) (e : TrapEvent) : State :=
  (s.setGang key { g with stop := some (s.stopRecord key g e) }).raiseLine g.ctx e.cause

/-- A precise stop of the issuing gang at its instruction, reporting the given lanes and address (19 R366). -/
def State.trapAt (s : State) (g : Gang) (cause : Trap) (lanes : List Nat) (address : DWord) : State :=
  s.stopGang s.gang g
    { cause := cause, lanes := lanes, address := address, code := 0, origin := !s.lineRaised g.ctx, precise := true,
      pc := g.pc s.group, trapPc := g.pc s.group }

/-- The instruction raises a precise trap at issue, reporting the lanes that its slices' mask stacks enable, whatever the guard (DESIGN CHOICE,
log 37: 19 R372 marks the lanes that took part, and neither it nor a rule such as 07 R184 says which those are of such a trap). -/
def State.trap (s : State) (g : Gang) (cause : Trap) : Result :=
  .next (s.trapAt g cause (g.enabled s.group) 0)

/-! ### Issue (02 R54) -/

/-- What an instruction needs at issue: the v and s registers it names, the fields that must be even or multiples of 4, the formats it accepts,
the scope it carries, and whether it is a gantry instruction. -/
structure Needs where
  v : List Nat := []
  s : List Nat := []
  even : List Nat := []
  fours : List Nat := []
  format : Bool := true
  scope : Option Nat := none
  gantry : Bool := false
  /-- Registers that depend on the format slot, which `mma` reads beside the others: checked after the formats where
  `lateCheck` says so (09 R230). -/
  lateV : List Nat := []
  lateS : List Nat := []
  lateCheck : Bool := false
  deriving DecidableEq, Repr

/-- The format slot that the trim selects (01 R16). -/
def Gang.slotIndex (g : Gang) : Nat := (g.trim.extractLsb 7 5).toNat

/-- The word of a launch format slot of the gang's launch (01 R27). -/
def State.slotWord (s : State) (g : Gang) (i : Nat) : BitVec 16 :=
  match s.crews.find g.crew with
  | none => 0
  | some c => c.record.slot i

/-- The gang's context permits a scope: device and system scopes need the policy bits (05 R124, 16 R339). -/
def State.scopeAllowed (s : State) (g : Gang) (scope : Nat) : Bool :=
  match s.context g.ctx with
  | none => true
  | some c => if scope = 5 then c.scope.getLsbD 0 else if scope = 6 then c.scope.getLsbD 1 else true

/-- The first issue trap after ILLEGAL_INSTRUCTION that applies (02 R54). -/
def State.issueTrap (s : State) (g : Gang) (n : Needs) : Option Trap :=
  if n.even.any (fun r => r % 2 == 1) || n.fours.any (fun r => r % 4 != 0) || n.v.any (fun r => decide (g.nregs ≤ r)) || n.s.any (fun r => decide (128 ≤ r)) then
    some .registerRange
  else if !n.format then some .illegalFormat
  else if n.lateCheck && (n.lateV.any (fun r => decide (g.nregs ≤ r)) || n.lateS.any (fun r => decide (128 ≤ r))) then
    some .registerRange
  else if (match n.scope with
      | none => false
      | some sc => !s.scopeAllowed g sc) then some .scopeDenied
  else if n.gantry && (s.core (coreOf s.gang)).gantryDisabled then some .engineFault
  else none

/-- A v register (or with `scalar` an s register) is pending: a load or an `arow.get` will still write it (03 R69, 09
R236). -/
def State.isPending (s : State) (key : Nat) (g : Gang) (scalar : Bool) (r : Nat) : Bool :=
  g.loads.any (fun ld => ld.scalar == scalar && !ld.sectors.isEmpty && ld.dests.contains r) ||
  (!scalar && s.commands.any fun c =>
    match c.work with
    | .rowGet _ d _ _ _ => !c.done && c.gangs.head? == some key && decide (d ≤ r) && decide (r < d + 32)
    | _ => false)

/-- The scoreboard holds the instruction (03 R69, 07 R169). -/
def State.scoreboard (s : State) (g : Gang) (n : Needs) : Bool :=
  (n.v ++ n.lateV).any (s.isPending s.gang g false) || (n.s ++ n.lateS).any (s.isPending s.gang g true)

/-- The context's halt line is not raised: gangs may issue when it runs or is in the soft step (19 R379; log 11). -/
def Context.mayIssue (c : Context) : Bool :=
  match c.state, c.halt with
  | .running, _ => true
  | .halting, some h => !h.forced
  | _, _ => false

/-- A fault record of the gang waits for room, and the gang with it (16 R334). -/
def State.recordHeld (s : State) (key : Nat) : Bool := s.pending.any fun p => p.blocks == .gang key

/-- A 32-bit count has reached a target, with wrap-around (11 R256). -/
def countReached (count target : Word) : Bool := decide ((count - target).toNat < 0x80000000)

/-- The wait at a barrier that the gang's record names is over: the arrival total, or for `await` the count, has reached its target (11
R257, R258, R260). -/
def State.waitOver (s : State) (g : Gang) : Bool :=
  match g.wait, s.crews.find g.crew with
  | .bar c target, some crew => decide (target ≤ (crew.barriers.get c).toNat)
  | .barc d target, some crew =>
    match crew.convoys.find? fun e => e.defn == d with
    | none => false
    | some e => decide (target ≤ e.total)
  | .await c target, some crew => countReached (lowWord (crew.barriers.get c)) target
  | .bar _ _, none => false
  | .barc _ _, none => false
  | .await _ _, none => false
  | _, _ => true

/-- Only this group of the gang issues: its instruction has issued and is not done, or an access holds the gang at it (03 R78, R88; 17
R355, R358). -/
def Gang.soleGroup (g : Gang) : Option Nat :=
  match g.wait, g.held with
  | .issued group, _ => some group
  | .ordap group _, _ => some group
  | .cleared group _, _ => some group
  | _, some h => some h.group
  | _, none => none

/-- An `stc` of the gang has taken blocks that it has yet to link (17 R355). -/
def Gang.swapsNext (g : Gang) : Bool := g.alloc.any fun x => x.taken.isSome

/-- The gang may issue from the acting group: it has not stopped and its halt line is not raised, or an `stc` of it has blocks yet to
link, which it does before its next boundary (17 R355; 19 R369); it waits at no barrier, no record of it pends, an access that holds it is
to be retried (16 R331), and no other group's instruction keeps it. -/
def State.mayIssue (s : State) (key : Nat) (g : Gang) : Bool :=
  (g.swapsNext || g.stop.isNone && match s.context g.ctx with
    | none => false
    | some c => c.mayIssue) &&
  s.waitOver g &&
  (match g.held with
    | none => true
    | some h => h.retry) &&
  (match g.soleGroup with
    | none => true
    | some group => group == s.group) &&
  !s.recordHeld key

/-! ### Epoch vectors (05 R136) -/

/-- Entry-wise maximum of two epoch vectors. -/
def maxEpochs (a b : List DWord) : List DWord :=
  (List.range 4).map fun i => if (a.getD i 0).toNat ≤ (b.getD i 0).toNat then b.getD i 0 else a.getD i 0

/-- The vector of no epochs, with which a gang's stamp starts. -/
def noEpochs : List DWord := [0, 0, 0, 0]

/-- The applied vector of a die. -/
def State.applied (s : State) (die : Nat) : List DWord :=
  match s.dies[die]? with
  | none => noEpochs
  | some x => x.applied

/-- An acquire or a completion observation merges what served the reads it covers into the gang's stamp. -/
def Gang.merge (g : Gang) (v : List DWord) : Gang := { g with stamp := maxEpochs g.stamp v }

/-- The gang waits, or has waited, at `bar` or `barc` (11 R264). -/
def Gang.atBarrier (g : Gang) : Bool :=
  match g.wait with
  | .bar _ _ => true
  | .barc _ _ => true
  | _ => false

/-- The gang as an instruction that issues finds it: what it waited for is over. The end of a wait at a barrier is an acquire read
of the barrier counter, which the gang's own die serves (11 R261; 05 R129, R136). -/
def State.issuing (s : State) (g : Gang) : Gang :=
  { g with
    stamp := if g.atBarrier then maxEpochs g.stamp (s.applied (dieOf (coreOf s.gang))) else g.stamp
    wait := .none, waited := 0, held := none }

/-- An instruction of the issuing gang and group: it waits while the gang may not issue or a register is pending, raises the
first issue trap that applies (02 R54), and otherwise does what `body` says of the gang, whose wait or hold is over. -/
def gate (s : State) (needs : Gang → Needs) (body : Gang → Result) : Result :=
  match s.gangs.find s.gang with
  | none => .fault .noIssuer
  | some g =>
    if (g.members s.group).isEmpty then .fault .noIssuer
    else if !s.mayIssue s.gang g then s.waiting
    else
      match s.issueTrap g (needs g) with
      | some t => s.trap g t
      | none =>
        if s.scoreboard g (needs g) then s.waiting else body (s.issuing g)

end Sys2Proof.Machine
end

