-- ==== Sys2Proof/Machine/Memory.lean ====
section
/-!
DEFINITION. Bytes of machine memory and of scratchpad, little-endian (00 R4), and the homes of machine addresses (16 R317).
-/
namespace Sys2Proof.Machine

/-- Machine memory is in its canonical form: addresses strictly rising and no entry equal to what an unlisted address reads
as, 0x00 (log 1). -/
def Memory.wf (m : List Host.Cell) : Bool := Cells.wf (w := 8) m

/-- The byte of machine memory at an address. -/
def State.byte (s : State) (a : Nat) : Byte := Cells.get (w := 8) s.mem a

/-- The value of `n` bytes from address `a`, lowest address first (00 R4). -/
def readLE (f : Nat → Byte) (a : Nat) : Nat → Nat
  | 0 => 0
  | n + 1 => (f a).toNat + 256 * readLE f (a + 1) n

/-- Writes the low `n` bytes of a value from address `a`. -/
def writeLE (m : Cells 8) (a : Nat) : Nat → Nat → Cells 8
  | 0, _ => m
  | n + 1, v => writeLE (m.set a (BitVec.ofNat 8 v)) (a + 1) n (v / 256)

/-- The value of `n` bytes of machine memory. -/
def State.read (s : State) (a n : Nat) : Nat := readLE s.byte a n

/-- Writes `n` bytes of machine memory. -/
def State.write (s : State) (a n v : Nat) : State := { s with mem := writeLE s.mem a n v }

/-- Writes a list of bytes from an address. -/
def writeBytes (m : Cells 8) (a : Nat) : List Byte → Cells 8
  | [] => m
  | b :: rest => writeBytes (m.set a b) (a + 1) rest

/-- The home die of a machine address in HBM; other addresses have none (16 R317). -/
def homeDie (a : Nat) : Option Nat := if a < 0x0100_0000_0000 then some (a / 0x0040_0000_0000) else none

/-- The machine address is backed: HBM, host memory or a peer device (16 R317). -/
def backed (a : Nat) : Bool :=
  decide (a < 0x0100_0000_0000) || (decide (0x4000_0000_0000 ≤ a) && decide (a < 0xB000_0000_0000))

/-- `n` bytes at a machine address are backed throughout, and by one kind of memory (16 R317). -/
def backedRange (a n : Nat) : Bool :=
  n == 0 || (backed a && backed (a + n - 1) && decide (a < 0x0100_0000_0000) == decide (a + n - 1 < 0x0100_0000_0000))

/-- The address lies in the grant region (16 R323). -/
def inGrantRegion (a : Nat) : Bool :=
  decide (Config.grantRegionBase ≤ a) && decide (a < Config.grantRegionBase + Config.grantRegionSize)

/-- The access touches a sector that cannot be corrected (19 R396); the first such sector. -/
def State.badSector (s : State) (a n : Nat) : Option Nat :=
  s.badSectors.find? fun b => decide (b < a + n) && decide (a < b + 32)

/-! ### Scratchpad (11 R253) -/

/-- The crew's scratchpad size P in bytes (01 R24). -/
def Crew.padSize (c : Crew) : Nat := 4096 * (c.record.geometry.extractLsb 20 10).toNat

/-- The physical scratchpad byte of a crew's offset. -/
def Crew.padByte (c : Crew) (off : Nat) : Nat := c.granules.getD (off / 4096) 0 * 4096 + off % 4096

/-- The value of `n` bytes of a crew's scratchpad. -/
def State.padRead (s : State) (core : Nat) (c : Crew) (off n : Nat) : Nat :=
  readLE (fun o => (s.core core).scratch.get (c.padByte o)) off n

/-- Writes one byte after another of a crew's scratchpad. -/
def padWriteBytes (m : Cells 8) (c : Crew) (off : Nat) : Nat → Nat → Cells 8
  | 0, _ => m
  | n + 1, v => padWriteBytes (m.set (c.padByte off) (BitVec.ofNat 8 v)) c (off + 1) n (v / 256)

/-- Writes `n` bytes of a crew's scratchpad. -/
def State.padWrite (s : State) (core : Nat) (c : Crew) (off n v : Nat) : State :=
  s.setCore core { s.core core with scratch := padWriteBytes (s.core core).scratch c off n v }

/-! ### Energy (16 R341) -/

/-- Femtojoules of one byte of global memory at a machine address: the die cache's or the HBM's, whichever serves it (log 21), with the
fabric's where another die than `die` is its home; or a link's. -/
def memoryWeight (serial : Nat) (die : Option Nat) (a : Nat) : Nat :=
  match homeDie a with
  | none => 40000
  | some home =>
    (if Config.cached serial then 1000 else 24000) + (if die.isSome ∧ die ≠ some home then 8000 else 0)

end Sys2Proof.Machine
end

