-- ==== Sys2Proof/Machine/Translate.lean ====
section
/-!
DEFINITION. Composed translation, its look-aside buffers, invalidation, and fault rings (16 R317-R334).
-/
namespace Sys2Proof.Machine

/-- What an access needs, and how a missing entry is reported: as a store fault for the write kind (16 R319). -/
structure Want where
  read : Bool
  write : Bool
  execute : Bool
  storeKind : Bool
  deriving DecidableEq, Repr

/-- Loads, engine reads, chart walks. -/
def Want.load : Want := ⟨true, false, false, false⟩
/-- Stores and engine writes. -/
def Want.store : Want := ⟨false, true, false, true⟩
/-- Instruction fetch. -/
def Want.fetch : Want := ⟨false, false, true, false⟩
/-- Value-returning atomics and `ordap`: both permissions, read kind. -/
def Want.atomic : Want := ⟨true, true, false, false⟩
/-- A write whose fault holds its gang as a load's does (13 R300, 17 R357): write permission, read kind. -/
def Want.heldStore : Want := ⟨false, true, false, false⟩
/-- `mred`: both permissions, write kind. -/
def Want.reduce : Want := ⟨true, true, false, true⟩

/-- Permissions `r`, `w`, `x` suffice. -/
def Want.allows (k : Want) (r w x : Bool) : Bool := (!k.read || r) && (!k.write || w) && (!k.execute || x)

/-- Where an access goes: machine memory, or an offset in a context's device frame (16 R338). -/
inductive Place where
  | mem (addr : Nat)
  | device (ctx offset : Nat)
  deriving DecidableEq, Repr

/-- An access to the physical space of a context resolved to the machine: the address, log2 of the size over which the grants
map contiguously, the permissions all of them give, and the grants used. -/
structure Reached where
  addr : Nat
  log2 : Nat
  read : Bool
  write : Bool
  execute : Bool
  chain : List (Nat × Nat)
  deriving DecidableEq, Repr

/-- `phys` of 16 R319: context-physical to machine, through the grant array of each context up to the root. A frame that is
granted and whose pull has not finished makes the access wait: it holds with cause none, and no record (19 R393). -/
def State.phys (s : State) (k : Want) (fault : DWord) (ctx x : Nat) (acc : Reached) : Nat → Except AccessFault Reached
  | 0 => .error ⟨.grantFault, fault, 0, ctx⟩
  | fuel + 1 =>
    if ctx = 0 then .ok { acc with addr := x }
    else
      match s.contexts.find ctx with
      | none => .error ⟨.grantFault, fault, 0, 0⟩
      | some c =>
        let frame := x / 0x200000
        let e := c.grants.get frame
        if c.frames ≤ frame || !e.getLsbD 0 || !k.allows (e.getLsbD 1) (e.getLsbD 2) (e.getLsbD 3) then
          .error ⟨.grantFault, fault, c.depth, c.parent⟩
        else if c.coldFrames.contains frame then .error ⟨.none, fault, c.depth, c.parent⟩
        else
          s.phys k fault c.parent ((e.extractLsb 47 21).toNat * 0x200000 + x % 0x200000)
            { acc with
              log2 := min acc.log2 (21 + (e.extractLsb 20 16).toNat)
              read := acc.read && e.getLsbD 1
              write := acc.write && e.getLsbD 2
              execute := acc.execute && e.getLsbD 3
              chain := acc.chain ++ [(ctx, frame)] } fuel

/-- Nothing resolved yet. -/
def Reached.start : Reached := ⟨0, 37, true, true, true, []⟩

/-- A valid first-stage entry is malformed at its level (16 R322). -/
def malformedEntry (e : DWord) (level : Nat) (sizes : List Nat) : Bool :=
  let size := sizes.getD (e.extractLsb 11 8).toNat 0
  let leaf := e.getLsbD 1
  decide ((e.extractLsb 63 48).toNat ≠ 0) || decide ((e.extractLsb 7 5).toNat ≠ 0) ||
  (!leaf && (level == 3 || decide ((e.extractLsb 11 8).toNat ≠ 0) || decide ((e.extractLsb 4 2).toNat ≠ 0))) ||
  (leaf && (level == 0 || size == 0 ||
    (level == 3 && (decide (size < 12) || decide (20 < size))) ||
    (level == 2 && (decide (size < 21) || decide (29 < size))) ||
    (level == 1 && (decide (size < 30) || decide (37 < size))) ||
    (e.extractLsb 47 12).toNat * 4096 % 2 ^ size != 0))

/-- The walk of the first stage from a node (16 R319): the leaf entry reached. -/
def State.walk (s : State) (k : Want) (ctx : Nat) (c : Context) (va node level : Nat) : Nat → Except AccessFault DWord
  | 0 => .error ⟨.protection, BitVec.ofNat 64 va, 0, ctx⟩
  | fuel + 1 =>
    let addr := node + 8 * (va / 2 ^ (39 - 9 * level) % 512)
    match s.phys Want.load (BitVec.ofNat 64 node) ctx addr Reached.start 6 with
    | .error f => .error f
    | .ok p =>
      let e : DWord := BitVec.ofNat 64 (s.read p.addr 8)
      if !e.getLsbD 0 then
        .error ⟨if k.storeKind then .pageFaultStore else .pageFaultLoad, BitVec.ofNat 64 va, 0, ctx⟩
      else if malformedEntry e level c.sizes then .error ⟨.protection, BitVec.ofNat 64 va, 0, ctx⟩
      else if e.getLsbD 1 then .ok e
      else s.walk k ctx c va ((e.extractLsb 47 12).toNat * 4096) (level + 1) fuel

/-- The device frame of a context that holds a doorbell page there: the offset of a physical address in it (16 R338). -/
def Context.deviceOffset (c : Context) (x : Nat) : Option Nat :=
  match c.doorbell with
  | none => none
  | some page => if x / 0x200000 = page / 0x200000 then some (x % 0x200000) else none

/-- A translation afresh: where it goes, and what a buffer may keep of it (16 R319, R325). The frame of a doorbell page is a device frame
whatever is granted there (DESIGN CHOICE, log 26). -/
def State.translateFresh (s : State) (ctx va : Nat) (k : Want) : Except AccessFault (Place × Option TlbEntry) :=
  if ctx = 0 then
    if backed va && !inGrantRegion va then .ok (.mem va, none)
    else .error ⟨.protection, BitVec.ofNat 64 va, 0, 0⟩
  else
    match s.contexts.find ctx with
    | none => .error ⟨.grantFault, BitVec.ofNat 64 va, 0, 0⟩
    | some c =>
      match s.walk k ctx c va c.root 0 4 with
      | .error f => .error f
      | .ok e =>
        if !k.allows (e.getLsbD 2) (e.getLsbD 3) (e.getLsbD 4) then .error ⟨.protection, BitVec.ofNat 64 va, 0, ctx⟩
        else
          let size := c.sizes.getD (e.extractLsb 11 8).toNat 0
          let x := (e.extractLsb 47 12).toNat * 4096 + va % 2 ^ size
          match c.deviceOffset x with
          | some off => .ok (.device ctx off, none)
          | none =>
            match s.phys k (BitVec.ofNat 64 va) ctx x Reached.start 6 with
            | .error f => .error f
            | .ok r =>
              let n := min size r.log2
              .ok (.mem r.addr, some
                { ctx := ctx, va := va - va % 2 ^ n, log2 := n, machine := r.addr - r.addr % 2 ^ n,
                  read := r.read && e.getLsbD 2, write := r.write && e.getLsbD 3, execute := r.execute && e.getLsbD 4,
                  chain := r.chain.map fun l => (l.1, l.2 - va % 2 ^ n / 0x200000) })

/-- The entry translates the address for the access. -/
def TlbEntry.hits (e : TlbEntry) (ctx va : Nat) (k : Want) : Bool :=
  e.ctx == ctx && decide (e.va ≤ va) && decide (va < e.va + 2 ^ e.log2) && k.allows e.read e.write e.execute

/-- Adds an entry, dropping the oldest beyond the capacity (log 12). -/
def tlbAdd (entries : List TlbEntry) (capacity : Nat) (e : TlbEntry) : List TlbEntry :=
  let kept := (entries.filter fun x => !(x.ctx == e.ctx && x.va == e.va && x.log2 == e.log2)) ++ [e]
  kept.drop (kept.length - capacity)

/-- The buffers of a core and its die keep a translation (16 R325). -/
def State.tlbFill (s : State) (core : Nat) (e : TlbEntry) : State :=
  let s1 := s.setCore core { s.core core with tlb := tlbAdd (s.core core).tlb 256 e }
  { s1 with dies := replaceAt s1.dies (dieOf core) fun d => { d with tlb := tlbAdd d.tlb 32768 e } }

/-- The cached translation that serves an access of a core: its own buffer first, then its die's (16 R325). -/
def State.tlbLookup (s : State) (core ctx va : Nat) (k : Want) : Option TlbEntry :=
  match (s.core core).tlb.find? fun e => e.hits ctx va k with
  | some e => some e
  | none =>
    match s.dies[dieOf core]? with
    | none => none
    | some d => d.tlb.find? fun e => e.hits ctx va k

/-- A walk made afresh for an access of a core, and kept in its buffers. -/
def State.translateKeep (s : State) (core ctx va : Nat) (k : Want) : Except AccessFault Place × State :=
  match s.translateFresh ctx va k with
  | .error f => (.error f, s)
  | .ok (p, none) => (.ok p, s)
  | .ok (p, some e) => (.ok p, s.tlbFill core e)

/-- Where a cached translation and a walk made afresh differ, the free value says which serves the access (16 R319, R326; log 12). -/
def State.served (s : State) (va : Nat) (hit : Option TlbEntry) (walked : Except AccessFault Place × State) :
    Except AccessFault Place × State :=
  match hit with
  | none => walked
  | some e =>
    let cached : Place := .mem (e.machine + (va - e.va))
    if walked.1.toOption = some cached then walked
    else if Config.tlbUsed s.serial then (.ok cached, { s with serial := s.serial + 1 })
    else walked

/-- Translates an access of a core: its gangs, crane, pilot and gantry. The root translates nothing. -/
def State.translate (s : State) (core ctx va : Nat) (k : Want) : Except AccessFault Place × State :=
  if ctx = 0 then s.translateKeep core 0 va k
  else
    s.served va (s.tlbLookup core ctx va k) (State.translateKeep { s with serial := s.serial + 1 } core ctx va k)

/-- The cached translation of a die's last-level buffer (16 R325). -/
def State.dieLookup (s : State) (die ctx va : Nat) (k : Want) : Option TlbEntry :=
  (s.dies[die]?).bind fun d => d.tlb.find? fun e => e.hits ctx va k

/-- A walk made afresh for the lighter, and kept in its die's buffer. -/
def State.dieKeep (s : State) (die ctx va : Nat) (k : Want) : Except AccessFault Place × State :=
  match s.translateFresh ctx va k with
  | .error f => (.error f, s)
  | .ok (p, none) => (.ok p, s)
  | .ok (p, some e) =>
    (.ok p, { s with dies := replaceAt s.dies die fun d => { d with tlb := tlbAdd d.tlb 32768 e } })

/-- Translates an access of the lighter, which only its die's last-level buffer serves (16 R325). -/
def State.translateDie (s : State) (die ctx va : Nat) (k : Want) : Except AccessFault Place × State :=
  if ctx = 0 then s.dieKeep die 0 va k
  else s.served va (s.dieLookup die ctx va k) (State.dieKeep { s with serial := s.serial + 1 } die ctx va k)

/-- Translates an access of a port's DMA, through the port's buffer (16 R325, R326). -/
def State.translatePort (s : State) (port ctx va : Nat) (k : Want) : Except AccessFault Place × State :=
  let s1 : State := { s with serial := s.serial + 1 }
  let held := (s.portTlbs.find port).getD []
  let walked : Except AccessFault Place × State :=
    match s1.translateFresh ctx va k with
    | .error f => (.error f, s1)
    | .ok (p, none) => (.ok p, s1)
    | .ok (p, some e) => (.ok p, { s1 with portTlbs := s1.portTlbs.put port (tlbAdd held 1024 e) })
  s.served va (held.find? fun e => e.hits ctx va k) walked

/-! ### Invalidation (16 R327-R329) -/

/-- Removes from every structure the entries a test selects, and raises the shoot-down sequence number of each. -/
def State.shootDown (s : State) (drop : TlbEntry → Bool) (dropClb : ClbEntry → Bool) : State :=
  { s with
    cores := s.cores.update fun _ c =>
      { c with tlb := c.tlb.filter (fun e => !drop e), clb := c.clb.filter (fun e => !dropClb e) }
    dies := s.dies.map fun d => { d with tlb := d.tlb.filter fun e => !drop e }
    portTlbs := s.portTlbs.update fun _ t => t.filter fun e => !drop e
    shootDowns := s.shootDowns + 1 }

/-- The frames of each context of its chain that an entry passes through: those its size spans (16 R325). -/
def TlbEntry.frames (e : TlbEntry) : Nat := 2 ^ (e.log2 - 21)

/-- A chain that passes through `span` frames of each of its contexts meets frames `first` to `first + count - 1` of one. -/
def chainMeets (chain : List (Nat × Nat)) (span ctx first count : Nat) : Bool :=
  chain.any fun l => l.1 == ctx && decide (first < l.2 + span) && decide (l.2 < first + count)

/-- The entry's descriptor or its block begins in a virtual range (17 R349, R351): neither crosses a 4 KiB boundary. -/
def ClbEntry.coveredBy (e : ClbEntry) (ctx base n : Nat) : Bool :=
  e.ctx == ctx && ((decide (base ≤ e.desc) && decide (e.desc < base + 2 ^ n)) ||
    (decide (base ≤ e.block) && decide (e.block < base + 2 ^ n)))

/-- Invalidation of a context's virtual range (16 R327 kind 0). -/
def State.invalidateVirtual (s : State) (ctx base n : Nat) : State :=
  s.shootDown (fun e => e.ctx == ctx && decide (e.va < base + 2 ^ n) && decide (base < e.va + 2 ^ e.log2))
    (fun e => e.coveredBy ctx base n)

/-- Invalidation of a context's frames `first` to `first + count - 1` and of every translation through them (16 R327 kind
1). -/
def State.invalidateFrames (s : State) (ctx first count : Nat) : State :=
  s.shootDown (fun e => chainMeets e.chain e.frames ctx first count) (fun e => chainMeets e.chain 1 ctx first count)

/-- Every held access is due for a retry (16 R331). -/
def State.retryHeld (s : State) : State :=
  { s with
    gangs := s.gangs.update fun _ g => { g with
      held := g.held.map fun h => { h with retry := true }
      chain := g.chain.map fun c => { c with notices := c.notices.map fun n =>
        { n with held := n.held.map fun h => { h with retry := true } } } }
    commands := s.commands.map fun c => { c with held := c.held.map fun h => { h with retry := true } }
    heldQueues := s.heldQueues.map fun q => (q.1, { q.2 with retry := true })
    portHolds := s.portHolds.map fun p => { p with hold := { p.hold with retry := true } } }

/-! ### Fault rings (16 R333, R334, 19 R421) -/

/-- A machine address that a device write at a context's virtual address reaches, if it translates. -/
def State.deviceAddress (s : State) (ctx va : Nat) (k : Want) : Option Nat :=
  if 2 ^ 48 ≤ va then none
  else
    match s.translateFresh ctx va k with
    | .ok (.mem a, _) => some a
    | _ => none

/-- The machine addresses of the header of a context's ring and of the entry at its tail, if both translate (16 R333). -/
def State.ringSlot (s : State) (ctx : Nat) (c : Context) : Option (Nat × Nat) :=
  match s.deviceAddress ctx c.ringAddr Want.reduce with
  | none => none
  | some h =>
    match s.deviceAddress ctx (c.ringAddr + 64 + 32 * (s.read h 4 % c.ringEntries)) Want.store with
    | none => none
    | some e => some (h, e)

/-- The context from `ctx` upward that has a ring whose address translates, with its header's machine address (16 R334).
The flag says whether the record was passed up. -/
def State.ringFor (s : State) (ctx : Nat) (reflected : Bool) : Nat → Option (Nat × Nat × Bool)
  | 0 => none
  | fuel + 1 =>
    match s.contexts.find ctx with
    | none => none
    | some c =>
      let up := if ctx = 0 then none else s.ringFor c.parent true fuel
      if c.ringEntries = 0 then up
      else
        match s.ringSlot ctx c with
        | none => up
        | some (a, _) => some (ctx, a, reflected)

/-- A record as 32 bytes (16 R333). -/
def FaultRecord.bytes (r : FaultRecord) : Nat :=
  r.address.toNat + 2 ^ 64 * (r.timestamp % 2 ^ 64) + 2 ^ 128 * r.ctx + 2 ^ 144 * trapCode r.cause +
    2 ^ 152 * r.flags.toNat + 2 ^ 160 * (r.core % 65536) + 2 ^ 176 * (r.gang % 256) + 2 ^ 184 * r.level +
    2 ^ 192 * r.age.toNat

/-- Tries to write a record into a context's ring: the entry at the tail, then the tail, then a supervisor external interrupt
on each general-purpose core that the context holds (16 R333). None when the ring is full or cannot be reached. Head and tail
count entries modulo 2³² (log 27). -/
def State.ringWrite (s : State) (ctx : Nat) (r : FaultRecord) : Option State :=
  match s.contexts.find ctx with
  | none => none
  | some c =>
    match s.ringSlot ctx c with
    | none => none
    | some (h, e) =>
      let tail := s.read h 4
      let head := s.read (h + 4) 4
      if c.ringEntries ≤ (tail + 2 ^ 32 - head) % 2 ^ 32 then none
      else
        let s1 := (s.write e 32 r.bytes).write h 4 (tail + 1)
        let interrupt (t : Table Hart) (n : Nat) : Table Hart :=
          let x := (t.find n).getD Hart.fresh
          t.put n { x with interrupts := x.interrupts + 1 }
        some { s1 with harts := c.gpCores.foldl interrupt s1.harts }

/-- Records a fault in the ring where R334 places it, starting at context `start`; where that ring is full, or records already
wait for it, the record waits in order, and with it what `blocks` says (16 R334, 19 R421). -/
def State.postRecord (s : State) (start : Nat) (r : FaultRecord) (blocks : Blocked) : State :=
  match s.ringFor start false 6 with
  | none => { s with pending := s.pending ++ [{ ring := 0, record := r, blocks := blocks }] }
  | some (ctx, _, reflected) =>
    let r' := if reflected then { r with flags := r.flags ||| 16 } else r
    let wait : State := { s with pending := s.pending ++ [{ ring := ctx, record := r', blocks := blocks }] }
    if s.pending.any fun p => p.ring == ctx then wait
    else
      match s.ringWrite ctx r' with
      | some s' => s'
      | none => wait

/-- Records a fault of translation; the wait for a cold frame writes no record (19 R393). -/
def State.postFault (s : State) (f : AccessFault) (r : FaultRecord) (blocks : Blocked) : State :=
  if f.cause = .none then s else s.postRecord f.ring r blocks

/-- The record of a gang's faulting access (16 R333). `flags`: [0] side-logged store, [1] held access, [2] fetch. -/
def State.faultRecord (s : State) (key : Nat) (g : Gang) (f : AccessFault) (flags : BitVec 8) (age : Word) :
    FaultRecord where
  address := f.addr
  timestamp := s.timestamp
  ctx := g.ctx
  cause := f.cause
  flags := flags
  core := match s.context g.ctx with
    | none => 0xFFFF
    | some c => c.logicalCore (coreOf key)
  gang := gangField key
  level := f.level
  age := age

/-- The issuing gang holds at its access: its fault is recorded unless it met the same cause and address before, and it waits
for a retry (16 R331, 03 R78; log 10). -/
def State.holdGang (s : State) (g : Gang) (f : AccessFault) (flags : BitVec 8) (lanes : List Nat) : State :=
  let old := (s.gangs.find s.gang).bind fun x => x.held
  let hold : Hold := { cause := f.cause, addr := f.addr, retry := false, group := s.group }
  let s1 := s.setGang s.gang { g with held := some hold }
  let s2 : State := { s1 with idle := true }
  match old with
  | some h =>
    if h.cause = f.cause ∧ h.addr = f.addr then s2
    else s2.postFault f (s.faultRecord s.gang g f flags (g.ageOf lanes)) (.gang s.gang)
  | none => s2.postFault f (s.faultRecord s.gang g f flags (g.ageOf lanes)) (.gang s.gang)

end Sys2Proof.Machine
end

