-- ==== Sys2Proof/Machine/Counters.lean ====
section
/-!
DEFINITION. Handle fields and extents (04 R95, R96), the range and class counters (04 R112-R117), and releases and acquires
with their epochs and stamps (05 R129, R135, R136).
-/
namespace Sys2Proof.Machine

/-! ### Handles -/

/-- The kind of a handle (04 R95). -/
def handleKind (h : BitVec 128) : Nat := (h.extractLsb 127 124).toNat

/-- The handle names scratchpad (04 R95). -/
def handlePad (h : BitVec 128) : Bool := h.getLsbD 108

/-- The base of a handle (04 R95). -/
def handleBase (h : BitVec 128) : Nat := (h.extractLsb 47 0).toNat

/-- The length of a range handle (04 R95). -/
def handleLength (h : BitVec 128) : Nat := (h.extractLsb 95 48).toNat

/-- The element format of a tensor handle (04 R95). -/
def handleFormat (h : BitVec 128) : Nat := (h.extractLsb 107 104).toNat

/-- The row pitch of a tensor handle (04 R95). -/
def handlePitch (h : BitVec 128) : Nat := (h.extractLsb 103 80).toNat

/-- Rows of a tensor handle (04 R95). -/
def handleRows (h : BitVec 128) : Nat := (h.extractLsb 63 48).toNat + 1

/-- Columns of a tensor handle (04 R95). -/
def handleColumns (h : BitVec 128) : Nat := (h.extractLsb 79 64).toNat + 1

/-- The width in bits of a format code; zero for a reserved code (01 R28). -/
def formatWidth (code : Nat) : Nat :=
  match code with
  | 0 => 32 | 1 => 16 | 2 => 16 | 3 => 8 | 4 => 8 | 5 => 4 | 6 => 8 | 7 => 4 | 8 => 64 | _ => 0

/-- A run of bytes in one space, both ends included. -/
structure Extent where
  pad : Bool
  lo : Nat
  hi : Nat
  deriving DecidableEq, Repr

/-- The bytes from `lo`, `n` of them; none when `n` is zero. -/
def extent (pad : Bool) (lo n : Nat) : List Extent := if n = 0 then [] else [⟨pad, lo, lo + n - 1⟩]

/-- Two extents share a byte. -/
def Extent.meets (a b : Extent) : Bool := a.pad == b.pad && decide (a.lo ≤ b.hi) && decide (b.lo ≤ a.hi)

/-- The extent of a range or tensor handle (04 R96); that of a chart handle is `State.handleExtents`. -/
def handleExtent (h : BitVec 128) : Option Extent :=
  if handleKind h = 1 then some ⟨handlePad h, handleBase h, handleBase h + handleLength h - 1⟩
  else if handleKind h = 2 then
    some ⟨handlePad h, handleBase h, handleBase h + (handleRows h - 1) * handlePitch h +
      (handleColumns h * formatWidth (handleFormat h) + 7) / 8 - 1⟩
  else none

/-! ### The extent of a chart (04 R96; 17 R345-R349) -/

/-- The value of `n` bytes at a virtual address within one translation, if it can be read. -/
def State.readVirtual (s : State) (ctx va n : Nat) : Option Nat :=
  if 2 ^ 48 ≤ va then none
  else
    match s.translateFresh ctx va .load with
    | .ok (.mem a, _) => some (s.read a n)
    | _ => none

/-- An entry of a node with any of its reserved bits set, or not valid and not zero (17 R347). -/
def malformedLink (x : Nat) : Bool := decide (2 ^ 48 ≤ x) || (if x % 2 = 1 then x / 2 % 2048 != 0 else x != 0)

/-- The nodes and tiles below a block, with the block itself: `levels` of nodes stand above its tiles, each of `tile` bytes. -/
def State.treeExtents (s : State) (ctx tile : Nat) : Nat → Nat → List Extent
  | 0, block => [⟨false, block, block + tile - 1⟩]
  | levels + 1, node =>
    ⟨false, node, node + 4095⟩ :: (List.range 512).flatMap fun i =>
      match s.readVirtual ctx (node + 8 * i) 8 with
      | none => []
      | some x => if malformedLink x || x ≤ 1 then [] else s.treeExtents ctx tile levels (x - 1)

/-- The bytes of a pool: its header, its free ring and the blocks that are available (17 R349). -/
def State.poolExtents (s : State) (ctx pool : Nat) : List Extent :=
  ⟨false, pool, pool + 63⟩ ::
    match s.readVirtual ctx pool 8, s.readVirtual ctx (pool + 8) 4, s.readVirtual ctx (pool + 16) 4,
      s.readVirtual ctx (pool + 20) 4 with
    | some ring, some n, some head, some tail =>
      extent false ring (8 * n) ++ (List.range (min n ((tail + 2 ^ 32 - head) % 2 ^ 32))).flatMap fun i =>
        match s.readVirtual ctx (ring + 8 * ((head + i) % n)) 8 with
        | none => []
        | some block => [⟨false, block, block + 4095⟩]
    | _, _, _, _ => []

/-- The bytes assigned to the chart of a descriptor, and those of its pool, as the memory of a context now gives them. -/
def State.chartExtents (s : State) (ctx desc : Nat) : List Extent :=
  let tile := 512 * 2 ^ min 3 ((s.readVirtual ctx (desc + 14) 1).getD 0)
  let tree : List Extent :=
    match s.readVirtual ctx desc 8 with
    | none => []
    | some root => if root = 0 then [] else s.treeExtents ctx tile 4 root
  ⟨false, desc, desc + 63⟩ :: tree ++
    match s.readVirtual ctx (desc + 24) 8 with
    | none => []
    | some pool => s.poolExtents ctx pool

/-- The bytes that a handle covers (04 R96). -/
def State.handleExtents (s : State) (ctx : Nat) (h : BitVec 128) : List Extent :=
  if handleKind h = 3 then s.chartExtents ctx (handleBase h) else (handleExtent h).toList

/-! ### Range counters (04 R112, R113) -/

/-- An item for the range counters: the bytes it touches, or the chart descriptor it names. -/
structure Item where
  bytes : List Extent
  chart : Option DWord := none
  deriving DecidableEq, Repr

/-- The counter's binding covers the item. `ldc` and `stc` count where it names their descriptor, and every other item where its
extent shares a byte with it (04 R112). -/
def State.covers (s : State) (ctx : Nat) (c : RangeCounter) (i : Item) : Bool :=
  match i.chart with
  | some d => handleKind c.binding == 3 && handleBase c.binding == d.toNat
  | none => !i.bytes.isEmpty && (s.handleExtents ctx c.binding).any fun e => i.bytes.any fun x => x.meets e

/-- The counters that count an item, as a mask (04 R112). -/
def State.countersFor (s : State) (g : Gang) (i : Item) : BitVec 8 :=
  (List.range 8).foldl (fun m n =>
    match g.rc[n]? with
    | none => m
    | some c => if s.covers g.ctx c i then m ||| BitVec.twoPow 8 n else m) 0

/-- The range counters on which an `ordap` of the gang counts that waits for its turn: none where no such one has an active lane (03 R70,
R88; 04 R112). -/
def Gang.waitingOrdap (g : Gang) : Option (BitVec 8) :=
  match g.wait with
  | .ordap _ counted => counted
  | _ => none

/-- The value of a range counter. -/
def Gang.rangeCount (g : Gang) (n : Nat) : Nat :=
  (match g.rc[n]? with
    | none => 0
    | some c => c.count) + if (g.waitingOrdap.getD 0).getLsbD n then 1 else 0

/-- Counting the item would raise a count above 65,535 (04 R112). -/
def Gang.countersFull (g : Gang) (mask : BitVec 8) : Bool :=
  (List.range 8).any fun n => mask.getLsbD n && decide (65535 ≤ g.rangeCount n)

/-- Raises the counters of a mask. -/
def Gang.count (g : Gang) (mask : BitVec 8) : Gang :=
  { g with rc := g.rc.mapIdx fun n c => if mask.getLsbD n then { c with count := c.count + 1 } else c }

/-- Lowers the counters of a mask for an item whose reads were served under `seen` (04 R113; 05 R136). -/
def Gang.uncount (g : Gang) (mask : BitVec 8) (seen : List DWord) : Gang :=
  { g with rc := g.rc.mapIdx fun n c =>
      if mask.getLsbD n then { c with count := c.count - 1, seen := maxEpochs c.seen seen } else c }

/-- An item of a class has completed, its reads served under `seen` (05 R136). -/
def Gang.classDone (g : Gang) (cls : Nat) (seen : List DWord) : Gang :=
  { g with classSeen := replaceAt g.classSeen cls fun v => maxEpochs v seen }

/-- What served the reads of the completed items of a counter, numbered as in 04 R120. -/
def Gang.observed (g : Gang) (n : Nat) : List DWord :=
  if n < 8 then
    match g.rc[n]? with
    | none => noEpochs
    | some c => c.seen
  else g.classSeen.getD (n - 8) noEpochs

/-! ### Loads and class counters (03 R70, 04 R116) -/

/-- `ldcount`: loads that have not wholly landed, and an `ordap` that waits for its turn (03 R70). -/
def Gang.ldcount (g : Gang) : Nat :=
  (g.loads.filter fun l => l.onCounter && !l.sectors.isEmpty).length + if g.waitingOrdap.isSome then 1 else 0

/-- Drops the landed loads, but for those that `ccload` counts and that stand behind an outstanding load it counts (04 R116). `open_`:
such a load has been passed. -/
def trimLoads (open_ : Bool) : List Load → List Load
  | [] => []
  | x :: rest =>
    if x.sectors.isEmpty && !(x.onCounter && open_) then trimLoads open_ rest
    else x :: trimLoads (open_ || (x.onCounter && !x.sectors.isEmpty)) rest

/-- What served the reads of the counted loads of a list. -/
def seenBy (l : List Load) : List DWord :=
  (l.filter fun x => x.onCounter).foldl (fun v x => maxEpochs v x.seen) noEpochs

/-- The landed loads leave the gang, in the order of `ccload` (04 R116). -/
def Gang.retireLoads (g : Gang) : Gang :=
  let kept := trimLoads false g.loads
  { g with loads := kept }.classDone 4 (seenBy (g.loads.filter fun x => !(kept.any fun y => y.id == x.id)))

/-- `ccload`: loads that have not landed, or behind one that has not, and an `ordap` that waits for its turn (04 R116). -/
def Gang.ccload (g : Gang) : Nat := (g.loads.filter fun l => l.onCounter).length + if g.waitingOrdap.isSome then 1 else 0

/-- Outstanding commands of a class that a gang counts (04 R116). -/
def State.classCount (s : State) (key : Nat) (cls : EngineClass) : Nat :=
  (s.commands.filter fun c => c.cls == cls && c.gangs.contains key).length

/-- `ccpilot`: notices to whose page the pilot has committed and that are not yet written (04 R110). -/
def Gang.ccpilot (g : Gang) : Nat :=
  match g.chain with
  | none => 0
  | some c => c.notices.length

/-- A class counter by its number in 04 R117. -/
def State.classCounter (s : State) (key : Nat) (g : Gang) (n : Nat) : Nat :=
  match n with
  | 0 => s.classCount key .crane
  | 1 => s.classCount key .lighter
  | 2 => s.classCount key .gantry
  | 3 => g.ccpilot
  | _ => g.ccload

/-- A counter by its number in 04 R120: range counters 0-7, then the class counters. -/
def State.counter (s : State) (key : Nat) (g : Gang) (n : Nat) : Nat :=
  if n < 8 then g.rangeCount n else s.classCounter key g (n - 8)

/-- The gang has stores in the side log of its core (16 R332). -/
def State.hasLogged (s : State) (key : Nat) : Bool := (s.core (coreOf key)).sideLog.any fun e => e.gang == key

/-- Every earlier access and engine command of the gang has performed (04 R118). A `pil.start` whose chain waits for `pil.next`, with every
notice that it has committed to written, holds up nothing (DEDUCED, log 43: 05 R141 does not name its pages not yet committed to). -/
def State.performedAll (s : State) (key : Nat) (g : Gang) : Bool :=
  g.loads.isEmpty && !(s.commands.any fun c => c.gangs.contains key) && g.ccpilot == 0 && !s.hasLogged key

/-! ### Epochs and stamps (05 R135, R136) -/

/-- The applied vectors of the home dies of some machine addresses, joined. -/
def State.appliedOf (s : State) (homes : List Nat) : List DWord :=
  homes.foldl (fun v a =>
    match homeDie a with
    | none => v
    | some d => maxEpochs v (s.applied d)) noEpochs

/-- Value-returning accesses of the gang have been served under `v` (05 R136). -/
def Gang.saw (g : Gang) (v : List DWord) : Gang := { g with seen := maxEpochs g.seen v }

/-- An acquire fence: what served the gang's earlier value-returning accesses is merged into its stamp (04 R118; 05 R136). -/
def Gang.acquire (g : Gang) : Gang := g.merge g.seen

/-- The home die of a machine address serves an access that carries a stamp: its applied vector has reached it (05 R137). Host memory
and peer devices keep no epochs (R139). -/
def State.serves (s : State) (stamp : List DWord) (a : Nat) : Bool :=
  match homeDie a with
  | none => true
  | some d => (List.range 4).all fun i => decide ((stamp.getD i 0).toNat ≤ ((s.applied d).getD i 0).toNat)

/-- A release of a gang on a core becomes visible: its die begins a new epoch, sends a marker to each of the other dies, and
its own applied entry follows (05 R135, R136). -/
def State.release (s : State) (core : Nat) : State :=
  let d := dieOf core
  match s.dies[d]? with
  | none => s
  | some x =>
    let e := x.epoch + 1
    { s with
      dies := replaceAt s.dies d fun y => { y with epoch := e, applied := replaceAt y.applied d fun _ => e }
      markers := s.markers ++ ((List.range 4).filter fun o => o != d).map fun o => { src := d, dst := o, epoch := e } }

/-- The gang's stamp after its release: the entry of its own die is the epoch that the release began (05 R136). -/
def Gang.released (g : Gang) (s : State) (core : Nat) : Gang :=
  match s.dies[dieOf core]? with
  | none => g
  | some x => { g with stamp := replaceAt g.stamp (dieOf core) fun _ => x.epoch }

end Sys2Proof.Machine
end

