-- ==== Sys2Proof/Machine/Operands.lean ====
section
/-!
DEFINITION. The operand forms: how the shapes of instruction read their source registers and write their destination, per
active lane or once on scalars (07 R168, R170), and the effective addresses of memory operands (03 R62).
-/
namespace Sys2Proof.Machine

/-- `f` of the old destination and two sources, per active lane or on scalars (07 R170). -/
def ternary (s : State) (scalar : Bool) (d a b : Nat) (f : Word → Word → Word → Word) : Result :=
  if scalar then
    gate s (fun _ => { s := [d, a, b] }) fun g => s.finish (g.setS d (f (g.sreg d) (g.sreg a) (g.sreg b)))
  else
    gate s (fun _ => { v := [d, a, b] }) fun g =>
      s.finish (g.setV d (g.active s.group) fun l => f (g.vreg d l) (g.vreg a l) (g.vreg b l))

/-- `f` of one source, per active lane or on scalars (07 R170). -/
def unary (s : State) (scalar : Bool) (d a : Nat) (f : Word → Word) : Result :=
  if scalar then
    gate s (fun _ => { s := [d, a] }) fun g => s.finish (g.setS d (f (g.sreg a)))
  else
    gate s (fun _ => { v := [d, a] }) fun g => s.finish (g.setV d (g.active s.group) fun l => f (g.vreg a l))

/-- A comparison into a predicate: per active lane, or one scalar comparison into every enabled lane (07 R179). -/
def comparison (s : State) (scalar : Bool) (d a b : Nat) (f : Word → Word → Bool) : Result :=
  if scalar then
    gate s (fun _ => { s := [a, b] }) fun g =>
      s.finish (g.setP d (g.enabled s.group) fun _ => f (g.sreg a) (g.sreg b))
  else
    gate s (fun _ => { v := [a, b] }) fun g =>
      s.finish (g.setP d (g.active s.group) fun l => f (g.vreg a l) (g.vreg b l))

/-- `f` of two pairs into a pair (07 R172). -/
def pairBinary (s : State) (scalar : Bool) (d a b : Nat) (f : DWord → DWord → DWord) : Result :=
  let regs := [d, d + 1, a, a + 1, b, b + 1]
  if scalar then
    gate s (fun _ => { s := regs, even := [d, a, b] }) fun g => s.finish (g.setSpair d (f (g.spair a) (g.spair b)))
  else
    gate s (fun _ => { v := regs, even := [d, a, b] }) fun g =>
      s.finish (g.setVpair d (g.active s.group) fun l => f (g.vpair a l) (g.vpair b l))

/-- `f` of two single registers into a pair (07 R172). -/
def widening (s : State) (scalar : Bool) (d a b : Nat) (f : Word → Word → DWord) : Result :=
  let regs := [d, d + 1, a, b]
  if scalar then
    gate s (fun _ => { s := regs, even := [d] }) fun g => s.finish (g.setSpair d (f (g.sreg a) (g.sreg b)))
  else
    gate s (fun _ => { v := regs, even := [d] }) fun g =>
      s.finish (g.setVpair d (g.active s.group) fun l => f (g.vreg a l) (g.vreg b l))

/-- `f` of a pair and a single register into a pair (07 R172). -/
def pairIndexed (s : State) (scalar : Bool) (d a b : Nat) (f : DWord → Word → DWord) : Result :=
  let regs := [d, d + 1, a, a + 1, b]
  if scalar then
    gate s (fun _ => { s := regs, even := [d, a] }) fun g => s.finish (g.setSpair d (f (g.spair a) (g.sreg b)))
  else
    gate s (fun _ => { v := regs, even := [d, a] }) fun g =>
      s.finish (g.setVpair d (g.active s.group) fun l => f (g.vpair a l) (g.vreg b l))

/-- Each active lane: a function of two predicates into a predicate (07 R181). -/
def predicateOp (s : State) (d a b : Nat) (f : Bool → Bool → Bool) : Result :=
  gate s (fun _ => {}) fun g => s.finish (g.setP d (g.active s.group) fun l => f (g.preg a l) (g.preg b l))

/-- A function of the active lanes in which a predicate is true, into a scalar (07 R181). -/
def predicateRead (s : State) (d a : Nat) (f : List Nat → Word) : Result :=
  gate s (fun _ => { s := [d] }) fun g => s.finish (g.setS d (f ((g.active s.group).filter fun l => g.preg a l)))

/-- The effective address of a global access: the base pair plus a zero-extended index modulo 2⁶⁴; index register 127 means
no index (03 R62). -/
def Gang.globalAddress (g : Gang) (b x l : Nat) : DWord :=
  g.spair (2 * b) + (if x = 127 then 0 else (g.vreg x l).setWidth 64)

/-- The effective scratchpad offset, exact (03 R62). -/
def Gang.padOffset (g : Gang) (b x l : Nat) : Nat :=
  (g.sreg (2 * b)).toNat + (if x = 127 then 0 else (g.vreg x l).toNat)

/-- The index register a memory operand names, if any (02 R38). -/
def indexRegs (x : Nat) : List Nat := if x = 127 then [] else [x]

end Sys2Proof.Machine
end

