-- ==== Sys2Proof/Machine/Access.lean ====
section
/-!
DEFINITION. Plain, scoped and atomic accesses of gangs, landing loads, the side log's entries, ordered append, and the mooring
table (03 R61-R94, 16 R332, R418).
-/
namespace Sys2Proof.Machine

/-! ### Addresses and their checks (03 R62-R64) -/

/-- The accesses of an instruction: lane and address or offset. -/
abbrev Lanes := List (Nat × Nat)

/-- The first check of 03 R63 that fails for global addresses, with the failing lanes. -/
def globalCheck (n : Nat) (xs : Lanes) : Option (Trap × Lanes) :=
  let high := xs.filter fun x => decide (2 ^ 48 ≤ x.2)
  let odd := xs.filter fun x => x.2 % n != 0
  if !high.isEmpty then some (.protection, high) else if !odd.isEmpty then some (.misaligned, odd) else none

/-- The first check of 03 R63 that fails for scratchpad offsets under an allocation of `size` bytes. -/
def padCheck (n size : Nat) (xs : Lanes) : Option (Trap × Lanes) :=
  let odd := xs.filter fun x => x.2 % n != 0
  let far := xs.filter fun x => decide (size < x.2 + n)
  if !odd.isEmpty then some (.misaligned, odd) else if !far.isEmpty then some (.scratchpadRange, far) else none

/-- The lanes a report names: the failing lanes, or for an access of gang state the enabled lanes. -/
def State.reported (s : State) (g : Gang) (scalar : Bool) (bad : Lanes) : List Nat :=
  if scalar then g.enabled s.group else bad.map (·.1)

/-- The registers of an access of size code `z` (03 R64). -/
def accessRegs (t z : Nat) : List Nat := if z ≤ 2 then [t] else if z = 3 then [t, t + 1] else [t, t + 1, t + 2, t + 3]

/-- What an access needs at issue: its registers with their numbering, its base pair and its index. -/
def accessNeeds (scalar : Bool) (t b x z : Nat) : Needs where
  v := indexRegs x ++ if scalar then [] else accessRegs t z
  s := [2 * b, 2 * b + 1] ++ if scalar then accessRegs t z else []
  even := if z = 3 then [t] else []
  fours := if z = 4 then [t] else []

/-- The accesses of the active lanes of a global instruction. -/
def State.globalLanes (s : State) (g : Gang) (b x : Nat) : Lanes :=
  (g.active s.group).map fun l => (l, (g.globalAddress b x l).toNat)

/-- The value that an access of `n` bytes stores: the low bytes of its registers (03 R64). -/
def accessData (f : Nat → Word) (n : Nat) : BitVec 128 :=
  if n ≤ 4 then (f 0).setWidth 128 &&& BitVec.ofNat 128 (2 ^ (8 * n) - 1)
  else if n = 8 then (f 1 ++ f 0).setWidth 128 else f 3 ++ f 2 ++ f 1 ++ f 0

/-- Byte `i` of a value. -/
def byteOf (x : BitVec 128) (i : Nat) : Byte := (x >>> (8 * i)).setWidth 8

/-- The order in which lanes of one store take effect, so that the winner of 03 R68 is last: rising age, then rising lane. -/
def insertByAge (g : Gang) (x : Nat × Nat) : Lanes → Lanes
  | [] => [x]
  | y :: rest =>
    let a (l : Nat) : Nat := (g.ages.getD l 0xFFFFFFFF).toNat
    if a y.1 < a x.1 ∨ (a y.1 = a x.1 ∧ y.1 < x.1) then y :: insertByAge g x rest else x :: y :: rest

/-- Lanes by age, then by number. -/
def byAge (g : Gang) (xs : Lanes) : Lanes := xs.foldr (insertByAge g) []

/-- The accesses with no later one at their address. Accesses of one instruction have one size and are aligned, so those that share a
byte stand at one address: of the lanes of a store, those that win (03 R68). -/
def winners : Lanes → Lanes
  | [] => []
  | x :: rest => if rest.any fun y => y.2 == x.2 then winners rest else x :: winners rest

/-! ### The side log as later accesses meet it (16 R418) -/

/-- A plain entry of the gang shares a byte with `n` bytes at an address; a chart entry has no address yet. -/
def SideEntry.overlaps (e : SideEntry) (key a n : Nat) : Bool :=
  match e.op with
  | .chart .. => false
  | _ => e.gang == key && decide (e.addr.toNat < a + n) && decide (a < e.addr.toNat + e.size)

/-- Of two entries of one instruction at one place, the first in the log loses to the second, and its write never becomes visible (03
R68). Accesses of one instruction have one size and are aligned, so those that share a byte stand at one address. -/
def SideEntry.losesTo (e x : SideEntry) : Bool :=
  e.item == x.item && e.gang == x.gang &&
  match e.op, x.op with
  | .store, .store => e.addr == x.addr
  | .chart .., .chart .. => e.op == x.op
  | _, _ => false

/-- A logged reduction. -/
def SideEntry.reduces (e : SideEntry) : Bool :=
  match e.op with
  | .redAdd => true
  | .redFadd => true
  | .redMin => true
  | .redMax => true
  | _ => false

/-- The side log of a gang's core. -/
def State.sideLogOf (s : State) (key : Nat) : List SideEntry := (s.core (coreOf key)).sideLog

/-- Some entry of the gang overlaps some of the accesses. -/
def State.logOverlaps (s : State) (key n : Nat) (xs : Lanes) : Bool :=
  (s.sideLogOf key).any fun e => xs.any fun x => e.overlaps key x.2 n

/-- A logged reduction of the gang overlaps some of the accesses. -/
def State.logReduces (s : State) (key n : Nat) (xs : Lanes) : Bool :=
  (s.sideLogOf key).any fun e => e.reduces && xs.any fun x => e.overlaps key x.2 n

/-- The byte that the gang's logged stores leave at an address, if any writes it. -/
def State.loggedByte (s : State) (key a : Nat) : Option Byte :=
  (s.sideLogOf key).foldl (fun found e =>
    if e.op == .store && e.overlaps key a 1 then some (byteOf e.data (a - e.addr.toNat)) else found) none

/-- Every byte of an access has been written by the gang's logged stores, so that memory is not read. -/
def State.loggedWhole (s : State) (key a n : Nat) : Bool := (List.range n).all fun i => (s.loggedByte key (a + i)).isSome

/-! ### Translating the lanes (03 R78) -/

/-- A translated access. -/
structure Reaching where
  lane : Nat
  addr : Nat
  place : Except AccessFault Place

/-- Translates addresses one after another: each with where it goes. -/
def State.translateEach (s : State) (core ctx : Nat) (k : Want) : List Nat → List (Nat × Except AccessFault Place) × State
  | [] => ([], s)
  | a :: rest =>
    let (p, s1) := s.translate core ctx a k
    let (ps, s2) := State.translateEach s1 core ctx k rest
    ((a, p) :: ps, s2)

/-- Translates the accesses of one instruction; those at one address go to one place. -/
def State.translateLanes (s : State) (core ctx : Nat) (k : Want) (xs : Lanes) : List Reaching × State :=
  let (places, s1) := s.translateEach core ctx k (xs.map (·.2)).eraseDups
  (xs.filterMap fun x => (places.find? fun p => p.1 == x.2).map fun p => { lane := x.1, addr := x.2, place := p.2 }, s1)

/-- The fault of an access, if it failed. -/
def Reaching.fault (r : Reaching) : Option AccessFault :=
  match r.place with
  | .error f => some f
  | .ok _ => none

/-- The machine address of an access that reaches memory. -/
def Reaching.machine (r : Reaching) : Option Nat :=
  match r.place with
  | .ok (.mem a) => some a
  | _ => none

/-- The home dies of the accesses that reach memory all serve the gang's stamp; until they do the instruction waits (05 R137; log
7). -/
def State.servesAll (s : State) (g : Gang) (reached : List Reaching) : Bool :=
  (reached.filterMap Reaching.machine).all (s.serves g.stamp)

/-- The virtual address of the sector that cannot be corrected, where an access meets one (19 R396). -/
def State.badAt (s : State) (n : Nat) (r : Reaching) : Option DWord :=
  match r.machine with
  | none => none
  | some a => (s.badSector a n).map fun _ => BitVec.ofNat 64 (r.addr - r.addr % 32)

/-- Byte `i` that a read returns: what the gang's logged stores left, else memory; a device frame reads zero (16 R338). -/
def State.readByte (s : State) (key : Nat) (r : Reaching) (i : Nat) : Byte :=
  match s.loggedByte key (r.addr + i) with
  | some b => b
  | none =>
    match r.machine with
    | none => 0
    | some a => s.byte (a + i)

/-- A write to a device frame: a 4-byte value at offset 0 of the doorbell page rings it, other bytes ignore writes (13 R294, 16
R338). -/
def State.deviceWrite (s : State) (ctx off n v : Nat) : State :=
  match s.context ctx with
  | none => s
  | some c =>
    if n = 4 ∧ c.doorbell.map (· % 0x200000) = some off then
      { s with agenda := s.agenda ++
          [.event .doorbell { who := ctx, what := v % 2 ^ 32, which := 0, data := [], flag := false }] }
    else s

/-- A write of `n` bytes where an access goes. -/
def State.writePlace (s : State) (p : Place) (n v : Nat) : State :=
  match p with
  | .mem a => s.write a n v
  | .device ctx off => s.deviceWrite ctx off n v

/-- A read of `n` bytes where an access goes. -/
def State.readPlace (s : State) (p : Place) (n : Nat) : Nat :=
  match p with
  | .mem a => s.read a n
  | .device _ _ => 0

/-! ### Landing loads (03 R69, R70) -/

/-- The pieces of one value in a lane: its bytes by register and byte number, a value of 1 or 2 bytes zero-extended (03 R64),
each with the sector it arrives in. -/
def piecesOf (scalar : Bool) (t lane addr n : Nat) (f : Nat → Byte) : List (Nat × Piece) :=
  (List.range (max n 4)).map fun i =>
    let r := t + i / 4
    ((addr + min i (n - 1)) / 32,
      { key := if scalar then r else r * 64 + lane, index := i % 4, value := if i < n then f i else 0 })

/-- Sorts pieces into the sectors they arrive in, each with the range counters that cover some of its bytes. -/
def sectorsOf (ps : List (Nat × Piece)) (covers : Nat → BitVec 8) : List Sector :=
  (ps.map (·.1)).eraseDups.map fun k => { counted := covers k, pieces := (ps.filter fun p => p.1 == k).map (·.2) }

/-- The bytes of accesses of `n` bytes that lie in a sector. -/
def sectorExtents (n : Nat) (xs : Lanes) (k : Nat) : List Extent :=
  (xs.filter fun x => decide (x.2 / 32 ≤ k) && decide (k ≤ (x.2 + n - 1) / 32)).map fun x =>
    ⟨false, max x.2 (32 * k), min (x.2 + n - 1) (32 * k + 31)⟩

/-- The range counters that count some byte of a sector of an item. -/
def State.sectorCounters (s : State) (g : Gang) (n : Nat) (xs : Lanes) (k : Nat) : BitVec 8 :=
  s.countersFor g { bytes := sectorExtents n xs k }

/-- A load as it issues, but for its identifier. -/
structure LoadPlan where
  scalar : Bool
  dests : List Nat
  pieces : List (Nat × Piece)
  onCounter : Bool
  mask : BitVec 8
  /-- The range counters that cover some byte of a sector. -/
  covers : Nat → BitVec 8
  seen : List DWord
  tiles : List (Nat × Nat × Nat × Nat) := []

/-- The gang has issued a load whose data is to land: the range counters rise, the registers are pending, and its reads have been
served (log 8). -/
def State.issueLoad (s : State) (g : Gang) (p : LoadPlan) : State × Gang :=
  let g1 := (g.count p.mask).saw p.seen
  ({ s with serial := s.serial + 1 },
    { g1 with loads := g1.loads ++
        [{ id := s.serial, scalar := p.scalar, dests := p.dests, sectors := sectorsOf p.pieces p.covers,
           onCounter := p.onCounter, counted := p.mask, seen := p.seen, tiles := p.tiles }] })

/-- Replaces a byte of a register word. -/
def putByte (x : Word) (i : Nat) (b : Byte) : Word := (x &&& ~~~(0xFF#32 <<< (8 * i))) ||| (b.setWidth 32 <<< (8 * i))

/-- Writes a piece into its register. -/
def Gang.land (g : Gang) (scalar : Bool) (p : Piece) : Gang :=
  if scalar then { g with s := g.s.set p.key (putByte (g.s.get p.key) p.index p.value) }
  else { g with v := g.v.set p.key (putByte (g.v.get p.key) p.index p.value) }

/-- The counters of a list of sectors. -/
def sectorMask (l : List Sector) : BitVec 8 := l.foldl (fun m x => m ||| x.counted) 0

/-- Sector `j` of a load lands. A range counter falls when no sector with bytes that it covers is left, and with the last sector the
load counters fall (03 R69, R70; 04 R113, R116). -/
def Gang.landSector (g : Gang) (ld : Load) (j : Nat) : Gang :=
  let g1 := ((ld.sectors[j]?.map fun x => x.pieces).getD []).foldl (fun h p => h.land ld.scalar p) g
  let left := ld.sectors.eraseIdx j
  let still := ld.counted &&& sectorMask left
  let step (x : Load) : Load := if x.id == ld.id then { x with sectors := left, counted := still } else x
  let g2 : Gang := { g1 with loads := g1.loads.map step }
  (g2.uncount (ld.counted &&& ~~~still) ld.seen).retireLoads

/-- LOAD_SECTOR (03 R69). Subject: `who` is the gang, `what` the load, `which` the sector among those still to land. -/
def execLoadSector (s : State) : Result :=
  match s.gangs.find s.subject.who with
  | none => .next s
  | some g =>
    match g.loads.find? fun x => x.id == s.subject.what && decide (s.subject.which < x.sectors.length) with
    | none => .next s
    | some ld => .next (s.setGang s.subject.who (g.landSector ld s.subject.which))

/-! ### Loads (03 R73-R75, R80) -/

/-- The item that an access makes for the range counters (04 R112). -/
def itemOf (pad : Bool) (n : Nat) (xs : Lanes) : Item := { bytes := xs.map fun x => ⟨pad, x.2, x.2 + n - 1⟩ }

/-- The accesses by which an instruction is an item for the range counters: none where it has no active lane (04 R112). -/
def State.itemLanes (s : State) (g : Gang) (scalar : Bool) (xs : Lanes) : Lanes :=
  if scalar && (g.active s.group).isEmpty then [] else xs

/-- A load of the listed accesses into registers from `t`. A logged reduction holds its gang at it; it waits for room on its counters, and
for home dies that do not yet serve the gang's stamp; translations that fail hold the gang; a sector that cannot be corrected stops it (03 R78,
05 R137, 16 R418, 19 R396). An acquire covers the reads of its lanes (05 R136). -/
def performLoad (s : State) (g : Gang) (scalar acquire : Bool) (t z : Nat) (xs : Lanes) : Result :=
  let n := 2 ^ z
  match globalCheck n xs with
  | some (cause, bad) => .next (s.trapAt g cause (s.reported g scalar bad) (BitVec.ofNat 64 ((bad.head?.map (·.2)).getD 0)))
  | none =>
    if xs.isEmpty then s.finish g
    else
      let mask := s.countersFor g (itemOf false n (s.itemLanes g scalar xs))
      if g.countersFull mask then s.waiting
      else if s.logReduces s.gang n xs then s.waitAlone g
      else
        let (reached, s1) :=
          s.translateLanes (coreOf s.gang) g.ctx .load (xs.filter fun x => !s.loggedWhole s.gang x.2 n)
        let failed := reached.filter fun r => r.fault.isSome
        match failed.findSome? Reaching.fault with
        | some f => .next (s1.holdGang g f 2 (s.reported g scalar (failed.map fun r => (r.lane, r.addr))))
        | none =>
          let bad := reached.filter fun r => (s1.badAt n r).isSome
          if !s1.servesAll g reached then s.waiting
          else
            match bad.findSome? (s1.badAt n) with
            | some a =>
              .next (s1.trapAt g .memoryUncorrectable (s.reported g scalar (bad.map fun r => (r.lane, r.addr))) a)
            | none =>
              let reach (x : Nat × Nat) : Reaching :=
                (reached.find? fun r => r.lane == x.1).getD { lane := x.1, addr := x.2, place := .ok (.device 0 0) }
              let seen := s1.appliedOf (reached.filterMap Reaching.machine)
              let (s2, g1) := s1.issueLoad g
                { scalar := scalar, dests := accessRegs t z
                  pieces := xs.flatMap fun x => piecesOf scalar t x.1 x.2 n (s1.readByte s.gang (reach x))
                  onCounter := true, mask := mask, covers := s.sectorCounters g n (s.itemLanes g scalar xs), seen := seen }
              s2.finish (if acquire then g1.merge seen else g1)

/-- `ld` (03 R74). The hint changes no result (R76). -/
def execLd (t : BitVec 7) (b : BitVec 6) (x : BitVec 7) (z : BitVec 3) (_h : BitVec 2) (s : State) : Result :=
  gate s (fun _ => accessNeeds false t.toNat b.toNat x.toNat z.toNat) fun g =>
    performLoad s g false false t.toNat z.toNat (s.globalLanes g b.toNat x.toNat)

/-- `sld`: once for the gang (03 R75). -/
def execSld (t : BitVec 7) (b : BitVec 6) (z : BitVec 3) (_h : BitVec 2) (s : State) : Result :=
  gate s (fun _ => accessNeeds true t.toNat b.toNat 127 z.toNat) fun g =>
    performLoad s g true false t.toNat z.toNat [(0, (g.spair (2 * b.toNat)).toNat)]

/-- `ldacq`: a 4-byte load that acquires (03 R80, R81). -/
def execLdacq (t : BitVec 7) (b : BitVec 6) (x : BitVec 7) (c : BitVec 3) (s : State) : Result :=
  gate s (fun _ => { accessNeeds false t.toNat b.toNat x.toNat 2 with scope := some c.toNat }) fun g =>
    performLoad s g false true t.toNat 2 (s.globalLanes g b.toNat x.toNat)

/-- `pref` changes no visible state and raises no trap of an access (03 R77). A register that is not declared is a matter of the encoding,
and raises REGISTER_RANGE at issue as for every instruction (01 R12; DESIGN CHOICE, log 48: R77's `raises no trap` may exclude it). -/
def execPref (b : BitVec 6) (x : BitVec 7) (_h : BitVec 2) (s : State) : Result :=
  gate s (fun _ => { v := indexRegs x.toNat, s := [2 * b.toNat, 2 * b.toNat + 1] }) fun g => s.finish g

/-! ### Stores and reductions (03 R68, R74, R78, R82; 16 R332) -/

/-- The new memory word of an integer or floating-point update (03 R82, R83). -/
def updateWord (op : SideOp) (m v : Word) : Word :=
  match op with
  | .redAdd => m + v
  | .redFadd => addFp32 m v
  | .redMin => if m.toInt ≤ v.toInt then m else v
  | .redMax => if v.toInt ≤ m.toInt then m else v
  | _ => v

/-- Performs a store or a reduction where it goes. -/
def State.performAt (s : State) (op : SideOp) (p : Place) (n : Nat) (data : BitVec 128) : State :=
  match op with
  | .store => s.writePlace p n data.toNat
  | _ => s.writePlace p 4 (updateWord op (BitVec.ofNat 32 (s.readPlace p 4)) (data.setWidth 32)).toNat

/-- The need of a storing access in translation (16 R321). -/
def SideOp.want (op : SideOp) : Want :=
  match op with
  | .store => .store
  | _ => .reduce

/-- The side-log entry of an access of the issuing gang. `scalar`: it has no lane and the age 0xFFFF_FFFF (16 R332). -/
def State.sideEntry (s : State) (g : Gang) (op : SideOp) (scalar : Bool) (lane addr n : Nat) (data : BitVec 128)
    (fault : Option AccessFault) (mask : BitVec 8) (item : Nat) (release : Bool) : SideEntry where
  op := op
  addr := BitVec.ofNat 64 addr
  data := data
  size := n
  gang := s.gang
  ctx := g.ctx
  lane := if scalar then none else some lane
  age := if scalar then 0xFFFFFFFF else g.ages.getD lane 0xFFFFFFFF
  cause := match fault with
    | none => .none
    | some f => f.cause
  launch := ((s.crews.find g.crew).map fun c => c.launch).getD 0
  repro := ((s.crews.find g.crew).map fun c => c.record.reproducible).getD false
  faultAt := fault.map fun f => f.addr
  counted := mask
  item := item
  release := release
  stamp := g.stamp
  owed := []

/-- A partial write that meets a sector it cannot correct: it is not performed, and the writer stops after its instruction, the
record's source being the memory controller of the home die (19 R396). -/
def State.writeStop (s : State) (g : Gang) (trapPc : DWord) (lanes : List Nat) (machine : Nat) (a : DWord) : State :=
  s.stopGang s.gang g
    { cause := .memoryUncorrectable, lanes := lanes, address := a, code := 0, origin := !s.lineRaised g.ctx, precise := false,
      pc := g.pc s.group, trapPc := trapPc, source := some ((homeDie machine).getD 0 * 4096 + 0xF01) }

/-- A store or reduction of the listed accesses, in the order in which they take effect; of the lanes of a store that share bytes the one
that wins writes them (03 R68). Accesses whose translation fails, and those behind an entry of the gang, enter the side log, each as an
entry of its own, and the gang goes on. It holds while
the log has too little room (16 R332), and waits for home dies that do not yet serve its stamp (05 R137). A release begins an epoch with what of it
is performed now, and with each logged write when that is performed (05 R135; log 42). -/
def performStore (s : State) (g : Gang) (op : SideOp) (scalar release : Bool) (n : Nat) (xs : Lanes)
    (data : Nat → BitVec 128) : Result :=
  match globalCheck n xs with
  | some (cause, bad) => .next (s.trapAt g cause (s.reported g scalar bad) (BitVec.ofNat 64 ((bad.head?.map (·.2)).getD 0)))
  | none =>
    let item := s.itemLanes g scalar xs
    if (release && s.hasLogged s.gang) || g.countersFull (s.countersFor g (itemOf false n item)) then s.waiting
    else
      let order := if op == .store then byAge g xs else xs
      let wins := if op == .store then winners order else xs
      let behind (x : Nat × Nat) : Bool := s.logOverlaps s.gang n [x]
      let (reached, s1) := s.translateLanes (coreOf s.gang) g.ctx op.want (order.filter fun x => !behind x)
      let outcome (x : Nat × Nat) : Option Reaching := reached.find? fun r => r.lane == x.1
      let logged := order.filter fun x =>
        match outcome x with
        | none => true
        | some r => r.fault.isSome
      let log := s1.sideLogOf s.gang
      if !s1.servesAll g reached then s.waiting
      else if 128 < log.length + logged.length then s.waitAlone g
      else
        let writing := reached.filter fun r => wins.any fun x => x.1 == r.lane
        let bad := writing.filter fun r => (s1.badAt n r).isSome
        let s2 := writing.foldl (fun acc r =>
          match r.place with
          | .ok p => if (s1.badAt n r).isSome then acc else acc.performAt op p n (data r.lane)
          | .error _ => acc) s1
        let entries := logged.map fun x =>
          s2.sideEntry g op scalar x.1 x.2 n (data x.1) ((outcome x).bind Reaching.fault)
            (s.countersFor g (itemOf false n (s.itemLanes g scalar [x]))) s2.serial release
        let s3 : State := { s2 with serial := s2.serial + 1 }
        let s4 := s3.setCore (coreOf s.gang) { s3.core (coreOf s.gang) with sideLog := log ++ entries }
        let s5 := logged.foldl (fun acc x =>
          match (outcome x).bind Reaching.fault with
          | none => acc
          | some f =>
            acc.postFault f
              (acc.faultRecord s.gang g f 1 (if scalar then 0xFFFFFFFF else g.ages.getD x.1 0xFFFFFFFF))
              (.gang s.gang)) s4
        let g1 := g.count (entries.foldl (fun m e => m ||| e.counted) 0)
        let (s6, g2) :=
          if release && (logged.isEmpty || decide (logged.length < order.length)) then
            let r := s5.release (coreOf s.gang)
            (r, g1.released r (coreOf s.gang))
          else (s5, g1)
        let s7 := s6.advance g2 1
        match bad.findSome? (fun r => (s1.badAt n r).map fun a => (r, a)), s7.gangs.find s.gang with
        | some (r, a), some g3 =>
          .next (s7.writeStop g3 (g.pc s.group)
            (s.reported g scalar (xs.filter fun x => bad.any fun y => y.lane == x.1)) (r.machine.getD 0) a)
        | _, _ => .next s7

/-- `st` (03 R74). -/
def execSt (t : BitVec 7) (b : BitVec 6) (x : BitVec 7) (z : BitVec 3) (_h : BitVec 2) (s : State) : Result :=
  gate s (fun _ => accessNeeds false t.toNat b.toNat x.toNat z.toNat) fun g =>
    performStore s g .store false false (2 ^ z.toNat) (s.globalLanes g b.toNat x.toNat)
      fun l => accessData (fun i => g.vreg (t.toNat + i) l) (2 ^ z.toNat)

/-- `sst`: once for the gang (03 R75). -/
def execSst (t : BitVec 7) (b : BitVec 6) (z : BitVec 3) (_h : BitVec 2) (s : State) : Result :=
  gate s (fun _ => accessNeeds true t.toNat b.toNat 127 z.toNat) fun g =>
    performStore s g .store true false (2 ^ z.toNat) [(0, (g.spair (2 * b.toNat)).toNat)]
      fun _ => accessData (fun i => g.sreg (t.toNat + i)) (2 ^ z.toNat)

/-- `strel`: a 4-byte store that releases; it waits for the gang's logged stores (03 R80, R81). -/
def execStrel (t : BitVec 7) (b : BitVec 6) (x : BitVec 7) (c : BitVec 3) (s : State) : Result :=
  gate s (fun _ => { accessNeeds false t.toNat b.toNat x.toNat 2 with scope := some c.toNat }) fun g =>
    performStore s g .store false true 4 (s.globalLanes g b.toNat x.toNat)
      fun l => accessData (fun i => g.vreg (t.toNat + i) l) 4

/-- The launch of the gang is reproducible (01 R25). -/
def State.isReproducible (s : State) (g : Gang) : Bool :=
  match s.crews.find g.crew with
  | none => false
  | some c => c.record.reproducible

/-- `mred`: lanes in ascending order; nothing is returned (03 R82). The floating-point form raises REPRO_VIOLATION in a
reproducible launch (R85), before the address checks of R63 (DESIGN CHOICE, log 48: R85 puts it after those of 02 R54 and says no more). -/
def reduction (s : State) (op : SideOp) (t b x c : Nat) : Result :=
  gate s (fun _ => { accessNeeds false t b x 2 with scope := some c }) fun g =>
    if op == .redFadd && s.isReproducible g then s.trap g .reproViolation
    else
      performStore s g op false false 4 (s.globalLanes g b x) fun l => (g.vreg t l).setWidth 128

/-- `mred.add` (03 R82). -/
def execMredAdd (t : BitVec 7) (b : BitVec 6) (x : BitVec 7) (c : BitVec 3) (s : State) : Result :=
  reduction s .redAdd t.toNat b.toNat x.toNat c.toNat

/-- `mred.fadd` (03 R82, R83, R85). -/
def execMredFadd (t : BitVec 7) (b : BitVec 6) (x : BitVec 7) (c : BitVec 3) (s : State) : Result :=
  reduction s .redFadd t.toNat b.toNat x.toNat c.toNat

/-- `mred.min` (03 R82). -/
def execMredMin (t : BitVec 7) (b : BitVec 6) (x : BitVec 7) (c : BitVec 3) (s : State) : Result :=
  reduction s .redMin t.toNat b.toNat x.toNat c.toNat

/-- `mred.max` (03 R82). -/
def execMredMax (t : BitVec 7) (b : BitVec 6) (x : BitVec 7) (c : BitVec 3) (s : State) : Result :=
  reduction s .redMax t.toNat b.toNat x.toNat c.toNat

/-! ### Value-returning atomics (03 R82-R86) -/

/-- The lanes' operations in ascending order, each on the memory the lower ones left: the old values by lane, and the state. `f`
gives the new word, or none where the operation writes nothing. -/
def atomicLanes (f : Nat → Word → Option Word) : State → List Reaching → List (Nat × Word) × State
  | s, [] => ([], s)
  | s, r :: rest =>
    match r.place with
    | .error _ => atomicLanes f s rest
    | .ok p =>
      let old : Word := BitVec.ofNat 32 (s.readPlace p 4)
      let s1 :=
        match f r.lane old with
        | none => s
        | some new => s.writePlace p 4 new.toNat
      let (olds, s2) := atomicLanes f s1 rest
      ((r.lane, old) :: olds, s2)

/-- An atomic: `f lane m` is the new memory word. It holds its gang behind every overlapping logged access of it, and its old
values land as a load's (03 R78, R82; 05 R137; 16 R418). -/
def performAtomic (s : State) (g : Gang) (t : Nat) (xs : Lanes) (f : Nat → Word → Option Word) : Result :=
  match globalCheck 4 xs with
  | some (cause, bad) => .next (s.trapAt g cause (bad.map (·.1)) (BitVec.ofNat 64 ((bad.head?.map (·.2)).getD 0)))
  | none =>
    if xs.isEmpty then s.finish g
    else
      let mask := s.countersFor g (itemOf false 4 xs)
      if g.countersFull mask then s.waiting
      else if s.logOverlaps s.gang 4 xs then s.waitAlone g
      else
        let (reached, s1) := s.translateLanes (coreOf s.gang) g.ctx .atomic xs
        let failed := reached.filter fun r => r.fault.isSome
        match failed.findSome? Reaching.fault with
        | some e => .next (s1.holdGang g e 2 (failed.map Reaching.lane))
        | none =>
          let bad := reached.filter fun r => (s1.badAt 4 r).isSome
          if !s1.servesAll g reached then s.waiting
          else
            match bad.findSome? (s1.badAt 4) with
            | some a => .next (s1.trapAt g .memoryUncorrectable (bad.map Reaching.lane) a)
            | none =>
              let (olds, s2) := atomicLanes f s1 reached
              let (s3, g1) := s2.issueLoad g
                { scalar := false, dests := [t]
                  pieces := olds.flatMap fun o =>
                    piecesOf false t o.1 ((xs.find? fun x => x.1 == o.1).map (·.2) |>.getD 0) 4
                      fun i => byteOf (o.2.setWidth 128) i
                  onCounter := true, mask := mask, covers := s.sectorCounters g 4 xs
                  seen := s1.appliedOf (reached.filterMap Reaching.machine) }
              s3.finish g1

/-- An atomic of one operand register. The floating-point form raises REPRO_VIOLATION in a reproducible launch, before the address checks
(03 R85; DESIGN CHOICE, log 48). -/
def atomic (s : State) (t b x c : Nat) (f : Word → Word → Word) (float : Bool := false) : Result :=
  gate s (fun _ => { accessNeeds false t b x 2 with scope := some c }) fun g =>
    if float && s.isReproducible g then s.trap g .reproViolation
    else performAtomic s g t (s.globalLanes g b x) fun l m => some (f m (g.vreg t l))

/-- `atom.add` (03 R82). -/
def execAtomAdd (t : BitVec 7) (b : BitVec 6) (x : BitVec 7) (c : BitVec 3) (s : State) : Result :=
  atomic s t.toNat b.toNat x.toNat c.toNat (updateWord .redAdd)

/-- `atom.min` (03 R82). -/
def execAtomMin (t : BitVec 7) (b : BitVec 6) (x : BitVec 7) (c : BitVec 3) (s : State) : Result :=
  atomic s t.toNat b.toNat x.toNat c.toNat (updateWord .redMin)

/-- `atom.max` (03 R82). -/
def execAtomMax (t : BitVec 7) (b : BitVec 6) (x : BitVec 7) (c : BitVec 3) (s : State) : Result :=
  atomic s t.toNat b.toNat x.toNat c.toNat (updateWord .redMax)

/-- `atom.exch` (03 R82). -/
def execAtomExch (t : BitVec 7) (b : BitVec 6) (x : BitVec 7) (c : BitVec 3) (s : State) : Result :=
  atomic s t.toNat b.toNat x.toNat c.toNat fun _ v => v

/-- `atomb.and` (03 R82). -/
def execAtombAnd (t : BitVec 7) (b : BitVec 6) (x : BitVec 7) (c : BitVec 3) (s : State) : Result :=
  atomic s t.toNat b.toNat x.toNat c.toNat fun m v => m &&& v

/-- `atomb.or` (03 R82). -/
def execAtombOr (t : BitVec 7) (b : BitVec 6) (x : BitVec 7) (c : BitVec 3) (s : State) : Result :=
  atomic s t.toNat b.toNat x.toNat c.toNat fun m v => m ||| v

/-- `atomb.xor` (03 R82). -/
def execAtombXor (t : BitVec 7) (b : BitVec 6) (x : BitVec 7) (c : BitVec 3) (s : State) : Result :=
  atomic s t.toNat b.toNat x.toNat c.toNat fun m v => m ^^^ v

/-- `atomb.fadd` (03 R82, R83, R85). -/
def execAtombFadd (t : BitVec 7) (b : BitVec 6) (x : BitVec 7) (c : BitVec 3) (s : State) : Result :=
  atomic s t.toNat b.toNat x.toNat c.toNat (updateWord .redFadd) true

/-- `cas` (03 R82): `v(t)` holds the expected and `v(t+1)` the new value; where they differ it writes nothing. -/
def execCas (t : BitVec 7) (b : BitVec 6) (x : BitVec 7) (c : BitVec 3) (s : State) : Result :=
  gate s (fun _ =>
      { v := indexRegs x.toNat ++ [t.toNat, t.toNat + 1], s := [2 * b.toNat, 2 * b.toNat + 1], even := [t.toNat],
        scope := some c.toNat }) fun g =>
    performAtomic s g t.toNat (s.globalLanes g b.toNat x.toNat) fun l m =>
      if m = g.vreg t.toNat l then some (g.vreg (t.toNat + 1) l) else none

/-! ### Ordered append (03 R87-R89) -/

/-- The gang's ordinal modulo 2³² (03 R87). -/
def ordinal (c : Crew) (g : Gang) : Nat := (c.index * c.record.gangCount + g.index) % 2 ^ 32

/-- Running counts: each listed lane with the count before it, and the count after all (03 R87). -/
def appendCounts (count : Word) (operand : Nat → Word) : List Nat → List (Nat × Word) × Word
  | [] => ([], count)
  | l :: rest =>
    let (xs, last) := appendCounts (count + operand l) operand rest
    ((l, count) :: xs, last)

/-- `ordap` (03 R87, R88): once it has issued, no other group of its gang issues until the word's turn is its gang's ordinal and the
word has been updated. While it waits for that, it counts as issued (R70). -/
def execOrdap (t : BitVec 7) (b : BitVec 6) (c : BitVec 3) (s : State) : Result :=
  gate s (fun _ => { accessNeeds false t.toNat b.toNat 127 2 with scope := some c.toNat }) fun g =>
    match s.crews.find g.crew with
    | none => .fault .noIssuer
    | some crew =>
      let a := (g.spair (2 * b.toNat)).toNat
      let lanes := g.active s.group
      match globalCheck 8 [(0, a)] with
      | some (cause, _) => .next (s.trapAt g cause (g.enabled s.group) (BitVec.ofNat 64 a))
      | none =>
        let mask := if lanes.isEmpty then 0 else s.countersFor g (itemOf false 8 [(0, a)])
        let turn : Result :=
          .next { s.setGang s.gang { g with wait := .ordap s.group (if lanes.isEmpty then none else some mask) } with idle := true }
        if g.countersFull mask then s.waiting
        else if s.logOverlaps s.gang 8 [(0, a)] then s.waitAlone g
        else
          match s.translate (coreOf s.gang) g.ctx a .atomic with
          | (.error f, s1) => .next (s1.holdGang g f 2 (g.enabled s.group))
          | (.ok p, s1) =>
            let r : Reaching := { lane := 0, addr := a, place := .ok p }
            if !s1.servesAll g [r] then turn
            else
              match s1.badAt 8 r with
              | some bad => .next (s1.trapAt g .memoryUncorrectable (g.enabled s.group) bad)
              | none =>
                let w : DWord := BitVec.ofNat 64 (s1.readPlace p 8)
                if (highWord w).toNat ≠ ordinal crew g then turn
                else
                  let (counts, last) := appendCounts (lowWord w) (fun l => g.vreg t.toNat l) lanes
                  let s2 := s1.writePlace p 8 (pairOf last (highWord w + 1)).toNat
                  let seen := s1.appliedOf r.machine.toList
                  if lanes.isEmpty then s2.finish (g.saw seen)
                  else
                    let (s3, g1) := s2.issueLoad g
                      { scalar := false, dests := [t.toNat]
                        pieces := counts.flatMap fun o =>
                          piecesOf false t.toNat o.1 a 4 fun i => byteOf (o.2.setWidth 128) i
                        onCounter := true, mask := mask, covers := s.sectorCounters g 8 [(0, a)], seen := seen }
                    s3.finish g1

/-! ### Scratchpad accesses (03 R71-R74) -/

/-- What a scratchpad access needs: its base is the single register s(2b) (02 R40). -/
def padNeeds (t b x z : Nat) : Needs where
  v := indexRegs x ++ accessRegs t z
  s := [2 * b]
  even := if z = 3 then [t] else []
  fours := if z = 4 then [t] else []

/-- A scratchpad access of the active lanes, checked (03 R63): `body` gets the crew, the lanes with their offsets, the gang. -/
def padAccess (s : State) (t b x z : Nat) (body : Gang → Crew → Lanes → Result) : Result :=
  gate s (fun _ => padNeeds t b x z) fun g =>
    match s.crews.find g.crew with
    | none => .fault .noIssuer
    | some crew =>
      let xs := (g.active s.group).map fun l => (l, g.padOffset b x l)
      match padCheck (2 ^ z) crew.padSize xs with
      | some (cause, bad) =>
        .next (s.trapAt g cause (bad.map (·.1)) (BitVec.ofNat 64 ((bad.head?.map (·.2)).getD 0)))
      | none => if g.countersFull (s.countersFor g (itemOf true (2 ^ z) xs)) then s.waiting else body g crew xs

/-- `ldsp` (03 R74). -/
def execLdsp (t : BitVec 7) (b : BitVec 6) (x : BitVec 7) (z : BitVec 3) (s : State) : Result :=
  padAccess s t.toNat b.toNat x.toNat z.toNat fun g crew xs =>
    let n := 2 ^ z.toNat
    let value (a : Nat) : BitVec 128 := BitVec.ofNat 128 (s.padRead (coreOf s.gang) crew a n)
    s.finish (xs.foldl (fun h x =>
      (accessRegs t.toNat z.toNat).foldl (fun h r =>
        h.setV r [x.1] fun _ => (value x.2 >>> (32 * (r - t.toNat))).setWidth 32) h) g)

/-- `stsp` (03 R68, R74). -/
def execStsp (t : BitVec 7) (b : BitVec 6) (x : BitVec 7) (z : BitVec 3) (s : State) : Result :=
  padAccess s t.toNat b.toNat x.toNat z.toNat fun g crew xs =>
    let n := 2 ^ z.toNat
    let s1 := (byAge g xs).foldl (fun acc x =>
      acc.padWrite (coreOf s.gang) crew x.2 n (accessData (fun i => g.vreg (t.toNat + i) x.1) n).toNat) s
    s1.finish g

/-! ### The mooring table (03 R90-R94) -/

/-- The mooring slot size S of a crew in bytes (01 R24). -/
def Crew.slotSize (c : Crew) : Nat :=
  let m := (c.record.geometry.extractLsb 23 21).toNat
  if m = 0 ∨ 5 < m then 0 else 128 * 2 ^ m

/-- The number of mooring entries E of a crew (03 R90). -/
def Crew.entries (c : Crew) : Nat := if c.slotSize = 0 then 0 else min (c.padSize / c.slotSize) 1024

/-- The result of a lookup (03 R91). -/
def Crew.moored (c : Crew) (ea : DWord) : Word :=
  if c.slotSize = 0 then 0xFFFFFFFF
  else
    match c.mooring.find? fun e => e.2 == BitVec.ofNat 64 (ea.toNat / c.slotSize + 1) with
    | none => 0xFFFFFFFF
    | some e => BitVec.ofNat 32 (e.1 * c.slotSize + ea.toNat % c.slotSize)

/-- `mrlook` into a v register (03 R91). -/
def execMrlookVector (d : BitVec 7) (a : BitVec 7) (b : BitVec 7) (s : State) : Result :=
  gate s (fun _ => { v := d.toNat :: indexRegs b.toNat, s := [a.toNat, a.toNat + 1], even := [a.toNat] }) fun g =>
    match s.crews.find g.crew with
    | none => .fault .noIssuer
    | some crew =>
      s.finish (g.setV d.toNat (g.active s.group) fun l =>
        crew.moored (g.spair a.toNat + if b.toNat = 127 then 0 else (g.vreg b.toNat l).setWidth 64))

/-- `mrlook` into an s register (03 R91). -/
def execMrlookScalar (d : BitVec 7) (a : BitVec 7) (s : State) : Result :=
  gate s (fun _ => { s := [d.toNat, a.toNat, a.toNat + 1], even := [a.toNat] }) fun g =>
    match s.crews.find g.crew with
    | none => .fault .noIssuer
    | some crew => s.finish (g.setS d.toNat (crew.moored (g.spair a.toNat)))

/-- `mrset` (03 R92). -/
def execMrset (a : BitVec 7) (b : BitVec 7) (s : State) : Result :=
  gate s (fun _ => { s := [a.toNat, a.toNat + 1, b.toNat], even := [a.toNat] }) fun g =>
    match s.crews.find g.crew with
    | none => .fault .noIssuer
    | some crew =>
      let e := (g.sreg b.toNat).toNat
      if crew.entries ≤ e then s.trap g .scratchpadRange
      else
        let tag := BitVec.ofNat 64 ((g.spair a.toNat).toNat / crew.slotSize + 1)
        let others := crew.mooring.filter fun x => x.2 != tag
        (s.setCrew g.crew { crew with mooring := Cells.set others e tag }).finish g

/-- `mrclr` (03 R93). -/
def execMrclr (b : BitVec 7) (s : State) : Result :=
  gate s (fun _ => { s := [b.toNat] }) fun g =>
    match s.crews.find g.crew with
    | none => .fault .noIssuer
    | some crew =>
      let e := (g.sreg b.toNat).toNat
      if e = 0xFFFFFFFF then (s.setCrew g.crew { crew with mooring := [] }).finish g
      else if crew.entries ≤ e then s.trap g .scratchpadRange
      else (s.setCrew g.crew { crew with mooring := crew.mooring.set e 0 }).finish g

end Sys2Proof.Machine
end

