-- ==== Sys2Proof/Machine/Banks.lean ====
section
/-!
DEFINITION. Gantry accumulator banks: accumulators, holds, operand latches and offered sends of one context on one core, and what
the end of a gang does at the rendezvous and operand latches (09 R221, R224, R225, R238).
-/
namespace Sys2Proof.Machine

/-- The bank of a context that has none saved: accumulators +0 and unheld, latches empty, nothing offered (09 R238). -/
def Bank.fresh : Bank where
  acc := []
  holds := []
  latches := []
  offers := []

/-- The bank of a context on a core. -/
def State.bank (s : State) (core ctx : Nat) : Bank := ((s.core core).banks.find ctx).getD Bank.fresh

/-- Replaces the bank of a context on a core. -/
def State.setBank (s : State) (core ctx : Nat) (b : Bank) : State :=
  s.setCore core { s.core core with banks := (s.core core).banks.put ctx b }

/-- The gantry takes up the bank of a context; of the others the last used stays in it (09 R238). -/
def State.useBank (s : State) (core ctx : Nat) : State :=
  s.setCore core { s.core core with
    residentBanks := (ctx :: (s.core core).residentBanks.filter (· != ctx)).take 2 }

/-- Key of an element of an accumulator. -/
def accKey (acc row col : Nat) : Nat := acc * 24576 + row * 128 + col

/-- Latch key of a matrix group: a solo gang's, or a convoy's. -/
def latchKey (gang crew : Nat) (convoy : Option Nat) : Nat :=
  match convoy with
  | none => gangField gang
  | some d => 128 + crew % 8 * 8 + d

/-- The latches of a gang that ends are emptied: its own, and those of the convoys that list it (09 R224). -/
def Bank.dropGang (b : Bank) (gang crew : Nat) (defs : List Nat) : Bank :=
  { b with latches := b.latches.filter fun e =>
      e.1 != latchKey gang crew none && !(defs.any fun d => e.1 == latchKey gang crew (some d)) }

/-- CONVOY_MISMATCH, or another trap of a joint instruction, in every gang that has arrived; none executes (09 R221). `origin`: the event
raises the halt line. -/
def State.trapArrivals (s : State) (arrivals : List Arrival) (cause : Trap) (address : DWord) (origin : Bool) : State :=
  arrivals.foldl (fun acc a =>
    match acc.gangs.find a.gang with
    | none => acc
    | some g =>
      acc.stopGang a.gang g
        { cause := cause, lanes := g.enabled a.group, address := address, code := 0, origin := origin, precise := true,
          pc := a.pc, trapPc := a.pc }) s

/-- Clears the rendezvous latch of a convoy. -/
def Crew.clearLatch (c : Crew) (d : Nat) : Crew :=
  { c with convoys := c.convoys.map fun e => if e.defn == d then { e with arrivals := [] } else e }

/-- What the end of a gang does to matrix groups that list it: operand latches are emptied, and gangs waiting at a rendezvous
raise CONVOY_MISMATCH (09 R221, R224). -/
def State.leaveConvoys (s : State) (key : Nat) (g : Gang) (origin : Bool) : State :=
  match s.crews.find g.crew with
  | none => s
  | some crew =>
    let listing := crew.convoys.filter fun e => e.gangs.contains g.index
    let s1 :=
      match (s.core (coreOf key)).banks.find g.ctx with
      | none => s
      | some b => s.setBank (coreOf key) g.ctx (b.dropGang key g.crew (listing.map fun e => e.defn))
    listing.foldl (fun acc e =>
      if e.arrivals.isEmpty then acc
      else
        match acc.crews.find g.crew with
        | none => acc
        | some c => (acc.setCrew g.crew (c.clearLatch e.defn)).trapArrivals e.arrivals .convoyMismatch 0 origin) s1

end Sys2Proof.Machine
end

