-- ==== Sys2Proof/Machine/Control.lean ====
section
/-!
DEFINITION. Control transfers, mask stacks, barriers, special registers and software traps (07 R183-R189, 11 R243-R264), and
the two fates of a word that cannot issue (02 R36, R53).
-/
namespace Sys2Proof.Machine

/-! ### Mask stacks -/

/-- `br` in slice `j`: lanes where the condition holds continue at `target`; a slice whose enabled lanes disagree pushes the
taken path as pending and falls through (07 R183, 11 R244). -/
def Slice.branch (c : Nat → Bool) (target : DWord) (j : Nat) (sl : Slice) : Slice :=
  let taken : BitVec 4 :=
    (List.range 4).foldl (fun m i => if sl.top.getLsbD i && c (4 * j + i) then m ||| BitVec.twoPow 4 i else m) 0
  if taken = sl.top then { sl with pc := target }
  else if taken = 0 then { sl with pc := sl.pc + 4 }
  else
    { sl with
      pc := sl.pc + 4
      stack := { mask := sl.top &&& ~~~taken, kind := .running, addr := 0 } ::
        { mask := taken, kind := .pending, addr := target } :: sl.stack }

/-- `join` at the slice's program counter (11 R245). -/
def Slice.join (_j : Nat) (sl : Slice) : Slice :=
  match sl.stack with
  | _ :: x :: rest => sl.unwind sl.pc false (x :: rest)
  | _ => { sl with pc := sl.pc + 4 }

/-- Discards empty entries from the top down, remembering the last one discarded (11 R246). -/
def discardEmpty (last : Option MaskEntry) : List MaskEntry → Option MaskEntry × List MaskEntry
  | [] => (last, [])
  | e :: rest => if e.mask = 0 then discardEmpty (some e) rest else (last, e :: rest)

/-- Removes lanes from every entry of a slice; a slice left with no entry takes the status `gone` (11 R246, 12 R274). Where the paths that
it joins end at the address that ends the refill step (`stop`), its part of the step ends (12 R275). -/
def Slice.dropLanes (lanes : BitVec 4) (gone : SliceStatus) (stop : Option DWord) (sl : Slice) : Slice :=
  let left := sl.stack.map fun e => { e with mask := e.mask &&& ~~~lanes }
  match discardEmpty none left with
  | (_, []) => { sl with stack := [], status := gone }
  | (none, e :: rest) => { sl with stack := e :: rest, pc := sl.pc + 4 }
  | (some z, e :: rest) =>
    match e.kind, z.kind with
    | .pending, _ => { sl with stack := { e with kind := .resumedFree, addr := 0 } :: rest, pc := e.addr }
    | _, .resumed => sl.unwind z.addr (stop == some z.addr) (e :: rest)
    | _, _ => { sl with stack := e :: rest, pc := sl.pc + 4 }

/-! ### Transfers -/

/-- `br` (07 R183). -/
def execBr (p : BitVec 4) (n : Bool) (o : BitVec 20) (s : State) : Result :=
  gate s (fun _ => {}) fun g =>
    let target := g.pc s.group + (o.signExtend 64 <<< 2)
    .next (s.proceed g 1 (Slice.branch (fun l => g.preg p.toNat l != n) target))

/-- A transfer of every issuing slice to the address in an s pair, checked in the order of 07 R184. -/
def jumpTo (s : State) (a : Nat) : Result :=
  gate s (fun _ => { s := [a, a + 1], even := [a] }) fun g =>
    let target := g.spair a
    if target.toNat ≥ 2 ^ 48 then s.trap g .protection
    else if target.toNat % 4 ≠ 0 then s.trap g .misaligned
    else .next (s.proceed g 1 fun _ sl => { sl with pc := target })

/-- `jmp` (07 R184). -/
def execJmp (a : BitVec 7) (s : State) : Result := jumpTo s a.toNat

/-- `ret` (07 R184). -/
def execRet (a : BitVec 7) (s : State) : Result := jumpTo s a.toNat

/-- `call`: the return address into s126:127, and each issuing slice to the target (07 R185). -/
def execCall (o : BitVec 20) (s : State) : Result :=
  gate s (fun _ => { s := [126, 127] }) fun g =>
    let a := g.pc s.group
    .next (s.proceed (g.setSpair 126 (a + 4)) 1 fun _ sl => { sl with pc := a + (o.signExtend 64 <<< 2) })

/-- `join` (11 R245). -/
def execJoin (s : State) : Result := gate s (fun _ => {}) fun g => .next (s.proceed g 1 Slice.join)

/-- `regang`: the issuing slices wait; when every running slice waits at one, all are released (11 R251; log 29). -/
def execRegang (s : State) : Result :=
  gate s (fun _ => {}) fun g =>
    let parked := g.mapMembers s.group fun _ sl => { sl with parked := true }
    let g' := parked.releaseParked (s.stepEnd g)
    if g'.slices.any fun sl => sl.status == .running && sl.parked then
      .next { s.setGang s.gang parked with idle := true }
    else
      .next (s.setGang s.gang { g' with lastGroup := s.group })

/-- `nop` (02 R53). -/
def execNop (s : State) : Result := gate s (fun _ => {}) fun g => s.finish g

/-! ### The end of a gang -/

/-- Every slice of the gang has ended (07 R186). -/
def Gang.hasEnded (g : Gang) : Bool := g.slices.all fun sl => sl.status == .ended

/-- The gang waits at `bar`, or at `barc` on a definition listing gang `index`, and its target is not reached (11 R262). -/
def State.barredWith (s : State) (crew : Crew) (index : Nat) (g : Gang) : Bool :=
  !s.waitOver g &&
  match g.wait with
  | .bar _ _ => true
  | .barc d _ => crew.convoys.any fun e => e.defn == d && e.gangs.contains index
  | _ => false

/-- BARRIER_MISUSE in a gang waiting at a barrier: the wait ends without acquiring, and the gang stands at its barrier
instruction again (11 R262). `origin`: the event of which it is part raises the halt line. -/
def State.misuse (s : State) (key : Nat) (g : Gang) (origin : Bool) : State :=
  let g' := { g with wait := .none, waited := 0, slices := g.slices.map fun sl => { sl with pc := sl.pc - 4 } }
  s.stopGang key g'
    { cause := .barrierMisuse, lanes := g.enabled g.lastGroup, address := 0, code := 0, origin := origin, precise := true,
      pc := g'.pc g.lastGroup, trapPc := g'.pc g.lastGroup }

/-- The gang that ended leaves: its pilot chain ends as by `pil.stop`, and the gangs of its crew that wait at a barrier with
it raise BARRIER_MISUSE (04 R111, 09 R221, R224, 11 R262). -/
def State.gangEnds (s : State) (g : Gang) : State :=
  let s1 := (s.setGang s.gang { g with chain := g.chain.map fun c => { c with ended := true } }).leaveConvoys s.gang g (!s.lineRaised g.ctx)
  match s1.crews.find g.crew with
  | none => s1
  | some crew =>
    crew.gangs.foldl (fun acc key =>
      match acc.gangs.find key with
      | none => acc
      | some h => if key != s.gang && acc.barredWith crew g.index h then acc.misuse key h (!s.lineRaised g.ctx) else acc) s1

/-- `exit`: the enabled lanes of each issuing slice end (07 R186, 11 R246); in refill mode MANIFEST_FAULT (12 R280). -/
def execExit (s : State) : Result :=
  gate s (fun _ => {}) fun g =>
    if g.refill.isSome then s.trap g .manifestFault
    else
      let s1 := s.proceed g 1 fun _ sl => sl.dropLanes sl.top .ended none
      match s1.gangs.find s.gang with
      | none => .next s1
      | some g1 =>
        if g1.hasEnded then .next (s1.gangEnds g1) else .next (s1.setGang s.gang (g1.releaseParked none))

/-! ### Barriers (11 R256-R263) -/

/-- Some gang of a list has ended. -/
def State.anyEnded (s : State) (keys : List Nat) : Bool :=
  keys.any fun key =>
    match s.gangs.find key with
    | none => true
    | some g => g.hasEnded

/-- The least multiple of `n` that is at least `total` (11 R257). -/
def barrierTarget (total n : Nat) : Nat := (total + n - 1) / n * n

/-- One arrival on a crew barrier counter (11 R257, R259). -/
def Crew.arrive (c : Crew) (i : Nat) : Crew := { c with barriers := c.barriers.set i (c.barriers.get i + 1) }

/-- One arrival on a convoy barrier count (11 R258). -/
def Crew.arriveConvoy (c : Crew) (d : Nat) : Crew :=
  { c with convoys := c.convoys.map fun e => if e.defn == d then { e with total := e.total + 1 } else e }

/-- A gang's arrival at a barrier is a release at crew scope, of accesses that include side-logged stores: while the gang has
such stores the instruction waits (11 R261, 03 R81; log 30). The arrival made, the gang goes on with the given wait. -/
def State.arriveAs (s : State) (g : Gang) (crew : Crew) (wait : Wait) : Result :=
  if s.hasLogged s.gang then s.waiting
  else
    let s1 := (s.release (coreOf s.gang)).setCrew g.crew crew
    let g1 := g.released s1 (coreOf s.gang)
    let ended := s1.waitOver { g1 with wait := wait }
    let g2 : Gang := if ended && wait != .none then g1.merge (s1.applied (dieOf (coreOf s.gang))) else g1
    .next (s1.proceed { g2 with wait := if ended then .none else wait } 1 (Slice.next 1))

/-- `bar` (11 R256, R257). -/
def execBar (a : BitVec 4) (s : State) : Result :=
  gate s (fun _ => {}) fun g =>
    match s.crews.find g.crew with
    | none => .fault .noIssuer
    | some crew =>
      if g.parted || g.refill.isSome || s.anyEnded crew.gangs then s.trap g .barrierMisuse
      else
        let crew' := crew.arrive a.toNat
        s.arriveAs g crew' (.bar a.toNat (barrierTarget (crew'.barriers.get a.toNat).toNat crew.record.gangCount))

/-- `barc` (11 R256, R258). -/
def execBarc (a : BitVec 3) (s : State) : Result :=
  gate s (fun _ => {}) fun g =>
    match s.crews.find g.crew with
    | none => .fault .noIssuer
    | some crew =>
      match crew.convoys.find? fun e => e.defn == a.toNat with
      | none => s.trap g .barrierMisuse
      | some e =>
        if g.parted || g.refill.isSome || !e.gangs.contains g.index ||
            s.anyEnded (e.gangs.map fun i => crew.gangs.getD i 0) then s.trap g .barrierMisuse
        else
          s.arriveAs g (crew.arriveConvoy a.toNat) (.barc a.toNat (barrierTarget (e.total + 1) e.gangs.length))

/-- `arrive` (11 R259). -/
def execArrive (a : BitVec 4) (s : State) : Result :=
  gate s (fun _ => {}) fun g =>
    match s.crews.find g.crew with
    | none => .fault .noIssuer
    | some crew =>
      if g.parted || g.refill.isSome then s.trap g .barrierMisuse
      else s.arriveAs g (crew.arrive a.toNat) .none

/-- `await` (11 R260): it waits at issue until the count reaches its target, and its waiting is timed (R263); when it ends it is an acquire. -/
def execAwait (a : BitVec 4) (b : BitVec 7) (s : State) : Result :=
  gate s (fun _ => { s := [b.toNat] }) fun g =>
    match s.crews.find g.crew with
    | none => .fault .noIssuer
    | some crew =>
      if g.parted || g.refill.isSome then s.trap g .barrierMisuse
      else if countReached (lowWord (crew.barriers.get a.toNat)) (g.sreg b.toNat) then
        s.finish (g.merge (s.applied (dieOf (coreOf s.gang))))
      else .next { s.setGang s.gang { g with wait := .await a.toNat (g.sreg b.toNat), waited := 0 } with idle := true }

/-- A gang has waited at `bar`, `barc` or `await` for 2³² counted clocks: it stops at the barrier instruction and its wait
goes on after a resume, timed afresh (11 R263). Subject: `who` is the gang. -/
def execBarrierTimeout (s : State) : Result :=
  let key := s.subject.who
  match s.gangs.find key with
  | none => .next s
  | some g =>
    if s.waitOver g || g.waited < 2 ^ 32 || g.stop.isSome then .next s
    else
      let group := match g.slices.find? fun sl => sl.status == .running with
        | none => 0
        | some sl => sl.group
      let pc := g.pc group
      let (at_, wait) : DWord × Wait :=
        match g.wait with
        | .await _ _ => (pc, .none)
        | w => (pc - 4, w)
      .next (s.stopGang key { g with waited := 0, wait := wait }
        { cause := .barrierTimeout, lanes := g.enabled group, address := 0, code := 0, origin := !s.lineRaised g.ctx,
          precise := true, pc := pc, trapPc := at_ })

/-! ### Special registers (01 R16-R22, 07 R187, R188) -/

/-- The trim value holds no reserved value (01 R17). -/
def trimValid (x : Word) : Bool :=
  decide ((x.extractLsb 31 20).toNat = 0) && decide ((x.extractLsb 19 17).toNat ≤ 3) &&
  decide ((x.extractLsb 10 8).toNat ≤ 5)

/-- The `clock` register: clocks since the context was created, or in a reproducible launch the instruction words that the gang
has issued, rounded down to the quantisation period (01 R20). -/
def State.clockRegister (s : State) (g : Gang) : Nat :=
  match s.crews.find g.crew, s.context g.ctx with
  | some crew, some c =>
    if crew.record.reproducible then
      let q := 2 ^ (crew.record.control.extractLsb 19 15).toNat
      g.words / q * q
    else s.clock - c.createdAt
  | _, _ => 0

/-- The value of a special register held per gang or crew (01 R19). -/
def State.special (s : State) (g : Gang) (n : Nat) : DWord :=
  let crew := s.crews.find g.crew
  let record := crew.map fun c => c.record
  let ctx := s.context g.ctx
  match n with
  | 0 => g.trim.setWidth 64
  | 2 => BitVec.ofNat 64 g.index
  | 3 => BitVec.ofNat 32 ((crew.map fun c => c.index).getD 0) |>.setWidth 64
  | 4 => (BitVec.ofNat 64 ((crew.map fun c => c.index).getD 0)) >>> 32
  | 5 => BitVec.ofNat 64 (min ((record.map fun r => r.crewCount.toNat).getD 0) 0xFFFFFFFF)
  | 6 => ((record.map fun r => r.roles).getD 0 >>> (4 * g.index)) &&& 15
  | 7 => ((crew.map fun c => c.convoys).getD []).foldl
      (fun m e => if e.gangs.contains g.index then m ||| BitVec.twoPow 64 e.defn else m) 0
  | 9 => BitVec.ofNat 64 (((crew.bind fun c => c.manifest).map fun m => m.tidemark).getD 0)
  | 11 => g.fpflags.setWidth 64
  | 12 => BitVec.ofNat 64 (s.clockRegister g)
  | 13 => BitVec.ofNat 64 ((ctx.map fun c => c.logicalCore (coreOf s.gang)).getD 0)
  | 14 => BitVec.ofNat 64 ((ctx.map fun c => c.dies.idxOf (dieOf (coreOf s.gang))).getD 0)
  | 15 => BitVec.ofNat 64 g.ctx
  | 16 => ((crew.map fun c : Crew => c.launch).getD 0).setWidth 64
  | 17 => (record.map fun r => r.params).getD 0
  | 18 => BitVec.ofNat 64 g.ldcount
  | 19 => BitVec.ofNat 64 g.width
  | 28 => BitVec.ofNat 64 (s.classCounter s.gang g 0)
  | 29 => BitVec.ofNat 64 (s.classCounter s.gang g 1)
  | 30 => BitVec.ofNat 64 (s.classCounter s.gang g 2)
  | 31 => BitVec.ofNat 64 (s.classCounter s.gang g 3)
  | 32 => BitVec.ofNat 64 (s.classCounter s.gang g 4)
  | _ => BitVec.ofNat 64 (g.rangeCount (n - 20))

/-- The value of a special register held per lane (01 R19). -/
def Gang.laneSpecial (g : Gang) (n l : Nat) : Word :=
  match n with
  | 1 => BitVec.ofNat 32 l
  | 8 => g.ages.getD l 0xFFFFFFFF
  | _ => g.srkey.get l

/-- A gantry instruction of the gang has yet to write its `fpflags` (07 R169; 09 R229, R235, R237). -/
def State.flagsPending (s : State) (key : Nat) : Bool :=
  s.commands.any fun c => !c.done && c.gangs.contains key &&
    match c.work with
    | .joint .. => true
    | .adrain .. => true
    | .peerRecv .. => true
    | _ => false

/-- `rsr` (07 R187). A read of `fpflags` waits for the gantry instructions that will write it (R169). -/
def execRsr (sc : Bool) (d : BitVec 7) (i : BitVec 10) (s : State) : Result :=
  if !sc then
    gate s (fun _ => { v := [d.toNat] }) fun g =>
      s.finish (g.setV d.toNat (g.active s.group) fun l => g.laneSpecial i.toNat l)
  else if i.toNat = 12 ∨ i.toNat = 17 then
    gate s (fun _ => { s := [d.toNat, d.toNat + 1], even := [d.toNat] }) fun g =>
      s.finish (g.setSpair d.toNat (s.special g i.toNat))
  else
    gate s (fun _ => { s := [d.toNat] }) fun g =>
      if i.toNat = 11 ∧ s.flagsPending s.gang then s.waiting
      else s.finish (g.setS d.toNat (lowWord (s.special g i.toNat)))

/-- A write of trim, checked by 01 R17: shared by `wsr` and `trim`. -/
def writeTrim (s : State) (r : Nat) : Result :=
  gate s (fun _ => { s := [r] }) fun g =>
    if trimValid (g.sreg r) then s.finish { g with trim := g.sreg r } else s.trap g .illegalInstruction

/-- `wsr trim` (07 R188, 01 R17). -/
def execWsrTrim (d : BitVec 7) (s : State) : Result := writeTrim s d.toNat

/-- `wsr srkey` (01 R22). -/
def execWsrSrkey (d : BitVec 7) (s : State) : Result :=
  gate s (fun _ => { v := [d.toNat] }) fun g =>
    s.finish { g with srkey := g.srkey.setAll (g.active s.group) id fun l => g.vreg d.toNat l }

/-- `wsr fpflags` (01 R21). -/
def execWsrFpflags (d : BitVec 7) (s : State) : Result :=
  gate s (fun _ => { s := [d.toNat] }) fun g =>
    if (g.sreg d.toNat).toNat < 32 then s.finish { g with fpflags := g.sreg d.toNat } else s.trap g .illegalInstruction

/-! ### Software traps (07 R189) -/

/-- A software trap: the gang goes on to the next word and stops before it, reporting the trap's code, lanes and address. -/
def softwareTrap (s : State) (g : Gang) (cause : Trap) (code : Nat) (lanes : List Nat) : Result :=
  let a := g.pc s.group
  let s1 := s.advance g 1
  match s1.gangs.find s.gang with
  | none => .next s1
  | some g1 =>
    .next (s1.stopGang s.gang g1
      { cause := cause, lanes := lanes, address := 0, code := code, origin := !s.lineRaised g.ctx, precise := true, pc := a + 4,
        trapPc := a })

/-- `trap` (07 R189). -/
def execTrap (c : BitVec 8) (s : State) : Result :=
  gate s (fun _ => {}) fun g => softwareTrap s g .userTrap c.toNat (g.enabled s.group)

/-- `trapif` (07 R189). -/
def execTrapif (p : BitVec 4) (c : BitVec 8) (s : State) : Result :=
  gate s (fun _ => {}) fun g =>
    let lanes := (g.active s.group).filter fun l => g.preg p.toNat l
    if lanes.isEmpty then s.finish g else softwareTrap s g .userTrap c.toNat lanes

/-- `brk` (07 R189). -/
def execBrk (c : BitVec 8) (s : State) : Result :=
  gate s (fun _ => {}) fun g => softwareTrap s g .breakpoint c.toNat (g.enabled s.group)

/-! ### Words that do not issue -/

/-- A word that stands for no instruction: ILLEGAL_INSTRUCTION, precise, changing nothing (02 R53). -/
def execIllegalInstruction (s : State) : Result := gate s (fun _ => {}) fun g => s.trap g .illegalInstruction

/-- The gang stops before a word that it could not fetch, and its program counter stays: it holds, with a record that gives the
address of that word; a word in a sector that cannot be corrected stops the context (02 R36, R49; 19 R396). -/
def fetchStop (s : State) (g : Gang) (fault : Trap × DWord × Nat × Nat) : Result :=
  if fault.1 = .memoryUncorrectable then .next (s.trapAt g fault.1 (g.enabled s.group) fault.2.1)
  else .next (s.holdGang g ⟨fault.1, fault.2.1, fault.2.2.1, fault.2.2.2⟩ 6 (g.enabled s.group))

/-- The fetch of the gang's next word faulted (02 R36). -/
def execInstructionFetchFault (s : State) : Result :=
  gate s (fun _ => {}) fun g =>
    match s.fetchFault with
    | none => .next s
    | some fault => fetchStop s g fault

end Sys2Proof.Machine
end

