-- ==== Sys2Proof/Machine/Engines.lean ====
section
/-!
DEFINITION. Engine commands: their issue, the accesses of engines, the crane, the lighter and the pilot (04 R98-R111), and how
an engine's access faults (04 R103).
-/
namespace Sys2Proof.Machine

/-! ### Issue (04 R98, R99) -/

/-- The registers of a command block of `n` registers from s(a). -/
def blockNeeds (a n : Nat) (even : Bool) : Needs where
  s := (List.range n).map fun i => a + i
  even := if even then [a] else []

/-- A check of a command's block that failed: its trap, and the address or offset it concerns (04 R99). -/
abbrev BlockFault := Trap × Nat

/-- PROTECTION of a global start address. -/
def startCheck (pad : Bool) (a : Nat) : List BlockFault := if !pad && decide (2 ^ 48 ≤ a) then [(.protection, a)] else []

/-- MISALIGNED of an address or offset. -/
def alignCheck (n a : Nat) : List BlockFault := if a % n ≠ 0 then [(.misaligned, a)] else []

/-- SCRATCHPAD_RANGE of `n` bytes at an offset under an allocation of `size` bytes. -/
def rangeCheck (size off n : Nat) : List BlockFault := if n ≠ 0 ∧ size < off + n then [(.scratchpadRange, off)] else []

/-- The arrival a command carries (04 R102). -/
def arrivalOf (e : Bool) (n : BitVec 4) : Option Nat := if e then some n.toNat else none

/-- Sends a command whose block passed: it waits while 64 of its class are outstanding or a counter is full (04 R98, R112), and
is then outstanding on its class counter and on the range counters that cover its bytes. -/
def State.send (s : State) (g : Gang) (cls : EngineClass) (work : Work) (arrival : Option Nat) (bytes : List Extent) :
    Result :=
  let mask := s.countersFor g { bytes := bytes }
  if 64 ≤ s.classCount s.gang cls || g.countersFull mask then s.waiting
  else
    let cmd : Command :=
      { id := s.serial, cls := cls, work := work, gangs := [s.gang], ctx := g.ctx, crew := g.crew,
        launch := ((s.crews.find g.crew).map fun c => c.launch).getD 0, arrival := arrival, progress := 0, held := none,
        counted := [mask], stamp := g.stamp, seen := noEpochs, pc := g.pc s.group, stopped := false, offered := false, done := false }
    let s1 : State := { s with serial := s.serial + 1, commands := s.commands ++ [cmd] }
    s1.finish (g.count mask)

/-- Issues a command: the first failing check of its block traps, changing nothing (04 R99). -/
def State.sendChecked (s : State) (g : Gang) (checks : List BlockFault) (cls : EngineClass) (work : Work)
    (arrival : Option Nat) (bytes : List Extent) : Result :=
  match checks with
  | (cause, a) :: _ => .next (s.trapAt g cause (g.enabled s.group) (BitVec.ofNat 64 a))
  | [] => s.send g cls work arrival bytes

/-! ### Accesses of engines -/

/-- Why an engine's access did not go on: a fault that holds it, one that stops its context (04 R103), with the source of the record where
that is not the engine itself (19 R396), or a home die that does not yet serve the stamp it carries (05 R137). -/
inductive EngineFault where
  | hold (f : AccessFault)
  | stop (cause : Trap) (addr : DWord) (source : Option Nat := none)
  | wait
  deriving DecidableEq, Repr

/-- The state as an engine or a chart access works: the stamp its accesses carry, what served its reads, and of those the reads of
links (05 R136, R137; 17 R360). -/
structure Run where
  st : State
  stamp : List DWord
  seen : List DWord
  links : List DWord
  /-- A swap has linked new blocks of a chart, and begun an epoch (17 R355). -/
  linked : Bool
  /-- The lighter: only its die's last-level buffer serves it (16 R325). -/
  lighter : Bool
  deriving DecidableEq, Repr

/-- Nothing done yet. -/
def Run.start (s : State) (stamp : List DWord) (lighter : Bool := false) : Run :=
  { st := s, stamp := stamp, seen := noEpochs, links := noEpochs, linked := false, lighter := lighter }

/-- An engine's work: a value or a fault, and the state it leaves. -/
abbrev Work.Answer (α : Type) := Except EngineFault α × Run

/-- The memory controllers of the home die of a machine address, the source of the record of a partial write that meets a sector they
cannot correct (19 R373, R396). -/
def memorySource (a : Nat) : Nat := (homeDie a).getD 0 * 4096 + 0xF01

/-- Resolves `n` bytes of one 32-byte sector. -/
def Run.reach (r : Run) (core ctx va n : Nat) (k : Want) : Work.Answer Place :=
  if 2 ^ 48 ≤ va then (.error (.stop .protection (BitVec.ofNat 64 va)), r)
  else
    let (p, s1) := if r.lighter then r.st.translateDie (dieOf core) ctx va k else r.st.translate core ctx va k
    let r1 : Run := { r with st := s1 }
    match p with
    | .error f => (.error (.hold f), r1)
    | .ok (.mem a) =>
      if !s1.serves r.stamp a then (.error .wait, r)
      else if (s1.badSector a n).isSome && !(k.write && n == 32 && a % 32 == 0) then
        (.error (.stop .memoryUncorrectable (BitVec.ofNat 64 (va - va % 32))
          (if k.write then some (memorySource a) else none)), r1)
      else (.ok (.mem a), r1)
    | .ok p => (.ok p, r1)

/-- Bytes of a place. -/
def State.placeBytes (s : State) (p : Place) (n : Nat) : List Byte :=
  match p with
  | .mem a => (List.range n).map fun i => s.byte (a + i)
  | .device _ _ => List.replicate n 0

/-- Writes bytes at a place; sectors written whole are whole again (19 R396). -/
def State.putPlace (s : State) (p : Place) (bytes : List Byte) : State :=
  match p with
  | .mem a =>
    { s with
      mem := writeBytes s.mem a bytes
      badSectors := s.badSectors.filter fun b => !(decide (a ≤ b) && decide (b + 32 ≤ a + bytes.length)) }
  | .device ctx off => s.deviceWrite ctx off bytes.length (readLE (fun i => bytes.getD i 0) 0 bytes.length)

/-- Reads `n` bytes of global space, sector by sector. -/
def Run.readGlobal (core ctx : Nat) : Nat → Run → Nat → Nat → Work.Answer (List Byte)
  | 0, r, _, _ => (.ok [], r)
  | fuel + 1, r, va, n =>
    if n = 0 then (.ok [], r)
    else
      let m := min n (32 - va % 32)
      match r.reach core ctx va m .load with
      | (.error f, r1) => (.error f, r1)
      | (.ok p, r1) =>
        let r2 : Run := match p with
          | .mem a => { r1 with seen := maxEpochs r1.seen (r1.st.appliedOf [a]) }
          | _ => r1
        match Run.readGlobal core ctx fuel r2 (va + m) (n - m) with
        | (.error f, r3) => (.error f, r3)
        | (.ok rest, r3) => (.ok (r1.st.placeBytes p m ++ rest), r3)

/-- Resolves a run of global space to be written, sector by sector: places with their bytes. -/
def Run.resolve (core ctx : Nat) (k : Want) : Nat → Run → Nat → List Byte → Work.Answer (List (Place × List Byte))
  | 0, r, _, _ => (.ok [], r)
  | fuel + 1, r, va, bytes =>
    if bytes.isEmpty then (.ok [], r)
    else
      let m := min bytes.length (32 - va % 32)
      match r.reach core ctx va m k with
      | (.error f, r1) => (.error f, r1)
      | (.ok p, r1) =>
        match Run.resolve core ctx k fuel r1 (va + m) (bytes.drop m) with
        | (.error f, r2) => (.error f, r2)
        | (.ok rest, r2) => (.ok ((p, bytes.take m) :: rest), r2)

/-- The physical core of a command. -/
def Command.core (c : Command) : Nat := c.crew / 8

/-- Bytes of a crew's scratchpad. -/
def State.padBytes (s : State) (crew : Nat) (off n : Nat) : List Byte :=
  match s.crews.find crew with
  | none => List.replicate n 0
  | some c => (List.range n).map fun i => (s.core (crew / 8)).scratch.get (c.padByte (off + i))

/-- Writes bytes of a crew's scratchpad. -/
def State.padPut (s : State) (crew : Nat) (off : Nat) (bytes : List Byte) : State :=
  match s.crews.find crew with
  | none => s
  | some c =>
    let core := s.core (crew / 8)
    s.setCore (crew / 8) { core with scratch :=
      (List.range bytes.length).foldl (fun m i => m.set (c.padByte (off + i)) (bytes.getD i 0)) core.scratch }

/-- Reads `n` bytes of a command's global or scratchpad space. -/
def Run.read (r : Run) (c : Command) (pad : Bool) (a n : Nat) : Work.Answer (List Byte) :=
  if pad then (.ok (r.st.padBytes c.crew a n), r) else r.readGlobal c.core c.ctx (n + 1) a n

/-- Writes bytes of a command's global or scratchpad space: all of them, or none where one faults. -/
def Run.write (r : Run) (c : Command) (pad : Bool) (a : Nat) (bytes : List Byte) : Work.Answer Unit :=
  if pad then (.ok (), { r with st := r.st.padPut c.crew a bytes })
  else
    match r.resolve c.core c.ctx .store (bytes.length + 1) a bytes with
    | (.error f, r1) => (.error f, r1)
    | (.ok places, r1) => (.ok (), { r1 with st := places.foldl (fun s p => s.putPlace p.1 p.2) r1.st })

/-- The number a list of bytes stands for, lowest byte first. -/
def numberOf (bytes : List Byte) : Nat := bytes.foldr (fun b acc => b.toNat + 256 * acc) 0

/-- The `n` bytes of a number, lowest first. -/
def bytesOf (n v : Nat) : List Byte := (List.range n).map fun i => BitVec.ofNat 8 (v / 256 ^ i)

/-- Where a turn that performs about `limit` further elements from `i` stops, 0 for all `n`: at the first element after them that lies in
another sector than the one before it, as `sector` gives it (19 R370). -/
def sectorStop (sector : Nat → Bool × Nat) (n i limit : Nat) : Nat :=
  if limit = 0 then n
  else ((List.range n).find? fun k => decide (i + limit ≤ k) && sector k != sector (k - 1)).getD n

/-- Performs elements `i`, `i + 1`, … while `count` of them are left and none faults: how many were performed, and the
fault. -/
def Run.elements (f : Run → Nat → Work.Answer Unit) : Nat → Run → Nat → Nat × Option EngineFault × Run
  | 0, r, i => (i, none, r)
  | count + 1, r, i =>
    match f r i with
    | (.error e, r1) => (i, some e, r1)
    | (.ok _, r1) => Run.elements f count r1 (i + 1)

/-! ### Crane: copies (04 R104) -/

/-- `crc`. The block's high registers are not read where the space is scratchpad. -/
def execCrc (a : BitVec 7) (e : Bool) (n : BitVec 4) (y : Bool) (x : Bool) (s : State) : Result :=
  gate s (fun _ => blockNeeds a.toNat 5 true) fun g =>
    match s.crews.find g.crew with
    | none => .fault .noIssuer
    | some crew =>
      let src := if x then (g.sreg a.toNat).setWidth 64 else g.spair a.toNat
      let dst := if y then (g.sreg (a.toNat + 2)).setWidth 64 else g.spair (a.toNat + 2)
      let count := (g.sreg (a.toNat + 4)).toNat
      let checks := startCheck x src.toNat ++ startCheck y dst.toNat ++
        (if x then rangeCheck crew.padSize src.toNat count else []) ++
        (if y then rangeCheck crew.padSize dst.toNat count else [])
      s.sendChecked g checks .crane (.copy x y src dst count) (arrivalOf e n)
        (extent x src.toNat count ++ extent y dst.toNat count)

/-- The copy of `n` bytes from element `i`, in pieces that keep to one sector of the destination. -/
def copyPieces (c : Command) (srcPad dstPad : Bool) (src dst n stop : Nat) : Nat → Run → Nat → Nat × Option EngineFault × Run
  | 0, r, i => (i, none, r)
  | fuel + 1, r, i =>
    if stop ≤ i then (i, none, r)
    else
      let m := min (n - i) (32 - (dst + i) % 32)
      match r.read c srcPad (src + i) m with
      | (.error e, r1) => (i, some e, r1)
      | (.ok bytes, r1) =>
        match r1.write c dstPad (dst + i) bytes with
        | (.error e, r2) => (i, some e, r2)
        | (.ok _, r2) => copyPieces c srcPad dstPad src dst n stop fuel r2 (i + m)

/-- The frame of machine memory to which a page of 4 KiB of a context's global space goes now. -/
def State.frameOf (s : State) (ctx page : Nat) : Option Nat :=
  let through (k : Want) : Option Nat :=
    if 2 ^ 48 ≤ page * 4096 then none
    else
      match s.translateFresh ctx (page * 4096) k with
      | .ok (.mem a, _) => some (a / 4096)
      | _ => none
  (through .load).or (through .store)

/-- The pages of a run of bytes, each with the offsets in it of the first and the last of them. -/
def Extent.pages (e : Extent) : List (Nat × Nat × Nat) :=
  (List.range (e.hi / 4096 + 1 - e.lo / 4096)).map fun i =>
    let p := e.lo / 4096 + i
    (p, max e.lo (4096 * p) - 4096 * p, min e.hi (4096 * p + 4095) - 4096 * p)

/-- Two runs of global space reach one byte of memory at different addresses, as the context's translation now stands. -/
def State.aliased (s : State) (ctx : Nat) (a b : Extent) : Bool :=
  !a.pad && !b.pad && a.pages.any fun x =>
    match s.frameOf ctx x.1 with
    | none => false
    | some f => b.pages.any fun y =>
      x.1 != y.1 && decide (x.2.1 ≤ y.2.2) && decide (y.2.1 ≤ x.2.2) && s.frameOf ctx y.1 == some f

/-- Two runs of bytes of a gang share a byte, at one address or at two that reach the same memory (04 R100). -/
def State.shares (s : State) (ctx : Nat) (a b : Extent) : Bool := a.meets b || s.aliased ctx a b

/-- Some run of a list shares a byte with some run of another. -/
def State.anyShared (s : State) (ctx : Nat) (l m : List Extent) : Bool := l.any fun a => m.any fun b => s.shares ctx a b

/-- A plain side-log entry of a gang, of an instruction before serial number `id`, shares a byte with some of the runs. -/
def State.entryMeets (s : State) (key ctx id : Nat) (l : List Extent) (e : SideEntry) : Bool :=
  match e.op with
  | .chart .. => false
  | _ => e.gang == key && decide (e.item < id) && s.anyShared ctx (extent false e.addr.toNat e.size) l

/-- The source and destination of a copy between global addresses share no byte, and all their pages translate. -/
def State.apart (s : State) (ctx src dst n : Nat) : Bool :=
  !s.anyShared ctx (extent false src n) (extent false dst n) &&
    (extent false src n ++ extent false dst n).all fun x => x.pages.all fun p => (s.frameOf ctx p.1).isSome

/-- `crc` from byte `i` up to byte `stop`, as if every source byte were read before any destination byte is written (04 R104). A copy whose
source and destination share no byte goes in pieces; another one goes whole, through a buffer. -/
def Run.copy (r : Run) (c : Command) (srcPad dstPad : Bool) (src dst n stop i : Nat) : Nat × Option EngineFault × Run :=
  let whole :=
    if srcPad && dstPad then decide (src < dst + n) && decide (dst < src + n)
    else !srcPad && !dstPad && i == 0 && !r.st.apart c.ctx src dst n
  if whole then
    match r.read c srcPad src n with
    | (.error e, r1) => (0, some e, r1)
    | (.ok bytes, r1) =>
      match r1.write c dstPad dst bytes with
      | (.error e, r2) => (0, some e, r2)
      | (.ok _, r2) => (n, none, r2)
  else copyPieces c srcPad dstPad src dst n stop (n + 1) r i

/-! ### Crane: tile moves (04 R105) -/

/-- Bytes that a tile of `outer` lines of `inner` bytes spans at a pitch. -/
def span (outer pitch inner : Nat) : Nat := if outer = 0 ∨ inner = 0 then 0 else (outer - 1) * pitch + inner

/-- `crt` in modes 0 to 2: the source handle as it stands, seven block registers from s(a). -/
def tileMove (s : State) (mode : Nat) (k : BitVec 4) (a : BitVec 7) (e : Bool) (n : BitVec 4) : Result :=
  gate s (fun g =>
      let h := g.kreg k.toNat
      { blockNeeds a.toNat 7 false with
        format := handleKind h == 2 && decide (8 ≤ formatWidth (handleFormat h)) }) fun g =>
    match s.crews.find g.crew with
    | none => .fault .noIssuer
    | some crew =>
      let h := g.kreg k.toNat
      let size := formatWidth (handleFormat h) / 8
      let dst := (g.sreg a.toNat).toNat
      let pitch := (g.sreg (a.toNat + 1)).toNat
      let rows := ((g.sreg (a.toNat + 4)).extractLsb 15 0).toNat
      let cols := ((g.sreg (a.toNat + 4)).extractLsb 31 16).toNat
      let index := (g.sreg (a.toNat + 6)).toNat
      let bytes := if mode = 1 then span cols pitch (rows * size) else span rows pitch (cols * size)
      let list := if mode = 2 then 4 * rows else 0
      let checks := alignCheck size dst ++ alignCheck size pitch ++ alignCheck size (handleBase h) ++
        alignCheck size (handlePitch h) ++ rangeCheck crew.padSize dst bytes ++ rangeCheck crew.padSize index list
      s.sendChecked g checks .crane
        (.tile mode h dst pitch (g.sreg (a.toNat + 2)).toNat (g.sreg (a.toNat + 3)).toNat rows cols (g.sreg (a.toNat + 5)) index)
        (arrivalOf e n) ((handleExtent h).toList ++ extent true dst bytes)

/-- `crt.tile` (04 R105). -/
def execCrtTile (k : BitVec 4) (a : BitVec 7) (e : Bool) (n : BitVec 4) (s : State) : Result := tileMove s 0 k a e n

/-- `crt.tr` (04 R105). -/
def execCrtTr (k : BitVec 4) (a : BitVec 7) (e : Bool) (n : BitVec 4) (s : State) : Result := tileMove s 1 k a e n

/-- `crt.gather` (04 R105). -/
def execCrtGather (k : BitVec 4) (a : BitVec 7) (e : Bool) (n : BitVec 4) (s : State) : Result := tileMove s 2 k a e n

/-- Where element `t` of a tile move comes from, its handle's row by number, none where it is a pad element; and where it goes (04 R105). -/
def State.tilePlaces (s : State) (c : Command) (mode : Nat) (h : BitVec 128) (dst pitch r0 c0 n index t : Nat) : Option Nat × Nat :=
  let size := formatWidth (handleFormat h) / 8
  let i := t / n
  let j := t % n
  let row := if mode = 2 then numberOf (s.padBytes c.crew (index + 4 * i) 4) else r0 + i
  (if handleRows h ≤ row ∨ handleColumns h ≤ c0 + j then none else some (handleBase h + row * handlePitch h + (c0 + j) * size),
    if mode = 1 then dst + j * pitch + i * size else dst + i * pitch + j * size)

/-- The sector of an element that is copied: that of its source where this is in global space, else that of its destination. -/
def sectorOf (pad : Bool) (x : Option Nat × Nat) : Bool × Nat :=
  match x.1 with
  | some a => if pad then (true, x.2 / 32) else (false, a / 32)
  | none => (true, x.2 / 32)

/-- Element `t` of a tile move, row by row (04 R105). A pad element of a 64-bit format is the 32-bit pad register zero-extended (DESIGN
CHOICE, log 43: R105 takes the pad from the low w bits of a 32-bit register). -/
def Run.tileElement (c : Command) (mode : Nat) (h : BitVec 128) (dst pitch r0 c0 n : Nat) (pad : Word) (index : Nat)
    (r : Run) (t : Nat) : Work.Answer Unit :=
  let size := formatWidth (handleFormat h) / 8
  match r.st.tilePlaces c mode h dst pitch r0 c0 n index t with
  | (none, at_) => r.write c true at_ (bytesOf size pad.toNat)
  | (some a, at_) =>
    match r.read c (handlePad h) a size with
    | (.error e, r1) => (.error e, r1)
    | (.ok bytes, r1) => r1.write c true at_ bytes

/-! ### Crane: dequantisation (04 R106) -/

/-- Offset D of the values of a page with `channels` channels. -/
def pageValues (channels : Nat) : Nat := (16 + 2 * channels + 127) / 128 * 128

/-- Offset of the outlier lists of a page of `tokens` tokens. -/
def pageLists (tokens channels : Nat) : Nat := pageValues channels + tokens * channels / 2

/-- Bytes of a page. -/
def pageBytes (tokens channels : Nat) : Nat := pageLists tokens channels + 22 * tokens * (channels / 128)

/-- The source handle of a dequantisation is of the form 04 R106 asks for. -/
def pageHandle (h : BitVec 128) : Bool :=
  handleKind h == 2 && handleFormat h == 7 && handleColumns h % 128 == 0 && handleBase h == 0

/-- `crt.deq` (04 R106). As its source extent the range counters take the whole page at the page address, outlier lists included
(DESIGN CHOICE, log 43: R112 says "source and destination extents", and the handle's base is zero). -/
def execCrtDeq (t : Bool) (f : BitVec 4) (k : BitVec 4) (a : BitVec 7) (e : Bool) (n : BitVec 4) (s : State) : Result :=
  gate s (fun g => { blockNeeds a.toNat 7 false with format := pageHandle (g.kreg k.toNat) && decide (f.toNat ≤ 4) })
    fun g =>
    match s.crews.find g.crew with
    | none => .fault .noIssuer
    | some crew =>
      let h := g.kreg k.toNat
      let size := formatWidth f.toNat / 8
      let dst := (g.sreg a.toNat).toNat
      let pitch := (g.sreg (a.toNat + 1)).toNat
      let page := pairOf (g.sreg (a.toNat + 2)) (g.sreg (a.toNat + 3))
      let j0 := ((g.sreg (a.toNat + 4)).extractLsb 15 0).toNat
      let count := ((g.sreg (a.toNat + 4)).extractLsb 31 16).toNat
      let bytes := if count = 0 then 0
        else if t then span (handleColumns h) pitch (count * size) else span count pitch (handleColumns h * size)
      let checks := startCheck false page.toNat ++ alignCheck 128 page.toNat ++ rangeCheck crew.padSize dst bytes
      s.sendChecked g checks .crane (.dequant f.toNat t h dst pitch page j0 count (g.sreg (a.toNat + 5))) (arrivalOf e n)
        (extent false page.toNat (pageBytes (handleRows h) (handleColumns h)) ++ extent true dst bytes)

/-- The value of an escaped element in an outlier list of 22 bytes: that of the lowest valid entry with its index; none where
the list is malformed (06 R151). -/
def outlierOf (list : List Byte) (index : Nat) : Option Nat :=
  let count := (list.getD 0 0).toNat
  if 7 < count then none
  else
    ((List.range count).find? fun i => (list.getD (1 + 3 * i) 0).toNat == index).map fun i =>
      numberOf ((list.drop (2 + 3 * i)).take 2)

/-- q × scale in a destination format: one rounding to nearest even; a finite product stays finite (04 R106). -/
def dequantised (code : Nat) (q scale : Num) : Nat :=
  let x := (mulNum q scale).1
  let y := (roundNum code 0 0 x).1
  let y' := match x, y with
    | .num _ _ _ _, .inf neg => Num.num neg (maxSignificand code) (maxExp code) false
    | _, _ => y
  (deliver code false y' 0).1

/-- The sector of element `t` of a dequantisation: that of its code in the page (19 R370). -/
def codeSector (h : BitVec 128) (page j0 t : Nat) : Bool × Nat :=
  (false, (page + pageValues (handleColumns h) + (j0 * handleColumns h + t) / 2) / 32)

/-- Element `t` of a dequantisation, token by token, each channel in turn; `filled` is the page's token count. -/
def Run.dequantElement (c : Command) (code : Nat) (transpose : Bool) (h : BitVec 128) (dst pitch page j0 : Nat) (pad : Word)
    (filled : Nat) (r : Run) (t : Nat) : Work.Answer Unit :=
  let channels := handleColumns h
  let size := formatWidth code / 8
  let i := t / channels
  let ch := t % channels
  let j := j0 + i
  let at_ := if transpose then dst + ch * pitch + i * size else dst + i * pitch + ch * size
  if filled ≤ j then r.write c true at_ (bytesOf size pad.toNat)
  else
    match r.read c false (page + 16 + 2 * ch) 2 with
    | (.error e, r1) => (.error e, r1)
    | (.ok sc, r1) =>
      match r1.read c false (page + pageValues channels + (j * channels + ch) / 2) 1 with
      | (.error e, r2) => (.error e, r2)
      | (.ok b, r2) =>
        let q := numberOf b / 16 ^ (ch % 2) % 16
        let scale := decodeNum 1 (numberOf sc)
        if q ≠ 8 then r2.write c true at_ (bytesOf size (dequantised code (decodeNum 7 q) scale))
        else
          let list := page + pageLists (handleRows h) channels + 22 * (j * (channels / 128) + ch / 128)
          match r2.read c false list 22 with
          | (.error e, r3) => (.error e, r3)
          | (.ok entries, r3) =>
            match outlierOf entries (ch % 128) with
            | none => (.error (.stop .engineFault (BitVec.ofNat 64 list)), r3)
            | some v => r3.write c true at_ (bytesOf size (dequantised code (decodeNum 1 v) scale))

/-- `crt.deq` from element `i`, `count` elements: the page's header first, whose token count must not pass its capacity. A command of
zero tokens reads the header too (DESIGN CHOICE, log 43: 04 R106 does not say). -/
def Run.dequant (r : Run) (c : Command) (code : Nat) (transpose : Bool) (h : BitVec 128) (dst pitch : Nat) (page : DWord)
    (j0 : Nat) (pad : Word) (count i : Nat) : Nat × Option EngineFault × Run :=
  match r.read c false page.toNat 16 with
  | (.error e, r1) => (i, some e, r1)
  | (.ok header, r1) =>
    let filled := numberOf ((header.drop 8).take 4)
    if handleRows h < filled then (i, some (.stop .engineFault page), r1)
    else r1.elements (Run.dequantElement c code transpose h dst pitch page.toNat j0 pad filled) count i

/-! ### Lighter (04 R107, R108) -/

/-- `lgt` and `lsc`: the block, checked. -/
def lighter (s : State) (scatter : Bool) (a : BitVec 7) (e : Bool) (n : BitVec 4) (z : BitVec 2) : Result :=
  gate s (fun _ => blockNeeds a.toNat 5 true) fun g =>
    match s.crews.find g.crew with
    | none => .fault .noIssuer
    | some crew =>
      let size := 4 * 2 ^ z.toNat
      let index := (g.sreg a.toNat).toNat
      let count := (g.sreg (a.toNat + 1)).toNat
      let base := g.spair (a.toNat + 2)
      let data := (g.sreg (a.toNat + 4)).toNat
      let checks := startCheck false base.toNat ++ alignCheck 4 index ++ alignCheck size base.toNat ++
        alignCheck size data ++ rangeCheck crew.padSize index (4 * count) ++ rangeCheck crew.padSize data (size * count)
      s.sendChecked g checks .lighter
        (if scatter then .scatter size index count base data else .gather size index count base data) (arrivalOf e n)
        (extent true index (4 * count) ++ extent true data (size * count) ++ extent false base.toNat (2 ^ 32 * size))

/-- `lgt` (04 R107). -/
def execLgt (a : BitVec 7) (e : Bool) (n : BitVec 4) (z : BitVec 2) (s : State) : Result := lighter s false a e n z

/-- `lsc` (04 R107). -/
def execLsc (a : BitVec 7) (e : Bool) (n : BitVec 4) (z : BitVec 2) (s : State) : Result := lighter s true a e n z

/-- The address of element `i` of a gather or scatter (04 R107). -/
def State.elementAddress (s : State) (c : Command) (size index : Nat) (base : DWord) (i : Nat) : Nat :=
  (base + BitVec.ofNat 64 (numberOf (s.padBytes c.crew (index + 4 * i) 4) * size)).toNat

/-- Element `i` of a gather. -/
def Run.gatherElement (c : Command) (size index : Nat) (base : DWord) (data : Nat) (r : Run) (i : Nat) : Work.Answer Unit :=
  match r.read c false (r.st.elementAddress c size index base i) size with
  | (.error e, r1) => (.error e, r1)
  | (.ok bytes, r1) => r1.write c true (data + i * size) bytes

/-- Where the elements `i`, `i + 1`, … of a scatter go, `count` of them. -/
def Run.scatterPlaces (c : Command) (size index : Nat) (base : DWord) : Nat → Run → Nat → Work.Answer (List (Nat × Place))
  | 0, r, _ => (.ok [], r)
  | count + 1, r, i =>
    match r.reach c.core c.ctx (r.st.elementAddress c size index base i) size .store with
    | (.error e, r1) => (.error e, r1)
    | (.ok p, r1) =>
      match Run.scatterPlaces c size index base count r1 (i + 1) with
      | (.error e, r2) => (.error e, r2)
      | (.ok rest, r2) => (.ok ((i, p) :: rest), r2)

/-- The elements that no later one of the list goes to the place of: those that win (04 R108). Elements of one scatter have one size and are
aligned, so those that share a byte have one place. -/
def placeWinners : List (Nat × Place) → List (Nat × Place)
  | [] => []
  | x :: rest => if rest.any fun y => y.2 == x.2 then placeWinners rest else x :: placeWinners rest

/-- No element of a list below number `k` has the place of one that is not below it. -/
def cleanCut (places : List (Nat × Place)) (k : Nat) : Bool :=
  (places.filter fun x => decide (x.1 < k)).all fun x => !(places.any fun y => decide (k ≤ y.1) && y.2 == x.2)

/-- A scatter of `n` elements from `i`, about `limit` of them, 0 for all. Every place is found first, so that an access that fails leaves
nothing written; then the elements up to a cut are written, but for those that lose to a later one of the list, whose writes never become
visible (04 R108; log 14). -/
def Run.scatter (r : Run) (c : Command) (size index n : Nat) (base : DWord) (data limit i : Nat) : Nat × Option EngineFault × Run :=
  match Run.scatterPlaces c size index base (n - i) r i with
  | (.error e, r1) => (i, some e, r1)
  | (.ok places, r1) =>
    let k := if limit = 0 then n else ((List.range n).find? fun k => decide (i + limit ≤ k) && cleanCut places k).getD n
    (k, none,
      { r1 with st := ((placeWinners places).filter fun x => decide (x.1 < k)).foldl (fun st x =>
          st.putPlace x.2 (st.padBytes c.crew (data + x.1 * size) size)) r1.st })

/-! ### How an engine's access ends (04 R103, 19 R372, R373) -/

/-- The unit number of a class in the source of a record: on its core, or the die's lighter (19 R373). -/
def engineSource (core : Nat) (cls : EngineClass) : Nat :=
  dieOf core * 4096 +
    match cls with
    | .lighter => 0xF00
    | .gantry => core % 48 * 16 + 1
    | .crane => core % 48 * 16 + 2
    | .pilot => core % 48 * 16 + 3

/-- The number of a class (04 R117). -/
def classCode (cls : EngineClass) : Nat :=
  match cls with
  | .crane => 0
  | .lighter => 1
  | .gantry => 2
  | .pilot => 3

/-- An engine stops its context: the halt line rises and the engine's stop record, naming the issuing gang, is kept with the
halt's (04 R103, 19 R367, R372). -/
def State.stopEngine (s : State) (core ctx gang : Nat) (cls : EngineClass) (cause : Trap) (addr pc : DWord)
    (launch : Word) (source : Option Nat := none) : State :=
  let from_ := source.getD (engineSource core cls)
  let r : StopRecord :=
    { timestamp := s.timestamp, source := from_, cause := cause, flags := 4 ||| s.originFlag ctx, ctx := ctx,
      core := if coreSource from_ then ((s.context ctx).map fun c => c.logicalCore core).getD 0xFFFF else 0xFFFF,
      laneMask := 0, age := 0xFFFFFFFF, gang := gangField gang, code := classCode cls, address := addr, pc := 0, trapPc := pc, launch := launch }
  (s.raiseLine ctx cause).modifyContext ctx fun c =>
    { c with halt := c.halt.map fun h => { h with records := h.records ++ [r] } }

/-- Applies a function to a command. -/
def State.modifyCommand (s : State) (id : Nat) (f : Command → Command) : State :=
  { s with commands := s.commands.map fun c => if c.id == id then f c else c }

/-- A record of an engine's faulting access: flag [3] (16 R333). -/
def State.engineRecord (s : State) (core ctx gang : Nat) (f : AccessFault) : FaultRecord where
  address := f.addr
  timestamp := s.timestamp
  ctx := ctx
  cause := f.cause
  flags := 8
  core := ((s.context ctx).map fun c => c.logicalCore core).getD 0xFFFF
  gang := gangField gang
  level := f.level
  age := 0xFFFFFFFF

/-- A hold met again with the same cause and address, which is not recorded again (16 R331). -/
def sameHold (old : Option Hold) (f : AccessFault) : Bool :=
  match old with
  | none => false
  | some h => h.cause == f.cause && h.addr == f.addr

/-- The hold of a fault. -/
def Hold.of (f : AccessFault) : Hold := { cause := f.cause, addr := f.addr, retry := false, group := 0 }

/-- ENGINE_ACCESS_FAULT, the effect: the command holds at its fault, recorded in a fault ring, or its context stops (04
R103). -/
def State.commandFault (s : State) (c : Command) (e : EngineFault) : State :=
  let key := c.gangs.headD 0
  match e with
  | .hold f =>
    let s1 := s.modifyCommand c.id fun x => { x with held := some (Hold.of f) }
    if sameHold c.held f then s1 else s1.postFault f (s.engineRecord c.core c.ctx key f) (.command c.id)
  | .stop cause addr source =>
    (s.modifyCommand c.id fun x => { x with held := none, stopped := true }).stopEngine c.core c.ctx key c.cls cause addr c.pc c.launch source
  | .wait => s

/-- A command whose access has not to wait: it is not held, or its retry is due, and no record of it waits for room (16 R331,
R334). -/
def State.mayRetry (s : State) (held : Option Hold) (id : Nat) : Bool :=
  (match held with
    | none => true
    | some h => h.retry) && !(s.pending.any fun p => p.blocks == .command id)

/-- The engines of a context work: it runs, or is in the soft step (19 R367, R379). -/
def State.enginesRun (s : State) (ctx : Nat) : Bool :=
  match s.context ctx with
  | none => false
  | some c => c.mayIssue

/-- Every die's applied vector has reached a stamp (05 R138). -/
def State.covered (s : State) (stamp : List DWord) : Bool :=
  s.dies.all fun d => (List.range 4).all fun i => decide ((stamp.getD i 0).toNat ≤ (d.applied.getD i 0).toNat)

/-- The arrival that a completed command or notice makes: a release of its writes at crew scope (04 R102, 05 R135). -/
def State.engineArrive (s : State) (crew key : Nat) (arrival : Option Nat) : State :=
  match arrival, s.crews.find crew with
  | some i, some c =>
    let s1 := (s.release (crew / 8)).setCrew crew (c.arrive i)
    match s1.gangs.find key with
    | none => s1
    | some g => s1.setGang key (g.released s1 (crew / 8))
  | _, _ => s

/-! ### Pilot (04 R109-R111) -/

/-- The entry of a notice ring that a notice writes (04 R110). -/
def ringEntry (ring number : Nat) : List Extent := extent true (ring + 16 * (number % 4)) 16

/-- The bytes that a notice has yet to read and to write: its page's header, and its ring entry (04 R110). -/
def Notice.extents (n : Notice) : List Extent :=
  ringEntry n.ring n.number ++ if n.terminal || n.header.isSome then [] else extent false n.page.toNat 16

/-- Two notices are one. -/
def Notice.is (a b : Notice) : Bool := a.chain == b.chain && a.number == b.number

/-- The notice of the next page of a chain, or its terminating one, committed to now (04 R110, R112). -/
def Chain.notice (c : Chain) (id : Nat) (page : DWord) (counted : BitVec 8) : Notice where
  id := id
  chain := c.id
  pc := c.pc
  pageSize := c.pageSize
  ring := c.ring
  arrival := c.arrival
  stamp := c.stamp
  number := c.committed
  page := page
  terminal := c.terminal
  header := none
  seen := noEpochs
  counted := counted
  held := none

/-- Applies a function to a notice of a chain. -/
def Chain.modifyNotice (c : Chain) (n : Notice) (f : Notice → Notice) : Chain :=
  { c with notices := c.notices.map fun x => if x.is n then f x else x }

/-- The pilot commits to the next page, or to the terminating notice, as soon as it may: it knows the page's address, fewer than 4 notices
are committed to or outstanding, its limit is not reached, and its notice has room on the counters (04 R110, R112). With the page at its
limit, or the terminating notice, the chain ends. -/
def State.pilotCommit (s : State) (g : Gang) : Gang :=
  match g.chain with
  | none => g
  | some c =>
    match c.next with
    | none => g
    | some page =>
      let mask := s.countersFor g { bytes := ringEntry c.ring c.committed }
      if c.ended || decide (4 ≤ c.unfreed + c.notices.length) || g.countersFull mask then g
      else
        { g.count mask with
          chain := some
            { c with
              next := none, committed := c.committed + 1, ended := c.terminal || c.committed + 1 == c.limit
              notices := c.notices ++ [c.notice s.serial page mask] } }

/-- The chain has work left: it has not ended, or a notice is not written. -/
def Chain.active (c : Chain) : Bool := !c.ended || !c.notices.isEmpty

/-- `pil.start` (04 R109, R111). It waits while the gang's chain has not ended. Notices of earlier chains are still written, and those that
no `pil.next` has freed stay outstanding (R110). -/
def execPilStart (a : BitVec 7) (e : Bool) (n : BitVec 4) (s : State) : Result :=
  gate s (fun _ => blockNeeds a.toNat 5 true) fun g =>
    match s.crews.find g.crew with
    | none => .fault .noIssuer
    | some crew =>
      let page := g.spair a.toNat
      let ring := (g.sreg (a.toNat + 2)).toNat
      let size := (g.sreg (a.toNat + 4)).toNat
      let checks : List BlockFault :=
        startCheck false page.toNat ++ alignCheck 128 page.toNat ++ alignCheck 16 ring ++ rangeCheck crew.padSize ring 64
      if size % 128 ≠ 0 ∨ size < 128 ∨ 0x100000 < size then s.trap g .illegalInstruction
      else
        match checks with
        | (cause, x) :: _ => .next (s.trapAt g cause (g.enabled s.group) (BitVec.ofNat 64 x))
        | [] =>
          if g.chain.any fun c => !c.ended then s.waiting
          else
            let unfreed := (g.chain.map fun c => c.unfreed).getD 0
            let notices := (g.chain.map fun c => c.notices).getD []
            let chain : Chain :=
              { id := s.serial, pc := g.pc s.group, next := some page, terminal := false, committed := 0,
                limit := (g.sreg (a.toNat + 3)).toNat, pageSize := size, ring := ring, arrival := arrivalOf e n,
                unfreed := unfreed, ended := false, notices := notices, stamp := g.stamp }
            let s1 : State := { s with serial := s.serial + 1 }
            s1.finish (s.pilotCommit { g with chain := some chain })

/-- `pil.next`: frees the oldest notice (04 R109, R111). -/
def execPilNext (s : State) : Result :=
  gate s (fun _ => {}) fun g =>
    let free (c : Chain) : Chain := { c with unfreed := c.unfreed - 1 }
    s.finish (s.pilotCommit { g with chain := g.chain.map free })

/-- `pil.stop` (04 R111). -/
def execPilStop (s : State) : Result :=
  gate s (fun _ => {}) fun g => s.finish { g with chain := g.chain.map fun c => { c with ended := true } }

/-- The addresses of a page at which a new translation unit may begin, for fetching the whole of it (04 R110). -/
def pageSteps (page size : Nat) : List (Nat × Nat) :=
  (List.range ((page % 4096 + size + 4095) / 4096)).map fun i =>
    let lo := max page (page / 4096 * 4096 + 4096 * i)
    (lo, min (page + size) (page / 4096 * 4096 + 4096 * (i + 1)) - lo)

/-- The pilot fetches a page into the die cache: nothing is changed, and a part that faults is met here. -/
def Run.fetchPage (core ctx : Nat) : Run → List (Nat × Nat) → Work.Answer Unit
  | r, [] => (.ok (), r)
  | r, (va, n) :: rest =>
    match r.reach core ctx va n .load with
    | (.error e, r1) => (.error e, r1)
    | (.ok _, r1) => Run.fetchPage core ctx r1 rest

/-- The oldest notice whose page's header the pilot has yet to read. -/
def Chain.unread (c : Chain) : Option Notice := c.notices.find? fun n => !n.terminal && n.header.isNone

/-- Reads a page's header, and fetches the page: the address of its successor, and bytes 8 to 15. A successor that is not canonical or not
aligned stops the chain. It does so before the page's own notice is written, and also at the last page that the limit lets it commit (DESIGN
CHOICE, log 43: 04 R110 says neither whether that page still gets its notice nor whether such a successor is judged). -/
def Run.pageHeader (r : Run) (core ctx : Nat) (page : DWord) (size : Nat) : Work.Answer (Nat × Nat) :=
  match r.readGlobal core ctx 17 page.toNat 16 with
  | (.error e, r1) => (.error e, r1)
  | (.ok header, r1) =>
    let next := numberOf (header.take 8)
    if 2 ^ 48 ≤ next ∨ next % 128 ≠ 0 then (.error (.stop .engineFault page), r1)
    else
      match r1.fetchPage core ctx (pageSteps page.toNat size) with
      | (.error e, r2) => (.error e, r2)
      | (.ok _, r2) => (.ok (next, numberOf (header.drop 8)), r2)

/-- Every earlier access of a gang to the bytes of a notice has performed; `extents` gives the bytes of a command (04 R100). -/
def State.pilotClear (s : State) (key ctx : Nat) (n : Notice) (extents : Command → List Extent) : Bool :=
  !((s.sideLogOf key).any fun e => s.entryMeets key ctx n.id n.extents e) &&
  !(s.commands.any fun x => x.gangs.contains key && decide (x.id < n.id) && s.anyShared ctx (extents x) n.extents)

/-- The chain with the header of a notice read: where the notice is its own, the next page is known, or that the terminating notice comes
next (04 R110). -/
def Chain.readHeader (c : Chain) (n : Notice) (next words : Nat) (seen : List DWord) : Chain :=
  let c1 := c.modifyNotice n fun x => { x with header := some words, seen := seen, held := none }
  if n.chain = c.id then { c1 with next := some (BitVec.ofNat 64 next), terminal := next == 0 } else c1

/-- A notice is written: a completion, with its arrival (04 R110, R101, R102). Bytes 8 to 15 of the terminating one are zero (DESIGN CHOICE,
log 43: 04 R110 gives its page address and no more). -/
def State.writeNotice (s : State) (key : Nat) (g : Gang) (c : Chain) (n : Notice) : State :=
  let bytes := if n.terminal then List.replicate 16 0 else bytesOf 8 n.page.toNat ++ bytesOf 8 (n.header.getD 0)
  let s1 := s.padPut g.crew (n.ring + 16 * (n.number % 4)) bytes
  let c1 : Chain := { c with unfreed := c.unfreed + 1, notices := c.notices.filter fun x => !x.is n }
  let g1 := s.pilotCommit { (g.uncount n.counted n.seen).classDone 3 n.seen with chain := some c1 }
  (s1.setGang key g1).engineArrive g.crew key n.arrival

/-- The pilot's access for a notice failed: it holds, or its context stops (04 R103, R110). -/
def State.chainFault (s : State) (key : Nat) (g : Gang) (c : Chain) (n : Notice) (e : EngineFault) : State :=
  let holds (h : Option Hold) : Gang := { g with chain := some (c.modifyNotice n fun x => { x with held := h }) }
  match e with
  | .hold f =>
    let s1 := s.setGang key (holds (some (Hold.of f)))
    if sameHold n.held f then s1
    else s1.postFault f (s.engineRecord (coreOf key) g.ctx key f) (.command n.chain)
  | .stop cause addr source =>
    (s.setGang key (holds none)).stopEngine (coreOf key) g.ctx key .pilot cause addr n.pc
      (((s.crews.find g.crew).map fun x => x.launch).getD 0) source
  | .wait => s.setGang key g

end Sys2Proof.Machine
end

