-- ==== Sys2Proof/Machine/Charts.lean ====
section
/-!
DEFINITION. Charts: descriptors, the tile-tree walk, the coordinate look-aside buffer, pools, allocation, and the instructions
that load, store, query, unlink and invalidate by coordinate (17 R345-R362; readings in log 35). `chfree.ret` stands in Machine/Replay.lean.
-/
namespace Sys2Proof.Machine

/-! ### The descriptor (17 R345, R352) -/

/-- A chart access has moved bytes of global space, whose energy the turn draws at its end (16 R341; log 21). -/
def Run.moved (r : Run) (core ctx va bytes : Nat) : Run :=
  { r with st := { r.st with chartMoves := r.st.chartMoves ++ [{ core := core, ctx := ctx, va := va, bytes := bytes }] } }

/-- Reads `n` bytes of global space for a chart access. -/
def Run.fetch (r : Run) (core ctx va n : Nat) : Work.Answer (List Byte) :=
  match r.readGlobal core ctx (n + 1) va n with
  | (.error e, r1) => (.error e, r1)
  | (.ok b, r1) => (.ok b, r1.moved core ctx va n)

/-- Reads an 8-byte link of a chart: an acquire, whose service is kept apart (17 R360). -/
def Run.readLink (r : Run) (core ctx va : Nat) : Work.Answer Nat :=
  match Run.fetch { r with seen := noEpochs } core ctx va 8 with
  | (.error e, r1) => (.error e, { r1 with seen := r.seen })
  | (.ok b, r1) => (.ok (numberOf b), { r1 with seen := maxEpochs r.seen r1.seen, links := maxEpochs r.links r1.seen })

/-- Element coordinates. -/
abbrev Coords := Nat × Nat × Nat

/-- The descriptor's bytes as fields. -/
def Chart.of (desc : Nat) (b : List Byte) : Chart where
  desc := desc
  root := numberOf (b.take 8)
  ex := numberOf ((b.drop 8).take 2)
  ey := numberOf ((b.drop 10).take 2)
  ez := numberOf ((b.drop 12).take 2)
  size := numberOf ((b.drop 14).take 1)
  e := 2 ^ numberOf ((b.drop 14).take 1)
  background := numberOf ((b.drop 16).take 8)
  pool := numberOf ((b.drop 24).take 8)

/-- The descriptor keeps R345: its root and pool header aligned, its extents and element size in range, its background no wider
than an element, its reserved bytes zero. -/
def Chart.valid (c : Chart) (b : List Byte) : Bool :=
  decide (c.root % 4096 = 0) && decide (c.pool % 64 = 0) && decide (c.pool < 2 ^ 48) &&
  [c.ex, c.ey, c.ez].all (fun n => decide (1 ≤ n) && decide (n ≤ 32768)) && decide (c.size ≤ 3) &&
  decide (c.background < 256 ^ c.e) && decide (numberOf ((b.drop 15).take 1) = 0) && decide (numberOf (b.drop 32) = 0)

/-- Reads and checks a descriptor; `size` is the element size the instruction names, if it names one. -/
def Run.descriptor (r : Run) (core ctx desc : Nat) (size : Option Nat) : Work.Answer Chart :=
  match r.fetch core ctx desc 64 with
  | (.error e, r1) => (.error e, r1)
  | (.ok b, r1) =>
    let c := Chart.of desc b
    if c.valid b && (match size with
        | none => true
        | some z => c.size == z) then (.ok c, r1)
    else (.error (.stop .chartFormat (BitVec.ofNat 64 desc)), r1)

/-- The element lies outside the extents (17 R345). -/
def Chart.outside (c : Chart) (p : Coords) : Bool := decide (c.ex ≤ p.1) || decide (c.ey ≤ p.2.1) || decide (c.ez ≤ p.2.2)

/-- The coordinates of an element's tile (17 R348). -/
def tileOf (p : Coords) : Coords := (p.1 / 8, p.2.1 / 8, p.2.2 / 8)

/-- The entry index of an element at level `v` (17 R348). -/
def entryIndex (p : Coords) (v : Nat) : Nat :=
  let f (x : Nat) : Nat := x / 2 ^ (12 - 3 * v) % 8
  64 * f p.2.2 + 8 * f p.2.1 + f p.1

/-- The offset of an element in its tile (17 R348). -/
def Chart.offset (c : Chart) (p : Coords) : Nat := (64 * (p.2.2 % 8) + 8 * (p.2.1 % 8) + p.1 % 8) * c.e

/-! ### The coordinate look-aside buffer (17 R351) -/

/-- The frame of each grant through which a virtual address of a context translates. -/
def State.chainOf (s : State) (ctx va : Nat) : List (Nat × Nat) :=
  match s.translateFresh ctx va .load with
  | .ok (_, some e) => e.chain.map fun l => (l.1, l.2 + (va - e.va) / 0x200000)
  | _ => []

/-- The entry is the named tile of a context's chart. -/
def ClbEntry.names (x : ClbEntry) (ctx desc : Nat) (t : Coords) : Bool :=
  x.ctx == ctx && x.desc == desc && x.tx == t.1 && x.ty == t.2.1 && x.tz == t.2.2

/-- What a core's buffer holds for a tile. -/
def State.clbLookup (s : State) (core ctx desc : Nat) (t : Coords) : Option ClbEntry :=
  (s.core core).clb.find? fun x => x.names ctx desc t

/-- A walk that found a tile enters it, with what served the reads of its links; beyond 512 entries the oldest leaves (log 13). -/
def State.clbFill (s : State) (core ctx desc : Nat) (t : Coords) (block : Nat) (links : List DWord) : State :=
  let x : ClbEntry :=
    { ctx := ctx, desc := desc, tx := t.1, ty := t.2.1, tz := t.2.2, block := block,
      chain := s.chainOf ctx desc ++ s.chainOf ctx block, seen := links }
  let kept := ((s.core core).clb.filter fun y => !y.names ctx desc t) ++ [x]
  s.setCore core { s.core core with clb := kept.drop (kept.length - 512) }

/-! ### The walk (17 R347, R353) -/

/-- What a walk finds: no element, an absent tile with the link at which it ends and its depth, or a tile's block. -/
inductive Found where
  | outside
  | absent (link depth : Nat)
  | tile (block : Nat)
  deriving DecidableEq, Repr

/-- Walks down `fuel` levels from a node at level `v`. A link that reads 0 ends the walk, and so does one that is valid and points to
address 0, which R353 takes for an absent tile; with `raw` the latter is followed as every other link (17 R355, R357). -/
def Run.descend (core ctx : Nat) (p : Coords) (raw : Bool) : Nat → Run → Nat → Nat → Work.Answer Found
  | 0, r, node, _ => (.ok (.tile node), r)
  | fuel + 1, r, node, v =>
    let link := node + 8 * entryIndex p v
    match r.readLink core ctx link with
    | (.error e, r1) => (.error e, r1)
    | (.ok x, r1) =>
      if malformedLink x then (.error (.stop .chartFormat (BitVec.ofNat 64 link)), r1)
      else if x = 0 ∨ (x = 1 ∧ !raw) then (.ok (.absent link (v + 1)), r1)
      else Run.descend core ctx p raw fuel r1 (x - 1) (v + 1)

/-- The root field, read afresh (17 R346); a malformed one is reported at its address. -/
def Run.rootOf (r : Run) (core ctx : Nat) (c : Chart) : Work.Answer Nat :=
  match r.readLink core ctx c.desc with
  | (.error e, r1) => (.error e, r1)
  | (.ok x, r1) =>
    if 2 ^ 48 ≤ x ∨ x % 4096 ≠ 0 then (.error (.stop .chartFormat (BitVec.ofNat 64 c.desc)), r1) else (.ok x, r1)

/-- A walk of `levels` levels of the tree, without the buffer. -/
def Run.walkTree (r : Run) (core ctx : Nat) (c : Chart) (p : Coords) (raw : Bool) (levels : Nat) : Work.Answer Found :=
  match r.rootOf core ctx c with
  | (.error e, r1) => (.error e, r1)
  | (.ok 0, r1) => (.ok (.absent c.desc 0), r1)
  | (.ok root, r1) => Run.descend core ctx p raw levels r1 root 0

/-- A walk of the tree from its root; a tile found enters the buffer, with what served the reads of its links. -/
def Run.walkFill (r : Run) (core ctx : Nat) (c : Chart) (p : Coords) : Work.Answer Found :=
  match { r with links := noEpochs }.walkTree core ctx c p false 4 with
  | (x, r1) =>
    let r2 : Run := { r1 with links := maxEpochs r.links r1.links }
    match x with
    | .ok (.tile block) =>
      (x, { r2 with st := r2.st.clbFill core ctx c.desc (tileOf p) block r1.links })
    | _ => (x, r2)

/-- `walk` of 17 R353. A buffered tile serves it where the free value lets it (log 13), and counts as a read of the links that filled its
entry (R360). An access that is retried walks afresh (R358). -/
def Run.walk (r : Run) (core ctx : Nat) (c : Chart) (p : Coords) (afresh : Bool) : Work.Answer Found :=
  if c.outside p then (.ok .outside, r)
  else
    let r0 : Run := { r with st := { r.st with serial := r.st.serial + 1 } }
    match r.st.clbLookup core ctx c.desc (tileOf p), !afresh && Config.clbUsed r.st.serial with
    | some x, true => (.ok (.tile x.block), { r0 with links := maxEpochs r0.links x.seen })
    | _, _ => r0.walkFill core ctx c p

/-! ### Pools (17 R349, R350) -/

/-- A pool header. -/
structure Pool where
  ring : Nat
  n : Nat
  head : Nat
  tail : Nat
  deriving DecidableEq, Repr

/-- The header keeps R349. One that shows more blocks available than its ring has entries keeps it too (DESIGN CHOICE, log 35: R349's table
bounds no count, and that head and tail differ by N at most is only what software and the device's own steps make them). -/
def Pool.valid (p : Pool) (b : List Byte) : Bool :=
  decide (p.ring % 8 = 0) && decide (p.ring < 2 ^ 48) && decide (2 ≤ p.n) && decide (p.n ≤ 2 ^ 24) &&
  (List.range 25).any (fun i => 2 ^ i == p.n) && decide (numberOf ((b.drop 12).take 4) = 0) &&
  decide (numberOf (b.drop 24) = 0)

/-- Reads a pool's header for a step. -/
def Run.pool (r : Run) (core ctx addr : Nat) : Work.Answer Pool :=
  match r.fetch core ctx addr 64 with
  | (.error e, r1) => (.error e, r1)
  | (.ok b, r1) =>
    let p : Pool :=
      { ring := numberOf (b.take 8), n := numberOf ((b.drop 8).take 4), head := numberOf ((b.drop 16).take 4),
        tail := numberOf ((b.drop 20).take 4) }
    if p.valid b then (.ok p, r1) else (.error (.stop .chartFormat (BitVec.ofNat 64 addr)), r1)

/-- The blocks available in a pool. -/
def Pool.available (p : Pool) : Nat := (p.tail + 2 ^ 32 - p.head) % 2 ^ 32

/-- Writes bytes within one sector of global space. -/
def Run.put (r : Run) (core ctx va : Nat) (bytes : List Byte) (k : Want) : Work.Answer Unit :=
  match r.reach core ctx va bytes.length k with
  | (.error e, r1) => (.error e, r1)
  | (.ok p, r1) => (.ok (), ({ r1 with st := r1.st.putPlace p bytes } : Run).moved core ctx va bytes.length)

/-- Reads the addresses in `k` ring entries from count `from_`. -/
def Run.ringEntries (core ctx : Nat) (p : Pool) : Nat → Run → Nat → Work.Answer (List Nat)
  | 0, r, _ => (.ok [], r)
  | k + 1, r, from_ =>
    let entry := p.ring + 8 * (from_ % p.n)
    match r.fetch core ctx entry 8 with
    | (.error e, r1) => (.error e, r1)
    | (.ok b, r1) =>
      let block := numberOf b
      if block % 4096 ≠ 0 ∨ 2 ^ 48 ≤ block then (.error (.stop .chartFormat (BitVec.ofNat 64 entry)), r1)
      else
        match Run.ringEntries core ctx p k r1 (from_ + 1) with
        | (.error e, r2) => (.error e, r2)
        | (.ok rest, r2) => (.ok (block :: rest), r2)

/-- Takes `k` blocks of a pool: none where fewer are available (17 R350). -/
def Run.takeBlocks (r : Run) (core ctx addr k : Nat) : Work.Answer (Option (List Nat)) :=
  match r.pool core ctx addr with
  | (.error e, r1) => (.error e, r1)
  | (.ok p, r1) =>
    if p.available < k then (.ok none, r1)
    else
      match Run.ringEntries core ctx p k r1 p.head with
      | (.error e, r2) => (.error e, r2)
      | (.ok blocks, r2) =>
        match r2.put core ctx (addr + 0x10) (bytesOf 4 (p.head + k)) .reduce with
        | (.error e, r3) => (.error e, r3)
        | (.ok _, r3) => (.ok (some blocks), r3)

/-- How the writes of a pool step are translated: that of a ring entry, and that of the header. -/
structure PoolWants where
  ring : Want
  header : Want

/-- For `stc`, whose faults are those of stores (17 R354). -/
def PoolWants.store : PoolWants := ⟨.store, .reduce⟩

/-- For `chfree.ret`, whose faults are those of loads (17 R357). -/
def PoolWants.held : PoolWants := ⟨.heldStore, .atomic⟩

/-- Puts a block into a pool; a full pool refuses it, and the record names the pool's header, as that of a malformed one does (17 R350; DESIGN
CHOICE, log 35: R350 names no address). -/
def Run.putBlock (r : Run) (core ctx addr block : Nat) (k : PoolWants) : Work.Answer Unit :=
  match r.pool core ctx addr with
  | (.error e, r1) => (.error e, r1)
  | (.ok p, r1) =>
    if p.n ≤ p.available then (.error (.stop .chartFormat (BitVec.ofNat 64 addr)), r1)
    else
      match r1.put core ctx (p.ring + 8 * (p.tail % p.n)) (bytesOf 8 block) k.ring with
      | (.error e, _) => (.error e, r1)
      | (.ok _, r2) =>
        match r2.put core ctx (addr + 0x14) (bytesOf 4 (p.tail + 1)) k.header with
        | (.error e, _) => (.error e, r1)
        | (.ok _, r3) => (.ok (), r3)

/-- Puts blocks back in the order they were taken (17 R354, R355). Where a step fails, that block and the rest are still owed. -/
def Run.putBack (core ctx addr : Nat) : List Nat → Run → Except (EngineFault × List Nat) Unit × Run
  | [], r => (.ok (), r)
  | b :: rest, r =>
    match r.putBlock core ctx addr b .store with
    | (.error e, r1) => (.error (e, b :: rest), r1)
    | (.ok _, r1) => Run.putBack core ctx addr rest r1

/-! ### Allocation on write (17 R355) -/

/-- Fills a block of global space from its start. -/
def Run.fill (r : Run) (core ctx va : Nat) (bytes : List Byte) : Work.Answer Unit :=
  match r.st.translate core ctx va .store with
  | (.error f, s1) => (.error (.hold f), { r with st := s1 })
  | (.ok (.mem a), s1) =>
    if !s1.serves r.stamp a then (.error .wait, r)
    else (.ok (), ({ r with st := s1.putPlace (.mem a) bytes } : Run).moved core ctx va bytes.length)
  | (.ok (.device ..), s1) => (.ok (), { r with st := s1 })

/-- A node all zero but for the entry on an element's path at its level, which points to the next block. -/
def nodeBytes (p : Coords) (v next : Nat) : List Byte :=
  List.replicate (8 * entryIndex p v) 0 ++ bytesOf 8 (next + 1) ++ List.replicate (4088 - 8 * entryIndex p v) 0

/-- Fills the blocks of a new path from level `v`: nodes, and last the tile with background. -/
def Run.fillPath (core ctx : Nat) (c : Chart) (p : Coords) : List Nat → Run → Nat → Work.Answer Unit
  | [], r, _ => (.ok (), r)
  | [tile], r, _ => r.fill core ctx tile ((List.range 512).flatMap fun _ => bytesOf c.e c.background)
  | node :: next :: rest, r, v =>
    match r.fill core ctx node (nodeBytes p v next) with
    | (.error e, r1) => (.error e, r1)
    | (.ok _, r1) => Run.fillPath core ctx c p (next :: rest) r1 (v + 1)

/-- An access of `allocate` has failed with blocks in hand: they are put back before the lane is logged (17 R354). A put-back that has to
wait, or stops the gang, takes the place of that failure; one that holds leaves blocks owed. -/
def Run.failedWith (r : Run) (core ctx pool : Nat) (blocks : List Nat) (e : EngineFault) : (EngineFault × List Nat) × Run :=
  match Run.putBack core ctx pool blocks r with
  | (.ok _, r1) => ((e, []), r1)
  | (.error (.hold _, owed), r1) => ((e, owed), r1)
  | (.error x, r1) => (x, r1)

/-- The first half of `allocate` (17 R355), from the link that reads 0 at depth `j`: the blocks are taken, none where the pool holds too
few, and filled. Beside a failure stand the blocks that could not be put back. -/
def Run.takeFilled (r : Run) (core ctx : Nat) (c : Chart) (p : Coords) (j : Nat) :
    Except (EngineFault × List Nat) (Option (List Nat)) × Run :=
  match r.takeBlocks core ctx c.pool (5 - j) with
  | (.error e, r1) => (.error (e, []), r1)
  | (.ok none, r1) => (.ok none, r1)
  | (.ok (some blocks), r1) =>
    match Run.fillPath core ctx c p blocks r1 j with
    | (.ok _, r2) => (.ok (some blocks), r2)
    | (.error .wait, _) => (.error (.wait, []), r)
    | (.error e, r2) =>
      match r2.failedWith core ctx c.pool blocks e with
      | ((.wait, _), _) => (.error (.wait, []), r)
      | (x, r3) => (.error x, r3)

/-- The compare-and-swap of 17 R355: whether the link read 0, and now links the first block, as a release at device scope. -/
def Run.swap (r : Run) (core ctx : Nat) (a : Allocation) : Work.Answer Bool :=
  match r.reach core ctx a.link 8 .reduce with
  | (.error e, r1) => (.error e, r1)
  | (.ok q, r0) =>
    let r1 := r0.moved core ctx a.link 16
    if numberOf (r1.st.placeBytes q 8) ≠ 0 then (.ok false, r1)
    else
      let s1 := r1.st.putPlace q (bytesOf 8 (a.blocks.headD 0 + if a.depth = 0 then 0 else 1))
      (.ok true, { r1 with st := s1.release core, linked := true })

/-- The second half of `allocate` (17 R355): the swap. Won, it gives the tile, the last block; where it is lost or faults, the blocks are
put back, and beside a failure stand those that could not be. -/
def Run.settle (r : Run) (core ctx pool : Nat) (a : Allocation) : Except (EngineFault × List Nat) (Option Nat) × Run :=
  match r.swap core ctx a with
  | (.ok true, r1) => (.ok (some (a.blocks.getLast?.getD 0)), r1)
  | (.ok false, r1) =>
    match Run.putBack core ctx pool a.blocks r1 with
    | (.ok _, r2) => (.ok none, r2)
    | (.error (.wait, _), _) => (.error (.wait, []), r)
    | (.error x, r2) => (.error x, r2)
  | (.error .wait, _) => (.error (.wait, []), r)
  | (.error e, r1) =>
    match r1.failedWith core ctx pool a.blocks e with
    | ((.wait, _), _) => (.error (.wait, []), r)
    | (x, r2) => (.error x, r2)

/-! ### Handle and descriptor checks (17 R352) -/

/-- The coordinates an instruction reads in a lane. -/
def Gang.coords (g : Gang) (a l : Nat) : Coords := ((g.vreg a l).toNat, (g.vreg (a + 1) l).toNat, (g.vreg (a + 2) l).toNat)

/-- The coordinates in three s registers. -/
def Gang.coordsOf (g : Gang) (a : Nat) : Coords := ((g.sreg a).toNat, (g.sreg (a + 1)).toNat, (g.sreg (a + 2)).toNat)

/-- What an access that failed does to the issuing gang: it holds, stops at its instruction, or waits. -/
def Run.failed (r : Run) (g : Gang) (lanes : List Nat) (e : EngineFault) : Result :=
  match e with
  | .hold f => .next (r.st.holdGang g f 2 lanes)
  | .stop cause a source =>
    .next (r.st.stopGang r.st.gang g
      { cause := cause, lanes := lanes, address := a, code := 0, origin := !r.st.lineRaised g.ctx, precise := true,
        pc := g.pc r.st.group, trapPc := g.pc r.st.group, source := source })
  | .wait => r.st.waiting

/-- What a chart access leaves in its gang: its reads of links, and a swap, reach the stamp (17 R360; 05 R136). -/
def Gang.afterChart (g : Gang) (r : Run) (core : Nat) : Gang :=
  (if r.linked then g.released r.st core else g).merge r.links

/-- The instruction of the issuing gang is a held one that is retried. -/
def State.isRetry (s : State) : Bool := ((s.gangs.find s.gang).bind fun g => g.held).isSome

/-- The check of the handle alone, with what follows it. -/
def chartHandle (s : State) (g : Gang) (k : Nat) (body : Nat → Result) : Result :=
  let h := g.kreg k
  let desc := handleBase h
  if desc % 64 ≠ 0 then .next (s.trapAt g .misaligned (g.enabled s.group) (BitVec.ofNat 64 desc))
  else if handleKind h ≠ 3 then .next (s.trapAt g .chartFormat (g.enabled s.group) (BitVec.ofNat 64 desc))
  else body desc

/-- The checks of handle and descriptor, in their order, and what the instruction then does. -/
def openChart (s : State) (g : Gang) (k : Nat) (size : Option Nat) (body : Chart → Run → Result) : Result :=
  chartHandle s g k fun desc =>
    match (Run.start s g.stamp).descriptor (coreOf s.gang) g.ctx desc size with
    | (.error e, r) => r.failed g (g.enabled s.group) e
    | (.ok c, r) => body c r

/-- REPRO_VIOLATION of an instruction that a reproducible launch may not execute (17 R362). -/
def reproOr (s : State) (g : Gang) (c : Chart) (body : Result) : Result :=
  if s.isReproducible g then .next (s.trapAt g .reproViolation (g.enabled s.group) (BitVec.ofNat 64 c.desc)) else body

/-- What a lane-wise chart access needs: coordinates in three v registers, and its own registers. -/
def chartNeeds (a : Nat) (regs : List Nat) (pair : Bool) : Needs where
  v := [a, a + 1, a + 2] ++ regs
  even := if pair then regs.take 1 else []

/-! ### `ldc` (17 R353, R354; 16 R418) -/

/-- A chart entry of the gang for the same descriptor and coordinates. -/
def SideEntry.sameElement (e : SideEntry) (key desc : Nat) (p : Coords) : Bool :=
  match e.op with
  | .chart d x y z => e.gang == key && d.toNat == desc && x.toNat == p.1 && y.toNat == p.2.1 && z.toNat == p.2.2
  | _ => false

/-- Byte `i` that the gang's logged stores leave in an element, in log order; `va` is its address where it has one. -/
def State.loggedElement (s : State) (key desc : Nat) (p : Coords) (va : Option Nat) (i : Nat) : Option Byte :=
  (s.sideLogOf key).foldl (fun found e =>
    if e.sameElement key desc p then some (byteOf e.data i)
    else
      match va with
      | none => found
      | some a => if e.op == .store && e.overlaps key (a + i) 1 then some (byteOf e.data (a + i - e.addr.toNat)) else found)
    none

/-- Why a lane did not go on: behind a logged reduction, or at a fault. -/
inductive LaneStop where
  | behind
  | fault (e : EngineFault)
  deriving DecidableEq, Repr

/-- What `ldc` reads in one lane: the address of the element, its bytes, and the tile where it has one. -/
structure Element where
  va : Nat
  bytes : List Byte
  tile : Option Coords
  deriving DecidableEq, Repr

/-- What `ldc` reads in one lane. A logged `stc` serves the lane even where its walk would hold, and an element whose bytes all stand in logged
stores is read from no memory (16 R418). -/
def Run.loadElement (r : Run) (key ctx : Nat) (c : Chart) (p : Coords) (afresh : Bool) : Except LaneStop Element × Run :=
  let core := coreOf key
  let logged : Bool := (r.st.sideLogOf key).any fun e => e.sameElement key c.desc p
  let bytes (st : State) (va : Option Nat) (memory : List Byte) : List Byte :=
    (List.range c.e).map fun i => (st.loggedElement key c.desc p va i).getD (memory.getD i 0)
  let fail (e : EngineFault) (r1 : Run) : Except LaneStop Element × Run :=
    match e, logged with
    | .hold _, true => (.ok ⟨0, bytes r1.st none [], none⟩, r1)
    | _, _ => (.error (.fault e), r1)
  match r.walk core ctx c p afresh with
  | (.error e, r1) => fail e r1
  | (.ok (.tile block), r1) =>
    let va := block + c.offset p
    if r1.st.logReduces key c.e [(0, va)] then (.error .behind, r1)
    else if (List.range c.e).all fun i => (r1.st.loggedElement key c.desc p (some va) i).isSome then
      (.ok ⟨va, bytes r1.st (some va) [], some (tileOf p)⟩, r1)
    else
      match r1.fetch core ctx va c.e with
      | (.error e, r2) => fail e r2
      | (.ok b, r2) => (.ok ⟨va, bytes r2.st (some va) b, some (tileOf p)⟩, r2)
  | (.ok _, r1) => (.ok ⟨0, bytes r1.st none (bytesOf c.e c.background), none⟩, r1)

/-- Runs the lanes of an instruction in ascending order, up to the first that does not go on. -/
def Run.lanes {ε α : Type} (f : Run → Nat → Except ε α × Run) : List Nat → Run → Except (Nat × ε) (List (Nat × α)) × Run
  | [], r => (.ok [], r)
  | l :: rest, r =>
    match f r l with
    | (.error e, r1) => (.error (l, e), r1)
    | (.ok x, r1) =>
      match Run.lanes f rest r1 with
      | (.error e, r2) => (.error e, r2)
      | (.ok xs, r2) => (.ok ((l, x) :: xs), r2)

/-- Issues a chart access whose results are to land. -/
def Run.issueChart (r : Run) (g : Gang) (core : Nat) (p : LoadPlan) : State × Gang :=
  r.st.issueLoad (g.afterChart r core) { p with seen := r.seen }

/-- The tiles through which a load reads, by chart (17 R358). -/
def tilesOf (desc : Nat) (l : List (Option Coords)) : List (Nat × Nat × Nat × Nat) :=
  l.filterMap fun t => t.map fun x => (desc, x.1, x.2.1, x.2.2)

/-- `ldc` (17 R352, R353). -/
def execLdc (d : BitVec 7) (k : BitVec 4) (a : BitVec 7) (z : BitVec 2) (s : State) : Result :=
  let regs := accessRegs d.toNat z.toNat
  gate s (fun _ => chartNeeds a.toNat regs (z.toNat == 3)) fun g =>
    openChart s g k.toNat (some z.toNat) fun c r =>
      let lanes := g.active s.group
      let mask := s.countersFor g { bytes := [], chart := some (BitVec.ofNat 64 c.desc) }
      if lanes.isEmpty then r.st.finish g
      else if g.countersFull mask then s.waiting
      else
        match Run.lanes (fun r l => r.loadElement s.gang g.ctx c (g.coords a.toNat l) s.isRetry) lanes r with
        | (.error (_, .behind), _) => s.waitAlone g
        | (.error (l, .fault e), r1) => r1.failed g [l] e
        | (.ok xs, r1) =>
          let (s2, g2) := r1.issueChart g (coreOf s.gang)
            { scalar := false, dests := regs
              pieces := xs.flatMap fun x => piecesOf false d.toNat x.1 x.2.va c.e fun i => x.2.bytes.getD i 0
              onCounter := false, mask := mask, covers := fun _ => mask, seen := []
              tiles := tilesOf c.desc (xs.map fun x => x.2.tile) }
          s2.finish g2

/-! ### `stc` (17 R353-R356, R362; 16 R332, R418) -/

/-- What a lane of `stc` comes to: it stores nothing, stands behind a logged entry, finds too few blocks, has failed, with the blocks it could
not put back, or stores at a place. -/
inductive StoreLane where
  | outside
  | behind
  | short
  | failed (f : AccessFault) (owed : List Nat)
  | at (p : Place) (va : Nat)
  deriving DecidableEq, Repr

/-- What ends an `stc`, or its turn, at a lane: a trap, an allocation begun, or a wait. -/
inductive LaneEnd where
  | trap (cause : Trap) (addr : DWord) (source : Option Nat)
  | begun (a : Allocation)
  | waits
  deriving DecidableEq, Repr

/-- What a lane of `stc` comes to or ends with, and the run it leaves. -/
abbrev LaneAnswer := Except LaneEnd StoreLane × Run

/-- A lane whose access has failed, with the blocks it could not put back (17 R354). -/
def laneFailure (x : EngineFault × List Nat) : Except LaneEnd StoreLane :=
  match x with
  | (.hold f, owed) => .ok (.failed f owed)
  | (.stop cause a source, _) => .error (.trap cause a source)
  | (.wait, _) => .error .waits

/-- A plain entry of the gang, among `log`, overlaps the element. -/
def plainOverlap (log : List SideEntry) (key va n : Nat) : Bool := log.any fun e => e.overlaps key va n

/-- Where an element that has an address is stored, behind the plain entries of `log`. -/
def Run.elementPlace (r : Run) (key ctx : Nat) (c : Chart) (log : List SideEntry) (va : Nat) : LaneAnswer :=
  if plainOverlap log key va c.e then (.ok .behind, r)
  else
    match r.st.translate (coreOf key) ctx va .store with
    | (.error f, s2) => (.ok (.failed f []), { r with st := s2 })
    | (.ok (.mem a), s2) => if s2.serves r.stamp a then (.ok (.at (.mem a) va), { r with st := s2 }) else (.error .waits, r)
    | (.ok q, s2) => (.ok (.at q va), { r with st := s2 })

/-- `allocate` of 17 R355 for a lane, from the first link on its path that reads 0, up to the swap; a path on which none does leads to
its tile (log 35). -/
def Run.allocate (r : Run) (key ctx : Nat) (c : Chart) (p : Coords) (log : List SideEntry) (lane : Nat) : LaneAnswer :=
  let core := coreOf key
  match r.walkTree core ctx c p true 4 with
  | (.error e, r1) => (laneFailure (e, []), r1)
  | (.ok (.absent link j), r1) =>
    match r1.takeFilled core ctx c p j with
    | (.error x, r2) => (laneFailure x, r2)
    | (.ok none, r2) => (.ok .short, r2)
    | (.ok (some blocks), r2) => (.error (.begun { lane := lane, link := link, depth := j, blocks := blocks }), r2)
  | (.ok (.tile block), r1) => r1.elementPlace key ctx c log (block + c.offset p)
  | (.ok .outside, r1) => (.ok .outside, r1)

/-- One lane of `stc` up to its element write, behind the entries of `log`: the walk, and for an absent tile the first half of its
allocation, which in a reproducible launch is a violation instead (17 R362). -/
def Run.storeElement (r : Run) (key ctx : Nat) (repro : Bool) (c : Chart) (p : Coords) (log : List SideEntry) (lane : Nat)
    (afresh : Bool) : LaneAnswer :=
  if log.any fun e => e.sameElement key c.desc p then (.ok .behind, r)
  else
    match r.walk (coreOf key) ctx c p afresh with
    | (.error e, r1) => (laneFailure (e, []), r1)
    | (.ok .outside, r1) => (.ok .outside, r1)
    | (.ok (.tile block), r1) => r1.elementPlace key ctx c log (block + c.offset p)
    | (.ok (.absent _ _), r1) =>
      if repro then (.error (.trap .reproViolation (BitVec.ofNat 64 c.desc) none), r1) else r1.allocate key ctx c p log lane

/-- The lanes that name an element first: they act, and a later lane of the same element finds what the earlier one has found or met (17
R355; log 35). -/
def leaders (p : Nat → Coords) (lanes : List Nat) : List Nat := lanes.filter fun l => !(lanes.any fun k => decide (k < l) && p k == p l)

/-- An `stc` as it begins: no lane has acted. -/
def ChartStore.start (id : Nat) (c : Chart) : ChartStore :=
  { id := id, chart := c, tiles := [], faults := [], lost := none, taken := none }

/-- A lane of an `stc` that goes on: one that has a tile stores there, one that has failed stays so, and the others walk, afresh after a
lost swap (17 R354, R355). -/
def ChartStore.lane (x : ChartStore) (key ctx : Nat) (repro : Bool) (p : Nat → Coords) (log : List SideEntry) (afresh : Bool) (r : Run)
    (l : Nat) : LaneAnswer :=
  match x.faults.find? (fun y => y.lane == l), x.tiles.find? fun y => y.lane == l with
  | some y, _ =>
    match y.fault with
    | none => (.ok .behind, r)
    | some f => (.ok (.failed f y.owed), r)
  | none, some y => r.elementPlace key ctx x.chart log y.va
  | none, none => r.storeElement key ctx repro x.chart (p l) log l (afresh || x.lost == some l)

/-- Runs lanes in ascending order up to one that ends the turn: what the ones before it came to, and the end with its lane. -/
def Run.lanesTo {ε α : Type} (f : Run → Nat → Except ε α × Run) : List Nat → Run → List (Nat × α) × Option (Nat × ε) × Run
  | [], r => ([], none, r)
  | l :: rest, r =>
    match f r l with
    | (.error e, r1) => ([], some (l, e), r1)
    | (.ok x, r1) =>
      match Run.lanesTo f rest r1 with
      | (xs, e, r2) => ((l, x) :: xs, e, r2)

/-- The fault with which a lane is logged: none where it only stands behind a logged entry. -/
def StoreLane.fault (c : Chart) (ctx : Nat) (x : StoreLane) : Option AccessFault :=
  match x with
  | .short => some ⟨.chartAlloc, BitVec.ofNat 64 c.desc, 0, ctx⟩
  | .failed f _ => some f
  | _ => none

/-- The blocks that the lane could not put back. -/
def StoreLane.owed (x : StoreLane) : List Nat :=
  match x with
  | .failed _ owed => owed
  | _ => []

/-- The lane is to be logged. -/
def StoreLane.logs (x : StoreLane) : Bool :=
  match x with
  | .outside => false
  | .at _ _ => false
  | _ => true

/-- An `stc` that stands between turns: what its lanes have come to is kept, so that none of them acts twice. -/
def ChartStore.keep (x : ChartStore) (ctx : Nat) (p : Nat → Coords) (outs : List (Nat × StoreLane)) (taken : Option Allocation) : ChartStore :=
  let new := outs.filter fun y => !(x.tiles.any fun z => z.lane == y.1) && !(x.faults.any fun z => z.lane == y.1)
  let tile (y : Nat × StoreLane) : Option LaneTile :=
    match y.2 with
    | .at _ va => some { lane := y.1, tile := tileOf (p y.1), va := va }
    | _ => none
  let fault (y : Nat × StoreLane) : Option LaneFault :=
    if y.2.logs then some { lane := y.1, fault := y.2.fault x.chart ctx, owed := y.2.owed } else none
  { x with tiles := x.tiles ++ new.filterMap tile, faults := x.faults ++ new.filterMap fault, taken := taken }

/-- The `stc` goes on at its gang's next turn, and keeps the gang to itself until it is done. -/
def ChartStore.pause (x : ChartStore) (g : Gang) (r : Run) : Result :=
  let s := r.st
  .next { s.setGang s.gang { g.afterChart r (coreOf s.gang) with alloc := some x, wait := .issued s.group } with idle := true }

/-- The place of a lane's store. -/
def storePlace (outs : List (Nat × StoreLane)) (l va : Nat) : Reaching :=
  { lane := l, addr := va
    place := match outs.find? fun y => y.1 == l with
      | some (_, .at q _) => .ok q
      | _ => .ok (.device 0 0) }

/-- `stc` once its lanes up to one that ends it have come to something: its stores are made, in the order of 03 R68 and only those that win,
its failing lanes logged in the same order, and it ends, or traps at the lane that ended it. Of lanes that name one element, what they owe
stands in the entry that wins. -/
def storeChart (g : Gang) (c : Chart) (r : Run) (p : Nat → Coords) (data : Nat → BitVec 128) (outs : List (Nat × StoreLane))
    (trap : Option (Nat × EngineFault)) (mask : BitVec 8) : Result :=
  let key := r.st.gang
  let core := coreOf key
  let stores := outs.filterMap fun x =>
    match x.2 with
    | .at _ va => some (x.1, va)
    | _ => none
  let order := winners (byAge g stores)
  let bad := order.filter fun x => (r.st.badAt c.e (storePlace outs x.1 x.2)).isSome
  let r2 := order.foldl (fun (acc : Run) x =>
    match (storePlace outs x.1 x.2).place with
    | .ok q =>
      if bad.contains x then acc else ({ acc with st := acc.st.writePlace q c.e (data x.1).toNat } : Run).moved core g.ctx x.2 c.e
    | .error _ => acc) r
  let s2 := r2.st
  let logged := outs.filter fun x => x.2.logs
  let came (l : Nat) : StoreLane := ((logged.find? fun x => x.1 == l).map fun x => x.2).getD .behind
  let loggedOrder := (byAge g (logged.map fun x => (x.1, 0))).map fun x => x.1
  let entries := loggedOrder.map fun l =>
    { s2.sideEntry g
        (.chart (BitVec.ofNat 64 c.desc) (BitVec.ofNat 32 (p l).1) (BitVec.ofNat 32 (p l).2.1) (BitVec.ofNat 32 (p l).2.2))
        false l c.desc c.e (data l) ((came l).fault c g.ctx) mask s2.serial false with
      owed := if (loggedOrder.filter fun k => p k == p l).getLast? = some l then (came l).owed.map fun b => (c.pool, b) else [] }
  let s3 : State := { s2 with serial := s2.serial + 1 }
  let s4 := s3.setCore core { s3.core core with sideLog := s3.sideLogOf key ++ entries }
  let s5 := loggedOrder.foldl (fun acc l =>
    match (came l).fault c g.ctx with
    | none => acc
    | some f => acc.postFault f (acc.faultRecord key g f 1 (g.ages.getD l 0xFFFFFFFF)) (.gang key)) s4
  let g1 := (if logged.isEmpty then g else g.count mask).saw r.seen
  match trap with
  | some (l, e) => { r with st := s5 }.failed g1 [l] e
  | none =>
    let s6 := s5.advance g1 1
    match bad.findSome? (fun x =>
        (s5.badAt c.e (storePlace outs x.1 x.2)).map fun b => (storePlace outs x.1 x.2, b)), s6.gangs.find key with
    | some (q, b), some g3 =>
      .next (s6.writeStop g3 (g.pc r.st.group) ((g.active r.st.group).filter fun l => bad.any fun x => x.1 == l) (q.machine.getD 0) b)
    | _, _ => .next s6

/-- The lanes of an `stc` that goes on. Where one begins an allocation, the instruction goes on at its next turn, with the swap (17 R355);
nothing of it is stored before. What has to wait, for a home die or for room in the log (16 R332), waits at issue until an allocation has
begun, and after that keeps what its lanes have come to. `ended` is the lane at which this turn's swap has stopped, and `again` the turn
without that swap. -/
def stcLanes (s : State) (g : Gang) (x : ChartStore) (r : Run) (p : Nat → Coords) (data : Nat → BitVec 128) (afresh : Bool)
    (ended : Option (Nat × EngineFault)) (again : Result) : Result :=
  let c := x.chart
  let lanes := g.active s.group
  let mask := if lanes.isEmpty then 0 else s.countersFor g { bytes := [], chart := some (BitVec.ofNat 64 c.desc) }
  let log := s.sideLogOf s.gang
  let before (lanes : List Nat) : List Nat :=
    match ended with
    | none => lanes
    | some (l, _) => lanes.filter fun k => decide (k < l)
  let (outs, early, r1) := Run.lanesTo (x.lane s.gang g.ctx (s.isReproducible g) p log afresh) (before (leaders p lanes)) r
  let waits (alone : Bool) : Result :=
    if ended.isSome then again
    else if g.alloc.isSome then (x.keep g.ctx p outs none).pause g r1 else if alone then s.waitAlone g else s.waiting
  let stores (trap : Option (Nat × EngineFault)) : Result :=
    let upTo := match trap with
      | none => lanes
      | some (l, _) => lanes.filter fun k => decide (k < l)
    let all := upTo.filterMap fun l => (outs.find? fun y => p y.1 == p l).map fun y => (l, y.2)
    if 128 < log.length + (all.filter fun y => y.2.logs).length then waits true
    else storeChart ({ g.afterChart r1 (coreOf s.gang) with alloc := none } : Gang) c r1 p data all trap mask
  match early with
  | some (_, .begun a) => (x.keep g.ctx p outs (some a)).pause g r1
  | some (_, .waits) => waits false
  | some (l, .trap cause a source) => stores (some (l, .stop cause a source))
  | none => stores ended

/-- The buffer of a core no longer holds the tile of an element, in whose place an allocation has linked another (log 13). -/
def State.clbForget (s : State) (core ctx desc : Nat) (t : Coords) : State :=
  s.setCore core { s.core core with clb := (s.core core).clb.filter fun x => !x.names ctx desc t }

/-- The swap of an `stc` that has taken blocks: its lane has linked its tile, or has lost, or has failed. A trap ends the instruction at that
lane (17 R354, R355). -/
def Run.settleStore (r : Run) (core ctx : Nat) (x : ChartStore) (a : Allocation) (p : Coords) :
    Except EngineFault (ChartStore × Option (Nat × EngineFault)) × Run :=
  let free : ChartStore := { x with taken := none, lost := none }
  match r.settle core ctx x.chart.pool a with
  | (.ok (some tile), r1) =>
    (.ok ({ free with tiles := x.tiles ++ [{ lane := a.lane, tile := tileOf p, va := tile + x.chart.offset p }] }, none),
      { r1 with st := r1.st.clbForget core ctx x.chart.desc (tileOf p) })
  | (.ok none, r1) => (.ok ({ free with lost := some a.lane }, none), r1)
  | (.error (.hold f, owed), r1) =>
    (.ok ({ free with faults := x.faults ++ [{ lane := a.lane, fault := some f, owed := owed }] }, none), r1)
  | (.error (.wait, _), r1) => (.error .wait, r1)
  | (.error (e, _), r1) => (.ok (free, some (a.lane, e)), r1)

/-- `stc` (17 R352-R356). Its checks are made once, before any lane acts. An allocation that it has begun is settled first: the swap links
its blocks, or the lane, which walks again, has lost it. -/
def execStc (d : BitVec 7) (k : BitVec 4) (a : BitVec 7) (z : BitVec 2) (s : State) : Result :=
  gate s (fun _ => chartNeeds a.toNat (accessRegs d.toNat z.toNat) (z.toNat == 3)) fun g =>
    let data (c : Chart) (l : Nat) : BitVec 128 := accessData (fun i => g.vreg (d.toNat + i) l) c.e
    let go (s1 : State) (g1 : Gang) (x : ChartStore) (r : Run) (ended : Option (Nat × EngineFault)) : Result :=
      stcLanes s1 g1 x r (g.coords a.toNat) (data x.chart) s.isRetry ended s.waiting
    match g.alloc with
    | none =>
      openChart s g k.toNat (some z.toNat) fun c r =>
        if !(g.active s.group).isEmpty && g.countersFull (s.countersFor g { bytes := [], chart := some (BitVec.ofNat 64 c.desc) }) then s.waiting
        else go s g (ChartStore.start s.serial c) r none
    | some x =>
      match x.taken with
      | none => go s g x (Run.start s g.stamp) none
      | some y =>
        match (Run.start s g.stamp).settleStore (coreOf s.gang) g.ctx x y (g.coords a.toNat y.lane) with
        | (.error _, _) => s.waiting
        | (.ok (x1, ended), r) =>
          let g1 : Gang := { g.afterChart r (coreOf s.gang) with alloc := some x1 }
          let s1 := r.st.setGang s.gang g1
          go s1 g1 x1 (Run.start s1 g1.stamp) ended

/-! ### `chq` and `chfree` (17 R353, R357) -/

/-- What `chq` answers in one lane: the value, and the tile where there is one. -/
def Run.queryElement (r : Run) (core ctx : Nat) (c : Chart) (p : Coords) (afresh : Bool) : Work.Answer (Nat × Option Coords) :=
  match r.walk core ctx c p afresh with
  | (.error e, r1) => (.error e, r1)
  | (.ok .outside, r1) => (.ok (2 ^ 64 - 1, none), r1)
  | (.ok (.absent _ _), r1) => (.ok (0, none), r1)
  | (.ok (.tile block), r1) => (.ok (block, some (tileOf p)), r1)

/-- `chq` (17 R353, R362). -/
def execChq (d : BitVec 7) (k : BitVec 4) (a : BitVec 7) (s : State) : Result :=
  let regs := [d.toNat, d.toNat + 1]
  gate s (fun _ => chartNeeds a.toNat regs true) fun g =>
    openChart s g k.toNat none fun c r =>
      reproOr r.st g c <|
        let lanes := g.active s.group
        let core := coreOf s.gang
        if lanes.isEmpty then r.st.finish g
        else
          match Run.lanes (fun r l => r.queryElement core g.ctx c (g.coords a.toNat l) s.isRetry) lanes r with
          | (.error (l, e), r1) => r1.failed g [l] e
          | (.ok xs, r1) =>
            let (s2, g2) := r1.issueChart g core
              { scalar := false, dests := regs
                pieces := xs.flatMap fun x => piecesOf false d.toNat x.1 0 8 fun i => byteOf (BitVec.ofNat 128 x.2.1) i
                onCounter := false, mask := 0, covers := fun _ => 0, seen := []
                tiles := tilesOf c.desc (xs.map fun x => x.2.2) }
            s2.finish g2

/-- Exchanges a level-3 entry with 0, a read of a link: the address it held, or 0 (17 R357, R360). A malformed entry stays, and stops
the gang as one met by a walk does (R354). -/
def Run.unlink (r : Run) (core ctx link : Nat) : Work.Answer Nat :=
  match r.reach core ctx link 8 .atomic with
  | (.error e, r1) => (.error e, r1)
  | (.ok p, r0) =>
    let r1 := r0.moved core ctx link 16
    let old := numberOf (r1.st.placeBytes p 8)
    if malformedLink old then (.error (.stop .chartFormat (BitVec.ofNat 64 link)), r1)
    else
      let served := match p with
        | .mem a => r1.st.appliedOf [a]
        | _ => noEpochs
      (.ok (if old = 0 then 0 else old - 1),
        { r1 with st := r1.st.putPlace p (bytesOf 8 0), links := maxEpochs r1.links served })

/-- The unlinking of an element's tile: 0 where it is out of range or a link above level 3 reads 0 (17 R357). -/
def Run.freeTile (r : Run) (core ctx : Nat) (c : Chart) (p : Coords) : Work.Answer Nat :=
  if c.outside p then (.ok 0, r)
  else
    match r.walkTree core ctx c p true 3 with
    | (.error e, r1) => (.error e, r1)
    | (.ok (.tile node), r1) => r1.unlink core ctx (node + 8 * entryIndex p 3)
    | (.ok _, r1) => (.ok 0, r1)

/-- `chfree`, the unlink form (17 R357, R362). -/
def execChfree (d : BitVec 7) (k : BitVec 4) (a : BitVec 7) (s : State) : Result :=
  let regs := [d.toNat, d.toNat + 1]
  gate s (fun _ => { s := regs ++ [a.toNat, a.toNat + 1, a.toNat + 2], even := [d.toNat] }) fun g =>
    openChart s g k.toNat none fun c r =>
      reproOr r.st g c <|
        match r.freeTile (coreOf s.gang) g.ctx c (g.coordsOf a.toNat) with
        | (.error e, r1) => r1.failed g (g.enabled s.group) e
        | (.ok v, r1) =>
          let (s2, g2) := r1.issueChart g (coreOf s.gang)
            { scalar := true, dests := regs
              pieces := piecesOf true d.toNat 0 0 8 fun i => byteOf (BitVec.ofNat 128 v) i
              onCounter := false, mask := 0, covers := fun _ => 0, seen := [] }
          s2.finish g2

/-! ### `clbinv` (17 R358) -/

/-- The cores of a context within a scope of the issuing core: 2 the core, 3 the die, 4 the context. -/
def State.clbCores (s : State) (g : Gang) (scope : Nat) : List Nat :=
  let here := coreOf s.gang
  if scope = 2 then [here]
  else
    ((s.context g.ctx).map fun c => c.cores).getD [] |>.filter fun n => scope == 4 || dieOf n == dieOf here

/-- The entry is of the chart, and of the tile where one is named. -/
def ClbEntry.within (x : ClbEntry) (ctx desc : Nat) (tile : Option Coords) : Bool :=
  x.ctx == ctx && x.desc == desc &&
  match tile with
  | none => true
  | some t => x.names ctx desc t

/-- The load reads through a tile of the chart, the named one where one is named. -/
def Load.through (x : Load) (desc : Nat) (tile : Option Coords) : Bool :=
  x.tiles.any fun y => y.1 == desc &&
    match tile with
    | none => true
    | some t => y.2 == t

/-- An `stc` between its turns has found or linked tiles of the chart, the named one where one is named. -/
def ChartStore.through (x : ChartStore) (desc : Nat) (tile : Option Coords) : Bool :=
  x.chart.desc == desc && x.tiles.any fun y =>
    match tile with
    | none => true
    | some t => y.tile == t

/-- An access of the context on the given cores, issued below a serial number, has taken a block through the chart or tile and has not
performed. An `stc` that is not between turns has performed at issue (log 7). -/
def State.chartBusy (s : State) (ctx : Nat) (cores : List Nat) (serial desc : Nat) (tile : Option Coords) : Bool :=
  s.gangs.any fun e => e.2.ctx == ctx && cores.contains (coreOf e.1) &&
    ((e.2.loads.any fun x => !x.sectors.isEmpty && decide (x.id < serial) && x.through desc tile) ||
      e.2.alloc.any fun x => decide (x.id < serial) && x.through desc tile)

/-- `clbinv`: at issue the buffers of its scope lose the entries of a chart, or of one of its tiles; then the gang issues nothing until
the accesses of the scope that took a block through them have performed (17 R358). -/
def invalidateChart (s : State) (g : Gang) (k scope : Nat) (tile : Option Coords) : Result :=
  chartHandle s g k fun desc =>
    let cores := s.clbCores g scope
    let clean (n : Nat) (c : Core) : Core :=
      if cores.contains n then { c with clb := c.clb.filter fun x => !x.within g.ctx desc tile } else c
    let (serial, s1) : Nat × State :=
      match (s.gangs.find s.gang).map Gang.wait with
      | some (.cleared _ n) => (n, s)
      | _ => (s.serial, { s with cores := s.cores.update clean })
    if s1.chartBusy g.ctx cores serial desc tile then
      .next { s1.setGang s.gang { g with wait := .cleared s.group serial } with idle := true }
    else s1.finish g

/-- `clbinv kH` (17 R358). -/
def execClbinv (k : BitVec 4) (s_ : BitVec 3) (s : State) : Result :=
  gate s (fun _ => {}) fun g => invalidateChart s g k.toNat s_.toNat none

/-- `clbinv kH, sA` (17 R358). -/
def execClbinvTile (k : BitVec 4) (a : BitVec 7) (s_ : BitVec 3) (s : State) : Result :=
  gate s (fun _ => { s := [a.toNat, a.toNat + 1, a.toNat + 2] }) fun g =>
    invalidateChart s g k.toNat s_.toNat (some (tileOf (g.coordsOf a.toNat)))

end Sys2Proof.Machine
end

