-- ==== Sys2Proof/Machine/Bits.lean ====
section
/-!
DEFINITION. The integer functions of 07: exact modulo the stated width (07 R164, R170-R177).
-/
namespace Sys2Proof.Machine

/-- An integer kept to −2³¹ … 2³¹ − 1 (07 R170). -/
def saturateSigned (x : Int) : Word :=
  if x < -2147483648 then 0x80000000 else if x > 2147483647 then 0x7FFFFFFF else BitVec.ofInt 32 x

/-- An integer kept to 0 … 2³² − 1 (07 R170). -/
def saturateUnsigned (x : Int) : Word :=
  if x < 0 then 0 else if x > 4294967295 then 0xFFFFFFFF else BitVec.ofInt 32 x

/-- Bits [63:32] of the signed product (07 R170). -/
def mulHighSigned (a b : Word) : Word := highWord (BitVec.ofInt 64 (a.toInt * b.toInt))

/-- Bits [63:32] of the unsigned product (07 R170). -/
def mulHighUnsigned (a b : Word) : Word := highWord (BitVec.ofNat 64 (a.toNat * b.toNat))

/-- Signed quotient truncated toward zero (07 R171). -/
def quotientSigned (a b : Word) : Word :=
  if b = 0 then 0xFFFFFFFF else BitVec.ofInt 32 (a.toInt.tdiv b.toInt)

/-- Unsigned quotient (07 R171). -/
def quotientUnsigned (a b : Word) : Word := if b = 0 then 0xFFFFFFFF else BitVec.ofNat 32 (a.toNat / b.toNat)

/-- Signed remainder, of the dividend's sign (07 R171). -/
def remainderSigned (a b : Word) : Word := if b = 0 then a else BitVec.ofInt 32 (a.toInt.tmod b.toInt)

/-- Unsigned remainder (07 R171). -/
def remainderUnsigned (a b : Word) : Word := if b = 0 then a else BitVec.ofNat 32 (a.toNat % b.toNat)

/-- The smaller of two signed values. -/
def minSigned (a b : Word) : Word := if a.toInt ≤ b.toInt then a else b

/-- The larger of two signed values. -/
def maxSigned (a b : Word) : Word := if a.toInt ≤ b.toInt then b else a

/-- The smaller of two unsigned values. -/
def minUnsigned (a b : Word) : Word := if a.toNat ≤ b.toNat then a else b

/-- The larger of two unsigned values. -/
def maxUnsigned (a b : Word) : Word := if a.toNat ≤ b.toNat then b else a

/-- Left shift by the whole 32-bit amount (07 R174). -/
def shiftLeft (a b : Word) : Word := if b.toNat < 32 then a <<< b.toNat else 0

/-- Logical right shift by the whole 32-bit amount (07 R174). -/
def shiftRight (a b : Word) : Word := if b.toNat < 32 then a >>> b.toNat else 0

/-- Arithmetic right shift by the whole 32-bit amount (07 R174). -/
def shiftArith (a b : Word) : Word :=
  if b.toNat < 32 then a.sshiftRight b.toNat else if a.msb then 0xFFFFFFFF else 0

/-- Rotate left by the amount modulo 32 (07 R174). -/
def rotateLeft (a b : Word) : Word := a.rotateLeft (b.toNat % 32)

/-- The number of one bits among bits below `n`. -/
def countOnes (a : Word) : Nat → Nat
  | 0 => 0
  | n + 1 => (a.getLsbD n).toNat + countOnes a n

/-- The number of zero bits above the highest one bit among bits below `n`. -/
def leadingZeros (a : Word) : Nat → Nat
  | 0 => 0
  | n + 1 => if a.getLsbD n then 0 else 1 + leadingZeros a n

/-- The number of zero bits below the lowest one bit, of the `n` bits from bit `32 - n` up. -/
def trailingZeros (a : Word) : Nat → Nat
  | 0 => 0
  | n + 1 => if a.getLsbD (31 - n) then 0 else 1 + trailingZeros a n

/-- Bit `i` moved to bit 31 − `i` (07 R175). -/
def reverseBits (a : Word) : Word :=
  (List.range 32).foldl (fun acc i => if a.getLsbD i then acc ||| BitVec.twoPow 32 (31 - i) else acc) 0

/-- The offset of a field operand (07 R176). -/
def fieldOffset (b : Word) : Nat := (b.extractLsb 4 0).toNat

/-- The length of a field operand (07 R176). -/
def fieldLength (b : Word) : Nat := (b.extractLsb 12 8).toNat

/-- `bfe`: the field zero-extended (07 R176). -/
def extractField (a b : Word) : Word := BitVec.ofNat 32 (a.toNat / 2 ^ fieldOffset b % 2 ^ fieldLength b)

/-- `bfe.s`: the field extended from its bit n − 1 (07 R176). -/
def extractFieldSigned (a b : Word) : Word :=
  let n := fieldLength b
  let y := (extractField a b).toNat
  if n = 0 then 0 else if y < 2 ^ (n - 1) then BitVec.ofNat 32 y else BitVec.ofInt 32 (y - 2 ^ n)

/-- `bfi`: a field of `a` into `d`, cut at bit 31 (07 R176). -/
def insertField (d a b : Word) : Word :=
  let mask : Word := BitVec.ofNat 32 ((2 ^ fieldLength b - 1) * 2 ^ fieldOffset b)
  (d &&& ~~~mask) ||| ((a <<< fieldOffset b) &&& mask)

/-- `lea`: a pair plus a zero-extended register shifted left (07 R172). -/
def leaSum (a : DWord) (b : Word) (n : Nat) : DWord := a + (b.setWidth 64 <<< n)

end Sys2Proof.Machine
end

