-- ==== Sys2Proof/Machine/Functions.lean ====
section
/-!
DEFINITION. Quotients, roots and the transcendental functions, determined exactly enough for every rounding (08 R197-R199).
A quotient or root is given by its leading bits and whether more follow. A transcendental value is enclosed in an interval of
growing precision until its 64 leading bits are settled (log 16).
-/
namespace Sys2Proof.Machine

/-- The leading bits of ma × 2^ea / (mb × 2^eb), at least 160 of them. -/
def quotientNum (neg : Bool) (ma : Nat) (ea : Int) (mb : Nat) (eb : Int) : Num :=
  let k := 160 + mb.log2
  let n := ma * 2 ^ k
  .num neg (n / mb) (ea - eb - (k : Int)) (n % mb != 0)

/-- `fdiv` (08 R197). -/
def divNum (x y : Num) : Num × Flags :=
  match x, y with
  | .nan _, _ => (.canonical, 0)
  | _, .nan _ => (.canonical, 0)
  | .inf _, .inf _ => (.canonical, 1)
  | .inf a, .num b _ _ _ => (.inf (a != b), 0)
  | .num a _ _ _, .inf b => (.zero (a != b), 0)
  | .num a ma ea _, .num b mb eb _ =>
    if mb = 0 then (if ma = 0 then (.canonical, 1) else (.inf (a != b), 2))
    else if ma = 0 then (.zero (a != b), 0)
    else (quotientNum (a != b) ma ea mb eb, 0)

/-- The integer square root of `n`, given that it is below 2^bits. -/
def isqrt (n : Nat) : Nat → Nat → Nat
  | 0, r => r
  | k + 1, r => if (r + 2 ^ k) * (r + 2 ^ k) ≤ n then isqrt n k (r + 2 ^ k) else isqrt n k r

/-- The square root of m × 2^e, m nonzero. -/
def rootNum (m : Nat) (e : Int) : Num :=
  -- an even exponent, and 320 bits more than m has
  let odd := e % 2 != 0
  let m1 := if odd then 2 * m else m
  let e1 := if odd then e - 1 else e
  let n := m1 * 2 ^ 320
  let r := isqrt n ((n.log2 + 2) / 2 + 1) 0
  .num false r (e1 / 2 - 160) (r * r != n)

/-- `fsqrt` (08 R197). -/
def sqrtNum (x : Num) : Num × Flags :=
  match x with
  | .nan _ => (.canonical, 0)
  | .inf neg => if neg then (.canonical, 1) else (.inf false, 0)
  | .num neg m e _ => if m = 0 then (x, 0) else if neg then (.canonical, 1) else (rootNum m e, 0)

/-- `frcp` (08 R198, R199). -/
def rcpNum (x : Num) : Num × Flags := divNum (.num false 1 0 false) x

/-- `frsq` (08 R198, R199). -/
def rsqNum (x : Num) : Num × Flags :=
  match x with
  | .nan _ => (.canonical, 0)
  | .inf neg => if neg then (.canonical, 1) else (.zero false, 0)
  | .num neg m e _ =>
    if m = 0 then (.inf neg, 2)
    else if neg then (.canonical, 1)
    else
      -- 1 / √(m1 × 2^e1) with e1 even: the root of 2^(2k) / m1
      let odd := e % 2 != 0
      let m1 := if odd then 2 * m else m
      let e1 := if odd then e - 1 else e
      let k := 200 + m1.log2
      let n := 2 ^ (2 * k) / m1
      let r := isqrt n ((n.log2 + 2) / 2 + 1) 0
      (.num false r (-(e1 / 2) - (k : Int)) (r * r * m1 != 2 ^ (2 * k)), 0)

/-! ### Fixed-point series, `w` bits after the point -/

/-- ln 2, below by at most `w + 8` units. -/
def ln2Fixed (w : Nat) : Nat := (List.range (w + 8)).foldl (fun acc i => acc + 2 ^ w / ((i + 1) * 2 ^ (i + 1))) 0

/-- atan(1/n), within 2 units for each term. -/
def atanInv (w n : Nat) : Nat → Nat → Int
  | 0, _ => 0
  | fuel + 1, k =>
    let term : Int := ((2 ^ w / ((2 * k + 1) * n ^ (2 * k + 1)) : Nat) : Int)
    (if k % 2 = 0 then term else -term) + atanInv w n fuel (k + 1)

/-- π, within a small multiple of the number of terms. -/
def piFixed (w : Nat) : Nat := (16 * atanInv w 5 (w / 4 + 4) 0 - 4 * atanInv w 239 (w / 14 + 4) 0).toNat

/-- The terms of e^y from term k on, y in [0, 1). -/
def expTerms (w y : Nat) : Nat → Nat → Nat → Nat
  | 0, _, _ => 0
  | fuel + 1, k, term => term + expTerms w y fuel (k + 1) (term * y / 2 ^ w / (k + 1))

/-- The terms of sin y from term k on, y in [0, 2); `term` is the present power over its factorial. -/
def sinTerms (w y2 : Nat) : Nat → Nat → Nat → Int
  | 0, _, _ => 0
  | fuel + 1, k, term =>
    (if k % 2 = 0 then (term : Int) else -(term : Int)) +
      sinTerms w y2 fuel (k + 1) (term * y2 / 2 ^ w / ((2 * k + 2) * (2 * k + 3)))

/-- The terms of atanh z from term k on, z in [0, 1/2). -/
def atanhTerms (w z2 : Nat) : Nat → Nat → Nat → Nat
  | 0, _, _ => 0
  | fuel + 1, k, power => power / (2 * k + 1) + atanhTerms w z2 fuel (k + 1) (power * z2 / 2 ^ w)

/-- Leading bits of a value known within 2^24 units of 2^-w: its 64 leading bits when they are settled. -/
def settle (v w : Nat) : Option (Nat × Int) :=
  let t := v.log2 - 63
  if v.log2 < 100 then none
  else if (v - 2 ^ 24) / 2 ^ t = (v + 2 ^ 24) / 2 ^ t then some (v / 2 ^ t, (t : Int) - (w : Int)) else none

/-- The precisions tried, in bits. -/
def precisions : List Nat := [128, 256, 512, 1024, 2048]

/-- The first precision that settles the value given by `f`, or the free value (log 16). -/
def refine (f : Nat → Nat) (seed : Nat) (e : Int) : List Nat → Nat × Int
  | [] => (Config.unsettled seed e, e - 64)
  | w :: rest =>
    match settle (f w) w with
    | some r => r
    | none => refine f seed e rest

/-- 2^f for a fraction f = n / 2^d in (0, 1), in fixed point. -/
def exp2Fixed (n d w : Nat) : Nat :=
  let y := n * ln2Fixed w / 2 ^ d
  expTerms w y (w / 2 + 20) 0 (2 ^ w)

/-- `fexp2` (08 R198, R199). -/
def exp2Num (x : Num) : Num × Flags :=
  match x with
  | .nan _ => (.canonical, 0)
  | .inf neg => (if neg then .zero false else .inf false, 0)
  | .num neg m e _ =>
    if m = 0 then (.num false 1 0 false, 0)
    else
      -- the operand as n + f / 2^d with 0 ≤ f < 2^d, n kept within a range beyond every format's exponents
      let d := (-e).toNat
      let whole : Int := if neg then -((m * 2 ^ e.toNat : Nat) : Int) else ((m * 2 ^ e.toNat : Nat) : Int)
      let n := whole / (2 ^ d : Nat)
      let f := (whole % (2 ^ d : Nat)).toNat
      if n > 4000 then (.num false 1 4000 false, 0)
      else if n < -4000 then (.num false 1 (-4000) true, 0)
      else if f = 0 then (.num false 1 n false, 0)
      else
        let (v, k) := refine (exp2Fixed f d) m e precisions
        (.num false v (n + k) true, 0)

/-- |log₂(m × 2^e)| in fixed point, m not a power of two; the flag is the sign. -/
def log2Fixed (m : Nat) (e : Int) (w : Nat) : Bool × Nat :=
  let top := m.log2
  -- m / 2^top = (1 + z) / (1 - z)
  let z := (m - 2 ^ top) * 2 ^ w / (m + 2 ^ top)
  let ln := 2 * atanhTerms w (z * z / 2 ^ w) (w / 3 + 8) 0 z
  let frac := ln * 2 ^ w / ln2Fixed w
  let v : Int := ((top : Int) + e) * ((2 ^ w : Nat) : Int) + (frac : Int)
  (decide (v < 0), v.natAbs)

/-- `flog2` (08 R198, R199). -/
def log2Num (x : Num) : Num × Flags :=
  match x with
  | .nan _ => (.canonical, 0)
  | .inf neg => if neg then (.canonical, 1) else (.inf false, 0)
  | .num neg m e _ =>
    if m = 0 then (.inf true, 2)
    else if neg then (.canonical, 1)
    else
      let top := m.log2
      if m = 2 ^ top then
        let n : Int := (top : Int) + e
        (.num (decide (n < 0)) n.natAbs 0 false, 0)
      else
        let (v, k) := refine (fun w => (log2Fixed m e w).2) m e precisions
        (.num (log2Fixed m e 128).1 v k true, 0)

/-- sin(π × n / 2^d) for 0 < n / 2^d < 1/2, in fixed point. -/
def sinPiFixed (n d w : Nat) : Nat :=
  let y := n * piFixed w / 2 ^ d
  (sinTerms w (y * y / 2 ^ w) (w / 3 + 20) 0 y).toNat

/-- sin(π × (n / 2^d)) for a nonnegative angle: exact at the multiples of one half. `zero` is the sign of a zero result. -/
def sinPiNum (n d : Nat) (zero : Bool) : Num :=
  let unit := 2 ^ d
  let r := n % (2 * unit)
  let neg := decide (r ≥ unit)
  let a := if neg then r - unit else r
  -- the first quadrant: an angle of at most one half
  let b := if 2 * a > unit then unit - a else a
  if b = 0 then .zero zero
  else if 2 * b = unit then .num neg 1 0 false
  else
    let (v, k) := refine (sinPiFixed b d) b (-(d : Int)) precisions
    .num neg v k true

/-- `fsin` (08 R198, R199). -/
def sinNum (x : Num) : Num × Flags :=
  match x with
  | .nan _ => (.canonical, 0)
  | .inf _ => (.canonical, 1)
  | .num neg m e _ =>
    if m = 0 then (x, 0)
    else
      match sinPiNum (m * 2 ^ e.toNat) (-e).toNat false with
      | .num s v k st => if v = 0 then (.zero neg, 0) else (.num (s != neg) v k st, 0)
      | y => (y, 0)

/-- `fcos` (08 R198, R199): cos(π a) = sin(π (|a| + 1/2)). -/
def cosNum (x : Num) : Num × Flags :=
  match x with
  | .nan _ => (.canonical, 0)
  | .inf _ => (.canonical, 1)
  | .num _ m e _ =>
    if m = 0 then (.num false 1 0 false, 0)
    else
      let d := (-e).toNat + 1
      (sinPiNum (m * 2 ^ e.toNat * 2 + 2 ^ (d - 1)) d false, 0)

/-- The operand rounded to an integer by a mode, keeping its sign on zero; `frint` under its effective mode and `ffloor` (08
R198). `changed` says that the result differs from the operand. -/
def integerNum (mode r : Nat) (x : Num) : Num × Bool :=
  match x with
  | .num neg m e st =>
    if m = 0 then (x, false)
    else
      let p := splitAt m e 0 st
      let m' := if p.up mode r neg then p.lo + 1 else p.lo
      (.num neg m' 0 false, !p.exact)
  | _ => (x, false)

end Sys2Proof.Machine
end

