-- ==== Sys2Proof/Machine/Flags.lean ====
section
/-!
DEFINITION. Floating-point exceptions: how an instruction's exceptions reach `fpflags`, and the traps they raise with their
collection window (01 R21, 06 R158, 19 R376, R377).
-/
namespace Sys2Proof.Machine

/-- The union of exceptions. -/
def joinFlags (fs : List Flags) : Flags := fs.foldl (fun a f => a ||| f) 0

/-- The exceptions ORed into `fpflags`, whether or not their traps are enabled (01 R21). -/
def Gang.addFlags (g : Gang) (f : Flags) : Gang := { g with fpflags := g.fpflags ||| f.setWidth 32 }

/-- The exceptions whose traps the trim enables (01 R16). -/
def Gang.enabledTraps (g : Gang) (f : Flags) : Flags := f &&& g.trim.extractLsb' 12 5

/-- The trap of the lowest code among some exceptions (19 R377). -/
def trapOfFlags (f : Flags) : Trap :=
  if f.getLsbD 0 then .fpInvalid else if f.getLsbD 1 then .fpDivzero else if f.getLsbD 2 then .fpOverflow
  else if f.getLsbD 3 then .fpUnderflow else .fpInexact

/-- The exception bit of a floating-point trap. -/
def flagOfTrap (t : Trap) : Flags :=
  match t with
  | .fpInvalid => 1 | .fpDivzero => 2 | .fpOverflow => 4 | .fpUnderflow => 8 | _ => 16

/-- The arrivals of a gang leave the rendezvous latches of its crew (09 R222). -/
def Crew.withdraw (c : Crew) (gang : Nat) : Crew :=
  { c with convoys := c.convoys.map fun e => { e with arrivals := e.arrivals.filter fun x => x.gang != gang } }

/-- A floating-point trap of a gang: it issues nothing further, what it has at a rendezvous latch is withdrawn, and the event enters the
collection window of its context on its core, which the first event opens for 32 clocks. After the window's close its record stands without
the origin flag (09 R222; 19 R376, R377). -/
def State.collect (s : State) (key : Nat) (g : Gang) (e : TrapEvent) (issued : Nat) : State :=
  let s0 := { s with crews := s.crews.update fun n c => if n = g.crew then c.withdraw key else c }
  let s1 := s0.setGang key { g with stop := some { s.stopRecord key g e with timestamp := issued } }
  if s.lineRaised g.ctx then s1
  else
    let core := s1.core (coreOf key)
    let event : WindowEvent :=
      { issued := issued, gang := key, cause := e.cause, lanes := maskOf e.lanes, address := e.address, pc := e.pc,
        trapPc := e.trapPc }
    let windows :=
      if core.windows.any fun w => w.ctx == g.ctx then
        core.windows.map fun w => if w.ctx == g.ctx then { w with events := w.events ++ [event] } else w
      else core.windows ++ [{ ctx := g.ctx, closes := s.clock + 32, events := [event] }]
    s1.setCore (coreOf key) { core with windows := windows }

/-- A floating-point instruction completes: the gang as `g`, the exceptions of each lane ORed into `fpflags`, and, where a
raised exception's trap is enabled, the stop after the instruction (06 R158, 08 R192, 19 R376). -/
def State.finishFloat (s : State) (g : Gang) (words : Nat) (lanes : List (Nat × Flags)) : Result :=
  let all := joinFlags (lanes.map (·.2))
  let g1 := g.addFlags all
  let s1 := s.advance g1 words
  let enabled := g.enabledTraps all
  if enabled = 0 then .next s1
  else
    match s1.gangs.find s.gang with
    | none => .next s1
    | some g2 =>
      let cause := trapOfFlags enabled
      let a := g.pc s.group
      .next (s1.collect s.gang g2
        { cause := cause, lanes := (lanes.filter fun x => x.2 &&& flagOfTrap cause != 0).map (·.1), address := 0, code := 0,
          origin := false, precise := false, pc := a + BitVec.ofNat 64 (4 * words), trapPc := a } s.timestamp)

/-- The first event of a window by issue time, then gang field, then lowest lane (19 R377). -/
def originOf : List WindowEvent → Option WindowEvent
  | [] => none
  | e :: rest =>
    match originOf rest with
    | none => some e
    | some f =>
      let low (m : DWord) : Nat := (lanesOf m 64).headD 64
      if f.issued < e.issued ∨ (f.issued = e.issued ∧ (gangField f.gang < gangField e.gang ∨
          (gangField f.gang = gangField e.gang ∧ low f.lanes < low e.lanes))) then some f else some e

/-- Closes the collection window of a context on a core: the origin's record takes the number of events, capped at 255, and, where it is
this close that raises the halt line, the origin flag; the line rises with its cause (19 R372, R377). At a close that another stop or a
forced halt brings about, no record of the window has the flag (DESIGN CHOICE, log 37: R377 gives it to the window's origin, and R372 to the
event that raised the line, which was another). -/
def State.closeWindow (s : State) (core ctx : Nat) : State :=
  let c := s.core core
  match c.windows.find? fun w => w.ctx == ctx with
  | none => s
  | some w =>
    let s1 := s.setCore core { c with windows := c.windows.filter fun x => x.ctx != ctx }
    match originOf w.events with
    | none => s1
    | some e =>
      let s2 :=
        match s1.gangs.find e.gang with
        | none => s1
        | some g =>
          let mark (r : StopRecord) : StopRecord := { r with flags := r.flags ||| s.originFlag ctx, code := min w.events.length 255 }
          s1.setGang e.gang { g with stop := g.stop.map mark }
      s2.raiseLine ctx e.cause

/-- COLLECTION_WINDOW_CLOSE (19 R377). Subject: `who` is the core, `what` the context. It comes about once the window's 32
clocks have passed, or at once when the context's halt line has been raised by anything else. -/
def execCollectionWindowClose (s : State) : Result :=
  let core := s.subject.who
  match (s.core core).windows.find? fun w => w.ctx == s.subject.what with
  | none => .next s
  | some w => if w.closes ≤ s.clock || s.lineRaised w.ctx then .next (s.closeWindow core w.ctx) else .next s

end Sys2Proof.Machine
end

