-- ==== Sys2Proof/Machine/Float.lean ====
section
/-!
DEFINITION. Element layouts and the shapes of floating-point vector instruction (08 R190-R206); each shape takes the modifier
of a modified pair, which then counts two words (02 R49).
-/
namespace Sys2Proof.Machine

/-- Instruction words of an instruction with or without its modifier. -/
def wordsOf (m : Option Modifier) : Nat := if m.isSome then 2 else 1

/-- Element type: format A of the slot that the trim selects (08 R190). -/
def State.elementCode (s : State) (g : Gang) : Nat := ((s.slotWord g g.slotIndex).extractLsb 3 0).toNat

/-- What a rounding in a lane depends on (06 R165). -/
def State.fpEnv (s : State) (g : Gang) (lane : Nat) (m : Option Modifier) : FpEnv where
  mode := (g.trim.extractLsb 10 8).toNat
  flush := g.trim.getLsbD 11
  seed := match s.crews.find g.crew with
    | none => 0
    | some c => c.record.seed (g.trim.extractLsb 19 17).toNat
  key := g.srkey.get lane
  outliers := (s.slotWord g g.slotIndex).getLsbD 10
  modifier := m

/-- The element types of arithmetic: FP64, FP32, FP16, BF16 (08 R191). -/
def arithmeticCode (code : Nat) : Bool := decide (code ≤ 2) || code == 8

/-- The element types of the transcendental functions (08 R191). -/
def functionCode (code : Nat) : Bool := decide (code ≤ 2)

/-- The floating-point element types (08 R191). -/
def floatCode (code : Nat) : Bool := isFloat code

/-- Registers an operand of the element type takes: a pair for FP64 (08 R190). -/
def elementRegs (code r : Nat) : List Nat := if code = 8 then [r, r + 1] else [r]

/-- Elements of an arithmetic operand: a packed pair for FP16 and BF16 (08 R190). -/
def elementCount (code : Nat) : Nat := if code = 1 ∨ code = 2 then 2 else 1

/-- Bits of element j of an arithmetic operand in a lane (08 R190). -/
def Gang.element (g : Gang) (code r l j : Nat) : Nat :=
  if code = 8 then (g.vpair r l).toNat
  else if code = 1 ∨ code = 2 then (g.vreg r l).toNat / 2 ^ (16 * j) % 65536
  else (g.vreg r l).toNat

/-- Element values of a lane joined into the 64 bits of its destination registers. -/
def joinElements (code : Nat) (xs : List Nat) : DWord :=
  match xs with
  | [] => 0
  | [x] => BitVec.ofNat 64 x
  | x :: y :: _ => if code = 8 then BitVec.ofNat 64 x else BitVec.ofNat 64 (x + 65536 * y)

/-- Writes the elements of an arithmetic result to a lane set. -/
def Gang.setElements (g : Gang) (code r : Nat) (lanes : List Nat) (f : Nat → List Nat) : Gang :=
  if code = 8 then g.setVpair r lanes fun l => joinElements code (f l)
  else g.setV r lanes fun l => lowWord (joinElements code (f l))

/-- The needs of an instruction on v registers of the element type. -/
def elementNeeds (code : Nat) (regs : List Nat) (accept : Nat → Bool) : Needs :=
  { v := regs.flatMap (elementRegs code), even := if code = 8 then regs else [], format := accept code }

/-- A function of one element: the environment of its lane, its number in the lane, the source elements' bits; it gives the
result's bits and exceptions. -/
abbrev ElementFn := FpEnv → Nat → Nat → List Nat → Nat × Flags

/-- An instruction computed element by element from source registers into the destination (08 R192). -/
def elementwise (s : State) (m : Option Modifier) (d : Nat) (srcs : List Nat) (accept : Nat → Bool) (f : ElementFn) :
    Result :=
  gate s (fun g => elementNeeds (s.elementCode g) (d :: srcs) accept) fun g =>
    let code := s.elementCode g
    let lanes := g.active s.group
    let results (l : Nat) : List (Nat × Flags) :=
      (List.range (elementCount code)).map fun j => f (s.fpEnv g l m) code j (srcs.map fun r => g.element code r l j)
    s.finishFloat (g.setElements code d lanes fun l => (results l).map (·.1)) (wordsOf m)
      (lanes.map fun l => (l, joinFlags ((results l).map (·.2))))

/-- An operand of the element type as a value, flushed when the trim says so. -/
def FpEnv.read (env : FpEnv) (code bits : Nat) : Num := operand code env.flush bits

/-- A sum, product or fused value of the source elements, rounded once (08 R195). -/
def exactly (f : FpEnv → List Num → Num × Flags) : ElementFn := fun env code j xs =>
  let (x, own) := f env (xs.map fun b => env.read code b)
  env.result code j x (own ||| nanFlags code xs)

/-- Two operands of a list. -/
def two (xs : List Num) : Num × Num := (xs.getD 0 .canonical, xs.getD 1 .canonical)

/-- a + b. -/
def fnAdd : ElementFn := exactly fun env xs => addNum env.effective (two xs).1 (two xs).2

/-- a − b. -/
def fnSub : ElementFn := exactly fun env xs => addNum env.effective (two xs).1 (negNum (two xs).2)

/-- a × b. -/
def fnMul : ElementFn := exactly fun _ xs => mulNum (two xs).1 (two xs).2

/-- a × b + d; sources a, b, d. -/
def fnFma : ElementFn := exactly fun env xs => fmaNum env.effective (two xs).1 (two xs).2 (xs.getD 2 .canonical)

/-- a × b − d. -/
def fnFms : ElementFn := exactly fun env xs => fmaNum env.effective (two xs).1 (two xs).2 (negNum (xs.getD 2 .canonical))

/-- −(a × b) + d. -/
def fnFnma : ElementFn := exactly fun env xs => fmaNum env.effective (negNum (two xs).1) (two xs).2 (xs.getD 2 .canonical)

/-- a / b. -/
def fnDiv : ElementFn := exactly fun _ xs => divNum (two xs).1 (two xs).2

/-- A function of one operand. -/
def fnUnary (f : Num → Num × Flags) : ElementFn := exactly fun _ xs => f (two xs).1

/-- −0 below +0, otherwise by value (08 R196). -/
def numBelow (x y : Num) : Bool :=
  let c := compareNum x y
  if c = 0 then
    match x, y with
    | .num a m _ _, .num b _ _ _ => m == 0 && a && !b
    | _, _ => false
  else decide (c < 0)

/-- The operand that minimum or maximum selects: its bits (as flushed), or none for the canonical NaN (08 R196). -/
def pickMinMax (code : Nat) (flush larger numForm : Bool) (a b : Nat) : Option Nat :=
  let x := operand code flush a
  let y := operand code flush b
  let kept (bits : Nat) : Nat :=
    if flush && flushable code && classOf code bits == .subnormal then signBit code (signOf code bits) else bits
  match x, y with
  | .nan _, .nan _ => none
  | .nan _, _ => if numForm then some (kept b) else none
  | _, .nan _ => if numForm then some (kept a) else none
  | _, _ => if numBelow x y != larger then some (kept a) else some (kept b)

/-- `fmin`, `fmax`, `fminnum`, `fmaxnum`: one operand unchanged, or the canonical NaN; under a modifier the selected value goes
through it (08 R196, R206). -/
def fnMinMax (larger numForm : Bool) : ElementFn := fun env code j xs =>
  let own := nanFlags code xs
  match pickMinMax code env.flush larger numForm (xs.getD 0 0) (xs.getD 1 0) with
  | none => if env.modifier.isSome then env.result code j .canonical own else (encodeNan code false, own)
  | some bits => if env.modifier.isSome then env.result code j (decodeNum code bits) own else (bits, own)

/-- `frint` and `ffloor`: the integer, delivered rounded once; `frint` raises inexact when it differs from the operand (08
R198), but not under a modifier, whose single rounding alone then raises it (02 R48; log 33). -/
def fnInteger (floor : Bool) : ElementFn := fun env code j xs =>
  let x := env.read code (xs.getD 0 0)
  let own := nanFlags code xs
  let (y, changed) := integerNum (if floor then 3 else env.effective) (env.draw j) x
  match x with
  | .nan _ => env.result code j .canonical own
  | _ => env.result code j y (own ||| (if changed && !floor && env.modifier.isNone then 16 else 0))

/-- `fscale`: a × 2^n, rounded once (08 R200); the second source is n. -/
def scaleNum (x : Num) (n : Int) : Num :=
  match x with
  | .num neg m e st => if m = 0 && !st then x else .num neg m (e + n) st
  | .nan _ => .canonical
  | y => y

end Sys2Proof.Machine
end

