-- ==== Sys2Proof/Machine/Vector.lean ====
section
/-!
DEFINITION. The instructions of 08: arithmetic, functions, comparison, conversion, packing, dot products, random bits,
shuffles, reductions and scans (08 R194-R213). The operations named `…With` take the modifier of a modified pair.
-/
namespace Sys2Proof.Machine

/-- a + b (08 R195). -/
def faddWith (m : Option Modifier) (d a b : BitVec 7) (s : State) : Result :=
  elementwise s m d.toNat [a.toNat, b.toNat] arithmeticCode fnAdd

/-- a + b (08 R195). -/
def execFadd (d a b : BitVec 7) (s : State) : Result := faddWith none d a b s

/-- a − b (08 R195). -/
def fsubWith (m : Option Modifier) (d a b : BitVec 7) (s : State) : Result :=
  elementwise s m d.toNat [a.toNat, b.toNat] arithmeticCode fnSub

/-- a − b (08 R195). -/
def execFsub (d a b : BitVec 7) (s : State) : Result := fsubWith none d a b s

/-- a × b (08 R195). -/
def fmulWith (m : Option Modifier) (d a b : BitVec 7) (s : State) : Result :=
  elementwise s m d.toNat [a.toNat, b.toNat] arithmeticCode fnMul

/-- a × b (08 R195). -/
def execFmul (d a b : BitVec 7) (s : State) : Result := fmulWith none d a b s

/-- a × b + d, rounded once (08 R195). -/
def fmaWith (m : Option Modifier) (d a b : BitVec 7) (s : State) : Result :=
  elementwise s m d.toNat [a.toNat, b.toNat, d.toNat] arithmeticCode fnFma

/-- a × b + d, rounded once (08 R195). -/
def execFma (d a b : BitVec 7) (s : State) : Result := fmaWith none d a b s

/-- a × b − d, rounded once (08 R195). -/
def fmsWith (m : Option Modifier) (d a b : BitVec 7) (s : State) : Result :=
  elementwise s m d.toNat [a.toNat, b.toNat, d.toNat] arithmeticCode fnFms

/-- a × b − d, rounded once (08 R195). -/
def execFms (d a b : BitVec 7) (s : State) : Result := fmsWith none d a b s

/-- −(a × b) + d, rounded once (08 R195). -/
def fnmaWith (m : Option Modifier) (d a b : BitVec 7) (s : State) : Result :=
  elementwise s m d.toNat [a.toNat, b.toNat, d.toNat] arithmeticCode fnFnma

/-- −(a × b) + d, rounded once (08 R195). -/
def execFnma (d a b : BitVec 7) (s : State) : Result := fnmaWith none d a b s

/-- The smaller operand; a NaN propagates (08 R196). -/
def fminWith (m : Option Modifier) (d a b : BitVec 7) (s : State) : Result :=
  elementwise s m d.toNat [a.toNat, b.toNat] arithmeticCode (fnMinMax false false)

/-- The smaller operand; a NaN propagates (08 R196). -/
def execFmin (d a b : BitVec 7) (s : State) : Result := fminWith none d a b s

/-- The larger operand; a NaN propagates (08 R196). -/
def fmaxWith (m : Option Modifier) (d a b : BitVec 7) (s : State) : Result :=
  elementwise s m d.toNat [a.toNat, b.toNat] arithmeticCode (fnMinMax true false)

/-- The larger operand; a NaN propagates (08 R196). -/
def execFmax (d a b : BitVec 7) (s : State) : Result := fmaxWith none d a b s

/-- The smaller operand; a NaN gives the other one (08 R196). -/
def fminnumWith (m : Option Modifier) (d a b : BitVec 7) (s : State) : Result :=
  elementwise s m d.toNat [a.toNat, b.toNat] arithmeticCode (fnMinMax false true)

/-- The smaller operand; a NaN gives the other one (08 R196). -/
def execFminnum (d a b : BitVec 7) (s : State) : Result := fminnumWith none d a b s

/-- The larger operand; a NaN gives the other one (08 R196). -/
def fmaxnumWith (m : Option Modifier) (d a b : BitVec 7) (s : State) : Result :=
  elementwise s m d.toNat [a.toNat, b.toNat] arithmeticCode (fnMinMax true true)

/-- The larger operand; a NaN gives the other one (08 R196). -/
def execFmaxnum (d a b : BitVec 7) (s : State) : Result := fmaxnumWith none d a b s

/-- a / b, correctly rounded (08 R197). -/
def fdivWith (m : Option Modifier) (d a b : BitVec 7) (s : State) : Result :=
  elementwise s m d.toNat [a.toNat, b.toNat] arithmeticCode fnDiv

/-- a / b, correctly rounded (08 R197). -/
def execFdiv (d a b : BitVec 7) (s : State) : Result := fdivWith none d a b s

/-- √a, correctly rounded (08 R197). -/
def fsqrtWith (m : Option Modifier) (d a : BitVec 7) (s : State) : Result :=
  elementwise s m d.toNat [a.toNat] arithmeticCode (fnUnary sqrtNum)

/-- √a, correctly rounded (08 R197). -/
def execFsqrt (d a : BitVec 7) (s : State) : Result := fsqrtWith none d a s

/-- 1 / a (08 R198). -/
def frcpWith (m : Option Modifier) (d a : BitVec 7) (s : State) : Result :=
  elementwise s m d.toNat [a.toNat] arithmeticCode (fnUnary rcpNum)

/-- 1 / a (08 R198). -/
def execFrcp (d a : BitVec 7) (s : State) : Result := frcpWith none d a s

/-- 1 / √a (08 R198). -/
def frsqWith (m : Option Modifier) (d a : BitVec 7) (s : State) : Result :=
  elementwise s m d.toNat [a.toNat] arithmeticCode (fnUnary rsqNum)

/-- 1 / √a (08 R198). -/
def execFrsq (d a : BitVec 7) (s : State) : Result := frsqWith none d a s

/-- 2^a (08 R198). -/
def fexp2With (m : Option Modifier) (d a : BitVec 7) (s : State) : Result :=
  elementwise s m d.toNat [a.toNat] functionCode (fnUnary exp2Num)

/-- 2^a (08 R198). -/
def execFexp2 (d a : BitVec 7) (s : State) : Result := fexp2With none d a s

/-- log₂ a (08 R198). -/
def flog2With (m : Option Modifier) (d a : BitVec 7) (s : State) : Result :=
  elementwise s m d.toNat [a.toNat] functionCode (fnUnary log2Num)

/-- log₂ a (08 R198). -/
def execFlog2 (d a : BitVec 7) (s : State) : Result := flog2With none d a s

/-- sin(π a) (08 R198). -/
def fsinWith (m : Option Modifier) (d a : BitVec 7) (s : State) : Result :=
  elementwise s m d.toNat [a.toNat] functionCode (fnUnary sinNum)

/-- sin(π a) (08 R198). -/
def execFsin (d a : BitVec 7) (s : State) : Result := fsinWith none d a s

/-- cos(π a) (08 R198). -/
def fcosWith (m : Option Modifier) (d a : BitVec 7) (s : State) : Result :=
  elementwise s m d.toNat [a.toNat] functionCode (fnUnary cosNum)

/-- cos(π a) (08 R198). -/
def execFcos (d a : BitVec 7) (s : State) : Result := fcosWith none d a s

/-- a rounded to an integer under the effective mode (08 R198). -/
def frintWith (m : Option Modifier) (d a : BitVec 7) (s : State) : Result :=
  elementwise s m d.toNat [a.toNat] arithmeticCode (fnInteger false)

/-- a rounded to an integer under the effective mode (08 R198). -/
def execFrint (d a : BitVec 7) (s : State) : Result := frintWith none d a s

/-- The largest integer not above a (08 R198). -/
def ffloorWith (m : Option Modifier) (d a : BitVec 7) (s : State) : Result :=
  elementwise s m d.toNat [a.toNat] arithmeticCode (fnInteger true)

/-- The largest integer not above a (08 R198). -/
def execFfloor (d a : BitVec 7) (s : State) : Result := ffloorWith none d a s

/-! ### Comparison and classification (08 R201, R202) -/

/-- A comparison of element 0 into a predicate; `strict` raises invalid for any NaN. -/
def floatCompare (s : State) (d a b : Nat) (strict : Bool) (f : Bool → Int → Bool) : Result :=
  gate s (fun g => elementNeeds (s.elementCode g) [a, b] arithmeticCode) fun g =>
    let code := s.elementCode g
    let lanes := g.active s.group
    let flush := g.trim.getLsbD 11
    let bits (l : Nat) : List Nat := [g.element code a l 0, g.element code b l 0]
    let isNan (x : Num) : Bool := match x with
      | .nan _ => true
      | _ => false
    let vals (l : Nat) : Num × Num := two ((bits l).map fun x => operand code flush x)
    let unordered (l : Nat) : Bool := isNan (vals l).1 || isNan (vals l).2
    s.finishFloat (g.setP d lanes fun l => f (unordered l) (compareNum (vals l).1 (vals l).2)) 1
      (lanes.map fun l => (l, if strict && unordered l then 1 else nanFlags code (bits l)))

/-- Predicate: a = b (08 R201). -/
def execFcmpEq (d : BitVec 4) (a b : BitVec 7) (s : State) : Result :=
  floatCompare s d.toNat a.toNat b.toNat false fun u c => !u && c == 0

/-- Predicate: a ≠ b, or unordered (08 R201). -/
def execFcmpNe (d : BitVec 4) (a b : BitVec 7) (s : State) : Result :=
  floatCompare s d.toNat a.toNat b.toNat false fun u c => u || c != 0

/-- Predicate: a < b; invalid for any NaN (08 R201). -/
def execFcmpLt (d : BitVec 4) (a b : BitVec 7) (s : State) : Result :=
  floatCompare s d.toNat a.toNat b.toNat true fun u c => !u && decide (c < 0)

/-- Predicate: a ≤ b; invalid for any NaN (08 R201). -/
def execFcmpLe (d : BitVec 4) (a b : BitVec 7) (s : State) : Result :=
  floatCompare s d.toNat a.toNat b.toNat true fun u c => !u && decide (c ≤ 0)

/-- Predicate: unordered (08 R201). -/
def execFcmpUn (d : BitVec 4) (a b : BitVec 7) (s : State) : Result :=
  floatCompare s d.toNat a.toNat b.toNat false fun u _ => u

/-- Predicate: ordered (08 R201). -/
def execFcmpOrd (d : BitVec 4) (a b : BitVec 7) (s : State) : Result :=
  floatCompare s d.toNat a.toNat b.toNat false fun u _ => !u

/-- Predicate: a < b, or unordered (08 R201). -/
def execFcmpLtu (d : BitVec 4) (a b : BitVec 7) (s : State) : Result :=
  floatCompare s d.toNat a.toNat b.toNat false fun u c => u || decide (c < 0)

/-- Predicate: a ≤ b, or unordered (08 R201). -/
def execFcmpLeu (d : BitVec 4) (a b : BitVec 7) (s : State) : Result :=
  floatCompare s d.toNat a.toNat b.toNat false fun u c => u || decide (c ≤ 0)

/-- The class mask of a stored value (08 R202). -/
def classMask (code bits : Nat) : Nat :=
  let neg := signOf code bits
  match classOf code bits with
  | .infinite => if neg then 1 else 128
  | .normal => if neg then 2 else 64
  | .subnormal => if neg then 4 else 32
  | .zero => if neg then 8 else 16
  | .signalling => 256
  | .quiet => 512

/-- `fclass` (08 R202). -/
def execFclass (d a : BitVec 7) (s : State) : Result :=
  gate s (fun g =>
    let n := elementNeeds (s.elementCode g) [a.toNat] arithmeticCode
    { n with v := d.toNat :: n.v }) fun g =>
    let code := s.elementCode g
    s.finish (g.setV d.toNat (g.active s.group) fun l =>
      if elementCount code = 2 then
        BitVec.ofNat 32 (classMask code (g.element code a.toNat l 0) + 65536 * classMask code (g.element code a.toNat l 1))
      else BitVec.ofNat 32 (classMask code (g.element code a.toNat l 0)))

/-! ### Conversion (08 R203-R205): one element a lane, in the low bits -/

/-- The low bits of a lane's register that hold an element of a type (08 R190). -/
def Gang.lowElement (g : Gang) (code r l : Nat) : Nat :=
  if code = 8 then (g.vpair r l).toNat else (g.vreg r l).toNat % 2 ^ formatWidth code

/-- Writes one element a lane, bits above it zero (08 R190). -/
def Gang.setLow (g : Gang) (code r : Nat) (lanes : List Nat) (f : Nat → Nat) : Gang :=
  if code = 8 then g.setVpair r lanes fun l => BitVec.ofNat 64 (f l) else g.setV r lanes fun l => BitVec.ofNat 32 (f l)

/-- The value converted between two formats; equal formats keep every bit, but make a signalling NaN canonical (08 R203; log 31). -/
def convertElement (env : FpEnv) (src dst bits : Nat) : Nat × Flags :=
  let own := nanFlags src [bits]
  if src = dst && own == 0 && env.modifier.isNone then (bits, 0)
  else
    let q := match env.read src bits with
      | .nan _ => .canonical
      | x => x
    env.result dst 0 q own

/-- `cvt.fromN` (08 R203). -/
def cvtWith (m : Option Modifier) (d a : BitVec 7) (f : BitVec 3) (s : State) : Result :=
  gate s (fun g =>
    let dst := s.elementCode g
    let src := ((s.slotWord g f.toNat).extractLsb 3 0).toNat
    { v := elementRegs dst d.toNat ++ elementRegs src a.toNat
      even := (if dst = 8 then [d.toNat] else []) ++ (if src = 8 then [a.toNat] else [])
      format := decide (dst ≤ 8) && decide (src ≤ 8) }) fun g =>
    let dst := s.elementCode g
    let src := ((s.slotWord g f.toNat).extractLsb 3 0).toNat
    let lanes := g.active s.group
    let r (l : Nat) : Nat × Flags := convertElement (s.fpEnv g l m) src dst (g.lowElement src a.toNat l)
    s.finishFloat (g.setLow dst d.toNat lanes fun l => (r l).1) (wordsOf m) (lanes.map fun l => (l, (r l).2))

/-- `cvt.fromN` (08 R203). -/
def execCvt (d a : BitVec 7) (f : BitVec 3) (s : State) : Result := cvtWith none d a f s

/-- A value rounded to a 32-bit integer; out of range and NaN raise invalid alone (08 R204). -/
def toInteger (signed : Bool) (mode r : Nat) (x : Num) (own : Flags) : Word × Flags :=
  let low : Int := if signed then -2147483648 else 0
  let high : Int := if signed then 2147483647 else 4294967295
  match x with
  | .nan _ => (0, 1)
  | .inf neg => (BitVec.ofInt 32 (if neg then low else high), 1)
  | .num _ _ _ _ =>
    let (y, fl) := roundNum 6 mode r x
    let v := y.toInt
    if v > high then (BitVec.ofInt 32 high, 1) else if v < low then (BitVec.ofInt 32 low, 1)
    else (BitVec.ofInt 32 v, own ||| fl)

/-- `cvti` and `cvti.u` (08 R204). -/
def convertToInt (s : State) (signed : Bool) (d a : Nat) : Result :=
  gate s (fun g =>
    let n := elementNeeds (s.elementCode g) [a] floatCode
    { n with v := d :: n.v }) fun g =>
    let code := s.elementCode g
    let lanes := g.active s.group
    let r (l : Nat) : Word × Flags :=
      let env := s.fpEnv g l none
      let bits := g.lowElement code a l
      toInteger signed env.mode (env.draw 0) (env.read code bits) (nanFlags code [bits])
    s.finishFloat (g.setV d lanes fun l => (r l).1) 1 (lanes.map fun l => (l, (r l).2))

/-- `cvti` (08 R204). -/
def execCvti (d a : BitVec 7) (s : State) : Result := convertToInt s true d.toNat a.toNat

/-- `cvti.u` (08 R204). -/
def execCvtiU (d a : BitVec 7) (s : State) : Result := convertToInt s false d.toNat a.toNat

/-- `cvtf` and `cvtf.u` (08 R205). -/
def convertFromInt (m : Option Modifier) (s : State) (signed : Bool) (d a : Nat) : Result :=
  gate s (fun g =>
    let n := elementNeeds (s.elementCode g) [d] floatCode
    { n with v := a :: n.v }) fun g =>
    let code := s.elementCode g
    let lanes := g.active s.group
    let r (l : Nat) : Nat × Flags :=
      let x := g.vreg a l
      let v : Int := if signed then x.toInt else (x.toNat : Int)
      (s.fpEnv g l m).result code 0 (.num (decide (v < 0)) v.natAbs 0 false) 0
    s.finishFloat (g.setLow code d lanes fun l => (r l).1) (wordsOf m) (lanes.map fun l => (l, (r l).2))

/-- `cvtf` (08 R205). -/
def cvtfWith (m : Option Modifier) (d a : BitVec 7) (s : State) : Result := convertFromInt m s true d.toNat a.toNat

/-- `cvtf.u` (08 R205). -/
def cvtfUWith (m : Option Modifier) (d a : BitVec 7) (s : State) : Result := convertFromInt m s false d.toNat a.toNat

/-- `cvtf` (08 R205). -/
def execCvtf (d a : BitVec 7) (s : State) : Result := cvtfWith none d a s

/-- `cvtf.u` (08 R205). -/
def execCvtfU (d a : BitVec 7) (s : State) : Result := cvtfUWith none d a s

/-! ### Packing (08 R207) -/

/-- `pack.n`: the low field of a into position i of d, i from b. -/
def packField (n : Nat) (d a b : Word) : Word :=
  let i := b.toNat % (32 / n)
  let mask : Word := BitVec.ofNat 32 ((2 ^ n - 1) * 2 ^ (n * i))
  (d &&& ~~~mask) ||| ((a <<< (n * i)) &&& mask)

/-- `unpack.n`: field i of a, zero-extended. -/
def unpackField (n : Nat) (a b : Word) : Word := BitVec.ofNat 32 (a.toNat / 2 ^ (n * (b.toNat % (32 / n))) % 2 ^ n)

/-- `pack.16` (08 R207). -/
def execPack16 (d a b : BitVec 7) (s : State) : Result :=
  ternary s false d.toNat a.toNat b.toNat (packField 16)

/-- `pack.8` (08 R207). -/
def execPack8 (d a b : BitVec 7) (s : State) : Result :=
  ternary s false d.toNat a.toNat b.toNat (packField 8)

/-- `pack.4` (08 R207). -/
def execPack4 (d a b : BitVec 7) (s : State) : Result :=
  ternary s false d.toNat a.toNat b.toNat (packField 4)

/-- `unpack.16` (08 R207). -/
def execUnpack16 (d a b : BitVec 7) (s : State) : Result :=
  ternary s false d.toNat a.toNat b.toNat fun _ x y => unpackField 16 x y

/-- `unpack.8` (08 R207). -/
def execUnpack8 (d a b : BitVec 7) (s : State) : Result :=
  ternary s false d.toNat a.toNat b.toNat fun _ x y => unpackField 8 x y

/-- `unpack.4` (08 R207). -/
def execUnpack4 (d a b : BitVec 7) (s : State) : Result :=
  ternary s false d.toNat a.toNat b.toNat fun _ x y => unpackField 4 x y

/-! ### Exponent histograms (06 R163, 08 R210) -/

/-- The bin of a stored value; an integer is binned by its value (06 R163). -/
def binOf (code bits : Nat) : Nat :=
  if isInteger code then
    match decodeNum code bits with
    | .num _ m _ _ => if m = 0 then 64 else m.log2 + 32
    | _ => 64
  else
    match classOf code bits with
    | .zero => 64
    | .subnormal => 65
    | .infinite => 66
    | .normal =>
      let e : Int := (bits / 2 ^ fractionBits code % 2 ^ exponentBits code : Nat) - (bias code : Int)
      (min (max e (-32)) 31 + 32).toNat
    | _ => 67

/-- Adds one, modulo 2³², to the counters of the given bins of a table in a crew's scratchpad (06 R163). -/
def State.countBins (s : State) (core : Nat) (crew : Crew) (table : Nat) (bins : List Nat) : State :=
  bins.foldl (fun acc i => acc.padWrite core crew (table + 4 * i) 4 (acc.padRead core crew (table + 4 * i) 4 + 1)) s

/-- The bins of the elements that `xhist` counts (08 R210). -/
def histBins (code : Nat) (g : Gang) (group a : Nat) : List Nat :=
  (g.active group).flatMap fun l =>
    if elementCount code = 2 then [binOf code (g.element code a l 0), binOf code (g.element code a l 1)]
    else [binOf code (g.lowElement code a l)]

/-- `xhist` (08 R210). -/
def execXhist (a b : BitVec 7) (s : State) : Result :=
  gate s (fun g =>
    let n := elementNeeds (s.elementCode g) [a.toNat] floatCode
    { n with s := [b.toNat] }) fun g =>
    match s.crews.find g.crew with
    | none => s.trap g .scratchpadRange
    | some crew =>
      let table := (g.sreg b.toNat).toNat
      if table % 4 ≠ 0 then s.trap g .misaligned
      else if crew.padSize < table + 272 then s.trap g .scratchpadRange
      else
        (s.countBins (coreOf s.gang) crew table (histBins (s.elementCode g) g s.group a.toNat)).finish g

/-! ### Dot products (08 R208) -/

/-- Exact sum of the element products onto an FP32 value, in element order. -/
def dotSum (mode : Nat) : List (Num × Num) → Num × Flags → Num × Flags
  | [], acc => acc
  | (x, y) :: rest, (v, f) =>
    let (p, f1) := mulNum x y
    let (v', f2) := addNum mode v p
    dotSum mode rest (v', f ||| f1 ||| f2)

/-- `dot2`, `dot4`, `dot8`: the exact sum rounded once to FP32 (08 R208). -/
def dotWith (m : Option Modifier) (accept : Nat → Bool) (d a b : Nat) (s : State) : Result :=
  gate s (fun g => { v := [d, a, b], format := accept (s.elementCode g) }) fun g =>
    let code := s.elementCode g
    let w := formatWidth code
    let lanes := g.active s.group
    let r (l : Nat) : Nat × Flags :=
      let env := s.fpEnv g l m
      let part (x : Word) (i : Nat) : Nat := x.toNat / 2 ^ (w * i) % 2 ^ w
      let pairs := (List.range (32 / w)).map fun i => (part (g.vreg a l) i, part (g.vreg b l) i)
      let own := nanFlags 0 [(g.vreg d l).toNat] ||| nanFlags code (pairs.flatMap fun p => [p.1, p.2])
      let (x, f) := dotSum env.effective (pairs.map fun p => (env.read code p.1, env.read code p.2))
        (env.read 0 (g.vreg d l).toNat, own)
      env.result 0 0 x f
    s.finishFloat (g.setV d lanes fun l => BitVec.ofNat 32 (r l).1) (wordsOf m) (lanes.map fun l => (l, (r l).2))

/-- The element types of `dot2`, `dot4` and `dot8` (08 R191). -/
def dot2Code (code : Nat) : Bool := code == 1 || code == 2
/-- FP8 and INT8. -/
def dot4Code (code : Nat) : Bool := code == 3 || code == 4 || code == 6
/-- E2M1 and INT4. -/
def dot8Code (code : Nat) : Bool := code == 5 || code == 7

/-- `dot2` (08 R208). -/
def dot2With (m : Option Modifier) (d a b : BitVec 7) (s : State) : Result :=
  dotWith m dot2Code d.toNat a.toNat b.toNat s

/-- `dot2` (08 R208). -/
def execDot2 (d a b : BitVec 7) (s : State) : Result := dot2With none d a b s

/-- `dot4` (08 R208). -/
def dot4With (m : Option Modifier) (d a b : BitVec 7) (s : State) : Result :=
  dotWith m dot4Code d.toNat a.toNat b.toNat s

/-- `dot4` (08 R208). -/
def execDot4 (d a b : BitVec 7) (s : State) : Result := dot4With none d a b s

/-- `dot8` (08 R208). -/
def dot8With (m : Option Modifier) (d a b : BitVec 7) (s : State) : Result :=
  dotWith m dot8Code d.toNat a.toNat b.toNat s

/-- `dot8` (08 R208). -/
def execDot8 (d a b : BitVec 7) (s : State) : Result := dot8With none d a b s

/-- `rng` (08 R209). -/
def execRng (d a b : BitVec 7) (s : State) : Result :=
  gate s (fun _ => { v := [d.toNat, a.toNat, b.toNat] }) fun g =>
    s.finish (g.setV d.toNat (g.active s.group) fun l =>
      hashH (s.fpEnv g l none).seed (g.vreg a.toNat l) (g.vreg b.toNat l).toNat)

/-! ### Shuffles (08 R211) -/

/-- A shuffle whose source lane is given by an s register. -/
def shuffle (s : State) (d a b : Nat) (source : Nat → Nat → Nat → Nat) : Result :=
  gate s (fun _ => { v := [d, a], s := [b] }) fun g =>
    s.finish (g.setV d (g.active s.group) fun l => g.vreg a (source g.width (g.sreg b).toNat l))

/-- `shfl.idx` (08 R211). -/
def execShflIdx (d a b : BitVec 7) (s : State) : Result :=
  gate s (fun _ => { v := [d.toNat, a.toNat, b.toNat] }) fun g =>
    s.finish (g.setV d.toNat (g.active s.group) fun l => g.vreg a.toNat ((g.vreg b.toNat l).toNat % g.width))

/-- `shfl.up` (08 R211). -/
def execShflUp (d a b : BitVec 7) (s : State) : Result :=
  shuffle s d.toNat a.toNat b.toNat fun _ n l => if n ≤ l then l - n else l

/-- `shfl.down` (08 R211). -/
def execShflDown (d a b : BitVec 7) (s : State) : Result :=
  shuffle s d.toNat a.toNat b.toNat fun w n l => if l + n < w then l + n else l

/-- `shfl.xor` (08 R211). -/
def execShflXor (d a b : BitVec 7) (s : State) : Result :=
  shuffle s d.toNat a.toNat b.toNat fun w n l => l ^^^ (n % w)

/-- `shfl.bcast` (08 R211). -/
def execShflBcast (d a b : BitVec 7) (s : State) : Result :=
  shuffle s d.toNat a.toNat b.toNat fun w n _ => n % w

/-! ### Reductions and scans (08 R212, R213) -/

/-- Combines two values of a reduction into one, with exceptions. -/
abbrev Combine := Nat → Nat → Nat × Flags

/-- One level of the reduction tree: neighbours combine, a lone value passes up unchanged (08 R212). -/
def reduceLevel (f : Combine) : List (Option Nat) → List (Option Nat) × Flags
  | x :: y :: rest =>
    let (up, fl) := reduceLevel f rest
    match x, y with
    | some a, some b => (some (f a b).1 :: up, (f a b).2 ||| fl)
    | some a, none => (some a :: up, fl)
    | none, b => (b :: up, fl)
  | l => (l, 0)

/-- The reduction tree over lane positions (08 R212): at most six levels. -/
def reduceTree (f : Combine) : Nat → List (Option Nat) → Option Nat × Flags
  | 0, l => (l.headD none, 0)
  | k + 1, l =>
    if l.length ≤ 1 then (l.headD none, 0)
    else
      let (l', fl) := reduceLevel f l
      let (r, fl') := reduceTree f k l'
      (r, fl ||| fl')

/-- round(x + y, RNE) in the element type, with flush (08 R212). -/
def combineAdd (code : Nat) (flush : Bool) : Combine := fun a b =>
  let (x, f1) := addNum 0 (operand code flush a) (operand code flush b)
  let (y, f2) := roundNum code 0 0 x
  let (z, f3) := flushResult code flush y f2
  let (bits, f4) := deliver code false z f3
  (bits, f1 ||| f4 ||| nanFlags code [a, b])

/-- `fmin` or `fmax` of R196 (08 R212). -/
def combineMinMax (code : Nat) (flush larger : Bool) : Combine := fun a b =>
  ((pickMinMax code flush larger false a b).getD (encodeNan code false), nanFlags code [a, b])

/-- A floating reduction into an s register, or a pair for FP64 (08 R212). -/
def reduceFloat (s : State) (d a : Nat) (f : Nat → Bool → Combine) (empty : Nat → Nat) : Result :=
  gate s (fun g =>
    let code := s.elementCode g
    let n := elementNeeds code [a] arithmeticCode
    { n with s := if code = 8 then [d, d + 1] else [d], even := if code = 8 then [d, a] else [] }) fun g =>
    let code := s.elementCode g
    let flush := g.trim.getLsbD 11
    let lanes := g.active s.group
    let r (j : Nat) : Option Nat × Flags :=
      reduceTree (f code flush) 7 ((List.range 64).map fun l =>
        if g.isEnabled s.group l && g.guard l then some (g.element code a l j) else none)
    let parts := (List.range (elementCount code)).map r
    let x := joinElements code (parts.map fun p => p.1.getD (empty code))
    let all := joinFlags (parts.map (·.2))
    s.finishFloat (if code = 8 then g.setSpair d x else g.setS d (lowWord x)) 1 (lanes.map fun l => (l, all))

/-- `vred.fadd` (08 R212). -/
def execVredFadd (d a : BitVec 7) (s : State) : Result := reduceFloat s d.toNat a.toNat combineAdd fun _ => 0

/-- `vred.fmax` (08 R212). -/
def execVredFmax (d a : BitVec 7) (s : State) : Result :=
  reduceFloat s d.toNat a.toNat (fun code flush => combineMinMax code flush true) fun code => encodeInf code true

/-- `vred.fmin` (08 R212). -/
def execVredFmin (d a : BitVec 7) (s : State) : Result :=
  reduceFloat s d.toNat a.toNat (fun code flush => combineMinMax code flush false) fun code => encodeInf code false

/-- An integer reduction into an s register (08 R212). -/
def reduceInt (s : State) (d a : Nat) (f : Word → Word → Word) (empty : Word) : Result :=
  gate s (fun _ => { v := [a], s := [d] }) fun g =>
    let c : Combine := fun x y => ((f (BitVec.ofNat 32 x) (BitVec.ofNat 32 y)).toNat, 0)
    let r := reduceTree c 7 ((List.range 64).map fun l =>
      if g.isEnabled s.group l && g.guard l then some (g.vreg a l).toNat else none)
    s.finish (g.setS d (match r.1 with
      | none => empty
      | some x => BitVec.ofNat 32 x))

/-- `vred.iadd` (08 R212). -/
def execVredIadd (d a : BitVec 7) (s : State) : Result := reduceInt s d.toNat a.toNat (fun x y => x + y) 0

/-- `vred.imax` (08 R212). -/
def execVredImax (d a : BitVec 7) (s : State) : Result := reduceInt s d.toNat a.toNat maxSigned 0x80000000

/-- `vred.imin` (08 R212). -/
def execVredImin (d a : BitVec 7) (s : State) : Result := reduceInt s d.toNat a.toNat minSigned 0x7FFFFFFF

/-- The inclusive fold over values in lane order: the first as it stands, each later one combined (08 R213). -/
def scanValues (f : Combine) : Option Nat → List Nat → List Nat × Flags
  | _, [] => ([], 0)
  | none, x :: rest =>
    let (r, fl) := scanValues f (some x) rest
    (x :: r, fl)
  | some p, x :: rest =>
    let (y, f1) := f p x
    let (r, fl) := scanValues f (some y) rest
    (y :: r, f1 ||| fl)

/-- The value that stands beside a lane in two lists. -/
def valueAt (lanes xs : List Nat) (l : Nat) : Nat := xs.getD (lanes.idxOf l) 0

/-- `vscan.fadd` (08 R213). -/
def execVscanFadd (d a : BitVec 7) (s : State) : Result :=
  gate s (fun g => elementNeeds (s.elementCode g) [d.toNat, a.toNat] arithmeticCode) fun g =>
    let code := s.elementCode g
    let lanes := g.active s.group
    let r (j : Nat) : List Nat × Flags :=
      scanValues (combineAdd code (g.trim.getLsbD 11)) none (lanes.map fun l => g.element code a.toNat l j)
    let parts := (List.range (elementCount code)).map r
    let all := joinFlags (parts.map (·.2))
    s.finishFloat (g.setElements code d.toNat lanes fun l => parts.map fun p => valueAt lanes p.1 l) 1
      (lanes.map fun l => (l, all))

/-- The running sums of the words before each, and of each inclusive. -/
def prefixSums : Word → List Word → List (Word × Word)
  | _, [] => []
  | acc, x :: rest => (acc, acc + x) :: prefixSums (acc + x) rest

/-- An integer scan (08 R213). -/
def scanInt (s : State) (d a : Nat) (pick : Word × Word → Word) : Result :=
  gate s (fun _ => { v := [d, a] }) fun g =>
    let lanes := g.active s.group
    let sums := prefixSums 0 (lanes.map fun l => g.vreg a l)
    s.finish (g.setV d lanes fun l => pick (sums.getD (lanes.idxOf l) (0, 0)))

/-- `vscan.iadd` (08 R213). -/
def execVscanIadd (d a : BitVec 7) (s : State) : Result := scanInt s d.toNat a.toNat fun p => p.2

/-- `vscan.iaddx` (08 R213). -/
def execVscanIaddx (d a : BitVec 7) (s : State) : Result := scanInt s d.toNat a.toNat fun p => p.1

/-! ### trim and fscale -/

/-- `trim` (08 R194). -/
def execTrim (a : BitVec 7) (s : State) : Result := writeTrim s a.toNat

/-- `fscale`: a × 2^n, rounded once (08 R200). -/
def fscaleWith (m : Option Modifier) (d a b : BitVec 7) (s : State) : Result :=
  gate s (fun g =>
    let n := elementNeeds (s.elementCode g) [d.toNat, a.toNat] arithmeticCode
    { n with v := n.v ++ [b.toNat] }) fun g =>
    let code := s.elementCode g
    let lanes := g.active s.group
    let exponent (l j : Nat) : Int :=
      if elementCount code = 2 then ((g.vreg b.toNat l).extractLsb' (16 * j) 16).toInt else (g.vreg b.toNat l).toInt
    let r (l : Nat) : List (Nat × Flags) :=
      (List.range (elementCount code)).map fun j =>
        let env := s.fpEnv g l m
        let bits := g.element code a.toNat l j
        env.result code j (scaleNum (env.read code bits) (exponent l j)) (nanFlags code [bits])
    s.finishFloat (g.setElements code d.toNat lanes fun l => (r l).map (·.1)) (wordsOf m)
      (lanes.map fun l => (l, joinFlags ((r l).map (·.2))))

/-- `fscale` (08 R200). -/
def execFscale (d a b : BitVec 7) (s : State) : Result := fscaleWith none d a b s

end Sys2Proof.Machine
end

