-- ==== Sys2Proof/Machine/Gantry.lean ====
section
/-!
DEFINITION. The gantry: convoy selection, the rendezvous, holds, joint instructions and their one defined sum, and the
accumulator instructions (09 R215-R238; readings in log 36).
-/
namespace Sys2Proof.Machine

/-! ### Formats and registers (09 R215-R217, R230, R232) -/

/-- The class of an operand format: 1 the 8-bit, 2 the 4-bit, 3 the 16-bit class; 0 none (09 R215). -/
def formatClass (code : Nat) : Nat :=
  match code with
  | 3 => 1 | 4 => 1 | 6 => 1 | 5 => 2 | 7 => 2 | 1 => 3 | 2 => 3 | _ => 0

/-- Format A of a slot (01 R27). -/
def slotA (w : BitVec 16) : Nat := (w.extractLsb 3 0).toNat

/-- Format B of a slot. -/
def slotB (w : BitVec 16) : Nat := (w.extractLsb 7 4).toNat

/-- Scale mode 1. -/
def slotScaled (w : BitVec 16) : Bool := (w.extractLsb 9 8).toNat == 1

/-- The outliers bit. -/
def slotOutliers (w : BitVec 16) : Bool := w.getLsbD 10

/-- The sparse-block bit: 16 x 16 blocks. -/
def slotFine (w : BitVec 16) : Bool := w.getLsbD 11

/-- A joint instruction accepts the slot. -/
def jointFormats (w : BitVec 16) : Bool := formatClass (slotA w) != 0 && formatClass (slotA w) == formatClass (slotB w)

/-- K of a slot (09 R215). -/
def depthOf (w : BitVec 16) : Nat :=
  match formatClass (slotA w) with
  | 1 => 128
  | 2 => 256
  | _ => 64

/-- The register words beyond the first 32 of a row that the slot makes the instruction read (09 R216). -/
def rowExtras (w : BitVec 16) : List Nat :=
  (if slotScaled w then [32] else []) ++ (if slotScaled w && formatClass (slotA w) == 2 then [33] else []) ++
  (if slotOutliers w && formatClass (slotA w) == 2 then (List.range 11).map (· + 34) else [])

/-- The s registers beyond s(2b) that the slot makes the instruction read (09 R217, R232). -/
def scalarExtras (sparse : Bool) (w : BitVec 16) (b : Nat) : List Nat :=
  (if slotScaled w then [2 * b + 2] else []) ++ (if sparse then [2 * b + 3] else []) ++
  (if sparse && slotFine w then [2 * b + 4] else [])

/-- Bytes of the B operand: the tile, and its outlier lists where the slot has them (09 R217). -/
def tileBytes (w : BitVec 16) : Nat := if slotOutliers w && formatClass (slotB w) == 2 then 22016 else 16384

/-- The block that covers (k, n) is present: always in `mma` (09 R232). -/
def blockPresent (sparse : Bool) (slot : BitVec 16) (scalars : List Word) (k n : Nat) : Bool :=
  let map := pairOf (scalars.getD 2 0) (scalars.getD 3 0)
  let depth := depthOf slot
  !sparse ||
    (if slotFine slot then map.getLsbD (8 * (k / (depth / 8)) + n / 16)
     else map.getLsbD (4 * (k / (depth / 4)) + n / 32))

/-- The bytes of the B operand that a joint instruction reads, by the scalar registers it has taken: of each row those of present blocks,
and the outlier list of a row that has one (04 R112; 09 R217, R232; DEDUCED, log 36: a list that may be read counts whether or not it is). -/
def jointBytes (sparse : Bool) (slot : BitVec 16) (scalars : List Word) : List Extent :=
  let off := (scalars.headD 0).toNat
  if !sparse then extent true off (tileBytes slot)
  else
    let w := formatWidth (slotB slot)
    let step := if slotFine slot then 16 else 32
    let blocks (k : Nat) : List Nat := ((List.range (128 / step)).map (· * step)).filter (blockPresent sparse slot scalars k)
    (List.range (depthOf slot)).flatMap fun k =>
      (blocks k).flatMap (fun n => extent true (off + (128 * k + n) * w / 8) (step * w / 8)) ++
        if slotOutliers slot && formatClass (slotB slot) == 2 && !(blocks k).isEmpty then extent true (off + 16384 + 22 * k) 22 else []

/-! ### Convoy selection (09 R219) -/

/-- `convoy #i`. -/
def execConvoy (i : BitVec 3) (s : State) : Result :=
  gate s (fun _ => {}) fun g =>
    match s.crews.find g.crew with
    | none => .fault .noIssuer
    | some crew =>
      if crew.convoys.any fun e => e.defn == i.toNat && e.gangs.contains g.index then
        s.finish { g with convoy := some i.toNat }
      else s.trap g .convoyMismatch

/-- `convoy.none`. -/
def execConvoyNone (s : State) : Result := gate s (fun _ => {}) fun g => s.finish { g with convoy := none }

/-! ### Holding an accumulator (09 R225) -/

/-- The holder of an accumulator: zero when unheld, else the crew key plus one. -/
def Bank.holder (b : Bank) (acc : Nat) : Nat := (b.holds.get acc).toNat

/-- What a gantry instruction meets at its accumulator. -/
inductive HoldState where
  /-- It may go on, taking the hold if there is none. -/
  | free
  /-- Another crew holds it: the instruction waits at issue. -/
  | held
  /-- Unheld, and the launch is reproducible: only an instruction that sets the accumulator may take it. -/
  | violation
  deriving DecidableEq, Repr

/-- The accumulator a command names, if it is a gantry instruction. -/
def Work.accumulator (w : Work) : Option Nat :=
  match w with
  | .joint _ acc .. => some acc
  | .azero acc => some acc
  | .aload acc .. => some acc
  | .adrain acc .. => some acc
  | .peerSend acc .. => some acc
  | .peerRecv acc .. => some acc
  | .rowGet acc .. => some acc
  | .rowPut acc .. => some acc
  | _ => none

/-- The last instruction on an accumulator that the gantry has not executed yet is an `adrain` with `.rel`. -/
def State.releasing (s : State) (core ctx acc : Nat) : Bool :=
  s.commands.foldl (fun last c =>
    if c.done || c.ctx != ctx || c.crew / 8 != core || c.work.accumulator != some acc then last
    else
      match c.work with
      | .adrain _ _ _ _ release .. => release
      | _ => false) false

/-- The hold an instruction of a gang meets, behind its crew's instructions not yet executed; `sets`: `azero`, `aload`,
`apeer.recv`. -/
def State.holdState (s : State) (g : Gang) (core acc : Nat) (sets : Bool) : HoldState :=
  let h := (s.bank core g.ctx).holder acc
  if h ≠ 0 ∧ h ≠ g.crew + 1 then .held
  else if (h = 0 || s.releasing core g.ctx acc) && s.isReproducible g && !sets then .violation
  else .free

/-- The gantry accepts an instruction: its context's bank is in the gantry, and its crew holds the accumulator. -/
def State.acceptGantry (s : State) (core ctx crew acc : Nat) : State :=
  let s1 := s.useBank core ctx
  let b := s1.bank core ctx
  s1.setBank core ctx { b with holds := b.holds.set acc (BitVec.ofNat 32 (crew + 1)) }

/-- The gantry has yet to execute the command, which is no offered send. -/
def Command.inGantry (c : Command) (core : Nat) : Bool := c.cls == .gantry && !c.done && !c.offered && c.core == core

/-- The two gantry instructions are of one crew and name one accumulator. -/
def Command.sameAccumulator (x c : Command) : Bool := x.crew == c.crew && x.work.accumulator == c.work.accumulator

/-- An earlier command that shares a gang. -/
def Command.before (x c : Command) : Bool := decide (x.id < c.id) && x.gangs.any fun k => c.gangs.contains k

/-- A receive. -/
def Work.receives (w : Work) : Bool :=
  match w with
  | .peerRecv _ _ _ _ => true
  | _ => false

/-- The receive takes the offered send. -/
def Command.takes (c x : Command) : Bool :=
  match c.work with
  | .peerRecv _ _ sends _ => sends.contains x.id
  | _ => false

/-- The gantry instructions of a core that wait behind offered sends: those of the sending crew on the accumulator of a send, but for
the receive that takes it, and those that must follow such an instruction, on its accumulator or, but for a receive, in its gang (09 R226,
R237). -/
def State.stuck (s : State) (core : Nat) : List Nat :=
  s.commands.foldl (fun ids c =>
    let behind (x : Command) : Bool :=
      decide (x.id < c.id) && x.cls == .gantry && !x.done && x.core == core &&
        (if x.offered then x.sameAccumulator c && !c.takes x
         else ids.contains x.id && (x.sameAccumulator c || (x.before c && !c.work.receives)))
    if c.inGantry core && s.commands.any behind then ids ++ [c.id] else ids) []

/-- The gantry of a core accepts an instruction: of those it has accepted and that wait for no receive, at most one has yet to run
beside it (19 R368; log 11). -/
def State.gantryAccepts (s : State) (core : Nat) : Bool :=
  let stuck := s.stuck core
  decide ((s.commands.filter fun c => c.inGantry core && !stuck.contains c.id).length < 2)

/-- A command of the class may be sent: the gantry accepts one, fewer than 64 are outstanding and its counters have room (04 R98, R112;
19 R368). -/
def State.hasRoom (s : State) (key : Nat) (g : Gang) (bytes : List Extent) : Bool :=
  s.gantryAccepts (coreOf key) && decide (s.classCount key .gantry < 64) && !g.countersFull (s.countersFor g { bytes := bytes })

/-- Sends an accumulator instruction whose block passed (09 R225, R226). -/
def State.sendGantry (s : State) (g : Gang) (acc : Nat) (sets : Bool) (work : Work) (bytes : List Extent)
    (words : Nat := 1) : Result :=
  match s.holdState g (coreOf s.gang) acc sets with
  | .held => s.waiting
  | .violation => s.trap g .reproViolation
  | .free =>
    if !s.hasRoom s.gang g bytes then s.waiting
    else
      let mask := s.countersFor g { bytes := bytes }
      let cmd : Command :=
        { id := s.serial, cls := .gantry, work := work, gangs := [s.gang], ctx := g.ctx, crew := g.crew,
          launch := ((s.crews.find g.crew).map fun c => c.launch).getD 0, arrival := none, progress := 0, held := none,
          counted := [mask], stamp := g.stamp, seen := noEpochs, pc := g.pc s.group, stopped := false, offered := false, done := false }
      let s1 : State := { s with serial := s.serial + 1, commands := s.commands ++ [cmd] }
      (s1.acceptGantry (coreOf s.gang) g.ctx g.crew acc).finish (g.count mask) words

/-- As `sendGantry`, after the checks of a block. -/
def State.sendGantryChecked (s : State) (g : Gang) (checks : List BlockFault) (acc : Nat) (sets : Bool) (work : Work)
    (bytes : List Extent) (words : Nat := 1) : Result :=
  match checks with
  | (cause, a) :: _ => .next (s.trapAt g cause (g.enabled s.group) (BitVec.ofNat 64 a))
  | [] => s.sendGantry g acc sets work bytes words

/-! ### Joint instructions: issue, rendezvous, release (09 R220-R224, R230) -/

/-- Whether a group's operand latch will hold rows when the gantry reaches an instruction issued now: as it stands, after the
group's instructions not yet executed (09 R224). -/
def State.latchHolds (s : State) (core ctx key : Nat) : Bool :=
  s.commands.foldl (fun held c =>
    match c.work with
    | .joint _ _ keep _ _ latch parts =>
      if c.done || c.ctx != ctx || c.crew / 8 != core || latch != key then held
      else keep && (held || parts.any fun p => p.lanes != 0)
    | _ => held) ((s.bank core ctx).latches.find key).isSome

/-- The operands of one gang's issue group, as they stand at its arrival (09 R221). -/
def State.arrival (s : State) (g : Gang) (sparse : Bool) (acc : Nat) (keep : Bool) (slot rows a b : Nat) : Arrival where
  gang := s.gang
  group := s.group
  sparse := sparse
  acc := acc
  keep := keep
  slot := slot
  rows := rows
  a := a
  b := b
  lanes := maskOf (g.active s.group)
  words := (List.range g.width).map fun l => (List.range 45).map fun i => g.vreg (a + i) l
  scalars := [g.sreg (2 * b), g.sreg (2 * b + 2), g.sreg (2 * b + 3), g.sreg (2 * b + 4)]
  trim := g.trim
  pc := g.pc s.group

/-- The checks of 09 R217 on the offset of the B operand. -/
def tileChecks (w : BitVec 16) (size off : Nat) : List BlockFault := alignCheck 128 off ++ rangeCheck size off (tileBytes w)

/-- A joint instruction as it is released, with the range counters of each gang of its group. -/
def State.jointCommand (s : State) (p : Arrival) (parts : List Arrival) (g0 : Gang) (latch : Nat) (bytes : List Extent) : Command where
  id := s.serial
  cls := .gantry
  work := .joint p.sparse p.acc p.keep p.slot p.rows latch parts
  gangs := parts.map fun x => x.gang
  ctx := g0.ctx
  crew := g0.crew
  launch := ((s.crews.find g0.crew).map fun c => c.launch).getD 0
  arrival := none
  stopped := false
  progress := 0
  held := none
  counted := parts.map fun x =>
    match s.gangs.find x.gang with
    | none => 0
    | some g => s.countersFor g { bytes := bytes }
  stamp := g0.stamp
  seen := noEpochs
  pc := p.pc
  offered := false
  done := false

/-- Releases a joint instruction to the gantry: counted in each gang of the group, which goes on past it (09 R221). -/
def State.releaseJoint (s : State) (parts : List Arrival) (g0 : Gang) (latch : Nat) (bytes : List Extent) : State :=
  match parts with
  | [] => s
  | p :: _ =>
    let s1 : State := { s with serial := s.serial + 1, commands := s.commands ++ [s.jointCommand p parts g0 latch bytes] }
    let s2 := s1.acceptGantry (coreOf s.gang) g0.ctx g0.crew p.acc
    parts.foldl (fun acc x =>
      match acc.gangs.find x.gang with
      | none => acc
      | some g =>
        acc.setGang x.gang ((({ g with held := none } : Gang).count (s.countersFor g { bytes := bytes })).proceed x.group 1
          (acc.stepEnd g) (Slice.next 1))) s2

/-- A command accepted now would wait behind a send that no receive has added yet, or behind what waits for one (09 R237). -/
def State.wouldStick (s : State) (core : Nat) (c : Command) : Bool :=
  let offer (x : Command) : Command :=
    match x.work with
    | .peerSend .. => { x with offered := true }
    | _ => x
  (State.stuck { s with commands := s.commands.map offer ++ [c] } core).contains c.id

/-- A solo joint instruction: checked whole at issue (09 R220, R230). -/
def soloJoint (s : State) (g : Gang) (crew : Crew) (p : Arrival) (w : BitVec 16) : Result :=
  let off := (p.scalars.headD 0).toNat
  if g.width ≠ p.rows then s.trap g .convoyMismatch
  else
    match tileChecks w crew.padSize off with
    | (cause, a) :: _ => .next (s.trapAt g cause (g.enabled s.group) (BitVec.ofNat 64 a))
    | [] =>
      match s.holdState g (coreOf s.gang) p.acc false with
      | .held => s.waiting
      | .violation => s.trap g .reproViolation
      | .free =>
        let bytes := jointBytes p.sparse w p.scalars
        if !s.hasRoom s.gang g bytes then s.waiting
        else .next ((s.setGang s.gang g).releaseJoint [p] g (latchKey s.gang g.crew none) bytes)

/-- The checks at release, in the order of 09 R221: registers of each gang, scalar registers of the gang at position 0, then the B
operand. -/
def releaseChecks (s : State) (crew : Crew) (w : BitVec 16) (latched : Bool) (parts : List Arrival) : List BlockFault :=
  let short := parts.any fun p =>
    match s.gangs.find p.gang with
    | none => false
    | some g => !latched && (rowExtras w).any fun i => decide (g.nregs ≤ p.a + i)
  match parts with
  | [] => []
  | p :: _ =>
    (if short || (scalarExtras p.sparse w p.b).any (fun r => decide (128 ≤ r)) then [(.registerRange, 0)] else []) ++
      tileChecks w crew.padSize (p.scalars.headD 0).toNat

/-- A gang arrives at the rendezvous latch of its convoy, and the last one releases the instruction (09 R221, R223). What is released runs
to its end before a halt completes (R222), so it is not released while it would wait behind a peer send of its crew (DEDUCED, log 36). In a
reproducible launch an unheld accumulator is REPRO_VIOLATION in every gang that has arrived, after the checks at release (DESIGN CHOICE, log
36: 09 R225 does not say in which gangs and when). -/
def convoyJoint (s : State) (g : Gang) (crew : Crew) (e : Convoy) (p : Arrival) (w : BitVec 16) : Result :=
  let keys := e.gangs.map fun i => crew.gangs.getD i 0
  if g.width * e.gangs.length ≠ p.rows then s.trap g .convoyMismatch
  else if e.arrivals.any fun x => x.gang == s.gang then s.waiting
  else if s.holdState g (coreOf s.gang) p.acc false = .held then s.waiting
  else
    let arrivals := e.arrivals ++ [p]
    let cleared := s.setCrew g.crew (crew.clearLatch e.defn)
    let agrees (x : Arrival) : Bool :=
      x.sparse == p.sparse && x.acc == p.acc && x.keep == p.keep && x.slot == p.slot && x.rows == p.rows
    if !(e.arrivals.all agrees) then .next (cleared.trapArrivals arrivals .convoyMismatch 0 (!s.lineRaised g.ctx))
    else if arrivals.length < e.gangs.length then
      let arrived := crew.convoys.map fun x => if x.defn == e.defn then { x with arrivals := arrivals } else x
      .next { (s.setCrew g.crew { crew with convoys := arrived }).setGang s.gang g with idle := true }
    else
      let parts := keys.filterMap fun k => arrivals.find? fun x => x.gang == k
      let latch := latchKey s.gang g.crew (some e.defn)
      match releaseChecks s crew w (s.latchHolds (coreOf s.gang) g.ctx latch) parts with
      | (cause, a) :: _ => .next (cleared.trapArrivals arrivals cause (BitVec.ofNat 64 a) (!s.lineRaised g.ctx))
      | [] =>
        if s.holdState g (coreOf s.gang) p.acc false = .violation then
          .next (cleared.trapArrivals arrivals .reproViolation 0 (!s.lineRaised g.ctx))
        else
          let first := parts.headD p
          let bytes := jointBytes p.sparse w first.scalars
          let room := parts.all fun x =>
            match s.gangs.find x.gang with
            | none => false
            | some h => s.hasRoom x.gang h bytes
          if !room || s.wouldStick (coreOf s.gang) (s.jointCommand first parts g latch bytes) then s.waiting
          else .next ((cleared.setGang s.gang g).releaseJoint parts g latch bytes)

/-- The convoy by which a joint instruction of the issuing group is issued: the one at whose latch its arrival waits, where it does, else
the selected one (09 R219, R221). -/
def State.selection (s : State) (g : Gang) : Option Nat :=
  let waiting : Option Convoy := (s.crews.find g.crew).bind fun crew =>
    crew.convoys.find? fun e => e.arrivals.any fun x => x.gang == s.gang && x.group == s.group
  (waiting.map fun e => e.defn).or g.convoy

/-- `mma` and `mmas` (09 R230). -/
def jointInstruction (s : State) (sparse : Bool) (c : BitVec 2) (k : Bool) (a : BitVec 7) (b : BitVec 6) (l : BitVec 3)
    (m : BitVec 2) : Result :=
  gate s (fun g =>
      let w := s.slotWord g l.toNat
      let latched := s.latchHolds (coreOf s.gang) g.ctx (latchKey s.gang g.crew (s.selection g))
      { v := if latched then [] else (List.range 32).map (· + a.toNat)
        s := [2 * b.toNat]
        format := jointFormats w
        gantry := true
        lateV := if latched then [] else (rowExtras w).map (· + a.toNat)
        lateS := scalarExtras sparse w b.toNat
        lateCheck := (s.selection g).isNone }) fun g =>
    match s.crews.find g.crew with
    | none => .fault .noIssuer
    | some crew =>
      let w := s.slotWord g l.toNat
      let p := s.arrival g sparse c.toNat k l.toNat (64 * (m.toNat + 1)) a.toNat b.toNat
      match s.selection g with
      | none => soloJoint s g crew p w
      | some d =>
        match crew.convoys.find? fun e => e.defn == d with
        | none => s.trap g .convoyMismatch
        | some e => convoyJoint s g crew e p w

/-- `mma` (09 R230, R231). -/
def execMma (c : BitVec 2) (k : Bool) (a : BitVec 7) (b : BitVec 6) (l : BitVec 3) (m : BitVec 2) (s : State) : Result :=
  jointInstruction s false c k a b l m

/-- `mmas` (09 R230-R232). -/
def execMmas (c : BitVec 2) (k : Bool) (a : BitVec 7) (b : BitVec 6) (l : BitVec 3) (m : BitVec 2) (s : State) : Result :=
  jointInstruction s true c k a b l m

/-! ### One defined sum (09 R218, R227-R229) -/

/-- An operand element: its value, whether it is a signalling NaN, and whether it is an integer of INT8 or INT4. -/
structure Operand where
  value : Num
  signalling : Bool
  integer : Bool
  deriving DecidableEq, Repr

/-- An element of a format read with its group's outlier list; none where that list is malformed (09 R218). -/
def elementOf (code bits : Nat) (outliers : Bool) (list : List Byte) (index : Nat) : Option Operand :=
  if outliers && formatClass code == 2 && bits == 8 then
    (outlierOf list index).map fun v => { value := decodeNum 1 v, signalling := isSignalling 1 v, integer := false }
  else some { value := decodeNum code bits, signalling := isSignalling code bits, integer := isInteger code }

/-- Element `k` of a row of register words (09 R216). -/
def rowBits (words : List Word) (w k : Nat) : Nat := (words.getD (w * k / 32) 0).toNat / 2 ^ (w * k % 32) % 2 ^ w

/-- The outlier list of row group `g` in a row's registers (09 R216). -/
def rowList (words : List Word) (g : Nat) : List Byte :=
  (List.range 22).map fun i =>
    let j := 22 * g + i
    ((words.getD (34 + j / 4) 0) >>> (8 * (j % 4))).setWidth 8

/-- The elements of a row of A. -/
def rowElements (slot : BitVec 16) (words : List Word) : List (Option Operand) :=
  let code := slotA slot
  (List.range (depthOf slot)).map fun k =>
    elementOf code (rowBits words (formatWidth code) k) (slotOutliers slot) (rowList words (k / 128)) (k % 128)

/-- Element (k, n) of a B tile at a scratchpad offset, with the list of its row (09 R217). -/
def State.tileElement (s : State) (crew off : Nat) (slot : BitVec 16) (k n : Nat) : Option Operand :=
  let code := slotB slot
  let w := formatWidth code
  let bit := w * (128 * k + n)
  let bits := numberOf (s.padBytes crew (off + bit / 8) ((w + 7) / 8)) / 2 ^ (bit % 8) % 2 ^ w
  let list := if slotOutliers slot && formatClass code == 2 && bits == 8 then
      s.padBytes crew (off + 16384 + 22 * k) 22 else []
  elementOf code bits (slotOutliers slot) list n

/-- The exact product of two elements; zero products of two integers are +0, and an outlier is none (09 R218, R227). -/
def elementProduct (a b : Operand) : Num × Flags :=
  match mulNum a.value b.value with
  | (.num neg m e st, f) => (.num (neg && !(a.integer && b.integer && m == 0)) m e st, f)
  | r => r

/-- The exact partial sum of the 8-bit and 4-bit classes (09 R227). -/
def exactPartial (ps : List (Operand × Operand)) : Num × Flags :=
  let qs := ps.map fun p => elementProduct p.1 p.2
  let infinite (neg : Bool) : Bool := qs.any fun q => q.1 == .inf neg
  let opposed := infinite true && infinite false
  let nan := qs.any fun q => match q.1 with
    | .nan _ => true
    | _ => false
  let invalid := ps.any (fun p => p.1.signalling || p.2.signalling) || qs.any (fun q => q.2 != 0) || opposed
  if nan || opposed then (.canonical, if invalid then 1 else 0)
  else if infinite true then (.inf true, 0)
  else if infinite false then (.inf false, 0)
  else
    match qs with
    | [] => (.zero false, 0)
    | q :: rest => (rest.foldl (fun x y => (addNum 0 x y.1).1) q.1, 0)

/-- Rounds to FP32 under RNE. -/
def toFp32 (x : Num × Flags) : Num × Flags :=
  let (y, f) := roundNum 0 0 0 x.1
  (y, x.2 ||| f)

/-- One level of the tree: pairs of nodes summed, an absent child passing the other up (09 R228). -/
def treeLevel : List (Option (Num × Flags)) → List (Option (Num × Flags))
  | [] => []
  | [x] => [x]
  | x :: y :: rest =>
    (match x, y with
      | none, _ => y
      | _, none => x
      | some a, some b =>
        let (v, f) := addNum 0 a.1 b.1
        some (toFp32 (v, a.2 ||| b.2 ||| f))) :: treeLevel rest

/-- The balanced tree of the 16-bit class (09 R228). -/
def treePartial (ps : List (Option (Operand × Operand))) : Num × Flags :=
  let leaves := ps.map fun p => p.map fun q =>
    let (v, f) := mulNum q.1.value q.2.value
    toFp32 (v, f ||| if q.1.signalling || q.2.signalling then 1 else 0)
  match (treeLevel (treeLevel (treeLevel (treeLevel (treeLevel (treeLevel leaves)))))).head? with
  | some (some x) => x
  | _ => (.zero false, 0)

/-- The promotion: c + Σ sA × sB × P exactly, rounded once to FP32 (06 R152, R153; 09 R229). Where NaNs or infinities meet, the sum is
formed from c on, term by term, each (sA × sB) × P (DESIGN CHOICE, log 43: no rule says in which order, and with it whether an
invalid of two infinities or of 0 × inf arises beside a NaN). -/
def promote (c : Word) (scaled : Bool) (sB : Word) (terms : List (Word × Num)) : Word × Flags :=
  let term (t : Word × Num) : Num × Flags :=
    if !scaled then (t.2, 0)
    else
      let (x, f1) := mulNum (decodeNum 0 t.1.toNat) (decodeNum 0 sB.toNat)
      let (y, f2) := mulNum x t.2
      (y, f1 ||| f2 ||| nanFlags 0 [t.1.toNat, sB.toNat])
  let (x, f) := terms.foldl (fun acc t =>
    let (y, f1) := term t
    let (v, f2) := addNum 0 acc.1 y
    (v, acc.2 ||| f1 ||| f2)) (decodeNum 0 c.toNat, nanFlags 0 [c.toNat])
  let (y, f1) := roundNum 0 0 0 x
  (BitVec.ofNat 32 (deliver 0 false y 0).1, f ||| f1)

/-- Products of a row group: elements 128g onward of a row and a column, with the presence of each. -/
def groupPairs (g : Nat) (row : List (Option Operand)) (column : List (Bool × Option Operand)) :
    List (Option (Operand × Operand)) :=
  ((row.drop (128 * g)).take 128).zip ((column.drop (128 * g)).take 128) |>.map fun p =>
    match p with
    | (some a, true, some b) => some (a, b)
    | _ => none

/-- One accumulator element after the instruction (09 R227-R229). -/
def jointElement (slot : BitVec 16) (words : List Word) (row : List (Option Operand)) (column : List (Bool × Option Operand))
    (sB : Word) (c : Word) : Word × Flags :=
  let groups := if depthOf slot = 256 then [0, 1] else [0]
  let partials := groups.map fun g =>
    let ps := groupPairs g row column
    let r := if formatClass (slotA slot) = 3 then treePartial ps else exactPartial (ps.filterMap id)
    (words.getD (32 + g) 0, r)
  let (y, f) := promote c (slotScaled slot) sB (partials.map fun x => (x.1, x.2.1))
  (y, joinFlags (partials.map fun x => x.2.2) ||| f)

/-- The rows of a joint instruction: row number, gang, lane, whether it is active, and its register words, from the latch where
that holds rows (09 R216, R224). -/
def jointRows (b : Bank) (latch : Nat) (parts : List Arrival) : List (Nat × Nat × Nat × Bool × List Word) :=
  let all := parts.flatMap fun p => p.words.mapIdx fun l ws => (p.gang, l, p.lanes.getLsbD l, ws)
  all.mapIdx fun i r =>
    let ws := match b.latches.find latch with
      | none => r.2.2.2
      | some rows => (rows.getD i []).map fun x => x.getD 0
    (i, r.1, r.2.1, r.2.2.1, ws)

/-- The latch after a joint instruction (09 R224): with keep, the bits it used; else, and where a gang of its group has ended, empty. -/
def Bank.afterJoint (b : Bank) (latch : Nat) (keep : Bool) (slot : BitVec 16)
    (rows : List (Nat × Nat × Nat × Bool × List Word)) : Bank :=
  if !keep then { b with latches := b.latches.erase latch }
  else if (b.latches.find latch).isSome then b
  else if rows.all fun r => !r.2.2.2.1 then b
  else
    let read := List.range 32 ++ rowExtras slot
    { b with latches := b.latches.put latch (rows.map fun r =>
        (List.range 45).map fun i => if r.2.2.2.1 && read.contains i then some (r.2.2.2.2.getD i 0) else none) }

/-- Raises exceptions in a gang when a gantry instruction completes: into its `fpflags`, and, where its trim enabled them at issue,
as a trap after which the gang stops at its next boundary (09 R229, R235; 19 R376). A gang of the group whose own rows raised none
of the enabled exceptions stops too, its record's lane mask empty (DESIGN CHOICE, log 45: R229 ORs the exceptions into every gang's
`fpflags` and lets a gang report with "its lanes whose rows raised it"; 19 R376 speaks of the active lanes that raise). -/
def State.gantryFlags (s : State) (key : Nat) (trim : Word) (all : Flags) (lanes : Flags → List Nat) (address : Flags → DWord)
    (pc : DWord) : State :=
  match s.gangs.find key with
  | none => s
  | some g =>
    let g1 := g.addFlags all
    let s1 := s.setGang key g1
    let enabled := all &&& trim.extractLsb' 12 5
    if enabled = 0 || g1.stop.isSome || g1.hasEnded then s1
    else
      let cause := trapOfFlags enabled
      let at_ := match g1.slices.find? fun sl => sl.status == .running with
        | none => 0
        | some sl => sl.pc
      s1.collect key g1
        { cause := cause, lanes := lanes (flagOfTrap cause), address := address (flagOfTrap cause), code := 0,
          origin := false, precise := false, pc := at_, trapPc := pc } s1.timestamp

/-- Performs a released joint instruction (09 R231): a used element with a malformed outlier list stops it, changing nothing. -/
def State.performJoint (s : State) (c : Command) (sparse : Bool) (acc : Nat) (keep : Bool) (slot : BitVec 16) (latch : Nat)
    (parts : List Arrival) : Except EngineFault State :=
  let core := c.core
  let b := s.bank core c.ctx
  let scalars := (parts.head?.map fun p => p.scalars).getD []
  let off := (scalars.getD 0 0).toNat
  let depth := depthOf slot
  let present (k n : Nat) : Bool := blockPresent sparse slot scalars k n
  let rows := jointRows b latch parts
  let columns := (List.range 128).map fun n => (List.range depth).map fun k =>
    if present k n then (true, s.tileElement c.crew off slot k n) else (false, none)
  let badTile := columns.any fun col => col.any fun x => x.1 && x.2.isNone
  let used (k : Nat) : Bool := (List.range 128).any fun n => present k n
  let active := (rows.filter fun r => r.2.2.2.1).map fun r => (r, rowElements slot r.2.2.2.2)
  let badRow := active.any fun r => (r.2.mapIdx fun k x => x.isNone && used k).any id
  if badTile || badRow then .error (.stop .engineFault 0)
  else
    let results := active.map fun r =>
      (r.1, columns.mapIdx fun n col =>
        jointElement slot r.1.2.2.2.2 r.2 col (scalars.getD 1 0) (b.acc.get (accKey acc r.1.1 n)))
    let acc' := results.foldl (fun m r =>
      (List.range 128).foldl (fun m n => m.set (accKey acc r.1.1 n) ((r.2.getD n (0, 0)).1)) m) b.acc
    let ended := parts.any fun p => ((s.gangs.find p.gang).map Gang.hasEnded).getD true
    let b1 := Bank.afterJoint { b with acc := acc' } latch (keep && !ended) slot rows
    let flagsOf := results.map fun r => (r.1.2.1, r.1.2.2.1, joinFlags (r.2.map (·.2)))
    let all := joinFlags (flagsOf.map fun x => x.2.2)
    .ok (parts.foldl (fun st p =>
      st.gantryFlags p.gang p.trim all
        (fun f => (flagsOf.filter fun x => x.1 == p.gang && x.2.2 &&& f != 0).map fun x => x.2.1) (fun _ => 0) p.pc)
      (s.setBank core c.ctx b1))

/-! ### Accumulator instructions (09 R233-R236) -/

/-- `azero` (09 R233). -/
def execAzero (k : BitVec 2) (s : State) : Result :=
  gate s (fun _ => { gantry := true }) fun g => s.sendGantry g k.toNat true (.azero k.toNat) []

/-- An accumulator with rows `first` to `first + count - 1` at +0. -/
def clearRows (m : Cells 32) (acc first count : Nat) : Cells 32 :=
  m.restrict fun k => decide (k < accKey acc first 0) || decide (accKey acc (first + count) 0 ≤ k)

/-- First row and row count of a block register. -/
def rowRange (x : Word) : Nat × Nat := ((x.extractLsb 15 0).toNat, (x.extractLsb 31 16).toNat)

/-- The row range lies in the accumulator (09 R234). -/
def rowsValid (r : Nat × Nat) : Bool := decide (1 ≤ r.2) && decide (r.1 + r.2 ≤ 192)

/-- The bytes of rows of `n` bytes at a pitch; the bytes between rows are none of them (04 R112). -/
def rowExtents (pad : Bool) (lo pitch count n : Nat) : List Extent :=
  (List.range count).flatMap fun i => extent pad (lo + i * pitch) n

/-- `aload` (09 R234). -/
def execAload (k : BitVec 2) (a : BitVec 7) (p : Bool) (s : State) : Result :=
  gate s (fun _ => { blockNeeds a.toNat 4 true with gantry := true }) fun g =>
    match s.crews.find g.crew with
    | none => .fault .noIssuer
    | some crew =>
      let src := if p then (g.sreg a.toNat).setWidth 64 else g.spair a.toNat
      let pitch := (g.sreg (a.toNat + 2)).toNat
      let rows := rowRange (g.sreg (a.toNat + 3))
      if !rowsValid rows then s.trap g .illegalFormat
      else
        let bytes := span rows.2 pitch 512
        let checks := startCheck p src.toNat ++ alignCheck 4 src.toNat ++ alignCheck 4 pitch ++
          (if p then rangeCheck crew.padSize src.toNat bytes else [])
        s.sendGantryChecked g checks k.toNat true (.aload k.toNat p src pitch rows.1 rows.2)
          (rowExtents p src.toNat pitch rows.2 512)

/-- Reads the rows of an `aload`, lowest first. -/
def Run.readRows (c : Command) (pad : Bool) (src pitch : Nat) : Nat → Run → Nat → Work.Answer (List (List Byte))
  | 0, r, _ => (.ok [], r)
  | count + 1, r, i =>
    match r.read c pad (src + i * pitch) 512 with
    | (.error e, r1) => (.error e, r1)
    | (.ok row, r1) =>
      match Run.readRows c pad src pitch count r1 (i + 1) with
      | (.error e, r2) => (.error e, r2)
      | (.ok rest, r2) => (.ok (row :: rest), r2)

/-- Performs an `aload`: bit for bit. -/
def Run.loadRows (r : Run) (c : Command) (acc : Nat) (pad : Bool) (src pitch first count : Nat) : Work.Answer Unit :=
  match Run.readRows c pad src pitch count r 0 with
  | (.error e, r1) => (.error e, r1)
  | (.ok rows, r1) =>
    let b := r1.st.bank c.core c.ctx
    let m := (List.range (128 * count)).foldl (fun m i =>
      m.set (accKey acc (first + i / 128) (i % 128))
        (BitVec.ofNat 32 (numberOf (((rows.getD (i / 128) []).drop (4 * (i % 128))).take 4)))) b.acc
    (.ok (), { r1 with st := r1.st.setBank c.core c.ctx { b with acc := m } })

/-- `adrain`, with its modifier where it has one: into format A of the slot that the trim selects (09 R235). -/
def adrainWith (m : Option Modifier) (k : BitVec 2) (a : BitVec 7) (r : Bool) (z : Bool) (h : Bool) (p : Bool) (s : State) :
    Result :=
  gate s (fun g =>
      { blockNeeds a.toNat 6 true with
        format := formatWidth (slotA (s.slotWord g g.slotIndex)) != 0
        gantry := true }) fun g =>
    match s.crews.find g.crew with
    | none => .fault .noIssuer
    | some crew =>
      let slot := s.slotWord g g.slotIndex
      let w := formatWidth (slotA slot)
      let dst := if p then (g.sreg a.toNat).setWidth 64 else g.spair a.toNat
      let pitch := (g.sreg (a.toNat + 2)).toNat
      let rows := rowRange (g.sreg (a.toNat + 3))
      let table := (g.sreg (a.toNat + 4)).toNat
      if !rowsValid rows then s.trap g .illegalFormat
      else
        let size := (w + 7) / 8
        let bytes := span rows.2 pitch (128 * w / 8)
        let checks := startCheck p dst.toNat ++ alignCheck size dst.toNat ++ alignCheck size pitch ++
          (if h then alignCheck 4 table else []) ++ (if p then rangeCheck crew.padSize dst.toNat bytes else []) ++
          (if h then rangeCheck crew.padSize table 272 else [])
        s.sendGantryChecked g checks k.toNat false
          (.adrain k.toNat p h z r dst pitch rows.1 rows.2 table (g.sreg (a.toNat + 5)) slot g.trim m
            (crew.record.seed (g.trim.extractLsb 19 17).toNat))
          (rowExtents p dst.toNat pitch rows.2 (128 * w / 8) ++ (if h then extent true table 272 else [])) (wordsOf m)

/-- `adrain` (09 R235). -/
def execAdrain (k : BitVec 2) (a : BitVec 7) (r : Bool) (z : Bool) (h : Bool) (p : Bool) (s : State) : Result :=
  adrainWith none k a r z h p s

/-- The delivered bits and exceptions of an accumulator element (09 R235). -/
def drainElement (slot : BitVec 16) (trim : Word) (m : Option Modifier) (seed key : Word) (x : Word) : Nat × Flags :=
  let code := slotA slot
  if code = 0 && m.isNone then (x.toNat, 0)
  else
    let env : FpEnv :=
      { mode := (trim.extractLsb 10 8).toNat, flush := trim.getLsbD 11 && decide (formatWidth code < 32), seed := seed,
        key := key, outliers := slotOutliers slot, modifier := m }
    let q := match env.read 0 x.toNat with
      | .nan _ => .canonical
      | y => y
    env.result code 0 q (nanFlags 0 [x.toNat])

/-- The bytes of a row of delivered values of `w` bits. -/
def rowBytes (w : Nat) (values : List Nat) : List Byte :=
  if w = 4 then
    (List.range (values.length / 2)).map fun i =>
      BitVec.ofNat 8 (values.getD (2 * i) 0 + 16 * values.getD (2 * i + 1) 0)
  else values.flatMap (bytesOf (w / 8))

/-- Resolves the destination of a drain, row by row. -/
def Run.resolveRows (c : Command) (dst pitch : Nat) : Run → Nat → List (List Byte) → Work.Answer (List (Place × List Byte))
  | r, _, [] => (.ok [], r)
  | r, i, row :: rest =>
    match r.resolve c.core c.ctx .store (row.length + 1) (dst + i * pitch) row with
    | (.error e, r1) => (.error e, r1)
    | (.ok ps, r1) =>
      match Run.resolveRows c dst pitch r1 (i + 1) rest with
      | (.error e, r2) => (.error e, r2)
      | (.ok qs, r2) => (.ok (ps ++ qs), r2)

/-- Performs an `adrain`: its writes, histogram counts, clearing, release of the hold, and exceptions (09 R235). The record of an enabled
trap names no lane (DESIGN CHOICE, log 37: R235 gives it an element's address, and no lanes). -/
def Run.drain (r : Run) (c : Command) (acc : Nat) (pad hist zero release : Bool) (dst pitch first count table : Nat)
    (key : Word) (slot : BitVec 16) (trim : Word) (m : Option Modifier) (seed : Word) : Work.Answer Unit :=
  let b := r.st.bank c.core c.ctx
  let w := formatWidth (slotA slot)
  let results := (List.range count).map fun i => (List.range 128).map fun n =>
    drainElement slot trim m seed (key + BitVec.ofNat 32 (128 * (first + i) + n)) (b.acc.get (accKey acc (first + i) n))
  let rows := results.map fun row => rowBytes w (row.map (·.1))
  let written : Work.Answer Unit :=
    if pad then
      (.ok (), { r with st := (rows.mapIdx fun i row => (i, row)).foldl (fun st x =>
        st.padPut c.crew (dst + x.1 * pitch) x.2) r.st })
    else
      match Run.resolveRows c dst pitch r 0 rows with
      | (.error e, r1) => (.error e, r1)
      | (.ok ps, r1) => (.ok (), { r1 with st := ps.foldl (fun st p => st.putPlace p.1 p.2) r1.st })
  match written with
  | (.error e, r1) => (.error e, r1)
  | (.ok _, r1) =>
    let flat : List (Nat × Flags) := results.flatMap id
    let s1 := match hist, r1.st.crews.find c.crew with
      | true, some crew => r1.st.countBins c.core crew table (flat.map fun (x : Nat × Flags) => binOf (slotA slot) x.1)
      | _, _ => r1.st
    let b1 : Bank :=
      { b with
        acc := if zero then clearRows b.acc acc first count else b.acc
        holds := if release then b.holds.set acc 0 else b.holds }
    let s2 := s1.setBank c.core c.ctx b1
    let all := joinFlags (flat.map (·.2))
    let address (f : Flags) : DWord :=
      match (List.range flat.length).find? fun i => (flat.getD i (0, 0)).2 &&& f != 0 with
      | none => 0
      | some i => BitVec.ofNat 64 (dst + i / 128 * pitch + i % 128 * w / 8)
    (.ok (), { r1 with st := s2.gantryFlags (c.gangs.headD 0) trim all (fun _ => []) address c.pc })

/-- First row and first column of an `arow` block, and whether they are valid for a gang width (09 R236). -/
def arowBlock (x : Word) (width : Nat) : Nat × Nat × Bool :=
  let row := (x.extractLsb 15 0).toNat
  let col := (x.extractLsb 31 16).toNat
  (row, col, (col == 0 || col == 32 || col == 64 || col == 96) && decide (row + width ≤ 192))

/-- `arow.get` (09 R236). -/
def execArowGet (d : BitVec 7) (k : BitVec 2) (a : BitVec 7) (s : State) : Result :=
  gate s (fun _ => { v := (List.range 32).map (· + d.toNat), s := [a.toNat], gantry := true }) fun g =>
    let (row, col, ok) := arowBlock (g.sreg a.toNat) g.width
    if !ok then s.trap g .illegalFormat
    else s.sendGantry g k.toNat false (.rowGet k.toNat d.toNat row col (maskOf (g.active s.group))) []

/-- `arow.put` (09 R236): its sources are taken at issue. -/
def execArowPut (d : BitVec 7) (k : BitVec 2) (a : BitVec 7) (s : State) : Result :=
  gate s (fun _ => { v := (List.range 32).map (· + d.toNat), s := [a.toNat], gantry := true }) fun g =>
    let (row, col, ok) := arowBlock (g.sreg a.toNat) g.width
    if !ok then s.trap g .illegalFormat
    else
      s.sendGantry g k.toNat false
        (.rowPut k.toNat row col (maskOf (g.active s.group))
          ((List.range g.width).map fun l => (List.range 32).map fun j => g.vreg (d.toNat + j) l)) []

/-- Performs an `arow.get`. -/
def State.rowGet (s : State) (c : Command) (acc d row col : Nat) (lanes : DWord) : State :=
  let key := c.gangs.headD 0
  let b := s.bank c.core c.ctx
  match s.gangs.find key with
  | none => s
  | some g =>
    s.setGang key ((List.range 32).foldl (fun h j =>
      h.setV (d + j) (lanesOf lanes g.width) fun l => b.acc.get (accKey acc (row + l) (col + j))) g)

/-- Performs an `arow.put`. -/
def State.rowPut (s : State) (c : Command) (acc row col : Nat) (lanes : DWord) (words : List (List Word)) : State :=
  let b := s.bank c.core c.ctx
  let m := (lanesOf lanes 64).foldl (fun m l =>
    (List.range 32).foldl (fun m j => m.set (accKey acc (row + l) (col + j)) ((words.getD l []).getD j 0)) m) b.acc
  s.setBank c.core c.ctx { b with acc := m }

/-! ### Peer accumulators (09 R237) -/

/-- 64, 128 or 192 rows. -/
def peerRows (m : Nat) : Bool := m == 64 || m == 128 || m == 192

/-- `apeer.send` (09 R237). -/
def execApeerSend (k : BitVec 2) (a : BitVec 7) (s : State) : Result :=
  gate s (fun _ => { blockNeeds a.toNat 3 false with gantry := true }) fun g =>
    let dest := (g.sreg a.toNat).toNat
    let destAcc := (g.sreg (a.toNat + 1)).toNat
    let rows := (g.sreg (a.toNat + 2)).toNat
    let cores := ((s.context g.ctx).map fun c => c.cores.length).getD 0
    if cores ≤ dest then s.trap g .protection
    else if 3 < destAcc || !peerRows rows then s.trap g .illegalFormat
    else s.sendGantry g k.toNat false (.peerSend k.toNat dest destAcc rows) []

/-- The offered sends that no accepted receive has taken, to an accumulator of a context on a core, in issue order. -/
def State.openOffers (s : State) (core ctx acc : Nat) : List Offer :=
  let here := (s.context ctx).map fun c => c.logicalCore core
  (s.bank core ctx).offers.filter fun o =>
    some o.dest == here && o.destAcc == acc && !(s.commands.any fun c =>
      match c.work with
      | .peerRecv _ _ sends _ => sends.contains o.cmd
      | _ => false)

/-- Insertion of a number into a rising list. -/
def insertRising (x : Nat) : List Nat → List Nat
  | [] => [x]
  | y :: rest => if x ≤ y then x :: y :: rest else y :: insertRising x rest

/-- The `n` lowest of the sending cores that offer, ascending; none when fewer offer (09 R237; log 18). -/
def chosenCores (offers : List Offer) (n : Nat) : Option (List Nat) :=
  let cores := ((offers.map fun o => o.core).eraseDups).foldr insertRising []
  if cores.length < n then none else some (cores.take n)

/-- `apeer.recv` (09 R237): it waits at issue until enough sends stand offered. -/
def execApeerRecv (k : BitVec 2) (a : BitVec 7) (s : State) : Result :=
  gate s (fun _ => { blockNeeds a.toNat 2 false with gantry := true }) fun g =>
    let n := (g.sreg a.toNat).toNat
    let rows := (g.sreg (a.toNat + 1)).toNat
    let cores := ((s.context g.ctx).map fun c => c.cores.length).getD 0
    if n = 0 || cores < n || !peerRows rows then s.trap g .illegalFormat
    else
      let offers := s.openOffers (coreOf s.gang) g.ctx k.toNat
      match chosenCores offers n with
      | none => s.waiting
      | some cs =>
        let sends := cs.filterMap fun q => (offers.find? fun o => o.core == q).map fun o => o.cmd
        s.sendGantry g k.toNat true (.peerRecv k.toNat rows sends g.trim) []

/-- The gantry reaches a send: the offer is recorded in the banks of both cores. -/
def State.offerSend (s : State) (c : Command) (acc dest destAcc rows : Nat) : State :=
  match s.context c.ctx with
  | none => s
  | some x =>
    let o : Offer := { cmd := c.id, core := x.logicalCore c.core, dest := dest, acc := acc, destAcc := destAcc, rows := rows }
    let add (st : State) (core : Nat) : State :=
      let b := st.bank core c.ctx
      if b.offers.any fun y => y.cmd == o.cmd then st else st.setBank core c.ctx { b with offers := b.offers ++ [o] }
    let s1 := add (add s c.core) (x.cores.getD dest c.core)
    s1.modifyCommand c.id fun y => { y with offered := true }

/-- Adds a sender's rows into an accumulator: each element one rounding (09 R237). -/
def addRows (m : Cells 32) (acc : Nat) (from_ : Cells 32) (fromAcc rows : Nat) : Cells 32 × Flags :=
  (List.range (128 * rows)).foldl (fun (r : Cells 32 × Flags) i =>
    let x := (r.1.get (accKey acc (i / 128) (i % 128))).toNat
    let y := (from_.get (accKey fromAcc (i / 128) (i % 128))).toNat
    let (v, f) := addNum 0 (decodeNum 0 x) (decodeNum 0 y)
    let (z, f1) := roundNum 0 0 0 v
    (r.1.set (accKey acc (i / 128) (i % 128)) (BitVec.ofNat 32 (deliver 0 false z 0).1),
      r.2 ||| nanFlags 0 [x, y] ||| f ||| f1)) (m, 0)

/-- Performs a receive: the chosen sends' rows, as they stand before it, added in ascending core order, and taken; a row count that differs
stops the context, changing nothing (09 R237). The record of an enabled trap names no lane and no address (DESIGN CHOICE, log 37: R237 says
"as in R235", and there is no element in memory to name). -/
def State.performRecv (s : State) (c : Command) (acc rows : Nat) (sends : List Nat) (trim : Word) : Except EngineFault State :=
  let b := s.bank c.core c.ctx
  let offers := sends.filterMap fun id => b.offers.find? fun o => o.cmd == id
  match s.context c.ctx with
  | none => .ok s
  | some x =>
    if offers.any fun o => o.rows != rows then .error (.stop .engineFault 0)
    else
      let (s1, flags) := offers.foldl (fun (r : State × Flags) (o : Offer) =>
        let st := r.1
        let mine := st.bank c.core c.ctx
        let theirs := s.bank (x.cores.getD o.core c.core) c.ctx
        let (m, f) := addRows mine.acc acc theirs.acc o.acc rows
        (st.setBank c.core c.ctx { mine with acc := m }, r.2 ||| f)) (s, 0)
      let drop (st : State) (core : Nat) : State :=
        let y := st.bank core c.ctx
        st.setBank core c.ctx { y with offers := y.offers.filter fun o => !sends.contains o.cmd }
      let s2 := offers.foldl (fun st o => drop st (x.cores.getD o.core c.core)) (drop s1 c.core)
      let s3 := sends.foldl (fun st id => st.modifyCommand id fun y => { y with done := true }) s2
      .ok (s3.gantryFlags (c.gangs.headD 0) trim flags (fun _ => []) (fun _ => 0) c.pc)

end Sys2Proof.Machine
end

