-- ==== Sys2Proof/Machine/Complete.lean ====
section
/-!
DEFINITION. ENGINE_COMMAND_COMPLETE, ENGINE_ACCESS_FAULT and PILOT_NOTICE: when an engine may perform a command, what it then does,
and completion in issue order (04 R100-R103, R110).
-/
namespace Sys2Proof.Machine

/-- The bytes whose earlier accesses a command comes after: those it reads and writes (04 R100). -/
def State.commandExtents (s : State) (c : Command) : List Extent :=
  match c.work with
  | .copy sp dp src dst n => extent sp src.toNat n ++ extent dp dst.toNat n
  | .tile mode h dst pitch _ _ m n _ index =>
    let size := formatWidth (handleFormat h) / 8
    (handleExtent h).toList ++
      extent true dst (if mode = 1 then span n pitch (m * size) else span m pitch (n * size)) ++
      (if mode = 2 then extent true index (4 * m) else [])
  | .dequant f t h dst pitch page _ n _ =>
    let size := formatWidth f / 8
    extent false page.toNat (pageBytes (handleRows h) (handleColumns h)) ++
      (if n = 0 then []
       else extent true dst (if t then span (handleColumns h) pitch (n * size) else span n pitch (handleColumns h * size)))
  | .gather size index n base data =>
    extent true index (4 * n) ++ extent true data (size * n) ++
      (List.range n).flatMap fun i => extent false (s.elementAddress c size index base i) size
  | .scatter size index n base data =>
    extent true index (4 * n) ++ extent true data (size * n) ++
      (List.range n).flatMap fun i => extent false (s.elementAddress c size index base i) size
  | .joint sparse _ _ slot _ _ parts =>
    match parts with
    | [] => []
    | p :: _ =>
      match s.crews.find c.crew with
      | none => []
      | some crew => jointBytes sparse (crew.record.slot slot) p.scalars
  | .aload _ pad src pitch _ count => rowExtents pad src.toNat pitch count 512
  | .adrain _ pad hist _ _ dst pitch _ count table _ slot _ _ _ =>
    rowExtents pad dst.toNat pitch count (128 * formatWidth (slotA slot) / 8) ++
      (if hist then extent true table 272 else [])
  | _ => []

/-- The index list of a lighter command, and the table to which it takes its elements (04 R107). -/
def Work.listed (w : Work) : List Extent × List Extent :=
  match w with
  | .gather size index n base _ => (extent true index (4 * n), extent false base.toNat (2 ^ 32 * size))
  | .scatter size index n base _ => (extent true index (4 * n), extent false base.toNat (2 ^ 32 * size))
  | _ => ([], [])

/-- The pilot has yet to perform, for a notice that a gang of a command has issued before it, an access to some of the runs (04 R100,
R112). -/
def State.noticeMeets (s : State) (c : Command) (l : List Extent) : Bool :=
  c.gangs.any fun key =>
    ((s.gangs.find key).bind fun g => g.chain).any fun x =>
      x.notices.any fun n => decide (n.id ≤ c.id) && s.anyShared c.ctx n.extents l

/-- The bytes that an outstanding command may touch: where an earlier command or notice has yet to write the index list of a lighter
command, any of the table's (04 R100). -/
def State.pendingExtents (s : State) (c : Command) : List Extent :=
  let (list, table) := c.work.listed
  let unwritten : Bool :=
    (s.commands.any fun x => x.before c && !x.done && s.anyShared c.ctx (s.commandExtents x) list) || s.noticeMeets c list
  s.commandExtents c ++ if unwritten then table else []

/-- Every earlier access of the command's gangs to its bytes has performed: logged stores have been replayed, overlapping commands are done,
and notices to whose pages the pilot had committed before are written (04 R100; a notice is an item issued at its commitment, R112). -/
def State.bytesClear (s : State) (c : Command) : Bool :=
  let mine := s.commandExtents c
  !(s.commands.any fun x => x.before c && !x.done && s.anyShared c.ctx (s.pendingExtents x) mine) && !s.noticeMeets c mine &&
  !(c.gangs.any fun key => (s.sideLogOf key).any fun e => s.entryMeets key c.ctx c.id mine e)

/-- The command's turn in its engine: a crane or lighter command follows those of its class and gang; a gantry instruction follows
every one the gantry accepted before, but for offered sends and for what waits behind them (04 R101, 09 R226, R237). -/
def State.engineTurn (s : State) (c : Command) : Bool :=
  match c.cls with
  | .gantry =>
    let stuck := s.stuck c.core
    !stuck.contains c.id &&
      !(s.commands.any fun x => decide (x.id < c.id) && x.inGantry c.core && !stuck.contains x.id)
  | cls => !(s.commands.any fun x => x.before c && x.cls == cls && !x.done)

/-- What an engine has yet to do: a command, or a notice of a gang. -/
inductive Errand where
  | command (c : Command)
  | notice (key : Nat) (n : Notice)
  deriving DecidableEq, Repr

/-- Its place in issue order, a notice before the command of its serial number (04 R112). -/
def Errand.order (e : Errand) : Nat :=
  match e with
  | .command c => 2 * c.id + 1
  | .notice _ n => 2 * n.id

/-- Inserts an errand in issue order. -/
def insertErrand (e : Errand) : List Errand → List Errand
  | [] => [e]
  | x :: rest => if e.order < x.order then e :: x :: rest else x :: insertErrand e rest

/-- What the engines have yet to do, in issue order. -/
def State.errands (s : State) : List Errand :=
  let notices := s.gangs.flatMap fun e => ((e.2.chain.map fun c => c.notices).getD []).map fun n => Errand.notice e.1 n
  notices.foldl (fun acc n => insertErrand n acc) ((s.commands.filter fun c => !c.done).map Errand.command)

/-- A later errand waits for an earlier one: it is of its class and gang, touches its bytes, or is behind it in its gantry (04 R100, R101;
09 R226). -/
def State.waitsFor (s : State) (later earlier : Errand) : Bool :=
  match later, earlier with
  | .command c, .command x =>
    (x.before c && ((x.cls == c.cls && c.cls != .gantry) || s.anyShared c.ctx (s.pendingExtents x) (s.commandExtents c))) ||
      (c.cls == .gantry && decide (x.id < c.id) && x.inGantry c.core && !(s.stuck c.core).contains x.id)
  | .command c, .notice key n =>
    c.gangs.contains key && decide (n.id ≤ c.id) && s.anyShared c.ctx n.extents (s.commandExtents c)
  | .notice key n, .command x =>
    x.gangs.contains key && decide (x.id < n.id) && s.anyShared x.ctx (s.pendingExtents x) n.extents
  | .notice key _, .notice k _ => key == k

/-- The gantry instructions of a context that its gantries have accepted, but for sends that stand offered and what waits behind these, or
behind an instruction that has stopped or holds: they run to their end though its halt line rises (09 R222; 19 R368; log 11). -/
def State.accepted (s : State) (ctx : Nat) : List Nat :=
  (s.commands.filter fun c =>
    c.ctx == ctx && c.inGantry c.core && !(s.stuck c.core).contains c.id &&
      !(s.commands.any fun x => decide (x.id ≤ c.id) && x.inGantry c.core && (x.stopped || !s.mayRetry x.held x.id))).map fun c => c.id

/-- The accepted gantry instructions of a context, with all that they wait for, of any context (19 R368; log 11). -/
def State.awaited (s : State) (ctx : Nat) : List Errand :=
  let accepted := s.accepted ctx
  if accepted.isEmpty then []
  else
    s.errands.foldr (fun e kept =>
      let starts := match e with
        | .command c => accepted.contains c.id
        | .notice .. => false
      if starts || kept.any fun k => s.waitsFor k e then e :: kept else kept) []

/-- An engine goes on with its work for a context: this runs, or its line has risen and it is work that runs to its end (09 R222; 19 R367,
R368). -/
def State.worksOn (s : State) (ctx : Nat) (e : Errand) : Bool :=
  s.enginesRun ctx || (s.lineRaised ctx && (s.awaited ctx).contains e)

/-- The engine may perform the command: it is no send that stands offered, it has not stopped, its context runs, it is not held, it is its
turn, and its bytes are clear (04 R100, R103; 19 R367). Some commands run to their end though the halt line has risen (09 R222; 19 R368,
R369; log 11). -/
def State.mayPerform (s : State) (c : Command) : Bool :=
  !c.done && !c.offered && !c.stopped && s.worksOn c.ctx (.command c) && s.mayRetry c.held c.id && s.engineTurn c && s.bytesClear c

/-- Performs elements of a command from its progress: about `limit` of them where that is not zero, up to a sector boundary (19 R370).
What is answered: the progress reached, whether all is done, and the fault (log 14). -/
def Run.perform (r : Run) (c : Command) (limit : Nat) : Nat × Bool × Option EngineFault × Run :=
  let upTo (sector : Nat → Bool × Nat) (n : Nat) : Nat := sectorStop sector n c.progress limit - c.progress
  let elements (n : Nat) (x : Nat × Option EngineFault × Run) : Nat × Bool × Option EngineFault × Run :=
    (x.1, decide (n ≤ x.1) && x.2.1.isNone, x.2.1, x.2.2)
  let whole (x : Work.Answer Unit) : Nat × Bool × Option EngineFault × Run :=
    match x with
    | (.error e, r1) => (0, false, some e, r1)
    | (.ok _, r1) => (0, true, none, r1)
  let plain (x : Except EngineFault State) : Nat × Bool × Option EngineFault × Run :=
    match x with
    | .error e => (0, false, some e, r)
    | .ok st => (0, true, none, { r with st := st })
  match c.work with
  | .copy sp dp src dst n => elements n (r.copy c sp dp src.toNat dst.toNat n (if limit = 0 then n else min n (c.progress + limit)) c.progress)
  | .tile mode h dst pitch r0 c0 m n pad index =>
    let sector (t : Nat) : Bool × Nat := sectorOf (handlePad h) (r.st.tilePlaces c mode h dst pitch r0 c0 n index t)
    elements (m * n) (r.elements (Run.tileElement c mode h dst pitch r0 c0 n pad index) (upTo sector (m * n)) c.progress)
  | .dequant f t h dst pitch page j0 n pad =>
    let count := n * handleColumns h
    elements count (r.dequant c f t h dst pitch page j0 pad (upTo (codeSector h page.toNat j0) count) c.progress)
  | .gather size index n base data =>
    let sector (i : Nat) : Bool × Nat := (false, r.st.elementAddress c size index base i / 32)
    elements n (r.elements (Run.gatherElement c size index base data) (upTo sector n) c.progress)
  | .scatter size index n base data =>
    elements n (r.scatter c size index n base data limit c.progress)
  | .joint sparse acc keep slot _ latch parts =>
    plain (r.st.performJoint c sparse acc keep
      (((r.st.crews.find c.crew).map fun x => x.record.slot slot).getD 0) latch parts)
  | .azero acc =>
    let b := r.st.bank c.core c.ctx
    plain (.ok (r.st.setBank c.core c.ctx { b with acc := clearRows b.acc acc 0 192 }))
  | .aload acc pad src pitch first count => whole (r.loadRows c acc pad src.toNat pitch first count)
  | .adrain acc pad hist zero release dst pitch first count table key slot trim m seed =>
    whole (r.drain c acc pad hist zero release dst.toNat pitch first count table key slot trim m seed)
  | .peerSend acc dest destAcc rows => (0, false, none, { r with st := r.st.offerSend c acc dest destAcc rows })
  | .peerRecv acc rows sends trim => plain (r.st.performRecv c acc rows sends trim)
  | .rowGet acc d row col lanes => plain (.ok (r.st.rowGet c acc d row col lanes))
  | .rowPut acc row col lanes words => plain (.ok (r.st.rowPut c acc row col lanes words))

/-- A gantry instruction takes its accumulator's hold where its crew's earlier `adrain` has released it (09 R225). It does so when the gantry
reaches it, and another crew may hold the accumulator in between (DESIGN CHOICE, log 36: 09 R225 gives the hold at acceptance, when the crew
still holds it, and does not say who holds it after the release). -/
def State.retakeHold (s : State) (c : Command) : State :=
  match c.work.accumulator with
  | none => s
  | some acc => if (s.bank c.core c.ctx).holder acc = 0 then s.acceptGantry c.core c.ctx c.crew acc else s

/-- A command completes: it leaves its gangs' counters, and makes its arrival (04 R101, R102, R113). -/
def State.completeCommand (s : State) (c : Command) : State :=
  let s1 : State := { s with commands := s.commands.filter fun x => x.id != c.id }
  let s2 := (c.gangs.zip c.counted).foldl (fun acc p =>
    match acc.gangs.find p.1 with
    | none => acc
    | some g => acc.setGang p.1 ((g.uncount p.2 c.seen).classDone (classCode c.cls) c.seen)) s1
  s2.engineArrive c.crew (c.gangs.headD 0) c.arrival

/-- Completes, oldest first, each done command before which none of its class and gangs is outstanding (04 R101). -/
def State.completeDone (s : State) : State :=
  s.commands.foldl (fun acc c =>
    if c.done && !(acc.commands.any fun x => x.before c && x.cls == c.cls) then acc.completeCommand c else acc) s

/-- What an engine's work leaves in its command: the progress, and what served its reads (05 R136). -/
def Command.worked (c : Command) (progress : Nat) (r : Run) : Command :=
  { c with progress := progress, seen := maxEpochs c.seen r.seen }

/-- The run of a command from a state. -/
def Run.of (s : State) (c : Command) : Run := Run.start s c.stamp (c.cls == .lighter)

/-- ENGINE_COMMAND_COMPLETE (04 R101, R370): the engine performs the command, and it completes in order. Subject: `who` is the
command; with `flag` the engine performs only `what` further elements of it, and it stays outstanding. An access that fails is
ENGINE_ACCESS_FAULT. -/
def execEngineCommandComplete (s : State) : Result :=
  match s.commands.find? fun c => c.id == s.subject.who with
  | none => .next s
  | some c =>
    if !s.mayPerform c then .next s
    else
      let (progress, done, fault, r) := (Run.of (s.retakeHold c) c).perform c (if s.subject.flag then s.subject.what else 0)
      match fault with
      | some e =>
        let s1 := r.st.modifyCommand c.id fun x => x.worked progress r
        .next (s1.commandFault (c.worked progress r) e)
      | none =>
        let s1 := r.st.modifyCommand c.id fun x => { x.worked progress r with held := none, done := done }
        .next s1.completeDone

/-- ENGINE_ACCESS_FAULT (04 R103): the access that would now fault in the command holds it, with its record, or stops its context.
Subject: `who` is the command. Where no access faults, nothing happens. -/
def execEngineAccessFault (s : State) : Result :=
  match s.commands.find? fun c => c.id == s.subject.who with
  | none => .next s
  | some c =>
    if !s.mayPerform c then .next s
    else
      let (progress, _, fault, r) := (Run.of s c).perform c 0
      match fault with
      | none => .next s
      | some e =>
        let s1 := r.st.modifyCommand c.id fun x => x.worked progress r
        .next (s1.commandFault (c.worked progress r) e)

/-- The pilot reads the header of a notice's page, and may then commit to the next (04 R110). -/
def State.pilotRead (s : State) (key : Nat) (g : Gang) (c : Chain) (n : Notice) : Except EngineFault Gang × State :=
  match (Run.start s n.stamp).pageHeader (coreOf key) g.ctx n.page n.pageSize with
  | (.error e, r) => (.error e, r.st)
  | (.ok (next, words), r) =>
    (.ok (r.st.pilotCommit { g with chain := some (c.readHeader n next words r.seen) }), r.st)

/-- The notice that the pilot acts for: the oldest, which it writes, or ahead of that the oldest whose page's header it has yet to read. -/
def Chain.nextNotice (c : Chain) (ahead : Bool) : Option Notice := if ahead then c.unread else c.notices.head?

/-- The pilot may act for a notice: it works on, a header that it has yet to read holds no fault, and the bytes are clear. -/
def State.pilotMay (s : State) (key ctx : Nat) (n : Notice) : Bool :=
  s.worksOn ctx (.notice key n) && (n.terminal || n.header.isSome || s.mayRetry n.held n.chain) &&
    s.pilotClear key ctx n s.pendingExtents

/-- PILOT_NOTICE (04 R110): the pilot writes its oldest notice, reading its page's header first where it has not; with `flag` it only reads,
ahead of the notices still to be written, the header of the oldest page whose header it has not read. Subject: `who` is the gang. -/
def execPilotNotice (s : State) : Result :=
  let key := s.subject.who
  match s.gangs.find key with
  | none => .next s
  | some g0 =>
    let g := s.pilotCommit g0
    match g.chain.bind fun c => (c.nextNotice s.subject.flag).map fun n => (c, n) with
    | none => .next (s.setGang key g)
    | some (c, n) =>
      if !s.pilotMay key g.ctx n then .next (s.setGang key g)
      else if n.terminal || n.header.isSome then .next (s.writeNotice key g c n)
      else
        match s.pilotRead key g c n with
        | (.error e, s1) => .next (s1.chainFault key g c n e)
        | (.ok g1, s1) =>
          match g1.chain.bind fun x => (x.notices.find? fun m => m.is n).map fun m => (x, m) with
          | some (x, m) => if s.subject.flag then .next (s1.setGang key g1) else .next (s1.writeNotice key g1 x m)
          | none => .next (s1.setGang key g1)

/-- An errand can go on now. -/
def State.canMove (s : State) (e : Errand) : Bool :=
  match e with
  | .command c => s.mayPerform c
  | .notice key n =>
    (s.gangs.find key).any fun g => (g.chain.bind fun c => c.notices.head?) == some n && s.pilotMay key g.ctx n

end Sys2Proof.Machine
end

