-- ==== Sys2Proof/Machine/Launch.lean ====
section
/-!
DEFINITION. Launch records and their checks, the fit of crews on cores, the placement of a crew, and its end (01 R14, R23-R33;
07 R186; 11 R253; 13 R301-R305).
-/
namespace Sys2Proof.Machine

/-! ### Launch records (01 R23-R29) -/

/-- The numbers of `n` bytes each, at `off`, `off + n`, … -/
def fieldsOf (b : List Byte) (off n count : Nat) : List Nat :=
  (List.range count).map fun i => numberOf ((b.drop (off + n * i)).take n)

/-- The field of `n` bytes at an offset. -/
def fieldAt (b : List Byte) (off n : Nat) : Nat := numberOf ((b.drop off).take n)

/-- The record that 256 bytes hold (01 R23). -/
def LaunchRecord.of (b : List Byte) : LaunchRecord where
  entry := BitVec.ofNat 64 (fieldAt b 0 8)
  prologue := BitVec.ofNat 64 (fieldAt b 8 8)
  body := BitVec.ofNat 64 (fieldAt b 16 8)
  retire := BitVec.ofNat 64 (fieldAt b 24 8)
  crewCount := BitVec.ofNat 64 (fieldAt b 32 8)
  params := BitVec.ofNat 64 (fieldAt b 40 8)
  geometry := BitVec.ofNat 32 (fieldAt b 48 4)
  control := BitVec.ofNat 32 (fieldAt b 52 4)
  ident := BitVec.ofNat 32 (fieldAt b 56 4)
  preds := (fieldsOf b 64 4 4).map (BitVec.ofNat 32)
  seeds := (fieldsOf b 80 4 4).map (BitVec.ofNat 32)
  slots := (fieldsOf b 96 2 8).map (BitVec.ofNat 16)
  roles := BitVec.ofNat 64 (fieldAt b 112 8)
  convoys := (fieldsOf b 128 4 8).map (BitVec.ofNat 32)

/-- Vector registers per lane (01 R24). -/
def LaunchRecord.registers (r : LaunchRecord) : Nat := 8 * ((r.geometry.extractLsb 9 6).toNat + 1)

/-- Scratchpad granules of a crew (01 R24). -/
def LaunchRecord.granules (r : LaunchRecord) : Nat := (r.geometry.extractLsb 20 10).toNat

/-- The code of the mooring slot size (01 R24). -/
def LaunchRecord.mooringCode (r : LaunchRecord) : Nat := (r.geometry.extractLsb 23 21).toNat

/-- The mooring entries a crew owns (03 R90). -/
def LaunchRecord.mooringEntries (r : LaunchRecord) : Nat :=
  if r.mooringCode = 0 then 0 else min (4096 * r.granules / (128 * 2 ^ r.mooringCode)) 1024

/-- The number of predecessors (01 R25). -/
def LaunchRecord.predCount (r : LaunchRecord) : Nat := (r.control.extractLsb 14 12).toNat

/-- The predecessors of a launch (01 R23). -/
def LaunchRecord.predecessors (r : LaunchRecord) : List Word := r.preds.take r.predCount

/-- The priority of a launch (01 R25). -/
def LaunchRecord.priority (r : LaunchRecord) : Nat := (r.control.extractLsb 11 9).toNat

/-- The gangs a convoy definition lists, in list order (01 R26). -/
def convoyGangs (w : Word) : List Nat := (List.range (w.extractLsb 31 29).toNat).map fun j => w.toNat / 16 ^ j % 16

/-- A convoy definition keeps R26, with `n` gangs in the crew. -/
def convoyValid (w : Word) (n : Nat) : Bool :=
  let count := (w.extractLsb 31 29).toNat
  if count = 0 then w == 0
  else
    decide (2 ≤ count) && decide (count ≤ 6) && decide ((w.extractLsb 28 24).toNat = 0) &&
    decide ((w.extractLsb 23 0).toNat < 16 ^ count) && (convoyGangs w).all (fun g => decide (g < n)) &&
    decide ((convoyGangs w).eraseDups.length = count)

/-- A format slot holds no reserved value, and outliers only beside E2M1 or INT4 (01 R27-R29). -/
def formatSlotValid (w : BitVec 16) : Bool :=
  let a := (w.extractLsb 3 0).toNat
  let b := (w.extractLsb 7 4).toNat
  decide ((w.extractLsb 15 12).toNat = 0) && decide ((w.extractLsb 9 8).toNat ≤ 1) && decide (a ≤ 8) && decide (b ≤ 8) &&
  (!w.getLsbD 10 || [a, b].any fun x => x == 5 || x == 7)

/-- A code address: below 2⁴⁸ and a multiple of 4 (01 R23). -/
def codeAddress (a : DWord) : Bool := decide (a.toNat < 2 ^ 48) && decide (a.toNat % 4 = 0)

/-- The record passes R29, but for its address and its identifier's being free. -/
def LaunchRecord.valid (r : LaunchRecord) (b : List Byte) : Bool :=
  let sections := [r.prologue, r.body, r.retire]
  let quantisation := (r.control.extractLsb 19 15).toNat
  [r.entry, r.prologue, r.body, r.retire].all codeAddress && r.entry != 0 && r.crewCount != 0 && r.ident != 0 &&
  decide (fieldAt b 0x3C 4 = 0) && decide (fieldAt b 0x78 8 = 0) && decide (numberOf (b.drop 0xA0) = 0) &&
  decide ((r.geometry.extractLsb 31 24).toNat = 0) && decide (r.mooringCode ≤ 5) && decide (r.granules ≤ 1024) &&
  decide ((r.geometry.extractLsb 1 0).toNat ≤ 2) && decide ((r.control.extractLsb 31 20).toNat = 0) &&
  decide (r.predCount ≤ 4) && (r.preds.drop r.predCount).all (· == 0) &&
  (if r.reproducible then decide (6 ≤ quantisation) && decide (quantisation ≤ 20) else quantisation == 0) &&
  (if r.refill then sections.all (· != 0) && decide (1 ≤ r.threshold) && decide (r.threshold ≤ r.width)
   else sections.all (· == 0) && r.threshold == 0) &&
  decide (r.roles.toNat / 16 ^ r.gangCount = 0) && r.slots.all formatSlotValid &&
  r.convoys.all (fun w => convoyValid w r.gangCount) &&
  (List.range r.gangCount).all fun g => decide (((r.convoys.filter fun w => (convoyGangs w).contains g).length ≤ 4))

/-! ### The fit of a crew (13 R302, R303) -/

/-- The use of a partition as crews are placed: its number, free register bytes, and occupied positions. -/
structure Room where
  partition : Nat
  free : Nat
  taken : List Nat
  deriving DecidableEq, Repr

/-- The partition with most free bytes among those that can take a gang; ties to the lower number (13 R303). -/
def pickRoom (need : Nat) : List Room → Option Room
  | [] => none
  | r :: rest =>
    let best := pickRoom need rest
    if need ≤ r.free ∧ r.taken.length < 8 then
      match best with
      | none => some r
      | some b => if b.free ≤ r.free then some r else some b
    else best

/-- The rotation position a gang takes in a partition: of the port that serves fewer gangs, port 0 on a tie, the lowest free
one (13 R303). -/
def pickPosition (taken : List Nat) : Nat :=
  let count (port : Nat) : Nat := (taken.filter fun p => p % 2 == port).length
  let port := if count 1 < count 0 then 1 else 0
  ((List.range 8).find? fun p => p % 2 == port && !taken.contains p).getD 0

/-- Places `n` gangs one after another: partition x 8 + position of each, or none where one finds no room (13 R303). -/
def placeGangs (need : Nat) : Nat → List Room → Option (List Nat)
  | 0, _ => some []
  | n + 1, rooms =>
    match pickRoom need rooms with
    | none => none
    | some r =>
      let p := pickPosition r.taken
      let rooms' := rooms.map fun x =>
        if x.partition == r.partition then { x with free := x.free - need, taken := x.taken ++ [p] } else x
      (placeGangs need n rooms').map fun rest => (r.partition * 8 + p) :: rest

/-- The enabled partitions of a core with what stands in them; `empty`: as if nothing did. -/
def State.rooms (s : State) (core : Nat) (empty : Bool) : List Room :=
  ((List.range 16).filter fun p => !(s.core core).disabledPartitions.contains p).map fun p =>
    let here := if empty then [] else s.gangs.filter fun e => e.1 / 8 == core * 16 + p
    { partition := p, free := 65536 - (here.map fun e => e.2.width * e.2.nregs * 4).sum, taken := here.map fun e => e.1 % 8 }

/-- The crews resident on a core. -/
def State.crewsOn (s : State) (core : Nat) : List Crew := (s.crews.filter fun e => e.1 / 8 == core).map (·.2)

/-- Where the gangs of a crew would stand on a core, if the crew fits there (13 R302; 03 R90, 01 R30). `empty`: with the core
empty. -/
def State.fits (s : State) (core : Nat) (r : LaunchRecord) (empty : Bool) : Option (List Nat) :=
  let crews := if empty then [] else s.crewsOn core
  let moored := crews.filter fun c => c.record.mooringCode != 0
  if 8 ≤ crews.length then none
  else if 1024 < (crews.map fun c => c.record.granules).sum + r.granules then none
  else if r.mooringCode ≠ 0 ∧ (moored.any (fun c => c.record.mooringCode != r.mooringCode) ||
      decide (1024 < (moored.map fun c => c.record.mooringEntries).sum + r.mooringEntries)) then none
  else placeGangs (r.width * r.registers * 4) r.gangCount (s.rooms core empty)

/-! ### The start of a crew (01 R14, 11 R243, R252-R254) -/

/-- A slice right after its crew starts: one entry enabling all four lanes (11 R243). -/
def Slice.start (entry : DWord) : Slice where
  pc := entry
  stack := [{ mask := 0xF, kind := .running, addr := 0 }]
  status := .running
  group := 0
  parked := false
  yielded := none

/-- A gang right after its crew starts (01 R14, 04 R112, 05 R136). -/
def Gang.start (ctx crew index crewIndex : Nat) (r : LaunchRecord) : Gang where
  ctx := ctx
  crew := crew
  index := index
  width := r.width
  nregs := r.registers
  v := []
  s := []
  p := []
  k := []
  srkey := (List.range r.width).foldl (fun m l =>
    Cells.set m l (BitVec.ofNat 32 (l + r.width * (index + r.gangCount * crewIndex)))) []
  trim := 0
  fpflags := 0
  ages := List.replicate r.width 0xFFFFFFFF
  slices := List.replicate (r.width / 4) (Slice.start r.entry)
  lastGroup := 0
  words := 0
  convoy := none
  rc := List.replicate 8 { count := 0, binding := 0, seen := noEpochs }
  loads := []
  chain := none
  wait := .none
  waited := 0
  held := none
  stop := none
  stamp := noEpochs
  seen := noEpochs
  classSeen := List.replicate 5 noEpochs
  alloc := none
  refill := none

/-- The convoy-table entries of a crew (11 R254). -/
def LaunchRecord.convoyTable (r : LaunchRecord) : List Convoy :=
  ((List.range 8).filter fun i => !(convoyGangs (r.convoys.getD i 0)).isEmpty).map fun i =>
    { defn := i, gangs := convoyGangs (r.convoys.getD i 0), arrivals := [], total := 0 }

/-- A granule given to a crew of a context: it is zeroed unless a crew of the same context held it last (11 R253). -/
def Core.giveGranule (c : Core) (ctx granule : Nat) : Core :=
  if (c.holders.get granule).toNat = ctx + 1 then c
  else
    { c with
      scratch := c.scratch.filter fun e => e.1 / 4096 != granule
      holders := c.holders.set granule (BitVec.ofNat 32 (ctx + 1)) }

/-- Gives `n` of the free granules, in an order the spec leaves open (11 R253; log 17). -/
def State.giveGranules (s : State) (core ctx : Nat) : Nat → List Nat → List Nat × State
  | 0, _ => ([], s)
  | n + 1, free =>
    match free with
    | [] => ([], s)
    | _ =>
      let i := Config.granulePick free.length s.serial % free.length
      let g := free.getD i 0
      let s1 := { s with serial := s.serial + 1 }.setCore core ((s.core core).giveGranule ctx g)
      let (rest, s2) := State.giveGranules s1 core ctx n (free.eraseIdx i)
      (g :: rest, s2)

/-- The free granules of a core. -/
def State.freeGranules (s : State) (core : Nat) : List Nat :=
  let used := (s.crewsOn core).flatMap fun c => c.granules
  (List.range 1024).filter fun g => !used.contains g

/-- The lowest free crew slot of a core. -/
def State.freeSlot (s : State) (core : Nat) : Nat :=
  ((List.range 8).find? fun i => (s.crews.find (core * 8 + i)).isNone).getD 0

/-- Places crew `index` of a launch on a core, its gangs at the given positions (13 R301-R303). -/
def State.placeCrew (s : State) (ctx core : Nat) (launch : Launch) (positions : List Nat) : State :=
  let r := launch.record
  let slot := core * 8 + s.freeSlot core
  let (granules, s1) := s.giveGranules core ctx r.granules (s.freeGranules core)
  let keys := positions.map fun p => core * 128 + p
  let crew : Crew :=
    { ctx := ctx, launch := r.ident, record := r, index := launch.nextCrew, gangs := keys, granules := granules,
      barriers := [], convoys := r.convoyTable, manifest := none, mooring := [] }
  let s2 := s1.setCrew slot crew
  let s3 := (List.range keys.length).foldl (fun acc g =>
    acc.setGang (keys.getD g 0) (Gang.start ctx slot g launch.nextCrew r)) s2
  let c := s3.core core
  let s4 := s3.setCore core { c with placed := ctx :: c.placed.filter (· != ctx) }
  s4.modifyContext ctx fun x =>
    { x with
      launches := x.launches.map fun l => if l.record.ident == r.ident then { l with nextCrew := l.nextCrew + 1 } else l }

/-! ### The end of a crew (07 R186, 09 R225, 13 R304) -/

/-- Every gang of the crew has ended and every item they issued has completed (07 R186). -/
def State.crewDone (s : State) (key : Nat) (c : Crew) : Bool :=
  (c.gangs.all fun k =>
    match s.gangs.find k with
    | none => true
    | some g => g.hasEnded && g.stop.isNone && g.loads.isEmpty && g.ccpilot == 0 && !s.hasLogged k) &&
  !(s.commands.any fun x => x.crew == key)

/-- The key of an operand latch that belongs to a crew: a solo gang's, or that of one of the crew's convoy definitions (09 R224). -/
def Crew.ownsLatch (c : Crew) (key latch : Nat) : Bool :=
  c.gangs.any (fun g => gangField g == latch) || latch / 8 == 16 + key % 8

/-- The crew is released: its gangs, scratchpad, counters, convoy-table and mooring entries, the accumulators it holds and its operand
latches; and its core has the first claim on the next crew (07 R186, 09 R224, R225, 13 R304). -/
def State.releaseCrew (s : State) (key : Nat) (c : Crew) : State :=
  let core := key / 8
  let drop (b : Bank) : Bank :=
    { b with
      holds := b.holds.filter fun e => e.2 != BitVec.ofNat 32 (key + 1)
      latches := b.latches.filter fun e => !c.ownsLatch key e.1 }
  let s1 : State :=
    { s with crews := s.crews.erase key, gangs := s.gangs.filter fun e => !c.gangs.contains e.1 }
  let s2 :=
    match (s1.core core).banks.find c.ctx with
    | none => s1
    | some b => s1.setBank core c.ctx (drop b)
  s2.modifyContext c.ctx fun x =>
    { x with
      launches := x.launches.map fun l => if l.record.ident == c.launch then { l with crewsEnded := l.crewsEnded + 1 } else l
      freed := x.freed ++ [(s.clock, core)] }

/-- CREW_END (07 R186). Subject: `who` is the crew. -/
def execCrewEnd (s : State) : Result :=
  match s.crews.find s.subject.who with
  | none => .next s
  | some c =>
    if s.crewDone s.subject.who c && s.enginesRun c.ctx then .next (s.releaseCrew s.subject.who c) else .next s

end Sys2Proof.Machine
end

