-- ==== Sys2Proof/Machine/Replay.lean ====
section
/-!
DEFINITION. Retries: replaying the side logs, and every other held access made due (16 R331, R332; 17 R354, R356, R419); and
`chfree.ret`, whose completion retries stores that found their pool short (17 R357).
-/
namespace Sys2Proof.Machine

/-- The record of a side-logged store that faults again: flag [0] (16 R333). -/
def State.entryRecord (s : State) (core : Nat) (e : SideEntry) (f : AccessFault) : FaultRecord where
  address := f.addr
  timestamp := s.timestamp
  ctx := e.ctx
  cause := f.cause
  flags := 1
  core := ((s.context e.ctx).map fun c => c.logicalCore core).getD 0xFFFF
  gang := gangField e.gang
  level := f.level
  age := e.age

/-- An entry's access faults at a retry: it stays, with a record where cause or address differ from its last one (16 R331). -/
def State.refault (s : State) (core : Nat) (e : SideEntry) (f : AccessFault) : SideEntry × State :=
  ({ e with cause := f.cause, faultAt := some f.addr },
    if e.cause = f.cause ∧ e.faultAt = some f.addr then s else s.postFault f (s.entryRecord core e f) (.gang e.gang))

/-- A replayed store stops its context: the halt line rises, and the record names the entry (17 R419, 19 R396). -/
def State.stopEntry (s : State) (core : Nat) (e : SideEntry) (source : Nat) (cause : Trap) (addr : DWord) : State :=
  let r : StopRecord :=
    { timestamp := s.timestamp, source := source, cause := cause, flags := s.originFlag e.ctx, ctx := e.ctx,
      core := if coreSource source then ((s.context e.ctx).map fun c => c.logicalCore core).getD 0xFFFF else 0xFFFF,
      laneMask := maskOf e.lane.toList, age := e.age, gang := gangField e.gang, code := 0, address := addr, pc := 0,
      trapPc := 0, launch := e.launch }
  (s.raiseLine e.ctx cause).modifyContext e.ctx fun c =>
    { c with halt := c.halt.map fun h => { h with records := h.records ++ [r] } }

/-- The source number of a core's memory-access unit and side log (19 R373). -/
def sideLogSource (core : Nat) : Nat := dieOf core * 4096 + core % 48 * 16 + 4

/-- Performs an entry where its access goes; a partial write that meets a sector it cannot correct stops the context, and the
entry stays (19 R396; log 39). An entry of `strel` begins an epoch (05 R135; log 42). -/
def State.performEntry (s : State) (core : Nat) (e : SideEntry) (op : SideOp) (va : Nat) (p : Place) : Option SideEntry × State :=
  let r : Reaching := { lane := 0, addr := va, place := .ok p }
  match s.badAt e.size r with
  | some a => (some e, s.stopEntry core e (memorySource (r.machine.getD 0)) .memoryUncorrectable a)
  | none =>
    let s1 := s.performAt op p e.size e.data
    if e.release then
      let s2 := s1.release core
      (none, { s2 with gangs := s2.gangs.update fun key g => if key = e.gang then g.released s2 core else g })
    else (none, s1)

/-- What the retry of a chart store leaves: its reads of links, and its swap, reach the gang's stamp (17 R360; 05 R136). -/
def Run.leave (r : Run) (core : Nat) (e : SideEntry) : State :=
  { r.st with gangs := r.st.gangs.update fun key g => if key = e.gang then (g.saw r.seen).afterChart r core else g }

/-- Puts back the blocks that an entry owes, each into its pool: those still owed where a step fails (17 R354). -/
def Run.repay (core ctx : Nat) : List (Nat × Nat) → Run → Except (EngineFault × List (Nat × Nat)) Unit × Run
  | [], r => (.ok (), r)
  | b :: rest, r =>
    match r.putBlock core ctx b.1 b.2 .store with
    | (.error e, r1) => (.error (e, b :: rest), r1)
    | (.ok _, r1) => Run.repay core ctx rest r1

/-- The retry of a chart store up to its element write: it walks afresh, and allocates in one step; a swap that it loses it follows by
another walk, at most five times (17 R355, R419), after which the entry stays for the next retry. -/
def Run.retryElement (core : Nat) (kept : List SideEntry) (e : SideEntry) (c : Chart) (p : Coords) : Nat → Run → LaneAnswer
  | 0, r => (.ok .behind, r)
  | fuel + 1, r =>
    match r.storeElement e.gang e.ctx e.repro c p kept 0 true with
    | (.error (.begun a), r1) =>
      match r1.settle core e.ctx c.pool a with
      | (.error (.wait, _), _) => (.error .waits, r)
      | (.error x, r2) => (laneFailure x, r2)
      | (.ok none, r2) => Run.retryElement core kept e c p fuel r2
      | (.ok (some tile), r2) =>
        ({ r2 with st := r2.st.clbForget core e.ctx c.desc (tileOf p) } : Run).elementPlace e.gang e.ctx c kept (tile + c.offset p)
    | x => x

/-- A retry of a chart store: the blocks it owes go back first, its descriptor is checked, and its lane walks and acts (17 R354, R419). The
entry as it stays, if it does. -/
def State.retryChart (s : State) (core : Nat) (kept : List SideEntry) (e : SideEntry) (desc : DWord) (p : Coords) : Option SideEntry × State :=
  let stay (r : Run) (f : AccessFault) (owed : List (Nat × Nat)) : Option SideEntry × State :=
    let (e1, s1) := (r.leave core e).refault core { e with owed := owed } f
    (some e1, s1)
  let stop (r : Run) (cause : Trap) (a : DWord) (source : Option Nat) (owed : List (Nat × Nat)) : Option SideEntry × State :=
    (some { e with owed := owed }, (r.leave core e).stopEntry core e (source.getD (sideLogSource core)) cause a)
  match Run.repay core e.ctx e.owed (Run.start s e.stamp) with
  | (.error (.hold f, owed), r) => stay r f owed
  | (.error (.stop cause a source, owed), r) => stop r cause a source owed
  | (.error (.wait, _), _) => (some e, s)
  | (.ok _, r0) =>
    match r0.descriptor core e.ctx desc.toNat (some (Nat.log2 e.size)) with
    | (.error (.hold f), r) => stay r f []
    | (.error (.stop cause a source), r) => stop r cause a source []
    | (.error .wait, _) => (some e, s)
    | (.ok c, r) =>
      match Run.retryElement core kept e c p 6 r with
      | (.error (.trap cause a source), r1) => stop r1 cause a source []
      | (.error .waits, _) => (some e, s)
      | (.error (.begun _), r1) => (some { e with owed := [] }, r1.leave core e)
      | (.ok .outside, r1) => (none, r1.leave core e)
      | (.ok .behind, r1) => (some { e with owed := [] }, r1.leave core e)
      | (.ok .short, r1) => stay r1 ⟨.chartAlloc, desc, 0, e.ctx⟩ []
      | (.ok (.failed f owed), r1) => stay r1 f (owed.map fun b => (c.pool, b))
      | (.ok (.at q va), r1) =>
        (({ r1 with st := r1.leave core e } : Run).moved core e.ctx va c.e).st.performEntry core { e with owed := [] } .store va q

/-- A retry of one entry behind the entries of `kept`, that stay before it: the entry as it stays, if it does. It waits for home dies
that do not yet serve its stamp (05 R137). -/
def State.retryEntry (s : State) (core : Nat) (kept : List SideEntry) (e : SideEntry) : Option SideEntry × State :=
  match e.op with
  | .chart desc x y z => s.retryChart core kept e desc (x.toNat, y.toNat, z.toNat)
  | op =>
    if kept.any fun x => x.overlaps e.gang e.addr.toNat e.size then (some e, s)
    else
      match s.translate core e.ctx e.addr.toNat op.want with
      | (.error f, s1) =>
        let (e1, s2) := s1.refault core e f
        (some e1, s2)
      | (.ok p, s1) =>
        let waits : Bool := match p with
          | .mem a => !s1.serves e.stamp a
          | .device _ _ => false
        if waits then (some e, s) else s1.performEntry core e op e.addr.toNat p

/-- A retry of an entry that loses to a later one of its instruction (03 R68): it leaves when that one does, and writes nothing; until then
its fault is met again (16 R331). A chart store's is met by the entry that wins. -/
def State.retryLoser (s : State) (core : Nat) (e : SideEntry) : SideEntry × State :=
  match e.op with
  | .store =>
    match s.translate core e.ctx e.addr.toNat .store with
    | (.error f, s1) => s1.refault core e f
    | (.ok _, s1) => (e, s1)
  | _ => (e, s)

/-- Retries the entries that are due, in log order; those of a context whose halt line is raised stay (19 R371). The entries that
stay, and those that left. -/
def State.retryEntries (core : Nat) (due : SideEntry → Bool) :
    List SideEntry → State → List SideEntry → List SideEntry → List SideEntry × List SideEntry × State
  | [], s, kept, gone => (kept, gone, s)
  | e :: rest, s, kept, gone =>
    if !s.enginesRun e.ctx || !due e then State.retryEntries core due rest s (kept ++ [e]) gone
    else if rest.any e.losesTo then
      let (e1, s1) := s.retryLoser core e
      State.retryEntries core due rest s1 (kept ++ [e1]) gone
    else
      let others := kept.filter fun x => !x.losesTo e
      match s.retryEntry core others e with
      | (some e1, s1) => State.retryEntries core due rest s1 (kept ++ [e1]) gone
      | (none, s1) => State.retryEntries core due rest s1 others (gone ++ kept.filter (fun x => x.losesTo e) ++ [e])

/-- The counters that count some entry of an item among those listed. -/
def itemMask (l : List SideEntry) (item : Nat) : BitVec 8 :=
  (l.filter fun e => e.item == item).foldl (fun m e => m ||| e.counted) 0

/-- A range counter falls for each instruction whose last entry with bytes that it covers has left (04 R113). -/
def State.uncountItems (s : State) (kept gone : List SideEntry) : State :=
  (gone.map fun e => (e.item, e.gang)).eraseDups.foldl (fun acc x =>
    match acc.gangs.find x.2 with
    | none => acc
    | some g => acc.setGang x.2 (g.uncount (itemMask gone x.1 &&& ~~~(itemMask kept x.1)) noEpochs)) s

/-- Replays the side log of a core. -/
def State.replayCore (s : State) (due : SideEntry → Bool) (core : Nat) : State :=
  let log := (s.core core).sideLog
  if log.isEmpty then s
  else
    let (kept, gone, s1) := State.retryEntries core due log s [] []
    (s1.setCore core { s1.core core with sideLog := kept }).uncountItems kept gone

/-- Replays the side logs of every core. -/
def State.replay (s : State) (due : SideEntry → Bool) : State := s.cores.keys.foldl (fun acc n => acc.replayCore due n) s

/-- A retry event: every held access becomes due, and every side log is replayed (16 R331). -/
def State.retry (s : State) : State := s.retryHeld.replay fun _ => true

/-- `chfree.ret` (17 R357, R362): puts the block back, and retries the stores that found a pool short (R356). -/
def execChfreeRet (k : BitVec 4) (a : BitVec 7) (s : State) : Result :=
  gate s (fun _ => { s := [a.toNat, a.toNat + 1], even := [a.toNat] }) fun g =>
    openChart s g k.toNat none fun c r =>
      reproOr r.st g c <|
        let block := (g.spair a.toNat).toNat
        if block % 4096 ≠ 0 ∨ 2 ^ 48 ≤ block then
          .next (r.st.trapAt g .chartFormat (g.enabled s.group) (BitVec.ofNat 64 block))
        else
          match r.putBlock (coreOf s.gang) g.ctx c.pool block .held with
          | (.error e, r1) => r1.failed g (g.enabled s.group) e
          | (.ok _, r1) =>
            .next ((r1.st.advance (g.saw r1.seen) 1).replay fun e => e.cause == .chartAlloc)

end Sys2Proof.Machine
end

