-- ==== Sys2Proof/Machine/Queues.lean ====
section
/-!
DEFINITION. Software queues, readiness and predecessors, hardware queue slots, acceptance and completion of launches, placement, and
`lnch` (13 R290-R305, R420; readings in log 38).
-/
namespace Sys2Proof.Machine

/-! ### Accesses of queue structures (13 R420) -/

/-- Why an access of a queue's structures did not go on: the access at `va` is held at a fault, or met a sector that cannot be
corrected. -/
inductive DeviceFault where
  | hold (va : Nat) (f : AccessFault)
  | bad (addr : DWord) (machine : Nat)
  deriving DecidableEq, Repr

/-- A place that a queue access of `n` bytes, all in one page, reaches. -/
def State.queuePlace (s : State) (ctx va n : Nat) (k : Want) : Except DeviceFault Place :=
  if 2 ^ 48 ≤ va then .error (.hold va ⟨.protection, BitVec.ofNat 64 va, 0, ctx⟩)
  else
    match s.translateFresh ctx va k with
    | .error f => .error (.hold va f)
    | .ok (.mem a, _) =>
      if (s.badSector a n).isSome then .error (.bad (BitVec.ofNat 64 (va - va % 32)) a) else .ok (.mem a)
    | .ok (p, _) => .ok p

/-- Reads `n` bytes of a queue's structures, at most a page, page by page. -/
def State.queueRead (s : State) (ctx va n : Nat) : Except DeviceFault (List Byte) :=
  let m := min n (4096 - va % 4096)
  match s.queuePlace ctx va m .load with
  | .error e => .error e
  | .ok p =>
    if m = n then .ok (s.placeBytes p n)
    else (s.queuePlace ctx (va + m) (n - m) .load).map fun q => s.placeBytes p m ++ s.placeBytes q (n - m)

/-- Applies a hold to a queue at an access. Its fault is recorded, unless a fault of this access has been, and this is a retry of it: the
second fault may have another cause (13 R420). The hold keeps the address of the access, and the cause that has been recorded. -/
def State.holdQueue (s : State) (id : QueueId) (va : Nat) (f : AccessFault) : State :=
  let recorded := s.heldQueues.find? fun q => q.1 == id && q.2.addr == BitVec.ofNat 64 va && q.2.cause != .none
  let hold : Hold :=
    { Hold.of f with addr := BitVec.ofNat 64 va, cause := (recorded.map fun q => q.2.cause).getD f.cause }
  let s1 : State := { s with heldQueues := (s.heldQueues.filter fun q => q.1 != id) ++ [(id, hold)] }
  if recorded.isSome then s1
  else
    s1.postFault f
      { address := f.addr, timestamp := s.timestamp, ctx := id.ctx, cause := f.cause, flags := 8, core := 0xFFFF,
        gang := 0xFF, level := f.level, age := 0xFFFFFFFF } (.queue id.ctx id.number)

/-- A queue access met a sector that cannot be corrected: its context stops, and the record's source is the memory controller of
the sector's home (19 R396). -/
def State.stopQueue (s : State) (ctx : Nat) (addr : DWord) (machine : Nat) : State :=
  let r : StopRecord :=
    { timestamp := s.timestamp, source := memorySource machine, cause := .memoryUncorrectable, flags := 1,
      ctx := ctx, core := 0xFFFF, laneMask := 0, age := 0xFFFFFFFF, gang := 0xFF, code := 0, address := addr, pc := 0,
      trapPc := 0, launch := 0 }
  if s.enginesRun ctx then
    (s.raiseLine ctx .memoryUncorrectable).modifyContext ctx fun c =>
      { c with halt := c.halt.map fun h => { h with records := h.records ++ [r] } }
  else s

/-- What a failed access does to its queue. -/
def State.queueFault (s : State) (id : QueueId) (e : DeviceFault) : State :=
  match e with
  | .hold va f => s.holdQueue id va f
  | .bad addr machine => s.stopQueue id.ctx addr machine

/-- A hold of the queue waits for a retry, or a record of it waits for room (13 R420, 16 R334). -/
def State.queueHeld (s : State) (id : QueueId) : Bool :=
  (s.heldQueues.any fun q => q.1 == id && !q.2.retry) || s.pending.any fun p => p.blocks == .queue id.ctx id.number

/-- The queue holds no longer. -/
def State.freeQueue (s : State) (id : QueueId) : State :=
  { s with heldQueues := s.heldQueues.filter fun q => q.1 != id }

/-- The hold of a queue at an access, if it has one, is over. -/
def State.freeAccess (s : State) (id : QueueId) (va : DWord) : State :=
  { s with heldQueues := s.heldQueues.filter fun q => q.1 != id || q.2.addr != va }

/-- Makes the writes of a list in order, but for those of a queue that is held: the state, and the writes left (13 R420). -/
def makeWrites : State → List QueueId → List QueueWrite → State × List QueueWrite
  | s, _, [] => (s, [])
  | s, blocked, w :: rest =>
    if blocked.contains w.queue || s.queueHeld w.queue then
      let (s1, left) := makeWrites s blocked rest
      (s1, w :: left)
    else
      match s.queuePlace w.queue.ctx w.addr.toNat w.size .store with
      | .error e =>
        let (s1, left) := makeWrites (s.queueFault w.queue e) (w.queue :: blocked) rest
        (s1, w :: left)
      | .ok p => makeWrites ((s.freeAccess w.queue w.addr).writePlace p w.size w.data) blocked rest

/-- Makes the writes that are due. -/
def State.flushWrites (s : State) : State :=
  if s.queueWrites.isEmpty then s
  else
    let (s1, left) := makeWrites s [] s.queueWrites
    { s1 with queueWrites := left }

/-- The device writes `n` bytes of a queue's structures, in the order of the queue's writes (13 R420). -/
def State.queueWrite (s : State) (id : QueueId) (va n v : Nat) : State :=
  State.flushWrites
    { s with queueWrites := s.queueWrites ++ [{ queue := id, addr := BitVec.ofNat 64 va, size := n, data := v }] }

/-- The status word of a command entry, and its end time where the status leaves state 1, or never takes it (13 R291, R292; DESIGN CHOICE,
log 38: R291 gives the end time of a status that leaves state 1, and says nothing of an entry that is refused or cancelled). -/
def State.writeStatus (s : State) (id : QueueId) (entry state code : Nat) (ends : Bool) : State :=
  let s1 := s.queueWrite id (entry + 8) 4 (state + 256 * code)
  if ends then s1.queueWrite id (entry + 0x18) 8 s.timestamp else s1

/-! ### Descriptors and heads (13 R290, R291, R295) -/

/-- A queue descriptor. -/
structure QueueDesc where
  va : Nat
  base : Nat
  n : Nat
  priority : Nat
  enabled : Bool
  head : Nat
  tail : Nat
  deriving DecidableEq, Repr

/-- The entries published and not taken. -/
def QueueDesc.pending (d : QueueDesc) : Nat := (d.tail + 2 ^ 32 - d.head) % 2 ^ 32

/-- The address of the entry of a count. -/
def QueueDesc.entry (d : QueueDesc) (count : Nat) : Nat := d.base + 32 * (count % d.n)

/-- The descriptor that 64 bytes hold. One that is not laid out as R290 says counts as disabled, and its entries stay queued; with no ring
at all, of size 0, there is none. -/
def QueueDesc.of (va : Nat) (b : List Byte) : Option QueueDesc :=
  let n := fieldAt b 8 4
  let control := fieldAt b 12 4
  let laid := fieldAt b 0 8 % 32 == 0 && decide (control < 16) && numberOf (b.drop 24) == 0 && decide (2 ≤ n) && decide (n ≤ 65536) &&
    2 ^ Nat.log2 n == n
  if n = 0 then none
  else
    some
      { va := va, base := fieldAt b 0 8, n := n, priority := control % 8, enabled := laid && decide (8 ≤ control)
        head := fieldAt b 16 4, tail := fieldAt b 20 4 }

/-- A queue's descriptor; none where its number is out of range or it has no ring. -/
def State.queueDesc (s : State) (id : QueueId) : Except DeviceFault (Option QueueDesc) :=
  match s.context id.ctx with
  | none => .ok none
  | some c =>
    if c.queues ≤ id.number then .ok none
    else (s.queueRead id.ctx (c.queueTable + 64 * id.number) 64).map (QueueDesc.of (c.queueTable + 64 * id.number))

/-- The head entry of a queue: its record address, the record's bytes, or the fault of a record that cannot be read, and the launch
identifier where that can be read. -/
structure Head where
  id : QueueId
  desc : QueueDesc
  entry : Nat
  address : Nat
  record : Except Trap (List Byte)
  ident : Option Word

/-- The record a head names (13 R292, R420). -/
def Head.launch (h : Head) : Option LaunchRecord :=
  match h.record with
  | .error _ => none
  | .ok b => some (LaunchRecord.of b)

/-- The launch identifier of the record at an address, which need not be aligned (13 R297, R420). -/
def State.queueIdent (s : State) (ctx address : Nat) : Except DeviceFault Word :=
  (s.queueRead ctx (address + 0x38) 4).map fun b => BitVec.ofNat 32 (numberOf b)

/-- Reads the head of a queue; none where nothing is published. A disabled queue has one too (13 R295: its entries are queued). A record
that is not aligned or cannot be read is refused, with its identifier where that can be read; what lies in a frame that is still being
pulled is waited for (13 R297, R420; 19 R393). -/
def State.queueHead (s : State) (id : QueueId) : Except DeviceFault (Option Head) :=
  match s.queueDesc id with
  | .error e => .error e
  | .ok none => .ok none
  | .ok (some d) =>
    if d.head = d.tail then .ok none
    else
      match s.queueRead id.ctx (d.entry d.head) 32 with
      | .error e => .error e
      | .ok b =>
        let address := fieldAt b 0 8
        let h (record : Except Trap (List Byte)) (ident : Option Word) : Head :=
          { id := id, desc := d, entry := d.entry d.head, address := address, record := record, ident := ident }
        let refused (t : Trap) : Except DeviceFault (Option Head) :=
          match s.queueIdent id.ctx address with
          | .error (.hold va f) => if f.cause = .none then .error (.hold va f) else .ok (some (h (.error t) none))
          | .error _ => .ok (some (h (.error t) none))
          | .ok x => .ok (some (h (.error t) (some x)))
        if address % 256 ≠ 0 then refused .illegalFormat
        else
          match s.queueRead id.ctx address 256 with
          | .error (.hold va f) => if f.cause = .none then .error (.hold va f) else refused f.cause
          | .error e => .error e
          | .ok record => .ok (some (h (.ok record) (some (LaunchRecord.of record).ident)))

/-- The heads of the rung queues of running contexts that are not held; a queue that holds nothing published is rung no longer. -/
def gatherHeads : State → List QueueId → List Head × State
  | s, [] => ([], s)
  | s, id :: rest =>
    if !s.enginesRun id.ctx || ((s.context id.ctx).any fun c => c.halt.isSome) || s.queueHeld id ||
        (s.queueWrites.any fun w => w.queue == id) then gatherHeads s rest
    else
      match s.queueHead id with
      | .error e => gatherHeads (s.queueFault id e) rest
      | .ok none => gatherHeads { s.freeQueue id with rung := s.rung.filter (· != id) } rest
      | .ok (some h) =>
        let (hs, s1) := gatherHeads s rest
        (h :: hs, s1)

/-! ### Predecessors (13 R295-R297) -/

/-- The identifiers of the queued entries of a queue, those from its head on. -/
def State.queuedIdents (s : State) (ctx : Nat) (d : QueueDesc) : Except DeviceFault (List Word) :=
  (List.range (min d.pending d.n)).foldl (fun acc i =>
    match acc with
    | .error e => .error e
    | .ok xs =>
      let count := (d.head + i) % 2 ^ 32
      match s.queueRead ctx (d.entry count) 32 with
      | .error e => .error e
      | .ok b =>
        match s.queueIdent ctx (fieldAt b 0 8) with
        | .error e => .error e
        | .ok w => .ok (xs ++ [w])) (.ok [])

/-- The head count of a queue as the device has it: a write of it may still be to be made (13 R420). -/
def State.headOf (s : State) (id : QueueId) (d : QueueDesc) : Nat :=
  s.queueWrites.foldl (fun h w => if w.queue == id && w.addr.toNat == d.va + 0x10 then w.data else h) d.head

/-- The identifiers of the queued entries of a queue that gives no head now: it is held, or writes of it are still to be made. -/
def State.identsOf (s : State) (id : QueueId) : Option (List Word) :=
  match s.queueDesc id with
  | .error _ => none
  | .ok none => some []
  | .ok (some d) => (s.queuedIdents id.ctx { d with head := s.headOf id d }).toOption

/-- A queued identifier that a head may name: its context and itself. -/
structure Queued where
  ctx : Nat
  ident : Word
  deriving DecidableEq, Repr

/-- The identifiers queued in the contexts whose heads name predecessors; a queue whose identifiers cannot be read is held. The
heads that are left, the identifiers, and the contexts in which some could not be read. -/
def gatherQueued : State → List Nat → List Head → List Head × List Queued × List Nat × State
  | s, _, [] => ([], [], [], s)
  | s, asked, h :: rest =>
    if !asked.contains h.id.ctx then
      let (hs, qs, unknown, s1) := gatherQueued (s.freeQueue h.id) asked rest
      (h :: hs, qs, unknown, s1)
    else
      match s.queuedIdents h.id.ctx h.desc with
      | .error e =>
        let (hs, qs, unknown, s1) := gatherQueued (s.queueFault h.id e) asked rest
        (hs, qs, h.id.ctx :: unknown, s1)
      | .ok xs =>
        let (hs, qs, unknown, s1) := gatherQueued (s.freeQueue h.id) asked rest
        (h :: hs, (xs.map fun x => { ctx := h.id.ctx, ident := x }) ++ qs, unknown, s1)

/-- The queues of some contexts that give no head now, each with its queued identifiers where these can be read. -/
def State.silentQueues (s : State) (asked : List Nat) (heads : List Head) : List (QueueId × Option (List Word)) :=
  (s.rung.filter fun id => asked.contains id.ctx && !(heads.any fun h => h.id == id)).map fun id => (id, s.identsOf id)

/-- What a head's predecessors make of it: none while it waits, else the code with which it is cancelled, if it is. A head that names
its own identifier waits, since that launch is in state 0 (13 R295). Of several failed predecessors the first of its list gives the code,
and of several entries of one identifier the newest (DESIGN CHOICE, log 38: 13 R296 names one code of one entry). -/
def State.verdict (s : State) (queued : List Queued) (unknown : List Nat) (h : Head) : Option (Option Nat) :=
  match h.launch, s.context h.id.ctx with
  | some r, some c =>
    let preds := r.predecessors
    let waits (p : Word) : Bool :=
      c.launches.any (fun l => l.record.ident == p) || unknown.contains h.id.ctx ||
      queued.any fun q => q.ctx == h.id.ctx && q.ident == p
    if preds.any waits then none
    else
      some ((preds.findSome? fun p => c.failures.reverse.find? fun f => f.ident == p).map fun f => f.code)
  | _, _ => some none

/-- A ready head, with the code of a failed predecessor. -/
structure ReadyHead where
  head : Head
  cancel : Option Nat

/-- The ready queues, as their structures now stand: enabled, the head published and not waiting (13 R295). -/
def State.readyHeads (s : State) : List ReadyHead × State :=
  let (heads, s1) := gatherHeads s s.rung
  let asked := (heads.filter fun h => (h.launch.map fun r => decide (0 < r.predCount)).getD false).map fun h => h.id.ctx
  let (heads', queued, unknown, s2) := gatherQueued s1 asked.eraseDups heads
  let silent := s2.silentQueues asked heads'
  let named := silent.flatMap fun q => (q.2.getD []).map fun x => ({ ctx := q.1.ctx, ident := x } : Queued)
  let hidden := (silent.filter fun q => q.2.isNone).map fun q => q.1.ctx
  ((heads'.filter fun h => h.desc.enabled).filterMap fun h =>
    (s2.verdict (queued ++ named) (unknown ++ hidden) h).map fun c => { head := h, cancel := c }, s2)

/-! ### Slots and the service list (13 R298) -/

/-- The key of a queue in tables by context and number. -/
def QueueId.key (q : QueueId) : Nat := q.ctx * 65536 + q.number

/-- The queue waits before another among those that become ready together: the one least recently mapped, then lower context
number, then lower queue number (13 R298). -/
def State.mappedBefore (s : State) (a b : QueueId) : Bool :=
  let at_ (q : QueueId) : Nat := (s.lastMapped.find q.key).getD 0
  decide (at_ a < at_ b) || (at_ a == at_ b && decide (a.key < b.key))

/-- Puts a queue into a list in the order of `mappedBefore`. -/
def State.insertNew (s : State) (q : QueueId) : List QueueId → List QueueId
  | [] => [q]
  | x :: rest => if s.mappedBefore q x then q :: x :: rest else x :: s.insertNew q rest

/-- A queue joins the service list before the first one of lower priority (13 R298). -/
def joinService (priority : QueueId → Nat) (q : QueueId) : List QueueId → List QueueId
  | [] => [q]
  | x :: rest => if priority x < priority q then q :: x :: rest else x :: joinService priority q rest

/-- The slot that a queue last had, where it is free. -/
def State.oldSlot (s : State) (q : QueueId) : Option Nat := (s.lastSlot.find q.key).filter fun n => (s.slots.find n).isNone

/-- Maps a queue to a slot. -/
def State.mapTo (s : State) (q : QueueId) (n : Nat) : State :=
  { s with
    slots := s.slots.put n q
    lastSlot := s.lastSlot.put q.key n
    lastMapped := s.lastMapped.put q.key (s.clock + 1)
    service := s.service.filter (· != q) }

/-- Maps a queue that waits to the slot it last had, where that is free. -/
def State.mapAgain (s : State) (q : QueueId) : State :=
  if s.service.contains q then ((s.oldSlot q).map (s.mapTo q)).getD s else s

/-- Maps a queue that waits to the lowest free slot. -/
def State.mapLowest (s : State) (q : QueueId) : State :=
  if s.service.contains q then
    (((List.range 512).find? fun n => (s.slots.find n).isNone).map (s.mapTo q)).getD s
  else s

/-- Maps the first queues of the service list to free slots: those of `again` first, then the others that find their last slot free,
then the rest (13 R298). -/
def State.fillSlots (s : State) (again : List QueueId := []) : State :=
  let take := s.service.take (512 - s.slots.length)
  let s1 := ((take.filter again.contains) ++ take).foldl (fun acc q => acc.mapAgain q) s
  take.foldl (fun acc q => acc.mapLowest q) s1

/-- The device looks at its queues: writes that are due are made, slots of queues that are no longer ready are freed, and queues that
have become ready join the service list, those of one clock in their order whichever was seen first (13 R295, R298, R420). Free slots
are filled at the end of the clock. -/
def State.serviceQueues (s : State) : State :=
  let (ready, s1) := s.flushWrites.readyHeads
  let priority (q : QueueId) : Nat := ((ready.find? fun r => r.head.id == q).map fun r => r.head.desc.priority).getD 0
  let isReady (q : QueueId) : Bool := ready.any fun r => r.head.id == q
  let slots := s1.slots.filter fun e => isReady e.2
  let service := s1.service.filter isReady
  let new := (ready.map fun r => r.head.id).filter fun q => !service.contains q && !(slots.any fun e => e.2 == q)
  let joining := (service.filter s1.joining.contains) ++ new
  let ordered := joining.foldr (fun q acc => s1.insertNew q acc) []
  { s1 with
    slots := slots
    service := ordered.foldl (fun acc q => joinService priority q acc) (service.filter fun q => !s1.joining.contains q)
    joining := joining }

/-- The end of a clock for the queues: free slots go to the first of the service list (13 R298). -/
def State.endQueueClock (s : State) : State :=
  { s.serviceQueues.fillSlots with joining := [] }

/-- A retry event, as the queues meet it too (16 R331, 13 R420). -/
def State.retryAll (s : State) : State := s.retry.serviceQueues

/-- LEASE_QUANTUM_BOUNDARY (13 R298): every 250 µs, where queues wait in the service list, every mapped queue that is still ready
goes to its tail in slot order, and the first 512 are mapped. -/
def execLeaseQuantumBoundary (s : State) : Result :=
  if s.clock < s.quantumDue then .next s
  else
    let s1 := State.serviceQueues { s with quantumDue := s.quantumDue + 325000 }
    if s1.service.isEmpty then
      .next { s1 with lastMapped := s1.slots.foldl (fun t e => t.put e.2.key (s1.clock + 1)) s1.lastMapped }
    else
      let mapped := s1.slots.values
      .next (State.fillSlots { s1 with slots := [], service := s1.service ++ mapped, joining := [] } mapped)

/-! ### Doorbells (13 R294) -/

/-- The device finds a queue disabled. -/
def State.isDisabled (s : State) (id : QueueId) : Bool :=
  match s.queueDesc id with
  | .ok none => true
  | .ok (some d) => !d.enabled
  | .error _ => false

/-- A doorbell names a queue: the device will look at it. A number at or above the queue count, or a disabled queue, has no effect. -/
def State.ring (s : State) (ctx number : Nat) : State :=
  match s.context ctx with
  | none => s
  | some c =>
    if c.queues ≤ number ∨ s.rung.contains ⟨ctx, number⟩ ∨ s.isDisabled ⟨ctx, number⟩ = true then s.serviceQueues
    else State.serviceQueues { s with rung := s.rung ++ [⟨ctx, number⟩] }

/-! ### Acceptance (13 R292, R295-R297; 01 R10, R29; 19 R382) -/

/-- Adds an entry to a failure list of at most 1,024 (13 R297). -/
def addFailure (l : List Failure) (f : Failure) : List Failure := (l ++ [f]).drop ((l ++ [f]).length - 1024)

/-- The physical cores of a context that are enabled, in logical order (01 R10); in minimal mode no compute die is powered (21
R403). -/
def State.enabledCores (s : State) (c : Context) : List Nat :=
  if s.boot.phase = .minimal then [] else c.cores.filter fun n => !s.disabledCores.contains n

/-- Why a record is refused: its fault code (13 R292). -/
def State.refusal (s : State) (c : Context) (h : Head) : Option Trap :=
  match h.record with
  | .error t => some t
  | .ok b =>
    let r := LaunchRecord.of b
    if !r.valid b || c.launches.any (fun l => l.record.ident == r.ident) then some .illegalFormat
    else if !((s.enabledCores c).any fun n => (s.fits n r true).isSome) then some .restoreShortfall
    else none

/-- A launch ends without having run: its status, end time, and failure entry where its record gave an identifier (13 R292, R296,
R297). -/
def State.endHead (s : State) (h : Head) (state code : Nat) : State :=
  let s1 := s.writeStatus h.id h.entry state code true
  match h.ident with
  | none => s1
  | some ident =>
    s1.modifyContext h.id.ctx fun c =>
      { c with failures := addFailure c.failures { ident := ident, state := state, code := code } }

/-- Puts a launch into distributor order: highest priority first, then order of acceptance. -/
def insertLaunch (l : Launch) : List Launch → List Launch
  | [] => [l]
  | x :: rest =>
    if x.record.priority < l.record.priority ∨ (x.record.priority = l.record.priority ∧ l.order < x.order) then
      l :: x :: rest
    else x :: insertLaunch l rest

/-- The launches that still have unplaced crews, in distributor order (13 R301). -/
def Context.waitingLaunches (c : Context) : List Launch :=
  (c.launches.filter fun l => !l.stopped && decide (l.nextCrew < l.record.crewCount.toNat)).foldr insertLaunch []

/-- A launch is accepted: it joins the distributor's launches, and its identifier leaves the failure list (13 R292, R297, R301).
Slots freed in an earlier clock while no crew was left to place have no claim on its crews (13 R304). -/
def State.acceptHead (s : State) (h : Head) (r : LaunchRecord) : State :=
  (s.writeStatus h.id h.entry 1 0 false).modifyContext h.id.ctx fun c =>
    { c with
      freed := if c.waitingLaunches.isEmpty then c.freed.filter fun e => e.1 == s.clock else c.freed
      failures := c.failures.filter fun f => f.ident != r.ident
      accepted := c.accepted + 1
      launches := c.launches ++
        [{ record := r, queue := h.id.number, entryAddr := BitVec.ofNat 64 h.entry, order := c.accepted, nextCrew := 0,
           crewsEnded := 0, stopped := false, code := 0 }] }

/-- LAUNCH_ACCEPT (13 R292): a mapped slot takes its head entry, and accepts, refuses or cancels it. A slot of a context in the soft
step, or that holds 64 launches, takes none (19 R379, R382). Subject: `who` is the slot. -/
def execLaunchAccept (s : State) : Result :=
  match s.slots.find s.subject.who with
  | none => .next s
  | some id =>
    let (ready, s1) := s.readyHeads
    match ready.find? (fun r => r.head.id == id), s1.context id.ctx with
    | some r, some c =>
      if 64 ≤ c.launches.length then .next s
      else
        let h := r.head
        let s2 := s1.queueWrite id (h.desc.va + 0x10) 4 ((h.desc.head + 1) % 2 ^ 32)
        match r.cancel, s1.refusal c h, h.launch with
        | some code, _, _ => .next (s2.endHead h 4 code).serviceQueues
        | none, some t, _ => .next (s2.endHead h 3 (trapCode t)).serviceQueues
        | none, none, some l => .next (s2.acceptHead h l).serviceQueues
        | none, none, none => .next s
    | _, _ => .next s

/-! ### The distributor (13 R301, R304, R305) -/

/-- The core among some with the most free crew slots, the earliest on a tie. -/
def State.roomiest (s : State) : List Nat → Option Nat
  | [] => none
  | n :: rest =>
    match s.roomiest rest with
    | none => some n
    | some m => if (s.crewsOn n).length ≤ (s.crewsOn m).length then some n else some m

/-- A distributor's choice: a launch, a core, and the positions of the gangs. -/
structure Choice where
  ctx : Nat
  launch : Launch
  core : Nat
  positions : List Nat
  /-- By the claim of a freed slot. -/
  claimed : Bool
  deriving DecidableEq, Repr

/-- The choice by R301 and the first point of R304. -/
def State.openChoice (s : State) (ctx : Nat) (c : Context) : Option Choice :=
  c.waitingLaunches.findSome? fun l =>
    match s.roomiest ((s.enabledCores c).filter fun n => (s.fits n l.record false).isSome) with
    | none => none
    | some n =>
      (s.fits n l.record false).map fun ps => { ctx := ctx, launch := l, core := n, positions := ps, claimed := false }

/-- The freed crew slot that is served in this clock: of those freed first, that of the lowest logical core (13 R304). -/
def Context.nextFreed (c : Context) : List (Nat × Nat) → Option (Nat × Nat)
  | [] => none
  | x :: rest =>
    match c.nextFreed rest with
    | none => some x
    | some y => if y.1 < x.1 ∨ (y.1 = x.1 ∧ c.logicalCore y.2 < c.logicalCore x.2) then some y else some x

/-- A distributor's choice in one clock: the next crew in its order goes to the core of the freed slot where it fits there; else that
slot's preference is dropped, and the distributor chooses freely (13 R304). -/
def State.choose (s : State) (ctx : Nat) (c : Context) : Option Choice :=
  match c.nextFreed c.freed, c.waitingLaunches with
  | some (_, n), l :: _ =>
    match (if (s.enabledCores c).contains n then s.fits n l.record false else none) with
    | some ps => some { ctx := ctx, launch := l, core := n, positions := ps, claimed := true }
    | none => s.openChoice ctx c
  | _, _ => s.openChoice ctx c

/-- The choice wins against another for one core: higher priority, then the context longer without a placement there, then the
lower context number (13 R305). -/
def State.wins (s : State) (a b : Choice) : Bool :=
  let age (x : Choice) : Nat := (s.core x.core).placed.idxOf x.ctx
  decide (b.launch.record.priority < a.launch.record.priority) ||
  (a.launch.record.priority == b.launch.record.priority &&
    (decide (age b < age a) || (age a == age b && decide (a.ctx < b.ctx))))

/-- The context's distributor places crews: it runs and no halt is in progress (19 R379). -/
def Context.distributes (c : Context) : Bool := c.state == .running

/-- Placing a crew, with the start time of a launch's first (13 R291, R301). -/
def State.placeChoice (s : State) (x : Choice) : State :=
  let s1 := s.placeCrew x.ctx x.core x.launch x.positions
  if x.launch.nextCrew = 0 then
    s1.queueWrite ⟨x.ctx, x.launch.queue⟩ (x.launch.entryAddr.toNat + 0x10) 8 s.timestamp
  else s1

/-- The freed slots of a context after a clock: the one that was served has no claim any more, unless its core took the crew of another
context; and where no crew is left to place, none has (13 R304, R305). -/
def Context.serve (c : Context) (ctx : Nat) (choices winners : List Choice) : Context :=
  if !c.distributes then c
  else if c.waitingLaunches.isEmpty then { c with freed := [] }
  else
    match c.nextFreed c.freed with
    | none => c
    | some e =>
      if (choices.any fun x => x.ctx == ctx && x.claimed) && !(winners.any fun x => x.ctx == ctx) then c
      else { c with freed := c.freed.erase e }

/-- CREW_PLACE (13 R301-R305): one clock of every context's distributor. Each places at most one crew, and each core takes at most
one. Nothing happens where the clock's placements have been made. -/
def execCrewPlace (s : State) : Result :=
  if s.clock < s.placedUntil then .next s
  else
    let choices := s.contexts.filterMap fun e => if e.2.distributes then s.choose e.1 e.2 else none
    let winners := choices.filter fun a => choices.all fun b => a.ctx == b.ctx || a.core != b.core || s.wins a b
    let s1 : State :=
      { s with placedUntil := s.clock + 1, contexts := s.contexts.update fun n c => c.serve n choices winners }
    .next (winners.foldl (fun acc x => acc.placeChoice x) s1)

/-! ### Completion of a launch (13 R292, R293) -/

/-- LAUNCH_COMPLETE (13 R293): every crew has ended, and the write of state 2 is made. Memory stands as every write left it, so
that write comes after all of them (log 7). The launch leaves the running ones at once, and its successors go on, though the write may be
held (DESIGN CHOICE, log 38: 13 R420 holds the later writes of that queue, and R295 does not say whether the launch is still in state 1).
Subject: `who` is the context, `what` the launch identifier. -/
def execLaunchComplete (s : State) : Result :=
  let ctx := s.subject.who
  match s.context ctx with
  | none => .next s
  | some c =>
    match c.launches.find? fun l => l.record.ident.toNat == s.subject.what with
    | none => .next s
    | some l =>
      if l.stopped || decide (l.crewsEnded < l.record.crewCount.toNat) || !s.enginesRun ctx then .next s
      else
        let s1 := s.setContext ctx { c with launches := c.launches.filter fun x => x.record.ident != l.record.ident }
        .next (s1.writeStatus ⟨ctx, l.queue⟩ l.entryAddr.toNat 2 0 true).serviceQueues

/-! ### `lnch` (13 R300) -/

/-- The append of `lnch`: the count before it, or none where the queue is disabled or full. It holds at a missing page as a load does (13
R300; 16 R319). -/
def Run.append (r : Run) (core ctx : Nat) (c : Context) (q address : Nat) : Work.Answer (Option Word) :=
  let va := c.queueTable + 64 * q
  match r.readGlobal core ctx 65 va 64 with
  | (.error e, r1) => (.error e, r1)
  | (.ok b, r1) =>
    match (QueueDesc.of va b).filter QueueDesc.enabled with
    | none => (.ok none, r1)
    | some d =>
      if d.pending = d.n then (.ok none, r1)
      else
        match r1.resolve core ctx .heldStore 33 (d.entry d.tail) (bytesOf 32 address) with
        | (.error e, r2) => (.error e, r2)
        | (.ok places, r2) =>
          match r2.reach core ctx (va + 0x14) 4 .atomic with
          | (.error e, r3) => (.error e, r3)
          | (.ok p, r3) =>
            let s1 := places.foldl (fun acc x => acc.putPlace x.1 x.2) r3.st
            (.ok (some (BitVec.ofNat 32 d.tail)), { r3 with st := s1.writePlace p 4 ((d.tail + 1) % 2 ^ 32) })

/-- `lnch` (13 R300): a release at context scope, then one atomic append to a queue of the gang's context, and its doorbell. -/
def execLnch (d : BitVec 7) (a : BitVec 7) (b : BitVec 7) (s : State) : Result :=
  gate s (fun _ => { s := [d.toNat, a.toNat, a.toNat + 1, b.toNat], even := [a.toNat] }) fun g =>
    match s.context g.ctx with
    | none => .fault .noIssuer
    | some c =>
      let rec_ := g.spair a.toNat
      let q := (g.sreg b.toNat).toNat
      if 2 ^ 48 ≤ rec_.toNat then .next (s.trapAt g .protection (g.enabled s.group) rec_)
      else if rec_.toNat % 256 ≠ 0 then .next (s.trapAt g .misaligned (g.enabled s.group) rec_)
      else if c.queues ≤ q then s.trap g .protection
      else if s.hasLogged s.gang then s.waiting
      else
        match Run.append (Run.start s g.stamp) (coreOf s.gang) g.ctx c q rec_.toNat with
        | (.error e, r) => r.failed g (g.enabled s.group) e
        | (.ok count, r) =>
          let x := count.getD 0xFFFFFFFF
          let s1 := r.st.release (coreOf s.gang)
          let (s2, g2) := s1.issueLoad (g.released s1 (coreOf s.gang))
            { scalar := true, dests := [d.toNat]
              pieces := piecesOf true d.toNat 0 0 4 fun i => byteOf (x.setWidth 128) i
              onCounter := false, mask := 0, covers := fun _ => 0, seen := r.seen }
          let s3 := s2.advance g2 1
          .next (if count.isSome then s3.ring g.ctx q else s3)

end Sys2Proof.Machine
end

