-- ==== Sys2Proof/Machine/Contexts.lean ====
section
/-!
DEFINITION. The harts' context instructions: statuses and exceptions, creation, scope and budget, invalidation and fences (16
R314-R343).
-/
namespace Sys2Proof.Machine

/-! ### Harts -/

/-- A general-purpose core. -/
def State.hartAt (s : State) (n : Nat) : Hart := (s.harts.find n).getD Hart.fresh

/-- Replaces a general-purpose core. -/
def State.setHart (s : State) (n : Nat) (h : Hart) : State := { s with harts := s.harts.put n h }

/-- An x register; x0 reads zero. -/
def Hart.reg (h : Hart) (r : BitVec 5) : DWord := if r = 0 then 0 else h.x.get r.toNat

/-- Writes an x register; a write to x0 is discarded. -/
def Hart.setReg (h : Hart) (r : BitVec 5) (v : DWord) : Hart := if r = 0 then h else { h with x := h.x.set r.toNat v }

/-- The context on whose behalf a hart acts: 0 for the root firmware's modes, else the context that holds the core (16 R316). -/
def State.callerOf (s : State) (n : Nat) : Nat :=
  match (s.hartAt n).mode with
  | .machine => 0
  | .hypervisor => 0
  | _ => ((s.contexts.find? fun e => e.2.gpCores.contains n).map fun e => e.1).getD 0

/-- The privilege encoding that an exception saves: `MPP`, and whether the mode was virtualised. -/
def Priv.saved (m : Priv) : DWord × Bool :=
  match m with
  | .machine => (3, false)
  | .hypervisor => (1, false)
  | .virtualSupervisor => (1, true)
  | .user => (0, false)
  | .virtualUser => (0, true)

/-- TAKING A RISC-V EXCEPTION on a hart: `mepc`, `mcause` and `mtval` are written, `mstatus` saves the interrupt enable and the mode,
and the hart continues in M-mode at the trap vector (16 R335; the entry is the RISC-V standard's, log 4). -/
def Hart.except (h : Hart) (cause : Nat) (tval : DWord) : Hart :=
  let (mpp, virtual) := h.mode.saved
  let cleared := h.mstatus &&& ~~~(0x0000_0080_0000_1888 : DWord)
  let mpie : DWord := if h.mstatus.getLsbD 3 then 0x80 else 0
  let mpv : DWord := if virtual then 0x0000_0080_0000_0000 else 0
  { h with
    mepc := h.pc, mcause := BitVec.ofNat 64 cause, mtval := tval
    mstatus := cleared ||| mpie ||| (mpp <<< 11) ||| mpv
    mode := .machine
    pc := h.mtvec &&& ~~~(3 : DWord) }

/-- The acting hart takes an exception. -/
def State.hartExcept (s : State) (cause : Nat) (tval : DWord) : Result :=
  .next (s.setHart s.hart ((s.hartAt s.hart).except cause tval))

/-- The illegal-instruction exception (16 R335). -/
def State.illegal (s : State) : Result := s.hartExcept 2 0

/-- The statuses of a context instruction (16 R335). -/
inductive Status where
  | notBelow | state | notHeld | malformed | limit | busy
  deriving DecidableEq, Repr

/-- What rd receives for a status: −1 to −6. -/
def Status.code (x : Status) : DWord :=
  match x with
  | .notBelow => 0xFFFF_FFFF_FFFF_FFFF
  | .state => 0xFFFF_FFFF_FFFF_FFFE
  | .notHeld => 0xFFFF_FFFF_FFFF_FFFD
  | .malformed => 0xFFFF_FFFF_FFFF_FFFC
  | .limit => 0xFFFF_FFFF_FFFF_FFFB
  | .busy => 0xFFFF_FFFF_FFFF_FFFA

/-- The acting hart receives a value and goes on to the next instruction. -/
def State.answer (s : State) (d : BitVec 5) (v : DWord) : State :=
  let h := s.hartAt s.hart
  s.setHart s.hart { h.setReg d v with pc := h.pc + 4 }

/-- A context instruction on the acting hart: it may run in M-, HS- or VS-mode, and raises the illegal-instruction exception in the
others (16 R335). A hart that waits in `tlbfence` executes nothing. -/
def contextGate (s : State) (body : Hart → Nat → Result) : Result :=
  if 16 ≤ s.hart then .fault .noIssuer
  else
    let h := s.hartAt s.hart
    if h.fencing.isSome then s.waiting
    else
      match h.mode with
      | .user => s.illegal
      | .virtualUser => s.illegal
      | _ => body h (s.callerOf s.hart)

/-- What an operation on a context answers: a status, or a value and the new state. -/
abbrev Answer := Except Status (DWord × State)

/-- A context instruction's answer reaches rd; one that returns a status changes nothing else (16 R335). -/
def State.answers (s : State) (d : BitVec 5) (a : Answer) : Result :=
  match a with
  | .error x => .next (s.answer d x.code)
  | .ok (v, s1) => .next (s1.answer d v)

/-- The `n` bytes of a block at a virtual address of the caller, read 8 at a time with its translation; else the address that
faults (16 R335). -/
def State.blockBytes (s : State) (ctx : Nat) : Nat → Nat → Except Nat (List Byte)
  | 0, _ => .ok []
  | n + 1, a =>
    if 2 ^ 48 ≤ a then .error a
    else
      match s.translateFresh ctx a .load with
      | .error _ => .error a
      | .ok (p, _) =>
        match s.blockBytes ctx n (a + 8) with
        | .error e => .error e
        | .ok rest => .ok (s.placeBytes p 8 ++ rest)

/-- Reads a block of `n` times 8 bytes: a misaligned address is MALFORMED, and a fault is the hart's load page fault (16 R335). -/
def withBlock (s : State) (ctx : Nat) (d : BitVec 5) (addr : DWord) (n : Nat) (body : List Byte → Answer) : Result :=
  if addr.toNat % 8 ≠ 0 then s.answers d (.error .malformed)
  else
    match s.blockBytes ctx n addr.toNat with
    | .error a => s.hartExcept 13 (BitVec.ofNat 64 a)
    | .ok b => s.answers d (body b)

/-! ### The tree (16 R314-R316) -/

/-- Some context from `n` up to the root satisfies a test. -/
def State.upwardFuel (s : State) (p : Context → Bool) : Nat → Nat → Bool
  | 0, _ => false
  | fuel + 1, n =>
    match s.context n with
    | none => false
    | some c => p c || (c.depth != 0 && s.upwardFuel p fuel c.parent)

/-- Some context from `n` up to the root satisfies a test. -/
def State.upward (s : State) (p : Context → Bool) (n : Nat) : Bool := s.upwardFuel p 6 n

/-- A revocation whose kind satisfies a test is under way for the context. -/
def Context.revokes (p : Nat → Bool) (c : Context) : Bool := c.revocation.any fun r => p r.kind

/-- A whole-context revocation of the context or of one above it is under way (16 R344). -/
def State.going (s : State) (n : Nat) : Bool := s.upward (Context.revokes (· == 7)) n

/-- The context that a number names, strictly below the caller (16 R316). -/
def State.named (s : State) (caller : Nat) (x : DWord) : Except Status (Nat × Context) :=
  match s.context x.toNat with
  | none => .error .notBelow
  | some c => if s.below x.toNat caller then .ok (x.toNat, c) else .error .notBelow

/-- The context itself and those below it, in number order. -/
def State.subtree (s : State) (n : Nat) : List Nat := s.contexts.keys.filter fun m => m == n || s.below m n

/-! ### Creation (16 R336, R337; 19 R381) -/

/-- The bytes of the grant region that a context takes: its grant array and its save area (16 R323, 19 R381). The core slots of a
cold context and of those below it are released (R391). -/
def State.regionBytes (s : State) (n : Nat) (c : Context) : Nat :=
  8 * c.frames + 0x10000 + (if s.upward Context.cold n then 0 else 0x1000000 * c.cores.length)

/-- The bytes of the grant region in use. -/
def State.regionUsed (s : State) : Nat := (s.contexts.map fun e => if e.1 = 0 then 0 else s.regionBytes e.1 e.2).sum

/-- A queue count, queue table, fault ring and ring size as R336 wants them. -/
def structuresValid (queues table ring entries : Nat) : Bool :=
  decide (queues ≤ 65536) && decide (table % 64 = 0) && decide (table < 2 ^ 48) && decide (ring % 64 = 0) &&
  decide (ring < 2 ^ 48) &&
  (entries == 0 || (decide (2 ≤ entries) && decide (entries ≤ 65536) && decide (2 ^ Nat.log2 entries = entries)))

/-- The creation block's size set (16 R320). -/
def blockSizes (b : List Byte) : List Nat := fieldsOf b 8 1 16

/-- The creation block keeps R336, R318 and R320. -/
def creationValid (b : List Byte) : Bool :=
  let root := fieldAt b 0 8
  let frames := fieldAt b 0x18 4
  decide (root % 4096 = 0) && decide (root + 4096 ≤ frames * 0x200000) &&
  (blockSizes b).all (fun x => x == 0 || (decide (12 ≤ x) && decide (x ≤ 37))) && decide (1 ≤ frames) &&
  decide (frames ≤ 2 ^ 27) && structuresValid (fieldAt b 0x1C 4) (fieldAt b 0x20 8) (fieldAt b 0x28 8) (fieldAt b 0x30 4) &&
  decide (numberOf (b.drop 0x34) = 0)

/-- The lowest free context number (16 R314). -/
def State.freeNumber (s : State) : Option Nat := (List.range 4096).find? fun n => (s.context n).isNone

/-- `ctx.new` makes a child of `parent` (16 R336). -/
def State.newContext (s : State) (parent : Nat) (p : Context) (b : List Byte) : Answer :=
  if s.going parent then .error .busy
  else if !creationValid b then .error .malformed
  else
    let frames := fieldAt b 0x18 4
    match s.freeNumber with
    | none => .error .limit
    | some n =>
      if 4 ≤ p.depth ∨ Config.grantRegionSize < s.regionUsed + 8 * frames + 0x10000 then .error .limit
      else
        let c : Context :=
          { Context.fresh parent (p.depth + 1) with
            createdAt := s.clock, root := fieldAt b 0 8, sizes := blockSizes b, frames := frames,
            queues := fieldAt b 0x1C 4, queueTable := fieldAt b 0x20 8, ringAddr := fieldAt b 0x28 8,
            ringEntries := fieldAt b 0x30 4 }
        .ok (BitVec.ofNat 64 n, s.setContext n c)

/-- `n` bytes at a machine address are backed and outside the grant region (16 R317, R323). -/
def machineRange (a n : Nat) : Bool :=
  n == 0 || (backedRange a n &&
    (decide (a + n ≤ Config.grantRegionBase) || decide (Config.grantRegionBase + Config.grantRegionSize ≤ a)))

/-- The root's configuration (16 R337). -/
def State.configureRoot (s : State) (b : List Byte) : Answer :=
  match s.context 0 with
  | none => .error .state
  | some c =>
    let queues := fieldAt b 0x1C 4
    let table := fieldAt b 0x20 8
    let ring := fieldAt b 0x28 8
    let entries := fieldAt b 0x30 4
    if c.configured then .error .state
    else if fieldAt b 0 8 ≠ 0 ∨ numberOf ((b.drop 8).take 16) ≠ 0 ∨ fieldAt b 0x18 4 ≠ 0 ∨ entries = 0 ∨
        numberOf (b.drop 0x34) ≠ 0 ∨ !structuresValid queues table ring entries ∨
        !machineRange table (64 * queues) ∨ !machineRange ring (64 + 32 * entries) then .error .malformed
    else
      .ok (0, s.setContext 0
        { c with configured := true, queues := queues, queueTable := table, ringAddr := ring, ringEntries := entries })

/-- The word `ctx.new`: rs2 of all ones in M-mode configures the root, and in any other mode is an illegal instruction; before the root is
configured every other one is STATE (16 R336, R337). -/
def contextNew (s : State) (p b d : BitVec 5) : Result :=
  contextGate s fun h caller =>
    let x := h.reg p
    if x = 0xFFFF_FFFF_FFFF_FFFF then
      if h.mode = .machine then withBlock s caller d (h.reg b) 8 fun bytes => s.configureRoot bytes else s.illegal
    else if !((s.context 0).map fun r => r.configured).getD false then s.answers d (.error .state)
    else
      match s.context x.toNat with
      | none => s.answers d (.error .notBelow)
      | some c =>
        if x.toNat = caller || s.below x.toNat caller then
          withBlock s caller d (h.reg b) 8 fun bytes => s.newContext x.toNat c bytes
        else s.answers d (.error .notBelow)

/-- CTX_NEW (16 R336). -/
def execCtxNew (p : BitVec 5) (b : BitVec 5) (d : BitVec 5) (s : State) : Result := contextNew s p b d

/-- CTX_NEW_ROOT (16 R337). -/
def execCtxNewRoot (p : BitVec 5) (b : BitVec 5) (d : BitVec 5) (s : State) : Result := contextNew s p b d

/-! ### Scope policy (16 R339) -/

/-- Sets the scope policy of a context. -/
def State.setScope (s : State) (n : Nat) (c : Context) (x : DWord) : Answer :=
  let held := ((s.context c.parent).map fun p => p.scope).getD 0
  if 4 ≤ x.toNat then .error .malformed
  else if x.setWidth 2 &&& ~~~held ≠ 0 then .error .notHeld
  else .ok (0, s.setContext n { c with scope := x.setWidth 2 })

/-- CTX_SCOPE (16 R339). -/
def execCtxScope (s_ : BitVec 5) (c : BitVec 5) (d : BitVec 5) (s : State) : Result :=
  contextGate s fun h caller =>
    match s.named caller (h.reg c) with
    | .error e => s.answers d (.error e)
    | .ok (n, x) => s.answers d (s.setScope n x (h.reg s_))

/-! ### Budgets (16 R341-R343) -/

/-- The context whose counters a context draws from: itself or its nearest ancestor in carved mode; the root is one (16 R342). -/
def State.ownerFuel (s : State) : Nat → Nat → Nat
  | 0, _ => 0
  | fuel + 1, n =>
    match s.context n with
    | none => 0
    | some c => if c.depth = 0 ∨ c.budget.carved then n else s.ownerFuel fuel c.parent

/-- The context whose counters a context draws from (16 R342). -/
def State.budgetOwner (s : State) (n : Nat) : Nat := s.ownerFuel 6 n

/-- `n` units of a counter are consumed: the counter, and whether it has run out. A counter that stands at zero already runs out again
only where the context that draws from it is running (16 R342, log 26). -/
def consume (counter : DWord) (n : Nat) (running : Bool) : DWord × Bool :=
  if n = 0 then (counter, false)
  else if counter.toNat ≤ n then (0, counter != 0 || running) else (counter - BitVec.ofNat 64 n, false)

/-- Consumption of clocks and femtojoules; a time unit is 1,024 clocks and an energy unit 1 µJ (16 R341). -/
def Budget.draw (b : Budget) (clocks femtojoules : Nat) (running : Bool) : Budget :=
  let c := b.clocks + clocks
  let f := b.femtojoules + femtojoules
  let (time, t) := consume b.time (c / 1024) running
  let (energy, e) := consume b.energy (f / 1000000000) running
  { b with time := time, energy := energy, clocks := c % 1024, femtojoules := f % 1000000000, exhausted := b.exhausted || t || e }

/-- A context's consumption is drawn from its own counters or those of its nearest carved ancestor; the root's never run out (16
R342). -/
def State.draw (s : State) (ctx clocks femtojoules : Nat) : State :=
  let owner := s.budgetOwner ctx
  if owner = 0 then s
  else
    s.modifyContext owner fun c =>
      { c with budget := c.budget.draw clocks femtojoules ((s.context ctx).any Context.mayIssue) }

/-- Takes `n` units from a counter of an owner and gives none back where it has not as many; the root's never run out. -/
def takeUnits (root : Bool) (counter : DWord) (n : Nat) : Option DWord :=
  if root then some counter
  else if n ≤ counter.toNat then some (counter - BitVec.ofNat 64 n) else none

/-- Adds `n` units to a counter, where they fit in its 64 bits. -/
def giveUnits (root : Bool) (counter : DWord) (n : Nat) : Option DWord :=
  if root then some counter
  else if counter.toNat + n < 2 ^ 64 then some (counter + BitVec.ofNat 64 n) else none

/-- A signed move from the parent's counter to the child's: both as they become, or NOT_HELD where the giver has too little, or
MALFORMED where the receiver cannot hold the sum (log 26). -/
def moveUnits (root : Bool) (parent child amount : DWord) : Except Status (DWord × DWord) :=
  let n := amount.toInt
  let moved (taken given : Option DWord) (f : DWord → DWord → DWord × DWord) : Except Status (DWord × DWord) :=
    match taken, given with
    | none, _ => .error .notHeld
    | _, none => .error .malformed
    | some a, some b => .ok (f a b)
  if 0 ≤ n then moved (takeUnits root parent n.toNat) (giveUnits false child n.toNat) fun a b => (a, b)
  else moved (takeUnits false child n.natAbs) (giveUnits root parent n.natAbs) fun a b => (b, a)

/-- A counter that its owner draws from has been brought to zero. -/
def cameToZero (before after : DWord) : Bool := before != 0 && after == 0

/-- Moves units and sets the budget mode (16 R343). -/
def State.setBudget (s : State) (n : Nat) (c : Context) (b : List Byte) : Answer :=
  let time := BitVec.ofNat 64 (fieldAt b 0 8)
  let energy := BitVec.ofNat 64 (fieldAt b 8 8)
  let mode := fieldAt b 16 4
  if 3 ≤ mode ∨ numberOf (b.drop 20) ≠ 0 then .error .malformed
  else
    let owner := s.budgetOwner c.parent
    match s.context owner with
    | none => .error .notHeld
    | some o =>
      match moveUnits (owner == 0) o.budget.time c.budget.time time,
          moveUnits (owner == 0) o.budget.energy c.budget.energy energy with
      | .error e, _ => .error e
      | _, .error e => .error e
      | .ok (ot, ct), .ok (oe, ce) =>
        let spent (old : Budget) (t e : DWord) : Bool := old.exhausted || cameToZero old.time t || cameToZero old.energy e
        let ob : Budget := { o.budget with time := ot, energy := oe, exhausted := owner != 0 && spent o.budget ot oe }
        let carved := if mode = 0 then c.budget.carved else mode == 2
        let cb : Budget :=
          { c.budget with time := ct, energy := ce, carved := carved, exhausted := c.budget.carved && spent c.budget ct ce }
        .ok (0, (s.setContext owner { o with budget := ob }).setContext n { c with budget := cb })

/-- CTX_BUDGET (16 R343). -/
def execCtxBudget (b : BitVec 5) (c : BitVec 5) (d : BitVec 5) (s : State) : Result :=
  contextGate s fun h caller =>
    match s.named caller (h.reg c) with
    | .error e => s.answers d (.error e)
    | .ok (n, x) => withBlock s caller d (h.reg b) 4 fun bytes => s.setBudget n x bytes

/-! ### Halts (16 R340, 19 R379) -/

/-- The state code of a context (16 R335). -/
def ContextState.code (x : ContextState) : Nat :=
  match x with
  | .created => 0
  | .running => 1
  | .halting => 2
  | .halted => 3
  | .revoking => 4

/-- A running context enters the soft step, by a halt of context `root` (19 R379). -/
def Context.soften (c : Context) (inherited : Bool) (root deadline : Nat) : Context :=
  match c.state with
  | .running =>
    { c with
      state := .halting
      halt := some { forced := false, cause := .none, deadline := deadline, records := [], resume := inherited,
                     inherited := inherited, root := root } }
  | _ => c

/-- `ctx.halt` of a mode: what it answers (16 R340, 19 R379). -/
def State.haltContext (s : State) (n : Nat) (c : Context) (mode : DWord) : Answer :=
  if mode = 0 then .ok (BitVec.ofNat 64 c.state.code, s)
  else if 3 ≤ mode.toNat then .error .malformed
  else
    match c.state with
    | .running =>
      if mode = 1 then
        let deadline := s.clock + clocksOf s.graceNs
        .ok (2, { s with contexts := s.contexts.update fun m x =>
          if m = n then x.soften false n deadline else if s.below m n then x.soften true n deadline else x }.serviceQueues)
      else .ok (2, (s.raiseLine n .none).serviceQueues)
    | .halting => if mode = 1 then .ok (2, s) else .ok (2, s.raiseLine n .none)
    | _ => .error .state

/-- The word `ctx.halt`. -/
def contextHalt (s : State) (m c d : BitVec 5) : Result :=
  contextGate s fun h caller =>
    match s.named caller (h.reg c) with
    | .error e => s.answers d (.error e)
    | .ok (n, x) => s.answers d (s.haltContext n x (h.reg m))

/-- CTX_HALT_QUERY (16 R340). -/
def execCtxHaltQuery (m : BitVec 5) (c : BitVec 5) (d : BitVec 5) (s : State) : Result := contextHalt s m c d

/-- CTX_HALT_SOFT (19 R379). -/
def execCtxHaltSoft (m : BitVec 5) (c : BitVec 5) (d : BitVec 5) (s : State) : Result := contextHalt s m c d

/-- CTX_HALT_FORCED (19 R379). -/
def execCtxHaltForced (m : BitVec 5) (c : BitVec 5) (d : BitVec 5) (s : State) : Result := contextHalt s m c d

/-! ### Invalidation and fences (16 R327, R328) -/

/-- An invalidation of the acting hart has been broadcast. -/
def State.noteInvalidation (s : State) : State :=
  let h := s.hartAt s.hart
  s.setHart s.hart { h with unfenced := h.unfenced + 1 }

/-- The word `tlbinv`: an invalid operand raises the illegal-instruction exception (16 R327, R335). -/
def invalidate (s : State) (a c : BitVec 5) : Result :=
  contextGate s fun h caller =>
    let x := h.reg c
    let range := (h.reg a).toNat
    let n := range % 64
    let frames := range / 64 % 2 == 1
    let base := range / 4096 * 4096
    if (s.context x.toNat).isNone ∨ !(x.toNat == caller || s.below x.toNat caller) ∨ range / 128 % 32 ≠ 0 ∨ 2 ^ 48 ≤ range ∨
        n < 12 ∨ 48 < n ∨ base % 2 ^ n ≠ 0 ∨ (frames ∧ n < 21) then s.illegal
    else
      let s1 := if frames then s.invalidateFrames x.toNat (base / 0x200000) (2 ^ n / 0x200000)
        else s.invalidateVirtual x.toNat base n
      let s2 := s1.noteInvalidation
      let h2 := s2.hartAt s.hart
      .next (s2.setHart s.hart { h2 with pc := h2.pc + 4 })

/-- TLBINV_VIRTUAL (16 R327). -/
def execTlbinvVirtual (a : BitVec 5) (c : BitVec 5) (s : State) : Result := invalidate s a c

/-- TLBINV_FRAMES (16 R327). -/
def execTlbinvFrames (a : BitVec 5) (c : BitVec 5) (s : State) : Result := invalidate s a c

/-- TLBFENCE (16 R328): the hart waits in it until TLBFENCE_RETIRE. -/
def execTlbfence (s : State) : Result :=
  contextGate s fun h _ => .next (s.setHart s.hart { h with fencing := some s.serial })

/-- Every load issued below a serial number has returned its data (16 R328). Stores and engine commands perform whole. -/
def State.landedBelow (s : State) (serial : Nat) : Bool :=
  s.gangs.all fun e => e.2.loads.all fun l => l.sectors.isEmpty || decide (serial ≤ l.id)

/-- TLBFENCE_RETIRE (16 R328, R331): once the hart's invalidations have completed it goes on, and held accesses and logged stores
are retried. Subject: `who` is the hart. -/
def execTlbfenceRetire (s : State) : Result :=
  let h := s.hartAt s.subject.who
  match h.fencing with
  | none => .next s
  | some serial =>
    if h.unfenced ≠ 0 ∧ !s.landedBelow serial then .next s
    else .next (s.setHart s.subject.who { h with fencing := none, unfenced := 0, pc := h.pc + 4 }).retryAll

end Sys2Proof.Machine
end

