-- ==== Sys2Proof/Machine/Grants.lean ====
section
/-!
DEFINITION. Grants of resources, and the issue of revocations (16 R315, R323, R324, R338, R344; 19 R391).
-/
namespace Sys2Proof.Machine

/-! ### Grant arrays (16 R323, R324) -/

/-- A grant entry: valid, with the frame of the parent that it maps to, its run and its permissions (16 R323). -/
def grantEntry (parentAddr run perm : Nat) : DWord :=
  BitVec.ofNat 64 (parentAddr / 0x200000 * 0x200000 + run * 65536 + perm * 2 + 1)

/-- The log₂ of the largest aligned block below `2^run` frames around `frame` that does not meet the aligned changed range at `lo`
(16 R324). -/
def survivingRun (frame lo run : Nat) : Nat :=
  (((List.range run).reverse).find? fun k => frame / 2 ^ k != lo / 2 ^ k).getD 0

/-- The entries that survive a change of the `2^n` frames at `lo`: those of a block that the change has broken take a smaller run (16
R324). -/
def surviving (grants : Cells 64) (lo n : Nat) : Cells 64 :=
  (grants.filter fun e => decide (e.1 < lo) || decide (lo + 2 ^ n ≤ e.1)).map fun e =>
    let run := (e.2.extractLsb 20 16).toNat
    if n < run ∧ e.1 / 2 ^ run = lo / 2 ^ run then
      (e.1, (e.2 &&& ~~~(0x1F0000 : DWord)) ||| BitVec.ofNat 64 (survivingRun e.1 lo run * 65536))
    else e

/-- The array with the `2^n` entries from `lo` replaced. -/
def replaceBlock (grants : Cells 64) (lo n : Nat) (block : Cells 64) : Cells 64 :=
  let rest := surviving grants lo n
  (rest.filter fun e => decide (e.1 < lo)) ++ block ++ (rest.filter fun e => decide (lo + 2 ^ n ≤ e.1))

/-- The valid frames among the `2^n` from `lo`. -/
def Context.grantedIn (c : Context) (lo n : Nat) : List (Nat × DWord) :=
  c.grants.filter fun e => decide (lo ≤ e.1) && decide (e.1 < lo + 2 ^ n) && e.2.getLsbD 0

/-- The machine address to which a context's physical address maps, whatever its permissions (16 R319). -/
def State.machineOfFuel (s : State) : Nat → Nat → Nat → Option Nat
  | 0, _, _ => none
  | fuel + 1, n, x =>
    if n = 0 then some x
    else
      match s.context n with
      | none => none
      | some c =>
        let e := c.grants.get (x / 0x200000)
        if e.getLsbD 0 then s.machineOfFuel fuel c.parent ((e.extractLsb 47 21).toNat * 0x200000 + x % 0x200000) else none

/-- The machine address to which a context's physical address maps, whatever its permissions (16 R319). -/
def State.machineOf (s : State) (n x : Nat) : Option Nat := s.machineOfFuel 6 n x

/-- The machine frame is still to be scrubbed (16 R344). -/
def State.scrubbing (s : State) (machine : Nat) : Bool :=
  s.contexts.any fun e =>
    match e.2.revocation with
    | none => false
    | some r => r.scrub.contains machine

/-! ### Resources (16 R315, R338) -/

/-- A grant or revocation block's fields (16 R338). -/
structure ResourceBlock where
  kind : Nat
  size : Nat
  perm : Nat
  a : Nat
  b : Nat
  deriving DecidableEq, Repr

/-- The block that 32 bytes hold; none where a reserved byte is set. -/
def ResourceBlock.of (x : List Byte) : Option ResourceBlock :=
  if fieldAt x 3 1 ≠ 0 ∨ numberOf (x.drop 16) ≠ 0 then none
  else some { kind := fieldAt x 0 1, size := fieldAt x 1 1, perm := fieldAt x 2 1, a := fieldAt x 4 4, b := fieldAt x 8 8 }

/-- A context holds a storage namespace; the root holds those of the drives that no other context holds. -/
def State.holdsNamespace (s : State) (n : Nat) (x : Nat × Nat) : Bool :=
  if n = 0 then Config.namespaceExists x.1 x.2 && !(s.contexts.any fun e => e.2.namespaces.contains x)
  else ((s.context n).map fun c => c.namespaces.contains x).getD false

/-- The core numbers that a 16-bit mask names. -/
def maskCores (mask : Nat) : List Nat := (List.range 16).filter fun i => mask / 2 ^ i % 2 == 1

/-- Puts numbers into a rising list. -/
def mergeRising (xs ys : List Nat) (n : Nat) : List Nat := (List.range n).filter fun i => xs.contains i || ys.contains i

/-- A memory grant (16 R338 kind 0): MALFORMED, NOT_HELD, BUSY, or the child as it becomes and whether an entry was replaced. A grant over
the frame of the child's doorbell page is made, and that frame stays a device frame (DESIGN CHOICE, log 26: R338 forbids only a doorbell page
in a frame that is granted). -/
def State.grantMemory (s : State) (p c : Context) (x : ResourceBlock) : Except Status (Context × Bool) :=
  let frames := (List.range (2 ^ x.size)).map fun i => x.b + 0x200000 * i
  let held (f : Nat) : Bool :=
    if c.parent = 0 then true
    else
      let e := p.grants.get (f / 0x200000)
      decide (f / 0x200000 < p.frames) && e.getLsbD 0 && (e.toNat / 2 % 8 &&& x.perm) == x.perm
  let busy (f : Nat) : Bool :=
    match s.machineOf c.parent f with
    | none => false
    | some m => s.scrubbing m
  if 16 < x.size ∨ 8 ≤ x.perm ∨ x.a % 2 ^ x.size ≠ 0 ∨ c.frames < x.a + 2 ^ x.size ∨ x.b % 2 ^ (21 + x.size) ≠ 0 ∨
      2 ^ 48 ≤ x.b ∨ (c.parent = 0 ∧ !machineRange x.b (2 ^ (21 + x.size))) then .error .malformed
  else if !frames.all held then .error .notHeld
  else if frames.any busy then .error .busy
  else
    let block : Cells 64 := (List.range (2 ^ x.size)).map fun i => (x.a + i, grantEntry (x.b + 0x200000 * i) x.size x.perm)
    .ok ({ c with grants := replaceBlock c.grants x.a x.size block }, !(c.grantedIn x.a x.size).isEmpty)

/-- A grant of a resource that is not memory: the parent and the child as they become (16 R338, R315; 19 R381). A
depth-1 partition, the context with all below it, holds at most one network port (01 R8). -/
def State.grantOther (s : State) (n : Nat) (p c : Context) (x : ResourceBlock) : Except Status (Context × Context) :=
  if x.size ≠ 0 ∨ x.perm ≠ 0 then .error .malformed
  else if x.kind = 1 then
    let cores := (p.cores.drop x.a).take x.b
    if x.b = 0 ∨ 192 < x.b then .error .malformed
    else if p.cores.length < x.a + x.b then .error .notHeld
    else if cores.any fun n => c.cores.contains n then .error .malformed
    else if !s.upward Context.cold c.parent ∧ !c.cold ∧ Config.grantRegionSize < s.regionUsed + 0x1000000 * x.b then .error .limit
    else .ok (p, { c with cores := c.cores ++ cores })
  else if x.kind = 2 then
    let cores := maskCores x.a
    if 65536 ≤ x.a ∨ x.b ≠ 0 then .error .malformed
    else if !cores.all fun n => p.gpCores.contains n then .error .notHeld
    else
      .ok ({ p with gpCores := p.gpCores.filter fun n => !cores.contains n },
        { c with gpCores := mergeRising c.gpCores cores 16 })
  else if x.kind = 3 then
    if 8 ≤ x.a ∨ x.b ≠ 0 then .error .malformed
    else if !p.ports.contains x.a then .error .notHeld
    else if c.depth = 1 ∧ (s.subtree n).any (fun m => ((s.context m).map fun y => !y.ports.isEmpty).getD false) then .error .limit
    else .ok ({ p with ports := p.ports.filter fun n => n != x.a }, { c with ports := mergeRising c.ports [x.a] 8 })
  else if x.kind = 4 then
    if 4 ≤ x.a ∨ 2 ^ 32 ≤ x.b then .error .malformed
    else if !s.holdsNamespace c.parent (x.a, x.b) then .error .notHeld
    else
      .ok ({ p with namespaces := p.namespaces.filter fun y => y != (x.a, x.b) },
        { c with namespaces := c.namespaces ++ [(x.a, x.b)] })
  else if x.kind = 5 then
    if x.a ≠ 0 ∨ x.b % 4096 ≠ 0 ∨ c.frames ≤ x.b / 0x200000 ∨ (c.grants.get (x.b / 0x200000)).getLsbD 0 then
      .error .malformed
    else if c.doorbell.isSome then .error .limit
    else .ok (p, { c with doorbell := some x.b })
  else .error .malformed

/-- A partial revocation of the context is under way, or a whole one of it or of a context above it. -/
def State.revocationUnderWay (s : State) (n : Nat) (c : Context) : Bool := c.revocation.isSome || s.going n

/-- `ctx.grant` (16 R338). -/
def State.grant (s : State) (n : Nat) (c : Context) (b : List Byte) : Answer :=
  match ResourceBlock.of b, s.context c.parent with
  | none, _ => .error .malformed
  | _, none => .error .notBelow
  | some x, some p =>
    if s.revocationUnderWay n c then .error .busy
    else if x.kind = 0 then
      match s.grantMemory p c x with
      | .error e => .error e
      | .ok (c1, replaced) =>
        let s1 := s.setContext n c1
        let s2 := if replaced then (s1.invalidateFrames n x.a (2 ^ x.size)).noteInvalidation else s1
        .ok (0, s2.retryAll)
    else
      match s.grantOther n p c x with
      | .error e => .error e
      | .ok (p1, c1) => .ok (0, ((s.setContext c.parent p1).setContext n c1).retryAll)

/-- CTX_GRANT (16 R338). -/
def execCtxGrant (b : BitVec 5) (c : BitVec 5) (d : BitVec 5) (s : State) : Result :=
  contextGate s fun h caller =>
    match s.named caller (h.reg c) with
    | .error e => s.answers d (.error e)
    | .ok (n, x) => withBlock s caller d (h.reg b) 4 fun bytes => s.grant n x bytes

/-! ### Revocation: its issue (16 R344, 19 R391) -/

/-- The context's revocation begins. -/
def State.beginRevocation (s : State) (n : Nat) (c : Context) (x : ResourceBlock) (scrub : List Nat) : State :=
  let r : Revocation :=
    { kind := x.kind, size := x.size, a := x.a, b := x.b, actor := c.parent, scrub := scrub, serial := s.serial,
      cores := [] }
  s.setContext n { c with revocation := some r }

/-- The machine frames of some grant entries of a context. -/
def State.machineFrames (s : State) (c : Context) (entries : List (Nat × DWord)) : List Nat :=
  entries.filterMap fun e => s.machineOf c.parent ((e.2.extractLsb 47 21).toNat * 0x200000)

/-- Kind 0: the entries become invalid and are shot down at once; what they mapped is scrubbed when all that used them has ended (16
R344, R328). -/
def State.revokeMemory (s : State) (n : Nat) (c : Context) (x : ResourceBlock) : Answer :=
  if 16 < x.size ∨ x.perm ≠ 0 ∨ x.b ≠ 0 ∨ x.a % 2 ^ x.size ≠ 0 ∨ c.frames < x.a + 2 ^ x.size then .error .malformed
  else
    let entries := c.grantedIn x.a x.size
    if entries.isEmpty then .error .notHeld
    else
      let s1 := s.beginRevocation n { c with grants := replaceBlock c.grants x.a x.size [] } x (s.machineFrames c entries)
      .ok (0, s1.invalidateFrames n x.a (2 ^ x.size))

/-- The moved resources of a kind that a block names and a context holds, as numbers (16 R344 kinds 2 to 4). -/
def Context.heldOf (c : Context) (x : ResourceBlock) : List Nat :=
  if x.kind = 2 then c.gpCores.filter fun n => (maskCores x.a).contains n
  else if x.kind = 3 then c.ports.filter fun n => n == x.a
  else if c.namespaces.contains (x.a, x.b) then [x.b] else []

/-- The fields of a block of kinds 2 to 4 are in range (16 R338). -/
def ResourceBlock.movedValid (x : ResourceBlock) : Bool :=
  x.size == 0 && x.perm == 0 &&
    (if x.kind = 2 then decide (x.a < 65536) && x.b == 0
     else if x.kind = 3 then decide (x.a < 8) && x.b == 0
     else decide (x.a < 4) && decide (x.b < 2 ^ 32))

/-- The halt line of each context of a list rises, at its parent's request. -/
def State.forceAll (s : State) (ns : List Nat) : State := ns.foldl (fun acc n => acc.raiseLine n .none) s

/-- Kind 7 (16 R344): state revoking, and the forced halt of the context and of all below it. A revocation of it that is still
running is cancelled; what that one was to scrub is scrubbed with the rest. -/
def State.revokeWhole (s : State) (n : Nat) : State :=
  let s1 := s.raiseLine n .none
  match s1.context n with
  | none => s
  | some c =>
    let old := (c.revocation.map fun r => r.scrub).getD []
    State.serviceQueues (s1.beginRevocation n { c with state := .revoking } { kind := 7, size := 0, perm := 0, a := 0, b := 0 } old)

/-- The blocks that a context takes in an image: its save area and its grant array, each in whole blocks (19 R381, R392). -/
def Context.areaBlocks (c : Context) : Nat := (0x10000 + 0x1000000 * c.cores.length) / 4096 + (8 * c.frames + 4095) / 4096

/-- An image's size in 4,096-byte blocks: header, save areas and grant arrays, frame index, frames (19 R392). -/
def imageSize (contexts : List Context) (frames : Nat) : Nat :=
  1 + (contexts.map Context.areaBlocks).sum + (48 * frames + 4095) / 4096 + 512 * frames

/-- The size of the image that a page-out of a context writes now. -/
def State.imageBlocks (s : State) (n : Nat) (c : Context) : Nat :=
  imageSize ((s.subtree n).filterMap s.context) (c.grants.filter fun e => e.2.getLsbD 0).length

/-- The size of the image of a context that has been paged out. -/
def State.oldImageBlocks (s : State) (n : Nat) : Nat :=
  ((s.images.find? fun i => i.ctx == n).map fun i => imageSize i.contexts.values i.frames.length).getD 0

/-- The context's frames lie in an image: it is cold, or some of them have yet to be pulled (19 R391, R394). -/
def Context.hasImage (c : Context) : Bool := c.cold || !c.coldFrames.isEmpty

/-- Kind 6 (19 R391): the page-out of a halted context begins, or its image is re-pointed where it has one, between failures of pulls too
(R394). -/
def State.revokeCold (s : State) (n : Nat) (c : Context) (x : ResourceBlock) : Answer :=
  if x.size ≠ 0 ∨ x.perm ≠ 0 ∨ 4 ≤ x.a ∨ 2 ^ 32 ≤ x.b then .error .malformed
  else if c.state ≠ .halted ∨ (s.subtree n).any (fun m => ((s.context m).map fun y => y.halt.isSome || y.state == .running).getD false)
  then .error .state
  else if !s.holdsNamespace c.parent (x.a, x.b) then .error .notHeld
  else if Config.namespaceBlocks x.a x.b < (if c.hasImage then s.oldImageBlocks n else s.imageBlocks n c) then .error .malformed
  else if c.hasImage then .ok (0, s.setContext n { c with image := some (x.a, x.b), pullFailures := 0 })
  else .ok (0, s.beginRevocation n c x [])

/-- `ctx.revoke` (16 R344; 19 R391). -/
def State.revoke (s : State) (n : Nat) (c : Context) (b : List Byte) : Answer :=
  match ResourceBlock.of b, s.context c.parent with
  | none, _ => .error .malformed
  | _, none => .error .notBelow
  | some x, some p =>
    if x.kind = 7 then
      if x.size ≠ 0 ∨ x.perm ≠ 0 ∨ x.a ≠ 0 ∨ x.b ≠ 0 then .error .malformed
      else if s.going n then .error .busy
      else .ok (0, s.revokeWhole n)
    else if s.revocationUnderWay n c then .error .busy
    else if x.kind = 0 then s.revokeMemory n c x
    else if x.kind = 1 then
      let cores := (p.cores.drop x.a).take x.b
      if x.size ≠ 0 ∨ x.perm ≠ 0 ∨ x.b = 0 ∨ 192 < x.b then .error .malformed
      else if p.cores.length < x.a + x.b ∨ !(cores.any fun m => c.cores.contains m) then .error .notHeld
      else
        let s1 := (s.beginRevocation n c x []).modifyContext n fun y =>
          { y with revocation := y.revocation.map fun r => { r with cores := cores } }
        .ok (0, (s1.raiseLine n .none).serviceQueues)
    else if x.kind = 6 then s.revokeCold n c x
    else if x.kind = 5 then
      if x.size ≠ 0 ∨ x.perm ≠ 0 ∨ x.a ≠ 0 ∨ x.b ≠ 0 then .error .malformed
      else if c.doorbell.isNone then .error .notHeld
      else .ok (0, s.beginRevocation n { c with doorbell := none } x [])
    else if 8 ≤ x.kind ∨ !x.movedValid then .error .malformed
    else
      let holders := (s.subtree n).filter fun m => ((s.context m).map fun y => !(y.heldOf x).isEmpty).getD false
      if holders.isEmpty then .error .notHeld
      else .ok (0, ((s.beginRevocation n c x []).forceAll (holders.filter fun m => m != n)).serviceQueues)

/-- The word `ctx.revoke`. -/
def contextRevoke (s : State) (b c d : BitVec 5) : Result :=
  contextGate s fun h caller =>
    match s.named caller (h.reg c) with
    | .error e => s.answers d (.error e)
    | .ok (n, x) => withBlock s caller d (h.reg b) 4 fun bytes => s.revoke n x bytes

/-- CTX_REVOKE (16 R344). -/
def execCtxRevoke (b : BitVec 5) (c : BitVec 5) (d : BitVec 5) (s : State) : Result := contextRevoke s b c d

/-- CTX_REVOKE_COLD (19 R391). -/
def execCtxRevokeCold (b : BitVec 5) (c : BitVec 5) (d : BitVec 5) (s : State) : Result := contextRevoke s b c d

end Sys2Proof.Machine
end

