-- ==== Sys2Proof/Machine/Halts.lean ====
section
/-!
DEFINITION. The end of a halt with its records, save area and notice; the ladder's timers, kills and budget halts (19 R366-R388,
R421; 16 R342; readings in log 37).
-/
namespace Sys2Proof.Machine

/-! ### Renaming places: saved state names logical cores (19 R381) -/

/-- Where gangs and crews are after a move. -/
structure Moves where
  gang : Nat → Nat
  crew : Nat → Nat

/-- A latch key of a core after a move: a solo gang's, or a convoy's of a crew slot (09 R224, 19 R387). -/
def Moves.latch (m : Moves) (core key : Nat) : Nat :=
  if key < 128 then gangField (m.gang (core * 128 + key))
  else 128 + m.crew (core * 8 + (key - 128) / 8) % 8 * 8 + key % 8

/-- A command after a move of its gangs. -/
def Command.moved (m : Moves) (c : Command) : Command :=
  let work :=
    match c.work with
    | .joint sparse acc keep slot rows latch parts =>
      .joint sparse acc keep slot rows (m.latch c.core latch) (parts.map fun p => { p with gang := m.gang p.gang })
    | w => w
  { c with gangs := c.gangs.map m.gang, crew := m.crew c.crew, work := work }

/-- A side-log entry after a move of its gang. -/
def SideEntry.moved (m : Moves) (e : SideEntry) : SideEntry := { e with gang := m.gang e.gang }

/-- Puts a record into a table after every key has been changed. -/
def rekey {α : Type} (t : Table α) (f : Nat → Nat) : Table α := t.foldl (fun acc e => Table.put acc (f e.1) e.2) []

/-- A bank after a move of its crews and gangs from a core. -/
def Bank.moved (m : Moves) (core : Nat) (b : Bank) : Bank :=
  { b with
    holds := b.holds.map fun e => (e.1, BitVec.ofNat 32 (m.crew (e.2.toNat - 1) + 1))
    latches := rekey b.latches (m.latch core) }

/-! ### Stop records and notices (19 R372-R375) -/

/-- The address at which a gang that did not raise a trap resumes: that of its first slice that has not ended (19 R369). -/
def Gang.resumePc (g : Gang) : DWord := ((g.slices.find? Slice.live).map fun sl => sl.pc).getD 0

/-- The stop record of a resident gang at a halt, one that has ended too (11 R267; 19 R374). Every lane of the gang takes part, and an ended
gang resumes at no address (DESIGN CHOICE, log 37). -/
def State.haltRecord (s : State) (key : Nat) (g : Gang) (cause : Trap) : StopRecord :=
  match g.stop with
  | some r => r
  | none =>
    s.stopRecord key g
      { cause := cause, lanes := List.range g.width, address := 0, code := 0, origin := false, precise := false,
        pc := g.resumePc, trapPc := 0 }

/-- The source number of network port p, or of storage port p - 8 (19 R373). -/
def portSource (port : Nat) : Nat := 4 * 4096 + (if port < 8 then 0x110 + port else 0x120 + (port - 8))

/-- What an engine holds of a context: the engine's source number, its class, core, the issuing gang and the launch. -/
def State.engineWork (s : State) (n : Nat) : List (Nat × EngineClass × Nat × Nat × Word) :=
  let commands := (s.commands.filter fun c => c.ctx == n && !c.done).map fun c =>
    (engineSource c.core c.cls, c.cls, c.core, c.gangs.headD 0, c.launch)
  let chains := (s.gangs.filter fun e => e.2.ctx == n &&
      (match e.2.chain with
        | none => false
        | some c => c.active)).map fun e =>
    (engineSource (coreOf e.1) .pilot, EngineClass.pilot, coreOf e.1, e.1,
      ((s.crews.find e.2.crew).map fun c => c.launch).getD 0)
  commands ++ chains

/-- The record of an engine that held work and did not cause the halt: one for each engine (19 R374). -/
def State.engineRecords (s : State) (n : Nat) (c : Context) (cause : Trap) (known : List StopRecord) : List StopRecord :=
  (s.engineWork n).foldl (fun acc w =>
    if (known ++ acc).any fun r => r.source == w.1 && r.flags.getLsbD 2 then acc
    else
      acc ++
        [{ timestamp := s.timestamp, source := w.1, cause := cause, flags := 4, ctx := n,
           core := if w.2.1 = .lighter then 0xFFFF else c.logicalCore w.2.2.1, laneMask := 0, age := 0xFFFFFFFF,
           gang := gangField w.2.2.2.1, code := classCode w.2.1, address := 0, pc := 0, trapPc := 0,
           launch := w.2.2.2.2 }]) []

/-- The record of a port that held work of the context and did not cause the halt (19 R373, R374). -/
def State.portRecords (s : State) (n : Nat) (cause : Trap) (known : List StopRecord) : List StopRecord :=
  (((s.portHolds.filter fun p => p.ctx == n).map fun p => portSource p.port).filter fun x =>
    !(known.any fun r => r.source == x)).map fun x =>
      { timestamp := s.timestamp, source := x, cause := cause, flags := 0, ctx := n, core := 0xFFFF, laneMask := 0, age := 0xFFFFFFFF,
        gang := 0xFF, code := 0, address := 0, pc := 0, trapPc := 0, launch := 0 }

/-- Of two records the earlier: by timestamp, then source number (19 R374). -/
def StopRecord.before (a b : StopRecord) : Bool :=
  decide (a.timestamp < b.timestamp) || (a.timestamp == b.timestamp && decide (a.source ≤ b.source))

/-- Puts a record among those of earlier events. -/
def insertRecord (r : StopRecord) : List StopRecord → List StopRecord
  | [] => [r]
  | x :: rest => if x.before r then x :: insertRecord r rest else r :: x :: rest

/-- Records in event order (19 R374, R375). -/
def byEvent (l : List StopRecord) : List StopRecord := l.foldr insertRecord []

/-- The first origin record (19 R374). -/
def firstOrigin : List StopRecord → Option StopRecord
  | [] => none
  | r :: rest =>
    match firstOrigin rest with
    | none => if r.flags.getLsbD 0 then some r else none
    | some x => if r.flags.getLsbD 0 && r.before x then some r else some x

/-- The source is a gang's issue unit (19 R373). -/
def issueUnit (source : Nat) : Bool := decide (source % 4096 < 0x300) && source % 16 == 0 && decide (source / 4096 < 4)

/-- The notice of a halt, by its first origin record (19 R374). -/
def StopRecord.notice (r : StopRecord) (ctx : Nat) : FaultRecord where
  address := if r.address ≠ 0 then r.address else if r.trapPc ≠ 0 then r.trapPc else r.pc
  timestamp := r.timestamp
  ctx := ctx
  cause := r.cause
  flags := if issueUnit r.source then 16 else 24
  core := r.core
  gang := r.gang
  level := 0
  age := r.age

/-- A notice that names no unit (19 R380, R390; 16 R342, R344). -/
def State.plainNotice (s : State) (ctx : Nat) (cause : Trap) : FaultRecord where
  address := 0
  timestamp := s.timestamp
  ctx := ctx
  cause := cause
  flags := 16
  core := 0xFFFF
  gang := 0xFF
  level := 0
  age := 0xFFFFFFFF

/-- Posts a notice about a context to its parent's ring; the root has no parent (19 R374, R421). -/
def State.postNotice (s : State) (ctx : Nat) (r : FaultRecord) : State :=
  match s.context ctx with
  | none => s
  | some c => if c.depth = 0 then s else s.postRecord c.parent r .none

/-! ### The save area (19 R369-R371, R381-R388) -/

/-- What is kept of an `stc` that is withdrawn between two turns: its lanes that could not put blocks back stay failed, and the others act
afresh. -/
def ChartStore.unpaid (x : ChartStore) : Option ChartStore :=
  let owing := x.faults.filter fun f => !f.owed.isEmpty
  if owing.isEmpty then none else some { x with tiles := [], faults := owing, lost := none }

/-- A gang as it is saved: its loads have landed, what it waited at is withdrawn but for barriers and yields, and the applied vectors have
reached its stamp and all that it has yet to acquire (19 R369, R371; 05 R138). Of an `stc` between turns only the blocks that a lane could
not put back are kept (log 35). -/
def Gang.saved (g : Gang) (crew : Nat) : Gang :=
  { g with
    crew := crew, loads := [], held := none, stop := none, waited := 0, alloc := g.alloc.bind ChartStore.unpaid
    wait := match g.wait with
      | .bar c t => .bar c t
      | .barc d t => .barc d t
      | w => if (g.alloc.bind ChartStore.unpaid).isSome then w else .none
    slices := g.slices.map fun sl => { sl with parked := false }
    rc := g.rc.map fun c => { c with seen := noEpochs }
    stamp := noEpochs, seen := noEpochs, classSeen := g.classSeen.map fun _ => noEpochs }

/-- What a gang's accesses carry, and what it has yet to acquire (05 R136). -/
def Gang.vectors (g : Gang) : List (List DWord) := [g.stamp, g.seen] ++ g.classSeen ++ g.rc.map fun c => c.seen

/-- The scratchpad image of a crew, by offset (19 R383). -/
def Core.imageOf (c : Core) (granules : List Nat) : Cells 8 :=
  (List.range granules.length).flatMap fun j =>
    (c.scratch.filter fun e => e.1 / 4096 == granules.getD j 0).map fun e => (j * 4096 + e.1 % 4096, e.2)

/-- Physical places as logical ones of a context (19 R381). -/
def Context.toLogical (c : Context) : Moves where
  gang := fun k => c.logicalCore (k / 128) * 128 + k % 128
  crew := fun k => c.logicalCore (k / 8) * 8 + k % 8

/-- The core slot of a logical core (19 R383-R388). -/
def State.saveCore (s : State) (n : Nat) (c : Context) (records : List StopRecord) (logical physical : Nat) : SavedCore where
  logical := logical
  records := byEvent (records.filter fun r => r.core == logical)
  crews := (s.crews.filter fun e => e.1 / 8 == physical && e.2.ctx == n).map fun e =>
    (e.1 % 8,
      ({ e.2 with
          gangs := e.2.gangs.map c.toLogical.gang, granules := []
          convoys := e.2.convoys.map fun x => { x with arrivals := [] } },
        (s.core physical).imageOf e.2.granules))
  gangs := (s.gangs.filter fun e => coreOf e.1 == physical && e.2.ctx == n).map fun e =>
    (e.1 % 128, e.2.saved (c.toLogical.crew e.2.crew))
  sideLog := ((s.core physical).sideLog.filter fun e => e.ctx == n).map (SideEntry.moved c.toLogical)
  bank := ((s.core physical).banks.find n).map (Bank.moved c.toLogical physical)

/-- The save area of a context (19 R382, R383). -/
def State.saveArea (s : State) (n : Nat) (c : Context) (cause : Trap) (forced : Bool) (records : List StopRecord) : Saved where
  cause := cause
  forced := forced
  haltTime := s.timestamp
  records := byEvent (records.filter fun r => decide (c.cores.length ≤ r.core))
  cores := c.cores.mapIdx fun i p => s.saveCore n c records i p
  commands := (s.commands.filter fun x => x.ctx == n).map fun x => { x.moved c.toLogical with stopped := false }

/-- Everything of a context leaves the cores (19 R371, R380). -/
def State.clearCores (s : State) (n : Nat) : State :=
  let gone (key : Nat) : Bool := (s.gangs.find key).any fun g => g.ctx == n
  { s with
    crews := s.crews.filter fun e => e.2.ctx != n
    gangs := s.gangs.filter fun e => e.2.ctx != n
    commands := s.commands.filter fun x => x.ctx != n
    pending := s.pending.map fun p =>
      match p.blocks with
      | .gang key => if gone key then { p with blocks := .none } else p
      | _ => p
    cores := s.cores.update fun _ x =>
      { x with
        sideLog := x.sideLog.filter fun e => e.ctx != n
        banks := x.banks.erase n
        residentBanks := x.residentBanks.filter fun m => m != n
        windows := x.windows.filter fun w => w.ctx != n } }

/-! ### The end of a halt (19 R371, R374, R378, R379) -/

/-- Every unit of the context has stopped, the gantries having run what they accepted, with all that it waits for and that can go on (09
R222; 19 R368), and no chart store having blocks yet to link (log 37); what its gangs loaded has landed, and the applied vectors have reached their stamps; in the
soft step, no crew is resident (19 R369, R371, R379). The contexts that halt with it have halted before. -/
def State.haltReady (s : State) (n : Nat) (h : Halt) : Bool :=
  !(s.contexts.any fun e => s.below e.1 n && (match e.2.halt with
    | none => false
    | some x => x.inherited)) &&
  (if h.forced then
     (s.gangs.all fun e => e.2.ctx != n || ((e.2.loads.all fun l => l.sectors.isEmpty) && (e.2.alloc.all fun a => a.taken.isNone) &&
       e.2.vectors.all s.covered)) &&
     !((s.awaited n).any s.canMove)
   else s.crews.all fun e => e.2.ctx != n)

/-- The collection windows of a context close (19 R377). -/
def State.closeWindows (s : State) (n : Nat) : State := s.cores.keys.foldl (fun acc core => acc.closeWindow core n) s

/-- Launches with crews resident or unplaced take state 5 where the halt has a cause (19 R378). -/
def State.stopLaunches (s : State) (n : Nat) (c : Context) (cause : Trap) : State :=
  if cause = .none then s
  else
    let unfinished (l : Launch) : Bool := !l.stopped && decide (l.crewsEnded < l.record.crewCount.toNat)
    let s1 := (c.launches.filter unfinished).foldl (fun acc l =>
      acc.writeStatus ⟨n, l.queue⟩ l.entryAddr.toNat 5 (trapCode cause) true) s
    s1.modifyContext n fun x =>
      { x with launches := x.launches.map fun l => if unfinished l then { l with stopped := true, code := trapCode cause } else l }

/-- The halt of a context completes: records, save area, state, statuses and notice (19 R371, R374, R378). -/
def State.completeHalt (s0 : State) (n : Nat) (h : Halt) : State :=
  let s := s0.closeWindows n
  match s.context n with
  | none => s0
  | some c =>
    let raised := (s.gangs.filterMap fun e => if e.2.ctx = n then e.2.stop else none) ++
      ((c.halt.map fun x => x.records).getD [])
    let origin := firstOrigin raised
    let cause := (origin.map fun r => r.cause).getD h.cause
    let gangs := (s.gangs.filter fun e => e.2.ctx == n).map fun e => s.haltRecord e.1 e.2 cause
    let events := ((c.halt.map fun x => x.records).getD [])
    let records := gangs ++ events ++ s.engineRecords n c cause events ++ s.portRecords n cause events
    let saved := s.saveArea n c cause h.forced records
    let halted : Context :=
      { c with
        state := if c.state = .revoking then .revoking else .halted
        halt := none, saved := some saved, resumeWithParent := h.resume, haltRoot := h.root, freed := [] }
    let s1 := ((s.clearCores n).setContext n halted).stopLaunches n c cause
    let s2 := match origin with
      | none => s1
      | some r => s1.postNotice n (r.notice n)
    s2.serviceQueues

/-- HALT_COMPLETE (19 R371). Subject: `who` is the context. -/
def execHaltComplete (s : State) : Result :=
  let n := s.subject.who
  match (s.context n).bind fun c => c.halt with
  | none => .next s
  | some h => if s.haltReady n h then .next (s.completeHalt n h) else .next s

/-! ### The ladder's timers (19 R379, R380) -/

/-- A halt of its own in a step whose timer has expired. -/
def Halt.expired (h : Halt) (forced : Bool) (clock : Nat) : Bool :=
  h.forced == forced && !h.inherited && decide (h.deadline ≤ clock)

/-- GRACE_TIMER_EXPIRY (19 R379): a crew is still resident, and the forced step begins. Subject: `who` is the context. -/
def execGraceTimerExpiry (s : State) : Result :=
  let n := s.subject.who
  match (s.context n).bind fun c => c.halt with
  | none => .next s
  | some h =>
    if h.expired false s.clock && (s.crews.any fun e => e.2.ctx == n || s.below e.2.ctx n) then
      .next (s.raiseLine n h.cause)
    else .next s

/-- The launches of a killed context end: those in state 1 with KILLED, those that a halt had stopped with that halt's code (19 R380,
13 R296). -/
def State.killLaunches (s : State) (n : Nat) (c : Context) : State :=
  let failed (l : Launch) : Failure := { ident := l.record.ident, state := 5, code := if l.stopped then l.code else 0x1A }
  let s1 := (c.launches.filter fun l => !l.stopped).foldl (fun acc l =>
    acc.writeStatus ⟨n, l.queue⟩ l.entryAddr.toNat 5 0x1A true) s
  s1.modifyContext n fun x =>
    { x with launches := [], failures := c.launches.foldl (fun acc l => addFailure acc (failed l)) x.failures }

/-- A context's work is discarded, its saved state with it, and it goes to state created (19 R380). -/
def State.discard (s : State) (n : Nat) : State :=
  match s.context n with
  | none => s
  | some c =>
    let forget (i : Image) : Image :=
      { i with contexts := i.contexts.update fun m x => if m = n then { x with saved := none } else x }
    State.modifyContext
      { (s.clearCores n).killLaunches n c with
        images := s.images.map forget
        portHolds := s.portHolds.filter fun p => p.ctx != n } n fun x =>
      { x with
        state := if x.state = .revoking then .revoking else .created
        halt := none, saved := none, resumeWithParent := false, freed := [] }

/-- A kill of a context and of all below it, with a notice of the cause (19 R380, R396). -/
def State.kill (s : State) (n : Nat) (cause : Trap) : State :=
  let s1 := (s.subtree n).foldl (fun acc m => acc.discard m) s
  (s1.postNotice n (s1.plainNotice n cause)).serviceQueues

/-- KILL_TIMER_EXPIRY (19 R379, R380): the halt has not completed. Subject: `who` is the context. -/
def execKillTimerExpiry (s : State) : Result :=
  let n := s.subject.who
  match (s.context n).bind fun c => c.halt with
  | none => .next s
  | some h => if h.expired true s.clock then .next (s.kill n .killed) else .next s

/-! ### Budget halts (16 R342) -/

/-- BUDGET_EXHAUSTED (16 R342): every context that draws from the counter takes the forced step, and a record goes to the ring of the
owner's parent. Subject: `who` is the context that owns the counter. -/
def execBudgetExhausted (s : State) : Result :=
  let n := s.subject.who
  match s.context n with
  | none => .next s
  | some c =>
    if !c.budget.exhausted ∨ c.depth = 0 then .next s
    else
      let s1 := s.setContext n { c with budget := { c.budget with exhausted := false } }
      let drawing (d : Nat) : List Nat := s.contexts.keys.filter fun m =>
        s.budgetOwner m == n && ((s.context m).any fun x => x.mayIssue && x.depth == d)
      let s2 := ((List.range 5).flatMap drawing).foldl (fun acc m => acc.raiseLine m .budgetExhausted) s1
      .next (s2.postNotice n (s2.plainNotice n .budgetExhausted)).serviceQueues

end Sys2Proof.Machine
end

