-- ==== Sys2Proof/Machine/Restore.lean ====
section
/-!
DEFINITION. `ctx.go` and restores, cold contexts, the end of revocations, and pulls of cold frames (16 R340, R344; 19 R388-R394).
-/
namespace Sys2Proof.Machine

/-! ### Fit of a saved core (19 R390) -/

/-- Places gangs one after another, each of its own size (13 R303). -/
def placeList : List Nat → List Room → Option (List Nat)
  | [], _ => some []
  | need :: rest, rooms =>
    match pickRoom need rooms with
    | none => none
    | some r =>
      let p := pickPosition r.taken
      let rooms' := rooms.map fun x =>
        if x.partition == r.partition then { x with free := x.free - need, taken := x.taken ++ [p] } else x
      (placeList rest rooms').map fun xs => (r.partition * 8 + p) :: xs

/-- Where the gangs of a saved core go on a core, in gang-slot order, if its crews fit there (19 R389, R390; 13 R302). -/
def State.restoreFit (s : State) (core : Nat) (x : SavedCore) : Option (List Nat) :=
  let crews := s.crewsOn core ++ x.crews.map fun e => e.2.1
  let moored := crews.filter fun c => c.record.mooringCode != 0
  let code := ((moored.map fun c => c.record.mooringCode).head?).getD 0
  if x.crews.isEmpty then some []
  else if s.disabledCores.contains core ∨ 8 < crews.length ∨ 1024 < (crews.map fun c => c.record.granules).sum ∨
      (moored.any fun c => c.record.mooringCode != code) ∨ 1024 < (moored.map fun c => c.record.mooringEntries).sum then none
  else placeList (x.gangs.map fun e => e.2.width * e.2.nregs * 4) (s.rooms core false)

/-- The bank holds what a new context's does not (19 R390). -/
def Bank.holdsState (b : Bank) : Bool :=
  !b.acc.isEmpty || (b.holds.any fun e => e.2 != 0) || !b.offers.isEmpty ||
  b.latches.any fun e => e.2.any fun row => row.any Option.isSome

/-- The bank of a logical core needs a gantry, and its core has none (19 R390). -/
def State.bankBarred (s : State) (core : Nat) (x : SavedCore) (commands : List Command) : Bool :=
  (s.core core).gantryDisabled &&
    ((x.bank.any fun b => b.holdsState) || commands.any fun c => c.core == x.logical && match c.work with
      | .peerSend .. => true
      | .peerRecv .. => true
      | _ => false)

/-! ### Loading a core slot (19 R389) -/

/-- The scratchpad image of a crew is loaded into its granules. -/
def Core.loadImage (c : Core) (granules : List Nat) (image : Cells 8) : Core :=
  let cleared := c.scratch.filter fun e => !granules.contains (e.1 / 4096)
  { c with scratch := image.foldl (fun m e => m.set (granules.getD (e.1 / 4096) 0 * 4096 + e.1 % 4096) e.2) cleared }

/-- Loads one crew into the lowest free slot: its old slot with the new one, and the state. -/
def State.loadCrew (s : State) (ctx core : Nat) (gangs : Nat → Nat) (e : Nat × Crew × Cells 8) : (Nat × Nat) × State :=
  let slot := core * 8 + s.freeSlot core
  let crew := e.2.1
  let (granules, s1) := s.giveGranules core ctx crew.record.granules (s.freeGranules core)
  let s2 := s1.setCore core ((s1.core core).loadImage granules e.2.2)
  ((e.1, slot), s2.setCrew slot { crew with gangs := crew.gangs.map gangs, granules := granules })

/-- Loads the crews of a core slot by crew slot. -/
def State.loadCrews (s : State) (ctx core : Nat) (gangs : Nat → Nat) :
    List (Nat × Crew × Cells 8) → List (Nat × Nat) × State
  | [] => ([], s)
  | e :: rest =>
    let (m, s1) := s.loadCrew ctx core gangs e
    let (ms, s2) := s1.loadCrews ctx core gangs rest
    (m :: ms, s2)

/-- What a saved key becomes by a list of pairs. -/
def lookupMove (pairs : List (Nat × Nat)) (key : Nat) : Nat := (Table.find pairs key).getD key

/-- Loads a core slot onto a core, the gangs at the given positions: the moves it made, and the state. -/
def State.loadCore (s : State) (ctx core : Nat) (x : SavedCore) (positions : List Nat) : Moves × State :=
  let base := x.logical * 128
  let gangPairs := (x.gangs.keys.zip positions).map fun p => (base + p.1, core * 128 + p.2)
  let (slots, s1) := s.loadCrews ctx core (lookupMove gangPairs) x.crews
  let crewPairs := slots.map fun p => (x.logical * 8 + p.1, p.2)
  let m : Moves := { gang := lookupMove gangPairs, crew := lookupMove crewPairs }
  let s2 := x.gangs.foldl (fun acc e => acc.setGang (m.gang (base + e.1)) { e.2 with crew := m.crew e.2.crew }) s1
  let c := s2.core core
  let banks := match x.bank with
    | none => c.banks
    | some b => c.banks.put ctx (b.moved m x.logical)
  (m, s2.setCore core
    { c with sideLog := c.sideLog ++ x.sideLog.map (SideEntry.moved m), banks := banks, placed := ctx :: c.placed.filter (· != ctx) })

/-- Puts a command into issue order. -/
def insertCommand (c : Command) : List Command → List Command
  | [] => [c]
  | x :: rest => if c.id < x.id then c :: x :: rest else x :: insertCommand c rest

/-- Loads the core slots of a context one after another, each on the core it holds under that logical number, with the commands that
move; none where one does not fit (19 R389, R390). -/
def State.loadCores (s : State) (n : Nat) (cores : List Nat) (commands : List Command) : List SavedCore → Option State
  | [] => some s
  | x :: rest =>
    match cores[x.logical]? with
    | none => none
    | some core =>
      if s.bankBarred core x commands then none
      else
        match s.restoreFit core x with
        | none => none
        | some positions =>
          let (m, s1) := s.loadCore n core x positions
          let mine := (commands.filter fun c => c.core == x.logical).map (Command.moved m)
          State.loadCores { s1 with commands := mine.foldl (fun acc c => insertCommand c acc) s1.commands } n cores commands rest

/-! ### `ctx.go` (16 R340; 19 R378, R389, R390) -/

/-- The launches that the halt had stopped are set back to state 1 (19 R378). -/
def State.resumeLaunches (s : State) (n : Nat) (c : Context) : State :=
  let s1 := (c.launches.filter fun l => l.stopped).foldl (fun acc l =>
    acc.writeStatus ⟨n, l.queue⟩ l.entryAddr.toNat 1 0 false) s
  s1.modifyContext n fun x => { x with launches := x.launches.map fun l => { l with stopped := false, code := 0 } }

/-- A halted context runs again from its save area; none where it does not fit (19 R389, R390). -/
def State.restoreOne (s : State) (n : Nat) : Option State :=
  match s.context n with
  | none => none
  | some c =>
    match c.saved with
    | none => some (s.setContext n { c with state := .running, resumeWithParent := false })
    | some x =>
      if c.cores.length < x.cores.length then none
      else
        (s.loadCores n c.cores x.commands x.cores).map fun s1 =>
          State.resumeLaunches
            (s1.modifyContext n fun y => { y with state := .running, saved := none, resumeWithParent := false }) n c

/-- Restores contexts one after another. -/
def State.restoreAll (s : State) : List Nat → Option State
  | [] => some s
  | n :: rest =>
    match s.restoreOne n with
    | none => none
    | some s1 => s1.restoreAll rest

/-- The context that halted, and those below it that were running when its halt began, or resume with a parent that does (16 R340; 19
R393), by depth. -/
def State.resumeGroup (s : State) (n : Nat) : List Nat :=
  let root := ((s.context n).map fun c => c.haltRoot).getD n
  (List.range 5).foldl (fun acc d =>
    acc ++ (s.contexts.filter fun e => e.2.depth == d + 1 && s.below e.1 n && (acc.contains e.2.parent || e.2.haltRoot == root) &&
      e.2.state == .halted && e.2.resumeWithParent && !e.2.cold).map fun e => e.1) [n]

/-- A halted context resumes, with those that halted with it, or the restore is refused: it stays halted, and a notice says so (19
R389, R390). -/
def State.resume (s : State) (n : Nat) : State :=
  match s.restoreAll (s.resumeGroup n) with
  | some s1 => s1.retryAll
  | none => s.postNotice n (s.plainNotice n .restoreShortfall)

/-- `ctx.go` (16 R340). A cold context resumes by its doorbell (19 R393), and is STATE here (DESIGN CHOICE, log 51: no rule says what it
answers). -/
def State.goContext (s : State) (n : Nat) (c : Context) : Answer :=
  if s.going n ∨ c.cold then .error .state
  else if c.revocation.isSome || s.upward (Context.revokes fun k => k == 1 || k == 6) n then .error .busy
  else
    match c.state with
    | .created => .ok (0, (s.setContext n { c with state := .running }).serviceQueues)
    | .halted => .ok (0, s.resume n)
    | _ => .error .state

/-- CTX_GO (16 R340). -/
def execCtxGo (c : BitVec 5) (d : BitVec 5) (s : State) : Result :=
  contextGate s fun h caller =>
    match s.named caller (h.reg c) with
    | .error e => s.answers d (.error e)
    | .ok (n, x) => s.answers d (s.goContext n x)

/-! ### Scrubbing and the ends of revocations (16 R344) -/

/-- Zeros over whole frames at their homes; sectors that could not be corrected are replaced (16 R344, 19 R396). -/
def State.scrubFrames (s : State) (frames : List Nat) : State :=
  let inside (a : Nat) : Bool := frames.contains (a / 0x200000 * 0x200000)
  { s with
    mem := s.mem.filter fun e => !inside e.1
    badSectors := s.badSectors.filter fun a => !inside a }

/-- The revocation has ended: its record goes to the acting parent's ring, and held accesses are retried (16 R344). -/
def State.endRevocation (s : State) (n actor : Nat) : State :=
  (s.postRecord actor (s.plainNotice n .none) .none).retryAll

/-- The revocation stands no longer. -/
def State.clearRevocation (s : State) (n : Nat) : State := s.modifyContext n fun c => { c with revocation := none }

/-- Units return to the counters that a context draws on, which stop at 2^64 - 1 (DESIGN CHOICE, log 50: 16 R343 names neither a counter nor a
limit); the root's never run out. -/
def State.returnUnits (s : State) (n : Nat) (time energy : Nat) : State :=
  let add (x : DWord) (k : Nat) : DWord := BitVec.ofNat 64 (min (x.toNat + k) (2 ^ 64 - 1))
  let owner := s.budgetOwner n
  if owner = 0 then s
  else s.modifyContext owner fun c =>
    { c with budget := { c.budget with time := add c.budget.time time, energy := add c.budget.energy energy } }

/-- The granules that contexts held last are zeroed (16 R344). -/
def Core.forget (c : Core) (ns : List Nat) : Core :=
  let mine (g : Nat) : Bool := ns.any fun n => (c.holders.get g).toNat == n + 1
  { c with
    scratch := c.scratch.filter fun e => !mine (e.1 / 4096)
    holders := c.holders.filter fun e => !mine e.1
    banks := c.banks.filter fun e => !ns.contains e.1
    residentBanks := c.residentBanks.filter fun n => !ns.contains n
    sideLog := c.sideLog.filter fun e => !ns.contains e.ctx
    placed := c.placed.filter fun n => !ns.contains n }

/-- Contexts leave the device: their queues, translations, images and numbers (16 R344 kind 7). A record that waits for a ring of
theirs goes to the acting parent's. -/
def State.removeContexts (s : State) (ns : List Nat) (actor : Nat) : State :=
  let gone (q : QueueId) : Bool := ns.contains q.ctx
  let mine (key : Nat) : Bool := ns.contains (key / 65536)
  let s1 : State :=
    { s with
      contexts := s.contexts.filter fun e => !ns.contains e.1
      cores := s.cores.update fun _ c => c.forget ns
      slots := s.slots.filter fun e => !gone e.2
      service := s.service.filter fun q => !gone q
      joining := s.joining.filter fun q => !gone q
      rung := s.rung.filter fun q => !gone q
      queueWrites := s.queueWrites.filter fun w => !gone w.queue
      heldQueues := s.heldQueues.filter fun q => !gone q.1
      portHolds := s.portHolds.filter fun p => !ns.contains p.ctx
      lastMapped := s.lastMapped.filter fun e => !mine e.1
      lastSlot := s.lastSlot.filter fun e => !mine e.1
      images := s.images.filter fun i => !ns.contains i.ctx
      boot := { s.boot with keys := s.boot.keys.filter fun n => !ns.contains n }
      pending := s.pending.map fun p =>
        if ns.contains p.ring then { p with ring := actor, record := { p.record with flags := p.record.flags ||| 16 } } else p }
  s1.shootDown (fun e => ns.contains e.ctx || e.chain.any fun x => ns.contains x.1)
    (fun e => ns.contains e.ctx || e.chain.any fun x => ns.contains x.1)

/-- The end of a whole-context revocation (16 R344 kind 7): frames scrubbed, moved resources and budget returned, numbers freed. -/
def State.endWhole (s : State) (n : Nat) (c : Context) (r : Revocation) : State :=
  let ns := s.subtree n
  let all := s.contexts.filter fun e => ns.contains e.1
  let valid := c.grants.filter fun e => e.2.getLsbD 0
  let frames := s.machineFrames c valid ++ r.scrub ++
    all.flatMap fun e => ((e.2.revocation.map fun x => x.scrub).getD [])
  let give (p : Context) : Context :=
    { p with
      gpCores := mergeRising p.gpCores (all.flatMap fun e => e.2.gpCores) 16
      ports := mergeRising p.ports (all.flatMap fun e => e.2.ports) 8
      namespaces := if r.actor = 0 then p.namespaces else p.namespaces ++ all.flatMap fun e => e.2.namespaces }
  let time := (all.map fun e => e.2.budget.time.toNat).sum
  let energy := (all.map fun e => e.2.budget.energy.toNat).sum
  let s1 := (s.scrubFrames frames).modifyContext r.actor give
  ((s1.removeContexts ns r.actor).returnUnits r.actor time energy).endRevocation n r.actor

/-- The resources of kinds 2 to 4 that a block names return to the parent (16 R344). -/
def State.returnMoved (s : State) (n : Nat) (r : Revocation) : State :=
  let x : ResourceBlock := { kind := r.kind, size := r.size, perm := 0, a := r.a, b := r.b }
  let ns := s.subtree n
  let held := s.contexts.flatMap fun e => if ns.contains e.1 then e.2.heldOf x else []
  let drop (c : Context) : Context :=
    if r.kind = 2 then { c with gpCores := c.gpCores.filter fun k => !held.contains k }
    else if r.kind = 3 then { c with ports := c.ports.filter fun k => !held.contains k }
    else { c with namespaces := c.namespaces.filter fun k => k != (r.a, r.b) }
  let give (p : Context) : Context :=
    if r.kind = 2 then { p with gpCores := mergeRising p.gpCores held 16 }
    else if r.kind = 3 then { p with ports := mergeRising p.ports held 8 }
    else if r.actor = 0 then p
    else { p with namespaces := p.namespaces ++ [(r.a, r.b)] }
  State.modifyContext { s with contexts := s.contexts.update fun m c => if ns.contains m then drop c else c } r.actor give

/-! ### Paging out (19 R391, R392) -/

/-- The contents of a frame by offset. -/
def State.frameBytes (s : State) (machine : Nat) : Cells 8 :=
  (s.mem.filter fun e => decide (machine ≤ e.1) && decide (e.1 < machine + 0x200000)).map fun e => (e.1 - machine, e.2)

/-- Writes the contents of a frame over a whole frame of machine memory. -/
def State.putFrame (s : State) (machine : Nat) (bytes : Cells 8) : State :=
  let s1 := s.scrubFrames [machine]
  { s1 with mem := bytes.foldl (fun (m : Cells 8) e => m.set (machine + e.1) e.2) s1.mem }

/-- The image of a context as it is paged out (19 R392). -/
def State.imageOf (s : State) (n : Nat) (c : Context) (r : Revocation) : Image where
  port := r.a
  namespaceId := r.b
  ctx := n
  contexts := s.contexts.filter fun e => (s.subtree n).contains e.1
  frames := (c.grants.filter fun e => e.2.getLsbD 0).filterMap fun e =>
    (s.machineOf c.parent ((e.2.extractLsb 47 21).toNat * 0x200000)).map fun m => (e.1, s.frameBytes m)

/-- The page-out (19 R391): the image is written under a fresh key, the frames are revoked and marked cold, and the core slots of the
save areas are released. -/
def State.pageOut (s : State) (n : Nat) (c : Context) (r : Revocation) : State :=
  let valid := c.grants.filter fun e => e.2.getLsbD 0
  let frames := s.machineFrames c valid
  let ns := s.subtree n
  let s1 : State :=
    { s with
      images := (s.images.filter fun i => i.ctx != n) ++ [s.imageOf n c r]
      boot := { s.boot with keys := (s.boot.keys.filter (· != n)) ++ [n] }
      contexts := s.contexts.update fun m x =>
        if m = n then
          { x with grants := [], coldFrames := valid.map fun e => e.1, cold := true, saved := none, image := some (r.a, r.b),
                   pullFailures := 0, revocation := none }
        else if ns.contains m then { x with saved := none } else x }
  (s1.invalidateFrames n 0 c.frames).scrubFrames frames

/-- A revocation's halts have ended (16 R344). -/
def State.haltsOver (s : State) (n : Nat) : Bool :=
  (s.subtree n).all fun m => ((s.context m).map fun c => c.halt.isNone).getD true

/-- REVOCATION_END (16 R344; 19 R391): the steps of a revocation are made, once its halts have ended and all that used what it took
has ended. Subject: `who` is the context. -/
def execRevocationEnd (s : State) : Result :=
  let n := s.subject.who
  match s.context n with
  | none => .next s
  | some c =>
    match c.revocation with
    | none => .next s
    | some r =>
      if !s.landedBelow r.serial then .next s
      else if r.kind = 0 then .next (((s.scrubFrames r.scrub).clearRevocation n).endRevocation n r.actor)
      else if !s.haltsOver n then .next s
      else if r.kind = 1 then
        let ns := s.subtree n
        let drop (m : Nat) (x : Context) : Context :=
          if ns.contains m then
            { x with cores := x.cores.filter fun k => !r.cores.contains k, freed := x.freed.filter fun e => !r.cores.contains e.2 }
          else x
        .next ((({ s with contexts := s.contexts.update drop }).clearRevocation n).endRevocation n r.actor)
      else if r.kind = 5 then .next ((s.clearRevocation n).endRevocation n r.actor)
      else if r.kind = 6 then .next ((s.pageOut n c r).endRevocation n r.actor)
      else if r.kind = 7 then .next (s.endWhole n c r)
      else .next (((s.returnMoved n r).clearRevocation n).endRevocation n r.actor)

/-! ### Cold contexts (19 R393, R394) -/

/-- A doorbell of a cold context reads its save areas back and resumes it, or leaves that to its parent's resumption (19 R393). Where
they do not fit in the grant region, or the image cannot be read, the restore is refused. -/
def State.warm (s : State) (n : Nat) (c : Context) : State :=
  let refused := s.postNotice n (s.plainNotice n .restoreShortfall)
  match s.images.find? fun i => i.ctx == n with
  | none => refused
  | some image =>
    let area := (image.contexts.map fun e => 0x1000000 * e.2.cores.length).sum
    if !s.boot.keys.contains n ∨ Config.grantRegionSize < s.regionUsed + area then refused
    else
      let saved (m : Nat) : Option Saved := (image.contexts.find m).bind fun x => x.saved
      let s1 : State := { s with contexts := s.contexts.update fun m x =>
        if m = n then { x with cold := false, saved := saved m }
        else if (image.contexts.find m).isSome then { x with saved := saved m } else x }
      if ((s.context c.parent).map fun p => p.state == .running).getD false then s1.resume n
      else s1.modifyContext n fun x => { x with resumeWithParent := true }

/-- A doorbell of a context rings: a cold context is restored first (19 R393). -/
def State.doorbell (s : State) (n : Nat) (c : Context) (queue : Nat) : State :=
  let s1 := if c.cold ∧ c.revocation.isNone ∧ !s.going n then s.warm n c else s
  s1.ring n queue

/-- A write reaches the context's doorbell page: one from the host through the function of the host link that exposes it, the physical
function for the root and a virtual function for a context to which it is assigned; any other at the page that its parent has granted
(13 R294; 21 R406). -/
def Context.pageReached (c : Context) (host : Bool) : Bool :=
  if host then c.depth == 0 || (c.function && c.doorbell.isSome) else c.doorbell.isSome

/-- DOORBELL (13 R294; 19 R393; 21 R406): a queue number is written to a context's doorbell page. Subject: `who` is the context, `what`
the number; with `flag` the write comes from the host. -/
def execDoorbell (s : State) : Result :=
  let n := s.subject.who
  match s.context n with
  | none => .next s
  | some c => .next (if c.pageReached s.subject.flag then s.doorbell n c s.subject.what else s)

/-- The address of the first access that waits for a pull. -/
def State.waitingAddress (s : State) (n : Nat) : DWord :=
  let mine (m : Nat) : Bool := m == n || s.below m n
  let hold (h : Option Hold) : Option DWord := (h.filter fun x => x.cause == .none).map fun x => x.addr
  let gangs := s.gangs.filterMap fun e => if mine e.2.ctx then (hold e.2.held).or (e.2.chain.bind fun c => c.notices.findSome? fun x => hold x.held) else none
  let commands := s.commands.filterMap fun c => if mine c.ctx then hold c.held else none
  let entries := s.cores.flatMap fun e => e.2.sideLog.filterMap fun x =>
    if mine x.ctx && x.cause == .none then x.faultAt else none
  ((gangs ++ commands ++ entries).head?).getD 0

/-- A pull fails (19 R394): the context stops with PAGE_UNREACHABLE, or at the fourth failure in a row is killed: it is revoked as kind
7, and a notice says so. -/
def State.pullFails (s : State) (n : Nat) (c : Context) : State :=
  let port := (c.image.map fun x => x.1).getD 0
  if 4 ≤ c.pullFailures + 1 then
    let s1 := (s.modifyContext n fun x => { x with pullFailures := x.pullFailures + 1 }).revokeWhole n
    s1.postNotice n (s1.plainNotice n .killed)
  else
    let r : StopRecord :=
      { timestamp := s.timestamp, source := 4 * 4096 + 0x120 + port, cause := .pageUnreachable, flags := 1, ctx := n,
        core := 0xFFFF, laneMask := 0, age := 0xFFFFFFFF, gang := 0xFF, code := 0, address := s.waitingAddress n, pc := 0,
        trapPc := 0, launch := 0 }
    (s.raiseLine n .pageUnreachable).modifyContext n fun x =>
      { x with
        pullFailures := x.pullFailures + 1
        halt := x.halt.map fun h => { h with records := h.records ++ [r] } }

/-- FRAME_PULL (19 R393, R394): a frame that its parent has granted again is read from the image into the granted frame, and its cold
bit falls. Subject: `who` is the context, `what` the frame; with `flag` the read fails or its digest does not match. Nothing is pulled
while the context is not running. -/
def execFramePull (s : State) : Result :=
  let n := s.subject.who
  let f := s.subject.what
  match s.context n with
  | none => .next s
  | some c =>
    let e := c.grants.get f
    if !c.coldFrames.contains f || !e.getLsbD 0 || !s.enginesRun n then .next s
    else
      let image := s.images.find? fun i => i.ctx == n
      let reachable := s.boot.keys.contains n && (c.image.any fun x => s.holdsNamespace c.parent x)
      match (if s.subject.flag || !reachable then none else image.bind fun i => i.frames.find f),
          s.machineOf c.parent ((e.extractLsb 47 21).toNat * 0x200000) with
      | some bytes, some m =>
        let s1 := (s.putFrame m bytes).modifyContext n fun x =>
          { x with coldFrames := x.coldFrames.filter (· != f), pullFailures := 0 }
        .next s1.retryAll
      | none, _ => .next (s.pullFails n c)
      | _, none => .next s

/-! ### Timers of the device (16 R331, R334; 19 R396, R421) -/

/-- RETRY_TIMER (16 R331): every 50 µs. -/
def execRetryTimer (s : State) : Result :=
  if s.clock < s.retryDue then .next s else .next (State.retryAll { s with retryDue := s.retryDue + 65000 })

/-- A record that waits is written where R334 now places it; it stays where that ring is full, or has older records to write. -/
def writePending : State → List Nat → List PendingRecord → State × List PendingRecord
  | s, _, [] => (s, [])
  | s, full, p :: rest =>
    let ring := ((s.ringFor p.ring false 6).map fun x => x.1).getD 0
    let r := if ring = p.ring then p.record else { p.record with flags := p.record.flags ||| 16 }
    let wait : State × List PendingRecord :=
      let (s1, left) := writePending s (ring :: full) rest
      (s1, p :: left)
    if full.contains ring then wait
    else
      match s.ringWrite ring r with
      | none => wait
      | some s1 => writePending s1 full rest

/-- PENDING_RECORD_WRITE (16 R334, 19 R421): records that wait for room are written in order, as far as the rings' heads have
moved. -/
def execPendingRecordWrite (s : State) : Result :=
  let (s1, left) := writePending { s with pending := [] } [] s.pending
  .next { s1 with pending := left }

/-- PATROL_SCRUB (19 R396): each sector of HBM that cannot be corrected is reported to the root's ring, and no context stops. -/
def execPatrolScrub (s : State) : Result :=
  .next (s.badSectors.foldl (fun acc a =>
    acc.postRecord 0
      { address := BitVec.ofNat 64 a, timestamp := s.timestamp, ctx := 0, cause := .memoryUncorrectable, flags := 0,
        core := 0xFFFF, gang := 0xFF, level := 0, age := 0xFFFFFFFF } .none) s)

/-! ### Markers and writes of outside parties (05 R136, R139) -/

/-- EPOCH_MARKER (05 R136): the oldest marker from one die to another arrives. Subject: `who` is the sender, `what` the receiver. -/
def execEpochMarker (s : State) : Result :=
  match s.markers.findIdx? fun m => m.src == s.subject.who && m.dst == s.subject.what with
  | none => .next s
  | some i =>
    match s.markers[i]? with
    | none => .next s
    | some m =>
      .next
        { s with
          markers := s.markers.eraseIdx i
          dies := replaceAt s.dies m.dst fun d => { d with applied := replaceAt d.applied m.src fun _ => m.epoch } }

/-- A write of an outside party to global memory, be it HBM, host memory or a peer device's (05 R125, R139; 16 R317), by its parts in
each sector: one that covers a whole sector replaces it, and one that covers part of a sector that cannot be corrected is not performed
(19 R396). A range that is not backed throughout is not written; grant arrays and save areas are no bytes of the model's memory (log
22). -/
def State.outsideWrite (s : State) (a : Nat) (data : List Byte) : State :=
  if !backedRange a data.length then s
  else
    let bad (x : Nat) : Bool := s.badSectors.contains (x / 32 * 32)
    let whole (x : Nat) : Bool := decide (a ≤ x / 32 * 32) && decide (x / 32 * 32 + 32 ≤ a + data.length)
    let written := (List.range data.length).filter fun i => !bad (a + i) || whole (a + i)
    { s with
      mem := written.foldl (fun (m : Cells 8) i => m.set (a + i) (data.getD i 0)) s.mem
      badSectors := s.badSectors.filter fun b => !(decide (a ≤ b) && decide (b + 32 ≤ a + data.length)) }

/-- HOST_LINK_WRITE (05 R139). Subject: `who` is the machine address, `data` the bytes. -/
def execHostLinkWrite (s : State) : Result := .next (s.outsideWrite s.subject.who s.subject.data)

/-- QUAY_LINK_WRITE (05 R139; 21 R406): a write comes in over one of the twelve quay links. Subject: `who` is the machine address, `what`
the link, `data` the bytes. -/
def execQuayLinkWrite (s : State) : Result :=
  .next (if s.subject.what < 12 then s.outsideWrite s.subject.who s.subject.data else s)

end Sys2Proof.Machine
end

