-- ==== Sys2Proof/Machine/Shake.lean ====
section
/-!
DEFINITION. SHAKE256 (FIPS 202), which extends the measurement registers (21 R401). The spec names the function; its steps are the
standard's (log 19).
-/
namespace Sys2Proof.Machine

/-- The 25 words of the state by place: column x and row y stand at x + 5y. -/
abbrev KeccakState := List (BitVec 64)

/-- The word at a column and a row, both taken modulo 5. -/
def KeccakState.at (a : KeccakState) (x y : Nat) : BitVec 64 := List.getD a (x % 5 + 5 * (y % 5)) 0

/-- A state told place by place. -/
def keccakOf (f : Nat → Nat → BitVec 64) : KeccakState := (List.range 25).map fun i => f (i % 5) (i / 5)

/-! The standard gives the rotations and the constants of the rounds by rules, and the model computes them. -/

/-- The walk of ρ over the places, from column 1 of row 0: each place with its rotation, the triangular number of its step. -/
def rhoWalk : Nat → Nat × Nat → Nat → List (Nat × Nat)
  | 0, _, _ => []
  | fuel + 1, (x, y), t => (x + 5 * y, (t + 1) * (t + 2) / 2 % 64) :: rhoWalk fuel (y, (2 * x + 3 * y) % 5) (t + 1)

/-- How far ρ rotates the word at a place; the word at column 0 of row 0 stays. -/
def rhoOffset (place : Nat) : Nat := (((rhoWalk 24 (1, 0) 0).find? fun e => e.1 == place).map fun e => e.2).getD 0

/-- One shift of the register that generates the constants, with its feedback x⁸ + x⁶ + x⁵ + x⁴ + 1. -/
def feedback (r : Nat) : Nat := if r < 128 then 2 * r else (2 * r) ^^^ 0x171

/-- The bits that the register gives from a start, one for each shift. -/
def feedbackBits : Nat → Nat → List Bool
  | 0, _ => []
  | fuel + 1, r => (r % 2 == 1) :: feedbackBits fuel (feedback r)

/-- The constant of a round from the seven bits it takes: bit j stands at 2^j - 1. -/
def iotaWord (bits : List Bool) : BitVec 64 :=
  (List.range 7).foldl (fun w j => if bits.getD j false then w ||| BitVec.twoPow 64 (2 ^ j - 1) else w) 0

/-- The constants of the 24 rounds. -/
def iotaWords : List (BitVec 64) :=
  let bits := feedbackBits 168 1
  (List.range 24).map fun i => iotaWord (bits.drop (7 * i))

/-- Each word takes the parities of the column before it and of the one after it, the latter rotated. -/
def mixColumns (a : KeccakState) : KeccakState :=
  let parity (x : Nat) : BitVec 64 := ((List.range 5).map (a.at x)).foldl (· ^^^ ·) 0
  let mixed := (List.range 5).map fun x => parity (x + 4) ^^^ (parity (x + 1)).rotateLeft 1
  keccakOf fun x y => a.at x y ^^^ mixed.getD x 0

/-- Each word goes, rotated, to its new place. -/
def scatterWords (a : KeccakState) : KeccakState :=
  keccakOf fun x y => (a.at (x + 3 * y) x).rotateLeft (rhoOffset ((x + 3 * y) % 5 + 5 * x))

/-- Each word is changed where the next of its row is 0 and the one after it 1. -/
def mixRows (a : KeccakState) : KeccakState := keccakOf fun x y => a.at x y ^^^ (~~~(a.at (x + 1) y) &&& a.at (x + 2) y)

/-- A round with its constant, which falls into the first word. -/
def keccakRound (a : KeccakState) (c : BitVec 64) : KeccakState :=
  (mixRows (scatterWords (mixColumns a))).mapIdx fun i w => if i = 0 then w ^^^ c else w

/-- The permutation of 24 rounds. -/
def keccakF (a : KeccakState) : KeccakState := iotaWords.foldl keccakRound a

/-- The lane that 8 bytes make, lowest first. -/
def laneOfBytes (b : List Byte) : BitVec 64 := BitVec.ofNat 64 (b.foldr (fun x n => x.toNat + 256 * n) 0)

/-- Takes in a block of 136 bytes. -/
def absorb (a : KeccakState) (block : List Byte) : KeccakState :=
  keccakF (a.mapIdx fun i x => if i < 17 then x ^^^ laneOfBytes ((block.drop (8 * i)).take 8) else x)

/-- Takes in blocks; `fuel` bounds their number. -/
def absorbAll : Nat → KeccakState → List Byte → KeccakState
  | 0, a, _ => a
  | fuel + 1, a, b => if b.isEmpty then a else absorbAll fuel (absorb a (b.take 136)) (b.drop 136)

/-- The message with its domain bits and padding, a multiple of 136 bytes. -/
def shakePad (m : List Byte) : List Byte :=
  let k := 136 - m.length % 136
  if k = 1 then m ++ [0x9F] else m ++ [0x1F] ++ List.replicate (k - 2) 0 ++ [0x80]

/-- SHAKE256 with an output of 64 bytes; a shorter output is its first bytes. -/
def shake256 (m : List Byte) : List Byte :=
  let p := shakePad m
  let a := absorbAll (p.length / 136) (List.replicate 25 0) p
  (List.range 64).map fun i => (a.getD (i / 8) 0 >>> (8 * (i % 8))).setWidth 8

end Sys2Proof.Machine
end

