-- ==== Sys2Proof/Machine/DeviceLife.lean ====
section
/-!
DEFINITION. Starting, attesting and managing the device, its sensors, and what the world outside does to it (21 R400-R407; 19
R395, R396).
-/
namespace Sys2Proof.Machine

/-! ### Reset and failed starts (21 R400, R403) -/

/-- The partitions and gantry that the fuses mark in a core (01 R10). -/
def Marks.core (m : Marks) (n : Nat) : Core :=
  { Core.fresh with
    disabledPartitions := (m.partitions.filter fun x => x.1 == n).map fun x => x.2
    gantryDisabled := m.gantries.contains n }

/-- The cores in which the fuses mark a partition or the gantry. -/
def Marks.partial (m : Marks) : Table Core :=
  ((List.range 192).filter fun n => (m.partitions.any fun x => x.1 == n) || m.gantries.contains n).map fun n => (n, m.core n)

/-- The device is reset and starts again. Kept are what fuses and flash hold and the bytes of memory; the clock, the measurement
registers, the keys, the contexts, the marks that root firmware made and the records that wait begin afresh (01 R10; 21 R400-R405; 19
R392, R421; log 2). -/
def State.restart (s : State) (failedStarts reason : Nat) : State :=
  let minimal := decide (3 ≤ failedStarts)
  let boot : Boot :=
    { Boot.fresh with
      phase := if minimal then .minimal else .fetching
      failedStarts := failedStarts, lastReason := reason, startCount := s.boot.startCount + 1,
      fused := s.boot.fused, signatureIndex := s.boot.signatureIndex, reports := s.boot.reports, corrected := s.boot.corrected,
      answer := s.boot.answer }
  let root := { Context.rootFresh with cores := Context.rootFresh.cores.filter fun n => !s.boot.fused.cores.contains n }
  { State.reset with
    mem := s.mem, boot := boot, disabledCores := s.boot.fused.cores, badSectors := s.badSectors, cores := s.boot.fused.partial
    contexts := [(0, root)], serial := s.serial, agenda := s.agenda }

/-- The start fails for a reason, and the device starts again (21 R403). -/
def State.failStart (s : State) (reason : Nat) : State := s.restart (s.boot.failedStarts + 1) reason

/-- DEVICE_RESET (21 R400, R403): the start begins, or minimal mode is entered. With `flag` a compute die fails its self-test, and the
start with it; in minimal mode no compute die is powered. -/
def execDeviceReset (s : State) : Result :=
  let s1 := s.restart s.boot.failedStarts s.boot.lastReason
  if s.subject.flag && s1.boot.phase != .minimal then .next (s1.failStart 6) else .next s1

/-! ### The image (21 R400, R401) -/

/-- A stage of the image: where its body lies, its length and its role. -/
structure StageEntry where
  offset : Nat
  length : Nat
  role : Nat
  deriving DecidableEq, Repr

/-- The stage table of an image (21 R400). -/
def stageTable (b : List Byte) (n : Nat) : List StageEntry :=
  (List.range n).map fun i =>
    { offset := fieldAt b (0x10 + 16 * i) 8, length := fieldAt b (0x18 + 16 * i) 4, role := fieldAt b (0x1C + 16 * i) 4 }

/-- Length of the image's header and stage table (21 R400). -/
def headerBytes (n : Nat) : Nat := 0x10 + 16 * n

/-- The image keeps R400. -/
def imageValid (b : List Byte) : Bool :=
  let n := fieldAt b 4 4
  let start := headerBytes n + 2500
  decide (fieldAt b 0 4 = 0x4E594D01) && decide (1 ≤ n) && decide (n ≤ 7) && decide (fieldAt b 8 8 = b.length) &&
  decide (b.length ≤ 0x10000000) && decide (start ≤ b.length) &&
  (stageTable b n).all fun x => decide (start ≤ x.offset) && decide (x.offset + x.length ≤ b.length) && decide (x.role ≤ 2)

/-- A measurement extends a register (21 R401). -/
def extendRegister (old data : List Byte) : List Byte := shake256 (old ++ shake256 data)

/-- The measurements of an image: register 0 by header and stage table, register j + 1 by the body of stage j (21 R401). -/
def measureImage (m : List (List Byte)) (b : List Byte) : List (List Byte) :=
  let n := fieldAt b 4 4
  let table := stageTable b n
  let first := replaceAt m 0 fun x => extendRegister x (b.take (headerBytes n))
  (List.range n).foldl (fun acc j =>
    match table[j]? with
    | none => acc
    | some e => replaceAt acc (j + 1) fun x => extendRegister x ((b.drop e.offset).take e.length)) first

/-- No image has come by the 120 s that a start waits (21 R403). -/
def State.imageLate (s : State) : Bool := s.boot.phase == .fetching && decide (clocksOf 120000000000 ≤ s.clock)

/-- The clocks by which the stages that have not reported ready must do so: 60 s from when each was started, and for one that has not been
from when the image was found good (21 R403, log 47). -/
def Boot.stagesDue (b : Boot) : List Nat :=
  b.awaited.flatMap fun j =>
    let began := (b.started.filter fun x => x.1 == j).map fun x => x.2
    (if began.isEmpty then [b.since] else began).map fun t => t + clocksOf 60000000000

/-- A stage has not reported ready within its 60 s (21 R403). -/
def State.stageLate (s : State) : Bool := s.boot.phase == .starting && s.boot.stagesDue.any fun t => decide (t ≤ s.clock)

/-- Root firmware begins on the harbour master: hart 0 stands at the body of the image's first stage with role 0, in M-mode (21 R400; log
47). -/
def State.startRoot (s : State) (image : Nat) (table : List StageEntry) : State :=
  match table.findIdx? fun x => x.role == 0 with
  | none => s
  | some j =>
    let at_ := image + ((table[j]?.map fun x => x.offset).getD 0)
    State.setHart { s with boot := { s.boot with started := [(j, s.clock)] } } 0 { Hart.fresh with pc := BitVec.ofNat 64 at_ }

/-- IMAGE_FETCHED (21 R400, R401, R403): the image is checked and measured, and root firmware is started. One that comes late is none.
Subject: `data` is the image, `what` the port on which it came, and `who` the machine address of HBM of die 0 to which the ROM fetched
it. -/
def execImageFetched (s : State) : Result :=
  let b := s.subject.data
  if s.boot.phase ≠ .fetching ∨ 8 ≤ s.subject.what ∨ 0x0040_0000_0000 < s.subject.who + b.length then .next s
  else if s.imageLate then .next (s.failStart 1)
  else
    let n := fieldAt b 4 4
    let s1 : State := { s with mem := writeBytes s.mem s.subject.who b }
    if !imageValid b then .next (s1.failStart 3)
    else if !Config.imageSigned (b.take (headerBytes n)) ((b.drop (headerBytes n)).take 2500) then .next (s1.failStart 2)
    else
      let table := stageTable b n
      .next
        (State.startRoot
          { s1 with
            boot :=
              { s1.boot with
                phase := .starting, since := s.clock, port := some s.subject.what, awaited := List.range n, stages := table.map fun x => x.role
                measurements := measureImage s1.boot.measurements b } }
          s.subject.who table)

/-- IMAGE_FETCH_TIMEOUT (21 R403): no image within 120 s. -/
def execImageFetchTimeout (s : State) : Result := .next (if s.imageLate then s.failStart 1 else s)

/-- STAGE_READY (21 R403): a stage that has been started reports ready; with the last one the count of failed starts becomes zero. A
report that comes late is none. Subject: `who` is the stage. -/
def execStageReady (s : State) : Result :=
  if s.boot.phase ≠ .starting ∨ !(s.boot.started.any fun x => x.1 == s.subject.who) then .next s
  else if s.stageLate then .next (s.failStart 4)
  else
    let left := s.boot.awaited.filter fun j => j != s.subject.who
    if left.isEmpty then
      .next { s with boot := { s.boot with awaited := [], phase := .running, failedStarts := 0 } }
    else .next { s with boot := { s.boot with awaited := left } }

/-- STAGE_READY_TIMEOUT (21 R403): a stage did not report ready within 60 s. -/
def execStageReadyTimeout (s : State) : Result := .next (if s.stageLate then s.failStart 4 else s)

/-- MINIMAL_MODE_RETRY (21 R403): the count becomes 2, and the device is reset. -/
def execMinimalModeRetry (s : State) : Result :=
  if s.boot.phase = .minimal then .next (s.restart 2 s.boot.lastReason) else .next s

/-! ### Measurement reports (21 R402) -/

/-- The bytes of a report before its signature. -/
def State.reportBytes (s : State) (nonce : List Byte) (index : Word) : List Byte :=
  bytesOf 16 Config.serialNumber.toNat ++ bytesOf 8 s.boot.startCount ++ s.boot.measurements.flatten ++ nonce ++ bytesOf 4 index.toNat

/-- MEASUREMENT_REPORT (21 R402): the next index is burned, and a signed report is released; when every index is spent, the report
carries none. Subject: `data` is the nonce of 32 bytes; with `flag` the device is reset while it signs, and the index is lost. -/
def execMeasurementReport (s : State) : Result :=
  let nonce := s.subject.data
  if nonce.length ≠ 32 then .next s
  else
    let left := decide (s.boot.signatureIndex < 2 ^ 20)
    let index : Word := if left then BitVec.ofNat 32 s.boot.signatureIndex else 0xFFFFFFFF
    let burned : Boot := { s.boot with signatureIndex := if left then s.boot.signatureIndex + 1 else s.boot.signatureIndex }
    if s.subject.flag then .next (State.restart { s with boot := burned } s.boot.failedStarts s.boot.lastReason)
    else
      let signature := if left then bytesOf 2820 (Config.reportSignature (s.reportBytes nonce index) s.boot.signatureIndex).toNat
        else List.replicate 2820 0
      let report : Report :=
        { serialNumber := bytesOf 16 Config.serialNumber.toNat, startCount := s.boot.startCount, registers := s.boot.measurements, nonce := nonce, index := index,
          signature := signature }
      .next { s with boot := { burned with reports := burned.reports ++ [report] } }

/-! ### Security sensors (21 R404) -/

/-- The strength of an action. -/
def SensorAction.strength (a : SensorAction) : Nat :=
  match a with
  | .log => 0
  | .halt => 1
  | .erase => 2

/-- The stronger of two actions. -/
def SensorAction.stronger (a b : SensorAction) : SensorAction := if a.strength ≤ b.strength then b else a

/-- SECURITY_SENSOR (21 R404): the sensors that act in one clock take the strongest of their actions once. Subject: bit i of `who`
stands for sensor i: tamper mesh, supply voltage, reference clock, die temperature. -/
def execSecuritySensor (s : State) : Result :=
  let acting := (List.range 4).filter fun i => s.subject.who / 2 ^ i % 2 == 1
  if acting.isEmpty then .next s
  else
    match acting.foldl (fun a i => a.stronger (s.boot.sensorActions.getD i .log)) SensorAction.log with
    | .log => .next (s.postRecord 0 { s.plainNotice 0 .none with flags := 0 } .none)
    | .halt => .next (s.failStart 5)
    | .erase => .next (State.failStart { s with boot := { s.boot with keys := [] } } 5)

/-- POWER_REMOVED (21 R404): nothing runs. -/
def execPowerRemoved (s : State) : Result := .next { s with powered := false }

/-! ### Management (21 R407) -/

/-- Storage kinds whose soft errors are counted: HBM, die cache, scratchpad, vector registers, accumulators, TLBs, CLBs (19 R395). -/
def storageKinds : Nat := 7

/-- The answer to a request: 0 the reason of the last failed start; 1 the marks of disabled cores, partitions and gantries; 2 sensor
readings, which the subject's data give, and actions; 3 corrected soft errors, by storage kind and die; 4 every context's time and energy
counters. The numbers and the form are the model's (DESIGN CHOICE, log 49: 21 R407 says what is reported, not how). -/
def State.managementAnswer (s : State) (request : Nat) : List Nat :=
  match request with
  | 0 => [s.boot.lastReason]
  | 1 =>
    s.disabledCores ++ s.cores.flatMap fun e =>
      (e.2.disabledPartitions.map fun p => 1000 + e.1 * 16 + p) ++ (if e.2.gantryDisabled then [10000 + e.1] else [])
  | 2 => (s.subject.data.map fun b => b.toNat) ++ s.boot.sensorActions.map SensorAction.strength
  | 3 => (List.range (5 * storageKinds)).map fun k => (s.boot.corrected.get k).toNat
  | _ => s.contexts.flatMap fun e => [e.1, e.2.budget.time.toNat, e.2.budget.energy.toNat]

/-- MANAGEMENT_REQUEST (21 R407). Subject: `what` is the request. -/
def execManagementRequest (s : State) : Result :=
  .next { s with boot := { s.boot with answer := s.managementAnswer s.subject.what } }

/-! ### The world outside -/

/-- A timer setting of the root firmware is in range (19 R379). -/
def timersValid (graceNs killNs : Nat) : Bool :=
  decide (50000 ≤ graceNs) && decide (graceNs ≤ 100000000) && decide (1000000 ≤ killNs) && decide (killNs ≤ 10000000000)

/-- The context holds a port, or a namespace behind a storage port (16 R315). -/
def State.holdsPort (s : State) (ctx port : Nat) : Bool :=
  match s.context ctx with
  | none => false
  | some c => if port < 8 then c.ports.contains port else ctx == 0 || c.namespaces.any fun x => x.1 + 8 == port

/-- A port stops its context: its DMA met a sector that cannot be corrected. The record's source is the port, or for a partial write the
memory controllers of the sector's home (19 R373, R396). -/
def State.stopPort (s : State) (port ctx addr : Nat) (partialAt : Option Nat) : State :=
  let r : StopRecord :=
    { timestamp := s.timestamp, source := (partialAt.map memorySource).getD (portSource port)
      cause := .memoryUncorrectable, flags := s.originFlag ctx, ctx := ctx, core := 0xFFFF, laneMask := 0, age := 0xFFFFFFFF, gang := 0xFF,
      code := 0, address := BitVec.ofNat 64 addr, pc := 0, trapPc := 0, launch := 0 }
  (s.raiseLine ctx .memoryUncorrectable).modifyContext ctx fun c =>
    { c with halt := c.halt.map fun h => { h with records := h.records ++ [r] } }

/-- The access of a port that is held for a context. -/
def State.portHeld (s : State) (port ctx : Nat) : Option PortHold :=
  s.portHolds.find? fun p => p.port == port && p.ctx == ctx

/-- The port holds no access for the context any more. -/
def State.freePort (s : State) (port ctx : Nat) : State :=
  { s with portHolds := s.portHolds.filter fun p => p.port != port || p.ctx != ctx }

/-- An access of a port's DMA through the context's translation (16 R325, R334, R341; 19 R396). One that faults is held with its command,
and recorded where it is not met again at a retry; a sector that cannot be corrected stops the context. -/
def State.portAccess (s0 : State) (port ctx va : Nat) (data : List Byte) (write : Bool) : State :=
  let old := (s0.portHeld port ctx).map fun p => p.hold
  let s := s0.freePort port ctx
  match s.translatePort port ctx va (if write then .store else .load) with
  | (.error f, s1) =>
    let p : PortHold := { port := port, ctx := ctx, va := va, data := data, write := write, hold := Hold.of f }
    let s2 : State := { s1 with portHolds := s1.portHolds ++ [p] }
    if sameHold old f then s2
    else
      s2.postFault f
        { address := f.addr, timestamp := s.timestamp, ctx := ctx, cause := f.cause, flags := 8, core := 0xFFFF, gang := 0xFF,
          level := f.level, age := 0xFFFFFFFF } (.port port ctx)
  | (.ok (.device ..), s1) => s1
  | (.ok (.mem a), s1) =>
    if (s1.badSector a data.length).isSome && (!write || data.length != 32) then
      s1.stopPort port ctx (va - va % 32) (if write then some a else none)
    else
      let s2 : State :=
        if write then
          { s1 with
            mem := writeBytes s1.mem a data
            badSectors := if data.length = 32 then s1.badSectors.filter fun b => b != a else s1.badSectors }
        else s1
      s2.draw ctx 0 ((40000 + memoryWeight s.serial none a) * data.length)

/-- A port's DMA reads or writes bytes of one sector for a context that holds the port and whose halt line is not raised; while an access
is held the port makes no further one for that context (16 R334; 19 R367; log 34). -/
def State.portDma (s : State) (port ctx va : Nat) (data : List Byte) (write : Bool) : State :=
  if 12 ≤ port ∨ !s.holdsPort ctx port ∨ !s.enginesRun ctx ∨ 2 ^ 48 ≤ va ∨ data.isEmpty ∨ 32 < va % 32 + data.length ∨
      (s.portHeld port ctx).isSome then s
  else s.portAccess port ctx va data write

/-- A held access of a port is to be retried: its retry is due, no record of it waits for room, and its context's halt line is not raised
(16 R331, R334; 19 R367). -/
def State.portRetries (s : State) (p : PortHold) : Bool :=
  p.hold.retry && s.enginesRun p.ctx && !(s.pending.any fun r => r.blocks == .port p.port p.ctx)

/-- The held accesses of ports that are due for it are retried. -/
def State.retryPorts (s : State) : State :=
  (s.portHolds.filter s.portRetries).foldl (fun acc p => acc.portAccess p.port p.ctx p.va p.data p.write) s

/-! ### Marks of disabled units (01 R10) -/

/-- Root firmware marks units only at start. -/
def State.marking (s : State) : Bool := s.boot.phase == .starting

/-- A core is marked: it has no logical number, so that the root holds it no more. -/
def State.markCore (s : State) (core : Nat) : State :=
  State.modifyContext { s with disabledCores := s.disabledCores ++ [core] } 0 fun c => { c with cores := c.cores.filter (· != core) }

/-- What the world outside does (01 R10; 19 R379, R388, R395, R396; 21 R400-R406). -/
def State.outside (s : State) (x : Outside) : State :=
  match x with
  | .corrected kind die =>
    let key := kind * 5 + die
    if storageKinds ≤ kind ∨ 5 ≤ die then s
    else { s with boot := { s.boot with corrected := s.boot.corrected.set key (s.boot.corrected.get key + 1) } }
  | .sector addr =>
    let a := addr / 32 * 32
    if 0x0100_0000_0000 ≤ a ∨ s.badSectors.contains a then s else { s with badSectors := s.badSectors ++ [a] }
  | .word ctx => if (s.context ctx).isSome then s.kill ctx .memoryUncorrectable else s
  | .bank ctx =>
    if s.cores.any fun e => (e.2.banks.find ctx).isSome && !e.2.residentBanks.contains ctx then s.kill ctx .killed else s
  | .selfTest => if s.boot.phase = .fetching ∨ s.boot.phase = .starting then s.failStart 6 else s
  | .coreFails core => if s.marking && decide (core < 192) && !s.disabledCores.contains core then s.markCore core else s
  | .partitionFails core p =>
    if s.marking && decide (core < 192) && decide (p < 16) && !(s.core core).disabledPartitions.contains p then
      s.setCore core { s.core core with disabledPartitions := (s.core core).disabledPartitions ++ [p] }
    else s
  | .gantryFails core =>
    if s.marking && decide (core < 192) then s.setCore core { s.core core with gantryDisabled := true } else s
  | .stage j =>
    if s.boot.phase = .starting ∧ j < s.boot.stages.length ∧ !(s.boot.started.any fun x => x.1 == j) then
      { s with boot := { s.boot with started := s.boot.started ++ [(j, s.clock)] } }
    else s
  | .function ctx assigned =>
    if ctx = 0 ∨ (assigned ∧ 63 ≤ (s.contexts.filter fun e => e.2.function).length) then s
    else s.modifyContext ctx fun c => { c with function := assigned }
  | .timers graceNs killNs => if timersValid graceNs killNs then { s with graceNs := graceNs, killNs := killNs } else s
  | .sensorAction i a =>
    { s with boot := { s.boot with sensorActions := replaceAt s.boot.sensorActions i fun old => old.stronger a } }
  | .dma port ctx va data write => s.portDma port ctx va data write
  | .hart n h =>
    let old := s.hartAt n
    if 16 ≤ n ∨ old.fencing.isSome then s
    else s.setHart n { h with unfenced := old.unfenced, fencing := none, x := Cells.set h.x 0 0 }

end Sys2Proof.Machine
end

