-- ==== Sys2Proof/Machine/Handles.lean ====
section
/-!
DEFINITION. Handle registers, range and class counters, the fences built on them, and yielding on a counter (04 R95-R97,
R112-R120).
-/
namespace Sys2Proof.Machine

/-! ### Handles (04 R95-R97) -/

/-- A field of a handle is zero. -/
def handleZero (h : BitVec 128) (hi lo : Nat) : Bool := h.extractLsb hi lo = 0

/-- The value keeps the layout of its kind (04 R95, R97). -/
def handleValid (h : BitVec 128) : Bool :=
  match handleKind h with
  | 0 => h = 0
  | 1 => handleZero h 123 109 && handleZero h 107 96 && handleLength h != 0 &&
      decide (handleBase h + handleLength h ≤ 2 ^ 48)
  | 2 => handleZero h 123 109 && handlePitch h != 0 && formatWidth (handleFormat h) != 0 &&
      !(formatWidth (handleFormat h) == 4 && handleColumns h % 2 == 1) &&
      (match handleExtent h with
        | none => false
        | some e => decide (e.hi < 2 ^ 48))
  | 3 => handleZero h 123 48
  | _ => false

/-- `hmk` (04 R97). -/
def execHmk (k : BitVec 4) (a : BitVec 7) (s : State) : Result :=
  gate s (fun _ => { s := [a.toNat, a.toNat + 1, a.toNat + 2, a.toNat + 3], fours := [a.toNat] }) fun g =>
    match s.crews.find g.crew with
    | none => .fault .noIssuer
    | some crew =>
      let h : BitVec 128 := g.spair (a.toNat + 2) ++ g.spair a.toNat
      if !handleValid h then s.trap g .illegalFormat
      else
        match handleExtent h with
        | some e =>
          if e.pad && decide (crew.padSize ≤ e.hi) then s.trap g .scratchpadRange else s.finish (g.setK k.toNat h)
        | none => s.finish (g.setK k.toNat h)

/-- `hmk.get` (04 R97). -/
def execHmkGet (d : BitVec 7) (k : BitVec 4) (s : State) : Result :=
  gate s (fun _ => { s := [d.toNat, d.toNat + 1, d.toNat + 2, d.toNat + 3], fours := [d.toNat] }) fun g =>
    let h := g.kreg k.toNat
    s.finish ((g.setSpair d.toNat (h.setWidth 64)).setSpair (d.toNat + 2) ((h >>> 64).setWidth 64))

/-! ### Waiting on counters (04 R114-R117) -/

/-- `rcb`: waits until the counter reads zero, then takes a copy of the handle; the empty handle unbinds (04 R114). -/
def execRcb (k : BitVec 4) (n : BitVec 3) (s : State) : Result :=
  gate s (fun _ => {}) fun g =>
    if g.rangeCount n.toNat ≠ 0 then s.waiting
    else s.finish { g with rc := replaceAt g.rc n.toNat fun _ => { count := 0, binding := g.kreg k.toNat, seen := noEpochs } }

/-- `rcw`: waits until the counter reads n or less; its end observes completion (04 R115, 05 R129). -/
def execRcw (a : BitVec 7) (n : BitVec 3) (s : State) : Result :=
  gate s (fun _ => {}) fun g =>
    if a.toNat < g.rangeCount n.toNat then s.waiting else s.finish (g.merge (g.observed n.toNat))

/-- `ccw`: waits until the class counter reads n or less; its end observes completion (04 R117, 05 R129). -/
def execCcw (a : BitVec 7) (c : BitVec 3) (s : State) : Result :=
  gate s (fun _ => {}) fun g =>
    if a.toNat < s.classCounter s.gang g c.toNat then s.waiting else s.finish (g.merge (g.observed (8 + c.toNat)))

/-! ### Fences (04 R118, R119; 05 R129, R135, R140) -/

/-- The gang goes on as a release, and where asked as an acquire too. -/
def State.releaseOn (s : State) (g : Gang) (acquire : Bool) : Result :=
  let s1 := s.release (coreOf s.gang)
  let g1 := g.released s1 (coreOf s.gang)
  s1.finish (if acquire then g1.acquire else g1)

/-- A release fence: the gang issues nothing further until every earlier access and engine command of it has performed (04 R118). -/
def releaseFence (s : State) (scope : Nat) (acquire : Bool) : Result :=
  gate s (fun _ => { scope := some scope }) fun g =>
    if s.performedAll s.gang g then s.releaseOn g acquire else s.waitAlone g

/-- `fence.acq`: what the gang's loads return is read at their issue, so it passes (04 R118; log 8). -/
def execFenceAcq (c : BitVec 3) (s : State) : Result :=
  gate s (fun _ => { scope := some c.toNat }) fun g => s.finish g.acquire

/-- `fence.rel` (04 R118). -/
def execFenceRel (c : BitVec 3) (s : State) : Result := releaseFence s c.toNat false

/-- `fence.acqrel` (04 R118). -/
def execFenceAcqrel (c : BitVec 3) (s : State) : Result := releaseFence s c.toNat true

/-- `fence.sc`: both, at its place in the order in which such fences complete (04 R118, 05 R140). -/
def execFenceSc (c : BitVec 3) (s : State) : Result := releaseFence s c.toNat true

/-- The bound counters that a `fencer` names (04 R119). -/
def Gang.named (g : Gang) (k : Bool) (m : BitVec 7) : List RangeCounter :=
  (List.range 8).filterMap fun i =>
    if (if i = 7 then k else m.getLsbD i) then
      match g.rc[i]? with
      | none => none
      | some c => if c.binding = 0 then none else some c
    else none

/-- `fencer.rel`, with the acquire where asked: the gang issues nothing until the items of the named bound counters have performed; with
none it orders nothing (04 R119). -/
def counterFence (s : State) (k : Bool) (m : BitVec 7) (scope : Nat) (acquire : Bool) : Result :=
  gate s (fun _ => { scope := some scope }) fun g =>
    let cs := g.named k m
    if cs.isEmpty then s.finish g
    else if cs.all fun c => c.count == 0 then s.releaseOn g acquire else s.waitAlone g

/-- `fencer.acq` (04 R119). -/
def execFencerAcq (k : Bool) (m : BitVec 7) (c : BitVec 3) (s : State) : Result :=
  gate s (fun _ => { scope := some c.toNat }) fun g =>
    if (g.named k m).isEmpty then s.finish g else s.finish g.acquire

/-- `fencer.rel` (04 R119). -/
def execFencerRel (k : Bool) (m : BitVec 7) (c : BitVec 3) (s : State) : Result := counterFence s k m c.toNat false

/-- `fencer.acqrel` (04 R119). -/
def execFencerAcqrel (k : Bool) (m : BitVec 7) (c : BitVec 3) (s : State) : Result := counterFence s k m c.toNat true

/-! ### Yielding (04 R120) -/

/-- `cyield`: the issuing slices yield until the counter reads zero. -/
def execCyield (a : BitVec 7) (c : BitVec 4) (s : State) : Result :=
  gate s (fun _ => { s := [a.toNat, a.toNat + 1], even := [a.toNat] }) fun g =>
    let target := g.spair a.toNat
    if target.toNat % 4 ≠ 0 then s.trap g .misaligned
    else .next (s.proceed g 1 fun _ sl => { sl with yielded := some { counter := c.toNat, target := target } })

/-- A slice of the group has yielded, and the counter it waits on reads zero. -/
def State.yieldOver (s : State) (key : Nat) (g : Gang) (group : Nat) (sl : Slice) : Bool :=
  sl.status == .running && sl.group == group &&
  match sl.yielded with
  | none => false
  | some y => s.counter key g y.counter == 0

/-- A slice that had yielded continues at its target, arriving where its refill step ends (`stop`). -/
def Slice.resumeYield (stop : Option DWord) (sl : Slice) : Slice :=
  match sl.yielded with
  | none => sl
  | some y =>
    let sl' := { sl with yielded := none, pc := y.target }
    match stop with
    | none => sl'
    | some a => Slice.arrive a 9 sl'

/-- The slices of a group that had yielded continue, and the group splits by their program counters (04 R120, 11 R248). -/
def Gang.resumeYields (g : Gang) (stop : Option DWord) (ends : Slice → Bool) : Gang :=
  let indices := (List.range g.slices.length).filter fun j =>
    match g.slices[j]? with
    | none => false
    | some sl => ends sl
  let g1 : Gang := { g with slices := g.slices.map fun sl => if ends sl then sl.resumeYield stop else sl }
  (g1.regroup indices).releaseParked stop

/-- CYIELD_RESUME (04 R120). Subject: `who` is the gang, `what` the group. It comes about when the counter reads zero while the
gang may run; it observes the completion of what the counter counted (05 R129). -/
def execCyieldResume (s : State) : Result :=
  let key := s.subject.who
  match s.gangs.find key with
  | none => .next s
  | some g =>
    let runs := g.stop.isNone && match s.context g.ctx with
      | none => false
      | some c => c.mayIssue
    match g.slices.find? (s.yieldOver key g s.subject.what) with
    | none => .next s
    | some sl =>
      if runs then
        let counter := (sl.yielded.map fun y => y.counter).getD 0
        .next (s.setGang key ((g.merge (g.observed counter)).resumeYields (s.stepEnd g)
          (s.yieldOver key g s.subject.what)))
      else .next s

end Sys2Proof.Machine
end

