-- ==== Sys2Proof/Machine/Integer.lean ====
section
/-!
DEFINITION. Integer arithmetic, logic, shifts, fields, immediates, comparison, moves and predicate operations (07
R168-R182).
-/
namespace Sys2Proof.Machine

/-- a + b (07 R170). -/
def execIadd (sc : Bool) (d a b : BitVec 7) (s : State) : Result :=
  ternary s sc d.toNat a.toNat b.toNat fun _ x y => x + y

/-- a − b (07 R170). -/
def execIsub (sc : Bool) (d a b : BitVec 7) (s : State) : Result :=
  ternary s sc d.toNat a.toNat b.toNat fun _ x y => x - y

/-- Low word of the product (07 R170). -/
def execImul (sc : Bool) (d a b : BitVec 7) (s : State) : Result :=
  ternary s sc d.toNat a.toNat b.toNat fun _ x y => x * y

/-- High word of the signed product (07 R170). -/
def execImulhi (sc : Bool) (d a b : BitVec 7) (s : State) : Result :=
  ternary s sc d.toNat a.toNat b.toNat fun _ x y => mulHighSigned x y

/-- High word of the unsigned product (07 R170). -/
def execImulhu (sc : Bool) (d a b : BitVec 7) (s : State) : Result :=
  ternary s sc d.toNat a.toNat b.toNat fun _ x y => mulHighUnsigned x y

/-- d + a × b (07 R170). -/
def execImad (sc : Bool) (d a b : BitVec 7) (s : State) : Result :=
  ternary s sc d.toNat a.toNat b.toNat fun d x y => d + x * y

/-- Signed quotient (07 R171). -/
def execIquo (sc : Bool) (d a b : BitVec 7) (s : State) : Result :=
  ternary s sc d.toNat a.toNat b.toNat fun _ x y => quotientSigned x y

/-- Unsigned quotient (07 R171). -/
def execIquoU (sc : Bool) (d a b : BitVec 7) (s : State) : Result :=
  ternary s sc d.toNat a.toNat b.toNat fun _ x y => quotientUnsigned x y

/-- Signed remainder (07 R171). -/
def execIrem (sc : Bool) (d a b : BitVec 7) (s : State) : Result :=
  ternary s sc d.toNat a.toNat b.toNat fun _ x y => remainderSigned x y

/-- Unsigned remainder (07 R171). -/
def execIremU (sc : Bool) (d a b : BitVec 7) (s : State) : Result :=
  ternary s sc d.toNat a.toNat b.toNat fun _ x y => remainderUnsigned x y

/-- Signed minimum (07 R170). -/
def execImin (sc : Bool) (d a b : BitVec 7) (s : State) : Result :=
  ternary s sc d.toNat a.toNat b.toNat fun _ x y => minSigned x y

/-- Unsigned minimum (07 R170). -/
def execIminU (sc : Bool) (d a b : BitVec 7) (s : State) : Result :=
  ternary s sc d.toNat a.toNat b.toNat fun _ x y => minUnsigned x y

/-- Signed maximum (07 R170). -/
def execImax (sc : Bool) (d a b : BitVec 7) (s : State) : Result :=
  ternary s sc d.toNat a.toNat b.toNat fun _ x y => maxSigned x y

/-- Unsigned maximum (07 R170). -/
def execImaxU (sc : Bool) (d a b : BitVec 7) (s : State) : Result :=
  ternary s sc d.toNat a.toNat b.toNat fun _ x y => maxUnsigned x y

/-- Absolute value modulo 2³² (07 R170). -/
def execIabs (sc : Bool) (d a : BitVec 7) (s : State) : Result :=
  unary s sc d.toNat a.toNat fun x => if x.msb then -x else x

/-- 0 − a (07 R170). -/
def execIneg (sc : Bool) (d a : BitVec 7) (s : State) : Result :=
  unary s sc d.toNat a.toNat fun x => -x

/-- a and b (07 R173). -/
def execAnd (sc : Bool) (d a b : BitVec 7) (s : State) : Result :=
  ternary s sc d.toNat a.toNat b.toNat fun _ x y => x &&& y

/-- a and not b (07 R173). -/
def execAndn (sc : Bool) (d a b : BitVec 7) (s : State) : Result :=
  ternary s sc d.toNat a.toNat b.toNat fun _ x y => x &&& ~~~y

/-- a or b (07 R173). -/
def execOr (sc : Bool) (d a b : BitVec 7) (s : State) : Result :=
  ternary s sc d.toNat a.toNat b.toNat fun _ x y => x ||| y

/-- a or not b (07 R173). -/
def execOrn (sc : Bool) (d a b : BitVec 7) (s : State) : Result :=
  ternary s sc d.toNat a.toNat b.toNat fun _ x y => x ||| ~~~y

/-- a xor b (07 R173). -/
def execXor (sc : Bool) (d a b : BitVec 7) (s : State) : Result :=
  ternary s sc d.toNat a.toNat b.toNat fun _ x y => x ^^^ y

/-- not (a xor b) (07 R173). -/
def execXnor (sc : Bool) (d a b : BitVec 7) (s : State) : Result :=
  ternary s sc d.toNat a.toNat b.toNat fun _ x y => ~~~(x ^^^ y)

/-- not a (07 R173). -/
def execNot (sc : Bool) (d a : BitVec 7) (s : State) : Result :=
  unary s sc d.toNat a.toNat fun x => ~~~x

/-- Left shift (07 R174). -/
def execShl (sc : Bool) (d a b : BitVec 7) (s : State) : Result :=
  ternary s sc d.toNat a.toNat b.toNat fun _ x y => shiftLeft x y

/-- Logical right shift (07 R174). -/
def execShr (sc : Bool) (d a b : BitVec 7) (s : State) : Result :=
  ternary s sc d.toNat a.toNat b.toNat fun _ x y => shiftRight x y

/-- Arithmetic right shift (07 R174). -/
def execSar (sc : Bool) (d a b : BitVec 7) (s : State) : Result :=
  ternary s sc d.toNat a.toNat b.toNat fun _ x y => shiftArith x y

/-- Rotate left (07 R174). -/
def execRol (sc : Bool) (d a b : BitVec 7) (s : State) : Result :=
  ternary s sc d.toNat a.toNat b.toNat fun _ x y => rotateLeft x y

/-- Number of one bits (07 R175). -/
def execPopc (sc : Bool) (d a : BitVec 7) (s : State) : Result :=
  unary s sc d.toNat a.toNat fun x => BitVec.ofNat 32 (countOnes x 32)

/-- Number of leading zero bits (07 R175). -/
def execClz (sc : Bool) (d a : BitVec 7) (s : State) : Result :=
  unary s sc d.toNat a.toNat fun x => BitVec.ofNat 32 (leadingZeros x 32)

/-- Number of trailing zero bits (07 R175). -/
def execCtz (sc : Bool) (d a : BitVec 7) (s : State) : Result :=
  unary s sc d.toNat a.toNat fun x => BitVec.ofNat 32 (trailingZeros x 32)

/-- Bit order reversed (07 R175). -/
def execBrev (sc : Bool) (d a : BitVec 7) (s : State) : Result :=
  unary s sc d.toNat a.toNat reverseBits

/-- Unsigned field (07 R176). -/
def execBfe (sc : Bool) (d a b : BitVec 7) (s : State) : Result :=
  ternary s sc d.toNat a.toNat b.toNat fun _ x y => extractField x y

/-- Sign-extended field (07 R176). -/
def execBfeS (sc : Bool) (d a b : BitVec 7) (s : State) : Result :=
  ternary s sc d.toNat a.toNat b.toNat fun _ x y => extractFieldSigned x y

/-- Field of a inserted into d (07 R176). -/
def execBfi (sc : Bool) (d a b : BitVec 7) (s : State) : Result :=
  ternary s sc d.toNat a.toNat b.toNat insertField

/-- `sel`: the guard chooses between va and vb in every enabled lane (07 R178). -/
def execSel (d a b : BitVec 7) (s : State) : Result :=
  gate s (fun _ => { v := [d.toNat, a.toNat, b.toNat] }) fun g =>
    s.finish (g.setV d.toNat (g.enabled s.group) fun l =>
      if g.guard l then g.vreg a.toNat l else g.vreg b.toNat l)

/-- Predicate: a = b (07 R179). -/
def execIcmpEq (sc : Bool) (d : BitVec 4) (a b : BitVec 7) (s : State) : Result :=
  comparison s sc d.toNat a.toNat b.toNat fun x y => x == y

/-- Predicate: a ≠ b (07 R179). -/
def execIcmpNe (sc : Bool) (d : BitVec 4) (a b : BitVec 7) (s : State) : Result :=
  comparison s sc d.toNat a.toNat b.toNat fun x y => x != y

/-- Predicate: a < b, signed (07 R179). -/
def execIcmpLt (sc : Bool) (d : BitVec 4) (a b : BitVec 7) (s : State) : Result :=
  comparison s sc d.toNat a.toNat b.toNat fun x y => x.slt y

/-- Predicate: a ≤ b, signed (07 R179). -/
def execIcmpLe (sc : Bool) (d : BitVec 4) (a b : BitVec 7) (s : State) : Result :=
  comparison s sc d.toNat a.toNat b.toNat fun x y => x.sle y

/-- Predicate: a < b, unsigned (07 R179). -/
def execIcmpLtu (sc : Bool) (d : BitVec 4) (a b : BitVec 7) (s : State) : Result :=
  comparison s sc d.toNat a.toNat b.toNat fun x y => x.ult y

/-- Predicate: a ≤ b, unsigned (07 R179). -/
def execIcmpLeu (sc : Bool) (d : BitVec 4) (a b : BitVec 7) (s : State) : Result :=
  comparison s sc d.toNat a.toNat b.toNat fun x y => x.ule y

/-- Predicate: (a and b) ≠ 0 (07 R179). -/
def execIcmpTst (sc : Bool) (d : BitVec 4) (a b : BitVec 7) (s : State) : Result :=
  comparison s sc d.toNat a.toNat b.toNat fun x y => (x &&& y) != 0

/-- Predicate: (a and b) = 0 (07 R179). -/
def execIcmpTstz (sc : Bool) (d : BitVec 4) (a b : BitVec 7) (s : State) : Result :=
  comparison s sc d.toNat a.toNat b.toNat fun x y => (x &&& y) == 0

/-- Sum of pairs modulo 2⁶⁴ (07 R172). -/
def execAdd64 (sc : Bool) (d a b : BitVec 7) (s : State) : Result :=
  pairBinary s sc d.toNat a.toNat b.toNat fun x y => x + y

/-- Difference of pairs modulo 2⁶⁴ (07 R172). -/
def execSub64 (sc : Bool) (d a b : BitVec 7) (s : State) : Result :=
  pairBinary s sc d.toNat a.toNat b.toNat fun x y => x - y

/-- Signed product, exact in a pair (07 R172). -/
def execMul64 (sc : Bool) (d a b : BitVec 7) (s : State) : Result :=
  widening s sc d.toNat a.toNat b.toNat fun x y => BitVec.ofInt 64 (x.toInt * y.toInt)

/-- Unsigned product, exact in a pair (07 R172). -/
def execMul64U (sc : Bool) (d a b : BitVec 7) (s : State) : Result :=
  widening s sc d.toNat a.toNat b.toNat fun x y => BitVec.ofNat 64 (x.toNat * y.toNat)

/-- a + (zext(b) << n) on a pair (07 R172). -/
def execLea (sc : Bool) (d a b : BitVec 7) (n : BitVec 3) (s : State) : Result :=
  pairIndexed s sc d.toNat a.toNat b.toNat fun x y => leaSum x y n.toNat

/-- a + sext(imm) (07 R177). -/
def execAddi (sc : Bool) (d a : BitVec 7) (i : BitVec 10) (s : State) : Result :=
  unary s sc d.toNat a.toNat fun x => x + i.signExtend 32

/-- a and zext(imm) (07 R177). -/
def execAndi (sc : Bool) (d a : BitVec 7) (i : BitVec 10) (s : State) : Result :=
  unary s sc d.toNat a.toNat fun x => x &&& i.setWidth 32

/-- a or zext(imm) (07 R177). -/
def execOri (sc : Bool) (d a : BitVec 7) (i : BitVec 10) (s : State) : Result :=
  unary s sc d.toNat a.toNat fun x => x ||| i.setWidth 32

/-- a xor zext(imm) (07 R177). -/
def execXori (sc : Bool) (d a : BitVec 7) (i : BitVec 10) (s : State) : Result :=
  unary s sc d.toNat a.toNat fun x => x ^^^ i.setWidth 32

/-- Left shift by an immediate amount (07 R174, R177). -/
def execShli (sc : Bool) (d a : BitVec 7) (n : BitVec 5) (s : State) : Result :=
  unary s sc d.toNat a.toNat fun x => shiftLeft x (n.setWidth 32)

/-- Logical right shift by an immediate amount (07 R174, R177). -/
def execShri (sc : Bool) (d a : BitVec 7) (n : BitVec 5) (s : State) : Result :=
  unary s sc d.toNat a.toNat fun x => shiftRight x (n.setWidth 32)

/-- Arithmetic right shift by an immediate amount (07 R174, R177). -/
def execSari (sc : Bool) (d a : BitVec 7) (n : BitVec 5) (s : State) : Result :=
  unary s sc d.toNat a.toNat fun x => shiftArith x (n.setWidth 32)

/-- Rotate left by an immediate amount (07 R174, R177). -/
def execRoli (sc : Bool) (d a : BitVec 7) (n : BitVec 5) (s : State) : Result :=
  unary s sc d.toNat a.toNat fun x => rotateLeft x (n.setWidth 32)

/-- d := sext(imm) (07 R177). -/
def execMovi (sc : Bool) (d : BitVec 7) (i : BitVec 17) (s : State) : Result :=
  unary s sc d.toNat d.toNat fun _ => i.signExtend 32

/-- d[31:15] := imm (07 R177). -/
def execMovhi (sc : Bool) (d : BitVec 7) (i : BitVec 17) (s : State) : Result :=
  unary s sc d.toNat d.toNat fun x => i ++ x.extractLsb' 0 15

/-- Copy within a class (07 R180). -/
def execMov (sc : Bool) (d a : BitVec 7) (s : State) : Result := unary s sc d.toNat a.toNat fun x => x

/-- A scalar into a v register in every active lane (07 R180). -/
def execBcast (d a : BitVec 7) (s : State) : Result :=
  gate s (fun _ => { v := [d.toNat], s := [a.toNat] }) fun g =>
    s.finish (g.setV d.toNat (g.active s.group) fun _ => g.sreg a.toNat)

/-- One lane of a v register into a scalar, whatever guard and mask (07 R180). -/
def execRdlane (d a b : BitVec 7) (s : State) : Result :=
  gate s (fun _ => { v := [a.toNat], s := [d.toNat, b.toNat] }) fun g =>
    s.finish (g.setS d.toNat (g.vreg a.toNat ((g.sreg b.toNat).toNat % g.width)))

/-- A scalar into one lane of a v register, whatever guard and mask (07 R180). -/
def execWrlane (d a b : BitVec 7) (s : State) : Result :=
  gate s (fun _ => { v := [d.toNat], s := [a.toNat, b.toNat] }) fun g =>
    s.finish (g.setV d.toNat [(g.sreg b.toNat).toNat % g.width] fun _ => g.sreg a.toNat)

/-- Each active lane: pa and pb (07 R181). -/
def execPand (d a b : BitVec 4) (s : State) : Result :=
  predicateOp s d.toNat a.toNat b.toNat fun x y => x && y

/-- Each active lane: pa or pb (07 R181). -/
def execPor (d a b : BitVec 4) (s : State) : Result :=
  predicateOp s d.toNat a.toNat b.toNat fun x y => x || y

/-- Each active lane: pa xor pb (07 R181). -/
def execPxor (d a b : BitVec 4) (s : State) : Result :=
  predicateOp s d.toNat a.toNat b.toNat fun x y => x != y

/-- Each active lane: not pa (07 R181). -/
def execPnot (d a : BitVec 4) (s : State) : Result := predicateOp s d.toNat a.toNat a.toNat fun x _ => !x

/-- 1 if pa is true in any active lane (07 R181). -/
def execPtest (d : BitVec 7) (a : BitVec 4) (s : State) : Result :=
  predicateRead s d.toNat a.toNat fun lanes => if lanes.isEmpty then 0 else 1

/-- The number of active lanes with pa true (07 R181). -/
def execPcnt (d : BitVec 7) (a : BitVec 4) (s : State) : Result :=
  predicateRead s d.toNat a.toNat fun lanes => BitVec.ofNat 32 lanes.length

/-- The lowest active lane with pa true, or all ones (07 R181). -/
def execPfirst (d : BitVec 7) (a : BitVec 4) (s : State) : Result :=
  predicateRead s d.toNat a.toNat fun lanes =>
    match lanes with
    | [] => 0xFFFFFFFF
    | l :: _ => BitVec.ofNat 32 l

/-- The active lanes with pa true as a 64-bit mask (07 R181). -/
def execPbits (d : BitVec 7) (a : BitVec 4) (s : State) : Result :=
  gate s (fun _ => { s := [d.toNat, d.toNat + 1], even := [d.toNat] }) fun g =>
    s.finish (g.setSpair d.toNat (maskOf ((g.active s.group).filter fun l => g.preg a.toNat l)))

/-- Each active lane: bit l of an s pair into pd (07 R182). -/
def execPset (d : BitVec 4) (a : BitVec 7) (s : State) : Result :=
  gate s (fun _ => { s := [a.toNat, a.toNat + 1], even := [a.toNat] }) fun g =>
    s.finish (g.setP d.toNat (g.active s.group) fun l => (g.spair a.toNat).getLsbD l)

/-- Signed saturating sum (07 R170). -/
def execIadds (sc : Bool) (d a b : BitVec 7) (s : State) : Result :=
  ternary s sc d.toNat a.toNat b.toNat fun _ x y => saturateSigned (x.toInt + y.toInt)

/-- Unsigned saturating sum (07 R170). -/
def execIaddus (sc : Bool) (d a b : BitVec 7) (s : State) : Result :=
  ternary s sc d.toNat a.toNat b.toNat fun _ x y => saturateUnsigned ((x.toNat : Int) + y.toNat)

/-- Signed saturating difference (07 R170). -/
def execIsubs (sc : Bool) (d a b : BitVec 7) (s : State) : Result :=
  ternary s sc d.toNat a.toNat b.toNat fun _ x y => saturateSigned (x.toInt - y.toInt)

/-- Unsigned saturating difference (07 R170). -/
def execIsubus (sc : Bool) (d a b : BitVec 7) (s : State) : Result :=
  ternary s sc d.toNat a.toNat b.toNat fun _ x y => saturateUnsigned ((x.toNat : Int) - y.toNat)

end Sys2Proof.Machine
end

