-- ==== Sys2Proof/WellFormed.lean ====
section
/-!
DEFINITION. Well-formed instructions: no field holds a value that the spec reserves (02 R38, R42, R44, R45, R46).
An ill-formed term stands for no word that executes: its word raises ILLEGAL_INSTRUCTION (02 R53).
-/
namespace Sys2Proof

/-- The arrival of an engine command: with no arrival requested the counter field is zero (04 R102). -/
def arrivalWf (e : Bool) (n : BitVec 4) : Bool := e || n == 0

/-- The access size is b8 to b128; codes 5 to 7 are reserved (02 R38). -/
def sizeWf (z : BitVec 3) : Bool := decide (z.toNat ≤ 4)

/-- The hint is normal, streaming or keep; 3 is reserved (02 R38). -/
def hintWf (h : BitVec 2) : Bool := decide (h.toNat ≤ 2)

/-- The scope is gang to system; 7 is reserved (02 R38). -/
def scopeWf (c : BitVec 3) : Bool := decide (c.toNat ≤ 6)

/-- Special registers read per lane into a v register (07 R187): `laneid`, `age`, `srkey`. -/
def perLaneSpecial (i : Nat) : Bool := i == 1 || i == 8 || i == 10

/-- Special registers of 64 bits, read into an s pair (07 R187): `clock`, `params`. -/
def pairSpecial (i : Nat) : Bool := i == 12 || i == 17

/-- The element size of the lighter is 4, 8 or 16 bytes; 3 is reserved (04 R107). -/
def elementWf (z : BitVec 2) : Bool := decide (z.toNat ≤ 2)

/-- No field of the instruction holds a reserved value. -/
def Instr.wf : Instr → Bool
  | .modifier s c _ _ _ o _ => decide (o.toNat ≤ 6) && !(s && c)
  | .ld _ _ _ z h => sizeWf z && hintWf h
  | .st _ _ _ z h => sizeWf z && hintWf h
  | .ldsp _ _ _ z => sizeWf z
  | .stsp _ _ _ z => sizeWf z
  | .sld _ _ z h => sizeWf z && hintWf h
  | .sst _ _ z h => sizeWf z && hintWf h
  | .pref _ _ h => hintWf h
  | .ldacq _ _ _ c => scopeWf c
  | .strel _ _ _ c => scopeWf c
  | .atomAdd _ _ _ c => scopeWf c
  | .atomMin _ _ _ c => scopeWf c
  | .atomMax _ _ _ c => scopeWf c
  | .atomExch _ _ _ c => scopeWf c
  | .atombAnd _ _ _ c => scopeWf c
  | .atombOr _ _ _ c => scopeWf c
  | .atombXor _ _ _ c => scopeWf c
  | .atombFadd _ _ _ c => scopeWf c
  | .cas _ _ _ c => scopeWf c
  | .mredAdd _ _ _ c => scopeWf c
  | .mredFadd _ _ _ c => scopeWf c
  | .mredMin _ _ _ c => scopeWf c
  | .mredMax _ _ _ c => scopeWf c
  | .ordap _ _ c => scopeWf c
  | .mma _ _ _ _ _ m => decide (m.toNat ≤ 2)
  | .mmas _ _ _ _ _ m => decide (m.toNat ≤ 2)
  | .crc _ e n _ _ => arrivalWf e n
  | .crtTile _ _ e n => arrivalWf e n
  | .crtTr _ _ e n => arrivalWf e n
  | .crtGather _ _ e n => arrivalWf e n
  | .crtDeq _ _ _ _ e n => arrivalWf e n
  | .lgt _ e n z => arrivalWf e n && elementWf z
  | .lsc _ e n z => arrivalWf e n && elementWf z
  | .pilStart _ e n => arrivalWf e n
  | .ccw _ c => decide (c.toNat ≤ 4)
  | .fenceAcq s => scopeWf s
  | .fenceRel s => scopeWf s
  | .fenceAcqrel s => scopeWf s
  | .fenceSc s => scopeWf s
  | .fencerAcq _ _ s => scopeWf s
  | .fencerRel _ _ s => scopeWf s
  | .fencerAcqrel _ _ s => scopeWf s
  | .cyield _ c => decide (c.toNat ≤ 12)
  | .clbinv _ s => decide (2 ≤ s.toNat ∧ s.toNat ≤ 4)
  | .clbinvTile _ _ s => decide (2 ≤ s.toNat ∧ s.toNat ≤ 4)
  | .rsr s _ i => decide (i.toNat ≤ 32) && (s == !perLaneSpecial i.toNat)
  | .iadd .. | .isub .. | .imul .. | .imulhi .. | .imulhu .. | .imad .. | .iquo .. | .iquoU .. | .irem .. | .iremU ..
  | .imin .. | .iminU .. | .imax .. | .imaxU .. | .iabs .. | .ineg .. | .and .. | .andn .. | .or .. | .orn .. | .xor ..
  | .xnor .. | .not .. | .shl .. | .shr .. | .sar .. | .rol .. | .popc .. | .clz .. | .ctz .. | .brev .. | .bfe .. | .bfeS ..
  | .bfi .. | .sel .. | .icmpEq .. | .icmpNe .. | .icmpLt .. | .icmpLe .. | .icmpLtu .. | .icmpLeu .. | .icmpTst ..
  | .icmpTstz .. | .add64 .. | .sub64 .. | .mul64 .. | .mul64U .. | .lea .. | .addi .. | .andi .. | .ori .. | .xori ..
  | .shli .. | .shri .. | .sari .. | .roli .. | .movi .. | .movhi .. | .mov .. | .bcast .. | .rdlane .. | .wrlane ..
  | .pand .. | .por .. | .pxor .. | .pnot .. | .ptest .. | .pcnt .. | .pfirst .. | .pbits .. | .pset .. | .iadds ..
  | .iaddus .. | .isubs .. | .isubus .. | .fadd .. | .fsub .. | .fmul .. | .fma .. | .fms .. | .fnma .. | .fmin .. | .fmax ..
  | .fminnum .. | .fmaxnum .. | .fdiv .. | .fsqrt .. | .frcp .. | .frsq .. | .fexp2 .. | .flog2 .. | .fsin .. | .fcos ..
  | .frint .. | .ffloor .. | .fcmpEq .. | .fcmpNe .. | .fcmpLt .. | .fcmpLe .. | .fcmpUn .. | .fcmpOrd .. | .fcmpLtu ..
  | .fcmpLeu .. | .fclass .. | .cvt .. | .cvti .. | .cvtiU .. | .cvtf .. | .cvtfU .. | .pack16 .. | .pack8 .. | .pack4 ..
  | .unpack16 .. | .unpack8 .. | .unpack4 .. | .xhist .. | .dot2 .. | .dot4 .. | .dot8 .. | .rng .. | .shflIdx ..
  | .shflUp .. | .shflDown .. | .shflXor .. | .shflBcast .. | .vredFadd .. | .vredFmax .. | .vredFmin .. | .vredIadd ..
  | .vredImax .. | .vredImin .. | .vscanFadd .. | .vscanIadd .. | .vscanIaddx .. | .trim .. | .fscale .. | .azero ..
  | .aload .. | .adrain .. | .apeerSend .. | .apeerRecv .. | .arowGet .. | .arowPut .. | .convoy .. | .mrlookVector ..
  | .mrlookScalar .. | .mrset .. | .mrclr .. | .hmk .. | .hmkGet .. | .rcb .. | .rcw .. | .ldc .. | .stc .. | .chq ..
  | .chfree .. | .chfreeRet .. | .mfst .. | .tideWait .. | .tideAge .. | .tideMark .. | .br .. | .jmp .. | .call .. | .ret ..
  | .bar .. | .barc .. | .arrive .. | .await .. | .wsrTrim .. | .wsrSrkey .. | .wsrFpflags .. | .trap .. | .trapif ..
  | .brk .. | .lnch .. | .ctxNew .. | .ctxNewRoot .. | .ctxGrant .. | .ctxRevoke .. | .ctxRevokeCold .. | .ctxGo ..
  | .ctxHaltQuery .. | .ctxHaltSoft .. | .ctxHaltForced .. | .ctxBudget .. | .ctxScope .. | .tlbinvVirtual ..
  | .tlbinvFrames .. | .nop | .convoyNone | .pilNext | .pilStop | .cyieldResume | .berth | .refillCheck | .join | .regang
  | .exit | .loadSector | .engineCommandComplete | .pilotNotice | .epochMarker | .hostLinkWrite | .quayLinkWrite | .doorbell
  | .leaseQuantumBoundary | .launchAccept | .crewPlace | .crewEnd | .launchComplete | .retryTimer | .pendingRecordWrite
  | .barrierTimeout | .collectionWindowClose | .haltComplete | .graceTimerExpiry | .killTimerExpiry | .budgetExhausted
  | .framePull | .revocationEnd | .tlbfenceRetire | .patrolScrub | .tlbfence | .deviceReset | .imageFetched
  | .imageFetchTimeout | .stageReady | .stageReadyTimeout | .minimalModeRetry | .measurementReport | .securitySensor
  | .powerRemoved | .managementRequest | .illegalInstruction | .instructionFetchFault | .engineAccessFault => true

end Sys2Proof
end

