-- ==== Sys2Proof/Decode.lean ====
section
/-!
DEFINITION. Decoding and encoding of instruction words.
A gang's word is decoded by `decode` (02 R37-R53), a hart's word by `decodeHart` (16 R335); each is total and rejects by
name. `encode` writes the word of an instruction from the same tables. Every encoding that 02 R53 makes illegal, R42's
nonzero unused fields and R38's reserved values among them, is rejected here.
-/
namespace Sys2Proof

/-- Why a word is no instruction. -/
inductive Reject where
  /-- The primary opcode is unassigned (02 R50, R53; 16 R335). -/
  | unassignedOpcode
  /-- A selector value that 02 R51 does not list, a form the instruction lacks, or a nonzero unused field (R42, R53). -/
  | badForm
  /-- A reserved value of a field (R38), refused by the well-formedness check. -/
  | reservedField
  /-- Fewer bytes than one word. -/
  | tooShort
  deriving DecidableEq, Repr

/-- Bits [lo+n-1:lo] of a word as a number (00 R2). -/
def bits (w lo n : Nat) : Nat := w / 2 ^ lo % 2 ^ n

/-- Bits [lo+n-1:lo] of a word as a field of n bits. -/
def field (w lo n : Nat) : BitVec n := BitVec.ofNat n (w / 2 ^ lo)

/-- Bit [i] of a word. -/
def flag (w i : Nat) : Bool := w / 2 ^ i % 2 == 1

/-- Opcode 0x00 `nop` (02 R37, R51, R52; R53). -/
def decodeNop (w : Nat) : Except Reject Instr :=
  if bits w 0 25 = 0 then .ok (.nop) else
  .error .badForm

/-- Opcode 0x01 `iadd` (02 R37, R51, R52; R170). -/
def decodeIadd (w : Nat) : Except Reject Instr :=
  if bits w 0 3 = 0 then .ok (.iadd (flag w 24) (field w 17 7) (field w 10 7) (field w 3 7)) else
  .error .badForm

/-- Opcode 0x02 `isub` (02 R37, R51, R52; R170). -/
def decodeIsub (w : Nat) : Except Reject Instr :=
  if bits w 0 3 = 0 then .ok (.isub (flag w 24) (field w 17 7) (field w 10 7) (field w 3 7)) else
  .error .badForm

/-- Opcode 0x03 `imul` (02 R37, R51, R52; R170). -/
def decodeImul (w : Nat) : Except Reject Instr :=
  if bits w 0 3 = 0 then .ok (.imul (flag w 24) (field w 17 7) (field w 10 7) (field w 3 7)) else
  if bits w 0 3 = 1 then .ok (.imulhi (flag w 24) (field w 17 7) (field w 10 7) (field w 3 7)) else
  if bits w 0 3 = 2 then .ok (.imulhu (flag w 24) (field w 17 7) (field w 10 7) (field w 3 7)) else
  .error .badForm

/-- Opcode 0x04 `imad` (02 R37, R51, R52; R170). -/
def decodeImad (w : Nat) : Except Reject Instr :=
  if bits w 0 3 = 0 then .ok (.imad (flag w 24) (field w 17 7) (field w 10 7) (field w 3 7)) else
  .error .badForm

/-- Opcode 0x05 `iquo` (02 R37, R51, R52; R171). -/
def decodeIquo (w : Nat) : Except Reject Instr :=
  if bits w 0 3 = 0 then .ok (.iquo (flag w 24) (field w 17 7) (field w 10 7) (field w 3 7)) else
  if bits w 0 3 = 1 then .ok (.iquoU (flag w 24) (field w 17 7) (field w 10 7) (field w 3 7)) else
  .error .badForm

/-- Opcode 0x06 `irem` (02 R37, R51, R52; R171). -/
def decodeIrem (w : Nat) : Except Reject Instr :=
  if bits w 0 3 = 0 then .ok (.irem (flag w 24) (field w 17 7) (field w 10 7) (field w 3 7)) else
  if bits w 0 3 = 1 then .ok (.iremU (flag w 24) (field w 17 7) (field w 10 7) (field w 3 7)) else
  .error .badForm

/-- Opcode 0x07 `imin` (02 R37, R51, R52; R170). -/
def decodeImin (w : Nat) : Except Reject Instr :=
  if bits w 0 3 = 0 then .ok (.imin (flag w 24) (field w 17 7) (field w 10 7) (field w 3 7)) else
  if bits w 0 3 = 1 then .ok (.iminU (flag w 24) (field w 17 7) (field w 10 7) (field w 3 7)) else
  .error .badForm

/-- Opcode 0x08 `imax` (02 R37, R51, R52; R170). -/
def decodeImax (w : Nat) : Except Reject Instr :=
  if bits w 0 3 = 0 then .ok (.imax (flag w 24) (field w 17 7) (field w 10 7) (field w 3 7)) else
  if bits w 0 3 = 1 then .ok (.imaxU (flag w 24) (field w 17 7) (field w 10 7) (field w 3 7)) else
  .error .badForm

/-- Opcode 0x09 `iabs` (02 R37, R51, R52; R170). -/
def decodeIabs (w : Nat) : Except Reject Instr :=
  if bits w 0 10 = 0 then .ok (.iabs (flag w 24) (field w 17 7) (field w 10 7)) else
  .error .badForm

/-- Opcode 0x0A `ineg` (02 R37, R51, R52; R170). -/
def decodeIneg (w : Nat) : Except Reject Instr :=
  if bits w 0 10 = 0 then .ok (.ineg (flag w 24) (field w 17 7) (field w 10 7)) else
  .error .badForm

/-- Opcode 0x0B `logic` (02 R37, R51, R52; R173). -/
def decodeLogic (w : Nat) : Except Reject Instr :=
  if bits w 0 3 = 0 then .ok (.and (flag w 24) (field w 17 7) (field w 10 7) (field w 3 7)) else
  if bits w 0 3 = 1 then .ok (.andn (flag w 24) (field w 17 7) (field w 10 7) (field w 3 7)) else
  if bits w 0 3 = 2 then .ok (.or (flag w 24) (field w 17 7) (field w 10 7) (field w 3 7)) else
  if bits w 0 3 = 3 then .ok (.orn (flag w 24) (field w 17 7) (field w 10 7) (field w 3 7)) else
  if bits w 0 3 = 4 then .ok (.xor (flag w 24) (field w 17 7) (field w 10 7) (field w 3 7)) else
  if bits w 0 3 = 5 then .ok (.xnor (flag w 24) (field w 17 7) (field w 10 7) (field w 3 7)) else
  if bits w 0 10 = 6 then .ok (.not (flag w 24) (field w 17 7) (field w 10 7)) else
  .error .badForm

/-- Opcode 0x0C `shift` (02 R37, R51, R52; R174). -/
def decodeShift (w : Nat) : Except Reject Instr :=
  if bits w 0 3 = 0 then .ok (.shl (flag w 24) (field w 17 7) (field w 10 7) (field w 3 7)) else
  if bits w 0 3 = 1 then .ok (.shr (flag w 24) (field w 17 7) (field w 10 7) (field w 3 7)) else
  if bits w 0 3 = 2 then .ok (.sar (flag w 24) (field w 17 7) (field w 10 7) (field w 3 7)) else
  if bits w 0 3 = 3 then .ok (.rol (flag w 24) (field w 17 7) (field w 10 7) (field w 3 7)) else
  .error .badForm

/-- Opcode 0x0D `bitcount` (02 R37, R51, R52; R175). -/
def decodeBitcount (w : Nat) : Except Reject Instr :=
  if bits w 0 10 = 0 then .ok (.popc (flag w 24) (field w 17 7) (field w 10 7)) else
  if bits w 0 10 = 1 then .ok (.clz (flag w 24) (field w 17 7) (field w 10 7)) else
  if bits w 0 10 = 2 then .ok (.ctz (flag w 24) (field w 17 7) (field w 10 7)) else
  if bits w 0 10 = 3 then .ok (.brev (flag w 24) (field w 17 7) (field w 10 7)) else
  .error .badForm

/-- Opcode 0x0E `bfe` (02 R37, R51, R52; R176). -/
def decodeBfe (w : Nat) : Except Reject Instr :=
  if bits w 0 3 = 0 then .ok (.bfe (flag w 24) (field w 17 7) (field w 10 7) (field w 3 7)) else
  if bits w 0 3 = 1 then .ok (.bfeS (flag w 24) (field w 17 7) (field w 10 7) (field w 3 7)) else
  .error .badForm

/-- Opcode 0x0F `bfi` (02 R37, R51, R52; R176). -/
def decodeBfi (w : Nat) : Except Reject Instr :=
  if bits w 0 3 = 0 then .ok (.bfi (flag w 24) (field w 17 7) (field w 10 7) (field w 3 7)) else
  .error .badForm

/-- Opcode 0x10 `sel` (02 R37, R51, R52; R178). -/
def decodeSel (w : Nat) : Except Reject Instr :=
  if bits w 0 3 = 0 ∧ bits w 24 1 = 0 then .ok (.sel (field w 17 7) (field w 10 7) (field w 3 7)) else
  .error .badForm

/-- Opcode 0x11 `icmp` (02 R37, R51, R52; R179). -/
def decodeIcmp (w : Nat) : Except Reject Instr :=
  if bits w 0 3 = 0 ∧ bits w 21 3 = 0 then .ok (.icmpEq (flag w 24) (field w 17 4) (field w 10 7) (field w 3 7)) else
  if bits w 0 3 = 1 ∧ bits w 21 3 = 0 then .ok (.icmpNe (flag w 24) (field w 17 4) (field w 10 7) (field w 3 7)) else
  if bits w 0 3 = 2 ∧ bits w 21 3 = 0 then .ok (.icmpLt (flag w 24) (field w 17 4) (field w 10 7) (field w 3 7)) else
  if bits w 0 3 = 3 ∧ bits w 21 3 = 0 then .ok (.icmpLe (flag w 24) (field w 17 4) (field w 10 7) (field w 3 7)) else
  if bits w 0 3 = 4 ∧ bits w 21 3 = 0 then .ok (.icmpLtu (flag w 24) (field w 17 4) (field w 10 7) (field w 3 7)) else
  if bits w 0 3 = 5 ∧ bits w 21 3 = 0 then .ok (.icmpLeu (flag w 24) (field w 17 4) (field w 10 7) (field w 3 7)) else
  if bits w 0 3 = 6 ∧ bits w 21 3 = 0 then .ok (.icmpTst (flag w 24) (field w 17 4) (field w 10 7) (field w 3 7)) else
  if bits w 0 3 = 7 ∧ bits w 21 3 = 0 then .ok (.icmpTstz (flag w 24) (field w 17 4) (field w 10 7) (field w 3 7)) else
  .error .badForm

/-- Opcode 0x12 `add64` (02 R37, R51, R52; R172). -/
def decodeAdd64 (w : Nat) : Except Reject Instr :=
  if bits w 0 3 = 0 then .ok (.add64 (flag w 24) (field w 17 7) (field w 10 7) (field w 3 7)) else
  if bits w 0 3 = 1 then .ok (.sub64 (flag w 24) (field w 17 7) (field w 10 7) (field w 3 7)) else
  .error .badForm

/-- Opcode 0x13 `mul64` (02 R37, R51, R52; R172). -/
def decodeMul64 (w : Nat) : Except Reject Instr :=
  if bits w 0 3 = 0 then .ok (.mul64 (flag w 24) (field w 17 7) (field w 10 7) (field w 3 7)) else
  if bits w 0 3 = 1 then .ok (.mul64U (flag w 24) (field w 17 7) (field w 10 7) (field w 3 7)) else
  .error .badForm

/-- Opcode 0x14 `lea` (02 R37, R51, R52; R172). -/
def decodeLea (w : Nat) : Except Reject Instr :=
  .ok (.lea (flag w 24) (field w 17 7) (field w 10 7) (field w 3 7) (field w 0 3))

/-- Opcode 0x15 `addi` (02 R37, R51, R52; R177). -/
def decodeAddi (w : Nat) : Except Reject Instr :=
  .ok (.addi (flag w 24) (field w 17 7) (field w 10 7) (field w 0 10))

/-- Opcode 0x16 `andi` (02 R37, R51, R52; R177). -/
def decodeAndi (w : Nat) : Except Reject Instr :=
  .ok (.andi (flag w 24) (field w 17 7) (field w 10 7) (field w 0 10))

/-- Opcode 0x17 `ori` (02 R37, R51, R52; R177). -/
def decodeOri (w : Nat) : Except Reject Instr :=
  .ok (.ori (flag w 24) (field w 17 7) (field w 10 7) (field w 0 10))

/-- Opcode 0x18 `xori` (02 R37, R51, R52; R177). -/
def decodeXori (w : Nat) : Except Reject Instr :=
  .ok (.xori (flag w 24) (field w 17 7) (field w 10 7) (field w 0 10))

/-- Opcode 0x19 `shi` (02 R37, R51, R52; R174). -/
def decodeShi (w : Nat) : Except Reject Instr :=
  if bits w 5 5 = 0 then .ok (.shli (flag w 24) (field w 17 7) (field w 10 7) (field w 0 5)) else
  if bits w 5 5 = 1 then .ok (.shri (flag w 24) (field w 17 7) (field w 10 7) (field w 0 5)) else
  if bits w 5 5 = 2 then .ok (.sari (flag w 24) (field w 17 7) (field w 10 7) (field w 0 5)) else
  if bits w 5 5 = 3 then .ok (.roli (flag w 24) (field w 17 7) (field w 10 7) (field w 0 5)) else
  .error .badForm

/-- Opcode 0x1A `movi` (02 R37, R51, R52; R177). -/
def decodeMovi (w : Nat) : Except Reject Instr :=
  .ok (.movi (flag w 24) (field w 17 7) (field w 0 17))

/-- Opcode 0x1B `movhi` (02 R37, R51, R52; R177). -/
def decodeMovhi (w : Nat) : Except Reject Instr :=
  .ok (.movhi (flag w 24) (field w 17 7) (field w 0 17))

/-- Opcode 0x1C `mov` (02 R37, R51, R52; R180). -/
def decodeMov (w : Nat) : Except Reject Instr :=
  if bits w 0 10 = 0 then .ok (.mov (flag w 24) (field w 17 7) (field w 10 7)) else
  if bits w 0 10 = 1 ∧ bits w 24 1 = 0 then .ok (.bcast (field w 17 7) (field w 10 7)) else
  if bits w 0 3 = 2 ∧ bits w 24 1 = 0 then .ok (.rdlane (field w 17 7) (field w 10 7) (field w 3 7)) else
  if bits w 0 3 = 3 ∧ bits w 24 1 = 0 then .ok (.wrlane (field w 17 7) (field w 10 7) (field w 3 7)) else
  .error .badForm

/-- Opcode 0x1D `predop` (02 R37, R51, R52; R181). -/
def decodePredop (w : Nat) : Except Reject Instr :=
  if bits w 0 3 = 0 ∧ bits w 7 3 = 0 ∧ bits w 14 3 = 0 ∧ bits w 21 4 = 0 then .ok (.pand (field w 17 4) (field w 10 4) (field w 3 4)) else
  if bits w 0 3 = 1 ∧ bits w 7 3 = 0 ∧ bits w 14 3 = 0 ∧ bits w 21 4 = 0 then .ok (.por (field w 17 4) (field w 10 4) (field w 3 4)) else
  if bits w 0 3 = 2 ∧ bits w 7 3 = 0 ∧ bits w 14 3 = 0 ∧ bits w 21 4 = 0 then .ok (.pxor (field w 17 4) (field w 10 4) (field w 3 4)) else
  if bits w 0 10 = 3 ∧ bits w 14 3 = 0 ∧ bits w 21 4 = 0 then .ok (.pnot (field w 17 4) (field w 10 4)) else
  if bits w 0 10 = 4 ∧ bits w 14 3 = 0 ∧ bits w 24 1 = 1 then .ok (.ptest (field w 17 7) (field w 10 4)) else
  if bits w 0 10 = 5 ∧ bits w 14 3 = 0 ∧ bits w 24 1 = 1 then .ok (.pcnt (field w 17 7) (field w 10 4)) else
  if bits w 0 10 = 6 ∧ bits w 14 3 = 0 ∧ bits w 24 1 = 1 then .ok (.pfirst (field w 17 7) (field w 10 4)) else
  if bits w 0 10 = 7 ∧ bits w 14 3 = 0 ∧ bits w 24 1 = 1 then .ok (.pbits (field w 17 7) (field w 10 4)) else
  .error .badForm

/-- Opcode 0x1E `pset` (02 R37, R51, R52; R182). -/
def decodePset (w : Nat) : Except Reject Instr :=
  if bits w 0 10 = 0 ∧ bits w 21 4 = 8 then .ok (.pset (field w 17 4) (field w 10 7)) else
  .error .badForm

/-- Opcode 0x1F `satadd` (02 R37, R51, R52; R170). -/
def decodeSatadd (w : Nat) : Except Reject Instr :=
  if bits w 0 3 = 0 then .ok (.iadds (flag w 24) (field w 17 7) (field w 10 7) (field w 3 7)) else
  if bits w 0 3 = 1 then .ok (.iaddus (flag w 24) (field w 17 7) (field w 10 7) (field w 3 7)) else
  if bits w 0 3 = 2 then .ok (.isubs (flag w 24) (field w 17 7) (field w 10 7) (field w 3 7)) else
  if bits w 0 3 = 3 then .ok (.isubus (flag w 24) (field w 17 7) (field w 10 7) (field w 3 7)) else
  .error .badForm

/-- Opcode 0x20 `fadd` (02 R37, R51, R52; R195). -/
def decodeFadd (w : Nat) : Except Reject Instr :=
  if bits w 0 3 = 0 ∧ bits w 24 1 = 0 then .ok (.fadd (field w 17 7) (field w 10 7) (field w 3 7)) else
  .error .badForm

/-- Opcode 0x21 `fsub` (02 R37, R51, R52; R195). -/
def decodeFsub (w : Nat) : Except Reject Instr :=
  if bits w 0 3 = 0 ∧ bits w 24 1 = 0 then .ok (.fsub (field w 17 7) (field w 10 7) (field w 3 7)) else
  .error .badForm

/-- Opcode 0x22 `fmul` (02 R37, R51, R52; R195). -/
def decodeFmul (w : Nat) : Except Reject Instr :=
  if bits w 0 3 = 0 ∧ bits w 24 1 = 0 then .ok (.fmul (field w 17 7) (field w 10 7) (field w 3 7)) else
  .error .badForm

/-- Opcode 0x23 `fma` (02 R37, R51, R52; R195). -/
def decodeFma (w : Nat) : Except Reject Instr :=
  if bits w 0 3 = 0 ∧ bits w 24 1 = 0 then .ok (.fma (field w 17 7) (field w 10 7) (field w 3 7)) else
  .error .badForm

/-- Opcode 0x24 `fms` (02 R37, R51, R52; R195). -/
def decodeFms (w : Nat) : Except Reject Instr :=
  if bits w 0 3 = 0 ∧ bits w 24 1 = 0 then .ok (.fms (field w 17 7) (field w 10 7) (field w 3 7)) else
  .error .badForm

/-- Opcode 0x25 `fnma` (02 R37, R51, R52; R195). -/
def decodeFnma (w : Nat) : Except Reject Instr :=
  if bits w 0 3 = 0 ∧ bits w 24 1 = 0 then .ok (.fnma (field w 17 7) (field w 10 7) (field w 3 7)) else
  .error .badForm

/-- Opcode 0x26 `minmax` (02 R37, R51, R52; R196). -/
def decodeMinmax (w : Nat) : Except Reject Instr :=
  if bits w 0 3 = 0 ∧ bits w 24 1 = 0 then .ok (.fmin (field w 17 7) (field w 10 7) (field w 3 7)) else
  if bits w 0 3 = 1 ∧ bits w 24 1 = 0 then .ok (.fmax (field w 17 7) (field w 10 7) (field w 3 7)) else
  if bits w 0 3 = 2 ∧ bits w 24 1 = 0 then .ok (.fminnum (field w 17 7) (field w 10 7) (field w 3 7)) else
  if bits w 0 3 = 3 ∧ bits w 24 1 = 0 then .ok (.fmaxnum (field w 17 7) (field w 10 7) (field w 3 7)) else
  .error .badForm

/-- Opcode 0x27 `fdiv` (02 R37, R51, R52; R197). -/
def decodeFdiv (w : Nat) : Except Reject Instr :=
  if bits w 0 3 = 0 ∧ bits w 24 1 = 0 then .ok (.fdiv (field w 17 7) (field w 10 7) (field w 3 7)) else
  .error .badForm

/-- Opcode 0x28 `fsqrt` (02 R37, R51, R52; R197). -/
def decodeFsqrt (w : Nat) : Except Reject Instr :=
  if bits w 0 10 = 0 ∧ bits w 24 1 = 0 then .ok (.fsqrt (field w 17 7) (field w 10 7)) else
  .error .badForm

/-- Opcode 0x29 `funary` (02 R37, R51, R52; R198). -/
def decodeFunary (w : Nat) : Except Reject Instr :=
  if bits w 0 10 = 0 ∧ bits w 24 1 = 0 then .ok (.frcp (field w 17 7) (field w 10 7)) else
  if bits w 0 10 = 1 ∧ bits w 24 1 = 0 then .ok (.frsq (field w 17 7) (field w 10 7)) else
  if bits w 0 10 = 2 ∧ bits w 24 1 = 0 then .ok (.fexp2 (field w 17 7) (field w 10 7)) else
  if bits w 0 10 = 3 ∧ bits w 24 1 = 0 then .ok (.flog2 (field w 17 7) (field w 10 7)) else
  if bits w 0 10 = 4 ∧ bits w 24 1 = 0 then .ok (.fsin (field w 17 7) (field w 10 7)) else
  if bits w 0 10 = 5 ∧ bits w 24 1 = 0 then .ok (.fcos (field w 17 7) (field w 10 7)) else
  if bits w 0 10 = 6 ∧ bits w 24 1 = 0 then .ok (.frint (field w 17 7) (field w 10 7)) else
  if bits w 0 10 = 7 ∧ bits w 24 1 = 0 then .ok (.ffloor (field w 17 7) (field w 10 7)) else
  .error .badForm

/-- Opcode 0x2A `fcmp` (02 R37, R51, R52; R201). -/
def decodeFcmp (w : Nat) : Except Reject Instr :=
  if bits w 0 3 = 0 ∧ bits w 21 4 = 0 then .ok (.fcmpEq (field w 17 4) (field w 10 7) (field w 3 7)) else
  if bits w 0 3 = 1 ∧ bits w 21 4 = 0 then .ok (.fcmpNe (field w 17 4) (field w 10 7) (field w 3 7)) else
  if bits w 0 3 = 2 ∧ bits w 21 4 = 0 then .ok (.fcmpLt (field w 17 4) (field w 10 7) (field w 3 7)) else
  if bits w 0 3 = 3 ∧ bits w 21 4 = 0 then .ok (.fcmpLe (field w 17 4) (field w 10 7) (field w 3 7)) else
  if bits w 0 3 = 4 ∧ bits w 21 4 = 0 then .ok (.fcmpUn (field w 17 4) (field w 10 7) (field w 3 7)) else
  if bits w 0 3 = 5 ∧ bits w 21 4 = 0 then .ok (.fcmpOrd (field w 17 4) (field w 10 7) (field w 3 7)) else
  if bits w 0 3 = 6 ∧ bits w 21 4 = 0 then .ok (.fcmpLtu (field w 17 4) (field w 10 7) (field w 3 7)) else
  if bits w 0 3 = 7 ∧ bits w 21 4 = 0 then .ok (.fcmpLeu (field w 17 4) (field w 10 7) (field w 3 7)) else
  .error .badForm

/-- Opcode 0x2B `fclass` (02 R37, R51, R52; R202). -/
def decodeFclass (w : Nat) : Except Reject Instr :=
  if bits w 0 10 = 0 ∧ bits w 24 1 = 0 then .ok (.fclass (field w 17 7) (field w 10 7)) else
  .error .badForm

/-- Opcode 0x2C `cvt` (02 R37, R51, R52; R203). -/
def decodeCvt (w : Nat) : Except Reject Instr :=
  if bits w 3 7 = 0 ∧ bits w 24 1 = 0 then .ok (.cvt (field w 17 7) (field w 10 7) (field w 0 3)) else
  .error .badForm

/-- Opcode 0x2D `cvti` (02 R37, R51, R52; R204). -/
def decodeCvti (w : Nat) : Except Reject Instr :=
  if bits w 0 10 = 0 ∧ bits w 24 1 = 0 then .ok (.cvti (field w 17 7) (field w 10 7)) else
  if bits w 0 10 = 1 ∧ bits w 24 1 = 0 then .ok (.cvtiU (field w 17 7) (field w 10 7)) else
  .error .badForm

/-- Opcode 0x2E `cvtf` (02 R37, R51, R52; R205). -/
def decodeCvtf (w : Nat) : Except Reject Instr :=
  if bits w 0 10 = 0 ∧ bits w 24 1 = 0 then .ok (.cvtf (field w 17 7) (field w 10 7)) else
  if bits w 0 10 = 1 ∧ bits w 24 1 = 0 then .ok (.cvtfU (field w 17 7) (field w 10 7)) else
  .error .badForm

/-- Opcode 0x2F `pack` (02 R37, R51, R52; R207). -/
def decodePack (w : Nat) : Except Reject Instr :=
  if bits w 0 3 = 0 ∧ bits w 24 1 = 0 then .ok (.pack16 (field w 17 7) (field w 10 7) (field w 3 7)) else
  if bits w 0 3 = 1 ∧ bits w 24 1 = 0 then .ok (.pack8 (field w 17 7) (field w 10 7) (field w 3 7)) else
  if bits w 0 3 = 2 ∧ bits w 24 1 = 0 then .ok (.pack4 (field w 17 7) (field w 10 7) (field w 3 7)) else
  .error .badForm

/-- Opcode 0x30 `unpack` (02 R37, R51, R52; R207). -/
def decodeUnpack (w : Nat) : Except Reject Instr :=
  if bits w 0 3 = 0 ∧ bits w 24 1 = 0 then .ok (.unpack16 (field w 17 7) (field w 10 7) (field w 3 7)) else
  if bits w 0 3 = 1 ∧ bits w 24 1 = 0 then .ok (.unpack8 (field w 17 7) (field w 10 7) (field w 3 7)) else
  if bits w 0 3 = 2 ∧ bits w 24 1 = 0 then .ok (.unpack4 (field w 17 7) (field w 10 7) (field w 3 7)) else
  .error .badForm

/-- Opcode 0x31 `xhist` (02 R37, R51, R52; R210). -/
def decodeXhist (w : Nat) : Except Reject Instr :=
  if bits w 0 3 = 0 ∧ bits w 17 8 = 0 then .ok (.xhist (field w 10 7) (field w 3 7)) else
  .error .badForm

/-- Opcode 0x32 `dot` (02 R37, R51, R52; R208). -/
def decodeDot (w : Nat) : Except Reject Instr :=
  if bits w 0 3 = 0 ∧ bits w 24 1 = 0 then .ok (.dot2 (field w 17 7) (field w 10 7) (field w 3 7)) else
  if bits w 0 3 = 1 ∧ bits w 24 1 = 0 then .ok (.dot4 (field w 17 7) (field w 10 7) (field w 3 7)) else
  if bits w 0 3 = 2 ∧ bits w 24 1 = 0 then .ok (.dot8 (field w 17 7) (field w 10 7) (field w 3 7)) else
  .error .badForm

/-- Opcode 0x33 `rng` (02 R37, R51, R52; R209). -/
def decodeRng (w : Nat) : Except Reject Instr :=
  if bits w 0 3 = 0 ∧ bits w 24 1 = 0 then .ok (.rng (field w 17 7) (field w 10 7) (field w 3 7)) else
  .error .badForm

/-- Opcode 0x34 `shfl` (02 R37, R51, R52; R211). -/
def decodeShfl (w : Nat) : Except Reject Instr :=
  if bits w 0 3 = 0 ∧ bits w 24 1 = 0 then .ok (.shflIdx (field w 17 7) (field w 10 7) (field w 3 7)) else
  if bits w 0 3 = 1 ∧ bits w 24 1 = 0 then .ok (.shflUp (field w 17 7) (field w 10 7) (field w 3 7)) else
  if bits w 0 3 = 2 ∧ bits w 24 1 = 0 then .ok (.shflDown (field w 17 7) (field w 10 7) (field w 3 7)) else
  if bits w 0 3 = 3 ∧ bits w 24 1 = 0 then .ok (.shflXor (field w 17 7) (field w 10 7) (field w 3 7)) else
  if bits w 0 3 = 4 ∧ bits w 24 1 = 0 then .ok (.shflBcast (field w 17 7) (field w 10 7) (field w 3 7)) else
  .error .badForm

/-- Opcode 0x35 `vred` (02 R37, R51, R52; R212). -/
def decodeVred (w : Nat) : Except Reject Instr :=
  if bits w 0 10 = 0 ∧ bits w 24 1 = 0 then .ok (.vredFadd (field w 17 7) (field w 10 7)) else
  if bits w 0 10 = 1 ∧ bits w 24 1 = 0 then .ok (.vredFmax (field w 17 7) (field w 10 7)) else
  if bits w 0 10 = 2 ∧ bits w 24 1 = 0 then .ok (.vredFmin (field w 17 7) (field w 10 7)) else
  if bits w 0 10 = 3 ∧ bits w 24 1 = 0 then .ok (.vredIadd (field w 17 7) (field w 10 7)) else
  if bits w 0 10 = 4 ∧ bits w 24 1 = 0 then .ok (.vredImax (field w 17 7) (field w 10 7)) else
  if bits w 0 10 = 5 ∧ bits w 24 1 = 0 then .ok (.vredImin (field w 17 7) (field w 10 7)) else
  .error .badForm

/-- Opcode 0x36 `vscan` (02 R37, R51, R52; R213). -/
def decodeVscan (w : Nat) : Except Reject Instr :=
  if bits w 0 10 = 0 ∧ bits w 24 1 = 0 then .ok (.vscanFadd (field w 17 7) (field w 10 7)) else
  if bits w 0 10 = 1 ∧ bits w 24 1 = 0 then .ok (.vscanIadd (field w 17 7) (field w 10 7)) else
  if bits w 0 10 = 2 ∧ bits w 24 1 = 0 then .ok (.vscanIaddx (field w 17 7) (field w 10 7)) else
  .error .badForm

/-- Opcode 0x37 `trim` (02 R37, R51, R52; R194). -/
def decodeTrim (w : Nat) : Except Reject Instr :=
  if bits w 0 10 = 0 ∧ bits w 17 8 = 128 then .ok (.trim (field w 10 7)) else
  .error .badForm

/-- Opcode 0x38 `fscale` (02 R37, R51, R52; R200). -/
def decodeFscale (w : Nat) : Except Reject Instr :=
  if bits w 0 3 = 0 ∧ bits w 24 1 = 0 then .ok (.fscale (field w 17 7) (field w 10 7) (field w 3 7)) else
  .error .badForm

/-- Opcode 0x40 `mma` (02 R37, R51, R52; R231). -/
def decodeMma (w : Nat) : Except Reject Instr :=
  if bits w 0 4 = 0 then .ok (.mma (field w 23 2) (flag w 22) (field w 15 7) (field w 9 6) (field w 6 3) (field w 4 2)) else
  .error .badForm

/-- Opcode 0x41 `mmas` (02 R37, R51, R52; R232). -/
def decodeMmas (w : Nat) : Except Reject Instr :=
  if bits w 0 4 = 0 then .ok (.mmas (field w 23 2) (flag w 22) (field w 15 7) (field w 9 6) (field w 6 3) (field w 4 2)) else
  .error .badForm

/-- Opcode 0x42 `azero` (02 R37, R51, R52; R233). -/
def decodeAzero (w : Nat) : Except Reject Instr :=
  if bits w 0 14 = 0 ∧ bits w 16 9 = 0 then .ok (.azero (field w 14 2)) else
  .error .badForm

/-- Opcode 0x43 `aload` (02 R37, R51, R52; R234). -/
def decodeAload (w : Nat) : Except Reject Instr :=
  if bits w 1 6 = 0 ∧ bits w 16 9 = 0 then .ok (.aload (field w 14 2) (field w 7 7) (flag w 0)) else
  .error .badForm

/-- Opcode 0x44 `adrain` (02 R37, R51, R52; R235). -/
def decodeAdrain (w : Nat) : Except Reject Instr :=
  if bits w 4 3 = 0 ∧ bits w 16 9 = 0 then .ok (.adrain (field w 14 2) (field w 7 7) (flag w 3) (flag w 2) (flag w 1) (flag w 0)) else
  .error .badForm

/-- Opcode 0x45 `apeer` (02 R37, R51, R52; R237). -/
def decodeApeer (w : Nat) : Except Reject Instr :=
  if bits w 0 7 = 0 ∧ bits w 16 9 = 0 then .ok (.apeerSend (field w 14 2) (field w 7 7)) else
  if bits w 0 7 = 1 ∧ bits w 16 9 = 0 then .ok (.apeerRecv (field w 14 2) (field w 7 7)) else
  .error .badForm

/-- Opcode 0x46 `arow` (02 R37, R51, R52; R236). -/
def decodeArow (w : Nat) : Except Reject Instr :=
  if bits w 0 7 = 0 ∧ bits w 16 2 = 0 then .ok (.arowGet (field w 18 7) (field w 14 2) (field w 7 7)) else
  if bits w 0 7 = 1 ∧ bits w 16 2 = 0 then .ok (.arowPut (field w 18 7) (field w 14 2) (field w 7 7)) else
  .error .badForm

/-- Opcode 0x47 `convoy` (02 R37, R51, R52; R219). -/
def decodeConvoy (w : Nat) : Except Reject Instr :=
  if bits w 3 22 = 0 then .ok (.convoy (field w 0 3)) else
  if bits w 0 25 = 8 then .ok (.convoyNone) else
  .error .badForm

/-- Opcode 0x48 `ld` (02 R37, R51, R52; R74). -/
def decodeLd (w : Nat) : Except Reject Instr :=
  .ok (.ld (field w 18 7) (field w 12 6) (field w 5 7) (field w 2 3) (field w 0 2))

/-- Opcode 0x49 `st` (02 R37, R51, R52; R74). -/
def decodeSt (w : Nat) : Except Reject Instr :=
  .ok (.st (field w 18 7) (field w 12 6) (field w 5 7) (field w 2 3) (field w 0 2))

/-- Opcode 0x4A `ldsp` (02 R37, R51, R52; R74). -/
def decodeLdsp (w : Nat) : Except Reject Instr :=
  if bits w 0 2 = 0 then .ok (.ldsp (field w 18 7) (field w 12 6) (field w 5 7) (field w 2 3)) else
  .error .badForm

/-- Opcode 0x4B `stsp` (02 R37, R51, R52; R74). -/
def decodeStsp (w : Nat) : Except Reject Instr :=
  if bits w 0 2 = 0 then .ok (.stsp (field w 18 7) (field w 12 6) (field w 5 7) (field w 2 3)) else
  .error .badForm

/-- Opcode 0x4C `ldacq` (02 R37, R51, R52; R81). -/
def decodeLdacq (w : Nat) : Except Reject Instr :=
  if bits w 0 2 = 0 then .ok (.ldacq (field w 18 7) (field w 12 6) (field w 5 7) (field w 2 3)) else
  .error .badForm

/-- Opcode 0x4D `strel` (02 R37, R51, R52; R81). -/
def decodeStrel (w : Nat) : Except Reject Instr :=
  if bits w 0 2 = 0 then .ok (.strel (field w 18 7) (field w 12 6) (field w 5 7) (field w 2 3)) else
  .error .badForm

/-- Opcode 0x4E `atom` (02 R37, R51, R52; R82). -/
def decodeAtom (w : Nat) : Except Reject Instr :=
  if bits w 0 2 = 0 then .ok (.atomAdd (field w 18 7) (field w 12 6) (field w 5 7) (field w 2 3)) else
  if bits w 0 2 = 1 then .ok (.atomMin (field w 18 7) (field w 12 6) (field w 5 7) (field w 2 3)) else
  if bits w 0 2 = 2 then .ok (.atomMax (field w 18 7) (field w 12 6) (field w 5 7) (field w 2 3)) else
  if bits w 0 2 = 3 then .ok (.atomExch (field w 18 7) (field w 12 6) (field w 5 7) (field w 2 3)) else
  .error .badForm

/-- Opcode 0x4F `atomb` (02 R37, R51, R52; R82, R83). -/
def decodeAtomb (w : Nat) : Except Reject Instr :=
  if bits w 0 2 = 0 then .ok (.atombAnd (field w 18 7) (field w 12 6) (field w 5 7) (field w 2 3)) else
  if bits w 0 2 = 1 then .ok (.atombOr (field w 18 7) (field w 12 6) (field w 5 7) (field w 2 3)) else
  if bits w 0 2 = 2 then .ok (.atombXor (field w 18 7) (field w 12 6) (field w 5 7) (field w 2 3)) else
  if bits w 0 2 = 3 then .ok (.atombFadd (field w 18 7) (field w 12 6) (field w 5 7) (field w 2 3)) else
  .error .badForm

/-- Opcode 0x50 `cas` (02 R37, R51, R52; R82). -/
def decodeCas (w : Nat) : Except Reject Instr :=
  if bits w 0 2 = 0 then .ok (.cas (field w 18 7) (field w 12 6) (field w 5 7) (field w 2 3)) else
  .error .badForm

/-- Opcode 0x51 `mred` (02 R37, R51, R52; R82, R83). -/
def decodeMred (w : Nat) : Except Reject Instr :=
  if bits w 0 2 = 0 then .ok (.mredAdd (field w 18 7) (field w 12 6) (field w 5 7) (field w 2 3)) else
  if bits w 0 2 = 1 then .ok (.mredFadd (field w 18 7) (field w 12 6) (field w 5 7) (field w 2 3)) else
  if bits w 0 2 = 2 then .ok (.mredMin (field w 18 7) (field w 12 6) (field w 5 7) (field w 2 3)) else
  if bits w 0 2 = 3 then .ok (.mredMax (field w 18 7) (field w 12 6) (field w 5 7) (field w 2 3)) else
  .error .badForm

/-- Opcode 0x52 `ordap` (02 R37, R51, R52; R87). -/
def decodeOrdap (w : Nat) : Except Reject Instr :=
  if bits w 0 2 = 0 ∧ bits w 5 7 = 127 then .ok (.ordap (field w 18 7) (field w 12 6) (field w 2 3)) else
  .error .badForm

/-- Opcode 0x53 `mrlook` (02 R37, R51, R52; R91). -/
def decodeMrlook (w : Nat) : Except Reject Instr :=
  if bits w 0 3 = 0 ∧ bits w 24 1 = 0 then .ok (.mrlookVector (field w 17 7) (field w 10 7) (field w 3 7)) else
  if bits w 0 10 = 1016 ∧ bits w 24 1 = 1 then .ok (.mrlookScalar (field w 17 7) (field w 10 7)) else
  .error .badForm

/-- Opcode 0x54 `mrset` (02 R37, R51, R52; R92). -/
def decodeMrset (w : Nat) : Except Reject Instr :=
  if bits w 0 3 = 0 ∧ bits w 17 8 = 128 then .ok (.mrset (field w 10 7) (field w 3 7)) else
  .error .badForm

/-- Opcode 0x55 `mrclr` (02 R37, R51, R52; R93). -/
def decodeMrclr (w : Nat) : Except Reject Instr :=
  if bits w 0 3 = 0 ∧ bits w 10 15 = 16384 then .ok (.mrclr (field w 3 7)) else
  .error .badForm

/-- Opcode 0x56 `sld` (02 R37, R51, R52; R75). -/
def decodeSld (w : Nat) : Except Reject Instr :=
  if bits w 5 7 = 127 then .ok (.sld (field w 18 7) (field w 12 6) (field w 2 3) (field w 0 2)) else
  .error .badForm

/-- Opcode 0x57 `sst` (02 R37, R51, R52; R75). -/
def decodeSst (w : Nat) : Except Reject Instr :=
  if bits w 5 7 = 127 then .ok (.sst (field w 18 7) (field w 12 6) (field w 2 3) (field w 0 2)) else
  .error .badForm

/-- Opcode 0x58 `pref` (02 R37, R51, R52; R77). -/
def decodePref (w : Nat) : Except Reject Instr :=
  if bits w 2 3 = 0 ∧ bits w 18 7 = 0 then .ok (.pref (field w 12 6) (field w 5 7) (field w 0 2)) else
  .error .badForm

/-- Opcode 0x5C `hmk` (02 R37, R51, R52; R97). -/
def decodeHmk (w : Nat) : Except Reject Instr :=
  if bits w 0 7 = 0 ∧ bits w 18 7 = 0 then .ok (.hmk (field w 14 4) (field w 7 7)) else
  if bits w 0 14 = 1 then .ok (.hmkGet (field w 18 7) (field w 14 4)) else
  .error .badForm

/-- Opcode 0x5D `crc` (02 R37, R51, R52; R104). -/
def decodeCrc (w : Nat) : Except Reject Instr :=
  if bits w 14 11 = 0 then .ok (.crc (field w 7 7) (flag w 6) (field w 2 4) (flag w 1) (flag w 0)) else
  .error .badForm

/-- Opcode 0x5E `crt` (02 R37, R51, R52; R105, R106). -/
def decodeCrt (w : Nat) : Except Reject Instr :=
  if bits w 0 2 = 0 ∧ bits w 18 7 = 0 then .ok (.crtTile (field w 14 4) (field w 7 7) (flag w 6) (field w 2 4)) else
  if bits w 0 2 = 1 ∧ bits w 18 7 = 0 then .ok (.crtTr (field w 14 4) (field w 7 7) (flag w 6) (field w 2 4)) else
  if bits w 0 2 = 2 ∧ bits w 18 7 = 0 then .ok (.crtGather (field w 14 4) (field w 7 7) (flag w 6) (field w 2 4)) else
  if bits w 0 2 = 3 ∧ bits w 23 2 = 0 then .ok (.crtDeq (flag w 22) (field w 18 4) (field w 14 4) (field w 7 7) (flag w 6) (field w 2 4)) else
  .error .badForm

/-- Opcode 0x5F `lgt` (02 R37, R51, R52; R107). -/
def decodeLgt (w : Nat) : Except Reject Instr :=
  if bits w 14 11 = 0 then .ok (.lgt (field w 7 7) (flag w 6) (field w 2 4) (field w 0 2)) else
  .error .badForm

/-- Opcode 0x60 `lsc` (02 R37, R51, R52; R107). -/
def decodeLsc (w : Nat) : Except Reject Instr :=
  if bits w 14 11 = 0 then .ok (.lsc (field w 7 7) (flag w 6) (field w 2 4) (field w 0 2)) else
  .error .badForm

/-- Opcode 0x61 `pil` (02 R37, R51, R52; R109, R111). -/
def decodePil (w : Nat) : Except Reject Instr :=
  if bits w 0 2 = 0 ∧ bits w 14 11 = 0 then .ok (.pilStart (field w 7 7) (flag w 6) (field w 2 4)) else
  if bits w 0 25 = 1 then .ok (.pilNext) else
  if bits w 0 25 = 2 then .ok (.pilStop) else
  .error .badForm

/-- Opcode 0x62 `rcb` (02 R37, R51, R52; R114). -/
def decodeRcb (w : Nat) : Except Reject Instr :=
  if bits w 3 11 = 0 ∧ bits w 18 7 = 0 then .ok (.rcb (field w 14 4) (field w 0 3)) else
  .error .badForm

/-- Opcode 0x63 `rcw` (02 R37, R51, R52; R115). -/
def decodeRcw (w : Nat) : Except Reject Instr :=
  if bits w 3 4 = 0 ∧ bits w 14 11 = 0 then .ok (.rcw (field w 7 7) (field w 0 3)) else
  .error .badForm

/-- Opcode 0x64 `ccw` (02 R37, R51, R52; R117). -/
def decodeCcw (w : Nat) : Except Reject Instr :=
  if bits w 3 4 = 0 ∧ bits w 14 11 = 0 then .ok (.ccw (field w 7 7) (field w 0 3)) else
  .error .badForm

/-- Opcode 0x65 `fence` (02 R37, R51, R52; R118, R140). -/
def decodeFence (w : Nat) : Except Reject Instr :=
  if bits w 0 2 = 0 ∧ bits w 5 20 = 0 then .ok (.fenceAcq (field w 2 3)) else
  if bits w 0 2 = 1 ∧ bits w 5 20 = 0 then .ok (.fenceRel (field w 2 3)) else
  if bits w 0 2 = 2 ∧ bits w 5 20 = 0 then .ok (.fenceAcqrel (field w 2 3)) else
  if bits w 0 2 = 3 ∧ bits w 5 20 = 0 then .ok (.fenceSc (field w 2 3)) else
  .error .badForm

/-- Opcode 0x66 `fencer` (02 R37, R51, R52; R119). -/
def decodeFencer (w : Nat) : Except Reject Instr :=
  if bits w 3 4 = 0 ∧ bits w 15 10 = 0 then .ok (.fencerAcq (flag w 14) (field w 7 7) (field w 0 3)) else
  if bits w 3 4 = 1 ∧ bits w 15 10 = 0 then .ok (.fencerRel (flag w 14) (field w 7 7) (field w 0 3)) else
  if bits w 3 4 = 2 ∧ bits w 15 10 = 0 then .ok (.fencerAcqrel (flag w 14) (field w 7 7) (field w 0 3)) else
  .error .badForm

/-- Opcode 0x67 `cyield` (02 R37, R51, R52; R120). -/
def decodeCyield (w : Nat) : Except Reject Instr :=
  if bits w 4 3 = 0 ∧ bits w 14 11 = 0 then .ok (.cyield (field w 7 7) (field w 0 4)) else
  .error .badForm

/-- Opcode 0x68 `ldc` (02 R37, R51, R52; R353). -/
def decodeLdc (w : Nat) : Except Reject Instr :=
  if bits w 2 5 = 0 then .ok (.ldc (field w 18 7) (field w 14 4) (field w 7 7) (field w 0 2)) else
  .error .badForm

/-- Opcode 0x69 `stc` (02 R37, R51, R52; R353). -/
def decodeStc (w : Nat) : Except Reject Instr :=
  if bits w 2 5 = 0 then .ok (.stc (field w 18 7) (field w 14 4) (field w 7 7) (field w 0 2)) else
  .error .badForm

/-- Opcode 0x6A `chq` (02 R37, R51, R52; R353). -/
def decodeChq (w : Nat) : Except Reject Instr :=
  if bits w 0 7 = 0 then .ok (.chq (field w 18 7) (field w 14 4) (field w 7 7)) else
  .error .badForm

/-- Opcode 0x6B `chfree` (02 R37, R51, R52; R357). -/
def decodeChfree (w : Nat) : Except Reject Instr :=
  if bits w 0 7 = 0 then .ok (.chfree (field w 18 7) (field w 14 4) (field w 7 7)) else
  if bits w 0 7 = 1 ∧ bits w 18 7 = 0 then .ok (.chfreeRet (field w 14 4) (field w 7 7)) else
  .error .badForm

/-- Opcode 0x6C `clbinv` (02 R37, R51, R52; R358). -/
def decodeClbinv (w : Nat) : Except Reject Instr :=
  if bits w 3 11 = 0 ∧ bits w 18 7 = 0 then .ok (.clbinv (field w 14 4) (field w 0 3)) else
  if bits w 3 4 = 1 ∧ bits w 18 7 = 0 then .ok (.clbinvTile (field w 14 4) (field w 7 7) (field w 0 3)) else
  .error .badForm

/-- Opcode 0x6D `berth` (02 R37, R51, R52; R274). -/
def decodeBerth (w : Nat) : Except Reject Instr :=
  if bits w 0 25 = 0 then .ok (.berth) else
  .error .badForm

/-- Opcode 0x6E `mfst` (02 R37, R51, R52; R271). -/
def decodeMfst (w : Nat) : Except Reject Instr :=
  if bits w 0 10 = 0 ∧ bits w 17 8 = 128 then .ok (.mfst (field w 10 7)) else
  .error .badForm

/-- Opcode 0x6F `tide` (02 R37, R51, R52; R281). -/
def decodeTide (w : Nat) : Except Reject Instr :=
  if bits w 0 10 = 0 ∧ bits w 17 7 = 0 then .ok (.tideWait (flag w 24) (field w 10 7)) else
  if bits w 0 17 = 1 ∧ bits w 24 1 = 0 then .ok (.tideAge (field w 17 7)) else
  if bits w 0 17 = 2 ∧ bits w 24 1 = 1 then .ok (.tideMark (field w 17 7)) else
  .error .badForm

/-- Opcode 0x70 `br` (02 R37, R51, R52; R183). -/
def decodeBr (w : Nat) : Except Reject Instr :=
  .ok (.br (field w 21 4) (flag w 20) (field w 0 20))

/-- Opcode 0x71 `jmp` (02 R37, R51, R52; R184). -/
def decodeJmp (w : Nat) : Except Reject Instr :=
  if bits w 0 10 = 0 ∧ bits w 17 8 = 128 then .ok (.jmp (field w 10 7)) else
  .error .badForm

/-- Opcode 0x72 `call` (02 R37, R51, R52; R185). -/
def decodeCall (w : Nat) : Except Reject Instr :=
  if bits w 20 5 = 0 then .ok (.call (field w 0 20)) else
  .error .badForm

/-- Opcode 0x73 `ret` (02 R37, R51, R52; R184). -/
def decodeRet (w : Nat) : Except Reject Instr :=
  if bits w 0 10 = 0 ∧ bits w 17 8 = 128 then .ok (.ret (field w 10 7)) else
  .error .badForm

/-- Opcode 0x74 `joinop` (02 R37, R51, R52; R245, R251). -/
def decodeJoinop (w : Nat) : Except Reject Instr :=
  if bits w 0 25 = 0 then .ok (.join) else
  if bits w 0 25 = 1 then .ok (.regang) else
  .error .badForm

/-- Opcode 0x75 `barrier` (02 R37, R51, R52; R257, R258, R259, R260). -/
def decodeBarrier (w : Nat) : Except Reject Instr :=
  if bits w 0 10 = 0 ∧ bits w 14 11 = 0 then .ok (.bar (field w 10 4)) else
  if bits w 0 10 = 1 ∧ bits w 13 12 = 0 then .ok (.barc (field w 10 3)) else
  if bits w 0 10 = 2 ∧ bits w 14 11 = 0 then .ok (.arrive (field w 10 4)) else
  if bits w 0 3 = 3 ∧ bits w 14 11 = 0 then .ok (.await (field w 10 4) (field w 3 7)) else
  .error .badForm

/-- Opcode 0x76 `exit` (02 R37, R51, R52; R186). -/
def decodeExit (w : Nat) : Except Reject Instr :=
  if bits w 0 25 = 0 then .ok (.exit) else
  .error .badForm

/-- Opcode 0x77 `rsr` (02 R37, R51, R52; R187). -/
def decodeRsr (w : Nat) : Except Reject Instr :=
  if bits w 10 7 = 0 then .ok (.rsr (flag w 24) (field w 17 7) (field w 0 10)) else
  .error .badForm

/-- Opcode 0x78 `wsr` (02 R37, R51, R52; R21, R22, R188). -/
def decodeWsr (w : Nat) : Except Reject Instr :=
  if bits w 0 17 = 0 ∧ bits w 24 1 = 1 then .ok (.wsrTrim (field w 17 7)) else
  if bits w 0 17 = 10 ∧ bits w 24 1 = 0 then .ok (.wsrSrkey (field w 17 7)) else
  if bits w 0 17 = 11 ∧ bits w 24 1 = 1 then .ok (.wsrFpflags (field w 17 7)) else
  .error .badForm

/-- Opcode 0x79 `trapop` (02 R37, R51, R52; R189). -/
def decodeTrapop (w : Nat) : Except Reject Instr :=
  if bits w 8 17 = 0 then .ok (.trap (field w 0 8)) else
  if bits w 8 2 = 1 ∧ bits w 14 11 = 0 then .ok (.trapif (field w 10 4) (field w 0 8)) else
  .error .badForm

/-- Opcode 0x7A `brk` (02 R37, R51, R52; R189). -/
def decodeBrk (w : Nat) : Except Reject Instr :=
  if bits w 8 17 = 0 then .ok (.brk (field w 0 8)) else
  .error .badForm

/-- Opcode 0x7B `lnch` (02 R37, R51, R52; R300). -/
def decodeLnch (w : Nat) : Except Reject Instr :=
  if bits w 0 3 = 0 ∧ bits w 24 1 = 1 then .ok (.lnch (field w 17 7) (field w 10 7) (field w 3 7)) else
  .error .badForm

/-- Opcode 0x7F `modifier` (02 R37, R51, R52; R47). -/
def decodeModifier (w : Nat) : Except Reject Instr :=
  if bits w 0 4 = 0 then .ok (.modifier (flag w 24) (flag w 23) (flag w 22) (flag w 21) (field w 15 6) (field w 12 3) (field w 4 8)) else
  .error .badForm

/-- The fields of a gang's word: the primary opcode chooses the format and selector (02 R50, R51). -/
def decodeFields (w : Nat) : Except Reject Instr :=
  match bits w 25 7 with
  | 0x00 => decodeNop w
  | 0x01 => decodeIadd w
  | 0x02 => decodeIsub w
  | 0x03 => decodeImul w
  | 0x04 => decodeImad w
  | 0x05 => decodeIquo w
  | 0x06 => decodeIrem w
  | 0x07 => decodeImin w
  | 0x08 => decodeImax w
  | 0x09 => decodeIabs w
  | 0x0A => decodeIneg w
  | 0x0B => decodeLogic w
  | 0x0C => decodeShift w
  | 0x0D => decodeBitcount w
  | 0x0E => decodeBfe w
  | 0x0F => decodeBfi w
  | 0x10 => decodeSel w
  | 0x11 => decodeIcmp w
  | 0x12 => decodeAdd64 w
  | 0x13 => decodeMul64 w
  | 0x14 => decodeLea w
  | 0x15 => decodeAddi w
  | 0x16 => decodeAndi w
  | 0x17 => decodeOri w
  | 0x18 => decodeXori w
  | 0x19 => decodeShi w
  | 0x1A => decodeMovi w
  | 0x1B => decodeMovhi w
  | 0x1C => decodeMov w
  | 0x1D => decodePredop w
  | 0x1E => decodePset w
  | 0x1F => decodeSatadd w
  | 0x20 => decodeFadd w
  | 0x21 => decodeFsub w
  | 0x22 => decodeFmul w
  | 0x23 => decodeFma w
  | 0x24 => decodeFms w
  | 0x25 => decodeFnma w
  | 0x26 => decodeMinmax w
  | 0x27 => decodeFdiv w
  | 0x28 => decodeFsqrt w
  | 0x29 => decodeFunary w
  | 0x2A => decodeFcmp w
  | 0x2B => decodeFclass w
  | 0x2C => decodeCvt w
  | 0x2D => decodeCvti w
  | 0x2E => decodeCvtf w
  | 0x2F => decodePack w
  | 0x30 => decodeUnpack w
  | 0x31 => decodeXhist w
  | 0x32 => decodeDot w
  | 0x33 => decodeRng w
  | 0x34 => decodeShfl w
  | 0x35 => decodeVred w
  | 0x36 => decodeVscan w
  | 0x37 => decodeTrim w
  | 0x38 => decodeFscale w
  | 0x40 => decodeMma w
  | 0x41 => decodeMmas w
  | 0x42 => decodeAzero w
  | 0x43 => decodeAload w
  | 0x44 => decodeAdrain w
  | 0x45 => decodeApeer w
  | 0x46 => decodeArow w
  | 0x47 => decodeConvoy w
  | 0x48 => decodeLd w
  | 0x49 => decodeSt w
  | 0x4A => decodeLdsp w
  | 0x4B => decodeStsp w
  | 0x4C => decodeLdacq w
  | 0x4D => decodeStrel w
  | 0x4E => decodeAtom w
  | 0x4F => decodeAtomb w
  | 0x50 => decodeCas w
  | 0x51 => decodeMred w
  | 0x52 => decodeOrdap w
  | 0x53 => decodeMrlook w
  | 0x54 => decodeMrset w
  | 0x55 => decodeMrclr w
  | 0x56 => decodeSld w
  | 0x57 => decodeSst w
  | 0x58 => decodePref w
  | 0x5C => decodeHmk w
  | 0x5D => decodeCrc w
  | 0x5E => decodeCrt w
  | 0x5F => decodeLgt w
  | 0x60 => decodeLsc w
  | 0x61 => decodePil w
  | 0x62 => decodeRcb w
  | 0x63 => decodeRcw w
  | 0x64 => decodeCcw w
  | 0x65 => decodeFence w
  | 0x66 => decodeFencer w
  | 0x67 => decodeCyield w
  | 0x68 => decodeLdc w
  | 0x69 => decodeStc w
  | 0x6A => decodeChq w
  | 0x6B => decodeChfree w
  | 0x6C => decodeClbinv w
  | 0x6D => decodeBerth w
  | 0x6E => decodeMfst w
  | 0x6F => decodeTide w
  | 0x70 => decodeBr w
  | 0x71 => decodeJmp w
  | 0x72 => decodeCall w
  | 0x73 => decodeRet w
  | 0x74 => decodeJoinop w
  | 0x75 => decodeBarrier w
  | 0x76 => decodeExit w
  | 0x77 => decodeRsr w
  | 0x78 => decodeWsr w
  | 0x79 => decodeTrapop w
  | 0x7A => decodeBrk w
  | 0x7B => decodeLnch w
  | 0x7F => decodeModifier w
  | _ => .error .unassignedOpcode

/-- An instruction whose fields hold no reserved value (02 R38, R42). -/
def checked (i : Instr) : Except Reject Instr := if i.wf then .ok i else .error .reservedField

/-- The instruction of a word fetched by a gang. -/
def decode (w : Nat) : Except Reject Instr := (decodeFields w).bind checked

/-- The context instruction of a word fetched by a hart (16 R335). Rows that share a word are told apart by their operand
registers when the hart executes it; the word alone gives the first of them. -/
def decodeHart (w : Nat) : Except Reject Instr :=
  if bits w 0 7 = 11 then
    if bits w 12 3 = 0 ∧ bits w 25 7 = 0 then .ok (.ctxNew (field w 20 5) (field w 15 5) (field w 7 5)) else
    if bits w 12 3 = 1 ∧ bits w 25 7 = 0 then .ok (.ctxGrant (field w 20 5) (field w 15 5) (field w 7 5)) else
    if bits w 12 3 = 2 ∧ bits w 25 7 = 0 then .ok (.ctxRevoke (field w 20 5) (field w 15 5) (field w 7 5)) else
    if bits w 12 3 = 3 ∧ bits w 20 12 = 0 then .ok (.ctxGo (field w 15 5) (field w 7 5)) else
    if bits w 12 3 = 3 ∧ bits w 25 7 = 1 then .ok (.ctxHaltQuery (field w 20 5) (field w 15 5) (field w 7 5)) else
    if bits w 12 3 = 4 ∧ bits w 25 7 = 0 then .ok (.ctxBudget (field w 20 5) (field w 15 5) (field w 7 5)) else
    if bits w 12 3 = 5 ∧ bits w 25 7 = 0 then .ok (.ctxScope (field w 20 5) (field w 15 5) (field w 7 5)) else
    if bits w 7 8 = 192 ∧ bits w 25 7 = 0 then .ok (.tlbinvVirtual (field w 20 5) (field w 15 5)) else
    if bits w 7 25 = 224 then .ok (.tlbfence) else
    .error .badForm
  else .error .unassignedOpcode

/-- The word at the head of a list of bytes, little-endian (02 R34), and the bytes after it. -/
def wordOfBytes : List Byte → Except Reject (Nat × List Byte)
  | b0 :: b1 :: b2 :: b3 :: rest =>
    .ok (b0.toNat + b1.toNat * 0x100 + b2.toNat * 0x10000 + b3.toNat * 0x1000000, rest)
  | _ => .error .tooShort

/-- The four bytes of a word, lowest address first (02 R34). -/
def bytesOfWord (w : Nat) : List Byte :=
  [BitVec.ofNat 8 w, BitVec.ofNat 8 (w / 0x100), BitVec.ofNat 8 (w / 0x10000), BitVec.ofNat 8 (w / 0x1000000)]

/-- The gang instruction at the head of a list of bytes. -/
def decodeBytes (bs : List Byte) : Except Reject Instr := (wordOfBytes bs).bind fun p => decode p.1

/-- The context instruction at the head of a list of bytes. -/
def decodeHartBytes (bs : List Byte) : Except Reject Instr := (wordOfBytes bs).bind fun p => decodeHart p.1

/-- The instruction an opcode-table word stands for: as a gang fetches it, or, where no gang instruction has that word, as a
hart fetches it. The two agents share no word: a context instruction's low bits make it an illegal gang word. -/
def decodeTableWord (nbits w : Nat) : Option Instr :=
  match decodeBytes (bytesOfWord (w % 2 ^ nbits)) with
  | .ok i => some i
  | .error _ => (decodeHartBytes (bytesOfWord (w % 2 ^ nbits))).toOption

/-- The word of an instruction (02 R37-R52; 16 R335); none for the operations and events that have no encoding. -/
def encode : Instr → Option Nat
  | .nop => some (0x00000000)
  | .modifier s c n u e o t => some (0xFE000000 + s.toNat * 16777216 + c.toNat * 8388608 + n.toNat * 4194304 + u.toNat * 2097152 + e.toNat * 32768 + o.toNat * 4096 + t.toNat * 16)
  | .iadd s d a b => some (0x02000000 + s.toNat * 16777216 + d.toNat * 131072 + a.toNat * 1024 + b.toNat * 8)
  | .isub s d a b => some (0x04000000 + s.toNat * 16777216 + d.toNat * 131072 + a.toNat * 1024 + b.toNat * 8)
  | .imul s d a b => some (0x06000000 + s.toNat * 16777216 + d.toNat * 131072 + a.toNat * 1024 + b.toNat * 8)
  | .imulhi s d a b => some (0x06000001 + s.toNat * 16777216 + d.toNat * 131072 + a.toNat * 1024 + b.toNat * 8)
  | .imulhu s d a b => some (0x06000002 + s.toNat * 16777216 + d.toNat * 131072 + a.toNat * 1024 + b.toNat * 8)
  | .imad s d a b => some (0x08000000 + s.toNat * 16777216 + d.toNat * 131072 + a.toNat * 1024 + b.toNat * 8)
  | .iquo s d a b => some (0x0A000000 + s.toNat * 16777216 + d.toNat * 131072 + a.toNat * 1024 + b.toNat * 8)
  | .iquoU s d a b => some (0x0A000001 + s.toNat * 16777216 + d.toNat * 131072 + a.toNat * 1024 + b.toNat * 8)
  | .irem s d a b => some (0x0C000000 + s.toNat * 16777216 + d.toNat * 131072 + a.toNat * 1024 + b.toNat * 8)
  | .iremU s d a b => some (0x0C000001 + s.toNat * 16777216 + d.toNat * 131072 + a.toNat * 1024 + b.toNat * 8)
  | .imin s d a b => some (0x0E000000 + s.toNat * 16777216 + d.toNat * 131072 + a.toNat * 1024 + b.toNat * 8)
  | .iminU s d a b => some (0x0E000001 + s.toNat * 16777216 + d.toNat * 131072 + a.toNat * 1024 + b.toNat * 8)
  | .imax s d a b => some (0x10000000 + s.toNat * 16777216 + d.toNat * 131072 + a.toNat * 1024 + b.toNat * 8)
  | .imaxU s d a b => some (0x10000001 + s.toNat * 16777216 + d.toNat * 131072 + a.toNat * 1024 + b.toNat * 8)
  | .iabs s d a => some (0x12000000 + s.toNat * 16777216 + d.toNat * 131072 + a.toNat * 1024)
  | .ineg s d a => some (0x14000000 + s.toNat * 16777216 + d.toNat * 131072 + a.toNat * 1024)
  | .and s d a b => some (0x16000000 + s.toNat * 16777216 + d.toNat * 131072 + a.toNat * 1024 + b.toNat * 8)
  | .andn s d a b => some (0x16000001 + s.toNat * 16777216 + d.toNat * 131072 + a.toNat * 1024 + b.toNat * 8)
  | .or s d a b => some (0x16000002 + s.toNat * 16777216 + d.toNat * 131072 + a.toNat * 1024 + b.toNat * 8)
  | .orn s d a b => some (0x16000003 + s.toNat * 16777216 + d.toNat * 131072 + a.toNat * 1024 + b.toNat * 8)
  | .xor s d a b => some (0x16000004 + s.toNat * 16777216 + d.toNat * 131072 + a.toNat * 1024 + b.toNat * 8)
  | .xnor s d a b => some (0x16000005 + s.toNat * 16777216 + d.toNat * 131072 + a.toNat * 1024 + b.toNat * 8)
  | .not s d a => some (0x16000006 + s.toNat * 16777216 + d.toNat * 131072 + a.toNat * 1024)
  | .shl s d a b => some (0x18000000 + s.toNat * 16777216 + d.toNat * 131072 + a.toNat * 1024 + b.toNat * 8)
  | .shr s d a b => some (0x18000001 + s.toNat * 16777216 + d.toNat * 131072 + a.toNat * 1024 + b.toNat * 8)
  | .sar s d a b => some (0x18000002 + s.toNat * 16777216 + d.toNat * 131072 + a.toNat * 1024 + b.toNat * 8)
  | .rol s d a b => some (0x18000003 + s.toNat * 16777216 + d.toNat * 131072 + a.toNat * 1024 + b.toNat * 8)
  | .popc s d a => some (0x1A000000 + s.toNat * 16777216 + d.toNat * 131072 + a.toNat * 1024)
  | .clz s d a => some (0x1A000001 + s.toNat * 16777216 + d.toNat * 131072 + a.toNat * 1024)
  | .ctz s d a => some (0x1A000002 + s.toNat * 16777216 + d.toNat * 131072 + a.toNat * 1024)
  | .brev s d a => some (0x1A000003 + s.toNat * 16777216 + d.toNat * 131072 + a.toNat * 1024)
  | .bfe s d a b => some (0x1C000000 + s.toNat * 16777216 + d.toNat * 131072 + a.toNat * 1024 + b.toNat * 8)
  | .bfeS s d a b => some (0x1C000001 + s.toNat * 16777216 + d.toNat * 131072 + a.toNat * 1024 + b.toNat * 8)
  | .bfi s d a b => some (0x1E000000 + s.toNat * 16777216 + d.toNat * 131072 + a.toNat * 1024 + b.toNat * 8)
  | .sel d a b => some (0x20000000 + d.toNat * 131072 + a.toNat * 1024 + b.toNat * 8)
  | .icmpEq s d a b => some (0x22000000 + s.toNat * 16777216 + d.toNat * 131072 + a.toNat * 1024 + b.toNat * 8)
  | .icmpNe s d a b => some (0x22000001 + s.toNat * 16777216 + d.toNat * 131072 + a.toNat * 1024 + b.toNat * 8)
  | .icmpLt s d a b => some (0x22000002 + s.toNat * 16777216 + d.toNat * 131072 + a.toNat * 1024 + b.toNat * 8)
  | .icmpLe s d a b => some (0x22000003 + s.toNat * 16777216 + d.toNat * 131072 + a.toNat * 1024 + b.toNat * 8)
  | .icmpLtu s d a b => some (0x22000004 + s.toNat * 16777216 + d.toNat * 131072 + a.toNat * 1024 + b.toNat * 8)
  | .icmpLeu s d a b => some (0x22000005 + s.toNat * 16777216 + d.toNat * 131072 + a.toNat * 1024 + b.toNat * 8)
  | .icmpTst s d a b => some (0x22000006 + s.toNat * 16777216 + d.toNat * 131072 + a.toNat * 1024 + b.toNat * 8)
  | .icmpTstz s d a b => some (0x22000007 + s.toNat * 16777216 + d.toNat * 131072 + a.toNat * 1024 + b.toNat * 8)
  | .add64 s d a b => some (0x24000000 + s.toNat * 16777216 + d.toNat * 131072 + a.toNat * 1024 + b.toNat * 8)
  | .sub64 s d a b => some (0x24000001 + s.toNat * 16777216 + d.toNat * 131072 + a.toNat * 1024 + b.toNat * 8)
  | .mul64 s d a b => some (0x26000000 + s.toNat * 16777216 + d.toNat * 131072 + a.toNat * 1024 + b.toNat * 8)
  | .mul64U s d a b => some (0x26000001 + s.toNat * 16777216 + d.toNat * 131072 + a.toNat * 1024 + b.toNat * 8)
  | .lea s d a b n => some (0x28000000 + s.toNat * 16777216 + d.toNat * 131072 + a.toNat * 1024 + b.toNat * 8 + n.toNat)
  | .addi s d a i => some (0x2A000000 + s.toNat * 16777216 + d.toNat * 131072 + a.toNat * 1024 + i.toNat)
  | .andi s d a i => some (0x2C000000 + s.toNat * 16777216 + d.toNat * 131072 + a.toNat * 1024 + i.toNat)
  | .ori s d a i => some (0x2E000000 + s.toNat * 16777216 + d.toNat * 131072 + a.toNat * 1024 + i.toNat)
  | .xori s d a i => some (0x30000000 + s.toNat * 16777216 + d.toNat * 131072 + a.toNat * 1024 + i.toNat)
  | .shli s d a n => some (0x32000000 + s.toNat * 16777216 + d.toNat * 131072 + a.toNat * 1024 + n.toNat)
  | .shri s d a n => some (0x32000020 + s.toNat * 16777216 + d.toNat * 131072 + a.toNat * 1024 + n.toNat)
  | .sari s d a n => some (0x32000040 + s.toNat * 16777216 + d.toNat * 131072 + a.toNat * 1024 + n.toNat)
  | .roli s d a n => some (0x32000060 + s.toNat * 16777216 + d.toNat * 131072 + a.toNat * 1024 + n.toNat)
  | .movi s d i => some (0x34000000 + s.toNat * 16777216 + d.toNat * 131072 + i.toNat)
  | .movhi s d i => some (0x36000000 + s.toNat * 16777216 + d.toNat * 131072 + i.toNat)
  | .mov s d a => some (0x38000000 + s.toNat * 16777216 + d.toNat * 131072 + a.toNat * 1024)
  | .bcast d a => some (0x38000001 + d.toNat * 131072 + a.toNat * 1024)
  | .rdlane d a b => some (0x38000002 + d.toNat * 131072 + a.toNat * 1024 + b.toNat * 8)
  | .wrlane d a b => some (0x38000003 + d.toNat * 131072 + a.toNat * 1024 + b.toNat * 8)
  | .pand d a b => some (0x3A000000 + d.toNat * 131072 + a.toNat * 1024 + b.toNat * 8)
  | .por d a b => some (0x3A000001 + d.toNat * 131072 + a.toNat * 1024 + b.toNat * 8)
  | .pxor d a b => some (0x3A000002 + d.toNat * 131072 + a.toNat * 1024 + b.toNat * 8)
  | .pnot d a => some (0x3A000003 + d.toNat * 131072 + a.toNat * 1024)
  | .ptest d a => some (0x3B000004 + d.toNat * 131072 + a.toNat * 1024)
  | .pcnt d a => some (0x3B000005 + d.toNat * 131072 + a.toNat * 1024)
  | .pfirst d a => some (0x3B000006 + d.toNat * 131072 + a.toNat * 1024)
  | .pbits d a => some (0x3B000007 + d.toNat * 131072 + a.toNat * 1024)
  | .pset d a => some (0x3D000000 + d.toNat * 131072 + a.toNat * 1024)
  | .iadds s d a b => some (0x3E000000 + s.toNat * 16777216 + d.toNat * 131072 + a.toNat * 1024 + b.toNat * 8)
  | .iaddus s d a b => some (0x3E000001 + s.toNat * 16777216 + d.toNat * 131072 + a.toNat * 1024 + b.toNat * 8)
  | .isubs s d a b => some (0x3E000002 + s.toNat * 16777216 + d.toNat * 131072 + a.toNat * 1024 + b.toNat * 8)
  | .isubus s d a b => some (0x3E000003 + s.toNat * 16777216 + d.toNat * 131072 + a.toNat * 1024 + b.toNat * 8)
  | .fadd d a b => some (0x40000000 + d.toNat * 131072 + a.toNat * 1024 + b.toNat * 8)
  | .fsub d a b => some (0x42000000 + d.toNat * 131072 + a.toNat * 1024 + b.toNat * 8)
  | .fmul d a b => some (0x44000000 + d.toNat * 131072 + a.toNat * 1024 + b.toNat * 8)
  | .fma d a b => some (0x46000000 + d.toNat * 131072 + a.toNat * 1024 + b.toNat * 8)
  | .fms d a b => some (0x48000000 + d.toNat * 131072 + a.toNat * 1024 + b.toNat * 8)
  | .fnma d a b => some (0x4A000000 + d.toNat * 131072 + a.toNat * 1024 + b.toNat * 8)
  | .fmin d a b => some (0x4C000000 + d.toNat * 131072 + a.toNat * 1024 + b.toNat * 8)
  | .fmax d a b => some (0x4C000001 + d.toNat * 131072 + a.toNat * 1024 + b.toNat * 8)
  | .fminnum d a b => some (0x4C000002 + d.toNat * 131072 + a.toNat * 1024 + b.toNat * 8)
  | .fmaxnum d a b => some (0x4C000003 + d.toNat * 131072 + a.toNat * 1024 + b.toNat * 8)
  | .fdiv d a b => some (0x4E000000 + d.toNat * 131072 + a.toNat * 1024 + b.toNat * 8)
  | .fsqrt d a => some (0x50000000 + d.toNat * 131072 + a.toNat * 1024)
  | .frcp d a => some (0x52000000 + d.toNat * 131072 + a.toNat * 1024)
  | .frsq d a => some (0x52000001 + d.toNat * 131072 + a.toNat * 1024)
  | .fexp2 d a => some (0x52000002 + d.toNat * 131072 + a.toNat * 1024)
  | .flog2 d a => some (0x52000003 + d.toNat * 131072 + a.toNat * 1024)
  | .fsin d a => some (0x52000004 + d.toNat * 131072 + a.toNat * 1024)
  | .fcos d a => some (0x52000005 + d.toNat * 131072 + a.toNat * 1024)
  | .frint d a => some (0x52000006 + d.toNat * 131072 + a.toNat * 1024)
  | .ffloor d a => some (0x52000007 + d.toNat * 131072 + a.toNat * 1024)
  | .fcmpEq d a b => some (0x54000000 + d.toNat * 131072 + a.toNat * 1024 + b.toNat * 8)
  | .fcmpNe d a b => some (0x54000001 + d.toNat * 131072 + a.toNat * 1024 + b.toNat * 8)
  | .fcmpLt d a b => some (0x54000002 + d.toNat * 131072 + a.toNat * 1024 + b.toNat * 8)
  | .fcmpLe d a b => some (0x54000003 + d.toNat * 131072 + a.toNat * 1024 + b.toNat * 8)
  | .fcmpUn d a b => some (0x54000004 + d.toNat * 131072 + a.toNat * 1024 + b.toNat * 8)
  | .fcmpOrd d a b => some (0x54000005 + d.toNat * 131072 + a.toNat * 1024 + b.toNat * 8)
  | .fcmpLtu d a b => some (0x54000006 + d.toNat * 131072 + a.toNat * 1024 + b.toNat * 8)
  | .fcmpLeu d a b => some (0x54000007 + d.toNat * 131072 + a.toNat * 1024 + b.toNat * 8)
  | .fclass d a => some (0x56000000 + d.toNat * 131072 + a.toNat * 1024)
  | .cvt d a f => some (0x58000000 + d.toNat * 131072 + a.toNat * 1024 + f.toNat)
  | .cvti d a => some (0x5A000000 + d.toNat * 131072 + a.toNat * 1024)
  | .cvtiU d a => some (0x5A000001 + d.toNat * 131072 + a.toNat * 1024)
  | .cvtf d a => some (0x5C000000 + d.toNat * 131072 + a.toNat * 1024)
  | .cvtfU d a => some (0x5C000001 + d.toNat * 131072 + a.toNat * 1024)
  | .pack16 d a b => some (0x5E000000 + d.toNat * 131072 + a.toNat * 1024 + b.toNat * 8)
  | .pack8 d a b => some (0x5E000001 + d.toNat * 131072 + a.toNat * 1024 + b.toNat * 8)
  | .pack4 d a b => some (0x5E000002 + d.toNat * 131072 + a.toNat * 1024 + b.toNat * 8)
  | .unpack16 d a b => some (0x60000000 + d.toNat * 131072 + a.toNat * 1024 + b.toNat * 8)
  | .unpack8 d a b => some (0x60000001 + d.toNat * 131072 + a.toNat * 1024 + b.toNat * 8)
  | .unpack4 d a b => some (0x60000002 + d.toNat * 131072 + a.toNat * 1024 + b.toNat * 8)
  | .xhist a b => some (0x62000000 + a.toNat * 1024 + b.toNat * 8)
  | .dot2 d a b => some (0x64000000 + d.toNat * 131072 + a.toNat * 1024 + b.toNat * 8)
  | .dot4 d a b => some (0x64000001 + d.toNat * 131072 + a.toNat * 1024 + b.toNat * 8)
  | .dot8 d a b => some (0x64000002 + d.toNat * 131072 + a.toNat * 1024 + b.toNat * 8)
  | .rng d a b => some (0x66000000 + d.toNat * 131072 + a.toNat * 1024 + b.toNat * 8)
  | .shflIdx d a b => some (0x68000000 + d.toNat * 131072 + a.toNat * 1024 + b.toNat * 8)
  | .shflUp d a b => some (0x68000001 + d.toNat * 131072 + a.toNat * 1024 + b.toNat * 8)
  | .shflDown d a b => some (0x68000002 + d.toNat * 131072 + a.toNat * 1024 + b.toNat * 8)
  | .shflXor d a b => some (0x68000003 + d.toNat * 131072 + a.toNat * 1024 + b.toNat * 8)
  | .shflBcast d a b => some (0x68000004 + d.toNat * 131072 + a.toNat * 1024 + b.toNat * 8)
  | .vredFadd d a => some (0x6A000000 + d.toNat * 131072 + a.toNat * 1024)
  | .vredFmax d a => some (0x6A000001 + d.toNat * 131072 + a.toNat * 1024)
  | .vredFmin d a => some (0x6A000002 + d.toNat * 131072 + a.toNat * 1024)
  | .vredIadd d a => some (0x6A000003 + d.toNat * 131072 + a.toNat * 1024)
  | .vredImax d a => some (0x6A000004 + d.toNat * 131072 + a.toNat * 1024)
  | .vredImin d a => some (0x6A000005 + d.toNat * 131072 + a.toNat * 1024)
  | .vscanFadd d a => some (0x6C000000 + d.toNat * 131072 + a.toNat * 1024)
  | .vscanIadd d a => some (0x6C000001 + d.toNat * 131072 + a.toNat * 1024)
  | .vscanIaddx d a => some (0x6C000002 + d.toNat * 131072 + a.toNat * 1024)
  | .trim a => some (0x6F000000 + a.toNat * 1024)
  | .fscale d a b => some (0x70000000 + d.toNat * 131072 + a.toNat * 1024 + b.toNat * 8)
  | .mma c k a b l m => some (0x80000000 + c.toNat * 8388608 + k.toNat * 4194304 + a.toNat * 32768 + b.toNat * 512 + l.toNat * 64 + m.toNat * 16)
  | .mmas c k a b l m => some (0x82000000 + c.toNat * 8388608 + k.toNat * 4194304 + a.toNat * 32768 + b.toNat * 512 + l.toNat * 64 + m.toNat * 16)
  | .azero k => some (0x84000000 + k.toNat * 16384)
  | .aload k a g => some (0x86000000 + k.toNat * 16384 + a.toNat * 128 + g.toNat)
  | .adrain k a r z h g => some (0x88000000 + k.toNat * 16384 + a.toNat * 128 + r.toNat * 8 + z.toNat * 4 + h.toNat * 2 + g.toNat)
  | .apeerSend k a => some (0x8A000000 + k.toNat * 16384 + a.toNat * 128)
  | .apeerRecv k a => some (0x8A000001 + k.toNat * 16384 + a.toNat * 128)
  | .arowGet d k a => some (0x8C000000 + d.toNat * 262144 + k.toNat * 16384 + a.toNat * 128)
  | .arowPut d k a => some (0x8C000001 + d.toNat * 262144 + k.toNat * 16384 + a.toNat * 128)
  | .convoy i => some (0x8E000000 + i.toNat)
  | .convoyNone => some (0x8E000008)
  | .ld t b x z h => some (0x90000000 + t.toNat * 262144 + b.toNat * 4096 + x.toNat * 32 + z.toNat * 4 + h.toNat)
  | .st t b x z h => some (0x92000000 + t.toNat * 262144 + b.toNat * 4096 + x.toNat * 32 + z.toNat * 4 + h.toNat)
  | .ldsp t b x z => some (0x94000000 + t.toNat * 262144 + b.toNat * 4096 + x.toNat * 32 + z.toNat * 4)
  | .stsp t b x z => some (0x96000000 + t.toNat * 262144 + b.toNat * 4096 + x.toNat * 32 + z.toNat * 4)
  | .ldacq t b x c => some (0x98000000 + t.toNat * 262144 + b.toNat * 4096 + x.toNat * 32 + c.toNat * 4)
  | .strel t b x c => some (0x9A000000 + t.toNat * 262144 + b.toNat * 4096 + x.toNat * 32 + c.toNat * 4)
  | .atomAdd t b x c => some (0x9C000000 + t.toNat * 262144 + b.toNat * 4096 + x.toNat * 32 + c.toNat * 4)
  | .atomMin t b x c => some (0x9C000001 + t.toNat * 262144 + b.toNat * 4096 + x.toNat * 32 + c.toNat * 4)
  | .atomMax t b x c => some (0x9C000002 + t.toNat * 262144 + b.toNat * 4096 + x.toNat * 32 + c.toNat * 4)
  | .atomExch t b x c => some (0x9C000003 + t.toNat * 262144 + b.toNat * 4096 + x.toNat * 32 + c.toNat * 4)
  | .atombAnd t b x c => some (0x9E000000 + t.toNat * 262144 + b.toNat * 4096 + x.toNat * 32 + c.toNat * 4)
  | .atombOr t b x c => some (0x9E000001 + t.toNat * 262144 + b.toNat * 4096 + x.toNat * 32 + c.toNat * 4)
  | .atombXor t b x c => some (0x9E000002 + t.toNat * 262144 + b.toNat * 4096 + x.toNat * 32 + c.toNat * 4)
  | .atombFadd t b x c => some (0x9E000003 + t.toNat * 262144 + b.toNat * 4096 + x.toNat * 32 + c.toNat * 4)
  | .cas t b x c => some (0xA0000000 + t.toNat * 262144 + b.toNat * 4096 + x.toNat * 32 + c.toNat * 4)
  | .mredAdd t b x c => some (0xA2000000 + t.toNat * 262144 + b.toNat * 4096 + x.toNat * 32 + c.toNat * 4)
  | .mredFadd t b x c => some (0xA2000001 + t.toNat * 262144 + b.toNat * 4096 + x.toNat * 32 + c.toNat * 4)
  | .mredMin t b x c => some (0xA2000002 + t.toNat * 262144 + b.toNat * 4096 + x.toNat * 32 + c.toNat * 4)
  | .mredMax t b x c => some (0xA2000003 + t.toNat * 262144 + b.toNat * 4096 + x.toNat * 32 + c.toNat * 4)
  | .ordap t b c => some (0xA4000FE0 + t.toNat * 262144 + b.toNat * 4096 + c.toNat * 4)
  | .mrlookVector d a b => some (0xA6000000 + d.toNat * 131072 + a.toNat * 1024 + b.toNat * 8)
  | .mrlookScalar d a => some (0xA70003F8 + d.toNat * 131072 + a.toNat * 1024)
  | .mrset a b => some (0xA9000000 + a.toNat * 1024 + b.toNat * 8)
  | .mrclr b => some (0xAB000000 + b.toNat * 8)
  | .sld t b z h => some (0xAC000FE0 + t.toNat * 262144 + b.toNat * 4096 + z.toNat * 4 + h.toNat)
  | .sst t b z h => some (0xAE000FE0 + t.toNat * 262144 + b.toNat * 4096 + z.toNat * 4 + h.toNat)
  | .pref b x h => some (0xB0000000 + b.toNat * 4096 + x.toNat * 32 + h.toNat)
  | .hmk k a => some (0xB8000000 + k.toNat * 16384 + a.toNat * 128)
  | .hmkGet d k => some (0xB8000001 + d.toNat * 262144 + k.toNat * 16384)
  | .crc a e n y x => some (0xBA000000 + a.toNat * 128 + e.toNat * 64 + n.toNat * 4 + y.toNat * 2 + x.toNat)
  | .crtTile k a e n => some (0xBC000000 + k.toNat * 16384 + a.toNat * 128 + e.toNat * 64 + n.toNat * 4)
  | .crtTr k a e n => some (0xBC000001 + k.toNat * 16384 + a.toNat * 128 + e.toNat * 64 + n.toNat * 4)
  | .crtGather k a e n => some (0xBC000002 + k.toNat * 16384 + a.toNat * 128 + e.toNat * 64 + n.toNat * 4)
  | .crtDeq t f k a e n => some (0xBC000003 + t.toNat * 4194304 + f.toNat * 262144 + k.toNat * 16384 + a.toNat * 128 + e.toNat * 64 + n.toNat * 4)
  | .lgt a e n z => some (0xBE000000 + a.toNat * 128 + e.toNat * 64 + n.toNat * 4 + z.toNat)
  | .lsc a e n z => some (0xC0000000 + a.toNat * 128 + e.toNat * 64 + n.toNat * 4 + z.toNat)
  | .pilStart a e n => some (0xC2000000 + a.toNat * 128 + e.toNat * 64 + n.toNat * 4)
  | .pilNext => some (0xC2000001)
  | .pilStop => some (0xC2000002)
  | .rcb k n => some (0xC4000000 + k.toNat * 16384 + n.toNat)
  | .rcw a n => some (0xC6000000 + a.toNat * 128 + n.toNat)
  | .ccw a c => some (0xC8000000 + a.toNat * 128 + c.toNat)
  | .fenceAcq s => some (0xCA000000 + s.toNat * 4)
  | .fenceRel s => some (0xCA000001 + s.toNat * 4)
  | .fenceAcqrel s => some (0xCA000002 + s.toNat * 4)
  | .fenceSc s => some (0xCA000003 + s.toNat * 4)
  | .fencerAcq k m s => some (0xCC000000 + k.toNat * 16384 + m.toNat * 128 + s.toNat)
  | .fencerRel k m s => some (0xCC000008 + k.toNat * 16384 + m.toNat * 128 + s.toNat)
  | .fencerAcqrel k m s => some (0xCC000010 + k.toNat * 16384 + m.toNat * 128 + s.toNat)
  | .cyield a c => some (0xCE000000 + a.toNat * 128 + c.toNat)
  | .ldc d k a z => some (0xD0000000 + d.toNat * 262144 + k.toNat * 16384 + a.toNat * 128 + z.toNat)
  | .stc d k a z => some (0xD2000000 + d.toNat * 262144 + k.toNat * 16384 + a.toNat * 128 + z.toNat)
  | .chq d k a => some (0xD4000000 + d.toNat * 262144 + k.toNat * 16384 + a.toNat * 128)
  | .chfree d k a => some (0xD6000000 + d.toNat * 262144 + k.toNat * 16384 + a.toNat * 128)
  | .chfreeRet k a => some (0xD6000001 + k.toNat * 16384 + a.toNat * 128)
  | .clbinv k s => some (0xD8000000 + k.toNat * 16384 + s.toNat)
  | .clbinvTile k a s => some (0xD8000008 + k.toNat * 16384 + a.toNat * 128 + s.toNat)
  | .berth => some (0xDA000000)
  | .mfst a => some (0xDD000000 + a.toNat * 1024)
  | .tideWait s a => some (0xDE000000 + s.toNat * 16777216 + a.toNat * 1024)
  | .tideAge d => some (0xDE000001 + d.toNat * 131072)
  | .tideMark d => some (0xDF000002 + d.toNat * 131072)
  | .br p n o => some (0xE0000000 + p.toNat * 2097152 + n.toNat * 1048576 + o.toNat)
  | .jmp a => some (0xE3000000 + a.toNat * 1024)
  | .call o => some (0xE4000000 + o.toNat)
  | .ret a => some (0xE7000000 + a.toNat * 1024)
  | .join => some (0xE8000000)
  | .regang => some (0xE8000001)
  | .bar a => some (0xEA000000 + a.toNat * 1024)
  | .barc a => some (0xEA000001 + a.toNat * 1024)
  | .arrive a => some (0xEA000002 + a.toNat * 1024)
  | .await a b => some (0xEA000003 + a.toNat * 1024 + b.toNat * 8)
  | .exit => some (0xEC000000)
  | .rsr s d i => some (0xEE000000 + s.toNat * 16777216 + d.toNat * 131072 + i.toNat)
  | .wsrTrim d => some (0xF1000000 + d.toNat * 131072)
  | .wsrSrkey d => some (0xF000000A + d.toNat * 131072)
  | .wsrFpflags d => some (0xF100000B + d.toNat * 131072)
  | .trap c => some (0xF2000000 + c.toNat)
  | .trapif p c => some (0xF2000100 + p.toNat * 1024 + c.toNat)
  | .brk c => some (0xF4000000 + c.toNat)
  | .lnch d a b => some (0xF7000000 + d.toNat * 131072 + a.toNat * 1024 + b.toNat * 8)
  | .ctxNew p b d => some (0x0000000B + p.toNat * 1048576 + b.toNat * 32768 + d.toNat * 128)
  | .ctxNewRoot p b d => some (0x0000000B + p.toNat * 1048576 + b.toNat * 32768 + d.toNat * 128)
  | .ctxGrant b c d => some (0x0000100B + b.toNat * 1048576 + c.toNat * 32768 + d.toNat * 128)
  | .ctxRevoke b c d => some (0x0000200B + b.toNat * 1048576 + c.toNat * 32768 + d.toNat * 128)
  | .ctxRevokeCold b c d => some (0x0000200B + b.toNat * 1048576 + c.toNat * 32768 + d.toNat * 128)
  | .ctxGo c d => some (0x0000300B + c.toNat * 32768 + d.toNat * 128)
  | .ctxHaltQuery m c d => some (0x0200300B + m.toNat * 1048576 + c.toNat * 32768 + d.toNat * 128)
  | .ctxHaltSoft m c d => some (0x0200300B + m.toNat * 1048576 + c.toNat * 32768 + d.toNat * 128)
  | .ctxHaltForced m c d => some (0x0200300B + m.toNat * 1048576 + c.toNat * 32768 + d.toNat * 128)
  | .ctxBudget b c d => some (0x0000400B + b.toNat * 1048576 + c.toNat * 32768 + d.toNat * 128)
  | .ctxScope s c d => some (0x0000500B + s.toNat * 1048576 + c.toNat * 32768 + d.toNat * 128)
  | .tlbinvVirtual a c => some (0x0000600B + a.toNat * 1048576 + c.toNat * 32768)
  | .tlbinvFrames a c => some (0x0000600B + a.toNat * 1048576 + c.toNat * 32768)
  | .tlbfence => some (0x0000700B)
  | .cyieldResume => none
  | .refillCheck => none
  | .loadSector => none
  | .engineCommandComplete => none
  | .pilotNotice => none
  | .epochMarker => none
  | .hostLinkWrite => none
  | .quayLinkWrite => none
  | .doorbell => none
  | .leaseQuantumBoundary => none
  | .launchAccept => none
  | .crewPlace => none
  | .crewEnd => none
  | .launchComplete => none
  | .retryTimer => none
  | .pendingRecordWrite => none
  | .barrierTimeout => none
  | .collectionWindowClose => none
  | .haltComplete => none
  | .graceTimerExpiry => none
  | .killTimerExpiry => none
  | .budgetExhausted => none
  | .framePull => none
  | .revocationEnd => none
  | .tlbfenceRetire => none
  | .patrolScrub => none
  | .deviceReset => none
  | .imageFetched => none
  | .imageFetchTimeout => none
  | .stageReady => none
  | .stageReadyTimeout => none
  | .minimalModeRetry => none
  | .measurementReport => none
  | .securitySensor => none
  | .powerRemoved => none
  | .managementRequest => none
  | .illegalInstruction => none
  | .instructionFetchFault => none
  | .engineAccessFault => none

end Sys2Proof
end

