-- ==== Sys2Proof/Machine/Fetch.lean ====
section
/-!
DEFINITION. Instruction fetch of gangs and harts (02 R34-R36, 16 R319; log 9).
-/
namespace Sys2Proof.Machine

/-- The word a gang's core fetches, through the context's translation with execute permission; else the fault: its cause, the
address its record gives, the level, and the context in whose ring the record starts. An address with any of bits [63:48] set
is PROTECTION. -/
def State.fetch (s : State) (core ctx : Nat) (pc : DWord) : Except (Trap × DWord × Nat × Nat) Nat × State :=
  if 2 ^ 48 ≤ pc.toNat then (.error (.protection, pc, 0, ctx), s)
  else
    match s.translate core ctx pc.toNat .fetch with
    | (.error f, s1) => (.error (f.cause, f.addr, f.level, f.ring), s1)
    | (.ok (.device ..), s1) => (.ok 0, s1)
    | (.ok (.mem a), s1) =>
      match s1.badSector a 4 with
      | some _ => (.error (.memoryUncorrectable, pc - BitVec.ofNat 64 (pc.toNat % 32), 0, ctx), s1)
      | none => (.ok (s1.read a 4), s1)

end Sys2Proof.Machine
end

