-- ==== Sys2Proof/Machine/Modify.lean ====
section
/-!
DEFINITION. The modifier word and the instruction after it, as one instruction (02 R46-R49).
-/
namespace Sys2Proof.Machine

/-- What an eligible instruction does under a modifier; none where it is not eligible (02 R46). -/
def modified (m : Modifier) (i : Instr) : Option (State → Result) :=
  match i with
  | .fadd d a b => some (faddWith (some m) d a b)
  | .fsub d a b => some (fsubWith (some m) d a b)
  | .fmul d a b => some (fmulWith (some m) d a b)
  | .fma d a b => some (fmaWith (some m) d a b)
  | .fms d a b => some (fmsWith (some m) d a b)
  | .fnma d a b => some (fnmaWith (some m) d a b)
  | .fmin d a b => some (fminWith (some m) d a b)
  | .fmax d a b => some (fmaxWith (some m) d a b)
  | .fminnum d a b => some (fminnumWith (some m) d a b)
  | .fmaxnum d a b => some (fmaxnumWith (some m) d a b)
  | .fdiv d a b => some (fdivWith (some m) d a b)
  | .fsqrt d a => some (fsqrtWith (some m) d a)
  | .frcp d a => some (frcpWith (some m) d a)
  | .frsq d a => some (frsqWith (some m) d a)
  | .fexp2 d a => some (fexp2With (some m) d a)
  | .flog2 d a => some (flog2With (some m) d a)
  | .fsin d a => some (fsinWith (some m) d a)
  | .fcos d a => some (fcosWith (some m) d a)
  | .frint d a => some (frintWith (some m) d a)
  | .ffloor d a => some (ffloorWith (some m) d a)
  | .cvt d a f => some (cvtWith (some m) d a f)
  | .cvtf d a => some (cvtfWith (some m) d a)
  | .cvtfU d a => some (cvtfUWith (some m) d a)
  | .dot2 d a b => some (dot2With (some m) d a b)
  | .dot4 d a b => some (dot4With (some m) d a b)
  | .dot8 d a b => some (dot8With (some m) d a b)
  | .fscale d a b => some (fscaleWith (some m) d a b)
  | .adrain k a r z h p => some (adrainWith (some m) k a r z h p)
  | _ => none

/-- The modifier of a word's fields: `s` saturate, `c` clamp, `n` negate, `u` absolute, `e` the signed scale, `o` the rounding
override, `t` the tag (02 R45). -/
def Modifier.of (s c n u : Bool) (e : BitVec 6) (o : BitVec 3) (t : BitVec 8) : Modifier where
  saturate := s
  clamp := c
  negate := n
  absolute := u
  scale := e.toInt
  override := o.toNat
  tag := t.toNat

/-- `modifier` (02 R46-R49): it fetches the next word, and the pair executes as one instruction of two words; where that word is
not eligible the modifier word is illegal. -/
def execModifier (s_ : Bool) (c : Bool) (n : Bool) (u : Bool) (e : BitVec 6) (o : BitVec 3) (t : BitVec 8) (s : State) :
    Result :=
  gate s (fun _ => {}) fun g =>
    if o.toNat = 7 ∨ (s_ ∧ c) then s.trap g .illegalInstruction
    else
      match s.fetch (coreOf s.gang) g.ctx (g.pc s.group + 4) with
      | (.error f, s1) => fetchStop s1 g f
      | (.ok w, s1) =>
        match decode w with
        | .error _ => s1.trap g .illegalInstruction
        | .ok i =>
          match modified (Modifier.of s_ c n u e o t) i with
          | none => s1.trap g .illegalInstruction
          | some f => f s1

end Sys2Proof.Machine
end

