-- ==== Sys2Proof/Machine/Refill.lean ====
section
/-!
DEFINITION. Lane refill: the manifest, `berth`, the check with its episodes and passes, the drain, and the tidemark (12 R269-R289).
-/
namespace Sys2Proof.Machine

/-! ### The manifest (12 R271, R272) -/

/-- Some gang of the crew is in refill mode. -/
def State.refilling (s : State) (c : Crew) : Bool :=
  c.gangs.any fun key =>
    match s.gangs.find key with
    | none => false
    | some g => g.refill.isSome

/-- The manifest is finished: its tidemark equals its count and no gang of the crew is in refill mode (12 R272). -/
def State.manifestFree (s : State) (c : Crew) : Bool :=
  match c.manifest with
  | none => true
  | some m => m.tidemark == m.count.toNat && !s.refilling c

/-- `mfst` (12 R271, R272, R280). -/
def execMfst (a : BitVec 7) (s : State) : Result :=
  gate s (fun _ => { s := [a.toNat, a.toNat + 1, a.toNat + 2] }) fun g =>
    match s.crews.find g.crew with
    | none => .fault .noIssuer
    | some crew =>
      let m : Manifest :=
        { first := g.sreg a.toNat, count := g.sreg (a.toNat + 1), stride := g.sreg (a.toNat + 2), next := 0, tidemark := 0,
          retired := [], drew := none }
      if g.refill.isSome then s.trap g .manifestFault
      else if s.manifestFree crew then (s.setCrew g.crew { crew with manifest := some m }).finish g
      else
        match crew.manifest with
        | none => s.finish g
        | some old =>
          if old.first = m.first ∧ old.count = m.count ∧ old.stride = m.stride then s.finish g
          else s.trap g .manifestFault

/-! ### `berth` (12 R273, R274) -/

/-- The gang with every slice out of the current step. -/
def Gang.parkSlices (g : Gang) : Gang :=
  { g with slices := g.slices.map fun sl =>
      { sl with stack := [], status := .finished, parked := false, yielded := none } }

/-- The states of the lanes, where `f` gives those of the listed ones. -/
def Gang.mapLanes (g : Gang) (f : Nat → LaneState → LaneState) : Gang :=
  { g with refill := g.refill.map fun r => { r with lanes := r.lanes.mapIdx f } }

/-- `berth` in a gang that is not in refill mode (12 R273). -/
def enterRefill (s : State) (g : Gang) (crew : Crew) : Result :=
  if !crew.record.refill || s.manifestFree crew || g.parted then s.trap g .manifestFault
  else
    let active := g.active s.group
    let saved := g.slices.map fun sl => if sl.live then { sl with pc := g.pc s.group + 4 } else sl
    let lanes := (List.range g.width).map fun l => if active.contains l then LaneState.fresh else .outside
    let g1 := { g with words := g.words + 1, lastGroup := s.group }.parkSlices
    .next (s.setGang s.gang { g1 with refill := some { step := .check, lanes := lanes, saved := saved } })

/-- The bits of a slice among a list of lanes. -/
def sliceMask (lanes : List Nat) (j : Nat) : BitVec 4 :=
  (List.range 4).foldl (fun m i => if lanes.contains (4 * j + i) then m ||| BitVec.twoPow 4 i else m) 0

/-- `berth` (12 R273, R274). -/
def execBerth (s : State) : Result :=
  gate s (fun _ => {}) fun g =>
    match s.crews.find g.crew, g.refill with
    | none, _ => .fault .noIssuer
    | some crew, none => enterRefill s g crew
    | some _, some r =>
      let active := g.active s.group
      let g1 :=
        if r.step == .retire then g
        else g.mapLanes fun l x => if active.contains l then .berthed else x
      let s1 := s.proceed g1 1 fun j sl => sl.dropLanes (sliceMask active j) .finished (s.stepEnd g)
      match s1.gangs.find s.gang with
      | none => .next s1
      | some g2 => .next (s1.setGang s.gang (g2.releaseParked (s.stepEnd g)))

/-! ### The steps of refill mode (12 R277-R283) -/

/-- The lanes of a gang in a state. -/
def Refill.inState (r : Refill) (x : LaneState) : List Nat :=
  (List.range r.lanes.length).filter fun l => r.lanes[l]? == some x

/-- A step starts: each slice holding some of the lanes stands at the entry with one entry on its stack, in one group; one that
stands where the step ends has arrived there (12 R275, R277). -/
def Gang.startStep (g : Gang) (step : RefillStep) (entry : DWord) (stop : Option DWord) (lanes : List Nat) : Gang :=
  let leader := (lanes.map (· / 4)).headD 0
  let start (j : Nat) (sl : Slice) : Slice :=
    let m := sliceMask lanes j
    if m = 0 then { sl with stack := [], status := .finished, parked := false, yielded := none }
    else
      let sl1 : Slice :=
        { pc := entry, stack := [{ mask := m, kind := .running, addr := 0 }], status := .running, group := leader,
          parked := false, yielded := none }
      match stop with
      | none => sl1
      | some a => Slice.arrive a 1 sl1
  { g with
    slices := g.slices.mapIdx start
    refill := g.refill.map fun r => { r with step := step } }

/-- Puts an age into the ascending set of retired ages. -/
def insertAge (x : Nat) : List Nat → List Nat
  | [] => [x]
  | y :: rest => if x < y then x :: y :: rest else if x = y then y :: rest else y :: insertAge x rest

/-- The tidemark passes the retired ages that follow it (12 R282). -/
def raiseTide : Nat → List Nat → Nat × List Nat
  | t, [] => (t, [])
  | t, x :: rest => if x = t then raiseTide (t + 1) rest else (t, x :: rest)

/-- Ages retire at once, and the tidemark follows (12 R277, R282). -/
def Manifest.retire (m : Manifest) (ages : List Nat) : Manifest :=
  let (t, left) := raiseTide m.tidemark (ages.foldl (fun acc x => insertAge x acc) m.retired)
  { m with tidemark := t, retired := left }

/-- The draw window is closed (12 R283). -/
def Manifest.closed (m : Manifest) : Bool := decide (m.next < m.count.toNat) && decide (m.tidemark + 1024 < m.next)

/-- The draw: fresh lanes in ascending order take ages, find the manifest exhausted, or find the window closed (12 R277,
R283). What is answered: the manifest, the lanes that drew with their ages, and the lanes that become idle. -/
def Manifest.draw (m : Manifest) : List Nat → Manifest × List (Nat × Nat) × List Nat
  | [] => (m, [], [])
  | l :: rest =>
    if m.count.toNat ≤ m.next then
      let (m1, drawn, idle) := m.draw rest
      (m1, drawn, l :: idle)
    else if m.tidemark + 1024 < m.next then m.draw rest
    else
      let (m1, drawn, idle) := Manifest.draw { m with next := m.next + 1 } rest
      (m1, (l, m.next) :: drawn, idle)

/-- The drain: refill mode ends, and each slice resumes as the entering `berth` saved it (12 R279). -/
def Gang.drain (g : Gang) (r : Refill) : Gang :=
  { g with slices := r.saved, refill := none, ages := g.ages.map fun _ => 0xFFFFFFFF }

/-- The end of a retire step: a release at crew scope, the ages of the berthed lanes retire, and these become fresh (12 R277). -/
def State.retireStep (s : State) (key : Nat) (g : Gang) (r : Refill) (crew : Crew) (m : Manifest) : State :=
  let b := r.inState .berthed
  let s1 := s.release (coreOf key)
  let g1 := g.released s1 (coreOf key)
  let ages := b.map fun l => (g.ages.getD l 0xFFFFFFFF).toNat
  let g2 : Gang :=
    { g1.mapLanes (fun l x => if b.contains l then .fresh else x) with
      ages := g1.ages.mapIdx fun l x => if b.contains l then 0xFFFFFFFF else x }
  (s1.setCrew g.crew { crew with manifest := some (m.retire ages) }).setGang key g2

/-- The draw of an episode, and its prologue step where it gave a lane an age (12 R277, R278). -/
def State.drawStep (s : State) (key : Nat) : State :=
  match s.gangs.find key with
  | none => s
  | some g =>
    match g.refill, s.crews.find g.crew with
    | some r, some crew =>
      match crew.manifest with
      | none => s
      | some m =>
        let (m0, drawn, idle) := m.draw (r.inState .fresh)
        let m1 : Manifest := { m0 with drew := some (s.clock, g.index) }
        let g1 : Gang :=
          { g.mapLanes (fun l x =>
              if idle.contains l then .idle else if drawn.any (fun d => d.1 == l) then .working else x) with
            ages := g.ages.mapIdx fun l x =>
              match drawn.find? fun d => d.1 == l with
              | none => x
              | some d => BitVec.ofNat 32 d.2 }
        let g2 :=
          if drawn.isEmpty then { g1.parkSlices with refill := g1.refill.map fun r => { r with step := .check } }
          else g1.startStep .prologue crew.record.prologue (some crew.record.body) (drawn.map fun d => d.1)
        (s.setCrew g.crew { crew with manifest := some m1 }).setGang key g2
    | _, _ => s

/-- The lanes that an episode would take, as the check counts them: the berthed ones, and the fresh ones while the draw window is open (12
R277, R283). -/
def Refill.ready (r : Refill) (m : Manifest) : Nat :=
  (r.inState .berthed).length + if m.closed then 0 else (r.inState .fresh).length

/-- The gang's step of refill mode is over, so that a check of it acts now: it may issue, no slice of it runs, and after a retire step its
logged stores have been replayed (12 R277; 03 R81). -/
def State.stepOver (s : State) (key : Nat) (g : Gang) (r : Refill) : Bool :=
  g.stop.isNone && ((s.context g.ctx).any fun c => c.mayIssue) && !(g.slices.any fun sl => sl.status == .running) &&
    !(r.step == .retire && s.hasLogged key)

/-- A gang of its crew with a higher index has drawn in this clock: what the gang draws, it draws in a later one (12 R278). -/
def Manifest.past (m : Manifest) (clock index : Nat) : Bool := m.drew.any fun d => d.1 == clock && decide (index < d.2)

/-- The check of a gang asks for a draw: its retire step has ended, or it begins an episode without one (12 R277). -/
def State.asksDraw (s : State) (key : Nat) (g : Gang) : Bool :=
  match g.refill, (s.crews.find g.crew).bind fun c => c.manifest.map fun m => (c, m) with
  | some r, some (crew, m) =>
    s.stepOver key g r &&
      (r.step == .retire ||
        (decide (0 < r.ready m) && (r.inState .berthed).isEmpty &&
          (decide (crew.record.threshold ≤ r.ready m) || (r.inState .working).isEmpty)))
  | _, _ => false

/-- The check of a gang would draw in this clock. -/
def State.wouldDraw (s : State) (key : Nat) (g : Gang) : Bool :=
  s.asksDraw key g && !(((s.crews.find g.crew).bind fun c => c.manifest).any fun m => m.past s.clock g.index)

/-- The gang asks for a draw, and does not draw now: a gang of its crew with a lower index would draw in this clock too, which goes first, or
one with a higher index has (12 R278). -/
def State.drawsLater (s : State) (key : Nat) (g : Gang) : Bool :=
  s.asksDraw key g &&
    (!s.wouldDraw key g || s.gangs.any fun e => e.2.crew == g.crew && decide (e.2.index < g.index) && s.wouldDraw e.1 e.2)

/-- The check (12 R277): it drains, waits for the draw window, starts a retire step or a draw, or starts a body pass. -/
def State.check (s : State) (key : Nat) : State :=
  match s.gangs.find key with
  | none => s
  | some g =>
    match g.refill, s.crews.find g.crew with
    | some r, some crew =>
      match crew.manifest with
      | none => s
      | some m =>
        let berthed := r.inState .berthed
        let fresh := r.inState .fresh
        let working := r.inState .working
        let b := r.ready m
        let f := if m.closed then fresh.length else 0
        let at_ (g : Gang) : Gang := { g with refill := g.refill.map fun r => { r with step := .check } }
        if b = 0 ∧ working.isEmpty ∧ f = 0 then s.setGang key (g.drain r)
        else if b = 0 ∧ working.isEmpty then s.setGang key (at_ g)
        else if crew.record.threshold ≤ b ∨ working.isEmpty then
          if berthed.isEmpty then s.drawStep key
          else s.setGang key (g.startStep .retire crew.record.retire none berthed)
        else s.setGang key (g.startStep .bodyPass crew.record.body (some crew.record.retire) working)
    | _, _ => s

/-- REFILL_CHECK (12 R277): a step has ended, or the draw window has opened. After a retire step the gang's side-logged stores
must have been replayed, as its release covers them (03 R81). Of gangs of one crew that would draw in the same clock the one of lower
index draws first (R278). Subject: `who` is the gang. -/
def execRefillCheck (s : State) : Result :=
  let key := s.subject.who
  match s.gangs.find key with
  | none => .next s
  | some g =>
    match g.refill, s.crews.find g.crew with
    | some r, some crew =>
      if !s.stepOver key g r || s.drawsLater key g then .next s
      else
        match crew.manifest, r.step with
        | some m, .retire => .next ((s.retireStep key g r crew m).drawStep key)
        | _, _ => .next (s.check key)
    | _, _ => .next s

/-! ### The tidemark (12 R281) -/

/-- The crew's tidemark passes a target. -/
def Crew.tidePasses (c : Crew) (target : Word) : Bool :=
  match c.manifest with
  | none => true
  | some m => decide (target.toNat < m.tidemark) || m.tidemark == m.count.toNat

/-- `tide.wait` (12 R281): when its wait ends it is an acquire at crew scope. -/
def execTideWait (s_ : Bool) (a : BitVec 7) (s : State) : Result :=
  gate s (fun _ => if s_ then { s := [a.toNat] } else { v := [a.toNat] }) fun g =>
    match s.crews.find g.crew with
    | none => .fault .noIssuer
    | some crew =>
      let targets := if s_ then [g.sreg a.toNat] else (g.active s.group).map fun l => g.vreg a.toNat l
      if targets.all crew.tidePasses then s.finish (g.merge (s.applied (dieOf (coreOf s.gang)))) else s.waiting

/-- The item of an age (12 R271); 0 for a lane that holds no iteration. -/
def Crew.item (c : Crew) (age : Word) : Word :=
  match c.manifest with
  | none => 0
  | some m => if age = 0xFFFFFFFF then 0 else m.first + m.stride * age

/-- `tide.age` (12 R281). -/
def execTideAge (d : BitVec 7) (s : State) : Result :=
  gate s (fun _ => { v := [d.toNat, d.toNat + 1], even := [d.toNat] }) fun g =>
    match s.crews.find g.crew with
    | none => .fault .noIssuer
    | some crew =>
      s.finish (g.setVpair d.toNat (g.active s.group) fun l =>
        pairOf (g.ages.getD l 0xFFFFFFFF) (crew.item (g.ages.getD l 0xFFFFFFFF)))

/-- `tide.mark` (12 R281). -/
def execTideMark (d : BitVec 7) (s : State) : Result :=
  gate s (fun _ => { s := [d.toNat] }) fun g => s.finish (g.setS d.toNat (lowWord (s.special g 9)))

end Sys2Proof.Machine
end

