-- ==== Sys2Proof/Machine/Dispatch.lean ====
section
/-!
DEFINITION. Every instruction and event of the opcode table has its meaning. An instruction of a gang acts for the gang and group that
`State.gang` and `State.group` name, an instruction of a hart for `State.hart`, and an event concerns `State.subject`.
-/
namespace Sys2Proof.Machine

def exec (i : Instr) (s : State) : Host.Outcome State Fault Refusal :=
  match i with
  | .modifier st c n u e o t => Sys2Proof.Machine.execModifier st c n u e o t s
  | .iadd st d a b => Sys2Proof.Machine.execIadd st d a b s
  | .isub st d a b => Sys2Proof.Machine.execIsub st d a b s
  | .imul st d a b => Sys2Proof.Machine.execImul st d a b s
  | .imulhi st d a b => Sys2Proof.Machine.execImulhi st d a b s
  | .imulhu st d a b => Sys2Proof.Machine.execImulhu st d a b s
  | .imad st d a b => Sys2Proof.Machine.execImad st d a b s
  | .iquo st d a b => Sys2Proof.Machine.execIquo st d a b s
  | .iquoU st d a b => Sys2Proof.Machine.execIquoU st d a b s
  | .irem st d a b => Sys2Proof.Machine.execIrem st d a b s
  | .iremU st d a b => Sys2Proof.Machine.execIremU st d a b s
  | .imin st d a b => Sys2Proof.Machine.execImin st d a b s
  | .iminU st d a b => Sys2Proof.Machine.execIminU st d a b s
  | .imax st d a b => Sys2Proof.Machine.execImax st d a b s
  | .imaxU st d a b => Sys2Proof.Machine.execImaxU st d a b s
  | .iabs st d a => Sys2Proof.Machine.execIabs st d a s
  | .ineg st d a => Sys2Proof.Machine.execIneg st d a s
  | .and st d a b => Sys2Proof.Machine.execAnd st d a b s
  | .andn st d a b => Sys2Proof.Machine.execAndn st d a b s
  | .or st d a b => Sys2Proof.Machine.execOr st d a b s
  | .orn st d a b => Sys2Proof.Machine.execOrn st d a b s
  | .xor st d a b => Sys2Proof.Machine.execXor st d a b s
  | .xnor st d a b => Sys2Proof.Machine.execXnor st d a b s
  | .not st d a => Sys2Proof.Machine.execNot st d a s
  | .shl st d a b => Sys2Proof.Machine.execShl st d a b s
  | .shr st d a b => Sys2Proof.Machine.execShr st d a b s
  | .sar st d a b => Sys2Proof.Machine.execSar st d a b s
  | .rol st d a b => Sys2Proof.Machine.execRol st d a b s
  | .popc st d a => Sys2Proof.Machine.execPopc st d a s
  | .clz st d a => Sys2Proof.Machine.execClz st d a s
  | .ctz st d a => Sys2Proof.Machine.execCtz st d a s
  | .brev st d a => Sys2Proof.Machine.execBrev st d a s
  | .bfe st d a b => Sys2Proof.Machine.execBfe st d a b s
  | .bfeS st d a b => Sys2Proof.Machine.execBfeS st d a b s
  | .bfi st d a b => Sys2Proof.Machine.execBfi st d a b s
  | .sel d a b => Sys2Proof.Machine.execSel d a b s
  | .icmpEq st d a b => Sys2Proof.Machine.execIcmpEq st d a b s
  | .icmpNe st d a b => Sys2Proof.Machine.execIcmpNe st d a b s
  | .icmpLt st d a b => Sys2Proof.Machine.execIcmpLt st d a b s
  | .icmpLe st d a b => Sys2Proof.Machine.execIcmpLe st d a b s
  | .icmpLtu st d a b => Sys2Proof.Machine.execIcmpLtu st d a b s
  | .icmpLeu st d a b => Sys2Proof.Machine.execIcmpLeu st d a b s
  | .icmpTst st d a b => Sys2Proof.Machine.execIcmpTst st d a b s
  | .icmpTstz st d a b => Sys2Proof.Machine.execIcmpTstz st d a b s
  | .add64 st d a b => Sys2Proof.Machine.execAdd64 st d a b s
  | .sub64 st d a b => Sys2Proof.Machine.execSub64 st d a b s
  | .mul64 st d a b => Sys2Proof.Machine.execMul64 st d a b s
  | .mul64U st d a b => Sys2Proof.Machine.execMul64U st d a b s
  | .lea st d a b n => Sys2Proof.Machine.execLea st d a b n s
  | .addi st d a imm => Sys2Proof.Machine.execAddi st d a imm s
  | .andi st d a imm => Sys2Proof.Machine.execAndi st d a imm s
  | .ori st d a imm => Sys2Proof.Machine.execOri st d a imm s
  | .xori st d a imm => Sys2Proof.Machine.execXori st d a imm s
  | .shli st d a n => Sys2Proof.Machine.execShli st d a n s
  | .shri st d a n => Sys2Proof.Machine.execShri st d a n s
  | .sari st d a n => Sys2Proof.Machine.execSari st d a n s
  | .roli st d a n => Sys2Proof.Machine.execRoli st d a n s
  | .movi st d imm => Sys2Proof.Machine.execMovi st d imm s
  | .movhi st d imm => Sys2Proof.Machine.execMovhi st d imm s
  | .mov st d a => Sys2Proof.Machine.execMov st d a s
  | .bcast d a => Sys2Proof.Machine.execBcast d a s
  | .rdlane d a b => Sys2Proof.Machine.execRdlane d a b s
  | .wrlane d a b => Sys2Proof.Machine.execWrlane d a b s
  | .pand d a b => Sys2Proof.Machine.execPand d a b s
  | .por d a b => Sys2Proof.Machine.execPor d a b s
  | .pxor d a b => Sys2Proof.Machine.execPxor d a b s
  | .pnot d a => Sys2Proof.Machine.execPnot d a s
  | .ptest d a => Sys2Proof.Machine.execPtest d a s
  | .pcnt d a => Sys2Proof.Machine.execPcnt d a s
  | .pfirst d a => Sys2Proof.Machine.execPfirst d a s
  | .pbits d a => Sys2Proof.Machine.execPbits d a s
  | .pset d a => Sys2Proof.Machine.execPset d a s
  | .iadds st d a b => Sys2Proof.Machine.execIadds st d a b s
  | .iaddus st d a b => Sys2Proof.Machine.execIaddus st d a b s
  | .isubs st d a b => Sys2Proof.Machine.execIsubs st d a b s
  | .isubus st d a b => Sys2Proof.Machine.execIsubus st d a b s
  | .fadd d a b => Sys2Proof.Machine.execFadd d a b s
  | .fsub d a b => Sys2Proof.Machine.execFsub d a b s
  | .fmul d a b => Sys2Proof.Machine.execFmul d a b s
  | .fma d a b => Sys2Proof.Machine.execFma d a b s
  | .fms d a b => Sys2Proof.Machine.execFms d a b s
  | .fnma d a b => Sys2Proof.Machine.execFnma d a b s
  | .fmin d a b => Sys2Proof.Machine.execFmin d a b s
  | .fmax d a b => Sys2Proof.Machine.execFmax d a b s
  | .fminnum d a b => Sys2Proof.Machine.execFminnum d a b s
  | .fmaxnum d a b => Sys2Proof.Machine.execFmaxnum d a b s
  | .fdiv d a b => Sys2Proof.Machine.execFdiv d a b s
  | .fsqrt d a => Sys2Proof.Machine.execFsqrt d a s
  | .frcp d a => Sys2Proof.Machine.execFrcp d a s
  | .frsq d a => Sys2Proof.Machine.execFrsq d a s
  | .fexp2 d a => Sys2Proof.Machine.execFexp2 d a s
  | .flog2 d a => Sys2Proof.Machine.execFlog2 d a s
  | .fsin d a => Sys2Proof.Machine.execFsin d a s
  | .fcos d a => Sys2Proof.Machine.execFcos d a s
  | .frint d a => Sys2Proof.Machine.execFrint d a s
  | .ffloor d a => Sys2Proof.Machine.execFfloor d a s
  | .fcmpEq d a b => Sys2Proof.Machine.execFcmpEq d a b s
  | .fcmpNe d a b => Sys2Proof.Machine.execFcmpNe d a b s
  | .fcmpLt d a b => Sys2Proof.Machine.execFcmpLt d a b s
  | .fcmpLe d a b => Sys2Proof.Machine.execFcmpLe d a b s
  | .fcmpUn d a b => Sys2Proof.Machine.execFcmpUn d a b s
  | .fcmpOrd d a b => Sys2Proof.Machine.execFcmpOrd d a b s
  | .fcmpLtu d a b => Sys2Proof.Machine.execFcmpLtu d a b s
  | .fcmpLeu d a b => Sys2Proof.Machine.execFcmpLeu d a b s
  | .fclass d a => Sys2Proof.Machine.execFclass d a s
  | .cvt d a f => Sys2Proof.Machine.execCvt d a f s
  | .cvti d a => Sys2Proof.Machine.execCvti d a s
  | .cvtiU d a => Sys2Proof.Machine.execCvtiU d a s
  | .cvtf d a => Sys2Proof.Machine.execCvtf d a s
  | .cvtfU d a => Sys2Proof.Machine.execCvtfU d a s
  | .pack16 d a b => Sys2Proof.Machine.execPack16 d a b s
  | .pack8 d a b => Sys2Proof.Machine.execPack8 d a b s
  | .pack4 d a b => Sys2Proof.Machine.execPack4 d a b s
  | .unpack16 d a b => Sys2Proof.Machine.execUnpack16 d a b s
  | .unpack8 d a b => Sys2Proof.Machine.execUnpack8 d a b s
  | .unpack4 d a b => Sys2Proof.Machine.execUnpack4 d a b s
  | .xhist a b => Sys2Proof.Machine.execXhist a b s
  | .dot2 d a b => Sys2Proof.Machine.execDot2 d a b s
  | .dot4 d a b => Sys2Proof.Machine.execDot4 d a b s
  | .dot8 d a b => Sys2Proof.Machine.execDot8 d a b s
  | .rng d a b => Sys2Proof.Machine.execRng d a b s
  | .shflIdx d a b => Sys2Proof.Machine.execShflIdx d a b s
  | .shflUp d a b => Sys2Proof.Machine.execShflUp d a b s
  | .shflDown d a b => Sys2Proof.Machine.execShflDown d a b s
  | .shflXor d a b => Sys2Proof.Machine.execShflXor d a b s
  | .shflBcast d a b => Sys2Proof.Machine.execShflBcast d a b s
  | .vredFadd d a => Sys2Proof.Machine.execVredFadd d a s
  | .vredFmax d a => Sys2Proof.Machine.execVredFmax d a s
  | .vredFmin d a => Sys2Proof.Machine.execVredFmin d a s
  | .vredIadd d a => Sys2Proof.Machine.execVredIadd d a s
  | .vredImax d a => Sys2Proof.Machine.execVredImax d a s
  | .vredImin d a => Sys2Proof.Machine.execVredImin d a s
  | .vscanFadd d a => Sys2Proof.Machine.execVscanFadd d a s
  | .vscanIadd d a => Sys2Proof.Machine.execVscanIadd d a s
  | .vscanIaddx d a => Sys2Proof.Machine.execVscanIaddx d a s
  | .trim a => Sys2Proof.Machine.execTrim a s
  | .fscale d a b => Sys2Proof.Machine.execFscale d a b s
  | .mma c k a b l m => Sys2Proof.Machine.execMma c k a b l m s
  | .mmas c k a b l m => Sys2Proof.Machine.execMmas c k a b l m s
  | .azero k => Sys2Proof.Machine.execAzero k s
  | .aload k a g => Sys2Proof.Machine.execAload k a g s
  | .adrain k a r z h g => Sys2Proof.Machine.execAdrain k a r z h g s
  | .apeerSend k a => Sys2Proof.Machine.execApeerSend k a s
  | .apeerRecv k a => Sys2Proof.Machine.execApeerRecv k a s
  | .arowGet d k a => Sys2Proof.Machine.execArowGet d k a s
  | .arowPut d k a => Sys2Proof.Machine.execArowPut d k a s
  | .convoy imm => Sys2Proof.Machine.execConvoy imm s
  | .ld t b x z h => Sys2Proof.Machine.execLd t b x z h s
  | .st t b x z h => Sys2Proof.Machine.execSt t b x z h s
  | .ldsp t b x z => Sys2Proof.Machine.execLdsp t b x z s
  | .stsp t b x z => Sys2Proof.Machine.execStsp t b x z s
  | .ldacq t b x c => Sys2Proof.Machine.execLdacq t b x c s
  | .strel t b x c => Sys2Proof.Machine.execStrel t b x c s
  | .atomAdd t b x c => Sys2Proof.Machine.execAtomAdd t b x c s
  | .atomMin t b x c => Sys2Proof.Machine.execAtomMin t b x c s
  | .atomMax t b x c => Sys2Proof.Machine.execAtomMax t b x c s
  | .atomExch t b x c => Sys2Proof.Machine.execAtomExch t b x c s
  | .atombAnd t b x c => Sys2Proof.Machine.execAtombAnd t b x c s
  | .atombOr t b x c => Sys2Proof.Machine.execAtombOr t b x c s
  | .atombXor t b x c => Sys2Proof.Machine.execAtombXor t b x c s
  | .atombFadd t b x c => Sys2Proof.Machine.execAtombFadd t b x c s
  | .cas t b x c => Sys2Proof.Machine.execCas t b x c s
  | .mredAdd t b x c => Sys2Proof.Machine.execMredAdd t b x c s
  | .mredFadd t b x c => Sys2Proof.Machine.execMredFadd t b x c s
  | .mredMin t b x c => Sys2Proof.Machine.execMredMin t b x c s
  | .mredMax t b x c => Sys2Proof.Machine.execMredMax t b x c s
  | .ordap t b c => Sys2Proof.Machine.execOrdap t b c s
  | .mrlookVector d a b => Sys2Proof.Machine.execMrlookVector d a b s
  | .mrlookScalar d a => Sys2Proof.Machine.execMrlookScalar d a s
  | .mrset a b => Sys2Proof.Machine.execMrset a b s
  | .mrclr b => Sys2Proof.Machine.execMrclr b s
  | .sld t b z h => Sys2Proof.Machine.execSld t b z h s
  | .sst t b z h => Sys2Proof.Machine.execSst t b z h s
  | .pref b x h => Sys2Proof.Machine.execPref b x h s
  | .hmk k a => Sys2Proof.Machine.execHmk k a s
  | .hmkGet d k => Sys2Proof.Machine.execHmkGet d k s
  | .crc a e n y x => Sys2Proof.Machine.execCrc a e n y x s
  | .crtTile k a e n => Sys2Proof.Machine.execCrtTile k a e n s
  | .crtTr k a e n => Sys2Proof.Machine.execCrtTr k a e n s
  | .crtGather k a e n => Sys2Proof.Machine.execCrtGather k a e n s
  | .crtDeq t f k a e n => Sys2Proof.Machine.execCrtDeq t f k a e n s
  | .lgt a e n z => Sys2Proof.Machine.execLgt a e n z s
  | .lsc a e n z => Sys2Proof.Machine.execLsc a e n z s
  | .pilStart a e n => Sys2Proof.Machine.execPilStart a e n s
  | .rcb k n => Sys2Proof.Machine.execRcb k n s
  | .rcw a n => Sys2Proof.Machine.execRcw a n s
  | .ccw a c => Sys2Proof.Machine.execCcw a c s
  | .fenceAcq st => Sys2Proof.Machine.execFenceAcq st s
  | .fenceRel st => Sys2Proof.Machine.execFenceRel st s
  | .fenceAcqrel st => Sys2Proof.Machine.execFenceAcqrel st s
  | .fenceSc st => Sys2Proof.Machine.execFenceSc st s
  | .fencerAcq k m st => Sys2Proof.Machine.execFencerAcq k m st s
  | .fencerRel k m st => Sys2Proof.Machine.execFencerRel k m st s
  | .fencerAcqrel k m st => Sys2Proof.Machine.execFencerAcqrel k m st s
  | .cyield a c => Sys2Proof.Machine.execCyield a c s
  | .ldc d k a z => Sys2Proof.Machine.execLdc d k a z s
  | .stc d k a z => Sys2Proof.Machine.execStc d k a z s
  | .chq d k a => Sys2Proof.Machine.execChq d k a s
  | .chfree d k a => Sys2Proof.Machine.execChfree d k a s
  | .chfreeRet k a => Sys2Proof.Machine.execChfreeRet k a s
  | .clbinv k st => Sys2Proof.Machine.execClbinv k st s
  | .clbinvTile k a st => Sys2Proof.Machine.execClbinvTile k a st s
  | .mfst a => Sys2Proof.Machine.execMfst a s
  | .tideWait st a => Sys2Proof.Machine.execTideWait st a s
  | .tideAge d => Sys2Proof.Machine.execTideAge d s
  | .tideMark d => Sys2Proof.Machine.execTideMark d s
  | .br p n o => Sys2Proof.Machine.execBr p n o s
  | .jmp a => Sys2Proof.Machine.execJmp a s
  | .call o => Sys2Proof.Machine.execCall o s
  | .ret a => Sys2Proof.Machine.execRet a s
  | .bar a => Sys2Proof.Machine.execBar a s
  | .barc a => Sys2Proof.Machine.execBarc a s
  | .arrive a => Sys2Proof.Machine.execArrive a s
  | .await a b => Sys2Proof.Machine.execAwait a b s
  | .rsr st d imm => Sys2Proof.Machine.execRsr st d imm s
  | .wsrTrim d => Sys2Proof.Machine.execWsrTrim d s
  | .wsrSrkey d => Sys2Proof.Machine.execWsrSrkey d s
  | .wsrFpflags d => Sys2Proof.Machine.execWsrFpflags d s
  | .trap c => Sys2Proof.Machine.execTrap c s
  | .trapif p c => Sys2Proof.Machine.execTrapif p c s
  | .brk c => Sys2Proof.Machine.execBrk c s
  | .lnch d a b => Sys2Proof.Machine.execLnch d a b s
  | .ctxNew p b d => Sys2Proof.Machine.execCtxNew p b d s
  | .ctxNewRoot p b d => Sys2Proof.Machine.execCtxNewRoot p b d s
  | .ctxGrant b c d => Sys2Proof.Machine.execCtxGrant b c d s
  | .ctxRevoke b c d => Sys2Proof.Machine.execCtxRevoke b c d s
  | .ctxRevokeCold b c d => Sys2Proof.Machine.execCtxRevokeCold b c d s
  | .ctxGo c d => Sys2Proof.Machine.execCtxGo c d s
  | .ctxHaltQuery m c d => Sys2Proof.Machine.execCtxHaltQuery m c d s
  | .ctxHaltSoft m c d => Sys2Proof.Machine.execCtxHaltSoft m c d s
  | .ctxHaltForced m c d => Sys2Proof.Machine.execCtxHaltForced m c d s
  | .ctxBudget b c d => Sys2Proof.Machine.execCtxBudget b c d s
  | .ctxScope st c d => Sys2Proof.Machine.execCtxScope st c d s
  | .tlbinvVirtual a c => Sys2Proof.Machine.execTlbinvVirtual a c s
  | .tlbinvFrames a c => Sys2Proof.Machine.execTlbinvFrames a c s
  | .nop => Sys2Proof.Machine.execNop s
  | .convoyNone => Sys2Proof.Machine.execConvoyNone s
  | .pilNext => Sys2Proof.Machine.execPilNext s
  | .pilStop => Sys2Proof.Machine.execPilStop s
  | .cyieldResume => Sys2Proof.Machine.execCyieldResume s
  | .berth => Sys2Proof.Machine.execBerth s
  | .refillCheck => Sys2Proof.Machine.execRefillCheck s
  | .join => Sys2Proof.Machine.execJoin s
  | .regang => Sys2Proof.Machine.execRegang s
  | .exit => Sys2Proof.Machine.execExit s
  | .loadSector => Sys2Proof.Machine.execLoadSector s
  | .engineCommandComplete => Sys2Proof.Machine.execEngineCommandComplete s
  | .pilotNotice => Sys2Proof.Machine.execPilotNotice s
  | .epochMarker => Sys2Proof.Machine.execEpochMarker s
  | .hostLinkWrite => Sys2Proof.Machine.execHostLinkWrite s
  | .quayLinkWrite => Sys2Proof.Machine.execQuayLinkWrite s
  | .doorbell => Sys2Proof.Machine.execDoorbell s
  | .leaseQuantumBoundary => Sys2Proof.Machine.execLeaseQuantumBoundary s
  | .launchAccept => Sys2Proof.Machine.execLaunchAccept s
  | .crewPlace => Sys2Proof.Machine.execCrewPlace s
  | .crewEnd => Sys2Proof.Machine.execCrewEnd s
  | .launchComplete => Sys2Proof.Machine.execLaunchComplete s
  | .retryTimer => Sys2Proof.Machine.execRetryTimer s
  | .pendingRecordWrite => Sys2Proof.Machine.execPendingRecordWrite s
  | .barrierTimeout => Sys2Proof.Machine.execBarrierTimeout s
  | .collectionWindowClose => Sys2Proof.Machine.execCollectionWindowClose s
  | .haltComplete => Sys2Proof.Machine.execHaltComplete s
  | .graceTimerExpiry => Sys2Proof.Machine.execGraceTimerExpiry s
  | .killTimerExpiry => Sys2Proof.Machine.execKillTimerExpiry s
  | .budgetExhausted => Sys2Proof.Machine.execBudgetExhausted s
  | .framePull => Sys2Proof.Machine.execFramePull s
  | .revocationEnd => Sys2Proof.Machine.execRevocationEnd s
  | .tlbfenceRetire => Sys2Proof.Machine.execTlbfenceRetire s
  | .patrolScrub => Sys2Proof.Machine.execPatrolScrub s
  | .tlbfence => Sys2Proof.Machine.execTlbfence s
  | .deviceReset => Sys2Proof.Machine.execDeviceReset s
  | .imageFetched => Sys2Proof.Machine.execImageFetched s
  | .imageFetchTimeout => Sys2Proof.Machine.execImageFetchTimeout s
  | .stageReady => Sys2Proof.Machine.execStageReady s
  | .stageReadyTimeout => Sys2Proof.Machine.execStageReadyTimeout s
  | .minimalModeRetry => Sys2Proof.Machine.execMinimalModeRetry s
  | .measurementReport => Sys2Proof.Machine.execMeasurementReport s
  | .securitySensor => Sys2Proof.Machine.execSecuritySensor s
  | .powerRemoved => Sys2Proof.Machine.execPowerRemoved s
  | .managementRequest => Sys2Proof.Machine.execManagementRequest s
  | .illegalInstruction => Sys2Proof.Machine.execIllegalInstruction s
  | .instructionFetchFault => Sys2Proof.Machine.execInstructionFetchFault s
  | .engineAccessFault => Sys2Proof.Machine.execEngineAccessFault s

end Sys2Proof.Machine
end

