-- ==== Sys2Proof/Machine/Timing.lean ====
section
/-!
DEFINITION. How long instructions occupy their ports, the energy and time they draw, and what the passing of clocks does (01 R9; 03
R71; 08 R214; 11 R250, R263; 16 R341, R342).
-/
namespace Sys2Proof.Machine

/-! ### Occupancy of the issue port (01 R9, 08 R214, 11 R250) -/

/-- Clocks of an instruction: for each block of 16 lanes, and once. A clock for a whole gang has no block part. -/
structure Cost where
  block : Nat
  once : Nat
  /-- Twice the clocks where the element format is FP64 (01 R9). -/
  float : Bool := false
  deriving DecidableEq, Repr

/-- An instruction that acts on gang state. -/
def Cost.gang : Cost := { block := 0, once := 1 }

/-- An instruction that acts on lanes. -/
def Cost.lanes : Cost := { block := 1, once := 0 }

/-- An instruction on 64-bit elements: twice the clocks (01 R9). -/
def Cost.wide : Cost := { block := 2, once := 0 }

/-- An instruction on elements of the launch's format. -/
def Cost.element : Cost := { block := 1, once := 0, float := true }

/-- Scalar or vector form. -/
def Cost.form (scalar : Bool) : Cost := if scalar then Cost.gang else Cost.lanes

/-- The cost of an access of size code z (02 R38). An access of 128 bits has twice the clocks of a narrow one too (DESIGN CHOICE, log 40: 01
R9 doubles 64-bit elements and is silent on it). -/
def Cost.access (z : BitVec 3) : Cost := if 3 ≤ z.toNat then Cost.wide else Cost.lanes

/-- The cost of an instruction word (01 R9, 08 R214). What is not listed acts on gang state, `pset` among it (DESIGN CHOICE, log 40: it
has S = 1 and writes a bit in each lane). -/
def costOf (i : Instr) : Cost :=
  match i with
  | .iadd s .. | .isub s .. | .imul s .. | .imulhi s .. | .imulhu s .. | .imad s .. | .iquo s .. | .iquoU s .. | .irem s ..
  | .iremU s .. | .imin s .. | .iminU s .. | .imax s .. | .imaxU s .. | .iabs s .. | .ineg s .. | .and s .. | .andn s ..
  | .or s .. | .orn s .. | .xor s .. | .xnor s .. | .not s .. | .shl s .. | .shr s .. | .sar s .. | .rol s .. | .popc s ..
  | .clz s .. | .ctz s .. | .brev s .. | .bfe s .. | .bfeS s .. | .bfi s .. | .icmpEq s .. | .icmpNe s .. | .icmpLt s ..
  | .icmpLe s .. | .icmpLtu s .. | .icmpLeu s .. | .icmpTst s .. | .icmpTstz s .. | .addi s .. | .andi s .. | .ori s ..
  | .xori s .. | .shli s .. | .shri s .. | .sari s .. | .roli s .. | .movi s .. | .movhi s .. | .mov s .. | .iadds s ..
  | .iaddus s .. | .isubs s .. | .isubus s .. | .tideWait s .. | .rsr s .. => Cost.form s
  | .add64 s .. | .sub64 s .. | .mul64 s .. | .mul64U s .. | .lea s .. => if s then Cost.gang else Cost.wide
  | .sel .. | .bcast .. | .wrlane .. | .pand .. | .por .. | .pxor .. | .pnot .. | .rng .. | .shflIdx .. | .shflUp ..
  | .shflDown .. | .shflXor .. | .shflBcast .. | .pack16 .. | .pack8 .. | .pack4 .. | .unpack16 .. | .unpack8 .. | .unpack4 ..
  | .dot2 .. | .dot4 .. | .dot8 .. | .tideAge .. | .wsrSrkey .. | .mrlookVector .. | .pref .. | .ordap .. | .trim ..
  | .ldacq .. | .strel .. | .atomAdd .. | .atomMin .. | .atomMax .. | .atomExch .. | .atombAnd ..
  | .atombOr .. | .atombXor .. | .atombFadd .. | .cas .. | .mredAdd .. | .mredFadd .. | .mredMin .. | .mredMax .. => Cost.lanes
  | .fadd .. | .fsub .. | .fmul .. | .fma .. | .fms .. | .fnma .. | .fmin .. | .fmax .. | .fminnum .. | .fmaxnum .. | .frint ..
  | .ffloor .. | .fcmpEq .. | .fcmpNe .. | .fcmpLt .. | .fcmpLe .. | .fcmpUn .. | .fcmpOrd .. | .fcmpLtu .. | .fcmpLeu ..
  | .fclass .. | .cvt .. | .cvti .. | .cvtiU .. | .cvtf .. | .cvtfU .. | .fscale .. | .xhist .. => Cost.element
  | .fdiv .. | .fsqrt .. | .frcp .. | .frsq .. | .fexp2 .. | .flog2 .. | .fsin .. | .fcos .. => { Cost.element with block := 4 }
  | .vredFadd .. | .vredFmax .. | .vredFmin .. | .vscanFadd .. => { Cost.element with once := 4 }
  | .vredIadd .. | .vredImax .. | .vredImin .. | .vscanIadd .. | .vscanIaddx .. => { Cost.lanes with once := 4 }
  | .stc _ _ _ z | .ldc _ _ _ z => Cost.access (z.setWidth 3)
  | .chq .. => Cost.wide
  | .ld _ _ _ z _ | .st _ _ _ z _ => Cost.access z
  | .ldsp _ _ _ z | .stsp _ _ _ z => Cost.access z
  | _ => Cost.gang

/-- The aligned blocks of 16 lanes that hold a slice of the group; all of the gang's where it has not parted (11 R250). -/
def Gang.blocks (g : Gang) (group : Nat) : Nat :=
  if g.parted then ((g.members group).map (· / 4)).eraseDups.length else g.width / 16

/-- Clocks for which an instruction holds its port (01 R9, 11 R250). The format of the trim's slot decides whether they are doubled, also
for a `cvt` whose source slot is FP64 (DESIGN CHOICE, log 40: 01 R9 and 08 R214 do not say which of the two formats decides). -/
def State.occupancy (s : State) (g : Gang) (group : Nat) (i : Instr) : Nat :=
  let c := costOf i
  let times := if c.float && s.elementCode g == 8 then 2 else 1
  if c.block = 0 then c.once
  else if g.parted then g.blocks group * (times * (c.block + c.once))
  else times * (g.blocks group * c.block + c.once)

/-! ### The scratchpad port (03 R71) -/

/-- The 4-byte words of scratchpad that an instruction moves, one for each lane and word (03 R71). -/
def State.padWords (s : State) (g : Gang) (group : Nat) (i : Instr) : List Nat :=
  let access (b x : Nat) (z : BitVec 3) : List Nat :=
    (g.active group).flatMap fun l =>
      (List.range (2 ^ (z.toNat - 2))).map fun k => g.padOffset b x l / 4 + k
  match i with
  | .ldsp _ b x z => access b.toNat x.toNat z
  | .stsp _ b x z => access b.toNat x.toNat z
  | .xhist a b => (histBins (s.elementCode g) g group a.toNat).map fun k => (g.sreg b.toNat).toNat / 4 + k
  | _ => []

/-- The instruction uses its partition's scratchpad port. -/
def usesPad (i : Instr) : Bool :=
  match i with
  | .ldsp .. => true
  | .stsp .. => true
  | .xhist .. => true
  | _ => false

/-- Clocks for which an access holds the scratchpad port: by sixteen words, or by the busiest of the 32 banks (03 R71). -/
def padClocks (words : List Nat) : Nat :=
  let bank (b : Nat) : Nat := (words.eraseDups.filter fun w => w % 32 == b).length
  max (max ((words.length + 15) / 16) (((List.range 32).map bank).foldl max 0)) 1

/-! ### Budgets drawn (16 R341, R342; log 21) -/

/-- The bytes of global memory that an instruction of a gang moves: where, and how many; an atomic reads and writes its word. Chart accesses
tell the turn what they move as they make each access (`State.chartMoves`). -/
def State.gangMoves (s : State) (g : Gang) (group : Nat) (i : Instr) : List (Nat × Nat) :=
  let lanes (b : BitVec 6) (x : BitVec 7) (n : Nat) : List (Nat × Nat) :=
    let t : State := { s with group := group }
    (t.globalLanes g b.toNat x.toNat).map fun l => (l.2, n)
  let pair (b : BitVec 6) : Nat := (g.spair (2 * b.toNat)).toNat
  match i with
  | .ld _ b x z _ | .st _ b x z _ => lanes b x (2 ^ z.toNat)
  | .sld _ b z _ | .sst _ b z _ => [(pair b, 2 ^ z.toNat)]
  | .ldacq _ b x _ | .strel _ b x _ => lanes b x 4
  | .atomAdd _ b x _ | .atomMin _ b x _ | .atomMax _ b x _ | .atomExch _ b x _ | .atombAnd _ b x _ | .atombOr _ b x _
  | .atombXor _ b x _ | .atombFadd _ b x _ | .cas _ b x _ | .mredAdd _ b x _ | .mredFadd _ b x _ | .mredMin _ b x _
  | .mredMax _ b x _ => lanes b x 8
  | .ordap _ b _ => [(pair b, 16)]
  | .lnch _ _ b => [((s.context g.ctx).map fun c => c.queueTable + 64 * (g.sreg b.toNat).toNat).toList.map fun a => (a, 100)].flatten
  | _ => []

/-- The energy of bytes of global memory that a core of a die moves for a context, in femtojoules (16 R341). -/
def State.movesEnergy (s : State) (die ctx : Nat) (moves : List (Nat × Nat)) : Nat :=
  (moves.map fun m =>
    if 2 ^ 48 ≤ m.1 then 0
    else
      match s.translateFresh ctx m.1 .fetch, s.translateFresh ctx m.1 .load with
      | .ok (.mem a, _), _ => m.2 * memoryWeight s.serial (some die) a
      | _, .ok (.mem a, _) => m.2 * memoryWeight s.serial (some die) a
      | _, _ => 0).sum

/-- The bytes fetched for the instruction at an address: both words of a modified pair (02 R45). -/
def State.fetchedBytes (s : State) (g : Gang) (pc : DWord) : Nat :=
  match (s.fetch (coreOf s.gang) g.ctx pc).1 with
  | .error _ => 4
  | .ok w =>
    match decode w with
    | .ok (.modifier ..) => 8
    | _ => 4

/-- The energy of an instruction of a gang, its words' fetch with it, in femtojoules (16 R341). -/
def State.issueEnergy (s : State) (g : Gang) (group : Nat) (i : Instr) (clocks : Nat) : Nat :=
  let pc := g.pc group
  40000 * clocks + 5000 * (s.padWords g group i).length +
    s.movesEnergy (dieOf (coreOf s.gang)) g.ctx ((pc.toNat, s.fetchedBytes g pc) :: s.gangMoves g group i)

/-- Multiply-accumulates of a joint instruction: the present ones of each row (16 R341). -/
def jointMacs (sparse : Bool) (slot : BitVec 16) (rows : Nat) (scalars : List Word) : Nat :=
  rows * ((List.range (depthOf slot)).map fun k =>
    ((List.range 128).filter fun n => blockPresent sparse slot scalars k n).length).sum

/-- Femtojoules of one multiply-accumulate of a class (16 R341). -/
def macEnergy (slot : BitVec 16) : Nat :=
  match formatClass (slotA slot) with
  | 1 => 150
  | 2 => 75
  | _ => 600

/-- What an engine command moves: words of scratchpad, and bytes of global memory where they lie (04 R104-R108; 09 R232, R234). -/
def State.commandMoves (s : State) (c : Command) : Nat × List (Nat × Nat) :=
  let side (pad : Bool) (a n : Nat) : Nat × List (Nat × Nat) := if pad then ((n + 3) / 4, []) else (0, [(a, n)])
  let both (x y : Nat × List (Nat × Nat)) : Nat × List (Nat × Nat) := (x.1 + y.1, x.2 ++ y.2)
  let rows (pad : Bool) (a pitch count bytes : Nat) : Nat × List (Nat × Nat) :=
    (List.range count).foldl (fun acc i => both acc (side pad (a + i * pitch) bytes)) (0, [])
  match c.work with
  | .copy sp dp src dst n => both (side sp src.toNat n) (side dp dst.toNat n)
  | .tile mode h _ _ r0 c0 m n _ index =>
    let size := formatWidth (handleFormat h) / 8
    let present := min n (handleColumns h - c0)
    let row (i : Nat) : Nat := if mode = 2 then numberOf (s.padBytes c.crew (index + 4 * i) 4) else r0 + i
    let read := ((List.range m).filter fun i => decide (row i < handleRows h)).foldl (fun acc i =>
      both acc (side (handlePad h) (handleBase h + row i * handlePitch h + c0 * size) (present * size))) (0, [])
    both read ((m * n * size + 3) / 4 + (if mode = 2 then m else 0), [])
  | .dequant f _ h _ _ page _ n _ =>
    let channels := handleColumns h
    (n * channels * (formatWidth f / 8) / 4, [(page.toNat, 16 + 2 * channels + n * channels / 2)])
  | .gather size index n base _ | .scatter size index n base _ =>
    (n + n * size / 4, (List.range n).map fun i => (s.elementAddress c size index base i, size))
  | .joint sparse _ _ slot _ _ parts =>
    let w := ((s.crews.find c.crew).map fun x => x.record.slot slot).getD 0
    (((jointBytes sparse w ((parts.head?.map fun p => p.scalars).getD [])).map fun e => e.hi + 1 - e.lo).sum / 4, [])
  | .aload _ pad src pitch _ count => rows pad src.toNat pitch count 512
  | .adrain _ pad hist _ _ dst pitch _ count _ _ slot _ _ _ =>
    both (rows pad dst.toNat pitch count (128 * formatWidth (slotA slot) / 8)) (if hist then 68 else 0, [])
  | _ => (0, [])

/-- The bytes that a receive takes over the fabric: the rows of the senders on other dies (09 R237). -/
def State.fabricBytes (s : State) (c : Command) (rows : Nat) (sends : List Nat) : Nat :=
  let away := (s.bank c.core c.ctx).offers.filter fun o =>
    sends.contains o.cmd && (s.context c.ctx).any fun x => dieOf (x.cores.getD o.core c.core) != dieOf c.core
  away.length * (rows * 512)

/-- The energy of an engine command, in femtojoules (16 R341). -/
def State.commandEnergy (s : State) (c : Command) : Nat :=
  let fabric : Nat :=
    match c.work with
    | .peerRecv _ rows sends _ => s.fabricBytes c rows sends
    | _ => 0
  let macs : Nat :=
    match c.work with
    | .joint sparse _ _ slot rows _ parts =>
      let w := ((s.crews.find c.crew).map fun x => x.record.slot slot).getD 0
      jointMacs sparse w rows ((parts.head?.map fun p => p.scalars).getD []) * macEnergy w
    | _ => 0
  let moves := s.commandMoves c
  macs + 8000 * fabric + 5000 * moves.1 + s.movesEnergy (dieOf c.core) c.ctx moves.2

/-- The energy of the commands that an event has brought to their end is drawn. -/
def State.drawCommands (old new : State) : State :=
  (old.commands.filter fun c => !c.done && !(new.commands.any fun x => x.id == c.id && !x.done)).foldl
    (fun acc c => acc.draw c.ctx 0 (old.commandEnergy c)) new

/-- The energy that the pilot's turn has taken is drawn: for the page whose header it has read, that and the whole page, and for a notice
it has written, four words of scratchpad (04 R110; 16 R341). -/
def State.drawPilot (old new : State) (key : Nat) : State :=
  match (old.gangs.find key).bind fun g => (old.pilotCommit g).chain.map fun c => (g.ctx, c) with
  | none => new
  | some (ctx, c) =>
    let after := (((new.gangs.find key).bind fun g => g.chain).map fun x => x.notices).getD []
    let read := c.notices.filter fun n =>
      !n.terminal && n.header.isNone && !(after.any fun m => m.is n && m.header.isNone)
    let written := c.notices.filter fun n => !after.any fun m => m.is n
    new.draw ctx 0 (5000 * (4 * written.length) +
      old.movesEnergy (dieOf (coreOf key)) ctx (read.map fun n => (n.page.toNat, 16 + n.pageSize)))

/-- The energy that an event has taken is drawn: of the commands it has ended, and of the pilot's work (16 R341). -/
def State.drawEvent (old new : State) (e : Instr) (x : Subject) : State :=
  let s1 := old.drawCommands new
  match e with
  | .pilotNotice => old.drawPilot s1 x.who
  | _ => s1

/-- The energy of the turn's accesses through charts is drawn: of descriptors, links, elements, pools and filled blocks, each where it was
made (16 R341; 17 R350, R355). -/
def State.drawCharts (s : State) : State :=
  s.chartMoves.foldl (fun acc m => acc.draw m.ctx 0 (s.movesEnergy (dieOf m.core) m.ctx [(m.va, m.bytes)])) { s with chartMoves := [] }

/-- The bytes that the replay of a side-log entry moves: a reduction reads and writes its word, and a chart store tells the turn what it
moves (16 R332). -/
def SideEntry.moves (e : SideEntry) : List (Nat × Nat) :=
  match e.op with
  | .store => [(e.addr.toNat, e.size)]
  | .chart .. => []
  | _ => [(e.addr.toNat, 2 * e.size)]

/-- The side-log entries that a turn has performed: those of gangs that still stand (16 R332). -/
def State.replayed (old new : State) : List (Nat × SideEntry) :=
  old.cores.flatMap fun e =>
    (e.2.sideLog.filter fun x => !(new.core e.1).sideLog.contains x && (new.gangs.find x.gang).isSome).map fun x => (e.1, x)

/-- The translations that a turn has filled, each by a walk: into a core's buffer, into a die's alone (the lighter's), or into a port's
(16 R325). -/
def State.filled (old new : State) : List TlbEntry :=
  let cores := new.cores.flatMap fun e => e.2.tlb.filter fun x => !(old.core e.1).tlb.contains x
  let dies := (List.range new.dies.length).flatMap fun d =>
    let held (s : State) : List TlbEntry := (s.dies[d]?.map fun y => y.tlb).getD []
    (held new).filter fun x => !(held old).contains x && !cores.contains x
  let ports := new.portTlbs.flatMap fun e => e.2.filter fun x => !((old.portTlbs.find e.1).getD []).contains x
  cores ++ dies ++ ports

/-- The energy that a turn's replays, walks and chart accesses have taken is drawn (16 R341). -/
def State.drawReplays (old new : State) : State :=
  let s1 := (old.replayed new).foldl (fun acc x =>
    acc.draw x.2.ctx 0 (old.movesEnergy (dieOf x.1) x.2.ctx x.2.moves)) new.drawCharts
  (old.filled new).foldl (fun acc e => acc.draw e.ctx 0 (8 * Config.walkReads old.serial * memoryWeight old.serial none 0)) s1

/-! ### Clocks (11 R263; 16 R341) -/

/-- The gang waits at a barrier whose time counts: its halt line is not raised (11 R263). Clocks in which `bar` or `barc` is held at issue for
its release do not count (DESIGN CHOICE, log 30: R263 counts the wait at the barrier, and the instruction has not yet arrived there). -/
def State.timed (s : State) (g : Gang) : Bool :=
  g.stop.isNone && !s.waitOver g && (match s.context g.ctx with
    | none => false
    | some c => c.mayIssue)

/-- Clocks pass: at the end of the clock that stands held accesses of ports are retried and free queue slots filled; waits at barriers are timed, and every context draws time for each core on which a crew of it is resident. -/
def State.elapse (s : State) (n : Nat) : State :=
  let s0 := s.retryPorts.endQueueClock
  let s1 : State :=
    { s0 with
      clock := s.clock + n
      gangs := s0.gangs.update fun _ g => if s.timed g then { g with waited := g.waited + n } else g }
  let cores (ctx : Nat) : Nat := ((s.crews.filter fun e => e.2.ctx == ctx).map fun e => e.1 / 8).eraseDups.length
  s0.contexts.foldl (fun acc e => if cores e.1 = 0 then acc else acc.draw e.1 (n * cores e.1) 0) s1

end Sys2Proof.Machine
end

