-- ==== Sys2Proof/Machine/Schedule.lean ====
section
/-!
DEFINITION. Turns: issue ports and their rotation, harts, events, clocks, and which turn comes next where the agenda names none (13
R306, R307; 11 R249; log 5). The meaning of an instruction is the parameter `run`.
-/
namespace Sys2Proof.Machine

/-! ### Issue ports (13 R306) -/

/-- Key of an issue port of a core. -/
def portKey (partition port : Nat) : Nat := partition * 2 + port

/-- Key of the scratchpad port of a partition (03 R71). -/
def padKey (partition : Nat) : Nat := 32 + partition

/-- A port of a core; one that has not been used is free. -/
def Core.port (c : Core) (key : Nat) : Port := (c.ports.find key).getD { last := 0, busy := 0 }

/-- Replaces a port of a core. -/
def State.setPort (s : State) (core key : Nat) (p : Port) : State :=
  s.setCore core { s.core core with ports := (s.core core).ports.put key p }

/-- The occupied positions of a port's rotation, beginning after the one that had the last turn (13 R306). -/
def State.rotation (s : State) (core partition port last : Nat) : List Nat :=
  let held := ([0, 2, 4, 6].map (· + port)).filter fun p => (s.gangs.find (core * 128 + partition * 8 + p)).isSome
  (held.filter fun p => decide (last ≤ p)) ++ held.filter fun p => decide (p < last)

/-- The gang's launch is reproducible (01 R25). -/
def State.repro (s : State) (key : Nat) : Bool :=
  match s.gangs.find key with
  | none => false
  | some g => s.isReproducible g

/-- The groups of a gang, named by their lowest slices, beginning after the one that last issued (11 R249). -/
def Gang.groups (g : Gang) : List Nat :=
  let all := (List.range g.slices.length).filter fun j =>
    match g.slices[j]? with
    | none => false
    | some sl => sl.status == .running && sl.group == j
  (all.filter fun j => decide (g.lastGroup < j)) ++ all.filter fun j => decide (j ≤ g.lastGroup)

/-- The group waits at `regang` (11 R251). -/
def Gang.atRegang (g : Gang) (group : Nat) : Bool := (g.slices[group]?).any fun sl => sl.parked

/-- The gangs and groups to which a turn may go, in order (13 R306, 11 R249). In a reproducible launch the slot goes to the next group
whether or not it is ready, so the order of its groups depends on the program and its data alone; a group that waits at `regang` is passed
over, since the others have to come there (DEDUCED, log 44). -/
def State.candidates (s : State) (core partition port last : Nat) : List (Nat × Nat) :=
  let order := (s.rotation core partition port last).map fun p => core * 128 + partition * 8 + p
  match order with
  | [] => []
  | owner :: others =>
    let groups (key : Nat) : List (Nat × Nat) := (((s.gangs.find key).map Gang.groups).getD []).map fun j => (key, j)
    if s.repro owner then
      ((groups owner).filter fun x => !((s.gangs.find owner).any fun g => g.atRegang x.2)).take 1
    else groups owner ++ (others.filter fun k => !s.repro k).flatMap groups

/-- The instruction whose occupancy a pair or word has: the modified one of a pair (02 R45). -/
def State.occupying (s : State) (g : Gang) (pc : DWord) (i : Instr) : Instr :=
  match i with
  | .modifier .. =>
    match (s.fetch (coreOf s.gang) g.ctx (pc + 4)).1 with
    | .error _ => i
    | .ok w => (decode w).toOption.getD i
  | _ => i

/-- The clock at which an instruction takes its scratchpad port: at once, but for `xhist`, which takes it after its own clocks (08 R214). -/
def State.padStart (s : State) (i : Instr) (clocks : Nat) : Nat :=
  match i with
  | .xhist .. => s.clock + clocks
  | _ => s.clock

/-- An issued instruction holds its ports and draws its energy (01 R9; 03 R71; 16 R341). `xhist` has its scratchpad port from its issue to
the end of its hold there, and every later access of the partition waits until then (DESIGN CHOICE, log 40: 08 R214 has it take the port
after its own clocks, and gives no arbitration for those). -/
def State.charge (before s : State) (g : Gang) (i : Instr) : State :=
  let key := before.gang
  let partition := key / 8 % 16
  let clocks := before.occupancy g before.group i
  let pk := portKey partition (key % 2)
  let s1 := s.setPort (coreOf key) pk { (s.core (coreOf key)).port pk with busy := before.clock + clocks }
  let s2 :=
    if usesPad i then
      s1.setPort (coreOf key) (padKey partition) { last := 0, busy := before.padStart i clocks + padClocks (before.padWords g before.group i) }
    else s1
  s2.draw g.ctx 0 (before.issueEnergy g before.group i clocks)

/-- The decoded instruction of the issuing gang runs. Where the scratchpad port is occupied a scratchpad access waits (03 R71). -/
def State.runDecoded (run : Instr → State → Result) (s : State) (g : Gang) (i : Instr) : Result :=
  let start := s.padStart i (s.occupancy g s.group i)
  if usesPad i && decide (start < ((s.core (coreOf s.gang)).port (padKey (s.gang / 8 % 16))).busy) then s.waiting
  else
    match run i s with
    | .next t => .next (if t.idle then t else s.charge t g (s.occupying g (g.pc s.group) i))
    | r => r

/-- A group of a gang issues: its word is fetched, decoded and run. A word that cannot be fetched is INSTRUCTION_FETCH_FAULT, and one
that stands for no instruction is ILLEGAL_INSTRUCTION (02 R35, R36, R53). -/
def State.issue (run : Instr → State → Result) (s : State) (key group : Nat) : Result :=
  let s0 : State := { s with gang := key, group := group, idle := false }
  match s0.gangs.find key with
  | none => s0.waiting
  | some g =>
    if (g.members group).isEmpty || !s0.mayIssue key g then s0.waiting
    else
      match s0.fetch (coreOf key) g.ctx (g.pc group) with
      | (.error f, s1) => run .instructionFetchFault { s1 with fetchFault := some f }
      | (.ok w, s1) =>
        match decode w with
        | .error _ => s1.runDecoded run g .illegalInstruction
        | .ok i => s1.runDecoded run g i

/-- The turn goes to the first of its candidates that is ready (13 R306). -/
def State.offer (run : Instr → State → Result) : List (Nat × Nat) → State → Result
  | [], s => s.waiting
  | (key, group) :: rest, s =>
    match s.issue run key group with
    | .next t => if t.idle then State.offer run rest t else .next t
    | r => r

/-- A port offers one turn, where it is free: the rotation moves past the owner, and a turn that nobody uses takes a clock (13
R306). -/
def State.portTurn (run : Instr → State → Result) (s : State) (core partition port : Nat) : Result :=
  let pk := portKey partition port
  let p := (s.core core).port pk
  match s.rotation core partition port p.last with
  | [] => s.waiting
  | owner :: _ =>
    if s.clock < p.busy then s.waiting
    else State.offer run (s.candidates core partition port p.last) (s.setPort core pk { last := owner + 1, busy := s.clock + 1 })

/-! ### Harts (16 R316, R335) -/

/-- Two bytes of a hart's code. -/
def State.fetchHalf (s : State) (ctx : Nat) (pc : DWord) : Option Nat :=
  if 2 ^ 48 ≤ pc.toNat then none
  else
    match s.translateFresh ctx pc.toNat .fetch with
    | .error _ => none
    | .ok (p, _) => some (numberOf (s.placeBytes p 2))

/-- The row of a context instruction's word that its operands select (16 R337, R340, R327; 19 R391). -/
def State.selectRow (s : State) (h : Hart) (i : Instr) : Instr :=
  match i with
  | .ctxNew p b d => if h.reg p = 0xFFFFFFFFFFFFFFFF then .ctxNewRoot p b d else i
  | .ctxHaltQuery m c d =>
    if h.reg m = 1 then .ctxHaltSoft m c d else if h.reg m = 2 then .ctxHaltForced m c d else i
  | .tlbinvVirtual a c => if (h.reg a).getLsbD 6 then .tlbinvFrames a c else i
  | .ctxRevoke b c d =>
    match s.blockBytes (s.callerOf s.hart) 1 (h.reg b).toNat with
    | .ok (k :: _) => if k = 6 then .ctxRevokeCold b c d else i
    | _ => i
  | _ => i

/-- The word reads the `time` CSR and writes no CSR: `csrrs`, `csrrc` or an immediate form of them with a zero source (21 R405; its
encoding is PRESUMED, of the RISC-V specification: log 23). -/
def readsTime (w : Nat) : Bool :=
  w % 128 == 0x73 && w / 2 ^ 20 == 0xC01 && w / 2 ^ 15 % 32 == 0 && [2, 3, 6, 7].contains (w / 2 ^ 12 % 8)

/-- The hart reads the global timestamp into a register (21 R405). -/
def State.readTime (s : State) (w : Nat) : Result :=
  let h := s.hartAt s.hart
  .next (s.setHart s.hart { h with x := Cells.set h.x (w / 128 % 32) (if w / 128 % 32 = 0 then 0 else BitVec.ofNat 64 s.timestamp), pc := h.pc + 4 })

/-- A hart executes one instruction: a context instruction, a read of the `time` CSR, or a word of custom-0 that stands for none, which is
an illegal instruction. RV64GC's own instructions are not given by the spec (log 23). Before the image has been checked no hart runs (21
R400). -/
def State.hartTurn (run : Instr → State → Result) (s0 : State) (n : Nat) : Result :=
  let s : State := { s0 with hart := n }
  let h := s.hartAt n
  let caller := s.callerOf n
  if 16 ≤ n ∨ h.fencing.isSome ∨ s.boot.phase = .fetching then s.waiting
  else
    match s.fetchHalf caller h.pc, s.fetchHalf caller (h.pc + 2) with
    | none, _ => s.hartExcept 12 h.pc
    | some lo, hi =>
      if lo % 4 ≠ 3 then .refused .riscvBase
      else
        match hi with
        | none => s.hartExcept 12 (h.pc + 2)
        | some x =>
          match decodeHart (lo + 65536 * x) with
          | .ok i => run (s.selectRow h i) s
          | .error .unassignedOpcode =>
            if readsTime (lo + 65536 * x) then s.readTime (lo + 65536 * x) else .refused .riscvBase
          | .error _ => s.illegal

/-! ### Events -/

/-- The instruction is an event: it comes about, and is not fetched. -/
def isEvent (i : Instr) : Bool :=
  match i with
  | .cyieldResume | .refillCheck | .loadSector | .engineCommandComplete | .pilotNotice | .epochMarker | .hostLinkWrite
  | .quayLinkWrite | .doorbell | .leaseQuantumBoundary | .launchAccept | .crewPlace | .crewEnd | .launchComplete | .retryTimer
  | .pendingRecordWrite | .barrierTimeout | .collectionWindowClose | .haltComplete | .graceTimerExpiry | .killTimerExpiry
  | .budgetExhausted | .framePull | .revocationEnd | .tlbfenceRetire | .patrolScrub | .deviceReset | .imageFetched
  | .imageFetchTimeout | .stageReady | .stageReadyTimeout | .minimalModeRetry | .measurementReport | .securitySensor
  | .powerRemoved | .managementRequest | .engineAccessFault => true
  | _ => false

/-- An event comes about; the energy of what it does is drawn (16 R341; log 15). -/
def State.happen (run : Instr → State → Result) (s : State) (e : Instr) (x : Subject) : Result :=
  if !isEvent e then s.waiting
  else
    match run e { s with subject := x } with
    | .next t => .next (s.drawEvent t e x)
    | r => r

/-! ### What comes next where the agenda is empty (log 5) -/

/-- A subject that is one number. -/
def Subject.one (n : Nat) : Subject := { Subject.none with who := n }

/-- A subject that is two numbers. -/
def Subject.two (n m : Nat) : Subject := { Subject.none with who := n, what := m }

/-- The events of gangs that may now come about. -/
def State.gangEvents (s : State) : List (Instr × Subject) :=
  s.gangs.flatMap fun e =>
    let key := e.1
    let g := e.2
    let runs := g.stop.isNone && s.enginesRun g.ctx
    let landing := (g.loads.find? fun l => !l.sectors.isEmpty).toList.map fun l => (Instr.loadSector, Subject.two key l.id)
    let yields := g.slices.filterMap fun sl =>
      match sl.yielded with
      | none => none
      | some y => if sl.status == .running && s.counter key g y.counter == 0 then some (Instr.cyieldResume, Subject.two key sl.group) else none
    let checks :=
      match g.refill, (s.crews.find g.crew).bind fun c => c.manifest with
      | some r, some m =>
        let waitsForWindow := m.closed && (r.inState .berthed).isEmpty && (r.inState .working).isEmpty && !(r.inState .fresh).isEmpty
        if !s.stepOver key g r || (r.step != .retire && waitsForWindow) || s.drawsLater key g then []
        else [(Instr.refillCheck, Subject.one key)]
      | _, _ => []
    let pilot :=
      match (s.pilotCommit g).chain.bind fun c => c.nextNotice false with
      | none => []
      | some n => if s.pilotMay key g.ctx n then [(Instr.pilotNotice, Subject.one key)] else []
    let late := if !s.waitOver g && decide (2 ^ 32 ≤ g.waited) then [(Instr.barrierTimeout, Subject.one key)] else []
    landing ++ pilot ++ (if runs then yields ++ checks ++ late else [])

/-- The events of contexts that may now come about. -/
def State.contextEvents (s : State) : List (Instr × Subject) :=
  s.contexts.flatMap fun e =>
    let n := e.1
    let c := e.2
    let resident := s.crews.any fun x => x.2.ctx == n || s.below x.2.ctx n
    let halts :=
      match c.halt with
      | none => []
      | some h =>
        (if s.haltReady n h then [(Instr.haltComplete, Subject.one n)] else []) ++
        (if h.expired true s.clock then [(Instr.killTimerExpiry, Subject.one n)] else []) ++
        (if h.expired false s.clock && resident then [(Instr.graceTimerExpiry, Subject.one n)] else [])
    let budget := if c.budget.exhausted && c.depth != 0 then [(Instr.budgetExhausted, Subject.one n)] else []
    let revocation :=
      match c.revocation with
      | none => []
      | some r => if s.landedBelow r.serial && (r.kind == 0 || s.haltsOver n) then [(Instr.revocationEnd, Subject.one n)] else []
    let pulls := if s.enginesRun n then
        (c.coldFrames.filter fun f =>
          (c.grants.get f).getLsbD 0 && (s.machineOf c.parent (((c.grants.get f).extractLsb 47 21).toNat * 0x200000)).isSome).map fun f => (Instr.framePull, Subject.two n f) else []
    let launches := if s.enginesRun n then
        (c.launches.filter fun l => !l.stopped && decide (l.record.crewCount.toNat ≤ l.crewsEnded)).map fun l =>
          (Instr.launchComplete, Subject.two n l.record.ident.toNat) else []
    halts ++ budget ++ revocation ++ pulls ++ launches

/-- The epoch marker that arrives next: markers go before everything that may wait for one (05 R137). -/
def State.markerEvents (s : State) : List (Instr × Subject) :=
  (s.markers.take 1).map fun m => (Instr.epochMarker, Subject.two m.src m.dst)

/-- The events of the device that may now come about. -/
def State.deviceEvents (s : State) : List (Instr × Subject) :=
  let windows := s.cores.flatMap fun e =>
    (e.2.windows.filter fun w => decide (w.closes ≤ s.clock) || s.lineRaised w.ctx).map fun w =>
      (Instr.collectionWindowClose, Subject.two e.1 w.ctx)
  let commands := (s.commands.filter fun c => s.mayPerform c).map fun c => (Instr.engineCommandComplete, Subject.one c.id)
  let crews := (s.crews.filter fun e => s.crewDone e.1 e.2 && s.enginesRun e.2.ctx).map fun e => (Instr.crewEnd, Subject.one e.1)
  let fences := (s.harts.filter fun e =>
    match e.2.fencing with
    | none => false
    | some serial => e.2.unfenced == 0 || s.landedBelow serial).map fun e => (Instr.tlbfenceRetire, Subject.one e.1)
  let rings := if s.pending.any fun p =>
      (s.ringWrite (((s.ringFor p.ring false 6).map fun x => x.1).getD 0) p.record).isSome then
    [(Instr.pendingRecordWrite, Subject.none)] else []
  let ready := if s.slots.isEmpty then [] else s.readyHeads.1
  let slots := (s.slots.filter fun e =>
    ((s.context e.2.ctx).any fun c => decide (c.launches.length < 64)) && ready.any fun r => r.head.id == e.2).map fun e =>
      (Instr.launchAccept, Subject.one e.1)
  let places := if s.placedUntil ≤ s.clock ∧ (s.contexts.any fun e => e.2.distributes && !e.2.waitingLaunches.isEmpty) then
    [(Instr.crewPlace, Subject.none)] else []
  let timers := (if s.retryDue ≤ s.clock then [(Instr.retryTimer, Subject.none)] else []) ++
    (if s.quantumDue ≤ s.clock then [(Instr.leaseQuantumBoundary, Subject.none)] else [])
  let late := (if s.imageLate then [(Instr.imageFetchTimeout, Subject.none)] else []) ++
    (if s.stageLate then [(Instr.stageReadyTimeout, Subject.none)] else [])
  late ++ windows ++ commands ++ crews ++ fences ++ rings ++ slots ++ places ++ timers

/-- The ports that are free and have a gang in their rotation. -/
def State.freePorts (s : State) : List (Nat × Nat × Nat) :=
  ((s.gangs.keys.map fun k => (k / 128, k / 8 % 16, k % 2)).eraseDups).filter fun x =>
    decide (((s.core x.1).port (portKey x.2.1 x.2.2)).busy ≤ s.clock)

/-- The next clock at which something falls due. -/
def State.nextDue (s : State) : Nat :=
  let ports := s.gangs.keys.map fun k => ((s.core (k / 128)).port (portKey (k / 8 % 16) (k % 2))).busy
  let windows := s.cores.flatMap fun e => e.2.windows.map fun w => w.closes
  let halts := s.contexts.filterMap fun e => e.2.halt.map fun h => h.deadline
  let waits := if s.contexts.any fun e => e.2.distributes && !e.2.waitingLaunches.isEmpty then [s.placedUntil] else []
  let slots := if !s.service.isEmpty && decide (s.slots.length < 512) then [s.clock + 1] else []
  let holds := if s.portHolds.any s.portRetries then [s.clock + 1] else []
  let draws := if s.gangs.any fun e => s.drawsLater e.1 e.2 then [s.clock + 1] else []
  let boot :=
    if s.boot.phase = .fetching then [clocksOf 120000000000]
    else if s.boot.phase = .starting then s.boot.stagesDue
    else []
  ((ports ++ windows ++ halts ++ waits ++ slots ++ holds ++ draws ++ boot ++ [s.retryDue, s.quantumDue]).filter fun t => decide (s.clock < t)).foldl min
    (s.clock + 65000)

/-- The turn that the device takes next by itself: an event that may come about, a free port's turn, or the clocks until something
falls due. -/
def State.ownTurn (s : State) : Turn :=
  match s.markerEvents ++ s.gangEvents ++ s.contextEvents ++ s.deviceEvents, s.freePorts with
  | (e, x) :: _, _ => .event e x
  | [], (core, partition, port) :: _ => .port core partition port
  | [], [] => .elapse (s.nextDue - s.clock)

/-- The turn that comes next, and the state without it. -/
def State.takeTurn (s : State) : Turn × State :=
  match s.agenda with
  | t :: rest => (t, { s with agenda := rest, idle := false })
  | [] => (s.ownTurn, { s with idle := false })

/-- What a turn does, with the energy of its replays and walks drawn (16 R341). -/
def State.drawing (s : State) (r : Result) : Result :=
  match r with
  | .next t => .next (s.drawReplays t)
  | _ => r

/-- A turn is taken. -/
def State.takeOn (run : Instr → State → Result) (s : State) (t : Turn) : Result :=
  s.drawing <|
    match t with
    | .port core partition port => s.portTurn run core partition port
    | .hart n => s.hartTurn run n
    | .event e x => s.happen run e x
    | .elapse n => .next (s.elapse n)
    | .outside x => .next (s.outside x)

/-- One step with a given meaning of instructions: without power nothing runs (21 R404). -/
def State.stepWith (run : Instr → State → Result) (s : State) : Result :=
  if !s.powered then .fault .noPower else s.takeTurn.2.takeOn run s.takeTurn.1

end Sys2Proof.Machine
end

