-- ==== Sys2Proof/Machine/Step.lean ====
section
/-!
DEFINITION. One step of the device, and the placement of one instruction where the next step fetches it (log 6).
-/
namespace Sys2Proof.Machine

/-- One step: the next turn is taken (13 R306, R307; log 5). -/
def step (s : State) : Host.Outcome State Fault Refusal := s.stepWith exec

/-- The launch record of the program that `withFetchWord` places: one crew of one gang of 16 lanes and 128 vector registers,
without scratchpad, refill or convoys (01 R23-R25). -/
def placedRecord : LaunchRecord where
  entry := 0x2000
  prologue := 0
  body := 0
  retire := 0
  crewCount := 1
  params := 0
  geometry := 0x3C0
  control := 0
  ident := 1
  preds := [0, 0, 0, 0]
  seeds := [0, 0, 0, 0]
  slots := [0, 0, 0, 0, 0, 0, 0, 0]
  roles := 0
  convoys := [0, 0, 0, 0, 0, 0, 0, 0]

/-- The accepted launch of `placedRecord`. -/
def placedLaunch : Launch where
  record := placedRecord
  queue := 0
  entryAddr := 0
  order := 0
  nextCrew := 0
  crewsEnded := 0
  stopped := false
  code := 0

/-- The context that runs the placed word: a child of the root, running, with core 0, general-purpose core 0, and one frame at
machine address 0 that it may read, write and fetch from (16 R315, R323). -/
def placedContext : Context :=
  { Context.fresh 0 1 with
    state := .running
    sizes := [30]
    frames := 1
    grants := [(0, 0xF)]
    cores := [0]
    gpCores := [0]
    launches := [placedLaunch] }

/-- The state with a context that runs core 0 and hart 0 from address 0x2000 of its one frame, mapped by a level-0 node at 0 and a
level-1 leaf at 0x1000 (16 R319-R322). The device has started, so that harts run
(21 R400). -/
def State.withProgram (s : State) : State :=
  let root := { (s.contexts.find 0).getD Context.rootFresh with cores := List.range' 1 191, gpCores := List.range' 1 15 }
  let s1 : State :=
    { s with
      powered := true
      boot := { s.boot with phase := .running }
      contexts := (s.contexts.put 0 root).put 1 placedContext
      cores := s.cores.put 0 Core.fresh
      dies := s.dies.map fun d => { d with tlb := d.tlb.filter fun e => e.ctx != 1 }
      crews := s.crews.filter fun e => 8 ≤ e.1
      gangs := s.gangs.filter fun e => 128 ≤ e.1
      badSectors := []
      pending := [] }
  (s1.write 0 8 0x1001).write 0x1000 8 0x1F

/-- Stores an instruction where the next step fetches it: a gang's word is issued by gang 0 of the placed crew, and a context
instruction's word by hart 0 in VS-mode. The bits above `nbits` are 0. -/
def State.withFetchWord (s : State) (nbits w : Nat) : State :=
  let s1 := (s.withProgram.write 0x2000 4 (w % 2 ^ nbits)).write 0x2004 4 0
  if (decode (w % 2 ^ nbits)).toOption.isNone && (decodeHart (w % 2 ^ nbits)).toOption.isSome then
    { s1.setHart 0 { Hart.fresh with pc := 0x2000, mode := .virtualSupervisor } with agenda := [.hart 0] }
  else { s1.placeCrew 1 0 placedLaunch [0] with agenda := [.port 0 0 0] }

end Sys2Proof.Machine
end

