-- ==== Sys2Proof/Safety.lean ====
section
/-!
DEFINITION. What a safe run is, and the terms in which claims name the conditions under which an instruction has its own effect.
-/
namespace Sys2Proof.Machine

/-- The step goes on: neither a fault nor a refusal. -/
def State.goesOn (s : State) : Prop := ∃ t, step s = .next t

/-- A run of `n` steps meets neither a fault nor a refusal. -/
def State.safeFor : Nat → State → Prop
  | 0, _ => True
  | n + 1, s => ∃ t, step s = .next t ∧ State.safeFor n t

/-- The acting gang is `g`, some of its slices issue with the acting group, and nothing holds it: it has not stopped, its halt line
is not raised, it waits at no barrier, for no record and for no retry (16 R331, 19 R367, 11 R257). -/
structure State.Issues (s : State) (g : Gang) : Prop where
  resident : s.gangs.find s.gang = some g
  members : g.members s.group ≠ []
  free : s.mayIssue s.gang g = true

/-- The v and s registers that an instruction names exist for the gang, and no load or `arow.get` that is still to land will write
one of them (02 R54, 03 R69). -/
def State.Settled (s : State) (g : Gang) (vs ss : List Nat) : Prop :=
  (∀ r ∈ vs, r < g.nregs ∧ s.isPending s.gang g false r = false) ∧
  (∀ r ∈ ss, r < 128 ∧ s.isPending s.gang g true r = false)

/-- Some entry of `s` and `t` may differ only in the acting gang's record. -/
def State.SameBesideGang (s t : State) : Prop :=
  (∀ k, k ≠ s.gang → t.gangs.find k = s.gangs.find k) ∧ { t with gangs := s.gangs } = s

/-- The acting hart exists, is not waiting in `tlbfence`, and is in M-, HS- or VS-mode (16 R335). -/
structure State.HartActs (s : State) : Prop where
  exists_ : s.hart < 16
  awake : (s.hartAt s.hart).fencing = none
  notUser : (s.hartAt s.hart).mode ≠ .user
  notVirtualUser : (s.hartAt s.hart).mode ≠ .virtualUser

end Sys2Proof.Machine
end

