-- ==== Sys2Proof/Certificates/Slice0/Obligations.lean ====
section
/-!
DEFINITION. The statements for the provers. Each holds for every state and operands that meet its hypotheses; a table in `Claim` gives
instructions of one shape with what the spec says each computes.
-/
namespace Sys2Proof.Claim
open Sys2Proof.Machine

/-! ### Integer instructions (07) -/

/-- The instruction wrote `f l` to v register `d` of every active lane and went on to the next word. -/
def vectorDone (s : State) (g : Gang) (d : Nat) (f : Nat → Word) : State :=
  s.advance ((s.issuing g).setV d (g.active s.group) f) 1

/-- The instruction wrote an s register and went on to the next word. -/
def scalarDone (s : State) (g : Gang) (d : Nat) (x : Word) : State := s.advance ((s.issuing g).setS d x) 1

/-- An integer kept between two bounds. -/
def clampInt (lo hi x : Int) : Word := BitVec.ofInt 32 (max lo (min hi x))

/-- An instruction with a vector and a scalar form, and what it computes of the old destination and its sources. -/
abbrev IntegerOp := (Bool → Instr) × (Word → Word → Word → Word)

/-- The instructions with both a vector and a scalar form, and what each computes of the old destination and its sources (07 R170,
R171, R173-R177, R180). An instruction that has fewer operands leaves the others unused. -/
def integerOps (d a b : BitVec 7) (i : BitVec 10) (j : BitVec 17) (n : BitVec 5) :
    List IntegerOp :=
  ([(fun c => .iadd c d a b, fun _ x y => x + y),
   (fun c => .isub c d a b, fun _ x y => x - y),
   (fun c => .imul c d a b, fun _ x y => x * y),
   (fun c => .imulhi c d a b, fun _ x y => BitVec.ofInt 32 (x.toInt * y.toInt / 2 ^ 32)),
   (fun c => .imulhu c d a b, fun _ x y => BitVec.ofNat 32 (x.toNat * y.toNat / 2 ^ 32)),
   (fun c => .imad c d a b, fun z x y => z + x * y),
   (fun c => .iquo c d a b, fun _ x y => if y = 0 then 0xFFFFFFFF else BitVec.ofInt 32 (x.toInt.tdiv y.toInt)),
   (fun c => .iquoU c d a b, fun _ x y => if y = 0 then 0xFFFFFFFF else BitVec.ofNat 32 (x.toNat / y.toNat)),
   (fun c => .irem c d a b, fun _ x y => if y = 0 then x else BitVec.ofInt 32 (x.toInt.tmod y.toInt)),
   (fun c => .iremU c d a b, fun _ x y => if y = 0 then x else BitVec.ofNat 32 (x.toNat % y.toNat)),
   (fun c => .imin c d a b, fun _ x y => BitVec.ofInt 32 (min x.toInt y.toInt)),
   (fun c => .iminU c d a b, fun _ x y => BitVec.ofNat 32 (min x.toNat y.toNat)),
   (fun c => .imax c d a b, fun _ x y => BitVec.ofInt 32 (max x.toInt y.toInt)),
   (fun c => .imaxU c d a b, fun _ x y => BitVec.ofNat 32 (max x.toNat y.toNat)),
   (fun c => .iabs c d a, fun _ x _ => BitVec.ofInt 32 x.toInt.natAbs),
   (fun c => .ineg c d a, fun _ x _ => 0 - x)] : List IntegerOp) ++
  ([(fun c => .iadds c d a b, fun _ x y => clampInt (-2147483648) 2147483647 (x.toInt + y.toInt)),
   (fun c => .iaddus c d a b, fun _ x y => clampInt 0 4294967295 (x.toNat + y.toNat : Nat)),
   (fun c => .isubs c d a b, fun _ x y => clampInt (-2147483648) 2147483647 (x.toInt - y.toInt)),
   (fun c => .isubus c d a b, fun _ x y => clampInt 0 4294967295 ((x.toNat : Int) - y.toNat)),
   (fun c => .and c d a b, fun _ x y => x &&& y),
   (fun c => .andn c d a b, fun _ x y => x &&& ~~~y),
   (fun c => .or c d a b, fun _ x y => x ||| y),
   (fun c => .orn c d a b, fun _ x y => x ||| ~~~y),
   (fun c => .xor c d a b, fun _ x y => x ^^^ y),
   (fun c => .xnor c d a b, fun _ x y => ~~~(x ^^^ y)),
   (fun c => .not c d a, fun _ x _ => ~~~x)] : List IntegerOp) ++
  ([(fun c => .shl c d a b, fun _ x y => if y.toNat < 32 then x <<< y.toNat else 0),
   (fun c => .shr c d a b, fun _ x y => if y.toNat < 32 then x >>> y.toNat else 0),
   (fun c => .sar c d a b, fun _ x y => x.sshiftRight (min y.toNat 31)),
   (fun c => .rol c d a b, fun _ x y => x.rotateLeft (y.toNat % 32)),
   (fun c => .popc c d a, fun _ x _ => BitVec.ofNat 32 ((List.range 32).countP fun k => x.getLsbD k)),
   (fun c => .clz c d a, fun _ x _ => BitVec.ofNat 32 ((List.range 32).takeWhile fun k => !x.getLsbD (31 - k)).length),
   (fun c => .ctz c d a, fun _ x _ => BitVec.ofNat 32 ((List.range 32).takeWhile fun k => !x.getLsbD k).length),
   (fun c => .brev c d a, fun _ x _ => x.reverse),
   (fun c => .bfe c d a b, fun _ x y => BitVec.ofNat 32 (x.toNat / 2 ^ (y.toNat % 32) % 2 ^ (y.toNat / 256 % 32))),
   (fun c => .bfeS c d a b, fun _ x y =>
      let w := y.toNat / 256 % 32
      let f := x.toNat / 2 ^ (y.toNat % 32) % 2 ^ w
      if w = 0 then 0 else if f < 2 ^ (w - 1) then BitVec.ofNat 32 f else BitVec.ofInt 32 ((f : Int) - 2 ^ w)),
   (fun c => .bfi c d a b, fun z x y =>
      let o := y.toNat % 32
      let m : Word := (((1 : Word) <<< (y.toNat / 256 % 32)) - 1) <<< o
      (z &&& ~~~m) ||| ((x <<< o) &&& m))] : List IntegerOp) ++
  ([(fun c => .addi c d a i, fun _ x _ => x + i.signExtend 32),
   (fun c => .andi c d a i, fun _ x _ => x &&& i.setWidth 32),
   (fun c => .ori c d a i, fun _ x _ => x ||| i.setWidth 32),
   (fun c => .xori c d a i, fun _ x _ => x ^^^ i.setWidth 32),
   (fun c => .shli c d a n, fun _ x _ => x <<< n.toNat),
   (fun c => .shri c d a n, fun _ x _ => x >>> n.toNat),
   (fun c => .sari c d a n, fun _ x _ => x.sshiftRight n.toNat),
   (fun c => .roli c d a n, fun _ x _ => x.rotateLeft n.toNat),
   (fun c => .movi c d j, fun _ _ _ => j.signExtend 32),
   (fun c => .movhi c d j, fun z _ _ => j ++ z.extractLsb' 0 15),
   (fun c => .mov c d a, fun _ x _ => x)] : List IntegerOp)

/-- The comparisons (07 R179). -/
def comparisons (d : BitVec 4) (a b : BitVec 7) : List ((Bool → Instr) × (Word → Word → Bool)) :=
  [(fun c => .icmpEq c d a b, fun x y => decide (x = y)),
   (fun c => .icmpNe c d a b, fun x y => decide (x ≠ y)),
   (fun c => .icmpLt c d a b, fun x y => decide (x.toInt < y.toInt)),
   (fun c => .icmpLe c d a b, fun x y => decide (x.toInt ≤ y.toInt)),
   (fun c => .icmpLtu c d a b, fun x y => decide (x.toNat < y.toNat)),
   (fun c => .icmpLeu c d a b, fun x y => decide (x.toNat ≤ y.toNat)),
   (fun c => .icmpTst c d a b, fun x y => decide (x &&& y ≠ 0)),
   (fun c => .icmpTstz c d a b, fun x y => decide (x &&& y = 0))]

/-- Sum and difference of pairs (07 R172). -/
def pairOps (d a b : BitVec 7) : List ((Bool → Instr) × (DWord → DWord → DWord)) :=
  [(fun c => .add64 c d a b, fun x y => x + y), (fun c => .sub64 c d a b, fun x y => x - y)]

/-- Predicates into a predicate, per active lane (07 R181). -/
def predicateOps (d a b : BitVec 4) : List (Instr × (Bool → Bool → Bool)) :=
  [(.pand d a b, fun x y => x && y), (.por d a b, fun x y => x || y), (.pxor d a b, fun x y => x ^^ y),
   (.pnot d a, fun x _ => !x)]

/-- Predicates into an s register: of the active lanes in which the predicate is true, in rising order (07 R181). -/
def predicateReads (d : BitVec 7) (a : BitVec 4) : List (Instr × (List Nat → Word)) :=
  [(.ptest d a, fun ls => if ls = [] then 0 else 1),
   (.pcnt d a, fun ls => BitVec.ofNat 32 ls.length),
   (.pfirst d a, fun ls => (ls.head?.map (BitVec.ofNat 32)).getD 0xFFFFFFFF)]

/-- The instructions of one v operation without a scalar form that name d, a and b (08 R207): `pack` and `unpack`. -/
def packOps (d a b : BitVec 7) : List (Instr × (Word → Word → Word → Word)) :=
  let put (n : Nat) (z x y : Word) : Word :=
    let m : Word := BitVec.ofNat 32 ((2 ^ n - 1) * 2 ^ (n * (y.toNat % (32 / n))))
    (z &&& ~~~m) ||| ((x <<< (n * (y.toNat % (32 / n)))) &&& m)
  let get (n : Nat) (x y : Word) : Word := BitVec.ofNat 32 (x.toNat / 2 ^ (n * (y.toNat % (32 / n))) % 2 ^ n)
  [(.pack16 d a b, put 16), (.pack8 d a b, put 8), (.pack4 d a b, put 4),
   (.unpack16 d a b, fun _ x y => get 16 x y), (.unpack8 d a b, fun _ x y => get 8 x y),
   (.unpack4 d a b, fun _ x y => get 4 x y)]

/-- The shuffles by an s register: the source lane of lane `l` in a gang of `w` lanes (08 R211). -/
def shuffles (d a b : BitVec 7) : List (Instr × (Nat → Nat → Nat → Nat)) :=
  [(.shflUp d a b, fun _ n l => if n ≤ l then l - n else l),
   (.shflDown d a b, fun w n l => if l + n < w then l + n else l),
   (.shflXor d a b, fun w n l => l ^^^ (n % w)),
   (.shflBcast d a b, fun w n _ => n % w)]

end Sys2Proof.Claim

open Sys2Proof Sys2Proof.Machine Sys2Proof.Claim

/-- In vector form each integer instruction writes what 07 says of it to `d` in every active lane, and completes (07 R168, R170, R171,
R173-R177, R180). -/
def Sys2Proof.Claim.VectorIntegerResult : Prop :=
  ∀ (s : State) (g : Gang) (d a b : BitVec 7) (i : BitVec 10) (j : BitVec 17) (n : BitVec 5),
    s.Issues g → s.Settled g [d.toNat, a.toNat, b.toNat] [] → ∀ e ∈ integerOps d a b i j n,
      exec (e.1 false) s = .next (vectorDone s g d.toNat fun l =>
        e.2 (g.vreg d.toNat l) (g.vreg a.toNat l) (g.vreg b.toNat l))

/-- In scalar form each computes the same once, on s registers (07 R168). -/
def Sys2Proof.Claim.ScalarIntegerResult : Prop :=
  ∀ (s : State) (g : Gang) (d a b : BitVec 7) (i : BitVec 10) (j : BitVec 17) (n : BitVec 5),
    s.Issues g → s.Settled g [] [d.toNat, a.toNat, b.toNat] → ∀ e ∈ integerOps d a b i j n,
      exec (e.1 true) s = .next (scalarDone s g d.toNat (e.2 (g.sreg d.toNat) (g.sreg a.toNat) (g.sreg b.toNat)))

/-- A comparison writes a predicate: per active lane, or one scalar comparison into every enabled lane (07 R179). -/
def Obligations.ComparisonResult : Prop :=
  ∀ (s : State) (g : Gang) (d : BitVec 4) (a b : BitVec 7), s.Issues g → ∀ e ∈ comparisons d a b,
    (s.Settled g [a.toNat, b.toNat] [] →
      exec (e.1 false) s = .next (s.advance ((s.issuing g).setP d.toNat (g.active s.group) fun l =>
        e.2 (g.vreg a.toNat l) (g.vreg b.toNat l)) 1)) ∧
    (s.Settled g [] [a.toNat, b.toNat] →
      exec (e.1 true) s = .next (s.advance ((s.issuing g).setP d.toNat (g.enabled s.group) fun _ =>
        e.2 (g.sreg a.toNat) (g.sreg b.toNat)) 1))

/-- `add64` and `sub64` on even pairs, per active lane or once on scalars (07 R172). -/
def Sys2Proof.Claim.PairResult : Prop :=
  ∀ (s : State) (g : Gang) (d a b : BitVec 7), s.Issues g →
    d.toNat % 2 = 0 → a.toNat % 2 = 0 → b.toNat % 2 = 0 → ∀ e ∈ pairOps d a b,
    (s.Settled g [d.toNat, d.toNat + 1, a.toNat, a.toNat + 1, b.toNat, b.toNat + 1] [] →
      exec (e.1 false) s = .next (s.advance ((s.issuing g).setVpair d.toNat (g.active s.group) fun l =>
        e.2 (g.vpair a.toNat l) (g.vpair b.toNat l)) 1)) ∧
    (s.Settled g [] [d.toNat, d.toNat + 1, a.toNat, a.toNat + 1, b.toNat, b.toNat + 1] →
      exec (e.1 true) s = .next (s.advance ((s.issuing g).setSpair d.toNat
        (e.2 (g.spair a.toNat) (g.spair b.toNat))) 1))

/-- The products of 07 R172 take single registers, which may be odd, and `lea` a pair and a single register. -/
def Sys2Proof.Claim.PairSingleSources : Prop :=
  ∀ (s : State) (g : Gang) (d a b : BitVec 7) (n : BitVec 3), s.Issues g → d.toNat % 2 = 0 →
    (s.Settled g [d.toNat, d.toNat + 1, a.toNat, b.toNat] [] →
      exec (.mul64 false d a b) s = .next (s.advance ((s.issuing g).setVpair d.toNat (g.active s.group) fun l =>
        (g.vreg a.toNat l).signExtend 64 * (g.vreg b.toNat l).signExtend 64) 1) ∧
      exec (.mul64U false d a b) s = .next (s.advance ((s.issuing g).setVpair d.toNat (g.active s.group) fun l =>
        (g.vreg a.toNat l).setWidth 64 * (g.vreg b.toNat l).setWidth 64) 1)) ∧
    (s.Settled g [] [d.toNat, d.toNat + 1, a.toNat, b.toNat] →
      exec (.mul64 true d a b) s = .next (s.advance ((s.issuing g).setSpair d.toNat
        ((g.sreg a.toNat).signExtend 64 * (g.sreg b.toNat).signExtend 64)) 1) ∧
      exec (.mul64U true d a b) s = .next (s.advance ((s.issuing g).setSpair d.toNat
        ((g.sreg a.toNat).setWidth 64 * (g.sreg b.toNat).setWidth 64)) 1)) ∧
    (a.toNat % 2 = 0 → s.Settled g [d.toNat, d.toNat + 1, a.toNat, a.toNat + 1, b.toNat] [] →
      exec (.lea false d a b n) s = .next (s.advance ((s.issuing g).setVpair d.toNat (g.active s.group) fun l =>
        g.vpair a.toNat l + ((g.vreg b.toNat l).setWidth 64 <<< n.toNat)) 1)) ∧
    (a.toNat % 2 = 0 → s.Settled g [] [d.toNat, d.toNat + 1, a.toNat, a.toNat + 1, b.toNat] →
      exec (.lea true d a b n) s = .next (s.advance ((s.issuing g).setSpair d.toNat
        (g.spair a.toNat + ((g.sreg b.toNat).setWidth 64 <<< n.toNat))) 1))

/-- The moves between the register classes: `sel` by the guard in enabled lanes, `bcast`, `rdlane` and `wrlane` at a lane taken modulo
the gang's width, whatever guard and mask (07 R178, R180). -/
def Sys2Proof.Claim.MoveBetweenClasses : Prop :=
  ∀ (s : State) (g : Gang) (d a b : BitVec 7), s.Issues g →
    (s.Settled g [d.toNat, a.toNat, b.toNat] [] →
      exec (.sel d a b) s = .next (s.advance ((s.issuing g).setV d.toNat (g.enabled s.group) fun l =>
        if g.guard l then g.vreg a.toNat l else g.vreg b.toNat l) 1)) ∧
    (s.Settled g [d.toNat] [a.toNat] → exec (.bcast d a) s = .next (vectorDone s g d.toNat fun _ => g.sreg a.toNat)) ∧
    (s.Settled g [a.toNat] [d.toNat, b.toNat] →
      exec (.rdlane d a b) s =
        .next (scalarDone s g d.toNat (g.vreg a.toNat ((g.sreg b.toNat).toNat % g.width)))) ∧
    (s.Settled g [d.toNat] [a.toNat, b.toNat] →
      exec (.wrlane d a b) s = .next (s.advance ((s.issuing g).setV d.toNat [(g.sreg b.toNat).toNat % g.width] fun _ =>
        g.sreg a.toNat) 1))

/-- Predicate operations (07 R181, R182). -/
def Sys2Proof.Claim.PredicateResult : Prop :=
  ∀ (s : State) (g : Gang), s.Issues g →
    (∀ (d a b : BitVec 4), ∀ e ∈ predicateOps d a b,
      exec e.1 s = .next (s.advance ((s.issuing g).setP d.toNat (g.active s.group) fun l =>
        e.2 (g.preg a.toNat l) (g.preg b.toNat l)) 1)) ∧
    (∀ (d : BitVec 7) (a : BitVec 4), s.Settled g [] [d.toNat] → ∀ e ∈ predicateReads d a,
      exec e.1 s = .next (scalarDone s g d.toNat (e.2 ((g.active s.group).filter fun l => g.preg a.toNat l)))) ∧
    (∀ (d : BitVec 7) (a : BitVec 4), d.toNat % 2 = 0 → s.Settled g [] [d.toNat, d.toNat + 1] →
      exec (.pbits d a) s = .next (s.advance ((s.issuing g).setSpair d.toNat
        (maskOf ((g.active s.group).filter fun l => g.preg a.toNat l))) 1)) ∧
    (∀ (d : BitVec 4) (a : BitVec 7), a.toNat % 2 = 0 → s.Settled g [] [a.toNat, a.toNat + 1] →
      exec (.pset d a) s = .next (s.advance ((s.issuing g).setP d.toNat (g.active s.group) fun l =>
        (g.spair a.toNat).getLsbD l) 1))

/-- Predicate 0 reads true in every lane, before and after any write of it, and a write of it changes nothing (01 R13). -/
def Sys2Proof.Claim.PredicateZeroReadsTrue : Prop :=
  ∀ (g : Gang) (lanes : List Nat) (f : Nat → Bool) (l : Nat),
    g.preg 0 l = true ∧ g.setP 0 lanes f = g

/-- A predicate write reaches the listed lanes and leaves the others, whatever else the gang holds (01 R13). -/
def Sys2Proof.Claim.PredicateWriteLanes : Prop :=
  ∀ (g : Gang) (i : Nat) (lanes : List Nat) (f : Nat → Bool) (l : Nat), i ≠ 0 → l < 64 → (∀ x ∈ lanes, x < 64) →
    (g.setP i lanes f).preg i l = (if l ∈ lanes then f l else g.preg i l)

/-- Packing, the shuffles and the random bits (08 R207, R209, R211). -/
def Obligations.PackShuffleRandom : Prop :=
  ∀ (s : State) (g : Gang) (d a b : BitVec 7), s.Issues g →
    (s.Settled g [d.toNat, a.toNat, b.toNat] [] →
      (∀ e ∈ packOps d a b, exec e.1 s = .next (vectorDone s g d.toNat fun l =>
        e.2 (g.vreg d.toNat l) (g.vreg a.toNat l) (g.vreg b.toNat l))) ∧
      exec (.shflIdx d a b) s = .next (vectorDone s g d.toNat fun l =>
        g.vreg a.toNat ((g.vreg b.toNat l).toNat % g.width)) ∧
      exec (.rng d a b) s = .next (vectorDone s g d.toNat fun l =>
        hashH (s.fpEnv g l none).seed (g.vreg a.toNat l) (g.vreg b.toNat l).toNat)) ∧
    (s.Settled g [d.toNat, a.toNat] [b.toNat] → ∀ e ∈ shuffles d a b,
      exec e.1 s = .next (vectorDone s g d.toNat fun l => g.vreg a.toNat (e.2 g.width (g.sreg b.toNat).toNat l)))

/-- Integer reductions over the active lanes, the integer scans over them in lane order (08 R212, R213). -/
def Sys2Proof.Claim.IntegerReduceAndScan : Prop :=
  ∀ (s : State) (g : Gang) (d a : BitVec 7), s.Issues g →
    (s.Settled g [a.toNat] [d.toNat] →
      let xs := (g.active s.group).map fun l => g.vreg a.toNat l
      exec (.vredIadd d a) s = .next (scalarDone s g d.toNat (xs.foldl (fun x y => x + y) 0)) ∧
      exec (.vredImax d a) s =
        .next (scalarDone s g d.toNat (xs.foldl (fun x y => BitVec.ofInt 32 (max x.toInt y.toInt)) 0x80000000)) ∧
      exec (.vredImin d a) s =
        .next (scalarDone s g d.toNat (xs.foldl (fun x y => BitVec.ofInt 32 (min x.toInt y.toInt)) 0x7FFFFFFF))) ∧
    (s.Settled g [d.toNat, a.toNat] [] →
      let below (l : Nat) : Word :=
        (((g.active s.group).filter fun m => decide (m < l)).map fun m => g.vreg a.toNat m).foldl (fun x y => x + y) 0
      exec (.vscanIadd d a) s = .next (vectorDone s g d.toNat fun l => below l + g.vreg a.toNat l) ∧
      exec (.vscanIaddx d a) s = .next (vectorDone s g d.toNat below))

namespace Sys2Proof.Claim
open Sys2Proof.Machine

/-! ### Floating-point instructions (08) -/

/-- An instruction, its source registers, the element types it accepts, and its element function. -/
abbrev ElementOp := Instr × List Nat × (Nat → Bool) × ElementFn

/-- The instructions computed element by element: their source registers, the element types they accept, and their element function
(08 R191, R195-R198). -/
def elementOps (d a b : BitVec 7) : List ElementOp :=
  ([(.fadd d a b, [a.toNat, b.toNat], arithmeticCode, fnAdd), (.fsub d a b, [a.toNat, b.toNat], arithmeticCode, fnSub),
   (.fmul d a b, [a.toNat, b.toNat], arithmeticCode, fnMul), (.fdiv d a b, [a.toNat, b.toNat], arithmeticCode, fnDiv),
   (.fma d a b, [a.toNat, b.toNat, d.toNat], arithmeticCode, fnFma),
   (.fms d a b, [a.toNat, b.toNat, d.toNat], arithmeticCode, fnFms),
   (.fnma d a b, [a.toNat, b.toNat, d.toNat], arithmeticCode, fnFnma),
   (.fmin d a b, [a.toNat, b.toNat], arithmeticCode, fnMinMax false false),
   (.fmax d a b, [a.toNat, b.toNat], arithmeticCode, fnMinMax true false),
   (.fminnum d a b, [a.toNat, b.toNat], arithmeticCode, fnMinMax false true),
   (.fmaxnum d a b, [a.toNat, b.toNat], arithmeticCode, fnMinMax true true)] : List ElementOp) ++
  ([(.fsqrt d a, [a.toNat], arithmeticCode, fnUnary sqrtNum), (.frcp d a, [a.toNat], arithmeticCode, fnUnary rcpNum),
   (.frsq d a, [a.toNat], arithmeticCode, fnUnary rsqNum), (.fexp2 d a, [a.toNat], functionCode, fnUnary exp2Num),
   (.flog2 d a, [a.toNat], functionCode, fnUnary log2Num), (.fsin d a, [a.toNat], functionCode, fnUnary sinNum),
   (.fcos d a, [a.toNat], functionCode, fnUnary cosNum), (.frint d a, [a.toNat], arithmeticCode, fnInteger false),
   (.ffloor d a, [a.toNat], arithmeticCode, fnInteger true)] : List ElementOp)

/-- What the elements of a lane become. -/
def elementValues (s : State) (g : Gang) (srcs : List Nat) (f : ElementFn) (m : Option Modifier) (l : Nat) : List (Nat × Flags) :=
  (List.range (elementCount (s.elementCode g))).map fun j =>
    f (s.fpEnv g l m) (s.elementCode g) j (srcs.map fun r => g.element (s.elementCode g) r l j)

/-- The exceptions of the lanes, joined. -/
def laneFlags (lanes : List Nat) (f : Nat → Flags) : Flags := joinFlags (lanes.map f)

/-- A floating-point instruction of `words` words ended with the gang as `g`, its exceptions added to `fpflags`. -/
def floatDone (s : State) (g : Gang) (words : Nat) (fl : Flags) : State := s.advance (g.addFlags fl) words

/-- The element registers that an instruction names are settled, even where they are pairs, and the type is accepted (08 R190). -/
structure ElementsReady (s : State) (g : Gang) (accept : Nat → Bool) (regs : List Nat) : Prop where
  accepted : accept (s.elementCode g) = true
  settled : s.Settled g (regs.flatMap (elementRegs (s.elementCode g))) []
  even : s.elementCode g = 8 → ∀ r ∈ regs, r % 2 = 0

/-- The float comparisons: whether any NaN raises invalid, and the predicate of "unordered" and of the order (08 R201). -/
def floatComparisons (d : BitVec 4) (a b : BitVec 7) : List (Instr × Bool × (Bool → Int → Bool)) :=
  [(.fcmpEq d a b, false, fun u c => !u && decide (c = 0)), (.fcmpNe d a b, false, fun u c => u || decide (c ≠ 0)),
   (.fcmpLt d a b, true, fun u c => !u && decide (c < 0)), (.fcmpLe d a b, true, fun u c => !u && decide (c ≤ 0)),
   (.fcmpUn d a b, false, fun u _ => u), (.fcmpOrd d a b, false, fun u _ => !u),
   (.fcmpLtu d a b, false, fun u c => u || decide (c < 0)), (.fcmpLeu d a b, false, fun u c => u || decide (c ≤ 0))]

/-- A value is a NaN. -/
def isNaN (x : Machine.Num) : Bool :=
  match x with
  | .nan _ => true
  | _ => false

/-- The dot products and their element types (08 R191, R208). -/
def dots (d a b : BitVec 7) : List (Instr × List Nat) :=
  [(.dot2 d a b, [1, 2]), (.dot4 d a b, [3, 4, 6]), (.dot8 d a b, [5, 7])]

/-- What a dot product gives a lane: the exact sum of the element products onto the FP32 value of d, rounded once (08 R208). -/
def dotValue (s : State) (g : Gang) (m : Option Modifier) (d a b l : Nat) : Nat × Flags :=
  let code := s.elementCode g
  let w := formatWidth code
  let env := s.fpEnv g l m
  let part (r i : Nat) : Nat := (g.vreg r l).toNat / 2 ^ (w * i) % 2 ^ w
  let pairs := (List.range (32 / w)).map fun i => (part a i, part b i)
  let own := nanFlags 0 [(g.vreg d l).toNat] ||| nanFlags code (pairs.flatMap fun p => [p.1, p.2])
  let sum := dotSum env.effective (pairs.map fun p => (env.read code p.1, env.read code p.2)) (env.read 0 (g.vreg d l).toNat, own)
  env.result 0 0 sum.1 sum.2

/-- What the elements of a lane become when scaled by a power of two that b gives, one for each element (08 R200). -/
def scaledValues (s : State) (g : Gang) (m : Option Modifier) (a b l : Nat) : List (Nat × Flags) :=
  let code := s.elementCode g
  let n (j : Nat) : Int :=
    if elementCount code = 2 then ((g.vreg b l).extractLsb' (16 * j) 16).toInt else (g.vreg b l).toInt
  (List.range (elementCount code)).map fun j =>
    (s.fpEnv g l m).result code j (scaleNum ((s.fpEnv g l m).read code (g.element code a l j)) (n j))
      (nanFlags code [g.element code a l j])

/-- A lane's 32-bit integer as an element (08 R205). -/
def integerValue (s : State) (g : Gang) (m : Option Modifier) (signed : Bool) (a l : Nat) : Nat × Flags :=
  let v : Int := if signed then (g.vreg a l).toInt else ((g.vreg a l).toNat : Int)
  (s.fpEnv g l m).result (s.elementCode g) 0 (.num (decide (v < 0)) v.natAbs 0 false) 0

/-- The class mask of a stored value of a floating-point format whose largest exponent field marks infinities and NaNs (06 R145, R146; 08
R202). -/
def classBits (code bits : Nat) : Nat :=
  let f := fractionBits code
  let top := 2 ^ exponentBits code - 1
  let neg := 2 ^ (formatWidth code - 1) ≤ bits
  let ex := bits / 2 ^ f % 2 ^ exponentBits code
  let fr := bits % 2 ^ f
  if ex = top ∧ fr = 0 then if neg then 1 else 128
  else if ex = top then if fr < 2 ^ (f - 1) then 256 else 512
  else if ex ≠ 0 then if neg then 2 else 64
  else if fr ≠ 0 then if neg then 4 else 32
  else if neg then 8 else 16

/-- The histogram bin of a stored value of a floating-point format (06 R163): E4M3's largest exponent field holds numbers but for the NaN,
E2M1's holds numbers alone, and E2M1's escape code 0b1000 reads as a zero. -/
def exponentBin (code bits : Nat) : Nat :=
  let f := fractionBits code
  let top := 2 ^ exponentBits code - 1
  let ex := bits / 2 ^ f % 2 ^ exponentBits code
  let fr := bits % 2 ^ f
  if ex = 0 then if fr = 0 then 64 else 65
  else if ex = top ∧ code ≠ 5 ∧ code ≠ 3 then if fr = 0 then 66 else 67
  else if ex = top ∧ code = 3 ∧ fr = 7 then 67
  else (min (max ((ex : Int) - bias code) (-32)) 31 + 32).toNat

/-- The instructions that a modifier may precede: opcodes 0x20-0x29, 0x2C, 0x2E, 0x32, 0x38 and 0x44 (02 R46). -/
def eligible (i : Instr) : Bool :=
  match i with
  | .fadd .. | .fsub .. | .fmul .. | .fma .. | .fms .. | .fnma .. | .fmin .. | .fmax .. | .fminnum .. | .fmaxnum ..
  | .fdiv .. | .fsqrt .. | .frcp .. | .frsq .. | .fexp2 .. | .flog2 .. | .fsin .. | .fcos .. | .frint .. | .ffloor ..
  | .cvt .. | .cvtf .. | .cvtfU .. | .dot2 .. | .dot4 .. | .dot8 .. | .fscale .. | .adrain .. => true
  | _ => false

/-- The two-register floating-point reductions, and the value each gives where no lane is active (08 R212). -/
def floatReductions (d a : BitVec 7) : List (Instr × (Nat → Bool → Combine) × (Nat → Nat)) :=
  [(.vredFadd d a, combineAdd, fun _ => 0),
   (.vredFmax d a, fun code flush => combineMinMax code flush true, fun code => encodeInf code true),
   (.vredFmin d a, fun code flush => combineMinMax code flush false, fun code => encodeInf code false)]

end Sys2Proof.Claim

open Sys2Proof Sys2Proof.Machine Sys2Proof.Claim

/-- An arithmetic instruction or function applies its element function to every element of `d` in the active lanes, ORs the exceptions
into `fpflags`, and, where no exception's trap is enabled, goes on (08 R192, R195-R198; 01 R21). -/
def Obligations.FloatElementResult : Prop :=
  ∀ (s : State) (g : Gang) (d a b : BitVec 7), s.Issues g → ∀ e ∈ elementOps d a b,
    ElementsReady s g e.2.2.1 (d.toNat :: e.2.1) →
    let r := elementValues s g e.2.1 e.2.2.2 none
    let fl := laneFlags (g.active s.group) fun l => joinFlags ((r l).map (·.2))
    g.enabledTraps fl = 0 →
      exec e.1 s = .next (floatDone s ((s.issuing g).setElements (s.elementCode g) d.toNat (g.active s.group) fun l =>
        (r l).map (·.1)) 1 fl)

/-- Where an enabled exception arises the instruction completes all the same, and then the gang is stopped with the trap of the lowest
code among them, the pc at the next word and the trap pc at its own (06 R158; 19 R376, R377). -/
def Obligations.FloatTrapAfterCompletion : Prop :=
  ∀ (s : State) (g : Gang) (d a b : BitVec 7), s.Issues g → ∀ e ∈ elementOps d a b,
    ElementsReady s g e.2.2.1 (d.toNat :: e.2.1) →
    let r := elementValues s g e.2.1 e.2.2.2 none
    let fl := laneFlags (g.active s.group) fun l => joinFlags ((r l).map (·.2))
    g.enabledTraps fl ≠ 0 →
      ∃ t h rec_, exec e.1 s = .next t ∧ t.gangs.find s.gang = some h ∧ h.stop = some rec_ ∧
        rec_.cause = trapOfFlags (g.enabledTraps fl) ∧ rec_.pc = g.pc s.group + 4 ∧ rec_.trapPc = g.pc s.group ∧
        h.fpflags = g.fpflags ||| fl.setWidth 32 ∧
        h.v = (g.setElements (s.elementCode g) d.toNat (g.active s.group) fun l => (r l).map (·.1)).v

/-- The float comparisons of element 0 into a predicate, and `fclass` (08 R201, R202). -/
def Sys2Proof.Claim.FloatCompareClass : Prop :=
  ∀ (s : State) (g : Gang) (a b : BitVec 7), s.Issues g →
    let code := s.elementCode g
    let flush := g.trim.getLsbD 11
    let val (r l : Nat) : Machine.Num := operand code flush (g.element code r l 0)
    (∀ (d : BitVec 4), ElementsReady s g arithmeticCode [a.toNat, b.toNat] → ∀ e ∈ floatComparisons d a b,
      let nan (l : Nat) : Bool := isNaN (val a.toNat l) || isNaN (val b.toNat l)
      let fl := laneFlags (g.active s.group) fun l =>
        if e.2.1 && nan l then 1 else nanFlags code [g.element code a.toNat l 0, g.element code b.toNat l 0]
      g.enabledTraps fl = 0 →
        exec e.1 s = .next (floatDone s ((s.issuing g).setP d.toNat (g.active s.group) fun l =>
          e.2.2 (nan l) (compareNum (val a.toNat l) (val b.toNat l))) 1 fl)) ∧
    (∀ (d : BitVec 7), ElementsReady s g arithmeticCode [a.toNat] → s.Settled g [d.toNat] [] →
      exec (.fclass d a) s = .next (vectorDone s g d.toNat fun l =>
        let c (j : Nat) : Nat := classMask code (g.element code a.toNat l j)
        BitVec.ofNat 32 (c 0 + (if elementCount code = 2 then 65536 * c 1 else 0))))

/-- Conversions between formats, to integers and from integers (08 R203-R205). -/
def Sys2Proof.Claim.ConversionResult : Prop :=
  ∀ (s : State) (g : Gang) (d a : BitVec 7), s.Issues g →
    let code := s.elementCode g
    let lanes := g.active s.group
    (∀ (f : BitVec 3),
      let src := ((s.slotWord g f.toNat).extractLsb 3 0).toNat
      code ≤ 8 → src ≤ 8 → s.Settled g (elementRegs code d.toNat ++ elementRegs src a.toNat) [] →
      (code = 8 → d.toNat % 2 = 0) → (src = 8 → a.toNat % 2 = 0) →
      let r (l : Nat) : Nat × Flags := convertElement (s.fpEnv g l none) src code (g.lowElement src a.toNat l)
      g.enabledTraps (laneFlags lanes fun l => (r l).2) = 0 →
        exec (.cvt d a f) s = .next (floatDone s ((s.issuing g).setLow code d.toNat lanes fun l => (r l).1) 1
          (laneFlags lanes fun l => (r l).2))) ∧
    (∀ (signed : Bool), ElementsReady s g floatCode [a.toNat] → s.Settled g [d.toNat] [] →
      let r (l : Nat) : Word × Flags :=
        let bits := g.lowElement code a.toNat l
        toInteger signed (s.fpEnv g l none).mode ((s.fpEnv g l none).draw 0) ((s.fpEnv g l none).read code bits)
          (nanFlags code [bits])
      g.enabledTraps (laneFlags lanes fun l => (r l).2) = 0 →
        exec (if signed then .cvti d a else .cvtiU d a) s =
          .next (floatDone s ((s.issuing g).setV d.toNat lanes fun l => (r l).1) 1 (laneFlags lanes fun l => (r l).2))) ∧
    (∀ (signed : Bool), ElementsReady s g floatCode [d.toNat] → s.Settled g [a.toNat] [] →
      let r (l : Nat) : Nat × Flags := integerValue s g none signed a.toNat l
      g.enabledTraps (laneFlags lanes fun l => (r l).2) = 0 →
        exec (if signed then .cvtf d a else .cvtfU d a) s =
          .next (floatDone s ((s.issuing g).setLow code d.toNat lanes fun l => (r l).1) 1 (laneFlags lanes fun l => (r l).2)))

/-- `fscale` and the dot products (08 R200, R208). -/
def Sys2Proof.Claim.ScaleAndDotResult : Prop :=
  ∀ (s : State) (g : Gang) (d a b : BitVec 7), s.Issues g →
    let code := s.elementCode g
    let lanes := g.active s.group
    (ElementsReady s g arithmeticCode [d.toNat, a.toNat] → s.Settled g [b.toNat] [] →
      let r := scaledValues s g none a.toNat b.toNat
      let fl := laneFlags lanes fun l => joinFlags ((r l).map (·.2))
      g.enabledTraps fl = 0 →
        exec (.fscale d a b) s =
          .next (floatDone s ((s.issuing g).setElements code d.toNat lanes fun l => (r l).map (·.1)) 1 fl)) ∧
    (s.Settled g [d.toNat, a.toNat, b.toNat] [] → ∀ e ∈ dots d a b, code ∈ e.2 →
      let r := dotValue s g none d.toNat a.toNat b.toNat
      let fl := laneFlags lanes fun l => (r l).2
      g.enabledTraps fl = 0 →
        exec e.1 s = .next (floatDone s ((s.issuing g).setV d.toNat lanes fun l => BitVec.ofNat 32 (r l).1) 1 fl))

/-- Floating-point reductions over the fixed tree of lane positions, and the scan in lane order (08 R212, R213). -/
def Sys2Proof.Claim.FloatReduceAndScan : Prop :=
  ∀ (s : State) (g : Gang) (d a : BitVec 7), s.Issues g →
    let code := s.elementCode g
    let flush := g.trim.getLsbD 11
    let lanes := g.active s.group
    (ElementsReady s g arithmeticCode [a.toNat] →
      s.Settled g [] (if code = 8 then [d.toNat, d.toNat + 1] else [d.toNat]) → (code = 8 → d.toNat % 2 = 0) →
      ∀ e ∈ floatReductions d a,
      let r (j : Nat) : Option Nat × Flags := reduceTree (e.2.1 code flush) 7 ((List.range 64).map fun l =>
        if l ∈ lanes then some (g.element code a.toNat l j) else none)
      let parts := (List.range (elementCount code)).map r
      let x := joinElements code (parts.map fun p => p.1.getD (e.2.2 code))
      let fl := laneFlags lanes fun _ => joinFlags (parts.map (·.2))
      g.enabledTraps fl = 0 →
        exec e.1 s = .next (floatDone s (if code = 8 then (s.issuing g).setSpair d.toNat x
          else (s.issuing g).setS d.toNat (lowWord x)) 1 fl)) ∧
    (ElementsReady s g arithmeticCode [d.toNat, a.toNat] →
      let parts := (List.range (elementCount code)).map fun j =>
        scanValues (combineAdd code flush) none (lanes.map fun l => g.element code a.toNat l j)
      let fl := laneFlags lanes fun _ => joinFlags (parts.map (·.2))
      g.enabledTraps fl = 0 →
        exec (.vscanFadd d a) s = .next (floatDone s ((s.issuing g).setElements code d.toNat lanes fun l =>
          parts.map fun p => p.1.getD (lanes.idxOf l) 0) 1 fl))

/-- `xhist` adds one to the bin of each element of the active lanes in a table of 68 words in scratchpad (06 R163, 08 R210). -/
def Sys2Proof.Claim.HistogramResult : Prop :=
  ∀ (s : State) (g : Gang) (crew : Crew) (a b : BitVec 7), s.Issues g → s.crews.find g.crew = some crew →
    floatCode (s.elementCode g) = true → s.Settled g (elementRegs (s.elementCode g) a.toNat) [b.toNat] →
    (s.elementCode g = 8 → a.toNat % 2 = 0) →
    (g.sreg b.toNat).toNat % 4 = 0 → (g.sreg b.toNat).toNat + 272 ≤ crew.padSize →
      let bins := (g.active s.group).flatMap fun l => (List.range (elementCount (s.elementCode g))).map fun j =>
        exponentBin (s.elementCode g) (if elementCount (s.elementCode g) = 2 then (g.vreg a.toNat l).toNat / 65536 ^ j % 65536
          else if s.elementCode g = 8 then (g.vpair a.toNat l).toNat
          else (g.vreg a.toNat l).toNat % 2 ^ formatWidth (s.elementCode g))
      exec (.xhist a b) s = .next ((s.countBins (coreOf s.gang) crew (g.sreg b.toNat).toNat bins).advance (s.issuing g) 1)

/-- A table that is not aligned traps with MISALIGNED, and one that does not lie in the crew's scratchpad with SCRATCHPAD_RANGE, and
nothing is counted (08 R210). -/
def Sys2Proof.Claim.HistogramTraps : Prop :=
  ∀ (s : State) (g : Gang) (crew : Crew) (a b : BitVec 7), s.Issues g → s.crews.find g.crew = some crew →
    floatCode (s.elementCode g) = true → s.Settled g (elementRegs (s.elementCode g) a.toNat) [b.toNat] →
    (s.elementCode g = 8 → a.toNat % 2 = 0) →
    ((g.sreg b.toNat).toNat % 4 ≠ 0 → exec (.xhist a b) s =
      .next (s.trapAt (s.issuing g) .misaligned (g.enabled s.group) 0)) ∧
    ((g.sreg b.toNat).toNat % 4 = 0 → crew.padSize < (g.sreg b.toNat).toNat + 272 → exec (.xhist a b) s =
      .next (s.trapAt (s.issuing g) .scratchpadRange (g.enabled s.group) 0))

/-- Counting adds to each of the 68 counters, modulo 2^32, the number of values in its bin, and changes no other byte of scratchpad and
nothing else (06 R163). -/
def Sys2Proof.Claim.BinsCounted : Prop :=
  ∀ (s : State) (core : Nat) (crew : Crew) (table : Nat) (bins : List Nat), crew.granules.Nodup →
    crew.padSize ≤ 4096 * crew.granules.length → table + 272 ≤ crew.padSize → (∀ i ∈ bins, i < 68) →
    let t := s.countBins core crew table bins
    (∀ i < 68, t.padRead core crew (table + 4 * i) 4 = (s.padRead core crew (table + 4 * i) 4 + bins.count i) % 2 ^ 32) ∧
    (∀ o, (∀ i < 272, crew.padByte (table + i) ≠ o) → (t.core core).scratch.get o = (s.core core).scratch.get o) ∧
    { t.core core with scratch := (s.core core).scratch } = s.core core ∧ (∀ n, n ≠ core → t.core n = s.core n) ∧
    { t with cores := s.cores } = s

/-- A modifier and the eligible instruction after it are one instruction of two words, with the modified function: the arithmetic and the
functions, the conversions, the dot products and `fscale` (02 R46-R49). -/
def Sys2Proof.Claim.ModifierPairRuns : Prop :=
  ∀ (s t : State) (g : Gang) (sat cl ng ab : Bool) (e : BitVec 6) (o : BitVec 3) (tag : BitVec 8) (w : Nat)
    (d a b : BitVec 7), s.Issues g → o.toNat ≠ 7 → ¬(sat = true ∧ cl = true) →
    s.fetch (coreOf s.gang) g.ctx (g.pc s.group + 4) = (.ok w, t) → t.Issues g → t.gang = s.gang → t.group = s.group →
    let m := some (Modifier.of sat cl ng ab e o tag)
    let code := t.elementCode g
    let lanes := g.active s.group
    let runs (i : Instr) (h : Gang) (fl : Flags) : Prop := decode w = .ok i → g.enabledTraps fl = 0 →
      exec (.modifier sat cl ng ab e o tag) s = .next (floatDone t h 2 fl)
    (∀ x ∈ elementOps d a b, ElementsReady t g x.2.2.1 (d.toNat :: x.2.1) →
      let r := elementValues t g x.2.1 x.2.2.2 m
      runs x.1 ((t.issuing g).setElements code d.toNat lanes fun l => (r l).map (·.1))
        (laneFlags lanes fun l => joinFlags ((r l).map (·.2)))) ∧
    (∀ f : BitVec 3, let src := ((t.slotWord g f.toNat).extractLsb 3 0).toNat
      code ≤ 8 → src ≤ 8 → t.Settled g (elementRegs code d.toNat ++ elementRegs src a.toNat) [] →
      (code = 8 → d.toNat % 2 = 0) → (src = 8 → a.toNat % 2 = 0) →
      let r (l : Nat) : Nat × Flags := convertElement (t.fpEnv g l m) src code (g.lowElement src a.toNat l)
      runs (.cvt d a f) ((t.issuing g).setLow code d.toNat lanes fun l => (r l).1) (laneFlags lanes fun l => (r l).2)) ∧
    (∀ signed : Bool, ElementsReady t g floatCode [d.toNat] → t.Settled g [a.toNat] [] →
      let r (l : Nat) : Nat × Flags := integerValue t g m signed a.toNat l
      runs (if signed then .cvtf d a else .cvtfU d a) ((t.issuing g).setLow code d.toNat lanes fun l => (r l).1)
        (laneFlags lanes fun l => (r l).2)) ∧
    (ElementsReady t g arithmeticCode [d.toNat, a.toNat] → t.Settled g [b.toNat] [] →
      let r := scaledValues t g m a.toNat b.toNat
      runs (.fscale d a b) ((t.issuing g).setElements code d.toNat lanes fun l => (r l).map (·.1))
        (laneFlags lanes fun l => joinFlags ((r l).map (·.2)))) ∧
    (t.Settled g [d.toNat, a.toNat, b.toNat] [] → ∀ x ∈ dots d a b, code ∈ x.2 →
      let r := dotValue t g m d.toNat a.toNat b.toNat
      runs x.1 ((t.issuing g).setV d.toNat lanes fun l => BitVec.ofNat 32 (r l).1) (laneFlags lanes fun l => (r l).2))

/-- The modifier word is illegal, and nothing of the pair executes, where its override is 7, where it has both saturate and clamp, and
where the following word stands for no instruction or for one that is not eligible (02 R46). -/
def Sys2Proof.Claim.ModifierIllegal : Prop :=
  ∀ (s : State) (g : Gang) (sat cl ng ab : Bool) (e : BitVec 6) (o : BitVec 3) (tag : BitVec 8), s.Issues g →
    (o.toNat = 7 ∨ (sat = true ∧ cl = true) → exec (.modifier sat cl ng ab e o tag) s =
      .next (s.trapAt (s.issuing g) .illegalInstruction (g.enabled s.group) 0)) ∧
    (o.toNat ≠ 7 → ¬(sat = true ∧ cl = true) → ∀ (w : Nat) (t : State),
      s.fetch (coreOf s.gang) g.ctx (g.pc s.group + 4) = (.ok w, t) → t.group = s.group →
      ((∃ x, decode w = .error x) ∨ ∃ i, decode w = .ok i ∧ eligible i = false) →
        exec (.modifier sat cl ng ab e o tag) s =
          .next (t.trapAt (s.issuing g) .illegalInstruction (g.enabled s.group) 0))

namespace Sys2Proof.Claim
open Sys2Proof.Machine

/-! ### Values, grids and rounding (06) -/

/-- The real that a finite exact value stands for. -/
def realOf (x : Machine.Num) : ℚ :=
  match x with
  | .num neg m e _ => (if neg then -1 else 1) * (m : ℚ) * 2 ^ e
  | _ => 0

/-- A magnitude on a format's grid, extended with an unbounded exponent (06 R154). -/
def OnGrid (code : Nat) (x : ℚ) : Prop :=
  ∃ (k : Nat) (n : Int), k < 2 ^ (fractionBits code + 1) ∧ subnormalExp code ≤ n ∧ x = (k : ℚ) * 2 ^ n

/-- The format's largest finite magnitude. -/
def largest (code : Nat) : ℚ := (maxSignificand code : ℚ) * 2 ^ maxExp code

/-- The magnitude that a mode chooses for `x`, which lies strictly between its neighbours `lo` and `hi` (06 R155, R162). -/
def picks (mode r : Nat) (neg : Bool) (lo x hi w : ℚ) : Prop :=
  match mode with
  | 0 => (x - lo < hi - x ∧ w = lo) ∨ (hi - x < x - lo ∧ w = hi) ∨
      (x - lo = hi - x ∧ (w = lo ∨ w = hi) ∧ ∃ k : Nat, w = 2 * (k : ℚ) * (hi - lo))
  | 1 => w = lo
  | 2 => w = if neg then lo else hi
  | 3 => w = if neg then hi else lo
  | 4 => (x - lo < hi - x ∧ w = lo) ∨ (hi - x ≤ x - lo ∧ w = hi)
  | _ => w = if 65536 ≤ ⌊(x - lo) / (hi - lo) * 65536⌋ + (r : Int) then hi else lo

/-- The magnitude of the grid that rounding takes for `x` (06 R154). -/
def Chosen (code mode r : Nat) (neg : Bool) (x w : ℚ) : Prop :=
  (OnGrid code x ∧ w = x) ∨
  (¬OnGrid code x ∧ ∃ lo hi, OnGrid code lo ∧ OnGrid code hi ∧ lo < x ∧ x < hi ∧
    (∀ z, OnGrid code z → z ≤ lo ∨ hi ≤ z) ∧ picks mode r neg lo x hi w)

/-- The bits of a finite number of a floating-point format. -/
def FiniteBits (code bits : Nat) : Prop :=
  bits < 2 ^ formatWidth code ∧ (classOf code bits = .zero ∨ classOf code bits = .subnormal ∨ classOf code bits = .normal)

/-- The real of a format's bits. -/
def valueOf (code bits : Nat) : ℚ := realOf (decodeNum code bits)

/-- `x` stands exactly for the real `v`. -/
def Exactly (x : Machine.Num) (v : ℚ) : Prop := ∃ neg m e, x = .num neg m e false ∧ realOf x = v

/-- The magnitude `v` is m × 2^e, or, where more bits follow the 100 and more of m, lies strictly between that and the next. -/
def Leads (m : Nat) (e : Int) (more : Bool) (v : ℚ) : Prop :=
  if more then 2 ^ 100 ≤ m ∧ (m : ℚ) * 2 ^ e < v ∧ v < ((m : ℚ) + 1) * 2 ^ e else m ≠ 0 ∧ v = (m : ℚ) * 2 ^ e

/-- The instructions that compute a sum or product exactly and round it once, and their exact result of a, b and d (08 R195). -/
def exactOps : List (ElementFn × (ℚ → ℚ → ℚ → ℚ)) :=
  [(fnAdd, fun a b _ => a + b), (fnSub, fun a b _ => a - b), (fnMul, fun a b _ => a * b), (fnFma, fun a b d => a * b + d),
   (fnFms, fun a b d => a * b - d), (fnFnma, fun a b d => -(a * b) + d)]

end Sys2Proof.Claim

open Sys2Proof Sys2Proof.Machine Sys2Proof.Claim

/-- Rounding a finite value that is not zero into a floating-point format: the magnitude chosen is that of R154 and R155 (R162 for SR); beyond the largest
finite value it becomes an infinity, or under RTZ, and RUP or RDN toward zero, the largest finite value; overflow is raised exactly when it
lies beyond, or would have under RNE where the mode chose the lower neighbour; inexact is raised exactly when what results differs from the value, underflow exactly when it differs, is not zero and lies below every normal
magnitude (06 R154, R155, R158). -/
def Sys2Proof.Claim.RoundingChoosesNeighbour : Prop :=
  ∀ (code mode r m : Nat) (neg more : Bool) (e : Int) (x : ℚ), isFloat code = true → mode < 6 → Leads m e more x →
    let y := (roundNum code mode r (.num neg m e more)).1
    let flags := (roundNum code mode r (.num neg m e more)).2
    let toward : Bool := mode == 1 || (mode == 2 && neg) || (mode == 3 && !neg)
    ∃ w, Chosen code mode r neg x w ∧
      (w ≤ largest code → ∃ k n, y = .num neg k n false ∧ (k : ℚ) * 2 ^ n = w) ∧
      (largest code < w → toward = false → y = .inf neg) ∧
      (largest code < w → toward = true → ∃ k n, y = .num neg k n false ∧ (k : ℚ) * 2 ^ n = largest code) ∧
      (flags.getLsbD 2 = true ↔ largest code < w ∨ ∃ v, Chosen code 0 r neg x v ∧ w < v ∧ largest code < v) ∧
      (flags.getLsbD 4 = true ↔ w ≠ x ∨ largest code < w) ∧
      (flags.getLsbD 3 = true ↔ w ≠ x ∧ w ≠ 0 ∧ w < (2 : ℚ) ^ (subnormalExp code + fractionBits code)) ∧
      flags.getLsbD 0 = false ∧ flags.getLsbD 1 = false

/-- A value on a format's grid and within its range is delivered as the bits that decode to it, with its sign, except that E2M1 writes every
zero as 0; infinities, NaNs and values outside an integer's range are delivered as R156 says, and flush makes a subnormal result a zero of
its sign, with underflow and inexact (06 R156, R159). -/
def Sys2Proof.Claim.DeliveredValues : Prop :=
  (∀ (code m : Nat) (neg outliers : Bool) (e : Int) (fl : Flags), isFloat code = true → OnGrid code ((m : ℚ) * 2 ^ e) →
    (m : ℚ) * 2 ^ e ≤ largest code →
    let b := deliver code outliers (.num neg m e false) fl
    FiniteBits code b.1 ∧ valueOf code b.1 = realOf (.num neg m e false) ∧ b.2 = fl ∧ (code ≠ 5 → signOf code b.1 = neg) ∧
      (code = 5 → m = 0 → b.1 = 0)) ∧
  (∀ (outliers neg : Bool) (fl : Flags), deliver 3 outliers (.inf neg) fl = (if neg then 0xFF else 0x7F, fl) ∧
    deliver 5 outliers (.inf neg) fl = (if neg then 0xF else 0x7, fl) ∧ deliver 5 outliers (.nan neg) fl = (0, 1) ∧
    (∀ code ∈ [0, 1, 2, 4, 8], deliver code outliers (.inf neg) fl =
        ((if neg then 2 ^ (formatWidth code - 1) else 0) + (2 ^ exponentBits code - 1) * 2 ^ fractionBits code, fl) ∧
      classOf code (deliver code outliers (.nan neg) fl).1 = .quiet ∧ (deliver code outliers (.nan neg) fl).2 = fl)) ∧
  (∀ (code : Nat) (outliers neg : Bool) (m : Nat) (fl : Flags), code = 6 ∨ code = 7 →
    let low : Int := if code = 6 then -128 else if outliers then -7 else -8
    let high : Int := if code = 6 then 127 else 7
    let v : Int := if neg then -m else m
    let put (x : Int) : Nat := (x % (if code = 6 then 256 else 16)).toNat
    deliver code outliers (.nan neg) fl = (0, 1) ∧ deliver code outliers (.inf neg) fl = (put (if neg then low else high), 1) ∧
    deliver code outliers (.num neg m 0 false) fl = (if v < low then (put low, 1) else if high < v then (put high, 1)
      else (put v, fl))) ∧
  (∀ (code m : Nat) (neg flush : Bool) (e : Int) (fl : Flags), isFloat code = true → OnGrid code ((m : ℚ) * 2 ^ e) →
    flushResult code flush (.num neg m e false) fl =
      if flush = true ∧ code ≠ 5 ∧ m ≠ 0 ∧ (m : ℚ) * 2 ^ e < (2 : ℚ) ^ (subnormalExp code + fractionBits code)
      then (.num neg 0 0 false, fl ||| 24) else (.num neg m e false, fl))

/-- The arithmetic of elements: of finite operands each sum and product is the rounding of the exact one, raising nothing of its own, and a
zero sum of opposite signs is +0, or −0 under RDN, and a zero product or quotient has the exclusive-or of the signs; quotients and square roots
keep what decides their rounding; the minimum and maximum are one of the operands, and no operand is below, or above, it, −0 lying below +0,
and of NaNs what 08 R196 says (06 R144, R157; 08 R195-R197). -/
def Sys2Proof.Claim.ExactOperations : Prop :=
  (∀ (env : FpEnv) (code j a b d : Nat), arithmeticCode code = true → env.flush = false →
    FiniteBits code a → FiniteBits code b → FiniteBits code d → ∀ op ∈ exactOps,
      ∃ x, Exactly x (op.2 (valueOf code a) (valueOf code b) (valueOf code d)) ∧ op.1 env code j [a, b, d] = env.result code j x 0) ∧
  (∀ (mode : Nat) (neg : Bool) (m : Nat) (e : Int), m ≠ 0 →
    addNum mode (.num neg m e false) (.num (!neg) m e false) = (.num (mode == 3) 0 0 false, 0)) ∧
  (∀ (env : FpEnv) (code j a b : Nat), arithmeticCode code = true → env.flush = false → FiniteBits code a → FiniteBits code b →
    (valueOf code a ≠ 0 → valueOf code b ≠ 0 → ∃ m e more,
      Leads m e more |valueOf code a / valueOf code b| ∧
      fnDiv env code j [a, b] = env.result code j (.num (decide (valueOf code a / valueOf code b < 0)) m e more) 0) ∧
    (0 < valueOf code a → ∃ m e more, fnUnary sqrtNum env code j [a] = env.result code j (.num false m e more) 0 ∧
      if more then 2 ^ 100 ≤ m ∧ ((m : ℚ) * 2 ^ e) ^ 2 < valueOf code a ∧ valueOf code a < (((m : ℚ) + 1) * 2 ^ e) ^ 2
      else valueOf code a = ((m : ℚ) * 2 ^ e) ^ 2)) ∧
  (∀ (env : FpEnv) (code j a b : Nat) (larger numForm : Bool), arithmeticCode code = true → env.flush = false →
    env.modifier = none → FiniteBits code a → FiniteBits code b →
    let r := fnMinMax larger numForm env code j [a, b]
    (r.1 = a ∨ r.1 = b) ∧ r.2 = 0 ∧
      (if larger then valueOf code a ≤ valueOf code r.1 ∧ valueOf code b ≤ valueOf code r.1
       else valueOf code r.1 ≤ valueOf code a ∧ valueOf code r.1 ≤ valueOf code b) ∧
      (classOf code a = .zero → classOf code b = .zero →
        signOf code r.1 = if larger then signOf code a && signOf code b else signOf code a || signOf code b)) ∧
  (∀ (env : FpEnv) (code j a b : Nat) (larger numForm : Bool), arithmeticCode code = true → env.modifier = none →
    let nan (x : Nat) : Prop := classOf code x = .signalling ∨ classOf code x = .quiet
    let fl : Flags := if classOf code a = .signalling ∨ classOf code b = .signalling then 1 else 0
    let canonical : Nat := (2 ^ exponentBits code - 1) * 2 ^ fractionBits code + 2 ^ (fractionBits code - 1)
    let read (x : Nat) : Nat :=
      if env.flush = true ∧ classOf code x = .subnormal then if signOf code x then 2 ^ (formatWidth code - 1) else 0 else x
    (numForm = false → nan a ∨ nan b → fnMinMax larger numForm env code j [a, b] = (canonical, fl)) ∧
    (nan a → nan b → fnMinMax larger numForm env code j [a, b] = (canonical, fl)) ∧
    (numForm = true → nan a → ¬nan b → fnMinMax larger numForm env code j [a, b] = (read b, fl)) ∧
    (numForm = true → ¬nan a → nan b → fnMinMax larger numForm env code j [a, b] = (read a, fl)) ∧
    (¬nan a → ¬nan b → fnMinMax larger numForm env code j [a, b] =
      fnMinMax larger numForm { env with flush := false } code j [read a, read b])) ∧
  (∀ (env : FpEnv) (code j a b : Nat), arithmeticCode code = true → env.flush = false → env.modifier = none →
    FiniteBits code a → FiniteBits code b →
    let signed : Nat := if signOf code a = signOf code b then 0 else 2 ^ (formatWidth code - 1)
    (valueOf code a = 0 ∨ valueOf code b = 0 → fnMul env code j [a, b] = (signed, 0)) ∧
    (valueOf code a = 0 → valueOf code b ≠ 0 → fnDiv env code j [a, b] = (signed, 0)))

/-- Comparison of two values that are not NaN: by value, −0 and +0 equal, an infinity beyond every finite value (08 R201). -/
def Sys2Proof.Claim.CompareOrder : Prop :=
  (∀ (a b : Bool) (m n : Nat) (e f : Int),
    let x := realOf (.num a m e false)
    let y := realOf (.num b n f false)
    compareNum (.num a m e false) (.num b n f false) = (if x < y then -1 else if x = y then 0 else 1) ∧
    compareNum (.inf a) (.num b n f false) = (if a then -1 else 1) ∧
    compareNum (.num a m e false) (.inf b) = (if b then 1 else -1)) ∧
  compareNum (.inf false) (.inf false) = 0 ∧ compareNum (.inf true) (.inf true) = 0 ∧
    compareNum (.inf true) (.inf false) = -1 ∧ compareNum (.inf false) (.inf true) = 1

/-- A conversion to a 32-bit integer rounds the value to an integer by the mode, and raises inexact where that is another; beyond the range
it gives the nearer end, and of a NaN 0, with invalid alone (06 R154, R155; 08 R204). -/
def Sys2Proof.Claim.IntegerFromFloat : Prop :=
  ∀ (signed : Bool) (mode r : Nat) (own : Flags),
    let low : Int := if signed then -2147483648 else 0
    let high : Int := if signed then 2147483647 else 4294967295
    (∀ neg, toInteger signed mode r (.nan neg) own = (0, 1) ∧
      toInteger signed mode r (.inf neg) own = (BitVec.ofInt 32 (if neg then low else high), 1)) ∧
    ∀ (neg : Bool) (m : Nat) (e : Int), mode < 6 →
      let v : ℚ := (m : ℚ) * 2 ^ e
      ∃ k : Nat, ((k : ℚ) = v ∨ (∀ j : Nat, (j : ℚ) ≠ v) ∧
          ∃ lo : Nat, (lo : ℚ) < v ∧ v < (lo : ℚ) + 1 ∧ picks mode r neg lo v ((lo : ℚ) + 1) k) ∧
        let n : Int := if neg then -(k : Int) else k
        toInteger signed mode r (.num neg m e false) own =
          if high < n then (BitVec.ofInt 32 high, 1) else if n < low then (BitVec.ofInt 32 low, 1)
          else (BitVec.ofInt 32 n, own ||| if (k : ℚ) = v then 0 else 16)

/-- A conversion between formats: a finite value is rounded as it stands, one that flush reads as zero as a zero of its sign, an infinity as
one, and a NaN as the canonical NaN, invalid where it is signalling; between equal formats, with no modifier before the word, every bit is
kept but of a signalling NaN (06 R159; 08 R203). That the last holds also where the trim flushes is log 31's reading. -/
def Sys2Proof.Claim.ConvertedElement : Prop :=
  ∀ (env : FpEnv) (src dst bits : Nat), src ≤ 8 → dst ≤ 8 →
    let flushed := env.flush = true ∧ src ≠ 5 ∧ src ≠ 6 ∧ src ≠ 7 ∧ classOf src bits = .subnormal
    let kept := src = dst ∧ env.modifier = none
    (kept → classOf src bits ≠ .signalling → convertElement env src dst bits = (bits, 0)) ∧
    (¬kept → flushed → convertElement env src dst bits = env.result dst 0 (.num (signOf src bits) 0 0 false) 0) ∧
    (¬kept → ¬flushed → FiniteBits src bits →
      ∃ x, Exactly x (valueOf src bits) ∧ convertElement env src dst bits = env.result dst 0 x 0) ∧
    (¬kept → classOf src bits = .infinite → convertElement env src dst bits = env.result dst 0 (.inf (signOf src bits)) 0) ∧
    (¬kept → classOf src bits = .quiet → convertElement env src dst bits = env.result dst 0 (.nan false) 0) ∧
    (classOf src bits = .signalling → convertElement env src dst bits = env.result dst 0 (.nan false) 1)

/-- The sum of a dot product is exact: of finite values it stands for the sum of the products and the addend; a NaN, a product of zero and
infinity, or infinities of both signs make it a NaN, and only the two last raise invalid (06 R144, R158; 08 R208). -/
def Sys2Proof.Claim.DotSumExact : Prop :=
  ∀ (mode : Nat) (ps : List (Machine.Num × Machine.Num)) (v : Machine.Num) (f : Flags),
    let finite (x : Machine.Num) : Prop := ∃ neg m e, x = .num neg m e false
    ((∀ p ∈ ps, finite p.1 ∧ finite p.2) → finite v →
      Exactly (dotSum mode ps (v, f)).1 (realOf v + (ps.map fun p => realOf p.1 * realOf p.2).sum)) ∧
    ((∀ a, v ≠ .inf a) → (∀ p ∈ ps, ∀ a, p.1 ≠ .inf a ∧ p.2 ≠ .inf a) → (dotSum mode ps (v, f)).2 = f) ∧
    ((isNaN v = true ∨ ∃ p ∈ ps, isNaN p.1 = true ∨ isNaN p.2 = true) → isNaN (dotSum mode ps (v, f)).1 = true) ∧
    ((∃ p ∈ ps, (∃ a b e, p = (.inf a, .num b 0 e false)) ∨ ∃ a b e, p = (.num b 0 e false, .inf a)) →
      isNaN (dotSum mode ps (v, f)).1 = true ∧ (dotSum mode ps (v, f)).2.getLsbD 0 = true) ∧
    (∀ a b c e m n, dotSum mode [(.inf a, .num b (m + 1) e false)] (.inf c, f) =
      (if (a != b) = c then (.inf c, f) else (.nan false, f ||| 1)) ∧
      dotSum mode [(.num b (m + 1) e false, .num c n e false)] (.inf a, f) = (.inf a, f))

/-- The class mask and the histogram bin of a value are those of its fields (06 R145, R146, R163; 08 R202). -/
def Sys2Proof.Claim.ClassesAndBins : Prop :=
  (∀ code bits : Nat, arithmeticCode code = true → bits < 2 ^ formatWidth code → classMask code bits = classBits code bits) ∧
  (∀ code bits : Nat, isFloat code = true → bits < 2 ^ formatWidth code → binOf code bits = exponentBin code bits) ∧
  (∀ code bits : Nat, code = 6 ∨ code = 7 → bits < 2 ^ formatWidth code →
    let v : Nat := if bits < 2 ^ (formatWidth code - 1) then bits else 2 ^ formatWidth code - bits
    binOf code bits = if v = 0 then 64 else v.log2 + 32)

namespace Sys2Proof.Claim
open Sys2Proof.Machine

/-! ### Control, special registers and traps (07, 11) -/

/-- The lanes of slice `j` that its branch takes. -/
def takenLanes (sl : Slice) (j : Nat) (c : Nat → Bool) (i : Nat) : Bool := sl.top.getLsbD i && c (4 * j + i)

/-- The lanes that a mask stack enables or keeps for later: in the top entry, and in the pending entries below it. -/
def keptLanes (sl : Slice) (i : Nat) : Bool :=
  sl.top.getLsbD i || (sl.stack.drop 1).any fun e => e.kind == .pending && e.mask.getLsbD i

/-- What an arrival at a barrier does to the gang, its crew and its die, the gang then waiting for `wait` unless that is over; the end of a
wait is an acquire read (11 R256, R257, R261, R264), which merges the applied vector of the gang's own die (05 R136; log 28's reading). -/
def arrived (s : State) (g : Gang) (crew : Crew) (wait : Wait) : State :=
  let s1 := (s.release (coreOf s.gang)).setCrew g.crew crew
  let g1 := (s.issuing g).released s1 (coreOf s.gang)
  let ended := s1.waitOver { g1 with wait := wait }
  s1.advance { (if ended && wait != .none then g1.merge (s1.applied (dieOf (coreOf s.gang))) else g1) with wait := if ended then .none else wait } 1

/-- The contexts of `t` are those of `s` but for a halt that has begun or gone on to its forced step (19 R367). -/
def OnlyHalts (s t : State) : Prop :=
  ∀ n, (t.contexts.find n).map (fun c => { c with state := .running, halt := none }) =
    (s.contexts.find n).map fun c => { c with state := .running, halt := none }

/-- The least multiple of `n` that is not below `x` (11 R257). -/
def IsLeastMultiple (n x m : Nat) : Prop := n ∣ m ∧ x ≤ m ∧ ∀ k, n ∣ k → x ≤ k → m ≤ k

end Sys2Proof.Claim

open Sys2Proof Sys2Proof.Machine Sys2Proof.Claim

/-- `br`: each issuing slice whose enabled lanes agree goes to the target or to the next word, and one whose lanes disagree falls
through with the lanes not taken, keeping the taken ones pending at the target (07 R183, 11 R244). -/
def Sys2Proof.Claim.BranchResult : Prop :=
  ∀ (s : State) (g : Gang) (p : BitVec 4) (n : Bool) (o : BitVec 20), s.Issues g →
    let target := g.pc s.group + (o.signExtend 64 <<< 2)
    let c (l : Nat) : Bool := g.preg p.toNat l != n
    exec (.br p n o) s = .next (s.proceed (s.issuing g) 1 (Slice.branch c target)) ∧
    ∀ (j : Nat) (sl : Slice),
      ((∀ i < 4, takenLanes sl j c i = sl.top.getLsbD i) → Slice.branch c target j sl = { sl with pc := target }) ∧
      ((∀ i < 4, takenLanes sl j c i = false) → sl.top ≠ 0 → Slice.branch c target j sl = { sl with pc := sl.pc + 4 }) ∧
      ((∃ i < 4, takenLanes sl j c i = true) → (∃ i < 4, takenLanes sl j c i ≠ sl.top.getLsbD i) →
        ∃ taken : BitVec 4, (∀ i < 4, taken.getLsbD i = takenLanes sl j c i) ∧
          Slice.branch c target j sl = { sl with
            pc := sl.pc + 4
            stack := ⟨sl.top &&& ~~~taken, .running, 0⟩ :: ⟨taken, .pending, target⟩ :: sl.stack })

/-- A branch loses no lane: each enabled lane of the slice stays enabled or is kept pending (11 R244). -/
def Sys2Proof.Claim.BranchLosesNoLane : Prop :=
  ∀ (c : Nat → Bool) (target : DWord) (j : Nat) (sl : Slice) (i : Nat), i < 4 →
    sl.top.getLsbD i = true → keptLanes (Slice.branch c target j sl) i = true

/-- `jmp` and `ret` go to the address of a pair, or trap where it is no address of a word, or the pair is odd; `call` leaves the return
address in s126:127 and goes to its target, with no trap of its own (07 R184, R185). -/
def Sys2Proof.Claim.JumpResult : Prop :=
  ∀ (s : State) (g : Gang), s.Issues g →
    (∀ (a : BitVec 7), a.toNat % 2 = 0 → s.Settled g [] [a.toNat, a.toNat + 1] →
      let target := g.spair a.toNat
      (target.toNat < 2 ^ 48 → target.toNat % 4 = 0 →
        exec (.jmp a) s = .next (s.proceed (s.issuing g) 1 fun _ sl => { sl with pc := target }) ∧
        exec (.ret a) s = .next (s.proceed (s.issuing g) 1 fun _ sl => { sl with pc := target })) ∧
      ∀ i ∈ [Instr.jmp a, .ret a],
        (2 ^ 48 ≤ target.toNat → exec i s = .next (s.trapAt (s.issuing g) .protection (g.enabled s.group) 0)) ∧
        (target.toNat < 2 ^ 48 → target.toNat % 4 ≠ 0 →
          exec i s = .next (s.trapAt (s.issuing g) .misaligned (g.enabled s.group) 0))) ∧
    (∀ (a : BitVec 7), a.toNat % 2 = 1 → ∀ i ∈ [Instr.jmp a, .ret a],
      exec i s = .next (s.trapAt g .registerRange (g.enabled s.group) 0)) ∧
    (∀ (o : BitVec 20), s.Settled g [] [126, 127] →
      exec (.call o) s = .next (s.proceed ((s.issuing g).setSpair 126 (g.pc s.group + 4)) 1 fun _ sl =>
        { sl with pc := g.pc s.group + (o.signExtend 64 <<< 2) }))

/-- `join` ends a path: a slice with one entry goes on, and one with more drops the top and continues at a pending path, which then
resumes; it drops also an entry whose path was to end at this join, unless it is the last; and it goes on past the join once neither is on
top (11 R245). -/
def Sys2Proof.Claim.JoinResult : Prop :=
  ∀ (s : State) (g : Gang), s.Issues g → exec .join s = .next (s.proceed (s.issuing g) 1 Slice.join) ∧
    ∀ (sl : Slice) (j : Nat) (x y : MaskEntry) (rest : List MaskEntry),
      (sl.stack = [x] → Slice.join j sl = { sl with pc := sl.pc + 4 }) ∧
      (sl.stack = x :: y :: rest → y.kind = .pending →
        Slice.join j sl = { sl with pc := y.addr, stack := { y with kind := .resumed, addr := sl.pc } :: rest }) ∧
      (sl.stack = x :: y :: rest → y.kind = .resumed → y.addr = sl.pc → rest ≠ [] →
        Slice.join j sl = Slice.join j { sl with stack := y :: rest }) ∧
      (sl.stack = x :: y :: rest → y.kind = .running ∨ y.kind = .resumedFree ∨ y.kind = .resumed ∧ (y.addr ≠ sl.pc ∨ rest = []) →
        Slice.join j sl = { sl with pc := sl.pc + 4, stack := y :: rest })

/-- `nop` changes nothing but the program counter (02 R53); `regang` parks the issuing slices until every running slice has parked (11
R251); `exit` outside refill mode removes the enabled lanes of the issuing slices, and with the last lane the gang ends (07 R186, 11
R246). -/
def Sys2Proof.Claim.NopRegangExit : Prop :=
  ∀ (s : State) (g : Gang), s.Issues g →
    exec .nop s = .next (s.advance (s.issuing g) 1) ∧
    (let parked := (s.issuing g).mapMembers s.group fun _ sl => { sl with parked := true }
     let freed := parked.releaseParked (s.stepEnd g)
     ((∃ sl ∈ freed.slices, sl.status = .running ∧ sl.parked = true) →
        exec .regang s = .next { s.setGang s.gang parked with idle := true }) ∧
     ((∀ sl ∈ freed.slices, sl.status = .running → sl.parked = false) →
        exec .regang s = .next (s.setGang s.gang { freed with lastGroup := s.group }))) ∧
    (g.refill = none →
      let s1 := s.proceed (s.issuing g) 1 fun _ sl => sl.dropLanes sl.top .ended none
      ∃ h, s1.gangs.find s.gang = some h ∧
        exec .exit s = .next (if h.hasEnded then s1.gangEnds h else s1.setGang s.gang (h.releaseParked none))) ∧
    (g.refill ≠ none → exec .exit s = .next (s.trapAt (s.issuing g) .manifestFault (g.enabled s.group) 0))

/-- The lanes that `exit` removes stand in no entry of the slice afterwards, and a slice left without lanes has ended (11 R246). -/
def Sys2Proof.Claim.ExitRemovesLanes : Prop :=
  ∀ (sl : Slice) (lanes : BitVec 4),
    (∀ e ∈ (sl.dropLanes lanes .ended none).stack, e.mask &&& lanes = 0) ∧
    ((∀ e ∈ sl.stack, e.mask &&& ~~~lanes = 0) →
      (sl.dropLanes lanes .ended none).stack = [] ∧ (sl.dropLanes lanes .ended none).status = .ended)

/-- `bar`, `barc` and `arrive`: the arrival is made and the gang goes on, waiting until the total reaches the least multiple of the
number of gangs that is not below it; `await` ends once the count has reached its target, and until then waits, timed (11 R256-R261, R263).
That the end of a wait merges the applied vector of the gang's own die is log 28's reading. -/
def Sys2Proof.Claim.BarrierResult : Prop :=
  ∀ (s : State) (g : Gang) (crew : Crew), s.Issues g → s.crews.find g.crew = some crew → g.parted = false → g.refill = none →
    (s.hasLogged s.gang = false →
      (∀ (a : BitVec 4), s.anyEnded crew.gangs = false → ∃ target,
        IsLeastMultiple crew.record.gangCount ((crew.arrive a.toNat).barriers.get a.toNat).toNat target ∧
        exec (.bar a) s = .next (arrived s g (crew.arrive a.toNat) (.bar a.toNat target))) ∧
      (∀ (a : BitVec 3) (e : Convoy), crew.convoys.find? (fun x => x.defn == a.toNat) = some e → g.index ∈ e.gangs →
        s.anyEnded (e.gangs.map fun i => crew.gangs.getD i 0) = false → ∃ target,
        IsLeastMultiple e.gangs.length (e.total + 1) target ∧
        exec (.barc a) s = .next (arrived s g (crew.arriveConvoy a.toNat) (.barc a.toNat target))) ∧
      (∀ (a : BitVec 4), exec (.arrive a) s = .next (arrived s g (crew.arrive a.toNat) .none))) ∧
    (∀ (a : BitVec 4) (b : BitVec 7), s.Settled g [] [b.toNat] →
      (lowWord (crew.barriers.get a.toNat) - g.sreg b.toNat).toNat < 2 ^ 31 →
        exec (.await a b) s = .next (s.advance ((s.issuing g).merge (s.applied (dieOf (coreOf s.gang)))) 1)) ∧
    (∀ (a : BitVec 4) (b : BitVec 7), s.Settled g [] [b.toNat] →
      2 ^ 31 ≤ (lowWord (crew.barriers.get a.toNat) - g.sreg b.toNat).toNat →
        exec (.await a b) s = .next
          { s.setGang s.gang { (s.issuing g) with wait := .await a.toNat (g.sreg b.toNat), waited := 0 } with idle := true })

/-- A barrier instruction of a parted gang, or of one in refill mode, raises BARRIER_MISUSE, with no arrival and no wait; so does `bar` once
a gang of the crew has ended, and `barc` of a definition that is unused, does not list the gang, or lists one that has ended (11 R256). -/
def Sys2Proof.Claim.BarrierMisuseTrap : Prop :=
  ∀ (s : State) (g : Gang) (crew : Crew) (a : BitVec 4) (b : BitVec 7), s.Issues g → s.crews.find g.crew = some crew →
    ((g.parted = true ∨ g.refill ≠ none) →
      exec (.bar a) s = .next (s.trapAt (s.issuing g) .barrierMisuse (g.enabled s.group) 0) ∧
      exec (.arrive a) s = .next (s.trapAt (s.issuing g) .barrierMisuse (g.enabled s.group) 0) ∧
      (∀ c : BitVec 3, exec (.barc c) s = .next (s.trapAt (s.issuing g) .barrierMisuse (g.enabled s.group) 0)) ∧
      (s.Settled g [] [b.toNat] →
        exec (.await a b) s = .next (s.trapAt (s.issuing g) .barrierMisuse (g.enabled s.group) 0))) ∧
    (s.anyEnded crew.gangs = true →
      exec (.bar a) s = .next (s.trapAt (s.issuing g) .barrierMisuse (g.enabled s.group) 0)) ∧
    (∀ c : BitVec 3,
      (∀ e, crew.convoys.find? (fun x => x.defn == c.toNat) = some e →
        g.index ∉ e.gangs ∨ s.anyEnded (e.gangs.map fun i => crew.gangs.getD i 0) = true) →
      exec (.barc c) s = .next (s.trapAt (s.issuing g) .barrierMisuse (g.enabled s.group) 0))

/-- When a gang ends outside every rendezvous, a gang of its crew that waits at `bar`, or at `barc` on a definition that lists the ended one,
stops at its barrier instruction with BARRIER_MISUSE, without acquiring, and its arrival stays counted; one that waits at `await` waits on
(11 R262). -/
def Sys2Proof.Claim.BarredGangStops : Prop :=
  ∀ (s : State) (g h : Gang) (crew : Crew) (key : Nat), s.crews.find g.crew = some crew → h.crew = g.crew →
    (∀ e ∈ crew.convoys, e.arrivals = []) → key ∈ crew.gangs → key ≠ s.gang → s.gangs.find key = some h →
    let t := s.gangEnds g
    ((s.waitOver h = false ∧ ((∃ c n, h.wait = .bar c n) ∨
        ∃ d n, h.wait = .barc d n ∧ ∃ e ∈ crew.convoys, e.defn = d ∧ g.index ∈ e.gangs) →
      ∃ h' rec_, t.gangs.find key = some h' ∧ h'.stop = some rec_ ∧ rec_.cause = .barrierMisuse ∧ rec_.pc = h'.pc h.lastGroup ∧
        h'.slices = h.slices.map (fun sl => { sl with pc := sl.pc - 4 }) ∧ h'.wait = .none ∧ h'.stamp = h.stamp) ∧
    ((∃ c w, h.wait = .await c w) → t.gangs.find key = some h) ∧ t.crews = s.crews)

/-- A gang that has waited for 2^32 counted clocks at a barrier stops there with BARRIER_TIMEOUT, and resumes the same wait, `await` being
issued afresh; one whose wait is over does not (11 R263, R264). -/
def Sys2Proof.Claim.BarrierTimeoutStops : Prop :=
  ∀ (s : State) (g : Gang), s.gangs.find s.subject.who = some g → g.stop = none → 2 ^ 32 ≤ g.waited →
    (s.waitOver g = false →
      ∃ t h rec_, exec .barrierTimeout s = .next t ∧ t.gangs.find s.subject.who = some h ∧ h.stop = some rec_ ∧
        rec_.cause = .barrierTimeout ∧ ((∃ c w, g.wait = .await c w) → rec_.trapPc = rec_.pc ∧ h.wait = .none) ∧
        ((∀ c w, g.wait ≠ .await c w) → rec_.trapPc = rec_.pc - 4 ∧ h.wait = g.wait) ∧ h.waited = 0 ∧ h.slices = g.slices ∧
        h.v = g.v ∧ h.s = g.s ∧ h.p = g.p) ∧
    (s.waitOver g = true → exec .barrierTimeout s = .next s)

/-- What each special register holds: of the gang, of its crew with the launch's record, of its context, whose dies are numbered in the
order in which its cores' dies first appear, and of a lane (01 R19, R20; 12 R272; 16 R315). A gang
that reads them has a crew and a context, and its core is one of the context's. -/
def Sys2Proof.Claim.SpecialRegisterValues : Prop :=
  ∀ (s : State) (g : Gang) (crew : Crew) (c : Context), s.crews.find g.crew = some crew → s.contexts.find g.ctx = some c →
    (let v := s.special g
     v 0 = g.trim.setWidth 64 ∧ (v 2).toNat = g.index % 2 ^ 64 ∧ (v 3).toNat = crew.index % 2 ^ 32 ∧
       (crew.index < 2 ^ 64 → (v 4).toNat = crew.index / 2 ^ 32) ∧
       (v 5).toNat = min crew.record.crewCount.toNat 0xFFFFFFFF ∧
       (v 6).toNat = crew.record.roles.toNat / 16 ^ g.index % 16 ∧
       (∀ i < 64, (v 7).getLsbD i = true ↔ ∃ e ∈ crew.convoys, e.defn = i ∧ g.index ∈ e.gangs) ∧
       (∀ m, crew.manifest = some m → v 9 = BitVec.ofNat 64 m.tidemark) ∧ (crew.manifest = none → v 9 = 0) ∧ v 11 = g.fpflags.setWidth 64 ∧
       (crew.record.reproducible = false → v 12 = BitVec.ofNat 64 (s.clock - c.createdAt)) ∧
       (crew.record.reproducible = true → ∀ q, q = 2 ^ (crew.record.control.toNat / 2 ^ 15 % 32) →
         v 12 = BitVec.ofNat 64 (g.words / q * q)) ∧
       (∀ i : Nat, c.cores[i]? = some (coreOf s.gang) → c.cores.Nodup → v 13 = BitVec.ofNat 64 i) ∧
       (coreOf s.gang ∈ c.cores → v 14 = BitVec.ofNat 64
         ((c.cores.takeWhile fun k => dieOf k != dieOf (coreOf s.gang)).map dieOf).dedup.length) ∧
       v 15 = BitVec.ofNat 64 g.ctx ∧ v 16 = crew.launch.setWidth 64 ∧ v 17 = crew.record.params ∧
       v 18 = BitVec.ofNat 64 g.ldcount ∧ v 19 = BitVec.ofNat 64 g.width ∧
       (∀ i < 8, v (20 + i) = BitVec.ofNat 64 (g.rangeCount i)) ∧
       (∀ i < 5, v (28 + i) = BitVec.ofNat 64 (s.classCounter s.gang g i))) ∧
    (∀ l < 64, g.laneSpecial 1 l = BitVec.ofNat 32 l ∧ (∀ a, g.ages[l]? = some a → g.laneSpecial 8 l = a) ∧
      g.laneSpecial 10 l = g.srkey.get l)

/-- `rsr` reads a special register in the form its kind fixes, of `fpflags` only once the gantry instructions that will write it are done
(07 R169); `wsr` and `trim` write those that software may write, each value checked
(01 R16-R22; 07 R187, R188). -/
def Sys2Proof.Claim.SpecialRegisterResult : Prop :=
  ∀ (s : State) (g : Gang) (d : BitVec 7) (i : BitVec 10), s.Issues g →
    (s.Settled g [d.toNat] [] →
      exec (.rsr false d i) s = .next (vectorDone s g d.toNat fun l => g.laneSpecial i.toNat l) ∧
      exec (.wsrSrkey d) s = .next (s.advance
        { (s.issuing g) with srkey := g.srkey.setAll (g.active s.group) id fun l => g.vreg d.toNat l } 1)) ∧
    ((i.toNat = 12 ∨ i.toNat = 17) → d.toNat % 2 = 0 → s.Settled g [] [d.toNat, d.toNat + 1] →
      exec (.rsr true d i) s = .next (s.advance ((s.issuing g).setSpair d.toNat (s.special (s.issuing g) i.toNat)) 1)) ∧
    (i.toNat ≠ 12 → i.toNat ≠ 17 → s.Settled g [] [d.toNat] →
      ((i.toNat = 11 → s.flagsPending s.gang = false) →
        exec (.rsr true d i) s = .next (scalarDone s g d.toNat (lowWord (s.special (s.issuing g) i.toNat)))) ∧
      (i.toNat = 11 → s.flagsPending s.gang = true → exec (.rsr true d i) s = s.waiting)) ∧
    (s.Settled g [] [d.toNat] →
      (trimValid (g.sreg d.toNat) = true →
        exec (.wsrTrim d) s = .next (s.advance { (s.issuing g) with trim := g.sreg d.toNat } 1) ∧
        exec (.trim d) s = .next (s.advance { (s.issuing g) with trim := g.sreg d.toNat } 1)) ∧
      ((g.sreg d.toNat).toNat < 32 →
        exec (.wsrFpflags d) s = .next (s.advance { (s.issuing g) with fpflags := g.sreg d.toNat } 1)) ∧
      (32 ≤ (g.sreg d.toNat).toNat →
        exec (.wsrFpflags d) s = .next (s.trapAt (s.issuing g) .illegalInstruction (g.enabled s.group) 0)))

/-- A value with a reserved bit, a reserved seed or a reserved rounding mode is refused by a write of trim (01 R17). -/
def Sys2Proof.Claim.ReservedTrimTraps : Prop :=
  ∀ (s : State) (g : Gang) (d : BitVec 7), s.Issues g → s.Settled g [] [d.toNat] →
    let x := g.sreg d.toNat
    (2 ^ 20 ≤ x.toNat ∨ 3 < x.toNat / 2 ^ 17 % 8 ∨ 5 < x.toNat / 2 ^ 8 % 8) →
      exec (.wsrTrim d) s = .next (s.trapAt (s.issuing g) .illegalInstruction (g.enabled s.group) 0) ∧
      exec (.trim d) s = .next (s.trapAt (s.issuing g) .illegalInstruction (g.enabled s.group) 0)

/-- A software trap stops the gang after its instruction: the record gives the cause, the code, the lanes, the pc of the next word and
the trap pc; `trapif` traps only if an active lane's predicate is true (07 R189). -/
def Sys2Proof.Claim.SoftwareTrapResult : Prop :=
  ∀ (s : State) (g : Gang) (c : BitVec 8), s.Issues g →
    let stops (i : Instr) (cause : Trap) (lanes : List Nat) : Prop :=
      ∃ t h rec_, exec i s = .next t ∧ t.gangs.find s.gang = some h ∧ h.stop = some rec_ ∧ rec_.cause = cause ∧
        rec_.code = c.toNat ∧ rec_.laneMask = maskOf lanes ∧ rec_.pc = g.pc s.group + 4 ∧ rec_.trapPc = g.pc s.group ∧
        h.v = g.v ∧ h.s = g.s ∧ h.p = g.p ∧ h.k = g.k ∧ t.mem = s.mem
    stops (.trap c) .userTrap (g.enabled s.group) ∧ stops (.brk c) .breakpoint (g.enabled s.group) ∧
    (∀ (p : BitVec 4),
      let lanes := (g.active s.group).filter fun l => g.preg p.toNat l
      (lanes = [] → exec (.trapif p c) s = .next (s.advance (s.issuing g) 1)) ∧
      (lanes ≠ [] → stops (.trapif p c) .userTrap lanes))

/-- TAKING A STOP-CLASS TRAP: the gang keeps its registers and gets a stop record of the cause; the halt line of its running context
rises, which enters the forced step of the halt with that cause; memory and every other gang stay (19 R366, R367). -/
def Sys2Proof.Claim.StopTrapEntry : Prop :=
  ∀ (s : State) (g : Gang) (c : Context) (cause : Trap) (lanes : List Nat) (addr : DWord),
    s.gangs.find s.gang = some g → s.contexts.find g.ctx = some c → c.state = .running →
      let t := s.trapAt g cause lanes addr
      (∃ h rec_, t.gangs.find s.gang = some h ∧ h = { g with stop := some rec_ } ∧ rec_.cause = cause ∧
        rec_.laneMask = maskOf lanes ∧ rec_.address = addr ∧ rec_.pc = g.pc s.group ∧ rec_.trapPc = g.pc s.group ∧
        rec_.ctx = g.ctx ∧ rec_.timestamp = s.clock * 10 / 13) ∧
      (∃ c' h, t.contexts.find g.ctx = some c' ∧ c'.state = .halting ∧ c'.halt = some h ∧ h.forced = true ∧ h.cause = cause ∧
        c' = { c with state := .halting, halt := some h }) ∧
      t.mem = s.mem ∧ (∀ k, k ≠ s.gang → t.gangs.find k = s.gangs.find k) ∧
      t = { s with gangs := t.gangs, contexts := t.contexts }

/-- A word that stands for no instruction traps and changes nothing else; a word that cannot be fetched holds the gang before it, or,
in a sector that cannot be corrected, stops it (02 R36, R53; 19 R396). -/
def Sys2Proof.Claim.WordsThatDoNotIssue : Prop :=
  ∀ (s : State) (g : Gang), s.Issues g →
    exec .illegalInstruction s = .next (s.trapAt (s.issuing g) .illegalInstruction (g.enabled s.group) 0) ∧
    (∀ (cause : Trap) (addr : DWord) (level ring : Nat), s.fetchFault = some (cause, addr, level, ring) →
      (cause = .memoryUncorrectable →
        exec .instructionFetchFault s = .next (s.trapAt (s.issuing g) cause (g.enabled s.group) addr)) ∧
      (cause ≠ .memoryUncorrectable → ∃ t h, exec .instructionFetchFault s = .next t ∧
        t.gangs.find s.gang = some h ∧
        h = { (s.issuing g) with held := some { cause := cause, addr := addr, retry := false, group := s.group } } ∧
        t.contexts = s.contexts))

/-- Issue checks before any effect: an undeclared v register, or an odd pair, is REGISTER_RANGE, and a word's other effects do not
happen (02 R54). -/
def Sys2Proof.Claim.RegisterRangeTrap : Prop :=
  ∀ (s : State) (g : Gang) (d a b : BitVec 7) (i : BitVec 10) (j : BitVec 17) (n : BitVec 5), s.Issues g →
    (g.nregs ≤ d.toNat → ∀ e ∈ integerOps d a b i j n,
      exec (e.1 false) s = .next (s.trapAt g .registerRange (g.enabled s.group) 0)) ∧
    (d.toNat % 2 = 1 ∨ a.toNat % 2 = 1 ∨ b.toNat % 2 = 1 → ∀ c : Bool, ∀ e ∈ pairOps d a b,
      exec (e.1 c) s = .next (s.trapAt g .registerRange (g.enabled s.group) 0))

/-- A format that an instruction does not accept is ILLEGAL_FORMAT, once its registers have passed, and the word has no effect: of the
element-wise operations, the comparisons, the conversions to and from integers, and the dot products (02 R54; 08 R191). -/
def Sys2Proof.Claim.FormatTrap : Prop :=
  ∀ (s : State) (g : Gang) (d a b : BitVec 7) (p : BitVec 4), s.Issues g →
    let code := s.elementCode g
    let named (regs : List Nat) : Prop := (∀ r ∈ regs.flatMap (elementRegs code), r < g.nregs) ∧ (code = 8 → ∀ r ∈ regs, r % 2 = 0)
    let traps (i : Instr) : Prop := exec i s = .next (s.trapAt g .illegalFormat (g.enabled s.group) 0)
    (∀ e ∈ elementOps d a b, e.2.2.1 code = false → named (d.toNat :: e.2.1) → traps e.1) ∧
    (∀ e ∈ floatComparisons p a b, arithmeticCode code = false → named [a.toNat, b.toNat] → traps e.1) ∧
    (floatCode code = false → named [a.toNat] → d.toNat < g.nregs → traps (.cvti d a) ∧ traps (.cvtiU d a)) ∧
    (floatCode code = false → named [d.toNat] → a.toNat < g.nregs → traps (.cvtf d a) ∧ traps (.cvtfU d a)) ∧
    (∀ e ∈ dots d a b, code ∉ e.2 → (∀ r ∈ [d.toNat, a.toNat, b.toNat], r < g.nregs) → traps e.1)

/-- FRAME of the instructions on registers alone (integer, moves and packing): whatever they answer, of the acting gang only v register `d`
in active lanes changes among the registers, and nothing outside it but the halt that a trap begins in the contexts, every context keeping
its memory map, its resources and its launches (07 R168). -/
def Sys2Proof.Claim.VectorRegisterFrame : Prop :=
  ∀ (s t : State) (g : Gang) (d a b : BitVec 7) (i : BitVec 10) (j : BitVec 17) (n : BitVec 5),
    s.gangs.find s.gang = some g → ∀ e ∈ (integerOps d a b i j n).map (fun x => x.1 false) ++ (packOps d a b).map (·.1),
      exec e s = .next t → ∃ h, t.gangs.find s.gang = some h ∧
        (∀ r l, r < 128 → l < 64 → ¬(r = d.toNat ∧ l ∈ g.active s.group) → h.vreg r l = g.vreg r l) ∧
        h.s = g.s ∧ h.p = g.p ∧ h.k = g.k ∧ h.srkey = g.srkey ∧ h.trim = g.trim ∧ h.fpflags = g.fpflags ∧
        h.loads = g.loads ∧ h.rc = g.rc ∧ (h.stamp = g.stamp ∨ h.stamp = (s.issuing g).stamp) ∧ h.chain = g.chain ∧ h.convoy = g.convoy ∧
        (∀ a, t.byte a = s.byte a) ∧ (∀ k, k ≠ s.gang → t.gangs.find k = s.gangs.find k) ∧ OnlyHalts s t ∧
        { t with gangs := s.gangs, contexts := s.contexts, idle := s.idle } = s

/-- FRAME of the scalar forms: only s register `d` changes among the registers, and nothing outside the gang but the halt that a trap
begins in the contexts (07 R168). -/
def Sys2Proof.Claim.ScalarRegisterFrame : Prop :=
  ∀ (s t : State) (g : Gang) (d a b : BitVec 7) (i : BitVec 10) (j : BitVec 17) (n : BitVec 5),
    s.gangs.find s.gang = some g → ∀ e ∈ integerOps d a b i j n,
      exec (e.1 true) s = .next t → ∃ h, t.gangs.find s.gang = some h ∧
        (∀ r, r ≠ d.toNat → h.sreg r = g.sreg r) ∧
        h.v = g.v ∧ h.p = g.p ∧ h.k = g.k ∧ h.srkey = g.srkey ∧ h.trim = g.trim ∧ h.fpflags = g.fpflags ∧
        h.loads = g.loads ∧ h.rc = g.rc ∧ (h.stamp = g.stamp ∨ h.stamp = (s.issuing g).stamp) ∧ h.chain = g.chain ∧ h.convoy = g.convoy ∧
        (∀ a, t.byte a = s.byte a) ∧ (∀ k, k ≠ s.gang → t.gangs.find k = s.gangs.find k) ∧ OnlyHalts s t ∧
        { t with gangs := s.gangs, contexts := s.contexts, idle := s.idle } = s

/-- What going on to the next word does: every issuing slice's pc rises by 4 for each word, `words` counts them, and nothing else of the
device changes but the gang's record (01 R20, 02 R35). -/
def Sys2Proof.Claim.AdvanceMovesPc : Prop :=
  ∀ (s : State) (g : Gang) (n : Nat), s.gangs.find s.gang = some g → g.refill = none →
    ∃ h, (s.advance g n).gangs.find s.gang = some h ∧ h.words = g.words + n ∧ h.v = g.v ∧ h.s = g.s ∧ h.p = g.p ∧
      h.slices.length = g.slices.length ∧
      (∀ (j : Nat) (sl : Slice), g.slices[j]? = some sl → ∃ sl' : Slice, h.slices[j]? = some sl' ∧ sl'.stack = sl.stack ∧
        sl'.status = sl.status ∧
        sl'.pc = (if sl.issues s.group then sl.pc + BitVec.ofNat 64 (4 * n) else sl.pc)) ∧
      s.SameBesideGang (s.advance g n)

namespace Sys2Proof.Claim
open Sys2Proof.Machine

/-! ### Memory accesses (03) -/

/-- Accesses of `n` bytes by the acting gang that nothing keeps from memory: addresses below 2^48 and aligned, no logged store of the gang
in their way, room on the range counters, translation of those in `order` to the machine addresses `place`, whose home dies serve the
gang's stamp, and no sector that cannot be corrected. `t` is the state after the translations, which may have filled the look-aside
buffers. -/
structure Plain (s : State) (g : Gang) (k : Want) (n : Nat) (xs order : Lanes) (place : Nat → Nat) (t : State) : Prop where
  addresses : ∀ x ∈ xs, x.2 < 2 ^ 48 ∧ x.2 % n = 0
  unlogged : s.logOverlaps s.gang n xs = false
  room : g.countersFull (s.countersFor g (itemOf false n xs)) = false
  translated : s.translateLanes (coreOf s.gang) g.ctx k order =
    (order.map fun x => { lane := x.1, addr := x.2, place := .ok (.mem (place x.1)) }, t)
  served : ∀ x ∈ order, t.serves (s.issuing g).stamp (place x.1) = true
  sound : ∀ x ∈ order, s.badSector (place x.1) n = none

/-- The registers an access names are settled, in order, and for the scoped ones its scope is permitted. -/
structure AccessReady (s : State) (g : Gang) (scalar : Bool) (t b x z : Nat) (scope : Option Nat) : Prop where
  size : z ≤ 4
  settled : s.Settled g (indexRegs x ++ if scalar then [] else accessRegs t z)
    ([2 * b, 2 * b + 1] ++ if scalar then accessRegs t z else [])
  even : z = 3 → t % 2 = 0
  fours : z = 4 → t % 4 = 0
  allowed : ∀ c, scope = some c → s.scopeAllowed g c = true

/-- The gang `h` of `t` has one load more than `g`, which brings the bytes `f lane i` of the accesses into the registers from `r` on, and
counts on the range counters of `item`, sector by sector. -/
def LoadIssued (s t : State) (g h : Gang) (scalar : Bool) (r n : Nat) (dests : List Nat) (xs item : Lanes) (m : Nat)
    (f : Nat → Nat → Byte) : Prop :=
  t.gangs.find s.gang = some h ∧ ∃ ld : Load, h.loads = g.loads ++ [ld] ∧ ld.scalar = scalar ∧ ld.dests = dests ∧
    ld.onCounter = true ∧ ld.counted = s.countersFor g (itemOf false m item) ∧
    ld.sectors = sectorsOf (xs.flatMap fun x => piecesOf scalar r x.1 x.2 n (f x.1)) (s.sectorCounters g m item)

/-- Of the lanes of a store at one address, `x` is that of the largest age and, of those, the highest: it wins (03 R68). -/
def Wins (g : Gang) (xs : Lanes) (x : Nat × Nat) : Prop :=
  let age (l : Nat) : Nat := (g.ages.getD l 0xFFFFFFFF).toNat
  x ∈ xs ∧ ∀ y ∈ xs, y.2 = x.2 → age y.1 < age x.1 ∨ (age y.1 = age x.1 ∧ y.1 ≤ x.1)

/-- Byte `a` of memory after `n`-byte stores in the order given: that of the last one that covers it. -/
def storedByte (s : State) (place : Nat → Nat) (n : Nat) (order : Lanes) (data : Nat → BitVec 128) (a : Nat) : Byte :=
  match order.reverse.find? fun x => decide (place x.1 ≤ a) && decide (a < place x.1 + n) with
  | none => s.byte a
  | some x => byteOf (data x.1) (a - place x.1)

/-- Read-modify-write operations one lane after another: what each read, and memory; where `f` gives none nothing is written (03 R82). -/
def updates (place : Nat → Nat) (f : Nat → Word → Option Word) : State → Lanes → List (Nat × Word) × State
  | s, [] => ([], s)
  | s, x :: rest =>
    let old : Word := BitVec.ofNat 32 (s.read (place x.1) 4)
    let t := match f x.1 old with
      | none => s
      | some new => s.write (place x.1) 4 new.toNat
    let r := updates place f t rest
    ((x.1, old) :: r.1, r.2)

/-- An update of a word: whether it is floating-point, and its operation on the memory word m and the register value v. -/
abbrev UpdateOp := Instr × Bool × (Word → Word → Word)

/-- The reductions (03 R82, R83). -/
def reductions (t : BitVec 7) (b : BitVec 6) (x : BitVec 7) (c : BitVec 3) : List UpdateOp :=
  [(.mredAdd t b x c, false, fun m v => m + v), (.mredFadd t b x c, true, addFp32),
   (.mredMin t b x c, false, fun m v => BitVec.ofInt 32 (min m.toInt v.toInt)),
   (.mredMax t b x c, false, fun m v => BitVec.ofInt 32 (max m.toInt v.toInt))]

/-- The atomics of one operand (03 R82, R83). -/
def atomics (t : BitVec 7) (b : BitVec 6) (x : BitVec 7) (c : BitVec 3) : List UpdateOp :=
  [(.atomAdd t b x c, false, fun m v => m + v), (.atomExch t b x c, false, fun _ v => v),
   (.atomMin t b x c, false, fun m v => BitVec.ofInt 32 (min m.toInt v.toInt)),
   (.atomMax t b x c, false, fun m v => BitVec.ofInt 32 (max m.toInt v.toInt)),
   (.atombAnd t b x c, false, fun m v => m &&& v), (.atombOr t b x c, false, fun m v => m ||| v),
   (.atombXor t b x c, false, fun m v => m ^^^ v), (.atombFadd t b x c, true, addFp32)]

end Sys2Proof.Claim

open Sys2Proof Sys2Proof.Machine Sys2Proof.Claim

/-- `ld`, `ldacq` and `sld` complete: they read the bytes of each access as memory then holds them, the load then being outstanding; memory
stays. With no active lane a lane-wise load does nothing, and `sld` counts on no range counter (03 R69, R74, R75, R80; 04 R112). That the
bytes are those at issue is log 8. -/
def Sys2Proof.Claim.LoadReadsMemory : Prop :=
  ∀ (s u : State) (g : Gang) (t : BitVec 7) (b : BitVec 6) (x : BitVec 7) (z : BitVec 3) (hint : BitVec 2) (c : BitVec 3)
    (place : Nat → Nat), s.Issues g →
    let reads (i : Instr) (scalar : Bool) (n : Nat) (regs : List Nat) (xs item : Lanes) : Prop :=
      ∃ v h, exec i s = .next v ∧ v.mem = s.mem ∧ h.stop = g.stop ∧
        LoadIssued s v g h scalar t.toNat n regs xs item n fun l j => s.byte (place l + j)
    let xs := s.globalLanes g b.toNat x.toNat
    let one : Lanes := [(0, (g.spair (2 * b.toNat)).toNat)]
    (AccessReady s g false t.toNat b.toNat x.toNat z.toNat none →
      (xs = [] → exec (.ld t b x z hint) s = .next (s.advance (s.issuing g) 1)) ∧
      (xs ≠ [] → Plain s g .load (2 ^ z.toNat) xs xs place u →
        reads (.ld t b x z hint) false (2 ^ z.toNat) (accessRegs t.toNat z.toNat) xs xs)) ∧
    (AccessReady s g false t.toNat b.toNat x.toNat 2 (some c.toNat) →
      (xs = [] → exec (.ldacq t b x c) s = .next (s.advance (s.issuing g) 1)) ∧
      (xs ≠ [] → Plain s g .load 4 xs xs place u → reads (.ldacq t b x c) false 4 [t.toNat] xs xs)) ∧
    (AccessReady s g true t.toNat b.toNat 127 z.toNat none → Plain s g .load (2 ^ z.toNat) one one place u →
      reads (.sld t b z hint) true (2 ^ z.toNat) (accessRegs t.toNat z.toNat) one
        (if g.active s.group = [] then [] else one))

/-- A sector of a load lands, whatever its pieces: each byte that it brings enters its register, the last where several have one place, and
every other byte of the registers stays; the sector leaves the load, whose other sectors still wait; a range counter falls when none of
them has bytes that it covers, and with the last sector the load leaves `ldcount` (03 R69, R70; 04 R113, R116). -/
def Sys2Proof.Claim.LoadSectorLands : Prop :=
  ∀ (s : State) (g : Gang) (ld : Load) (sector : Sector), s.gangs.find s.subject.who = some g →
    g.loads.find? (fun x => x.id == s.subject.what && decide (s.subject.which < x.sectors.length)) = some ld →
    ld.sectors[s.subject.which]? = some sector →
      let left := ld.sectors.eraseIdx s.subject.which
      let counts (n : Nat) : Bool := ld.counted.getLsbD n && !(left.any fun x => x.counted.getLsbD n)
      ∃ t h, exec .loadSector s = .next t ∧ t.gangs.find s.subject.who = some h ∧ t.mem = s.mem ∧
        (∀ key i, i < 4 →
          let byte (u : Gang) : Nat := ((if ld.scalar then u.s else u.v).get key).toNat / 256 ^ i % 256
          match sector.pieces.reverse.find? fun p => p.key == key && p.index == i with
          | some p => byte h = p.value.toNat
          | none => byte h = byte g) ∧
        (if ld.scalar then h.v = g.v else h.s = g.s) ∧ h.p = g.p ∧ h.k = g.k ∧ h.slices = g.slices ∧ h.stop = g.stop ∧
        (left ≠ [] → ∃ x ∈ h.loads, x.id = ld.id ∧ x.sectors = left ∧ x.dests = ld.dests) ∧
        (left = [] → ∀ x ∈ h.loads, x.id = ld.id → x.sectors = []) ∧
        ((g.loads.map fun x => x.id).Nodup → g.ldcount = h.ldcount + if left = [] ∧ ld.onCounter = true then 1 else 0) ∧
        (∀ n c, g.rc[n]? = some c → ∃ c', h.rc[n]? = some c' ∧ c'.binding = c.binding ∧
          c'.count = if counts n then c.count - 1 else c.count)

/-- `st`, `sst` and `strel`: every byte that the winning accesses cover reads as the last of them wrote it, and EVERY OTHER BYTE OF MEMORY as
before (03 R68, R74, R75, R80). -/
def Sys2Proof.Claim.StoreWritesMemory : Prop :=
  ∀ (s u : State) (g : Gang) (t : BitVec 7) (b : BitVec 6) (x : BitVec 7) (z : BitVec 3) (hint : BitVec 2) (c : BitVec 3)
    (place : Nat → Nat), s.Issues g → (s.sideLogOf s.gang).length ≤ 128 →
    let writes (i : Instr) (n : Nat) (order : Lanes) (data : Nat → BitVec 128) : Prop :=
      ∃ v h, exec i s = .next v ∧ v.gangs.find s.gang = some h ∧ h.v = g.v ∧ h.s = g.s ∧ h.stop = g.stop ∧
        ∀ a, v.byte a = storedByte s place n order data a
    let xs := s.globalLanes g b.toNat x.toNat
    let order := byAge g xs
    let one : Lanes := [(0, (g.spair (2 * b.toNat)).toNat)]
    let n := 2 ^ z.toNat
    (AccessReady s g false t.toNat b.toNat x.toNat z.toNat none → Plain s g .store n xs order place u →
      writes (.st t b x z hint) n (winners order) fun l => accessData (fun i => g.vreg (t.toNat + i) l) n) ∧
    (AccessReady s g true t.toNat b.toNat 127 z.toNat none → Plain s g .store n one one place u →
      writes (.sst t b z hint) n one fun _ => accessData (fun i => g.sreg (t.toNat + i)) n) ∧
    (AccessReady s g false t.toNat b.toNat x.toNat 2 (some c.toNat) → s.hasLogged s.gang = false →
      Plain s g .store 4 xs order place u →
      writes (.strel t b x c) 4 (winners order) fun l => accessData (fun i => g.vreg (t.toNat + i) l) 4)

/-- The accesses that a store performs are those that win (03 R68). -/
def Sys2Proof.Claim.StoreWinners : Prop :=
  ∀ (g : Gang) (xs : Lanes) (x : Nat × Nat), (xs.map fun y => y.1).Nodup → (x ∈ winners (byAge g xs) ↔ Wins g xs x)

/-- The reductions update memory lane after lane and return nothing; the floating-point one in a launch that is not reproducible (03
R82, R83, R85). -/
def Sys2Proof.Claim.ReductionUpdatesMemory : Prop :=
  ∀ (s u : State) (g : Gang) (t : BitVec 7) (b : BitVec 6) (x : BitVec 7) (c : BitVec 3) (place : Nat → Nat), s.Issues g →
    (s.sideLogOf s.gang).length ≤ 128 →
    AccessReady s g false t.toNat b.toNat x.toNat 2 (some c.toNat) →
    let xs := s.globalLanes g b.toNat x.toNat
    Plain s g .reduce 4 xs xs place u → ∀ e ∈ reductions t b x c, (e.2.1 = true → s.isReproducible g = false) →
      ∃ v h, exec e.1 s = .next v ∧ v.gangs.find s.gang = some h ∧ h.v = g.v ∧ h.s = g.s ∧ h.loads = g.loads ∧
        v.mem = (updates place (fun l m => some (e.2.2 m (g.vreg t.toNat l))) s xs).2.mem

/-- The atomics update memory lane after lane and bring the old values to the register as a load does; `cas` writes the new value where
the old one is the expected one and nothing where it is not; integer atomics do so in a reproducible launch too (03 R82, R83, R85). -/
def Sys2Proof.Claim.AtomicUpdatesMemory : Prop :=
  ∀ (s u : State) (g : Gang) (t : BitVec 7) (b : BitVec 6) (x : BitVec 7) (c : BitVec 3) (place : Nat → Nat), s.Issues g →
    let xs := s.globalLanes g b.toNat x.toNat
    let runs (i : Instr) (f : Nat → Word → Option Word) : Prop :=
      let old (l : Nat) : Word :=
        (((updates place f s xs).1.find? fun o : Nat × Word => o.1 == l).map fun o : Nat × Word => o.2).getD (0 : Word)
      ∃ v h, exec i s = .next v ∧ v.mem = (updates place f s xs).2.mem ∧
        LoadIssued s v g h false t.toNat 4 [t.toNat] xs xs 4 fun l j => byteOf ((old l).setWidth 128) j
    xs ≠ [] → Plain s g .atomic 4 xs xs place u →
    (AccessReady s g false t.toNat b.toNat x.toNat 2 (some c.toNat) → ∀ e ∈ atomics t b x c,
      (e.2.1 = true → s.isReproducible g = false) → runs e.1 fun l m => some (e.2.2 m (g.vreg t.toNat l))) ∧
    (t.toNat % 2 = 0 → s.scopeAllowed g c.toNat = true →
      s.Settled g (indexRegs x.toNat ++ [t.toNat, t.toNat + 1]) [2 * b.toNat, 2 * b.toNat + 1] →
      runs (.cas t b x c) fun l m => if m = g.vreg t.toNat l then some (g.vreg (t.toNat + 1) l) else none)

/-- In a reproducible launch the floating-point atomics raise REPRO_VIOLATION (03 R85). That they do so whatever the addresses are, that is
before the checks of R63, is the model's choice (log 48). -/
def Sys2Proof.Claim.ReproducibleFloatAtomicTraps : Prop :=
  ∀ (s : State) (g : Gang) (t : BitVec 7) (b : BitVec 6) (x : BitVec 7) (c : BitVec 3), s.Issues g →
    s.isReproducible g = true → AccessReady s g false t.toNat b.toNat x.toNat 2 (some c.toNat) →
      exec (.mredFadd t b x c) s = .next (s.trapAt (s.issuing g) .reproViolation (g.enabled s.group) 0) ∧
      exec (.atombFadd t b x c) s = .next (s.trapAt (s.issuing g) .reproViolation (g.enabled s.group) 0)

/-- A global access at or above 2^48 is PROTECTION, one below it that is not aligned MISALIGNED, and no lane is performed; the trap reports
the failing lanes with the first one's address, or for an access of the gang its enabled lanes (03 R63). -/
def Sys2Proof.Claim.AccessCheckTraps : Prop :=
  ∀ (s : State) (g : Gang) (t : BitVec 7) (b : BitVec 6) (x : BitVec 7) (z : BitVec 3) (hint : BitVec 2) (c : BitVec 3), s.Issues g →
    let xs := s.globalLanes g b.toNat x.toNat
    let checked (n : Nat) (is : List Instr) : Prop := ∀ i ∈ is,
      let traps (cause : Trap) (bad : Lanes) : Prop :=
        exec i s = .next (s.trapAt (s.issuing g) cause (bad.map (·.1)) (BitVec.ofNat 64 ((bad.head?.map (·.2)).getD 0)))
      ((∃ y ∈ xs, 2 ^ 48 ≤ y.2) → traps .protection (xs.filter fun y => decide (2 ^ 48 ≤ y.2))) ∧
      ((∀ y ∈ xs, y.2 < 2 ^ 48) → (∃ y ∈ xs, y.2 % n ≠ 0) → traps .misaligned (xs.filter fun y => decide (y.2 % n ≠ 0)))
    (AccessReady s g false t.toNat b.toNat x.toNat z.toNat none →
      checked (2 ^ z.toNat) [.ld t b x z hint, .st t b x z hint]) ∧
    (AccessReady s g false t.toNat b.toNat x.toNat 2 (some c.toNat) → s.isReproducible g = false →
      checked 4 ([.ldacq t b x c, .strel t b x c] ++ (reductions t b x c ++ atomics t b x c).map fun e => e.1)) ∧
    (t.toNat % 2 = 0 → s.scopeAllowed g c.toNat = true →
      s.Settled g (indexRegs x.toNat ++ [t.toNat, t.toNat + 1]) [2 * b.toNat, 2 * b.toNat + 1] → checked 4 [.cas t b x c]) ∧
    (AccessReady s g true t.toNat b.toNat 127 z.toNat none → ∀ i ∈ [Instr.sld t b z hint, .sst t b z hint],
      let a := g.spair (2 * b.toNat)
      (2 ^ 48 ≤ a.toNat → exec i s = .next (s.trapAt (s.issuing g) .protection (g.enabled s.group) a)) ∧
      (a.toNat < 2 ^ 48 → a.toNat % 2 ^ z.toNat ≠ 0 →
        exec i s = .next (s.trapAt (s.issuing g) .misaligned (g.enabled s.group) a)))

/-- `ordap` in its turn gives each active lane, in rising order, the count before it, adds the lanes' operands to the count, and passes
the turn on; before its turn it waits, counted as issued, and no other group of its gang issues (03 R70, R87, R88; 04 R112). -/
def Sys2Proof.Claim.OrderedAppendResult : Prop :=
  ∀ (s u : State) (g : Gang) (crew : Crew) (t : BitVec 7) (b : BitVec 6) (c : BitVec 3) (m : Nat), s.Issues g →
    s.crews.find g.crew = some crew → AccessReady s g false t.toNat b.toNat 127 2 (some c.toNat) →
    let a := (g.spair (2 * b.toNat)).toNat
    let lanes := g.active s.group
    a < 2 ^ 48 → a % 8 = 0 → lanes ≠ [] → s.logOverlaps s.gang 8 [(0, a)] = false →
    g.countersFull (s.countersFor g (itemOf false 8 [(0, a)])) = false →
    s.translate (coreOf s.gang) g.ctx a .atomic = (.ok (.mem m), u) → u.serves (s.issuing g).stamp m = true →
    s.badSector m 8 = none →
    let turn := s.read (m + 4) 4
    let count := s.read m 4
    (turn = (crew.index * crew.record.gangCount + g.index) % 2 ^ 32 →
      ∃ v h, exec (.ordap t b c) s = .next v ∧
        v.mem = (s.write m 8 ((count + (lanes.map fun l => (g.vreg t.toNat l).toNat).sum) % 2 ^ 32 +
          2 ^ 32 * ((turn + 1) % 2 ^ 32))).mem ∧
        LoadIssued s v g h false t.toNat 4 [t.toNat] (lanes.map fun l => (l, a)) [(0, a)] 8 fun l j =>
          byteOf (BitVec.ofNat 128 ((count + ((lanes.filter fun k => decide (k < l)).map fun k =>
            (g.vreg t.toNat k).toNat).sum) % 2 ^ 32)) j) ∧
    (turn ≠ (crew.index * crew.record.gangCount + g.index) % 2 ^ 32 →
      exec (.ordap t b c) s = .next { s.setGang s.gang { s.issuing g with
        wait := .ordap s.group (some (s.countersFor g (itemOf false 8 [(0, a)]))) } with idle := true })

/-- Scratchpad loads of 4 bytes put the crew's scratchpad word into the register, and scratchpad stores write the crew's scratchpad in
the order of R68, global memory staying (03 R68, R71, R74). -/
def Sys2Proof.Claim.ScratchpadAccessResult : Prop :=
  ∀ (s : State) (g : Gang) (crew : Crew) (t : BitVec 7) (b : BitVec 6) (x : BitVec 7) (z : BitVec 3), s.Issues g →
    s.crews.find g.crew = some crew → z.toNat ≤ 4 →
    s.Settled g (indexRegs x.toNat ++ accessRegs t.toNat z.toNat) [2 * b.toNat] →
    (z.toNat = 3 → t.toNat % 2 = 0) → (z.toNat = 4 → t.toNat % 4 = 0) →
    let n := 2 ^ z.toNat
    let xs := (g.active s.group).map fun l => (l, g.padOffset b.toNat x.toNat l)
    (∀ y ∈ xs, y.2 % n = 0 ∧ y.2 + n ≤ crew.padSize) → g.countersFull (s.countersFor g (itemOf true n xs)) = false →
    (∃ v h, exec (.ldsp t b x z) s = .next v ∧ v.gangs.find s.gang = some h ∧ v.mem = s.mem ∧ v.cores = s.cores ∧
      (z.toNat = 2 → ∀ y ∈ xs, h.vreg t.toNat y.1 = BitVec.ofNat 32 (s.padRead (coreOf s.gang) crew y.2 4)) ∧
      (∀ r l, r < 128 → l < 64 → ¬(r ∈ accessRegs t.toNat z.toNat ∧ l ∈ g.active s.group) → h.vreg r l = g.vreg r l)) ∧
    exec (.stsp t b x z) s = .next (State.advance ((byAge g xs).foldl (fun acc y =>
      acc.padWrite (coreOf s.gang) crew y.2 n (accessData (fun i => g.vreg (t.toNat + i) y.1) n).toNat) s) (s.issuing g) 1)

/-- The mooring table: `mrset` binds an entry to the slot of an address, so that `mrlook` of an address of that slot finds it, `mrclr`
frees one entry or all of them; and `pref` changes nothing (03 R77, R90-R93). -/
def Sys2Proof.Claim.MooringTableResult : Prop :=
  ∀ (s : State) (g : Gang) (crew : Crew) (d a b : BitVec 7) (base : BitVec 6) (hint : BitVec 2), s.Issues g →
    s.crews.find g.crew = some crew →
    (a.toNat % 2 = 0 → s.Settled g (d.toNat :: indexRegs b.toNat) [a.toNat, a.toNat + 1] →
      exec (.mrlookVector d a b) s = .next (vectorDone s g d.toNat fun l =>
        crew.moored (g.globalAddress (a.toNat / 2) b.toNat l))) ∧
    (a.toNat % 2 = 0 → s.Settled g [] [d.toNat, a.toNat, a.toNat + 1] →
      exec (.mrlookScalar d a) s = .next (scalarDone s g d.toNat (crew.moored (g.spair a.toNat)))) ∧
    (a.toNat % 2 = 0 → s.Settled g [] [a.toNat, a.toNat + 1, b.toNat] → (g.sreg b.toNat).toNat < crew.entries →
      let tag := BitVec.ofNat 64 ((g.spair a.toNat).toNat / crew.slotSize + 1)
      exec (.mrset a b) s = .next (State.advance (s.setCrew g.crew { crew with
        mooring := Cells.set (crew.mooring.filter fun e => e.2 != tag) (g.sreg b.toNat).toNat tag }) (s.issuing g) 1)) ∧
    (s.Settled g [] [b.toNat] →
      (g.sreg b.toNat = 0xFFFFFFFF →
        exec (.mrclr b) s = .next (State.advance (s.setCrew g.crew { crew with mooring := [] }) (s.issuing g) 1)) ∧
      ((g.sreg b.toNat).toNat < crew.entries → g.sreg b.toNat ≠ 0xFFFFFFFF →
        exec (.mrclr b) s = .next (State.advance (s.setCrew g.crew { crew with
          mooring := crew.mooring.set (g.sreg b.toNat).toNat 0 }) (s.issuing g) 1))) ∧
    (s.Settled g (indexRegs b.toNat) [2 * base.toNat, 2 * base.toNat + 1] →
      exec (.pref base b hint) s = .next (s.advance (s.issuing g) 1))

/-- A lookup gives the offset in the slot of the entry bound to the address's slot, and all ones where none is: after `mrset` of an entry to
an address's slot, every address of that slot finds that entry, and any other slot what it found before, unless that was the entry's; after
`mrclr` of an entry it is found no more (03 R90-R93). -/
def Sys2Proof.Claim.MooringLookups : Prop :=
  ∀ (crew : Crew) (e : Nat) (base x : DWord), e < crew.entries → crew.slotSize ≠ 0 → crew.mooring.wf = true →
    let slot (y : DWord) : Nat := y.toNat / crew.slotSize
    let tag := BitVec.ofNat 64 (slot base + 1)
    let bound : Crew := { crew with mooring := Cells.set (crew.mooring.filter fun z => z.2 != tag) e tag }
    let freed : Crew := { crew with mooring := crew.mooring.set e 0 }
    (slot x = slot base → bound.moored x = BitVec.ofNat 32 (e * crew.slotSize + x.toNat % crew.slotSize)) ∧
    (slot x ≠ slot base → crew.mooring.get e ≠ BitVec.ofNat 64 (slot x + 1) → bound.moored x = crew.moored x) ∧
    (slot x ≠ slot base → crew.mooring.get e = BitVec.ofNat 64 (slot x + 1) →
      (∀ k, k ≠ e → crew.mooring.get k ≠ BitVec.ofNat 64 (slot x + 1)) → bound.moored x = 0xFFFFFFFF) ∧
    (crew.mooring.get e = BitVec.ofNat 64 (slot x + 1) →
      (∀ k, k ≠ e → crew.mooring.get k ≠ BitVec.ofNat 64 (slot x + 1)) → freed.moored x = 0xFFFFFFFF) ∧
    (∀ k, (∀ y, y ≠ k → crew.mooring.get y ≠ BitVec.ofNat 64 (slot x + 1)) → crew.mooring.get k = BitVec.ofNat 64 (slot x + 1) →
      crew.moored x = BitVec.ofNat 32 (k * crew.slotSize + x.toNat % crew.slotSize))

/-- A store of which no lane's translation succeeds is logged and the gang goes on: each lane gets an entry, also one that loses to another of
the same address, in the order of 03 R68, with its address, data, lane, age and cause (16 R332). -/
def Sys2Proof.Claim.FaultingStoreIsLogged : Prop :=
  ∀ (s u : State) (g : Gang) (t : BitVec 7) (b : BitVec 6) (x : BitVec 7) (hint : BitVec 2) (f : Nat → AccessFault),
    s.Issues g → AccessReady s g false t.toNat b.toNat x.toNat 2 none →
    let xs := s.globalLanes g b.toNat x.toNat
    let order := byAge g xs
    (∀ y ∈ xs, y.2 < 2 ^ 48 ∧ y.2 % 4 = 0) → s.logOverlaps s.gang 4 xs = false →
    g.countersFull (s.countersFor g (itemOf false 4 xs)) = false → (s.sideLogOf s.gang).length + order.length ≤ 128 →
    s.translateLanes (coreOf s.gang) g.ctx .store order =
      (order.map fun y => { lane := y.1, addr := y.2, place := .error (f y.1) }, u) →
      ∃ v h es, exec (.st t b x 2 hint) s = .next v ∧ v.gangs.find s.gang = some h ∧ h.stop = g.stop ∧
        ((∀ c ∈ s.contexts, c.2.ringEntries = 0) → v.mem = s.mem) ∧ v.sideLogOf s.gang = s.sideLogOf s.gang ++ es ∧
        es.length = order.length ∧
        ∀ (i : Nat) (y : Nat × Nat), order[i]? = some y → ∃ e, es[i]? = some e ∧ e.addr.toNat = y.2 ∧ e.size = 4 ∧
          e.gang = s.gang ∧ e.lane = some y.1 ∧ e.cause = (f y.1).cause ∧ e.faultAt = some (f y.1).addr ∧
          e.data = (g.vreg t.toNat y.1).setWidth 128 ∧ e.age = g.ages.getD y.1 0xFFFFFFFF

namespace Sys2Proof.Claim
open Sys2Proof.Machine

/-! ### Handles, counters, fences and engine commands (04) -/

/-- A release of the gang at its core, and with `acq` an acquire after it, and the gang going on (05 R129, R135). -/
def releasedOn (s : State) (g : Gang) (acq : Bool) : State :=
  let s1 := s.release (coreOf s.gang)
  let g1 := (s.issuing g).released s1 (coreOf s.gang)
  s1.advance (if acq then g1.acquire else g1) 1

/-- A command of a class was sent for the acting gang: it stands last among the commands, not begun, is counted on the range counters that
cover its bytes, carries its arrival and its gang's stamp, and the gang has gone on (04 R98, R102, R112; 05 R136). -/
def Sent (s t : State) (g : Gang) (crew : Crew) (cls : EngineClass) (work : Work) (arrival : Option Nat) (bytes : List Extent) : Prop :=
  let mask := s.countersFor g { bytes := bytes }
  let cmd : Command :=
    { id := s.serial, cls := cls, work := work, gangs := [s.gang], ctx := g.ctx, crew := g.crew, launch := crew.launch,
      arrival := arrival, stopped := false, progress := 0, held := none, counted := [mask], stamp := (s.issuing g).stamp, seen := noEpochs,
      pc := g.pc s.group, offered := false, done := false }
  t = State.advance { s with serial := s.serial + 1, commands := s.commands ++ [cmd] } ((s.issuing g).count mask) 1

/-- A command with these bytes may be sent: fewer than 64 of its class are outstanding and its counters have room (04 R98, R112). -/
def MaySend (s : State) (g : Gang) (cls : EngineClass) (bytes : List Extent) : Prop :=
  s.classCount s.gang cls < 64 ∧ g.countersFull (s.countersFor g { bytes := bytes }) = false

/-- A run of `n` bytes at an offset lies in the crew's scratchpad, or is empty. -/
def InPad (crew : Crew) (off n : Nat) : Prop := n = 0 ∨ off + n ≤ crew.padSize

/-- The tile moves by their mode (04 R105). -/
def tileMoves (k : BitVec 4) (a : BitVec 7) (e : Bool) (n : BitVec 4) : List (Nat × Instr) :=
  [(0, .crtTile k a e n), (1, .crtTr k a e n), (2, .crtGather k a e n)]

/-- Accesses that an engine makes for a crew of a context on a core to global addresses in `A` find them at the machine addresses `place`,
whatever its own writes there and to scratchpad have done: some set of states holds `s`, is kept by such accesses and writes, and in each of
its states the address is mapped, its home die serves the stamp, and no sector of it is beyond correction. -/
def Mapped (s : State) (core ctx crew : Nat) (stamp : List DWord) (lighter : Bool) (place : Nat → Nat) (A : Nat → Prop) : Prop :=
  (∀ va i, (∀ j, j ≤ i → A (va + j)) → va % 4096 + i < 4096 → place (va + i) = place va + i) ∧
  ∃ I : State → Prop, I s ∧
    (∀ (r : Run) (va n : Nat) (k : Want), I r.st → r.stamp = stamp → r.lighter = lighter → 0 < n → va % 4096 + n ≤ 4096 →
      (∀ j, j < n → A (va + j)) → ∃ u, r.reach core ctx va n k = (.ok (.mem (place va)), { r with st := u }) ∧ I u ∧
        u.mem = r.st.mem ∧ u.crews = r.st.crews ∧ u.gangs = r.st.gangs ∧ u.commands = r.st.commands ∧ u.contexts = r.st.contexts ∧
        ∀ o n, u.padBytes crew o n = r.st.padBytes crew o n) ∧
    (∀ u va bytes, I u → (∀ j, j < bytes.length → A (va + j)) → I (u.putPlace (.mem (place va)) bytes)) ∧
    (∀ u o bytes, I u → I (u.padPut crew o bytes)) ∧
    ∀ u moves, I u → I { u with chartMoves := moves }

/-- Byte `a` of a crew's scratchpad. -/
def padByteAt (s : State) (crew a : Nat) : Byte := (s.padBytes crew a 1).headD 0

/-- Byte `a` of scratchpad, or of global space as `place` maps it. -/
def spaceByte (s : State) (crew : Nat) (place : Nat → Nat) (pad : Bool) (a : Nat) : Byte :=
  if pad then padByteAt s crew a else s.byte (place a)

/-- The turn of command `c` of crew `crew` has come, it is not begun, and the engine is to do all of it; its accesses to the addresses of
`A` find them at `place`. -/
structure EngineDoes (s : State) (c : Command) (crew : Crew) (place : Nat → Nat) (A : Nat → Prop) : Prop where
  found : s.commands.find? (fun x => x.id == s.subject.who) = some c
  all : s.subject.flag = false
  fresh : c.progress = 0
  turn : s.mayPerform c = true
  crewFound : s.crews.find c.crew = some crew
  granules : crew.granules.Nodup ∧ crew.padSize ≤ 4096 * crew.granules.length
  mapped : Mapped s c.core c.ctx c.crew c.stamp (c.cls == .lighter) place A

/-- Only these bytes of global space, by machine address, and of the crew's scratchpad, by offset, have changed. -/
def OnlyWritten (s t : State) (crew : Nat) (size : Nat) (global pad : Nat → Prop) : Prop :=
  (∀ a, ¬global a → t.byte a = s.byte a) ∧ ∀ o, o < size → ¬pad o → padByteAt t crew o = padByteAt s crew o

/-- No command before `c` of its class and gangs is outstanding, and none is done. -/
def Alone (s : State) (c : Command) : Prop :=
  (∀ x ∈ s.commands, x.before c = true → x.cls ≠ c.cls) ∧ ∀ x ∈ s.commands, x.done = false

/-- The bits `hi` to `lo` of a handle. -/
def handleBits (h : BitVec 128) (hi lo : Nat) : Nat := h.toNat / 2 ^ lo % 2 ^ (hi + 1 - lo)

/-- Bytes that a range or tensor handle covers from its base; 0 for the other kinds (04 R96). The widths are those of the element format
codes (01 R28). -/
def handleRun (h : BitVec 128) : Nat :=
  let width := [32, 16, 16, 8, 8, 4, 8, 4, 64].getD (handleBits h 107 104) 0
  match handleBits h 127 124 with
  | 1 => handleBits h 95 48
  | 2 => handleBits h 63 48 * handleBits h 103 80 + ((handleBits h 79 64 + 1) * width + 7) / 8
  | _ => 0

/-- The value keeps the layout of its kind, and none of the causes of ILLEGAL_FORMAT holds (04 R95, R97). -/
def WellMade (h : BitVec 128) : Prop :=
  match handleBits h 127 124 with
  | 0 => h = 0
  | 1 => handleBits h 123 109 = 0 ∧ handleBits h 107 96 = 0 ∧ handleRun h ≠ 0 ∧ handleBits h 47 0 + handleRun h ≤ 2 ^ 48
  | 2 => handleBits h 123 109 = 0 ∧ handleBits h 103 80 ≠ 0 ∧ handleBits h 107 104 ≤ 8 ∧
      (handleBits h 107 104 = 5 ∨ handleBits h 107 104 = 7 → handleBits h 79 64 % 2 = 1) ∧ handleBits h 47 0 + handleRun h ≤ 2 ^ 48
  | 3 => handleBits h 123 48 = 0
  | _ => False

/-- Range counter `n` of the gang counts a notice of the chain that goes into ring entry `k` modulo 4: the handle it is bound to covers, in
scratchpad, a byte of the entry (04 R96, R110, R112). -/
def CountsNotice (g : Gang) (ch : Chain) (k n : Nat) : Prop :=
  ∃ x e, g.rc[n]? = some x ∧ handleExtent x.binding = some e ∧ e.pad = true ∧
    e.lo < ch.ring + 16 * (k % 4) + 16 ∧ ch.ring + 16 * (k % 4) ≤ e.hi

/-- The pilot of gang `g` with chain `ch` commits to its next page if it may, and the gang becomes `h`: it knows the page's address, the chain
has not ended, fewer than 4 notices are committed to or outstanding, and the counters of the next ring entry have room. The chain ends with
the page at its limit and with the terminating notice (04 R110, R112). That it commits as soon as it may is log 43's reading (DEDUCED), and
`id`, the number of the next item to be issued, is the model's own. -/
def Commits (id : Nat) (g : Gang) (ch : Chain) (h : Gang) : Prop :=
  let counted (m : BitVec 8) : Prop := ∀ n x, g.rc[n]? = some x → ∃ y, h.rc[n]? = some y ∧ y.binding = x.binding ∧
    y.count = x.count + if m.getLsbD n = true then 1 else 0
  let full : Prop := ∃ n x, n < 8 ∧ g.rc[n]? = some x ∧ CountsNotice g ch ch.committed n ∧ 65535 ≤ g.rangeCount n
  let stays : Prop := h.chain = some ch ∧ counted 0
  match ch.next with
  | none => stays
  | some page =>
    (ch.ended = true ∨ 4 ≤ ch.unfreed + ch.notices.length ∨ full → stays) ∧
    (¬(ch.ended = true ∨ 4 ≤ ch.unfreed + ch.notices.length ∨ full) →
      ∃ mask : BitVec 8, (∀ n, n < 8 → (mask.getLsbD n = true ↔ CountsNotice g ch ch.committed n)) ∧ counted mask ∧
        h.chain = some
          { ch with
            next := none, committed := ch.committed + 1, ended := ch.terminal || ch.committed + 1 == ch.limit
            notices := ch.notices ++
              [{ id := id, chain := ch.id, pc := ch.pc, pageSize := ch.pageSize, ring := ch.ring, arrival := ch.arrival,
                 stamp := ch.stamp, number := ch.committed, page := page, terminal := ch.terminal, header := none, seen := noEpochs,
                 counted := mask, held := none }] })

/-- The instruction has issued and is not done: until it is, no other group of its gang issues (04 R118, R119). -/
def standsAlone (s : State) (g : Gang) : State :=
  { s.setGang s.gang { s.issuing g with wait := .issued s.group } with idle := true }

end Sys2Proof.Claim

open Sys2Proof Sys2Proof.Machine Sys2Proof.Claim

/-- `hmk` makes a handle of four s registers where the value keeps the layout of its kind and a scratchpad extent lies in the crew's
allocation, and else traps with ILLEGAL_FORMAT or SCRATCHPAD_RANGE; `hmk.get` reads one back whole (04 R95-R97). -/
def Obligations.HandleResult : Prop :=
  ∀ (s : State) (g : Gang) (crew : Crew) (k : BitVec 4) (a : BitVec 7), s.Issues g → s.crews.find g.crew = some crew →
    a.toNat % 4 = 0 → s.Settled g [] [a.toNat, a.toNat + 1, a.toNat + 2, a.toNat + 3] →
    let h : BitVec 128 := g.spair (a.toNat + 2) ++ g.spair a.toNat
    let fits : Prop := h.getLsbD 108 = true → 0 < handleRun h → handleBits h 47 0 + handleRun h ≤ crew.padSize
    (WellMade h → fits → exec (.hmk k a) s = .next (s.advance ((s.issuing g).setK k.toNat h) 1)) ∧
    (¬WellMade h → exec (.hmk k a) s = .next (s.trapAt (s.issuing g) .illegalFormat (g.enabled s.group) 0)) ∧
    (WellMade h → ¬fits → exec (.hmk k a) s = .next (s.trapAt (s.issuing g) .scratchpadRange (g.enabled s.group) 0)) ∧
    ∃ t u, exec (.hmkGet a k) s = .next t ∧ t.gangs.find s.gang = some u ∧
      u.spair (a.toNat + 2) ++ u.spair a.toNat = g.kreg k.toNat ∧ u.k = g.k ∧ u.v = g.v ∧
      (∀ r, r < a.toNat ∨ a.toNat + 3 < r → u.sreg r = g.sreg r) ∧ t.mem = s.mem

/-- `rcb` binds a range counter that reads zero, `rcw` and `ccw` go on once their counter has fallen to n, as completion observations of the
items that the counter has counted; each waits before (04 R114, R115, R117; 05 R129, R136). -/
def Sys2Proof.Claim.CounterWaitResult : Prop :=
  ∀ (s : State) (g : Gang) (k : BitVec 4) (n : BitVec 3) (a : BitVec 7) (c : BitVec 3), s.Issues g →
    (g.rangeCount n.toNat = 0 → exec (.rcb k n) s = .next (s.advance
      { (s.issuing g) with rc := replaceAt g.rc n.toNat fun _ => { count := 0, binding := g.kreg k.toNat, seen := noEpochs } } 1)) ∧
    (g.rangeCount n.toNat ≠ 0 → exec (.rcb k n) s = s.waiting) ∧
    (∀ x, g.rc[n.toNat]? = some x → x.count ≤ a.toNat →
      exec (.rcw a n) s = .next (s.advance { (s.issuing g) with stamp := maxEpochs (s.issuing g).stamp x.seen } 1)) ∧
    (a.toNat < g.rangeCount n.toNat → exec (.rcw a n) s = s.waiting) ∧
    (∀ seen, g.classSeen[c.toNat]? = some seen → s.classCounter s.gang g c.toNat ≤ a.toNat →
      exec (.ccw a c) s = .next (s.advance { (s.issuing g) with stamp := maxEpochs (s.issuing g).stamp seen } 1)) ∧
    (a.toNat < s.classCounter s.gang g c.toNat → exec (.ccw a c) s = s.waiting)

/-- The fences: an acquire passes (loads having read at issue: log 8, DESIGN CHOICE); a release waits for every earlier access and command of
its gang, or for those that the named bound counters count (that these are then to read zero: log 36, DEDUCED), no group of its gang issuing
anything further meanwhile, and then begins an epoch (04 R118, R119; 05 R129, R135). -/
def Sys2Proof.Claim.FenceResult : Prop :=
  ∀ (s : State) (g : Gang) (k : Bool) (m : BitVec 7) (c : BitVec 3), s.Issues g → s.scopeAllowed g c.toNat = true →
    exec (.fenceAcq c) s = .next (s.advance (s.issuing g).acquire 1) ∧
    (s.performedAll s.gang g = true →
      exec (.fenceRel c) s = .next (releasedOn s g false) ∧ exec (.fenceAcqrel c) s = .next (releasedOn s g true) ∧
      exec (.fenceSc c) s = .next (releasedOn s g true)) ∧
    (s.performedAll s.gang g = false →
      ∀ i ∈ [Instr.fenceRel c, .fenceAcqrel c, .fenceSc c], exec i s = .next (standsAlone s g)) ∧
    (g.named k m = [] → ∀ i ∈ [Instr.fencerAcq k m c, .fencerRel k m c, .fencerAcqrel k m c],
      exec i s = .next (s.advance (s.issuing g) 1)) ∧
    (g.named k m ≠ [] →
      exec (.fencerAcq k m c) s = .next (s.advance (s.issuing g).acquire 1) ∧
      ((∀ x ∈ g.named k m, x.count = 0) →
        exec (.fencerRel k m c) s = .next (releasedOn s g false) ∧
        exec (.fencerAcqrel k m c) s = .next (releasedOn s g true)) ∧
      ((∃ x ∈ g.named k m, x.count ≠ 0) →
        ∀ i ∈ [Instr.fencerRel k m c, .fencerAcqrel k m c], exec i s = .next (standsAlone s g)))

/-- An instruction that carries device or system scope without the context's policy for it is SCOPE_DENIED, before it accesses memory
(05 R124, 16 R339). -/
def Sys2Proof.Claim.ScopeDeniedTrap : Prop :=
  ∀ (s : State) (g : Gang) (k : Bool) (m : BitVec 7) (t : BitVec 7) (b : BitVec 6) (x : BitVec 7) (c : BitVec 3), s.Issues g →
    s.scopeAllowed g c.toNat = false →
    let denied (i : Instr) : Prop := exec i s = .next (s.trapAt g .scopeDenied (g.enabled s.group) 0)
    (∀ i ∈ [Instr.fenceAcq c, .fenceRel c, .fenceAcqrel c, .fenceSc c, .fencerAcq k m c, .fencerRel k m c, .fencerAcqrel k m c],
      denied i) ∧
    (s.Settled g (t.toNat :: indexRegs x.toNat) [2 * b.toNat, 2 * b.toNat + 1] →
      ∀ i ∈ [Instr.ldacq t b x c, .strel t b x c] ++ (reductions t b x c ++ atomics t b x c).map fun e => e.1, denied i) ∧
    (s.Settled g [t.toNat] [2 * b.toNat, 2 * b.toNat + 1] → denied (.ordap t b c)) ∧
    (t.toNat % 2 = 0 → s.Settled g (indexRegs x.toNat ++ [t.toNat, t.toNat + 1]) [2 * b.toNat, 2 * b.toNat + 1] →
      denied (.cas t b x c))

/-- A release gives its die the next epoch, which the die applies at once and sends to the three others, and touches no other die (05
R135, R136). -/
def Sys2Proof.Claim.ReleaseBeginsEpoch : Prop :=
  ∀ (s : State) (core : Nat) (x : Die), s.dies[dieOf core]? = some x → x.applied.length = 4 → dieOf core < 4 →
    ∃ y, (s.release core).dies[dieOf core]? = some y ∧ y.epoch = x.epoch + 1 ∧
      y.applied.getD (dieOf core) 0 = x.epoch + 1 ∧
      (∀ d, d ≠ dieOf core → y.applied.getD d 0 = x.applied.getD d 0 ∧ (s.release core).dies[d]? = s.dies[d]?) ∧
      (s.release core).markers = s.markers ++
        (([0, 1, 2, 3].filter fun d => d != dieOf core).map fun d => { src := dieOf core, dst := d, epoch := x.epoch + 1 }) ∧
      (s.release core).mem = s.mem ∧ (s.release core).gangs = s.gangs

/-- `cyield` makes the issuing slices wait for a counter (a target that is not a multiple of 4 is MISALIGNED), and when it reads zero they
continue at their target, as a completion observation of what the counter counted (04 R120; what the stamp takes: log 28, DEDUCED). -/
def Sys2Proof.Claim.YieldAndResume : Prop :=
  (∀ (s : State) (g : Gang) (a : BitVec 7) (c : BitVec 4), s.Issues g → a.toNat % 2 = 0 →
    s.Settled g [] [a.toNat, a.toNat + 1] →
    ((g.spair a.toNat).toNat % 4 = 0 → exec (.cyield a c) s = .next (s.proceed (s.issuing g) 1 fun _ sl =>
      { sl with yielded := some { counter := c.toNat, target := g.spair a.toNat } })) ∧
    ((g.spair a.toNat).toNat % 4 ≠ 0 →
      exec (.cyield a c) s = .next (s.trapAt (s.issuing g) .misaligned (g.enabled s.group) 0))) ∧
  (∀ (s : State) (g : Gang) (ctx : Context) (first : Slice) (y0 : Yield), s.gangs.find s.subject.who = some g →
    g.stop = none → s.contexts.find g.ctx = some ctx → ctx.mayIssue = true → g.refill = none →
    let due (sl : Slice) (y : Yield) : Prop := sl.status = .running ∧ sl.group = s.subject.what ∧ sl.yielded = some y ∧
      s.counter s.subject.who g y.counter = 0
    g.slices.find? (fun sl => s.yieldOver s.subject.who g s.subject.what sl) = some first → first.yielded = some y0 →
    (∀ sl ∈ g.slices, sl.parked = true → sl.yielded = none) →
      ∃ t h, exec .cyieldResume s = .next t ∧ t.gangs.find s.subject.who = some h ∧
        h.stamp = maxEpochs g.stamp (g.observed y0.counter) ∧ h.v = g.v ∧ h.s = g.s ∧ h.p = g.p ∧ t.mem = s.mem ∧
        ∀ j sl, g.slices[j]? = some sl → ∃ sl', h.slices[j]? = some sl' ∧
          (∀ y, due sl y → sl'.yielded = none ∧ sl'.pc = y.target ∧ sl'.group ≤ j) ∧
          ((∀ y, ¬due sl y) → sl' = sl))

/-- `crc` sends a copy of s(a+4) bytes between the spaces that x and y name (04 R98, R104). -/
def Sys2Proof.Claim.CopyCommandSent : Prop :=
  ∀ (s : State) (g : Gang) (crew : Crew) (a : BitVec 7) (e : Bool) (n : BitVec 4) (y x : Bool), s.Issues g →
    s.crews.find g.crew = some crew → a.toNat % 2 = 0 →
    s.Settled g [] ((List.range 5).map fun i => a.toNat + i) →
    let src : DWord := if x then (g.sreg a.toNat).setWidth 64 else g.spair a.toNat
    let dst : DWord := if y then (g.sreg (a.toNat + 2)).setWidth 64 else g.spair (a.toNat + 2)
    let count := (g.sreg (a.toNat + 4)).toNat
    let bytes := extent x src.toNat count ++ extent y dst.toNat count
    (if x then InPad crew src.toNat count else src.toNat < 2 ^ 48) →
    (if y then InPad crew dst.toNat count else dst.toNat < 2 ^ 48) → MaySend s g .crane bytes →
      ∃ t, exec (.crc a e n y x) s = .next t ∧
        Sent s t g crew .crane (.copy x y src dst count) (if e then some n.toNat else none) bytes

/-- `crt` sends a tile move or a dequantisation, and `lgt` and `lsc` a gather or a scatter, as their blocks say (04 R98, R105-R107). That
`crt.deq` counts for the whole page at its address, outlier lists included, is the model's choice (04 R112; log 43). -/
def Sys2Proof.Claim.BlockCommandsSent : Prop :=
  ∀ (s : State) (g : Gang) (crew : Crew) (k : BitVec 4) (a : BitVec 7) (e : Bool) (n : BitVec 4), s.Issues g →
    s.crews.find g.crew = some crew →
    let h := g.kreg k.toNat
    let reg (i : Nat) : Word := g.sreg (a.toNat + i)
    let arrival : Option Nat := if e then some n.toNat else none
    (s.Settled g [] ((List.range 7).map fun i => a.toNat + i) →
      let lo := (reg 4).toNat % 65536
      let hi := (reg 4).toNat / 65536
      (handleKind h = 2 → 8 ≤ formatWidth (handleFormat h) →
        let size := formatWidth (handleFormat h) / 8
        (reg 0).toNat % size = 0 → (reg 1).toNat % size = 0 → handleBase h % size = 0 → handlePitch h % size = 0 →
        ∀ i ∈ tileMoves k a e n,
          let bytes := if i.1 = 1 then span hi (reg 1).toNat (lo * size) else span lo (reg 1).toNat (hi * size)
          let list := if i.1 = 2 then 4 * lo else 0
          let all := (handleExtent h).toList ++ extent true (reg 0).toNat bytes
          InPad crew (reg 0).toNat bytes → InPad crew (reg 6).toNat list → MaySend s g .crane all →
            ∃ t, exec i.2 s = .next t ∧ Sent s t g crew .crane
              (.tile i.1 h (reg 0).toNat (reg 1).toNat (reg 2).toNat (reg 3).toNat lo hi (reg 5) (reg 6).toNat) arrival all) ∧
      (∀ (tr : Bool) (f : BitVec 4), pageHandle h = true → f.toNat ≤ 4 →
        let page := pairOf (reg 2) (reg 3)
        let size := formatWidth f.toNat / 8
        let bytes := if hi = 0 then 0
          else if tr then span (handleColumns h) (reg 1).toNat (hi * size) else span hi (reg 1).toNat (handleColumns h * size)
        let all := extent false page.toNat (pageBytes (handleRows h) (handleColumns h)) ++ extent true (reg 0).toNat bytes
        page.toNat < 2 ^ 48 → page.toNat % 128 = 0 → InPad crew (reg 0).toNat bytes → MaySend s g .crane all →
          ∃ t, exec (.crtDeq tr f k a e n) s = .next t ∧ Sent s t g crew .crane
            (.dequant f.toNat tr h (reg 0).toNat (reg 1).toNat page lo hi (reg 5)) arrival all)) ∧
    (∀ (z : BitVec 2) (scatter : Bool), a.toNat % 2 = 0 → s.Settled g [] ((List.range 5).map fun i => a.toNat + i) →
      let size := 4 * 2 ^ z.toNat
      let base := g.spair (a.toNat + 2)
      let all := extent true (reg 0).toNat (4 * (reg 1).toNat) ++ extent true (reg 4).toNat (size * (reg 1).toNat) ++
        extent false base.toNat (2 ^ 32 * size)
      base.toNat < 2 ^ 48 → (reg 0).toNat % 4 = 0 → base.toNat % size = 0 → (reg 4).toNat % size = 0 →
      InPad crew (reg 0).toNat (4 * (reg 1).toNat) → InPad crew (reg 4).toNat (size * (reg 1).toNat) →
      MaySend s g .lighter all →
        ∃ t, exec (if scatter then .lsc a e n z else .lgt a e n z) s = .next t ∧ Sent s t g crew .lighter
          (if scatter then .scatter size (reg 0).toNat (reg 1).toNat base (reg 4).toNat
            else .gather size (reg 0).toNat (reg 1).toNat base (reg 4).toNat) arrival all)

/-- An engine performs a command whose turn it is, whatever others are outstanding. Where no access fails and its work is done it completes as
soon as no earlier command of its class and gangs is outstanding, and waits, done, while one is; with it complete the done ones that it held
up. A range counter falls by the items of the completed commands that it counts. A command that completes alone leaves the list and makes
its arrival. With a limit the engine does about so many elements of it, and it stays outstanding with its progress (04 R101, R102, R113; the
limit: log 14, DESIGN CHOICE). -/
def Sys2Proof.Claim.EngineCommandResult : Prop :=
  ∀ (s : State) (c : Command) (progress : Nat) (done : Bool) (r : Run),
    s.commands.find? (fun x => x.id == s.subject.who) = some c → s.mayPerform c = true →
    (s.commands.map fun x => x.id).Pairwise (· < ·) →
    (Run.of (s.retakeHold c) c).perform c (if s.subject.flag = true then s.subject.what else 0) = (progress, done, none, r) →
    r.st.commands = s.commands →
      let counts (d : Command) (key n : Nat) : Nat := ((d.gangs.zip d.counted).filter fun p => p.1 == key && p.2.getLsbD n).length
      ∃ t, exec .engineCommandComplete s = .next t ∧ t.mem = r.st.mem ∧
        (∀ x ∈ t.commands, x.id = c.id ∨ x ∈ s.commands) ∧ (∀ x ∈ s.commands, x.id ≠ c.id → x.done = false → x ∈ t.commands) ∧
        (∀ x ∈ t.commands, x.done = true → ∃ y ∈ t.commands, y.before x = true ∧ y.cls = x.cls) ∧
        (done = true → (∀ x ∈ s.commands, x.before c = true → x.cls ≠ c.cls) → ∀ x ∈ t.commands, x.id ≠ c.id) ∧
        (done = false ∨ (∃ x ∈ s.commands, x.before c = true ∧ x.cls = c.cls ∧ x.done = false) →
          { c with progress := progress, seen := maxEpochs c.seen r.seen, held := none, done := done } ∈ t.commands) ∧
        (∀ key g, r.st.gangs.find key = some g → ∃ h, t.gangs.find key = some h ∧ ∀ n x, g.rc[n]? = some x →
          ∃ y, h.rc[n]? = some y ∧ y.binding = x.binding ∧ y.count = x.count -
            ((s.commands.filter fun d => !(t.commands.any fun z => z.id == d.id)).map fun d => counts d key n).sum) ∧
        (done = true → Alone s c → t.commands = s.commands.filter (fun x => x.id != c.id) ∧
          ∀ crew, r.st.crews.find c.crew = some crew →
            t.crews.find c.crew = some (match c.arrival with
              | none => crew
              | some i => crew.arrive i))

/-- An access of a command that fails: one that cannot be resolved holds the command where it stands, and one that is beyond the engine's
reach or correction stops the command's context, and the command is performed no further; what was performed before it stays (04 R103). -/
def Sys2Proof.Claim.EngineAccessFails : Prop :=
  ∀ (s : State) (c : Command) (progress : Nat) (r : Run), s.commands.find? (fun x => x.id == s.subject.who) = some c →
    s.mayPerform c = true → s.retakeHold c = s → s.subject.flag = false → r.st.contexts = s.contexts → r.st.commands = s.commands →
    (∀ (cause : Trap) (addr : DWord) (source : Option Nat) (ctx : Context), s.contexts.find c.ctx = some ctx →
      (Run.of s c).perform c 0 = (progress, false, some (.stop cause addr source), r) →
      ∀ i ∈ [Instr.engineAccessFault, .engineCommandComplete], ∃ t x h sr, exec i s = .next t ∧ t.contexts.find c.ctx = some x ∧
        x.halt = some h ∧ h.forced = true ∧ sr ∈ h.records ∧ sr.cause = cause ∧ sr.address = addr ∧
        sr.source = source.getD (engineSource c.core c.cls) ∧ t.mem = r.st.mem ∧
        (∃ y ∈ t.commands, y.id = c.id ∧ y.stopped = true ∧ y.held = none ∧ y.progress = progress) ∧
        ∀ y ∈ t.commands, y.id = c.id → t.mayPerform y = false) ∧
    (∀ (f : AccessFault), (Run.of s c).perform c 0 = (progress, false, some (.hold f), r) →
      ∀ i ∈ [Instr.engineAccessFault, .engineCommandComplete], ∃ t x, exec i s = .next t ∧ x ∈ t.commands ∧ x.id = c.id ∧
        x.held = some (Hold.of f) ∧ x.progress = progress ∧ x.done = c.done ∧
        ((∃ h, c.held = some h ∧ h.cause = f.cause ∧ h.addr = f.addr) → t.mem = r.st.mem))

/-- `crc`, performed: each byte of the destination is the source's as it was before, in whichever spaces they stand, and every other byte of
global space and of the crew's scratchpad as before (04 R104). -/
def Sys2Proof.Claim.CopyEffect : Prop :=
  ∀ (s : State) (c : Command) (crew : Crew) (place : Nat → Nat) (sp dp : Bool) (src dst : DWord) (n : Nat),
    let from_ (a : Nat) : Prop := sp = false ∧ src.toNat ≤ a ∧ a < src.toNat + n
    let to_ (a : Nat) : Prop := dp = false ∧ dst.toNat ≤ a ∧ a < dst.toNat + n
    EngineDoes s c crew place (fun a => from_ a ∨ to_ a) → c.work = .copy sp dp src dst n →
    (sp = true → InPad crew src.toNat n) → (dp = true → InPad crew dst.toNat n) →
    (∀ a b, to_ a → to_ b → place a = place b → a = b) →
      ∃ t, exec .engineCommandComplete s = .next t ∧
        (∀ i, i < n → spaceByte t c.crew place dp (dst.toNat + i) = spaceByte s c.crew place sp (src.toNat + i)) ∧
        OnlyWritten s t c.crew crew.padSize (fun m => ∃ a, to_ a ∧ place a = m)
          (fun o => dp = true ∧ dst.toNat ≤ o ∧ o < dst.toNat + n)

/-- `crt.tile`, `crt.tr` and `crt.gather`, performed: destination element (i, j) is the source's, at the row that the offset or the index list
names, transposed for `crt.tr`, and the pad value where the tensor has no such element; every other byte as before. Stated for
destinations whose elements do not overlap one another, the source or the list (04 R105). That the 32-bit pad value is extended with zeros
into elements of 8 bytes is the model's choice (log 43). -/
def Sys2Proof.Claim.TileEffect : Prop :=
  ∀ (s : State) (c : Command) (crew : Crew) (place : Nat → Nat) (mode : Nat) (h : BitVec 128) (dst pitch r0 c0 m n : Nat) (pad : Word)
    (index : Nat), c.work = .tile mode h dst pitch r0 c0 m n pad index → mode < 3 →
    let size := formatWidth (handleFormat h) / 8
    let row (i : Nat) : Nat := if mode = 2 then numberOf (s.padBytes c.crew (index + 4 * i) 4) else r0 + i
    let source (i j : Nat) : Nat := handleBase h + row i * handlePitch h + (c0 + j) * size
    let inside (i j : Nat) : Prop := i < m ∧ j < n ∧ row i < handleRows h ∧ c0 + j < handleColumns h
    let at_ (i j : Nat) : Nat := if mode = 1 then dst + j * pitch + i * size else dst + i * pitch + j * size
    let written (o : Nat) : Prop := ∃ i j, i < m ∧ j < n ∧ at_ i j ≤ o ∧ o < at_ i j + size
    let used (pad : Bool) (a : Nat) : Prop := handlePad h = pad ∧ ∃ i j, inside i j ∧ source i j ≤ a ∧ a < source i j + size
    EngineDoes s c crew place (used false) → 0 < size → (∀ o, written o → o < crew.padSize ∧ ¬used true o) →
    (∀ a, used true a → a < crew.padSize) → (mode = 2 → InPad crew index (4 * m)) →
    (∀ i j k l b d, i < m → j < n → k < m → l < n → b < size → d < size → at_ i j + b = at_ k l + d → i = k ∧ j = l) →
    (mode = 2 → ∀ o, index ≤ o → o < index + 4 * m → ¬written o) →
      ∃ t, exec .engineCommandComplete s = .next t ∧
        (∀ i j b, i < m → j < n → b < size →
          (inside i j → padByteAt t c.crew (at_ i j + b) = spaceByte s c.crew place (handlePad h) (source i j + b)) ∧
          (¬inside i j → padByteAt t c.crew (at_ i j + b) = BitVec.ofNat 8 (pad.toNat / 256 ^ b))) ∧
        OnlyWritten s t c.crew crew.padSize (fun _ => False) written

/-- `crt.deq`, performed: element (token i, channel ch) is its stored code times its channel's scale, or the outlier that its list names, in the
destination format; tokens that the page has not filled get the pad value; every other byte as before. A page that says it holds more
tokens than its capacity stops the command's context (04 R106); that it does so for a command of no tokens too is the model's choice (log
43). -/
def Sys2Proof.Claim.DequantEffect : Prop :=
  ∀ (s : State) (c : Command) (crew : Crew) (place : Nat → Nat) (code : Nat) (transpose : Bool) (h : BitVec 128) (dst pitch : Nat)
    (page : DWord) (j0 n : Nat) (pad : Word), c.work = .dequant code transpose h dst pitch page j0 n pad →
    let channels := handleColumns h
    let size := formatWidth code / 8
    let at_ (i ch : Nat) : Nat := if transpose then dst + ch * pitch + i * size else dst + i * pitch + ch * size
    let bytes (a n : Nat) : List Byte := (List.range n).map fun i => s.byte (place (page.toNat + a + i))
    let filled := numberOf (bytes 8 4)
    let q (i ch : Nat) : Nat := numberOf (bytes (pageValues channels + ((j0 + i) * channels + ch) / 2) 1) / 16 ^ (ch % 2) % 16
    let list (i ch : Nat) : List Byte :=
      bytes (pageLists (handleRows h) channels + 22 * ((j0 + i) * (channels / 128) + ch / 128)) 22
    let scale (ch : Nat) : Machine.Num := decodeNum 1 (numberOf (bytes (16 + 2 * ch) 2))
    let written (o : Nat) : Prop := ∃ i ch, i < n ∧ ch < channels ∧ at_ i ch ≤ o ∧ o < at_ i ch + size
    EngineDoes s c crew place (fun a => page.toNat ≤ a ∧ a < page.toNat + pageBytes (handleRows h) channels) → 0 < size → code ≤ 4 →
    pageHandle h = true → page.toNat % 128 = 0 →
    (filled ≤ handleRows h → (∀ o, written o → o < crew.padSize) →
      (∀ i j k l b d, i < n → j < channels → k < n → l < channels → b < size → d < size → at_ i j + b = at_ k l + d → i = k ∧ j = l) →
      (∀ i ch, i < n → ch < channels → j0 + i < filled → q i ch = 8 → (outlierOf (list i ch) (ch % 128)).isSome = true) →
      ∃ t, exec .engineCommandComplete s = .next t ∧
        (∀ i ch, i < n → ch < channels →
          let stored := (List.range size).map fun b => padByteAt t c.crew (at_ i ch + b)
          (filled ≤ j0 + i → stored = bytesOf size pad.toNat) ∧
          (j0 + i < filled → q i ch ≠ 8 → stored = bytesOf size (dequantised code (decodeNum 7 (q i ch)) (scale ch))) ∧
          (∀ v, j0 + i < filled → q i ch = 8 → outlierOf (list i ch) (ch % 128) = some v →
            stored = bytesOf size (dequantised code (decodeNum 1 v) (scale ch)))) ∧
        OnlyWritten s t c.crew crew.padSize (fun _ => False) written) ∧
    (handleRows h < filled → (s.contexts.find c.ctx).isSome = true →
      ∃ t x hl, exec .engineCommandComplete s = .next t ∧ t.contexts.find c.ctx = some x ∧ x.halt = some hl ∧ hl.forced = true ∧
        t.mem = s.mem)

/-- `lgt` and `lsc`, performed: element i is moved between its place in scratchpad and the address that its index gives, and of the elements
of a scatter at one place the last in the list is the one that lands; every other byte as before (04 R107, R108). Stated for a list and data
that do not overlap. -/
def Sys2Proof.Claim.LighterEffect : Prop :=
  ∀ (s : State) (c : Command) (crew : Crew) (place : Nat → Nat) (size index n : Nat) (base : DWord) (data : Nat),
    let address (i : Nat) : Nat := (base + BitVec.ofNat 64 (numberOf (s.padBytes c.crew (index + 4 * i) 4) * size)).toNat
    EngineDoes s c crew place (fun a => ∃ i, i < n ∧ address i ≤ a ∧ a < address i + size) → size ∈ [4, 8, 16] →
    base.toNat % size = 0 → InPad crew index (4 * n) → InPad crew data (size * n) →
    (index + 4 * n ≤ data ∨ data + size * n ≤ index) →
    (c.work = .gather size index n base data → ∃ t, exec .engineCommandComplete s = .next t ∧
      (∀ i b, i < n → b < size → padByteAt t c.crew (data + i * size + b) = s.byte (place (address i + b))) ∧
      OnlyWritten s t c.crew crew.padSize (fun _ => False) (fun o => data ≤ o ∧ o < data + size * n)) ∧
    (c.work = .scatter size index n base data →
      (∀ i, i < n → place (address i) % size = 0) → ∃ t, exec .engineCommandComplete s = .next t ∧
        (∀ i b, i < n → b < size → (∀ j, i < j → j < n → place (address j) ≠ place (address i)) →
          t.byte (place (address i + b)) = padByteAt s c.crew (data + i * size + b)) ∧
        OnlyWritten s t c.crew crew.padSize (fun m => ∃ i b, i < n ∧ b < size ∧ m = place (address i + b)) (fun _ => False))

/-- The pilot: `pil.start` waits while the gang's chain has not ended, and then begins a chain, the notices of the earlier ones being still
written, to whose first page it commits as soon as it may; `pil.next` frees the oldest notice, of whichever chain, and `pil.stop` ends the
chain (04 R109-R111; that it commits as soon as it may: log 43, DEDUCED). -/
def Sys2Proof.Claim.PilotChainResult : Prop :=
  (∀ (s : State) (g : Gang) (crew : Crew) (a : BitVec 7) (e : Bool) (n : BitVec 4), s.Issues g →
    s.crews.find g.crew = some crew → a.toNat % 2 = 0 → s.Settled g [] ((List.range 5).map fun i => a.toNat + i) →
    let page := g.spair a.toNat
    let ring := (g.sreg (a.toNat + 2)).toNat
    let size := (g.sreg (a.toNat + 4)).toNat
    (¬(size % 128 = 0 ∧ 128 ≤ size ∧ size ≤ 2 ^ 20) →
      exec (.pilStart a e n) s = .next (s.trapAt (s.issuing g) .illegalInstruction (g.enabled s.group) 0)) ∧
    (size % 128 = 0 → 128 ≤ size → size ≤ 2 ^ 20 → page.toNat < 2 ^ 48 → page.toNat % 128 = 0 → ring % 16 = 0 →
      ring + 64 ≤ crew.padSize →
      (∀ c, g.chain = some c → c.ended = false → exec (.pilStart a e n) s = s.waiting) ∧
      ((∀ c, g.chain = some c → c.ended = true) →
        let ch : Chain :=
          { id := s.serial, pc := g.pc s.group, next := some page, terminal := false, committed := 0,
            limit := (g.sreg (a.toNat + 3)).toNat, pageSize := size, ring := ring, arrival := if e then some n.toNat else none,
            unfreed := match g.chain with
              | none => 0
              | some c => c.unfreed
            ended := false
            notices := match g.chain with
              | none => []
              | some c => c.notices
            stamp := (s.issuing g).stamp }
        ∃ t h, exec (.pilStart a e n) s = .next t ∧ t.gangs.find s.gang = some h ∧ t.serial = s.serial + 1 ∧ t.mem = s.mem ∧
          Commits s.serial g ch h))) ∧
  (∀ (s : State) (g : Gang), s.Issues g →
    (∀ ch, g.chain = some ch → ∃ t h, exec .pilNext s = .next t ∧ t.gangs.find s.gang = some h ∧ t.mem = s.mem ∧
      Commits s.serial g { ch with unfreed := ch.unfreed - 1 } h) ∧
    (g.chain = none → exec .pilNext s = .next (s.advance (s.issuing g) 1)) ∧
    exec .pilStop s = .next (s.advance { (s.issuing g) with chain := g.chain.map fun c => { c with ended := true } } 1))

/-- The pilot's notices: that of a page gives the page's address and the second 8 bytes of its header (token count and first position), the
terminating one a zero address (and 0 in its other bytes: log 43, DESIGN CHOICE); each goes into its own chain's ring, makes that chain's
arrival, leaves its counters, and lets the pilot commit further. Reading a page's header, when the page's notice is due or (the subject's
flag) ahead of it, gives the pilot the successor, or where that is zero the terminating notice, to commit to; of a chain that another has
followed it gives nothing more. A successor that is not canonical or not aligned stops the context with ENGINE_FAULT (04 R110, R111; that it
does so before the page's notice: log 43, DESIGN CHOICE; the reading ahead, and that the pilot commits as soon as it may: log 43, DEDUCED).
Once the context's halt line has risen the pilot does so only for what an accepted gantry instruction waits for (19 R368; log 11). -/
def Sys2Proof.Claim.PilotNoticeResult : Prop :=
  ∀ (s : State) (g : Gang) (crew : Crew) (ch : Chain) (n : Notice) (before after : List Notice) (place : Nat → Nat),
    s.gangs.find s.subject.who = some g → g.chain = some ch → ch.notices = before ++ n :: after →
    (∀ x ∈ before ++ after, ¬(x.chain = n.chain ∧ x.number = n.number)) →
    ch.next = none ∨ ch.ended = true ∨ 4 ≤ ch.unfreed + ch.notices.length →
    s.enginesRun g.ctx = true ∨ s.lineRaised g.ctx = true ∧ Errand.notice s.subject.who n ∈ s.awaited g.ctx →
    s.crews.find g.crew = some crew → n.ring + 64 ≤ crew.padSize →
    crew.granules.Nodup → crew.padSize ≤ 4096 * crew.granules.length →
    s.pilotClear s.subject.who g.ctx n s.pendingExtents = true →
    let slot := n.ring + 16 * (n.number % 4)
    let noticed (id : Nat) (notice : List Byte) (g1 : Gang) (x : Chain) : Prop :=
      ∃ t h, exec .pilotNotice s = .next t ∧ t.gangs.find s.subject.who = some h ∧
        Commits id (g1.uncount n.counted noEpochs)
          { x with unfreed := x.unfreed + 1, notices := x.notices.filter fun m => !(m.chain == n.chain && m.number == n.number) } h ∧
        t.mem = s.mem ∧
        (∀ o, o < crew.padSize → padByteAt t g.crew o =
          if slot ≤ o ∧ o < slot + 16 then notice.getD (o - slot) 0 else padByteAt s g.crew o) ∧
        t.crews.find g.crew = some (match n.arrival with
          | none => crew
          | some i => crew.arrive i)
    (s.subject.flag = false → before = [] →
      (n.terminal = true → noticed s.serial (List.replicate 16 0) g ch) ∧
      (∀ w, n.terminal = false → n.header = some w → noticed s.serial (bytesOf 8 n.page.toNat ++ bytesOf 8 w) g ch)) ∧
    (n.terminal = false → n.header = none → n.page.toNat % 128 = 0 → 128 ≤ n.pageSize → s.mayRetry n.held n.chain = true →
      Mapped s (coreOf s.subject.who) g.ctx g.crew n.stamp false place
        (fun a => n.page.toNat ≤ a ∧ a < n.page.toNat + n.pageSize) →
      let next := s.read (place n.page.toNat) 8
      let words := s.read (place (n.page.toNat + 8)) 8
      let good : Prop := next < 2 ^ 48 ∧ next % 128 = 0
      let read (seen : List DWord) : Chain :=
        { ch with
          next := if n.chain = ch.id then some (BitVec.ofNat 64 next) else ch.next
          terminal := if n.chain = ch.id then next == 0 else ch.terminal
          notices := before ++ { n with header := some words, seen := seen, held := none } :: after }
      (s.subject.flag = false → before = [] → good → ∃ id seen g1 x, s.serial ≤ id ∧ Commits id g (read seen) g1 ∧ g1.chain = some x ∧
        noticed id (bytesOf 8 n.page.toNat ++ bytesOf 8 words) g1 x) ∧
      (s.subject.flag = true → (∀ x ∈ before, x.terminal = true ∨ x.header ≠ none) → good →
        ∃ t h id seen, exec .pilotNotice s = .next t ∧ t.gangs.find s.subject.who = some h ∧ s.serial ≤ id ∧
          Commits id g (read seen) h ∧ t.mem = s.mem ∧
          t.crews = s.crews ∧ ∀ o, o < crew.padSize → padByteAt t g.crew o = padByteAt s g.crew o) ∧
      (s.subject.flag = false ∧ before = [] ∨ s.subject.flag = true ∧ (∀ x ∈ before, x.terminal = true ∨ x.header ≠ none) → ¬good →
        ∃ t x hl sr, exec .pilotNotice s = .next t ∧ t.contexts.find g.ctx = some x ∧ x.halt = some hl ∧ hl.forced = true ∧
          sr ∈ hl.records ∧ sr.cause = .engineFault ∧ sr.address = n.page ∧ t.mem = s.mem))

namespace Sys2Proof.Claim
open Sys2Proof.Machine

/-! ### The gantry (09) -/

/-- A gantry command on accumulator `acc` was sent for the acting gang: it stands last among the commands, not begun, the gantry holds the
context's bank, the crew holds the accumulator, and the gang has gone on past `words` words (09 R225, R226, R238). -/
def SentGantry (s t : State) (g : Gang) (crew : Crew) (acc : Nat) (work : Work) (bytes : List Extent) (words : Nat) : Prop :=
  let mask := s.countersFor g { bytes := bytes }
  let cmd : Command :=
    { id := s.serial, cls := .gantry, work := work, gangs := [s.gang], ctx := g.ctx, crew := g.crew, launch := crew.launch,
      arrival := none, stopped := false, progress := 0, held := none, counted := [mask], stamp := (s.issuing g).stamp, seen := noEpochs,
      pc := g.pc s.group, offered := false, done := false }
  t = State.advance
    (State.acceptGantry { s with serial := s.serial + 1, commands := s.commands ++ [cmd] } (coreOf s.gang) g.ctx g.crew acc)
    ((s.issuing g).count mask) words

/-- Another crew than the gang's holds the accumulator (09 R225). -/
def HeldByOther (s : State) (g : Gang) (acc : Nat) : Prop :=
  (s.bank (coreOf s.gang) g.ctx).holder acc ≠ 0 ∧ (s.bank (coreOf s.gang) g.ctx).holder acc ≠ g.crew + 1

/-- The last instruction on an accumulator that the gantry has yet to execute is an `adrain.rel`. -/
def LastReleases (s : State) (core ctx acc : Nat) : Prop :=
  ∃ c pad hist zero dst pitch first count table key slot trim m seed,
    (s.commands.filter fun c => !c.done && c.ctx == ctx && c.crew / 8 == core && c.work.accumulator == some acc).getLast? = some c ∧
      c.work = .adrain acc pad hist zero true dst pitch first count table key slot trim m seed

/-- In a reproducible launch, an instruction that does not set the accumulator finds it unheld, or about to be (09 R225). -/
def Unset (s : State) (g : Gang) (acc : Nat) : Prop :=
  ((s.bank (coreOf s.gang) g.ctx).holder acc = 0 ∨ LastReleases s (coreOf s.gang) g.ctx acc) ∧ s.isReproducible g = true

/-- The gantry of the gang's core is enabled and accepts an instruction, its crew may hold the accumulator, and the command has room (09
R225, R226; 19 R368). -/
structure GantryReady (s : State) (g : Gang) (acc : Nat) (sets : Bool) (bytes : List Extent) : Prop where
  enabled : (s.core (coreOf s.gang)).gantryDisabled = false
  accepts : s.gantryAccepts (coreOf s.gang) = true
  hold : ¬HeldByOther s g acc ∧ (sets = true ∨ ¬Unset s g acc)
  room : MaySend s g .gantry bytes

/-- What an instruction that is to be sent to the gantry answers in state `s`: ENGINE_FAULT where the gantry is disabled; a wait while another
crew holds the accumulator; REPRO_VIOLATION where it finds it unset; a wait while the gantry accepts nothing or there is no room; and else its
command is sent (02 R54; 09 R225, R226; 19 R368). -/
def MeetsGantry (r : Result) (s : State) (g : Gang) (crew : Crew) (acc : Nat) (sets : Bool) (work : Work) (bytes : List Extent)
    (words : Nat) : Prop :=
  ((s.core (coreOf s.gang)).gantryDisabled = true → r = .next (s.trapAt g .engineFault (g.enabled s.group) 0)) ∧
  ((s.core (coreOf s.gang)).gantryDisabled = false →
    (HeldByOther s g acc → r = s.waiting) ∧
    (¬HeldByOther s g acc → sets = false → Unset s g acc →
      r = .next (s.trapAt (s.issuing g) .reproViolation (g.enabled s.group) 0)) ∧
    (¬HeldByOther s g acc → sets = true ∨ ¬Unset s g acc →
      ¬(s.gantryAccepts (coreOf s.gang) = true ∧ MaySend s g .gantry bytes) → r = s.waiting)) ∧
  (GantryReady s g acc sets bytes → ∃ t, r = .next t ∧ SentGantry s t g crew acc work bytes words)

/-- The slot and trim of an `adrain` give a format; its destination by the pad flag. -/
def drainTo (g : Gang) (a : BitVec 7) (pad : Bool) : DWord := if pad then (g.sreg a.toNat).setWidth 64 else g.spair a.toNat

/-- The bytes of an `adrain` of rows of `n` bytes: each row's, and the table's. -/
def drainBytes (g : Gang) (a : BitVec 7) (hist pad : Bool) (n : Nat) : List Extent :=
  rowExtents pad (drainTo g a pad).toNat (g.sreg (a.toNat + 2)).toNat ((g.sreg (a.toNat + 3)).toNat / 65536) n ++
    if hist then extent true (g.sreg (a.toNat + 4)).toNat 272 else []

/-- The work of an `adrain` as its block says (09 R235). -/
def drainWork (s : State) (g : Gang) (crew : Crew) (k : BitVec 2) (a : BitVec 7) (rel zero hist pad : Bool) (m : Option Modifier) : Work :=
  .adrain k.toNat pad hist zero rel (drainTo g a pad) (g.sreg (a.toNat + 2)).toNat ((g.sreg (a.toNat + 3)).toNat % 65536)
    ((g.sreg (a.toNat + 3)).toNat / 65536) (g.sreg (a.toNat + 4)).toNat (g.sreg (a.toNat + 5)) (s.slotWord g g.slotIndex) g.trim m
    (crew.record.seed (g.trim.extractLsb 19 17).toNat)

/-- The block of an `adrain` passes its checks (09 R235). -/
structure DrainReady (s : State) (g : Gang) (crew : Crew) (a : BitVec 7) (hist pad : Bool) (w : Nat) : Prop where
  format : w = formatWidth (slotA (s.slotWord g g.slotIndex)) ∧ w ≠ 0
  settled : a.toNat % 2 = 0 ∧ s.Settled g [] ((List.range 6).map fun i => a.toNat + i)
  rows : 1 ≤ (g.sreg (a.toNat + 3)).toNat / 65536 ∧
    (g.sreg (a.toNat + 3)).toNat % 65536 + (g.sreg (a.toNat + 3)).toNat / 65536 ≤ 192
  aligned : (drainTo g a pad).toNat % ((w + 7) / 8) = 0 ∧ (g.sreg (a.toNat + 2)).toNat % ((w + 7) / 8) = 0
  range : let n := span ((g.sreg (a.toNat + 3)).toNat / 65536) (g.sreg (a.toNat + 2)).toNat (128 * w / 8)
    if pad then InPad crew (drainTo g a pad).toNat n else (drainTo g a pad).toNat < 2 ^ 48
  table : hist = true → (g.sreg (a.toNat + 4)).toNat % 4 = 0 ∧ InPad crew (g.sreg (a.toNat + 4)).toNat 272

/-- Element n of row r of an accumulator of a context's bank on a core. -/
def accAt (s : State) (core ctx acc r n : Nat) : Word := (s.bank core ctx).acc.get (accKey acc r n)

/-- The elements of the bank of a command's context and core are as before, but for those of accumulator `acc` that `f` gives. -/
def AccBecomes (s t : State) (c : Command) (acc : Nat) (f : Nat → Nat → Option Word) : Prop :=
  ∀ k r n, k < 4 → r < 192 → n < 128 →
    accAt t c.core c.ctx k r n = if k = acc then (f r n).getD (accAt s c.core c.ctx k r n) else accAt s c.core c.ctx k r n

/-- Node (lev, j) of the tree over the products of the 16-bit class: each level rounds the sums of pairs, an absent child passing the other
up (09 R228). -/
def treeNode (leaf : Nat → Option (Machine.Num × Flags)) : Nat → Nat → Option (Machine.Num × Flags)
  | 0, j => leaf j
  | lev + 1, j =>
    match treeNode leaf lev (2 * j), treeNode leaf lev (2 * j + 1) with
    | none, y => y
    | x, none => x
    | some x, some y => some ((roundNum 0 0 0 (addNum 0 x.1 y.1).1).1,
        x.2 ||| y.2 ||| (addNum 0 x.1 y.1).2 ||| (roundNum 0 0 0 (addNum 0 x.1 y.1).1).2)

/-- The exceptions of an FP32 sum rounded to nearest even (09 R237). -/
def addFlags (x y : Word) : Flags :=
  let sum := addNum 0 (decodeNum 0 x.toNat) (decodeNum 0 y.toNat)
  (if isSignalling 0 x.toNat || isSignalling 0 y.toNat then 1 else 0) ||| sum.2 ||| (roundNum 0 0 0 sum.1).2

/-- A gang has room for a gantry command of these bytes: fewer than 64 outstanding, and its counters (04 R98, R112). -/
def MaySendOf (s : State) (key : Nat) (h : Gang) (bytes : List Extent) : Prop :=
  s.classCount key .gantry < 64 ∧ h.countersFull (s.countersFor h { bytes := bytes }) = false

/-- A finite operand element. -/
def FiniteOperand (x : Operand) : Prop := ∃ v, Exactly x.value v

end Sys2Proof.Claim

open Sys2Proof Sys2Proof.Machine Sys2Proof.Claim

/-- `convoy #i` selects a definition that lists the gang, `convoy.none` selects none, and one that does not list it is CONVOY_MISMATCH
(09 R219). -/
def Sys2Proof.Claim.ConvoySelection : Prop :=
  ∀ (s : State) (g : Gang) (crew : Crew) (i : BitVec 3), s.Issues g → s.crews.find g.crew = some crew →
    ((∃ e ∈ crew.convoys, e.defn = i.toNat ∧ g.index ∈ e.gangs) →
      exec (.convoy i) s = .next (s.advance { (s.issuing g) with convoy := some i.toNat } 1)) ∧
    ((∀ e ∈ crew.convoys, e.defn = i.toNat → g.index ∉ e.gangs) →
      exec (.convoy i) s = .next (s.trapAt (s.issuing g) .convoyMismatch (g.enabled s.group) 0)) ∧
    exec .convoyNone s = .next (s.advance { (s.issuing g) with convoy := none } 1)

/-- A solo `mma` or `mmas` of as many rows as the gang has lanes is released to the gantry with the gang's rows as they stand, counted where
it reads bytes of B (of skipped blocks none); it meets a disabled gantry, another crew's hold and an unset accumulator as every gantry
instruction does (04 R112; 09 R220, R221, R225, R230; that a list it may read counts: log 36, DEDUCED). That an accumulator counts as unset,
with REPRO_VIOLATION, while an `adrain.rel` of the gang's own crew on it is still to run is the model's choice (log 36). -/
def Sys2Proof.Claim.SoloMatrixSent : Prop :=
  ∀ (s : State) (g : Gang) (crew : Crew) (acc : BitVec 2) (keep : Bool) (a : BitVec 7) (b : BitVec 6) (l : BitVec 3)
    (m : BitVec 2) (sparse : Bool), s.Issues g → s.crews.find g.crew = some crew → g.convoy = none →
    (∀ e ∈ crew.convoys, ∀ x ∈ e.arrivals, x.gang ≠ s.gang) → g.width = 64 * (m.toNat + 1) →
    let w := s.slotWord g l.toNat
    let latch := latchKey s.gang g.crew none
    let latched := s.latchHolds (coreOf s.gang) g.ctx latch
    let off := (g.sreg (2 * b.toNat)).toNat
    jointFormats w = true →
    s.Settled g (if latched then [] else (List.range 32).map (· + a.toNat) ++ (rowExtras w).map (· + a.toNat))
      (2 * b.toNat :: scalarExtras sparse w b.toNat) →
    let i : Instr := if sparse then .mmas acc keep a b l m else .mma acc keep a b l m
    let bytes := jointBytes sparse w ([0, 2, 3, 4].map fun j => g.sreg (2 * b.toNat + j))
    off % 128 = 0 → InPad crew off (tileBytes w) →
    ((s.core (coreOf s.gang)).gantryDisabled = true → exec i s = .next (s.trapAt g .engineFault (g.enabled s.group) 0)) ∧
    ((s.core (coreOf s.gang)).gantryDisabled = false → HeldByOther s g acc.toNat → exec i s = s.waiting) ∧
    ((s.core (coreOf s.gang)).gantryDisabled = false → ¬HeldByOther s g acc.toNat → Unset s g acc.toNat →
      exec i s = .next (s.trapAt (s.issuing g) .reproViolation (g.enabled s.group) 0)) ∧
    (GantryReady s g acc.toNat false bytes →
      ∃ t cmd h, exec i s = .next t ∧
        t.commands = s.commands ++ [cmd] ∧ cmd.cls = .gantry ∧ cmd.gangs = [s.gang] ∧ cmd.counted = [s.countersFor g { bytes := bytes }] ∧
        cmd.work = .joint sparse acc.toNat keep l.toNat (64 * (m.toNat + 1)) latch
          [s.arrival g sparse acc.toNat keep l.toNat (64 * (m.toNat + 1)) a.toNat b.toNat] ∧
        t.gangs.find s.gang = some h ∧ h.v = g.v ∧ h.s = g.s ∧ h.stop = g.stop ∧ t.mem = s.mem)

/-- A joint instruction under a convoy arrives at the convoy's latch with its rows, and waits there; while it waits, its convoy is the one at
whose latch its group's arrival stands. One that differs from the first arrival in its opcode or fields, or whose checks at release fail,
stops every gang that has arrived. The last to arrive releases one command for them all: in list order, counted in each gang, which goes on
past the instruction, and the latch clears (09 R220, R221, R225, R230; that an unset accumulator stops every gang that has arrived, after
those checks: log 36, DESIGN CHOICE; that it waits behind a peer send of its crew: log 36, DEDUCED). -/
def Sys2Proof.Claim.ConvoyRendezvous : Prop :=
  ∀ (s : State) (g : Gang) (crew : Crew) (e : Convoy) (acc : BitVec 2) (keep : Bool) (a : BitVec 7) (b : BitVec 6) (l : BitVec 3)
    (m : BitVec 2) (sparse : Bool), s.Issues g → s.crews.find g.crew = some crew →
    crew.convoys.find? (fun x => x.defn == e.defn) = some e →
    (∀ e' ∈ crew.convoys, (∃ x ∈ e'.arrivals, x.gang = s.gang ∧ x.group = s.group) → e' = e) →
    (∃ x ∈ e.arrivals, x.gang = s.gang ∧ x.group = s.group) ∨ g.convoy = some e.defn →
    let w := s.slotWord g l.toNat
    let latch := latchKey s.gang g.crew (some e.defn)
    let latched := s.latchHolds (coreOf s.gang) g.ctx latch
    let i : Instr := if sparse then .mmas acc keep a b l m else .mma acc keep a b l m
    let p := s.arrival (s.issuing g) sparse acc.toNat keep l.toNat (64 * (m.toNat + 1)) a.toNat b.toNat
    let agrees (x : Arrival) : Prop :=
      x.sparse = sparse ∧ x.acc = acc.toNat ∧ x.keep = keep ∧ x.slot = l.toNat ∧ x.rows = 64 * (m.toNat + 1)
    jointFormats w = true → (s.core (coreOf s.gang)).gantryDisabled = false →
    s.Settled g (if latched then [] else (List.range 32).map (· + a.toNat)) [2 * b.toNat] →
    (∀ r ∈ (if latched then [] else (rowExtras w).map (· + a.toNat)), s.isPending s.gang g false r = false) →
    (∀ r ∈ scalarExtras sparse w b.toNat, s.isPending s.gang g true r = false) →
    (g.width * e.gangs.length ≠ 64 * (m.toNat + 1) →
      exec i s = .next (s.trapAt (s.issuing g) .convoyMismatch (g.enabled s.group) 0)) ∧
    (g.width * e.gangs.length = 64 * (m.toNat + 1) → (∃ x ∈ e.arrivals, x.gang = s.gang) → exec i s = s.waiting) ∧
    (g.width * e.gangs.length = 64 * (m.toNat + 1) → (∀ x ∈ e.arrivals, x.gang ≠ s.gang) →
      (HeldByOther s g acc.toNat → exec i s = s.waiting) ∧
      (¬HeldByOther s g acc.toNat →
      let stopsAll (cause : Trap) : Prop := (e.arrivals.map fun x => x.gang).Nodup →
        ∃ t, exec i s = .next t ∧ t.crews.find g.crew = some (crew.clearLatch e.defn) ∧ t.mem = s.mem ∧
          ∀ x ∈ e.arrivals ++ [p], ∀ h, s.gangs.find x.gang = some h →
            ∃ h' r, t.gangs.find x.gang = some h' ∧ h'.stop = some r ∧ r.cause = cause ∧ h'.v = h.v ∧ h'.s = h.s
      ((∃ x ∈ e.arrivals, ¬agrees x) → stopsAll .convoyMismatch) ∧
      ((∀ x ∈ e.arrivals, agrees x) → e.arrivals.length + 1 < e.gangs.length →
        ∃ t c' e', exec i s = .next t ∧ t.crews.find g.crew = some c' ∧ e' ∈ c'.convoys ∧ e'.defn = e.defn ∧
          e'.arrivals = e.arrivals ++ [p] ∧ t.gangs.find s.gang = some (s.issuing g) ∧ t.commands = s.commands ∧ t.mem = s.mem ∧
          t.idle = true) ∧
      ((∀ x ∈ e.arrivals, agrees x) → e.arrivals.length + 1 = e.gangs.length →
        let keys := e.gangs.map fun n => crew.gangs.getD n 0
        let parts := keys.filterMap fun k => (e.arrivals ++ [p]).find? fun x => x.gang == k
        let first := (parts.head?.map fun x : Arrival => x.scalars.headD 0).getD 0
        let bytes := jointBytes sparse w ((parts.head?.map fun x : Arrival => x.scalars).getD [])
        let stuck : Bool := s.wouldStick (coreOf s.gang) (s.jointCommand (parts.headD p) parts (s.issuing g) latch bytes)
        let named : Prop := (∀ x ∈ parts, ∀ h, s.gangs.find x.gang = some h → latched = false → ∀ r ∈ rowExtras w, x.a + r < h.nregs) ∧
          ∀ x, parts.head? = some x → ∀ r ∈ scalarExtras sparse w x.b, r < 128
        let room : Prop := s.gantryAccepts (coreOf s.gang) = true ∧ ∀ k ∈ keys, ∀ h, s.gangs.find k = some h → MaySendOf s k h bytes
        parts.map (fun x => x.gang) = keys → keys.Nodup → (∀ k ∈ keys, coreOf k = coreOf s.gang ∧ (s.gangs.find k).isSome = true) →
        (¬named → stopsAll .registerRange) ∧
        (named → first.toNat % 128 ≠ 0 → stopsAll .misaligned) ∧
        (named → first.toNat % 128 = 0 → ¬InPad crew first.toNat (tileBytes w) → stopsAll .scratchpadRange) ∧
        (named → first.toNat % 128 = 0 → InPad crew first.toNat (tileBytes w) →
        (Unset s g acc.toNat → stopsAll .reproViolation) ∧
        (¬Unset s g acc.toNat → ¬room ∨ stuck = true → exec i s = s.waiting) ∧
        (¬Unset s g acc.toNat → room → stuck = false →
          ∃ t cmd, exec i s = .next t ∧ t.commands = s.commands ++ [cmd] ∧ cmd.cls = .gantry ∧ cmd.gangs = keys ∧
            cmd.work = .joint sparse acc.toNat keep l.toNat (64 * (m.toNat + 1)) latch parts ∧
            t.crews.find g.crew = some (crew.clearLatch e.defn) ∧ t.mem = s.mem ∧
            ∀ k ∈ keys, ∀ h, s.gangs.find k = some h → ∃ h', t.gangs.find k = some h' ∧ h'.v = h.v ∧ h'.s = h.s ∧ h'.held = none ∧
              (h.refill = none → (∀ sl ∈ h.slices, sl.parked = false) → ∀ x ∈ parts, x.gang = k → ∀ (j : Nat) (sl : Slice),
                h.slices[j]? = some sl →
                  ∃ sl', h'.slices[j]? = some sl' ∧ sl'.pc = if sl.issues x.group = true then sl.pc + 4 else sl.pc))))))

/-- `azero`, `aload`, `adrain`, `arow.get`, `arow.put`, `apeer.send` and `apeer.recv` are sent to the gantry as their blocks say, and each is
ENGINE_FAULT where the gantry is disabled and waits while another crew holds its accumulator (02 R54; 09 R225, R226, R233-R237; that a
receive takes the lowest offering cores: log 18). That an accumulator counts as unset, with REPRO_VIOLATION, while an `adrain.rel` of the
gang's own crew on it is still to run is the model's choice (log 36). -/
def Sys2Proof.Claim.AccumulatorCommandsSent : Prop :=
  ∀ (s : State) (g : Gang) (crew : Crew) (k : BitVec 2) (a : BitVec 7), s.Issues g → s.crews.find g.crew = some crew →
    let reg (i : Nat) : Word := g.sreg (a.toNat + i)
    let sent (i : Instr) (sets : Bool) (work : Work) (bytes : List Extent) : Prop :=
      MeetsGantry (exec i s) s g crew k.toNat sets work bytes 1
    let first := (reg 3).toNat % 65536
    let count := (reg 3).toNat / 65536
    sent (.azero k) true (.azero k.toNat) [] ∧
    (∀ (pad : Bool),
      let src : DWord := if pad then (reg 0).setWidth 64 else g.spair a.toNat
      let bytes := rowExtents pad src.toNat (reg 2).toNat count 512
      a.toNat % 2 = 0 → s.Settled g [] ((List.range 4).map fun i => a.toNat + i) → 1 ≤ count → first + count ≤ 192 →
      src.toNat % 4 = 0 → (reg 2).toNat % 4 = 0 →
      (if pad then InPad crew src.toNat (span count (reg 2).toNat 512) else src.toNat < 2 ^ 48) →
        sent (.aload k a pad) true (.aload k.toNat pad src (reg 2).toNat first count) bytes) ∧
    (∀ (rel zero hist pad : Bool) (w : Nat), DrainReady s g crew a hist pad w →
      sent (.adrain k a rel zero hist pad) false (drainWork s g crew k a rel zero hist pad none)
        (drainBytes g a hist pad (128 * w / 8))) ∧
    (∀ (d : BitVec 7), s.Settled g ((List.range 32).map (· + d.toNat)) [a.toNat] →
      let row := (arowBlock (reg 0) g.width).1
      let col := (arowBlock (reg 0) g.width).2.1
      (arowBlock (reg 0) g.width).2.2 = true →
        sent (.arowGet d k a) false (.rowGet k.toNat d.toNat row col (maskOf (g.active s.group))) [] ∧
        sent (.arowPut d k a) false (.rowPut k.toNat row col (maskOf (g.active s.group))
          ((List.range g.width).map fun l => (List.range 32).map fun j => g.vreg (d.toNat + j) l)) []) ∧
    (∀ (ctx : Context), s.contexts.find g.ctx = some ctx →
      (s.Settled g [] ((List.range 3).map fun i => a.toNat + i) → (reg 0).toNat < ctx.cores.length → (reg 1).toNat ≤ 3 →
        (reg 2).toNat ∈ [64, 128, 192] →
          sent (.apeerSend k a) false (.peerSend k.toNat (reg 0).toNat (reg 1).toNat (reg 2).toNat) []) ∧
      (s.Settled g [] ((List.range 2).map fun i => a.toNat + i) → 1 ≤ (reg 0).toNat → (reg 0).toNat ≤ ctx.cores.length →
        (reg 1).toNat ∈ [64, 128, 192] →
        let stands (o : Offer) : Prop := o ∈ (s.bank (coreOf s.gang) g.ctx).offers ∧
          o.dest = ctx.logicalCore (coreOf s.gang) ∧ o.destAcc = k.toNat ∧
          ∀ c ∈ s.commands, ∀ acc rows sends trim, c.work = .peerRecv acc rows sends trim → o.cmd ∉ sends
        (∀ cs : List Nat, cs.Pairwise (· < ·) → cs.length = (reg 0).toNat → (∀ q ∈ cs, ∃ o, stands o ∧ o.core = q) →
          (∀ o, stands o → o.core ∉ cs → ∀ q ∈ cs, q < o.core) →
          ∃ sends : List Nat, sends.length = cs.length ∧
            (∀ (j q : Nat), cs[j]? = some q → ∃ o, stands o ∧ o.core = q ∧ sends[j]? = some o.cmd) ∧
            sent (.apeerRecv k a) true (.peerRecv k.toNat (reg 1).toNat sends g.trim) []) ∧
        ((∀ cs : List Nat, cs.Nodup → (∀ q ∈ cs, ∃ o, stands o ∧ o.core = q) → cs.length < (reg 0).toNat) →
          ((s.core (coreOf s.gang)).gantryDisabled = true →
            exec (.apeerRecv k a) s = .next (s.trapAt g .engineFault (g.enabled s.group) 0)) ∧
          ((s.core (coreOf s.gang)).gantryDisabled = false → exec (.apeerRecv k a) s = s.waiting))))

/-- A modifier and an `adrain` are one instruction of two words: the command is sent with the modifier, and meets the gantry as the `adrain`
alone does (02 R46-R49; 09 R225, R235). That the accumulator counts as unset, with REPRO_VIOLATION, while an `adrain.rel` of the gang's own
crew on it is still to run is the model's choice (log 36). -/
def Sys2Proof.Claim.ModifiedDrainSent : Prop :=
  ∀ (s t : State) (g : Gang) (crew : Crew) (sat cl ng ab : Bool) (e : BitVec 6) (o : BitVec 3) (tag : BitVec 8) (n : Nat)
    (k : BitVec 2) (a : BitVec 7) (rel zero hist pad : Bool) (w : Nat), s.Issues g → o.toNat ≠ 7 → ¬(sat = true ∧ cl = true) →
    s.fetch (coreOf s.gang) g.ctx (g.pc s.group + 4) = (.ok n, t) → decode n = .ok (.adrain k a rel zero hist pad) →
    t.Issues g → t.gang = s.gang → t.group = s.group → t.crews.find g.crew = some crew → DrainReady t g crew a hist pad w →
      MeetsGantry (exec (.modifier sat cl ng ab e o tag) s) t g crew k.toNat false
        (drainWork t g crew k a rel zero hist pad (some (Modifier.of sat cl ng ab e o tag)))
        (drainBytes g a hist pad (128 * w / 8)) 2

/-- An accumulator that another crew holds makes a gantry instruction wait; where the core's gantry is disabled it is ENGINE_FAULT (09
R225, 02 R54). -/
def Sys2Proof.Claim.AccumulatorHeldOrDisabled : Prop :=
  ∀ (s : State) (g : Gang) (k : BitVec 2), s.Issues g →
    ((s.core (coreOf s.gang)).gantryDisabled = true →
      exec (.azero k) s = .next (s.trapAt g .engineFault (g.enabled s.group) 0)) ∧
    ((s.core (coreOf s.gang)).gantryDisabled = false →
      (s.bank (coreOf s.gang) g.ctx).holder k.toNat ≠ 0 → (s.bank (coreOf s.gang) g.ctx).holder k.toNat ≠ g.crew + 1 →
      exec (.azero k) s = s.waiting)

/-- The partial sums of a row group: of finite elements the 8-bit and 4-bit classes take the exact sum of the products, raising nothing,
and its zero is −0 exactly where there are products and all are −0; a NaN among the products, or infinities of both signs, makes it a NaN,
and an infinity that infinity. The 16-bit class takes the root of the tree of 64 products, each rounded to FP32 (09 R227, R228). -/
def Sys2Proof.Claim.PartialSumResult : Prop :=
  (∀ ps : List (Operand × Operand),
    let qs := ps.map fun p => (elementProduct p.1 p.2).1
    ((∀ p ∈ ps, FiniteOperand p.1 ∧ FiniteOperand p.2 ∧ p.1.signalling = false ∧ p.2.signalling = false) →
      Exactly (exactPartial ps).1 ((ps.map fun p => realOf p.1.value * realOf p.2.value).sum) ∧ (exactPartial ps).2 = 0) ∧
    ((∀ p ∈ ps, FiniteOperand p.1 ∧ FiniteOperand p.2) → (ps.map fun p => realOf p.1.value * realOf p.2.value).sum = 0 →
      ((∃ e, (exactPartial ps).1 = .num true 0 e false) ↔ qs ≠ [] ∧ ∀ q ∈ qs, ∃ e, q = .num true 0 e false)) ∧
    ((∃ neg, Machine.Num.nan neg ∈ qs) ∨ (Machine.Num.inf true ∈ qs ∧ Machine.Num.inf false ∈ qs) → ∃ neg, (exactPartial ps).1 = .nan neg) ∧
    ((∀ neg, Machine.Num.nan neg ∉ qs) → ∀ neg, Machine.Num.inf neg ∈ qs → Machine.Num.inf (!neg) ∉ qs → exactPartial ps = (.inf neg, 0))) ∧
  (∀ ps : List (Option (Operand × Operand)), ps.length = 64 →
    let product (k : Nat) : Option (Machine.Num × Flags) := (ps.getD k none).map fun q =>
      let x := mulNum q.1.value q.2.value
      let y := roundNum 0 0 0 x.1
      (y.1, x.2 ||| (if q.1.signalling || q.2.signalling then 1 else 0) ||| y.2)
    treePartial ps = (treeNode product 6 0).getD (.num false 0 0 false, 0))

/-- The promotion of finite values: the exact c + Σ sA × sB × P_g, or without scales c + Σ P_g, is rounded once to FP32, and the exceptions are
those of that rounding (09 R229; 06 R152, R153). -/
def Sys2Proof.Claim.PromotionResult : Prop :=
  ∀ (c sB : Word) (scaled : Bool) (terms : List (Word × Machine.Num)), FiniteBits 0 c.toNat → FiniteBits 0 sB.toNat →
    (∀ t ∈ terms, FiniteBits 0 t.1.toNat ∧ ∃ v, Exactly t.2 v) →
      let factor (t : Word × Machine.Num) : ℚ := if scaled then valueOf 0 t.1.toNat * valueOf 0 sB.toNat else 1
      ∃ x, Exactly x (valueOf 0 c.toNat + (terms.map fun t => factor t * realOf t.2).sum) ∧
        promote c scaled sB terms = (BitVec.ofNat 32 (deliver 0 false (roundNum 0 0 0 x).1 0).1, (roundNum 0 0 0 x).2)

/-- A joint instruction, performed: each element of the rows of active lanes becomes the promotion of its partial sums over the present
products, every other element of the bank stays, and the exceptions are ORed into the `fpflags` of every gang of the group; where a list
that it reads is malformed it stops the context and changes no accumulator (09 R218, R227-R232). The rows are those that `jointRows` gives,
from the operand latch where that holds them. -/
def Sys2Proof.Claim.JointEffect : Prop :=
  ∀ (s : State) (c : Command) (crew : Crew) (place : Nat → Nat) (sparse : Bool) (acc : Nat) (keep : Bool) (sl m latch : Nat)
    (parts : List Arrival), EngineDoes s c crew place (fun _ => False) → c.work = .joint sparse acc keep sl m latch parts → acc < 4 →
    let slot := crew.record.slot sl
    let scalars := (parts.head?.map fun p => p.scalars).getD []
    let lines := jointRows (s.bank c.core c.ctx) latch parts
    let element (k n : Nat) : Option Operand := s.tileElement c.crew (scalars.getD 0 0).toNat slot k n
    let present (k n : Nat) : Bool := blockPresent sparse slot scalars k n
    let fine : Prop := (∀ k n, k < depthOf slot → n < 128 → present k n = true → (element k n).isSome = true) ∧
      ∀ r ∈ lines, r.2.2.2.1 = true → ∀ k n, k < depthOf slot → n < 128 → present k n = true →
        ((rowElements slot r.2.2.2.2).getD k none).isSome = true
    let result (r : Nat × Nat × Nat × Bool × List Word) (n : Nat) : Word × Flags :=
      let pairs (g : Nat) : List (Option (Operand × Operand)) := (List.range (min 128 (depthOf slot))).map fun i =>
        let k := 128 * g + i
        match (rowElements slot r.2.2.2.2).getD k none, element k n with
        | some x, some y => if present k n then some (x, y) else none
        | _, _ => none
      let groups := if depthOf slot = 256 then [0, 1] else [0]
      let sums := groups.map fun g =>
        (r.2.2.2.2.getD (32 + g) 0, if formatClass (slotA slot) = 3 then treePartial (pairs g) else exactPartial ((pairs g).filterMap id))
      let y := promote (accAt s c.core c.ctx acc r.1 n) (slotScaled slot) (scalars.getD 1 0) (sums.map fun x => (x.1, x.2.1))
      (y.1, sums.foldl (fun f x => f ||| x.2.2) 0 ||| y.2)
    lines.length ≤ 192 → (parts.map fun p => p.gang).Nodup →
    (fine → ∃ t, exec .engineCommandComplete s = .next t ∧ t.mem = s.mem ∧
      AccBecomes s t c acc (fun i n => (lines.find? fun r => r.1 == i && r.2.2.2.1).map fun r => (result r n).1) ∧
      ∀ p ∈ parts, ∀ g, s.gangs.find p.gang = some g → ∃ h, t.gangs.find p.gang = some h ∧ ∀ b, h.fpflags.getLsbD b = true ↔
        g.fpflags.getLsbD b = true ∨ ∃ r ∈ lines, r.2.2.2.1 = true ∧ ∃ n, n < 128 ∧ (result r n).2.getLsbD b = true) ∧
    (¬fine → ∃ t x hl sr, exec .engineCommandComplete s = .next t ∧ t.contexts.find c.ctx = some x ∧ x.halt = some hl ∧
      hl.forced = true ∧ sr ∈ hl.records ∧ sr.cause = .engineFault ∧ AccBecomes s t c acc (fun _ _ => none) ∧ t.mem = s.mem)

/-- What the gantry does for `azero`, `arow.put`, `arow.get` and `aload`: the elements that each names become zero, the given words, or the words
in memory, every other element of the bank staying, and `arow.get` writes the elements to the registers of the listed lanes alone (09
R233, R234, R236). -/
def Sys2Proof.Claim.RowsAndZeros : Prop :=
  ∀ (s : State) (c : Command) (crew : Crew) (place : Nat → Nat) (acc : Nat), acc < 4 →
    let done (t : State) : Prop := exec .engineCommandComplete s = .next t ∧ t.mem = s.mem
    (EngineDoes s c crew place (fun _ => False) → c.work = .azero acc →
      ∃ t, done t ∧ AccBecomes s t c acc (fun _ _ => some 0)) ∧
    (∀ (row col : Nat) (lanes : DWord) (words : List (List Word)), EngineDoes s c crew place (fun _ => False) →
      c.work = .rowPut acc row col lanes words → row + 64 ≤ 192 → col + 32 ≤ 128 →
      ∃ t, done t ∧ AccBecomes s t c acc (fun r n =>
        if row ≤ r ∧ r < row + 64 ∧ lanes.getLsbD (r - row) = true ∧ col ≤ n ∧ n < col + 32 then
          some ((words.getD (r - row) []).getD (n - col) 0)
        else none)) ∧
    (∀ (d row col key : Nat) (lanes : DWord) (g : Gang), EngineDoes s c crew place (fun _ => False) →
      c.work = .rowGet acc d row col lanes → c.gangs = [key] → s.gangs.find key = some g → g.width ≤ 64 → d + 32 ≤ 128 →
      ∃ t h, done t ∧ AccBecomes s t c acc (fun _ _ => none) ∧ t.gangs.find key = some h ∧ h.s = g.s ∧ h.p = g.p ∧
        ∀ r l, r < 128 → l < 64 → h.vreg r l =
          if d ≤ r ∧ r < d + 32 ∧ l < g.width ∧ lanes.getLsbD l = true then accAt s c.core c.ctx acc (row + l) (col + (r - d))
          else g.vreg r l) ∧
    (∀ (pad : Bool) (src : DWord) (pitch first count : Nat),
      EngineDoes s c crew place (fun a => pad = false ∧ ∃ r, r < count ∧ src.toNat + r * pitch ≤ a ∧ a < src.toNat + r * pitch + 512) →
      c.work = .aload acc pad src pitch first count → first + count ≤ 192 →
      (pad = true → InPad crew src.toNat (span count pitch 512)) →
      ∃ t, done t ∧ AccBecomes s t c acc (fun r n =>
        if first ≤ r ∧ r < first + count then
          some (BitVec.ofNat 32 (numberOf ((List.range 4).map fun b =>
            spaceByte s c.crew place pad (src.toNat + (r - first) * pitch + 4 * n + b))))
        else none))

/-- What the gantry does for `adrain`: each element of the rows is delivered into the destination format, row by row at the pitch; a
histogram counts the delivered bins, `.zero` clears the rows, and `.rel` ends the hold; the exceptions are ORed into the gang's `fpflags`.
Every other byte and element stays. Stated for rows that do not overlap one another or the table (09 R235). -/
def Sys2Proof.Claim.DrainEffect : Prop :=
  ∀ (s : State) (c : Command) (crew : Crew) (place : Nat → Nat) (acc : Nat) (pad hist zero release : Bool) (dst : DWord)
    (pitch first count table : Nat) (key : Word) (slot : BitVec 16) (trim : Word) (m : Option Modifier) (seed : Word) (who : Nat) (g : Gang),
    c.work = .adrain acc pad hist zero release dst pitch first count table key slot trim m seed → acc < 4 →
    let w := formatWidth (slotA slot)
    let to_ (a : Nat) : Prop := ∃ r, r < count ∧ dst.toNat + r * pitch ≤ a ∧ a < dst.toNat + r * pitch + 16 * w
    let element (r n : Nat) : Nat × Flags :=
      drainElement slot trim m seed (key + BitVec.ofNat 32 (128 * (first + r) + n)) (accAt s c.core c.ctx acc (first + r) n)
    let counted (a : Nat) : Prop := hist = true ∧ table ≤ a ∧ a < table + 272
    let bins (i : Nat) : Nat := ((List.range (128 * count)).filter fun j =>
      binOf (slotA slot) (element (j / 128) (j % 128)).1 == i).length
    EngineDoes s c crew place (fun a => pad = false ∧ to_ a) → w ≠ 0 → first + count ≤ 192 → (count ≤ 1 ∨ 16 * w ≤ pitch) →
    (pad = true → ∀ a, to_ a → a < crew.padSize ∧ ¬counted a) → (hist = true → InPad crew table 272) →
    (∀ a b, pad = false → to_ a → to_ b → place a = place b → a = b) →
    c.gangs = [who] → s.gangs.find who = some g →
      ∃ t h, exec .engineCommandComplete s = .next t ∧
        (∀ r b, r < count → b < 16 * w → spaceByte t c.crew place pad (dst.toNat + r * pitch + b) =
          BitVec.ofNat 8 (if w = 4 then (element r (2 * b)).1 + 16 * (element r (2 * b + 1)).1
            else (element r (b / (w / 8))).1 / 256 ^ (b % (w / 8)))) ∧
        (hist = true → ∀ i, i < 68 → numberOf (t.padBytes c.crew (table + 4 * i) 4) =
          (numberOf (s.padBytes c.crew (table + 4 * i) 4) + bins i) % 2 ^ 32) ∧
        OnlyWritten s t c.crew crew.padSize (fun x => pad = false ∧ ∃ a, to_ a ∧ place a = x)
          (fun o => pad = true ∧ to_ o ∨ counted o) ∧
        AccBecomes s t c acc (fun r _ => if zero = true ∧ first ≤ r ∧ r < first + count then some 0 else none) ∧
        (release = true → (t.bank c.core c.ctx).holder acc = 0) ∧
        t.gangs.find who = some h ∧ ∀ b, h.fpflags.getLsbD b = true ↔
          g.fpflags.getLsbD b = true ∨ ∃ r n, r < count ∧ n < 128 ∧ (element r n).2.getLsbD b = true

/-- What the gantry does between cores: a send stands offered in the banks of both cores until a receive takes it; a receive adds the elements
of the accumulators offered as they stood before it, in the order of its list, each sum rounded once, ORs the exceptions into its gang's
`fpflags`, and takes the sends, whose commands are then done; a row count that differs stops the context, changing nothing (09 R237). -/
def Sys2Proof.Claim.PeerEffect : Prop :=
  ∀ (s : State) (c : Command) (crew : Crew) (place : Nat → Nat) (ctx : Context) (acc rows : Nat),
    EngineDoes s c crew place (fun _ => False) → s.contexts.find c.ctx = some ctx → acc < 4 → rows ≤ 192 →
    (∀ dest destAcc, c.work = .peerSend acc dest destAcc rows → (∀ o ∈ (s.bank c.core c.ctx).offers, o.cmd ≠ c.id) →
      (∀ o ∈ (s.bank (ctx.cores.getD dest c.core) c.ctx).offers, o.cmd ≠ c.id) → ∃ t x,
      exec .engineCommandComplete s = .next t ∧ t.mem = s.mem ∧ x ∈ t.commands ∧ x.id = c.id ∧ x.offered = true ∧ x.done = false ∧
      ∀ core ∈ [c.core, ctx.cores.getD dest c.core], ∃ o ∈ (t.bank core c.ctx).offers, o.cmd = c.id ∧
        o.core = ctx.logicalCore c.core ∧ o.dest = dest ∧ o.acc = acc ∧ o.destAcc = destAcc ∧ o.rows = rows) ∧
    (∀ (sends : List Nat) (trim : Word), c.work = .peerRecv acc rows sends trim → sends.Nodup →
      let offers := sends.filterMap fun id => (s.bank c.core c.ctx).offers.find? fun o => o.cmd == id
      let sender (o : Offer) : Nat := ctx.cores.getD o.core c.core
      let sum (os : List Offer) (r n : Nat) : Word :=
        os.foldl (fun x o => addFp32 x (accAt s (sender o) c.ctx o.acc r n)) (accAt s c.core c.ctx acc r n)
      ((∀ o ∈ offers, o.rows = rows) → ∃ t, exec .engineCommandComplete s = .next t ∧ t.mem = s.mem ∧
        AccBecomes s t c acc (fun r n => if r < rows then some (sum offers r n) else none) ∧
        (∀ who g, c.gangs = [who] → s.gangs.find who = some g → ∃ h, t.gangs.find who = some h ∧
          ∀ b, h.fpflags.getLsbD b = true ↔ g.fpflags.getLsbD b = true ∨ ∃ r n j o, r < rows ∧ n < 128 ∧ offers[j]? = some o ∧
            (addFlags (sum (offers.take j) r n) (accAt s (sender o) c.ctx o.acc r n)).getLsbD b = true) ∧
        (∀ x ∈ t.commands, x.id ∈ sends → x.done = true) ∧ ∀ o ∈ (t.bank c.core c.ctx).offers, o.cmd ∉ sends) ∧
      ((∃ o ∈ offers, o.rows ≠ rows) → ∃ t x hl, exec .engineCommandComplete s = .next t ∧ t.contexts.find c.ctx = some x ∧
        x.halt = some hl ∧ hl.forced = true ∧ AccBecomes s t c acc (fun _ _ => none) ∧ t.mem = s.mem))

namespace Sys2Proof.Claim
open Sys2Proof.Machine

/-! ### Charts (17) -/

/-- The chart instruction's handle and descriptor pass their checks: the chart, and the run after the descriptor was read (17 R352). -/
def ChartOpen (s : State) (g : Gang) (k : Nat) (size : Option Nat) (c : Chart) (r : Run) : Prop :=
  handleBase (g.kreg k) % 64 = 0 ∧ handleKind (g.kreg k) = 3 ∧
  (Run.start s (s.issuing g).stamp).descriptor (coreOf s.gang) g.ctx (handleBase (g.kreg k)) size = (.ok c, r)

/-- The gang went on with one load more, not counted on `ldcount`, into the named registers and on the counters of `mask` (03 R70, 17
R353). -/
def ChartAnswer (s t : State) (g : Gang) (mem : Cells 8) (scalar : Bool) (dests : List Nat) (mask : BitVec 8)
    (ps : List (Nat × Piece)) : Prop :=
  ∃ h ld, t.gangs.find s.gang = some h ∧ h.loads = g.loads ++ [ld] ∧ ld.scalar = scalar ∧ ld.dests = dests ∧
    ld.onCounter = false ∧ ld.counted = mask ∧ ld.sectors = sectorsOf ps (fun _ => mask) ∧ h.stop = g.stop ∧ t.mem = mem

/-- The registers of a lane-wise chart access are settled. -/
def ChartReady (s : State) (g : Gang) (a : Nat) (regs : List Nat) : Prop :=
  s.Settled g ([a, a + 1, a + 2] ++ regs) []

/-- The block at level `v` of an element's path through a tree in memory, 0 where nothing is linked: the address of a valid entry is its bits
[47:12] (17 R347, R348, R353). -/
def nodeAt (read : Nat → Nat) (root : Nat) (p : Coords) : Nat → Nat
  | 0 => root
  | v + 1 =>
    let node := nodeAt read root p v
    let s := 12 - 3 * v
    let entry := read (node + 8 * (64 * (p.2.2 / 2 ^ s % 8) + 8 * (p.2.1 / 2 ^ s % 8) + p.1 / 2 ^ s % 8))
    if node = 0 ∨ entry % 2 = 0 then 0 else entry / 4096 * 4096

/-- The address of the entry that an element's path takes in a node of level `v` (17 R348). -/
def entryAt (node : Nat) (p : Coords) (v : Nat) : Nat :=
  let s := 12 - 3 * v
  node + 8 * (64 * (p.2.2 / 2 ^ s % 8) + 8 * (p.2.1 / 2 ^ s % 8) + p.1 / 2 ^ s % 8)

/-- An entry that is not malformed (17 R347). -/
def WellFormedEntry (x : Nat) : Prop := x < 2 ^ 48 ∧ (x % 2 = 0 → x = 0) ∧ (x % 2 = 1 → x / 2 % 2048 = 0)

/-- The links of an element's path, of `n` levels, through the tree of a chart at `desc`, as memory has it. -/
structure PathIn (s : State) (place : Nat → Nat) (desc root : Nat) (p : Coords) (n : Nat) : Prop where
  top : s.read (place desc) 8 = root ∧ root < 2 ^ 48 ∧ root % 4096 = 0
  entries : ∀ v, v < n → nodeAt (fun a => s.read (place a) 8) root p v ≠ 0 →
    WellFormedEntry (s.read (place (entryAt (nodeAt (fun a => s.read (place a) 8) root p v) p v)) 8)

/-- The bytes of the links of an element's path. -/
def linkBytes (s : State) (place : Nat → Nat) (desc root : Nat) (p : Coords) (n a : Nat) : Prop :=
  (desc ≤ a ∧ a < desc + 8) ∨ ∃ v, v < n ∧
    let node := nodeAt (fun a => s.read (place a) 8) root p v
    node ≠ 0 ∧ entryAt node p v ≤ a ∧ a < entryAt node p v + 8

/-- A pool's header in memory keeps R349: its ring, entry count, head and tail. -/
structure PoolIn (s : State) (place : Nat → Nat) (pool ring n head tail : Nat) : Prop where
  aligned : pool % 64 = 0 ∧ ring % 8 = 0 ∧ ring < 2 ^ 48
  fields : s.read (place pool) 8 = ring ∧ s.read (place (pool + 8)) 4 = n ∧ s.read (place (pool + 16)) 4 = head ∧
    s.read (place (pool + 20)) 4 = tail
  entries : ∃ i, 1 ≤ i ∧ i ≤ 24 ∧ n = 2 ^ i
  reserved : s.read (place (pool + 12)) 4 = 0 ∧ ∀ i, i < 40 → s.byte (place (pool + 24 + i)) = 0

/-- The bytes of a pool: its header and its ring. -/
def poolBytes (pool ring n a : Nat) : Prop := (pool ≤ a ∧ a < pool + 64) ∨ (ring ≤ a ∧ a < ring + 8 * n)

/-- What each active lane of an `stc` comes to, of the lanes that name one element each what the lowest of them has come to. -/
def laneOutcomes (g : Gang) (lanes : List Nat) (a : Nat) (outs : List (Nat × StoreLane)) : List (Nat × StoreLane) :=
  lanes.filterMap fun l => (outs.find? fun y => g.coords a y.1 == g.coords a l).map fun y => (l, y.2)

/-- The lane has nothing to store, stores in memory at a place without a bad sector, or is to be logged. -/
def LanesFine (st : State) (c : Chart) (outs : List (Nat × StoreLane)) : Prop :=
  (∀ y ∈ outs, y.2 = .outside ∨ y.2.logs = true ∨ ∃ m va, y.2 = .at (.mem m) va ∧ st.badSector m c.e = none) ∧
  ∀ l k m n va, (l, StoreLane.at (.mem m) va) ∈ outs → (k, StoreLane.at (.mem n) va) ∈ outs → m = n

/-- The lanes of an `stc` that are to be logged, in the order of their ages. -/
def loggedLanes (g : Gang) (outs : List (Nat × StoreLane)) : Lanes :=
  byAge g ((outs.filter fun y => y.2.logs).map fun y => (y.1, 0))

/-- What an `stc` that ends leaves, from memory and side log as `r` has them: of the lanes that store to a byte the last by age, and then by
number, has stored, and no other byte has changed where no fault was to be recorded; and the lanes that stand behind a logged store, find
their pool short or have failed are logged by age, the second under CHART_ALLOC at the descriptor's address, the last with their faults and
the blocks that they could not put back (03 R68; 16 R332, R418; 17 R353, R354, R356; log 35). -/
def LanesStored (s t : State) (r : Run) (g : Gang) (c : Chart) (d a : Nat) (outs : List (Nat × StoreLane)) : Prop :=
  let age (l : Nat) : Nat := (g.ages.getD l 0xFFFFFFFF).toNat
  let data (l : Nat) : BitVec 128 := accessData (fun i => g.vreg (d + i) l) c.e
  (∃ h, t.gangs.find s.gang = some h ∧ h.v = g.v ∧ h.s = g.s ∧ h.stop = g.stop ∧ h.alloc = none) ∧
  ((∀ y ∈ outs, y.2.logs = true → y.2 = .behind) →
    (∀ l m va, (l, StoreLane.at (.mem m) va) ∈ outs →
      (∀ k n vb, (k, StoreLane.at (.mem n) vb) ∈ outs → k ≠ l → n < m + c.e → m < n + c.e → age k < age l ∨ (age k = age l ∧ k < l)) →
      ∀ i, i < c.e → t.byte (m + i) = byteOf (data l) i) ∧
    ∀ x, (∀ l m va, (l, StoreLane.at (.mem m) va) ∈ outs → x < m ∨ m + c.e ≤ x) → t.byte x = r.st.byte x) ∧
  ∃ es, t.sideLogOf s.gang = r.st.sideLogOf s.gang ++ es ∧ es.length = (loggedLanes g outs).length ∧
    ∀ (i l z : Nat), (loggedLanes g outs)[i]? = some (l, z) → ∃ e, es[i]? = some e ∧ e.lane = some l ∧ e.data = data l ∧ e.size = c.e ∧
      e.op = .chart (BitVec.ofNat 64 c.desc) (g.vreg a l) (g.vreg (a + 1) l) (g.vreg (a + 2) l) ∧
      ((l, StoreLane.short) ∈ outs → e.cause = .chartAlloc ∧ e.faultAt = some (BitVec.ofNat 64 c.desc)) ∧
      ((l, StoreLane.behind) ∈ outs → e.cause = .none ∧ e.faultAt = none) ∧
      ∀ f owed, (l, StoreLane.failed f owed) ∈ outs → e.cause = f.cause ∧ e.faultAt = some f.addr ∧
        ((∀ y ∈ outs, y.1 ≠ l → g.coords a y.1 ≠ g.coords a l) → e.owed = owed.map fun x => (c.pool, x))

/-- The `stc` has begun an allocation, and stands until its next turn: nothing is stored, its lanes have come to `outs`, which are kept, and
the blocks that have been taken, which its lane is to link (17 R355). -/
def StorePaused (s t : State) (g : Gang) (x : ChartStore) (a : Nat) (outs : List (Nat × StoreLane)) (taken : Allocation) : Prop :=
  ∃ h w, t.gangs.find s.gang = some h ∧ h.v = g.v ∧ h.s = g.s ∧ h.stop = g.stop ∧ h.slices = g.slices ∧ h.wait = .issued s.group ∧
    h.alloc = some w ∧ w.id = x.id ∧ w.chart = x.chart ∧ w.taken = some taken ∧
    (∀ y, y ∈ w.tiles ↔ y ∈ x.tiles ∨ (∀ z ∈ x.tiles, z.lane ≠ y.lane) ∧ (∀ z ∈ x.faults, z.lane ≠ y.lane) ∧
      y.tile = tileOf (g.coords a y.lane) ∧ ∃ q, (y.lane, StoreLane.at q y.va) ∈ outs) ∧
    ∀ y, y ∈ w.faults ↔ y ∈ x.faults ∨ (∀ z ∈ x.tiles, z.lane ≠ y.lane) ∧ (∀ z ∈ x.faults, z.lane ≠ y.lane) ∧
      ∃ o, (y.lane, o) ∈ outs ∧ o.logs = true ∧ y.fault = o.fault x.chart g.ctx ∧ y.owed = o.owed

end Sys2Proof.Claim

open Sys2Proof Sys2Proof.Machine Sys2Proof.Claim

/-- The handle's checks come first in every chart instruction: a descriptor address off 64 bytes is MISALIGNED, a handle of another kind
CHART_FORMAT, both reporting the descriptor's address (17 R352). -/
def Sys2Proof.Claim.ChartHandleTraps : Prop :=
  ∀ (s : State) (g : Gang) (d : BitVec 7) (k : BitVec 4) (a : BitVec 7) (z : BitVec 2) (scope : BitVec 3), s.Issues g → g.alloc = none →
    let desc := handleBase (g.kreg k.toNat)
    let checked (i : Instr) : Prop :=
      (desc % 64 ≠ 0 → exec i s = .next (s.trapAt (s.issuing g) .misaligned (g.enabled s.group) (BitVec.ofNat 64 desc))) ∧
      (desc % 64 = 0 → handleKind (g.kreg k.toNat) ≠ 3 →
        exec i s = .next (s.trapAt (s.issuing g) .chartFormat (g.enabled s.group) (BitVec.ofNat 64 desc)))
    (ChartReady s g a.toNat (accessRegs d.toNat z.toNat) → (z.toNat = 3 → d.toNat % 2 = 0) →
      checked (.ldc d k a z) ∧ checked (.stc d k a z)) ∧
    (ChartReady s g a.toNat [d.toNat, d.toNat + 1] → d.toNat % 2 = 0 → checked (.chq d k a)) ∧
    (s.Settled g [] ([d.toNat, d.toNat + 1] ++ [a.toNat, a.toNat + 1, a.toNat + 2]) → d.toNat % 2 = 0 → checked (.chfree d k a)) ∧
    (s.Settled g [] [a.toNat, a.toNat + 1] → a.toNat % 2 = 0 → checked (.chfreeRet k a)) ∧
    checked (.clbinv k scope) ∧
    (s.Settled g [] [a.toNat, a.toNat + 1, a.toNat + 2] → checked (.clbinvTile k a scope))

/-- A walk that the buffer does not serve follows the links in memory from the root: it finds the tile at level 4, which then stands in the
buffer, or finds none where a link on the path is empty, and a malformed entry is CHART_FORMAT at its address. A buffered tile that serves it
is the answer (that an old one may: log 13), and an element out of range has none (17 R345, R347, R351, R353, R354). -/
def Sys2Proof.Claim.ChartWalkResult : Prop :=
  ∀ (r : Run) (core ctx crew : Nat) (c : Chart) (p : Coords) (place : Nat → Nat) (root : Nat) (afresh : Bool),
    (c.outside p = true ↔ c.ex ≤ p.1 ∨ c.ey ≤ p.2.1 ∨ c.ez ≤ p.2.2) ∧
    (c.outside p = true → r.walk core ctx c p afresh = (.ok .outside, r)) ∧
    (c.outside p = false → c.desc % 64 = 0 →
      let block (v : Nat) : Nat := nodeAt (fun a => r.st.read (place a) 8) root p v
      (∀ x, afresh = false → Config.clbUsed r.st.serial = true → r.st.clbLookup core ctx c.desc (tileOf p) = some x →
        ∃ r1, r.walk core ctx c p afresh = (.ok (.tile x.block), r1) ∧ r1.st.mem = r.st.mem) ∧
      (afresh = true ∨ Config.clbUsed r.st.serial = false ∨ r.st.clbLookup core ctx c.desc (tileOf p) = none →
        let started : State := { r.st with serial := r.st.serial + 1 }
        let mapped (n : Nat) : Prop :=
          Mapped started core ctx crew r.stamp r.lighter place (linkBytes r.st place c.desc root p n)
        (mapped 4 → PathIn r.st place c.desc root p 4 → block 4 = 0 →
          ∃ link d r1, r.walk core ctx c p afresh = (.ok (.absent link d), r1) ∧ r1.st.mem = r.st.mem) ∧
        (mapped 4 → PathIn r.st place c.desc root p 4 → block 4 ≠ 0 →
          ∃ r1 x, r.walk core ctx c p afresh = (.ok (.tile (block 4)), r1) ∧ r1.st.mem = r.st.mem ∧
            r1.st.clbLookup core ctx c.desc (tileOf p) = some x ∧ x.block = block 4) ∧
        (∀ v, v < 4 → mapped (v + 1) → PathIn r.st place c.desc root p v → block v ≠ 0 →
          ¬WellFormedEntry (r.st.read (place (entryAt (block v) p v)) 8) →
          ∃ r1, r.walk core ctx c p afresh = (.error (.stop .chartFormat (BitVec.ofNat 64 (entryAt (block v) p v)) none), r1) ∧
            r1.st.mem = r.st.mem)))

/-- What `ldc` and `chq` make of a walk: `ldc` reads the bytes of the element at its offset in its tile, and background where it has none or is
out of range, and no memory where logged stores of its gang hold all of its bytes; `chq` answers the block, 0 for an absent tile, and all ones
out of range (16 R418; 17 R345, R348, R353). -/
def Sys2Proof.Claim.ChartElementResult : Prop :=
  ∀ (r r1 : Run) (key ctx : Nat) (c : Chart) (p : Coords) (afresh : Bool) (found : Found),
    r.walk (coreOf key) ctx c p afresh = (.ok found, r1) →
    let value : Nat × Option Coords := match found with
      | .outside => (2 ^ 64 - 1, none)
      | .absent _ _ => (0, none)
      | .tile block => (block, some (tileOf p))
    r.queryElement (coreOf key) ctx c p afresh = (.ok value, r1) ∧
    (r.st.sideLogOf key = [] → r1.st.sideLogOf key = [] →
      ((∀ block, found ≠ .tile block) → r.loadElement key ctx c p afresh =
        (.ok { va := 0, bytes := (List.range c.e).map fun i => (bytesOf c.e c.background).getD i 0, tile := none }, r1)) ∧
      (∀ block b r2, found = .tile block → 0 < c.e →
        let va := block + (64 * (p.2.2 % 8) + 8 * (p.2.1 % 8) + p.1 % 8) * c.e
        r1.fetch (coreOf key) ctx va c.e = (.ok b, r2) → r2.st.sideLogOf key = [] →
        r.loadElement key ctx c p afresh =
          (.ok { va := va, bytes := (List.range c.e).map fun i => b.getD i 0, tile := some (tileOf p) }, r2))) ∧
    (∀ block (b : Nat → Byte), found = .tile block →
      let va := block + (64 * (p.2.2 % 8) + 8 * (p.2.1 % 8) + p.1 % 8) * c.e
      r1.st.logReduces key c.e [(0, va)] = false →
      (∀ i, i < c.e → r1.st.loggedElement key c.desc p (some va) i = some (b i)) →
      r.loadElement key ctx c p afresh =
        (.ok { va := va, bytes := (List.range c.e).map b, tile := some (tileOf p) }, r1))

/-- `ldc` brings each active lane the bytes of its element, which then land as a load's; behind a logged reduction it holds its gang (16 R418,
17 R353; that they are read at issue: log 8). -/
def Sys2Proof.Claim.ChartLoadResult : Prop :=
  ∀ (s : State) (g : Gang) (d : BitVec 7) (k : BitVec 4) (a : BitVec 7) (z : BitVec 2) (c : Chart) (r r1 : Run)
    (xs : List (Nat × Element)), s.Issues g → ChartReady s g a.toNat (accessRegs d.toNat z.toNat) →
    (z.toNat = 3 → d.toNat % 2 = 0) → ChartOpen s g k.toNat (some z.toNat) c r →
    let mask := s.countersFor g { bytes := [], chart := some (BitVec.ofNat 64 c.desc) }
    (g.active s.group = [] → exec (.ldc d k a z) s = .next (r.st.advance (s.issuing g) 1)) ∧
    (g.active s.group ≠ [] → g.countersFull mask = false →
      Run.lanes (fun r l => r.loadElement s.gang g.ctx c (g.coords a.toNat l) s.isRetry) (g.active s.group) r = (.ok xs, r1) →
      ∃ t, exec (.ldc d k a z) s = .next t ∧ ChartAnswer s t g r1.st.mem false (accessRegs d.toNat z.toNat) mask
        (xs.flatMap fun x => piecesOf false d.toNat x.1 x.2.va c.e fun i => x.2.bytes.getD i 0)) ∧
    (∀ l, g.active s.group ≠ [] → g.countersFull mask = false →
      Run.lanes (fun r l => r.loadElement s.gang g.ctx c (g.coords a.toNat l) s.isRetry) (g.active s.group) r = (.error (l, .behind), r1) →
      exec (.ldc d k a z) s = .next (standsAlone s g))

/-- `stc`: with no active lane it stores nothing; of the lanes that name one element the lowest walks, in turn, and all of them store at its
place, are logged, or lie out of range; at the first lane that a trap meets (REPRO_VIOLATION at an absent tile, in a reproducible launch) the
gang stops; and at the first lane for which blocks have been taken the instruction stays, to link them at its next turn, before any lane
stores (17 R353-R356, R362; the two turns: log 7, DESIGN CHOICE; that the lanes of one element share a walk: log 35, DEDUCED). -/
def Sys2Proof.Claim.ChartStoreResult : Prop :=
  ∀ (s : State) (g : Gang) (d : BitVec 7) (k : BitVec 4) (a : BitVec 7) (z : BitVec 2) (c : Chart) (r r1 : Run), s.Issues g →
    g.alloc = none → ChartReady s g a.toNat (accessRegs d.toNat z.toNat) →
    (z.toNat = 3 → d.toNat % 2 = 0) → ChartOpen s g k.toNat (some z.toNat) c r →
    let lanes := g.active s.group
    let walkers := lanes.filter fun l => !(lanes.any fun i => decide (i < l) && g.coords a.toNat i == g.coords a.toNat l)
    let store (r : Run) (l : Nat) : LaneAnswer :=
      r.storeElement s.gang g.ctx (s.isReproducible g) c (g.coords a.toNat l) (s.sideLogOf s.gang) l s.isRetry
    let room : Prop := g.countersFull (s.countersFor g { bytes := [], chart := some (BitVec.ofNat 64 c.desc) }) = false
    (lanes = [] → (s.sideLogOf s.gang).length ≤ 128 →
      ∃ t, exec (.stc d k a z) s = .next t ∧ LanesStored s t r g c d.toNat a.toNat []) ∧
    (room → ∀ found, Run.lanesTo store walkers r = (found, none, r1) →
      let outs := laneOutcomes g lanes a.toNat found
      LanesFine r1.st c outs → (s.sideLogOf s.gang).length + (loggedLanes g outs).length ≤ 128 →
      ∃ t, exec (.stc d k a z) s = .next t ∧ LanesStored s t r1 g c d.toNat a.toNat outs) ∧
    (room → ∀ l cause addr source, Run.lanesTo store walkers r = ([], some (l, .trap cause addr source), r1) →
      (s.sideLogOf s.gang).length ≤ 128 → (∀ i ∈ lanes, l ≤ i) →
      ∃ t h sr, exec (.stc d k a z) s = .next t ∧ t.gangs.find s.gang = some h ∧ h.v = g.v ∧ h.s = g.s ∧ h.stop = some sr ∧
        sr.cause = cause ∧ sr.address = addr ∧ sr.laneMask = maskOf [l] ∧ t.mem = r1.st.mem) ∧
    (room → ∀ l x found, Run.lanesTo store walkers r = (found, some (l, .begun x), r1) →
      ∃ t, exec (.stc d k a z) s = .next t ∧ t.mem = r1.st.mem ∧
        StorePaused s t g { id := s.serial, chart := c, tiles := [], faults := [], lost := none, taken := none } a.toNat found x)

/-- An absent tile of an element in range is allocated, but in a reproducible launch, where it is a violation (17 R353, R355, R362). -/
def Sys2Proof.Claim.ChartAbsentTile : Prop :=
  ∀ (r r1 : Run) (key ctx : Nat) (repro : Bool) (c : Chart) (p : Coords) (log : List SideEntry) (l link depth : Nat) (afresh : Bool),
    (∀ e ∈ log, e.sameElement key c.desc p = false) → r.walk (coreOf key) ctx c p afresh = (.ok (.absent link depth), r1) →
    (repro = true → r.storeElement key ctx repro c p log l afresh =
      (.error (.trap .reproViolation (BitVec.ofNat 64 c.desc) none), r1)) ∧
    (repro = false → ∀ (r2 r3 : Run) (link j : Nat), r1.walkTree (coreOf key) ctx c p true 4 = (.ok (.absent link j), r2) →
      (∀ blocks, r2.takeFilled (coreOf key) ctx c p j = (.ok (some blocks), r3) → r.storeElement key ctx repro c p log l afresh =
        (.error (.begun { lane := l, link := link, depth := j, blocks := blocks }), r3)) ∧
      (r2.takeFilled (coreOf key) ctx c p j = (.ok none, r3) →
        r.storeElement key ctx repro c p log l afresh = (.ok .short, r3)))

/-- The first half of an allocation at depth j: it takes the 5 − j blocks at the head of the pool's ring, or none where fewer are available;
the first 4 − j become nodes that hold nothing but the link to the next, and the last a tile of background; no other byte of memory changes
(17 R350, R355, R356). -/
def Sys2Proof.Claim.AllocationFills : Prop :=
  ∀ (r : Run) (core ctx crew : Nat) (c : Chart) (p : Coords) (j : Nat) (place : Nat → Nat) (ring n head tail : Nat), j ≤ 4 →
    c.e ∈ [1, 2, 4, 8] → PoolIn r.st place c.pool ring n head tail →
    let block (i : Nat) : Nat := r.st.read (place (ring + 8 * ((head + i) % n))) 8
    let available := (tail + 2 ^ 32 - head) % 2 ^ 32
    let bytes (a : Nat) : Prop := poolBytes c.pool ring n a ∨
      (5 - j ≤ available ∧ ∃ i, i < 5 - j ∧ block i ≤ a ∧ a < block i + 4096)
    r.lighter = false → Mapped r.st core ctx crew r.stamp false place bytes →
    (available < 5 - j → ∃ r1, r.takeFilled core ctx c p j = (.ok none, r1) ∧ r1.st.mem = r.st.mem) ∧
    (5 - j ≤ available → (∀ i, i < 5 - j → block i % 4096 = 0 ∧ block i < 2 ^ 48 ∧ block i ≠ c.pool / 4096 * 4096) →
      (∀ i k, i < 5 - j → k < 5 - j → block i = block k → i = k) →
      (∀ a b, bytes a → bytes b → place a = place b → a = b) →
      ∃ r1, r.takeFilled core ctx c p j = (.ok (some ((List.range (5 - j)).map block)), r1) ∧
        (∀ i, i < 4 → r1.st.byte (place (c.pool + 16 + i)) = BitVec.ofNat 8 ((head + (5 - j)) / 256 ^ i)) ∧
        (∀ i, i < 512 * c.e → r1.st.byte (place (block (4 - j) + i)) = BitVec.ofNat 8 (c.background / 256 ^ (i % c.e))) ∧
        (∀ v i, v < 4 - j → i < 4096 → r1.st.byte (place (block v + i)) =
          if entryAt 0 p (j + v) ≤ i ∧ i < entryAt 0 p (j + v) + 8 then
            BitVec.ofNat 8 ((block (v + 1) + 1) / 256 ^ (i - entryAt 0 p (j + v)))
          else 0) ∧
        (∀ m, (∀ i, i < 4 → m ≠ place (c.pool + 16 + i)) → (∀ i, i < 512 * c.e → m ≠ place (block (4 - j) + i)) →
          (∀ v i, v < 4 - j → i < 4096 → m ≠ place (block v + i)) → r1.st.byte m = r.st.byte m))

/-- The second half of an allocation: a link that still reads 0 takes the first block, as a release that begins an epoch of the core's die, and
no other byte changes; where another party has linked it, the swap is lost and nothing is written; putting a block back, as `chfree.ret` does,
writes it at the ring's tail and moves the tail (17 R350, R355, R360). -/
def Sys2Proof.Claim.AllocationLinks : Prop :=
  (∀ (r : Run) (core ctx crew : Nat) (a : Allocation) (place : Nat → Nat), a.link % 8 = 0 →
    Mapped r.st core ctx crew r.stamp r.lighter place (fun x => a.link ≤ x ∧ x < a.link + 8) →
    let linked := a.blocks.headD 0 + if a.depth = 0 then 0 else 1
    (r.st.read (place a.link) 8 = 0 → ∃ (r1 : Run) (s1 : State), r.swap core ctx a = (.ok true, r1) ∧ r1.linked = true ∧ r1.st = s1.release core ∧
      (∀ i, i < 8 → r1.st.byte (place a.link + i) = BitVec.ofNat 8 (linked / 256 ^ i)) ∧
      ∀ m, m < place a.link ∨ place a.link + 8 ≤ m → r1.st.byte m = r.st.byte m) ∧
    (r.st.read (place a.link) 8 ≠ 0 → ∃ r1, r.swap core ctx a = (.ok false, r1) ∧ r1.st.mem = r.st.mem)) ∧
  (∀ (r : Run) (core ctx crew pool block ring n head tail : Nat) (k : PoolWants) (place : Nat → Nat),
    PoolIn r.st place pool ring n head tail → Mapped r.st core ctx crew r.stamp r.lighter place (poolBytes pool ring n) →
    (∀ x y, poolBytes pool ring n x → poolBytes pool ring n y → place x = place y → x = y) →
    (pool + 64 ≤ ring ∨ ring + 8 * n ≤ pool) →
    let available := (tail + 2 ^ 32 - head) % 2 ^ 32
    let entry := ring + 8 * (tail % n)
    (n ≤ available → ∃ r1, r.putBlock core ctx pool block k = (.error (.stop .chartFormat (BitVec.ofNat 64 pool) none), r1) ∧
      r1.st.mem = r.st.mem) ∧
    (available < n → ∃ r1, r.putBlock core ctx pool block k = (.ok (), r1) ∧
      (∀ i, i < 8 → r1.st.byte (place (entry + i)) = BitVec.ofNat 8 (block / 256 ^ i)) ∧
      (∀ i, i < 4 → r1.st.byte (place (pool + 20 + i)) = BitVec.ofNat 8 ((tail + 1) / 256 ^ i)) ∧
      ∀ m, (∀ i, i < 8 → m ≠ place (entry + i)) → (∀ i, i < 4 → m ≠ place (pool + 20 + i)) → r1.st.byte m = r.st.byte m))

/-- The swap of an allocation. Won, the tile is its last block; lost, the blocks are put back; where it faults they are put back too, and what
cannot be put back for a fault is owed; a put-back that meets a full pool or a malformed one stops as that does (17 R350, R354, R355; that
the blocks are owed: log 35, DEDUCED). -/
def Sys2Proof.Claim.SwapSettles : Prop :=
  ∀ (r r1 r2 : Run) (core ctx pool : Nat) (a : Allocation),
    (r.swap core ctx a = (.ok true, r1) → r.settle core ctx pool a = (.ok (some (a.blocks.getLast?.getD 0)), r1)) ∧
    (r.swap core ctx a = (.ok false, r1) →
      (Run.putBack core ctx pool a.blocks r1 = (.ok (), r2) → r.settle core ctx pool a = (.ok none, r2)) ∧
      (∀ f owed, Run.putBack core ctx pool a.blocks r1 = (.error (.hold f, owed), r2) →
        r.settle core ctx pool a = (.error (.hold f, owed), r2))) ∧
    (∀ f, r.swap core ctx a = (.error (.hold f), r1) →
      (Run.putBack core ctx pool a.blocks r1 = (.ok (), r2) → r.settle core ctx pool a = (.error (.hold f, []), r2)) ∧
      (∀ e owed, Run.putBack core ctx pool a.blocks r1 = (.error (.hold e, owed), r2) →
        r.settle core ctx pool a = (.error (.hold f, owed), r2))) ∧
    (∀ cause addr source owed, (∃ b, r.swap core ctx a = (b, r1) ∧ (b = .ok false ∨ ∃ f, b = .error (.hold f))) →
      Run.putBack core ctx pool a.blocks r1 = (.error (.stop cause addr source, owed), r2) →
        r.settle core ctx pool a = (.error (.stop cause addr source, owed), r2))

/-- An `stc` that has taken blocks settles their swap at its next turn, and goes on, its handle and descriptor being checked no more. A lane
that has linked its tile, or found one, stores there; one that has lost walks afresh; one that has failed is logged with its fault; and the
rest walk as in an `stc` that issues. A trap of the swap ends the instruction at its lane (17 R352, R354, R355; the two turns: log 7, DESIGN
CHOICE). -/
def Sys2Proof.Claim.StoreGoesOn : Prop :=
  ∀ (s : State) (g : Gang) (d : BitVec 7) (k : BitVec 4) (a : BitVec 7) (z : BitVec 2) (x : ChartStore) (y : Allocation) (r r1 : Run),
    s.Issues g → g.alloc = some x → x.taken = some y → ChartReady s g a.toNat (accessRegs d.toNat z.toNat) →
    (z.toNat = 3 → d.toNat % 2 = 0) →
    let core := coreOf s.gang
    let p (l : Nat) : Coords := g.coords a.toNat l
    let lanes := g.active s.group
    let walkers := lanes.filter fun l => !(lanes.any fun i => decide (i < l) && p i == p l)
    let g1 (w : ChartStore) : Gang := { (s.issuing g).afterChart r core with alloc := some w }
    let s1 (w : ChartStore) : State := r.st.setGang s.gang (g1 w)
    let goesOn (w : ChartStore) : Prop :=
      let store (r : Run) (l : Nat) : LaneAnswer :=
        match w.faults.find? (fun y => y.lane == l), w.tiles.find? (fun y => y.lane == l) with
        | some ⟨_, none, _⟩, _ => (.ok .behind, r)
        | some ⟨_, some f, owed⟩, _ => (.ok (.failed f owed), r)
        | none, some y => r.elementPlace s.gang g.ctx x.chart ((s1 w).sideLogOf s.gang) y.va
        | none, none => r.storeElement s.gang g.ctx ((s1 w).isReproducible (g1 w)) x.chart (p l) ((s1 w).sideLogOf s.gang) l
            (s.isRetry || w.lost == some l)
      ∀ (found : List (Nat × StoreLane)) (r4 : Run),
        (Run.lanesTo store walkers (Run.start (s1 w) (g1 w).stamp) = (found, none, r4) →
          let outs := laneOutcomes g lanes a.toNat found
          LanesFine r4.st x.chart outs → ((s1 w).sideLogOf s.gang).length + (loggedLanes g outs).length ≤ 128 →
          ∃ t, exec (.stc d k a z) s = .next t ∧ LanesStored s t r4 g x.chart d.toNat a.toNat outs) ∧
        ∀ l b, Run.lanesTo store walkers (Run.start (s1 w) (g1 w).stamp) = (found, some (l, .begun b), r4) →
          ∃ t, exec (.stc d k a z) s = .next t ∧ t.mem = r4.st.mem ∧ StorePaused s t g w a.toNat found b
    let start := Run.start s (s.issuing g).stamp
    r.st.gang = s.gang → r.st.group = s.group →
    (∀ tile, start.settle core g.ctx x.chart.pool y = (.ok (some tile), r1) →
      r = { r1 with st := r1.st.clbForget core g.ctx x.chart.desc (tileOf (p y.lane)) } →
      goesOn { x with
        taken := none, lost := none
        tiles := x.tiles ++ [{ lane := y.lane, tile := tileOf (p y.lane), va := tile + x.chart.offset (p y.lane) }] }) ∧
    (start.settle core g.ctx x.chart.pool y = (.ok none, r) → goesOn { x with taken := none, lost := some y.lane }) ∧
    (∀ f owed, start.settle core g.ctx x.chart.pool y = (.error (.hold f, owed), r) →
      goesOn { x with taken := none, lost := none, faults := x.faults ++ [{ lane := y.lane, fault := some f, owed := owed }] }) ∧
    (∀ cause addr source owed, start.settle core g.ctx x.chart.pool y = (.error (.stop cause addr source, owed), r) →
      (∀ i ∈ lanes, y.lane ≤ i) → (r.st.sideLogOf s.gang).length ≤ 128 →
      ∃ t h sr, exec (.stc d k a z) s = .next t ∧ t.gangs.find s.gang = some h ∧ h.v = g.v ∧ h.s = g.s ∧ h.stop = some sr ∧
        sr.cause = cause ∧ sr.address = addr ∧ sr.laneMask = maskOf [y.lane] ∧ t.mem = r.st.mem)

/-- `chq` answers each active lane as its walk says, and runs in no reproducible launch (17 R353, R362). That what it reads is
captured at issue is log 8. -/
def Sys2Proof.Claim.ChartQueryResult : Prop :=
  ∀ (s : State) (g : Gang) (d : BitVec 7) (k : BitVec 4) (a : BitVec 7) (c : Chart) (r r1 : Run), s.Issues g →
    ChartOpen s g k.toNat none c r → ChartReady s g a.toNat [d.toNat, d.toNat + 1] → d.toNat % 2 = 0 →
    (r.st.isReproducible g = true → r.st.group = s.group → exec (.chq d k a) s =
      .next (r.st.trapAt (s.issuing g) .reproViolation (g.enabled s.group) (BitVec.ofNat 64 c.desc))) ∧
    (r.st.isReproducible g = false → g.active s.group = [] → exec (.chq d k a) s = .next (r.st.advance (s.issuing g) 1)) ∧
    (r.st.isReproducible g = false → g.active s.group ≠ [] → ∀ (xs : List (Nat × Nat × Option Coords)),
      Run.lanes (fun r l => r.queryElement (coreOf s.gang) g.ctx c (g.coords a.toNat l) s.isRetry) (g.active s.group) r = (.ok xs, r1) →
      ∃ t, exec (.chq d k a) s = .next t ∧ ChartAnswer s t g r1.st.mem false [d.toNat, d.toNat + 1] 0
        (xs.flatMap fun x => piecesOf false d.toNat x.1 0 8 fun i => byteOf (BitVec.ofNat 128 x.2.1) i))

/-- `chfree` of an element in range exchanges the entry of its tile with 0 and answers the block that it held; out of range, or where a link
above level 3 is empty, it answers 0 and writes nothing. `chfree.ret` puts a block back and retries the stores that found the pool short; of a
block that is no block's address the trap reports that address (log 35, DEDUCED). Neither runs in a reproducible launch (17 R356, R357,
R362). -/
def Sys2Proof.Claim.ChartFreeResult : Prop :=
  (∀ (s : State) (g : Gang) (d : BitVec 7) (k : BitVec 4) (a : BitVec 7) (place : Nat → Nat) (root : Nat), s.Issues g →
    s.Settled g [] ([d.toNat, d.toNat + 1] ++ [a.toNat, a.toNat + 1, a.toNat + 2]) → d.toNat % 2 = 0 →
    let desc := handleBase (g.kreg k.toNat)
    let bytes := (List.range 64).map fun i => s.byte (place (desc + i))
    let c := Chart.of desc bytes
    let p := g.coordsOf a.toNat
    let node (v : Nat) : Nat := nodeAt (fun a => s.read (place a) 8) root p v
    let link := entryAt (node 3) p 3
    let answers (v : Nat) (written : Nat → Prop) : Prop := ∃ t, exec (.chfree d k a) s = .next t ∧
      ChartAnswer s t g t.mem true [d.toNat, d.toNat + 1] 0 (piecesOf true d.toNat 0 0 8 fun i => byteOf (BitVec.ofNat 128 v) i) ∧
      ∀ m, (written m → t.byte m = 0) ∧ (¬written m → t.byte m = s.byte m)
    handleKind (g.kreg k.toNat) = 3 → desc % 64 = 0 → c.valid bytes = true → s.isReproducible g = false →
    Mapped s (coreOf s.gang) g.ctx g.crew (s.issuing g).stamp false place
      (fun a => (desc ≤ a ∧ a < desc + 64) ∨ (c.outside p = false ∧ linkBytes s place desc root p 4 a)) →
    (c.outside p = true → answers 0 fun _ => False) ∧
    (c.outside p = false → PathIn s place desc root p 4 →
      (∀ v, v < 3 → node v ≠ 0 → s.read (place (entryAt (node v) p v)) 8 ≠ 1) →
      (node 3 = 0 → answers 0 fun _ => False) ∧
      (node 3 ≠ 0 → answers (node 4) fun m => place link ≤ m ∧ m < place link + 8))) ∧
  (∀ (s : State) (g : Gang) (d : BitVec 7) (k : BitVec 4) (a : BitVec 7) (c : Chart) (r r1 : Run), s.Issues g →
    ChartOpen s g k.toNat none c r → r.st.group = s.group → r.st.gang = s.gang →
    (s.Settled g [] ([d.toNat, d.toNat + 1] ++ [a.toNat, a.toNat + 1, a.toNat + 2]) → d.toNat % 2 = 0 →
      r.st.isReproducible g = true → exec (.chfree d k a) s =
        .next (r.st.trapAt (s.issuing g) .reproViolation (g.enabled s.group) (BitVec.ofNat 64 c.desc))) ∧
    (s.Settled g [] [a.toNat, a.toNat + 1] → a.toNat % 2 = 0 →
      let block := (g.spair a.toNat).toNat
      (r.st.isReproducible g = true → exec (.chfreeRet k a) s =
        .next (r.st.trapAt (s.issuing g) .reproViolation (g.enabled s.group) (BitVec.ofNat 64 c.desc))) ∧
      (r.st.isReproducible g = false → ¬(block % 4096 = 0 ∧ block < 2 ^ 48) → exec (.chfreeRet k a) s =
        .next (r.st.trapAt (s.issuing g) .chartFormat (g.enabled s.group) (BitVec.ofNat 64 block))) ∧
      (r.st.isReproducible g = false → block % 4096 = 0 → block < 2 ^ 48 →
        r.putBlock (coreOf s.gang) g.ctx c.pool block .held = (.ok (), r1) →
          exec (.chfreeRet k a) s = .next (State.replay (r1.st.advance ((s.issuing g).saw r1.seen) 1)
            fun e => e.cause == .chartAlloc)))) ∧
  (∀ (s : State) (g : Gang) (k : BitVec 4) (a : BitVec 7) (place : Nat → Nat) (ring n head tail : Nat), s.Issues g →
    s.Settled g [] [a.toNat, a.toNat + 1] → a.toNat % 2 = 0 →
    let desc := handleBase (g.kreg k.toNat)
    let bytes := (List.range 64).map fun i => s.byte (place (desc + i))
    let c := Chart.of desc bytes
    let block := (g.spair a.toNat).toNat
    let entry := ring + 8 * (tail % n)
    handleKind (g.kreg k.toNat) = 3 → desc % 64 = 0 → c.valid bytes = true → s.isReproducible g = false →
    block % 4096 = 0 → block < 2 ^ 48 → PoolIn s place c.pool ring n head tail → (tail + 2 ^ 32 - head) % 2 ^ 32 < n →
    Mapped s (coreOf s.gang) g.ctx g.crew (s.issuing g).stamp false place
      (fun x => (desc ≤ x ∧ x < desc + 64) ∨ poolBytes c.pool ring n x) →
    (∀ x y, poolBytes c.pool ring n x → poolBytes c.pool ring n y → place x = place y → x = y) →
    (c.pool + 64 ≤ ring ∨ ring + 8 * n ≤ c.pool) →
      ∃ u : State, exec (.chfreeRet k a) s = .next (u.replay fun e => e.cause == .chartAlloc) ∧
        (∀ i, i < 8 → u.byte (place (entry + i)) = BitVec.ofNat 8 (block / 256 ^ i)) ∧
        (∀ i, i < 4 → u.byte (place (c.pool + 20 + i)) = BitVec.ofNat 8 ((tail + 1) / 256 ^ i)) ∧
        ∀ m, (∀ i, i < 8 → m ≠ place (entry + i)) → (∀ i, i < 4 → m ≠ place (c.pool + 20 + i)) → u.byte m = s.byte m)

/-- `clbinv` removes the entries of a chart, or of one tile of it, from the buffers of the cores in its scope, and keeps every other entry; it
then waits until the accesses of those cores that took a block through them, and were issued before it, have performed, an `stc` that stands
between two turns among them, and goes on (17 R358; that other chart stores have performed at issue: log 7). -/
def Sys2Proof.Claim.ChartInvalidateResult : Prop :=
  ∀ (s : State) (g : Gang) (k : BitVec 4) (a : BitVec 7) (scope : BitVec 3), s.Issues g →
    handleBase (g.kreg k.toNat) % 64 = 0 → handleKind (g.kreg k.toNat) = 3 →
    let desc := handleBase (g.kreg k.toNat)
    let cores := s.clbCores g scope.toNat
    let runs (i : Instr) (named : Coords → Prop) : Prop :=
      let busy (serial : Nat) : Prop := ∃ e ∈ s.gangs, e.2.ctx = g.ctx ∧ coreOf e.1 ∈ cores ∧
        ((∃ x ∈ e.2.loads, x.sectors ≠ [] ∧ x.id < serial ∧ ∃ y ∈ x.tiles, y.1 = desc ∧ named y.2) ∨
          ∃ x, e.2.alloc = some x ∧ x.id < serial ∧ x.chart.desc = desc ∧ ∃ y ∈ x.tiles, named y.tile)
      ((∀ group n, g.wait ≠ .cleared group n) → ∃ u : State, { u with cores := s.cores } = s ∧
        (∀ n x, s.cores.find n = some x → ∃ y, u.cores.find n = some y ∧ { y with clb := x.clb } = x ∧
          (n ∉ cores → y = x) ∧ (n ∈ cores → ∀ z, z ∈ y.clb ↔ z ∈ x.clb ∧ ¬(z.ctx = g.ctx ∧ z.desc = desc ∧ named (z.tx, z.ty, z.tz)))) ∧
        (busy s.serial → exec i s =
          .next { u.setGang s.gang { s.issuing g with wait := .cleared s.group s.serial } with idle := true }) ∧
        (¬busy s.serial → exec i s = .next (u.advance (s.issuing g) 1))) ∧
      (∀ group n, g.wait = .cleared group n →
        (busy n → exec i s = .next { s.setGang s.gang { s.issuing g with wait := .cleared s.group n } with idle := true }) ∧
        (¬busy n → exec i s = .next (s.advance (s.issuing g) 1)))
    runs (.clbinv k scope) (fun _ => True) ∧
    (s.Settled g [] [a.toNat, a.toNat + 1, a.toNat + 2] →
      runs (.clbinvTile k a scope) fun t => t = tileOf (g.coordsOf a.toNat))

/-- The offset of an element lies in its tile, and different elements of one tile lie apart (17 R348). -/
def Sys2Proof.Claim.TileOffsetsAreDistinct : Prop :=
  ∀ (c : Chart) (p q : Coords), 0 < c.e → tileOf p = tileOf q → p ≠ q →
    c.offset p + c.e ≤ 512 * c.e ∧ (c.offset p + c.e ≤ c.offset q ∨ c.offset q + c.e ≤ c.offset p)

namespace Sys2Proof.Claim
open Sys2Proof.Machine

/-! ### Lane refill (12) -/

/-- The manifest that `mfst` asks for (12 R271). -/
def askedManifest (g : Gang) (a : Nat) : Manifest where
  first := g.sreg a
  count := g.sreg (a + 1)
  stride := g.sreg (a + 2)
  next := 0
  tidemark := 0
  retired := []
  drew := none

/-- A step of the gang's refill mode is over and the gang may go on, so that its check comes about: no slice runs, after a retire step its
logged stores have been replayed, and if it draws, then no gang of its crew with a lower index draws in this clock and none with a higher
one has drawn in it (12 R275, R277, R278; 03 R81). -/
structure AtCheck (s : State) (g : Gang) (crew : Crew) (m : Manifest) (r : Refill) : Prop where
  resident : s.gangs.find s.subject.who = some g
  hasCrew : s.crews.find g.crew = some crew
  hasManifest : crew.manifest = some m
  inRefill : g.refill = some r
  still : ∀ sl ∈ g.slices, sl.status ≠ .running
  runs : g.stop = none ∧ ∃ c, s.contexts.find g.ctx = some c ∧ c.mayIssue = true
  replayed : r.step = .retire → s.hasLogged s.subject.who = false
  first : s.drawsLater s.subject.who g = false

/-- The slices that hold some of the lanes start at an address with these lanes, in one group, and the others take no part; one that stands
where the step ends has done its part (12 R275, R277). -/
def StepStarts (g h : Gang) (entry : DWord) (stop : Option DWord) (lanes : List Nat) : Prop :=
  ∃ group, ∀ (j : Nat) (sl : Slice), g.slices[j]? = some sl → ∃ sl', h.slices[j]? = some sl' ∧
    let m : BitVec 4 := sliceMask lanes j
    (m = 0 ∨ stop = some entry → sl'.status = .finished) ∧
    (m ≠ 0 → stop ≠ some entry → sl'.status = .running ∧ sl'.pc = entry ∧ sl'.group = group ∧ sl'.parked = false ∧
      sl'.yielded = none ∧ sl'.stack = [{ mask := m, kind := .running, addr := 0 }])

/-- How many of `n` lanes draw ages: while there are any, and none is above the tidemark by more than 1,024 (12 R277, R283). -/
def drawCount (m : Manifest) (n : Nat) : Nat := min n (min (m.count.toNat - m.next) (m.tidemark + 1025 - m.next))

/-- The listed lanes, fresh, have drawn from manifest `m`: the first of them hold the next ages and work, the others are idle where the ages
are exhausted and else stay fresh, and the prologue step starts where any has drawn (12 R277, R278). `states` and `ages` are those of the
lanes as the draw finds them. -/
def Drawn (s t : State) (g : Gang) (crew : Crew) (m : Manifest) (lanes : List Nat) (states : List LaneState) (ages : List Word) : Prop :=
  let k := drawCount m lanes.length
  ∃ h r, t.gangs.find s.subject.who = some h ∧ h.refill = some r ∧ h.v = g.v ∧ h.s = g.s ∧ t.mem = s.mem ∧
    t.crews.find g.crew = some { crew with manifest := some { m with next := m.next + k, drew := some (s.clock, g.index) } } ∧
    (∀ l x, states[l]? = some x → r.lanes[l]? = some
      (if l ∈ lanes.take k then .working else if l ∈ lanes ∧ m.count.toNat ≤ m.next + k then .idle else x)) ∧
    (∀ i l, (lanes.take k)[i]? = some l → l < ages.length → h.ages[l]? = some (BitVec.ofNat 32 (m.next + i))) ∧
    (∀ l, l ∉ lanes.take k → h.ages[l]? = ages[l]?) ∧
    (k = 0 → r.step = .check ∧ ∀ sl ∈ h.slices, sl.status ≠ .running) ∧
    (k ≠ 0 → r.step = .prologue ∧ StepStarts g h crew.record.prologue (some crew.record.body) (lanes.take k))

end Sys2Proof.Claim

open Sys2Proof Sys2Proof.Machine Sys2Proof.Claim

/-- `mfst` installs a manifest where none is in use, lets the same one be named again, and is MANIFEST_FAULT for another one in use, and
in refill mode (12 R271, R272, R280). -/
def Sys2Proof.Claim.ManifestResult : Prop :=
  ∀ (s : State) (g : Gang) (crew : Crew) (a : BitVec 7), s.Issues g → s.crews.find g.crew = some crew →
    s.Settled g [] [a.toNat, a.toNat + 1, a.toNat + 2] →
    let asked := askedManifest g a.toNat
    (g.refill = none → s.manifestFree crew = true →
      exec (.mfst a) s = .next (State.advance (s.setCrew g.crew { crew with manifest := some asked }) (s.issuing g) 1)) ∧
    (g.refill = none → s.manifestFree crew = false → ∀ old, crew.manifest = some old →
      (old.first = asked.first → old.count = asked.count → old.stride = asked.stride →
        exec (.mfst a) s = .next (s.advance (s.issuing g) 1)) ∧
      (¬(old.first = asked.first ∧ old.count = asked.count ∧ old.stride = asked.stride) →
        exec (.mfst a) s = .next (s.trapAt (s.issuing g) .manifestFault (g.enabled s.group) 0))) ∧
    (g.refill ≠ none → exec (.mfst a) s = .next (s.trapAt (s.issuing g) .manifestFault (g.enabled s.group) 0))

/-- `berth` enters refill mode with the active lanes fresh and the slices saved for the drain, each at the next word, which needs a manifest
in use, a refill launch and a gang that has not parted; in refill mode the active lanes berth, or in a retire step leave it, and a slice that
has no lane left has done its part of the step (12 R273-R275). -/
def Sys2Proof.Claim.BerthResult : Prop :=
  ∀ (s : State) (g : Gang) (crew : Crew), s.Issues g → s.crews.find g.crew = some crew →
    (g.refill = none → crew.record.refill = true → s.manifestFree crew = false → g.parted = false →
      ∃ t h r, exec .berth s = .next t ∧ t.gangs.find s.gang = some h ∧ h.refill = some r ∧ r.step = .check ∧
        (∀ l < g.width, r.lanes[l]? = some (if l ∈ g.active s.group then LaneState.fresh else .outside)) ∧
        r.saved = g.slices.map (fun sl => if sl.live then { sl with pc := g.pc s.group + 4 } else sl) ∧
        h.v = g.v ∧ h.s = g.s ∧ h.ages = g.ages ∧ t.mem = s.mem) ∧
    (g.refill = none → (crew.record.refill = false ∨ s.manifestFree crew = true ∨ g.parted = true) →
      exec .berth s = .next (s.trapAt (s.issuing g) .manifestFault (g.enabled s.group) 0)) ∧
    (∀ r, g.refill = some r → ∃ t h r', exec .berth s = .next t ∧ t.gangs.find s.gang = some h ∧
      h.refill = some r' ∧ r'.step = r.step ∧ r'.saved = r.saved ∧ h.v = g.v ∧ h.s = g.s ∧ h.ages = g.ages ∧ t.mem = s.mem ∧
      (∀ l x, r.lanes[l]? = some x →
        r'.lanes[l]? = some (if r.step ≠ .retire ∧ l ∈ g.active s.group then LaneState.berthed else x)) ∧
      ((∀ sl ∈ g.slices, sl.parked = false) → ∀ (j : Nat) (sl : Slice) (e : MaskEntry), g.slices[j]? = some sl →
        sl.issues s.group = true → sl.stack = [e] → ∃ sl', h.slices[j]? = some sl' ∧
          let left := e.mask &&& ~~~(sliceMask (g.active s.group) j : BitVec 4)
          (e.mask ≠ 0 → left = 0 → sl'.status = .finished) ∧
          (left ≠ 0 → s.stepEnd g ≠ some (sl.pc + 4) →
            sl'.status = .running ∧ sl'.pc = sl.pc + 4 ∧ sl'.stack = [{ e with mask := left }])))

/-- The check. It drains when no lane berths, works or waits for the window: each slice resumes as saved, and no lane keeps an age. It waits
while fresh lanes alone are left and the window is closed. With lanes enough to refill, or none working, an episode begins: with the
retire step of the berthed lanes, or where there are none with the draw; else a body pass of the working lanes (12 R277, R279, R283). -/
def Sys2Proof.Claim.RefillCheckResult : Prop :=
  ∀ (s : State) (g : Gang) (crew : Crew) (m : Manifest) (r : Refill), AtCheck s g crew m r → r.step ≠ .retire →
    let berthed := r.inState .berthed
    let fresh := r.inState .fresh
    let working := r.inState .working
    let closed : Prop := m.next < m.count.toNat ∧ m.tidemark + 1024 < m.next
    let steps (step : RefillStep) (f : Gang → Prop) : Prop := ∃ t h r', exec .refillCheck s = .next t ∧
      t.gangs.find s.subject.who = some h ∧ h.refill = some r' ∧ r'.step = step ∧ r'.lanes = r.lanes ∧ r'.saved = r.saved ∧
      h.ages = g.ages ∧ h.v = g.v ∧ t.mem = s.mem ∧ t.crews = s.crews ∧ f h
    (berthed = [] → working = [] → fresh = [] →
      ∃ t h, exec .refillCheck s = .next t ∧ t.gangs.find s.subject.who = some h ∧ h.refill = none ∧ h.slices = r.saved ∧
        (∀ x ∈ h.ages, x = 0xFFFFFFFF) ∧ h.v = g.v ∧ t.mem = s.mem ∧ t.crews = s.crews) ∧
    (berthed = [] → working = [] → fresh ≠ [] → closed → steps .check fun h => h.slices = g.slices) ∧
    (∀ b, (closed → b = berthed.length) → (¬closed → b = berthed.length + fresh.length) → b ≠ 0 ∨ working ≠ [] →
      (crew.record.threshold ≤ b ∨ working = [] → berthed ≠ [] →
        steps .retire fun h => StepStarts g h crew.record.retire none berthed) ∧
      (crew.record.threshold ≤ b ∨ working = [] → berthed = [] →
        ∃ t, exec .refillCheck s = .next t ∧ Drawn s t g crew m fresh r.lanes g.ages) ∧
      (b < crew.record.threshold → working ≠ [] →
        steps .bodyPass fun h => StepStarts g h crew.record.body (some crew.record.retire) working))

/-- The end of a retire step: the gang's accesses are released, the ages of the berthed lanes retire, these lanes become fresh, and the draw
of the episode follows (12 R277, R278, R282). -/
def Sys2Proof.Claim.RetireStepEnds : Prop :=
  ∀ (s : State) (g : Gang) (crew : Crew) (m : Manifest) (r : Refill), AtCheck s g crew m r → r.step = .retire →
    let berthed := r.inState .berthed
    ∃ t, exec .refillCheck s = .next t ∧ t.dies = (s.release (coreOf s.subject.who)).dies ∧
      Drawn s t g crew (m.retire (berthed.map fun l => (g.ages.getD l 0xFFFFFFFF).toNat))
        ((List.range r.lanes.length).filter fun l => r.lanes[l]? == some .fresh || r.lanes[l]? == some .berthed)
        (r.lanes.map fun x => if x = .berthed then .fresh else x)
        (g.ages.mapIdx fun l x => if l ∈ berthed then 0xFFFFFFFF else x)

/-- The draw gives the fresh lanes, in rising order, the next ages while there are any and the window is open; of the others those that find
the ages exhausted are idle, and those that find the window closed keep their state (12 R277, R283). -/
def Sys2Proof.Claim.DrawAssignsAges : Prop :=
  ∀ (m : Manifest) (lanes : List Nat),
    let k := drawCount m lanes.length
    m.draw lanes = ({ m with next := m.next + k }, (lanes.take k).zip ((List.range k).map (m.next + ·)),
      if m.count.toNat ≤ m.next + k then lanes.drop k else [])

/-- Retiring keeps the tidemark the smallest age that has not retired: it never falls, passes exactly the retired ages that follow it, and
those above it are kept (12 R282). -/
def Sys2Proof.Claim.TidemarkNeverFalls : Prop :=
  ∀ (m : Manifest) (ages : List Nat), (∀ a, a ∈ m.retired ∨ a ∈ ages → m.tidemark ≤ a) → m.retired.Pairwise (· < ·) →
    let n := m.retire ages
    m.tidemark ≤ n.tidemark ∧ n.tidemark ∉ m.retired ∧ n.tidemark ∉ ages ∧
    (∀ a, m.tidemark ≤ a → a < n.tidemark → a ∈ m.retired ∨ a ∈ ages) ∧
    (∀ a, a ∈ n.retired ↔ (a ∈ m.retired ∨ a ∈ ages) ∧ n.tidemark < a) ∧ n.retired.Pairwise (· < ·) ∧
    { n with tidemark := m.tidemark, retired := m.retired } = m

/-- `tide.wait` goes on, as an acquire of the crew's tidemark, once the tidemark passes every target; `tide.age` gives each active lane its age
and its item, `tide.mark` the tidemark (12 R281; 05 R129). That the acquire merges what the gang's own die has applied, as if that die served
the tidemark, is the model's reading (log 28, DEDUCED). -/
def Sys2Proof.Claim.TideResult : Prop :=
  ∀ (s : State) (g : Gang) (crew : Crew) (a d : BitVec 7), s.Issues g → s.crews.find g.crew = some crew →
    let passed := s.advance ((s.issuing g).merge (s.applied (dieOf (coreOf s.gang)))) 1
    (s.Settled g [] [a.toNat] →
      (crew.tidePasses (g.sreg a.toNat) = true → exec (.tideWait true a) s = .next passed) ∧
      (crew.tidePasses (g.sreg a.toNat) = false → exec (.tideWait true a) s = s.waiting)) ∧
    (s.Settled g [a.toNat] [] →
      ((∀ l ∈ g.active s.group, crew.tidePasses (g.vreg a.toNat l) = true) → exec (.tideWait false a) s = .next passed) ∧
      ((∃ l ∈ g.active s.group, crew.tidePasses (g.vreg a.toNat l) = false) → exec (.tideWait false a) s = s.waiting)) ∧
    (∀ x : Word, crew.tidePasses x = true ↔ ∀ m, crew.manifest = some m → x.toNat < m.tidemark ∨ m.tidemark = m.count.toNat) ∧
    (d.toNat % 2 = 0 → s.Settled g [d.toNat, d.toNat + 1] [] → ∀ m, crew.manifest = some m →
      exec (.tideAge d) s = .next (s.advance ((s.issuing g).setVpair d.toNat (g.active s.group) fun l =>
        let age := g.ages.getD l 0xFFFFFFFF
        pairOf age (if age = 0xFFFFFFFF then 0 else m.first + m.stride * age)) 1)) ∧
    (s.Settled g [] [d.toNat] → ∀ m, crew.manifest = some m →
      exec (.tideMark d) s = .next (scalarDone s g d.toNat (BitVec.ofNat 32 m.tidemark)))

namespace Sys2Proof.Claim
open Sys2Proof.Machine

/-! ### Context instructions (16) -/

/-- The acting hart may execute context instructions, and register x`r` names a context `c`, strictly below the caller (16 R316,
R335). -/
structure Names (s : State) (r : BitVec 5) (c : Context) : Prop where
  acts : s.HartActs
  named : s.contexts.find ((s.hartAt s.hart).reg r).toNat = some c
  below : s.below ((s.hartAt s.hart).reg r).toNat (s.callerOf s.hart) = true

/-- Register x`r` holds the 8-byte-aligned address of a block whose bytes the caller can read (16 R335). -/
def BlockAt (s : State) (r : BitVec 5) (words : Nat) (bytes : List Byte) : Prop :=
  ((s.hartAt s.hart).reg r).toNat % 8 = 0 ∧
    s.blockBytes (s.callerOf s.hart) words ((s.hartAt s.hart).reg r).toNat = .ok bytes

/-- No queue and no logged store waits for the device. -/
def Quiet (s : State) : Prop :=
  s.rung = [] ∧ s.queueWrites = [] ∧ s.slots = [] ∧ s.service = [] ∧ s.joining = [] ∧ ∀ e ∈ s.cores, e.2.sideLog = []

/-- No context has a fault ring, so that a record waits (16 R334). -/
def NoRing (s : State) : Prop := ∀ e ∈ s.contexts, e.2.ringEntries = 0

/-- No TLB of a core, a die or a port holds an entry that a test selects, and no coordinate look-aside buffer one that another test
selects (16 R325, R327). -/
def NoTranslation (t : State) (p : TlbEntry → Prop) (q : ClbEntry → Prop) : Prop :=
  (∀ c ∈ t.cores, (∀ e ∈ c.2.tlb, ¬p e) ∧ ∀ e ∈ c.2.clb, ¬q e) ∧ (∀ d ∈ t.dies, ∀ e ∈ d.tlb, ¬p e) ∧
    ∀ x ∈ t.portTlbs, ∀ e ∈ x.2, ¬p e

/-- A chain of grant entries, each the first of `span` frames, passes through one of frames `lo` to `lo + n - 1` of a context. -/
def throughFrames (ctx lo n span : Nat) (chain : List (Nat × Nat)) : Prop :=
  ∃ l ∈ chain, l.1 = ctx ∧ ∃ k < span, lo ≤ l.2 + k ∧ l.2 + k < lo + n

/-- No translation of any context passes through frames `lo` to `lo + n - 1` of a context: neither a composed entry, which passes through
every frame of its own size, nor that of one tile. -/
def FramesShotDown (t : State) (ctx lo n : Nat) : Prop :=
  NoTranslation t (fun e => throughFrames ctx lo n (2 ^ (e.log2 - 21)) e.chain) fun e => throughFrames ctx lo n 1 e.chain

/-- The crews of a saved core can stand on a core beside what is there: it is enabled, eight crews at most, 1,024 granules at
most, and one mooring code with 1,024 entries at most (19 R390; 13 R302; 03 R90). -/
structure CoreTakes (s : State) (core : Nat) (crews : List Crew) : Prop where
  enabled : core ∉ s.disabledCores
  slots : (s.crewsOn core ++ crews).length ≤ 8
  granules : ((s.crewsOn core ++ crews).map fun c => c.record.granules).sum ≤ 1024
  codes : ∀ c ∈ s.crewsOn core ++ crews, ∀ y ∈ s.crewsOn core ++ crews, c.record.mooringCode ≠ 0 → y.record.mooringCode ≠ 0 →
    c.record.mooringCode = y.record.mooringCode
  entries : (((s.crewsOn core ++ crews).filter fun c => c.record.mooringCode != 0).map fun c => c.record.mooringEntries).sum ≤ 1024

/-- A saved bank holds what a new context's does not: an accumulator element with a bit set, a held accumulator, a latched row, or an offered
send (19 R390). -/
def BankInUse (b : Bank) : Prop :=
  b.acc ≠ [] ∨ (∃ e ∈ b.holds, e.2 ≠ 0) ∨ (∃ e ∈ b.latches, ∃ row ∈ e.2, ∃ w ∈ row, w ≠ none) ∨ b.offers ≠ []

/-- The lowest free crew slot of a core. -/
def FreeSlot (s : State) (core i : Nat) : Prop :=
  i < 8 ∧ s.crews.find (core * 8 + i) = none ∧ ∀ j < i, (s.crews.find (core * 8 + j)).isSome = true

/-- A grant entry of frame `k` outside a changed block of `2^size` frames at `a`: as it stands, but for the run of an entry whose own block
the change breaks, which becomes that of the largest aligned block around `k` that does not meet the changed one (16 R324). -/
def keptEntry (k a size : Nat) (e : DWord) : DWord :=
  let run := (e.extractLsb 20 16).toNat
  if size < run ∧ k / 2 ^ run = a / 2 ^ run then (e &&& ~~~(0x1F0000 : DWord)) ||| BitVec.ofNat 64 (survivingRun k a run * 65536) else e

/-- The context's halt line is raised: it is in the forced step of a halt (19 R367, R379). -/
def LineRaised (t : State) (n : Nat) : Prop :=
  ∃ c h, t.contexts.find n = some c ∧ c.state = .halting ∧ c.halt = some h ∧ h.forced = true

/-- The context instructions that name a context strictly below the caller, in x`c`. -/
def namingRows (x c d : BitVec 5) : List Instr :=
  [.ctxGrant x c d, .ctxRevoke x c d, .ctxRevokeCold x c d, .ctxGo c d, .ctxHaltQuery x c d, .ctxHaltSoft x c d,
   .ctxHaltForced x c d, .ctxBudget x c d, .ctxScope x c d]

/-- All context instructions. -/
def contextRows (x c d : BitVec 5) : List Instr :=
  namingRows x c d ++ [.ctxNew x c d, .ctxNewRoot x c d, .tlbinvVirtual x c, .tlbinvFrames x c, .tlbfence]

/-- A block's fields of 1, 4 and 8 bytes as R338 lays them out. -/
def grantBlock (kind size perm a b : Nat) (bytes : List Byte) : Prop :=
  bytes.length = 32 ∧ fieldAt bytes 0 1 = kind ∧ fieldAt bytes 1 1 = size ∧ fieldAt bytes 2 1 = perm ∧ fieldAt bytes 3 1 = 0 ∧
    fieldAt bytes 4 4 = a ∧ fieldAt bytes 8 8 = b ∧ numberOf (bytes.drop 16) = 0

end Sys2Proof.Claim

open Sys2Proof Sys2Proof.Machine Sys2Proof.Claim

/-- In U-mode and VU-mode every context instruction raises the illegal-instruction exception: the pc, the cause and the mode are saved,
the hart goes on in M-mode at the trap vector, and nothing else changes. That the entry is the RISC-V standard's is log 4 (16 R335). -/
def Sys2Proof.Claim.ContextInstructionIllegal : Prop :=
  ∀ (s : State) (x c d : BitVec 5), ∀ i ∈ contextRows x c d, s.hart < 16 → (s.hartAt s.hart).fencing = none →
    ((s.hartAt s.hart).mode = .user ∨ (s.hartAt s.hart).mode = .virtualUser) →
      let h := s.hartAt s.hart
      ∃ h', exec i s = .next (s.setHart s.hart h') ∧ h'.mepc = h.pc ∧ h'.mcause = 2 ∧ h'.mtval = 0 ∧ h'.mode = .machine ∧
        h'.pc = h.mtvec - BitVec.ofNat 64 (h.mtvec.toNat % 4) ∧ h'.x = h.x ∧ h'.mtvec = h.mtvec ∧ h'.unfenced = h.unfenced ∧
        h'.mstatus.getLsbD 3 = false ∧ h'.mstatus.getLsbD 7 = h.mstatus.getLsbD 3 ∧ h'.mstatus.extractLsb 12 11 = 0#2 ∧
        h'.mstatus.getLsbD 39 = decide (h.mode = .virtualUser)

/-- A context instruction that names no context, or one not strictly below the caller, gives −1 and changes nothing else (16
R335); that this check comes before those of what concerns the context is log 26. -/
def Sys2Proof.Claim.NotBelowStatus : Prop :=
  ∀ (s : State) (x c d : BitVec 5), s.HartActs →
    (s.contexts.find ((s.hartAt s.hart).reg c).toNat = none ∨
      s.below ((s.hartAt s.hart).reg c).toNat (s.callerOf s.hart) = false) →
    ∀ i ∈ namingRows x c d, exec i s = .next (s.answer d 0xFFFFFFFFFFFFFFFF)

/-- An answer to a hart writes rd, unless it is x0, and moves the pc to the next word; no other state changes (16 R335). -/
def Sys2Proof.Claim.AnswerFrame : Prop :=
  ∀ (s : State) (d : BitVec 5) (v : DWord), let t := s.answer d v
    { t with harts := s.harts } = s ∧ (∀ n, n ≠ s.hart → t.harts.find n = s.harts.find n) ∧
    (t.hartAt s.hart).pc = (s.hartAt s.hart).pc + 4 ∧
    (∀ r : BitVec 5, (t.hartAt s.hart).reg r = if r = d ∧ r ≠ 0 then v else (s.hartAt s.hart).reg r) ∧
    (t.hartAt s.hart).mode = (s.hartAt s.hart).mode ∧ (t.hartAt s.hart).mstatus = (s.hartAt s.hart).mstatus ∧
    (t.hartAt s.hart).mepc = (s.hartAt s.hart).mepc ∧ (t.hartAt s.hart).mcause = (s.hartAt s.hart).mcause ∧
    (t.hartAt s.hart).mtvec = (s.hartAt s.hart).mtvec

/-- `ctx.scope` sets the child's scope-policy register where the parent holds every bit; a bit the parent lacks is NOT_HELD, and a value
beyond two bits MALFORMED (16 R339). -/
def Sys2Proof.Claim.ScopeResult : Prop :=
  ∀ (s : State) (x c d : BitVec 5) (child parent : Context), Names s c child → s.contexts.find child.parent = some parent →
    let n := ((s.hartAt s.hart).reg c).toNat
    let v := (s.hartAt s.hart).reg x
    (v.toNat < 4 → (∀ i < 2, v.getLsbD i = true → parent.scope.getLsbD i = true) →
      exec (.ctxScope x c d) s = .next ((s.setContext n { child with scope := v.setWidth 2 }).answer d 0)) ∧
    (v.toNat < 4 → (∃ i < 2, v.getLsbD i = true ∧ parent.scope.getLsbD i = false) →
      exec (.ctxScope x c d) s = .next (s.answer d 0xFFFFFFFFFFFFFFFD)) ∧
    (4 ≤ v.toNat → exec (.ctxScope x c d) s = .next (s.answer d 0xFFFFFFFFFFFFFFFC))

/-- `ctx.new` makes a child, in state created and holding no resource, under the lowest free number, with the block's root, size set, frame
count, queues and ring; STATE before the root is configured, LIMIT below depth 4 (16 R314, R336, R337). -/
def Obligations.CreateContextResult : Prop :=
  (∀ (s : State) (p b d : BitVec 5) (parent root : Context) (bytes : List Byte) (n : Nat), s.HartActs →
    let x := (s.hartAt s.hart).reg p
    x ≠ 0xFFFFFFFFFFFFFFFF → s.contexts.find x.toNat = some parent →
    (x.toNat = s.callerOf s.hart ∨ s.below x.toNat (s.callerOf s.hart) = true) → BlockAt s b 8 bytes →
    s.contexts.find 0 = some root → s.going x.toNat = false → creationValid bytes = true →
    (root.configured = false → exec (.ctxNew p b d) s = .next (s.answer d 0xFFFFFFFFFFFFFFFE)) ∧
    (root.configured = true → 4 ≤ parent.depth → n < 4096 → s.contexts.find n = none →
      exec (.ctxNew p b d) s = .next (s.answer d 0xFFFFFFFFFFFFFFFB)) ∧
    (root.configured = true → parent.depth < 4 → n < 4096 → s.contexts.find n = none →
      (∀ m < n, (s.contexts.find m).isSome = true) →
      s.regionUsed + 8 * fieldAt bytes 0x18 4 + 0x10000 ≤ Config.grantRegionSize →
      ∃ c, exec (.ctxNew p b d) s = .next ((s.setContext n c).answer d (BitVec.ofNat 64 n)) ∧ c.parent = x.toNat ∧
        c.depth = parent.depth + 1 ∧ c.state = .created ∧ c.createdAt = s.clock ∧ c.root = fieldAt bytes 0 8 ∧
        c.sizes = (List.range 16).map (fun i => fieldAt bytes (8 + i) 1) ∧ c.frames = fieldAt bytes 0x18 4 ∧
        c.queues = fieldAt bytes 0x1C 4 ∧ c.queueTable = fieldAt bytes 0x20 8 ∧ c.ringAddr = fieldAt bytes 0x28 8 ∧
        c.ringEntries = fieldAt bytes 0x30 4 ∧ c.grants = [] ∧ c.cores = [] ∧ c.gpCores = [] ∧ c.ports = [] ∧
        c.namespaces = [] ∧ c.doorbell = none ∧ c.scope = 0 ∧ c.budget.carved = false)) ∧
  (∀ (s : State) (p b d : BitVec 5) (root : Context) (bytes : List Byte), s.HartActs →
    (s.hartAt s.hart).reg p = 0xFFFFFFFFFFFFFFFF → s.contexts.find 0 = some root →
    ((s.hartAt s.hart).mode = .machine → BlockAt s b 8 bytes → root.configured = true →
      exec (.ctxNewRoot p b d) s = .next (s.answer d 0xFFFFFFFFFFFFFFFE)) ∧
    ((s.hartAt s.hart).mode = .machine → BlockAt s b 8 bytes → root.configured = false → fieldAt bytes 0 8 = 0 →
      numberOf ((bytes.drop 8).take 16) = 0 → fieldAt bytes 0x18 4 = 0 → fieldAt bytes 0x30 4 ≠ 0 →
      numberOf (bytes.drop 0x34) = 0 →
      structuresValid (fieldAt bytes 0x1C 4) (fieldAt bytes 0x20 8) (fieldAt bytes 0x28 8) (fieldAt bytes 0x30 4) = true →
      machineRange (fieldAt bytes 0x20 8) (64 * fieldAt bytes 0x1C 4) = true →
      machineRange (fieldAt bytes 0x28 8) (64 + 32 * fieldAt bytes 0x30 4) = true →
        exec (.ctxNewRoot p b d) s = .next ((s.setContext 0
          { root with configured := true, queues := fieldAt bytes 0x1C 4, queueTable := fieldAt bytes 0x20 8,
                      ringAddr := fieldAt bytes 0x28 8, ringEntries := fieldAt bytes 0x30 4 }).answer d 0)) ∧
    ((s.hartAt s.hart).mode ≠ .machine → exec (.ctxNewRoot p b d) s = s.illegal))

/-- A memory grant writes the entry of each frame of the block: it maps, with the permissions, to the parent's frame; every entry outside
the block stays, a block that the change breaks taking a smaller run; what stood in the block is shot down. A frame that the parent does
not hold with the permissions is NOT_HELD. Cores are appended in order; general-purpose cores, ports and namespaces move; a partition of depth 1 has
at most one port; the doorbell page is set (01 R8; 16 R323, R324, R338). -/
def Obligations.GrantResult : Prop :=
  ∀ (s : State) (x c d : BitVec 5) (child parent : Context) (bytes : List Byte), Names s c child →
    s.contexts.find child.parent = some parent → child.parent ≠ ((s.hartAt s.hart).reg c).toNat → BlockAt s x 4 bytes →
    s.revocationUnderWay ((s.hartAt s.hart).reg c).toNat child = false → Quiet s →
    let n := ((s.hartAt s.hart).reg c).toNat
    (∀ size perm a b, grantBlock 0 size perm a b bytes → size ≤ 16 → perm < 8 → a % 2 ^ size = 0 →
      a + 2 ^ size ≤ child.frames → b % 2 ^ (21 + size) = 0 → b < 2 ^ 48 →
      ((child.parent = 0 → machineRange b (2 ^ (21 + size)) = true) →
        (child.parent ≠ 0 → ∀ i < 2 ^ size, b / 0x200000 + i < parent.frames ∧
          (parent.grants.get (b / 0x200000 + i)).getLsbD 0 = true ∧
          ∀ k < 3, perm.testBit k = true → (parent.grants.get (b / 0x200000 + i)).getLsbD (k + 1) = true) →
        (∀ i < 2 ^ size, ∀ m, s.machineOf child.parent (b + 0x200000 * i) = some m → s.scrubbing m = false) →
        let replaced := child.grantedIn a size ≠ []
        ∃ t g, exec (.ctxGrant x c d) s = .next t ∧ t.contexts.find n = some g ∧ { g with grants := child.grants } = child ∧
          (∀ i < 2 ^ size, g.grants.get (a + i) = BitVec.ofNat 64 (b + 0x200000 * i + 65536 * size + 2 * perm + 1)) ∧
          (∀ k, (k < a ∨ a + 2 ^ size ≤ k) → g.grants.get k = keptEntry k a size (child.grants.get k)) ∧
          (replaced → FramesShotDown t n a (2 ^ size) ∧ t.harts = (s.noteInvalidation.answer d 0).harts) ∧
          (¬replaced → t.harts = (s.answer d 0).harts) ∧ t.mem = s.mem) ∧
      (child.parent ≠ 0 → (∃ i < 2 ^ size, parent.frames ≤ b / 0x200000 + i ∨
          (parent.grants.get (b / 0x200000 + i)).getLsbD 0 = false ∨
          ∃ k < 3, perm.testBit k = true ∧ (parent.grants.get (b / 0x200000 + i)).getLsbD (k + 1) = false) →
        exec (.ctxGrant x c d) s = .next (s.answer d 0xFFFFFFFFFFFFFFFD))) ∧
    (∀ a b, grantBlock 1 0 0 a b bytes → 1 ≤ b → b ≤ 192 → a + b ≤ parent.cores.length →
      (∀ k ∈ (parent.cores.drop a).take b, k ∉ child.cores) →
      (s.upward Context.cold child.parent = true ∨ child.cold = true ∨
        s.regionUsed + 0x1000000 * b ≤ Config.grantRegionSize) →
      ∃ t g, exec (.ctxGrant x c d) s = .next t ∧ t.contexts.find n = some g ∧
        g.cores = child.cores ++ (parent.cores.drop a).take b ∧ t.harts = (s.answer d 0).harts) ∧
    (∀ a, grantBlock 2 0 0 a 0 bytes → a < 65536 → (∀ k < 16, a.testBit k = true → k ∈ parent.gpCores) →
      ∃ t g p, exec (.ctxGrant x c d) s = .next t ∧ t.contexts.find n = some g ∧ t.contexts.find child.parent = some p ∧
        (∀ k < 16, k ∈ g.gpCores ↔ k ∈ child.gpCores ∨ a.testBit k = true) ∧
        (∀ k < 16, k ∈ p.gpCores ↔ k ∈ parent.gpCores ∧ a.testBit k = false) ∧ t.harts = (s.answer d 0).harts) ∧
    (∀ a, grantBlock 3 0 0 a 0 bytes → a < 8 → a ∈ parent.ports →
      let taken := ∃ m y, m ∈ s.subtree n ∧ s.contexts.find m = some y ∧ y.ports ≠ []
      ((child.depth ≠ 1 ∨ ¬taken) →
        ∃ t g p, exec (.ctxGrant x c d) s = .next t ∧ t.contexts.find n = some g ∧ t.contexts.find child.parent = some p ∧
          (∀ k < 8, k ∈ g.ports ↔ k ∈ child.ports ∨ k = a) ∧ p.ports = parent.ports.filter (fun k => k != a) ∧
          t.harts = (s.answer d 0).harts) ∧
      (child.depth = 1 → taken → exec (.ctxGrant x c d) s = .next (s.answer d 0xFFFFFFFFFFFFFFFB))) ∧
    (∀ a b, grantBlock 4 0 0 a b bytes → a < 4 → b < 2 ^ 32 → s.holdsNamespace child.parent (a, b) = true →
      ∃ t g p, exec (.ctxGrant x c d) s = .next t ∧ t.contexts.find n = some g ∧ t.contexts.find child.parent = some p ∧
        g.namespaces = child.namespaces ++ [(a, b)] ∧ p.namespaces = parent.namespaces.filter (fun y => y != (a, b)) ∧
        t.harts = (s.answer d 0).harts) ∧
    (∀ b, grantBlock 5 0 0 0 b bytes → b % 4096 = 0 → b / 0x200000 < child.frames →
      (child.grants.get (b / 0x200000)).getLsbD 0 = false → child.doorbell = none →
      ∃ t g, exec (.ctxGrant x c d) s = .next t ∧ t.contexts.find n = some g ∧ g = { child with doorbell := some b } ∧
        t.harts = (s.answer d 0).harts)

/-- `ctx.revoke` of memory invalidates the granted entries of the block at once and shoots down every translation through them; a block in
which nothing is granted is NOT_HELD. Of cores it forces the context's halt; of general-purpose cores, a port or a namespace that of every
context below it that holds one, and where nobody does it is NOT_HELD; a doorbell is taken at once. The whole context enters state
revoking with its halt line and that of all below it raised. A halted context is paged out by kind 6, or its image re-pointed where it has
one (16 R344; 19 R391, R394). That kind 6 of a context that runs is STATE whatever namespace it names is the order of checks that log 26
deduces. -/
def Sys2Proof.Claim.RevokeResult : Prop :=
  ∀ (s : State) (x c d : BitVec 5) (child parent : Context) (bytes : List Byte), Names s c child →
    s.contexts.find child.parent = some parent → BlockAt s x 4 bytes → Quiet s →
    let n := ((s.hartAt s.hart).reg c).toNat
    (∀ size a, grantBlock 0 size 0 a 0 bytes → size ≤ 16 → a % 2 ^ size = 0 → a + 2 ^ size ≤ child.frames →
      s.revocationUnderWay n child = false →
      (child.grantedIn a size = [] → exec (.ctxRevoke x c d) s = .next (s.answer d 0xFFFFFFFFFFFFFFFD)) ∧
      (child.grantedIn a size ≠ [] →
        ∃ t g r, exec (.ctxRevoke x c d) s = .next t ∧ t.contexts.find n = some g ∧
          (∀ i < 2 ^ size, ∀ e ∈ g.grants, e.1 ≠ a + i) ∧
          (∀ k, (k < a ∨ a + 2 ^ size ≤ k) → g.grants.get k = keptEntry k a size (child.grants.get k)) ∧
          g.revocation = some r ∧ r.kind = 0 ∧ r.actor = child.parent ∧ FramesShotDown t n a (2 ^ size) ∧
          t.mem = s.mem ∧ t.harts = (s.answer d 0).harts)) ∧
    (∀ a b, grantBlock 1 0 0 a b bytes → 1 ≤ b → b ≤ 192 → s.revocationUnderWay n child = false →
      let cores := (parent.cores.drop a).take b
      (a + b ≤ parent.cores.length → (∃ k ∈ cores, k ∈ child.cores) → child.state = .running →
        ∃ t g r, exec (.ctxRevoke x c d) s = .next t ∧ t.contexts.find n = some g ∧ g.revocation = some r ∧ r.kind = 1 ∧
          r.cores = cores ∧ r.actor = child.parent ∧ g.cores = child.cores ∧ LineRaised t n ∧ t.mem = s.mem ∧
          t.harts = (s.answer d 0).harts) ∧
      ((parent.cores.length < a + b ∨ ∀ k ∈ cores, k ∉ child.cores) →
        exec (.ctxRevoke x c d) s = .next (s.answer d 0xFFFFFFFFFFFFFFFD))) ∧
    (∀ kind a b, grantBlock kind 0 0 a b bytes → 2 ≤ kind → kind ≤ 4 →
      ResourceBlock.movedValid { kind := kind, size := 0, perm := 0, a := a, b := b } = true → s.revocationUnderWay n child = false →
      (∀ m, s.below n m = true → s.below m n = false) →
      let holds (m : Nat) (y : Context) : Prop := m ∈ s.subtree n ∧ s.contexts.find m = some y ∧
        y.heldOf { kind := kind, size := 0, perm := 0, a := a, b := b } ≠ []
      ((∀ m y, ¬holds m y) → exec (.ctxRevoke x c d) s = .next (s.answer d 0xFFFFFFFFFFFFFFFD)) ∧
      (∀ m y, holds m y → ∃ t g r, exec (.ctxRevoke x c d) s = .next t ∧ t.contexts.find n = some g ∧ g.revocation = some r ∧
        r.kind = kind ∧ r.a = a ∧ r.b = b ∧ r.actor = child.parent ∧ { g with revocation := child.revocation } = child ∧
        (m ≠ n → y.state = .running → LineRaised t m) ∧ t.mem = s.mem ∧ t.harts = (s.answer d 0).harts)) ∧
    (grantBlock 5 0 0 0 0 bytes → s.revocationUnderWay n child = false →
      (child.doorbell = none → exec (.ctxRevoke x c d) s = .next (s.answer d 0xFFFFFFFFFFFFFFFD)) ∧
      (child.doorbell ≠ none → ∃ t g r, exec (.ctxRevoke x c d) s = .next t ∧ t.contexts.find n = some g ∧ g.doorbell = none ∧
        g.revocation = some r ∧ r.kind = 5 ∧ t.harts = (s.answer d 0).harts)) ∧
    (grantBlock 7 0 0 0 0 bytes → s.going n = false → child.state = .running → child.halt = none → child.revocation = none →
      ∃ t g r h, exec (.ctxRevoke x c d) s = .next t ∧ t.contexts.find n = some g ∧ g.state = .revoking ∧
        g.revocation = some r ∧ r.kind = 7 ∧ r.actor = child.parent ∧ g.halt = some h ∧ h.forced = true ∧ h.inherited = false ∧
        h.root = n ∧ (∀ m y, m ≠ n → s.below m n = true → s.contexts.find m = some y → y.state = .running →
          ∃ z k, t.contexts.find m = some z ∧ z.state = .halting ∧ z.halt = some k ∧ k.forced = true ∧ k.inherited = true ∧
            k.root = n) ∧ t.mem = s.mem ∧ t.harts = (s.answer d 0).harts) ∧
    (grantBlock 7 0 0 0 0 bytes → s.going n = true → exec (.ctxRevoke x c d) s = .next (s.answer d 0xFFFFFFFFFFFFFFFA)) ∧
    (∀ a b, grantBlock 6 0 0 a b bytes → a < 4 → b < 2 ^ 32 → s.revocationUnderWay n child = false →
      (child.state ≠ .halted → exec (.ctxRevokeCold x c d) s = .next (s.answer d 0xFFFFFFFFFFFFFFFE)) ∧
      (child.state = .halted →
        (∀ m y, m ∈ s.subtree n → s.contexts.find m = some y → y.halt = none ∧ y.state ≠ .running) →
        (s.holdsNamespace child.parent (a, b) = false →
          exec (.ctxRevokeCold x c d) s = .next (s.answer d 0xFFFFFFFFFFFFFFFD)) ∧
        (s.holdsNamespace child.parent (a, b) = true →
          let size := if child.hasImage then s.oldImageBlocks n else s.imageBlocks n child
          (Config.namespaceBlocks a b < size → exec (.ctxRevokeCold x c d) s = .next (s.answer d 0xFFFFFFFFFFFFFFFC)) ∧
          (size ≤ Config.namespaceBlocks a b →
            (child.hasImage = true → exec (.ctxRevokeCold x c d) s =
              .next ((s.setContext n { child with image := some (a, b), pullFailures := 0 }).answer d 0)) ∧
            (child.hasImage = false →
              ∃ t g r, exec (.ctxRevokeCold x c d) s = .next t ∧ t.contexts.find n = some g ∧ g.revocation = some r ∧ r.kind = 6 ∧
                r.a = a ∧ r.b = b ∧ { g with revocation := child.revocation } = child ∧ t.mem = s.mem ∧
                t.harts = (s.answer d 0).harts)))))

/-- `ctx.go` moves a created child to running and resumes a halted one, is STATE for a child that runs, halts, goes or is cold, and BUSY while
a revocation stands in its way; `ctx.halt` answers the state with mode 0, starts the soft or the forced step of a running
child with modes 1 and 2, moves a soft step to the forced one, leaves a forced one as it stands, and is STATE for a child that is created,
halted or going (16 R340; 19 R379). That `ctx.go` of a cold child is STATE is the model's choice (log 51); that STATE comes before BUSY, and
that a revocation of kind 1 or 6 of a context above is BUSY, is what log 26 deduces. What the resumption does is RestoreResult's. -/
def Sys2Proof.Claim.GoAndHaltResult : Prop :=
  ∀ (s : State) (x c d : BitVec 5) (child : Context), Names s c child → Quiet s →
    let n := ((s.hartAt s.hart).reg c).toNat
    ((s.going n = true ∨ child.cold = true) → exec (.ctxGo c d) s = .next (s.answer d 0xFFFFFFFFFFFFFFFE)) ∧
    (s.going n = false → child.cold = false →
      (child.revocation ≠ none ∨ s.upward (Context.revokes fun k => k == 1 || k == 6) n = true) →
      exec (.ctxGo c d) s = .next (s.answer d 0xFFFFFFFFFFFFFFFA)) ∧
    (s.going n = false → child.cold = false → child.revocation = none →
      s.upward (Context.revokes fun k => k == 1 || k == 6) n = false →
      (child.state = .created → exec (.ctxGo c d) s = .next ((s.setContext n { child with state := .running }).answer d 0)) ∧
      ((child.state = .running ∨ child.state = .halting) →
        exec (.ctxGo c d) s = .next (s.answer d 0xFFFFFFFFFFFFFFFE)) ∧
      (child.state = .halted → exec (.ctxGo c d) s = .next ((s.resume n).answer d 0))) ∧
    ((s.hartAt s.hart).reg x = 0 →
      exec (.ctxHaltQuery x c d) s = .next (s.answer d (BitVec.ofNat 64 child.state.code))) ∧
    ((s.hartAt s.hart).reg x = 1 →
      ((child.state = .created ∨ child.state = .halted ∨ child.state = .revoking) →
        exec (.ctxHaltSoft x c d) s = .next (s.answer d 0xFFFFFFFFFFFFFFFE)) ∧
      (child.state = .running → ∃ t g h, exec (.ctxHaltSoft x c d) s = .next t ∧ t.contexts.find n = some g ∧
        g.state = .halting ∧ g.halt = some h ∧ h.forced = false ∧ h.deadline = s.clock + clocksOf s.graceNs ∧ h.root = n ∧
        (∀ m y, m ≠ n → s.below m n = true → s.contexts.find m = some y → y.state = .running →
          ∃ z k, t.contexts.find m = some z ∧ z.state = .halting ∧ z.halt = some k ∧ k.forced = false ∧ k.inherited = true ∧
            k.resume = true ∧ k.root = n) ∧
        t.mem = s.mem ∧ t.gangs = s.gangs ∧ t.harts = (s.answer d 2).harts) ∧
      (child.state = .halting → exec (.ctxHaltSoft x c d) s = .next (s.answer d 2))) ∧
    ((s.hartAt s.hart).reg x = 2 →
      (child.state = .running ∨ (child.state = .halting ∧ ∃ h, child.halt = some h ∧ h.forced = false)) →
      ∃ t g h, exec (.ctxHaltForced x c d) s = .next t ∧ t.contexts.find n = some g ∧
        g.state = .halting ∧ g.halt = some h ∧ h.forced = true ∧ h.deadline = s.clock + clocksOf s.killNs ∧
        t.mem = s.mem ∧ t.gangs = s.gangs ∧ t.harts = (s.answer d 2).harts) ∧
    ((s.hartAt s.hart).reg x = 2 →
      ((child.state = .created ∨ child.state = .halted ∨ child.state = .revoking) →
        exec (.ctxHaltForced x c d) s = .next (s.answer d 0xFFFFFFFFFFFFFFFE)) ∧
      (∀ h, child.state = .halting → child.halt = some h → h.forced = true →
        ∃ t, exec (.ctxHaltForced x c d) s = .next t ∧ t.contexts.find n = some child ∧ t.clock = s.clock ∧ t.mem = s.mem ∧
          t.gangs = s.gangs ∧ t.commands = s.commands ∧ t.harts = (s.answer d 2).harts)) ∧
    (3 ≤ ((s.hartAt s.hart).reg x).toNat → exec (.ctxHaltQuery x c d) s = .next (s.answer d 0xFFFFFFFFFFFFFFFC))

/-- `ctx.go` of a halted child, with which none below it resumes. Without saved work it runs. A save area with more cores than the child
holds, or with a core whose crews cannot stand where its logical core now is (the core disabled, its crew slots, granules or mooring entries
too few, no partition with room), or with a bank in use where the gantry is disabled, is refused: the child stays halted, its state saved,
and a RESTORE_SHORTFALL notice is posted. A save area of one core with one crew of one gang is loaded there: the crew in the lowest free slot
with its own number of granules, which take its scratchpad image; the gang where R303 puts it, every field but its crew's slot as saved; the
bank's accumulators and the commands; and the child runs (19 R389, R390; 13 R303). -/
def Sys2Proof.Claim.RestoreResult : Prop :=
  ∀ (s : State) (c d : BitVec 5) (child : Context), Names s c child → Quiet s →
    let n := ((s.hartAt s.hart).reg c).toNat
    s.going n = false → child.cold = false → child.revocation = none → child.state = .halted →
    s.upward (Context.revokes fun k => k == 1 || k == 6) n = false →
    (∀ e ∈ s.contexts, s.below e.1 n = true → e.2.resumeWithParent = false) →
    let refused := exec (.ctxGo c d) s = .next ((s.postNotice n (s.plainNotice n .restoreShortfall)).answer d 0)
    (child.saved = none → ∃ t, exec (.ctxGo c d) s = .next t ∧
      t.contexts.find n = some { child with state := .running, resumeWithParent := false } ∧ t.mem = s.mem ∧ t.crews = s.crews ∧
      t.harts = (s.answer d 0).harts) ∧
    (∀ v, child.saved = some v → child.cores.length < v.cores.length → refused) ∧
    (∀ v x core, child.saved = some v → v.cores = [x] → child.cores[x.logical]? = some core →
      (x.crews ≠ [] → ¬CoreTakes s core (x.crews.map fun e => e.2.1) → refused) ∧
      (x.crews ≠ [] → x.gangs ≠ [] → (∀ r ∈ s.rooms core false, 8 ≤ r.taken.length) → refused) ∧
      (∀ b, (s.core core).gantryDisabled = true → x.bank = some b → BankInUse b → refused) ∧
      (∀ slot crew image place g i r, x.crews = [(slot, crew, image)] → x.gangs = [(place, g)] → x.sideLog = [] →
        crew.gangs = [x.logical * 128 + place] → g.crew = x.logical * 8 + slot → g.held = none → g.chain = none →
        (s.core core).gantryDisabled = false → child.launches = [] → CoreTakes s core [crew] → FreeSlot s core i →
        crew.record.granules ≤ (s.freeGranules core).length → pickRoom (g.width * g.nregs * 4) (s.rooms core false) = some r →
        image.wf = true → (∀ y ∈ image, y.1 < 4096 * crew.record.granules) →
        let key := core * 128 + (r.partition * 8 + pickPosition r.taken)
        ∃ t crew', exec (.ctxGo c d) s = .next t ∧
          t.contexts.find n = some { child with state := .running, saved := none, resumeWithParent := false } ∧
          t.crews.find (core * 8 + i) = some crew' ∧ { crew' with granules := crew.granules, gangs := crew.gangs } = crew ∧
          crew'.gangs = [key] ∧ crew'.granules.length = crew.record.granules ∧
          (∀ k ∈ crew'.granules, k ∈ s.freeGranules core) ∧
          (∀ o < 4096 * crew.record.granules,
            (t.core core).scratch.get (crew'.granules.getD (o / 4096) 0 * 4096 + o % 4096) = image.get o) ∧
          t.gangs.find key = some { g with crew := core * 8 + i } ∧
          (∀ b, x.bank = some b → ∃ b', (t.core core).banks.find n = some b' ∧ b'.acc = b.acc ∧ b'.offers = b.offers) ∧
          (∀ w ∈ v.commands, w.core = x.logical → ∃ w' ∈ t.commands, w'.id = w.id ∧ w'.progress = w.progress ∧
            w'.gangs = w.gangs.map (fun k => if k = x.logical * 128 + place then key else k)) ∧
          t.mem = s.mem ∧ t.harts = (s.answer d 0).harts))

/-- `ctx.budget` moves time and energy from the parent's counters, or those it draws on, to the child's, and sets the mode; a negative
number moves them back; a move of more than the giver holds is NOT_HELD and changes nothing; the root's counters never run out (16 R342,
R343). A move after which a counter would pass 64 bits, which the spec does not decide, is left to log 26. -/
def Sys2Proof.Claim.BudgetResult : Prop :=
  ∀ (s : State) (x c d : BitVec 5) (child owner : Context) (bytes : List Byte), Names s c child → BlockAt s x 4 bytes →
    let n := ((s.hartAt s.hart).reg c).toNat
    let o := s.budgetOwner child.parent
    let time := (BitVec.ofNat 64 (fieldAt bytes 0 8)).toInt
    let energy := (BitVec.ofNat 64 (fieldAt bytes 8 8)).toInt
    let mode := fieldAt bytes 16 4
    o ≠ n → s.contexts.find o = some owner → mode < 3 → numberOf (bytes.drop 20) = 0 →
    (child.budget.time.toNat + time < 2 ^ 64 → child.budget.energy.toNat + energy < 2 ^ 64 →
      owner.budget.time.toNat - time < 2 ^ 64 → owner.budget.energy.toNat - energy < 2 ^ 64 →
      (0 ≤ child.budget.time.toNat + time → 0 ≤ child.budget.energy.toNat + energy →
        (o ≠ 0 → 0 ≤ owner.budget.time.toNat - time ∧ 0 ≤ owner.budget.energy.toNat - energy) →
        ∃ t p g, exec (.ctxBudget x c d) s = .next t ∧ t.contexts.find o = some p ∧ t.contexts.find n = some g ∧
          (p.budget.time.toNat : Int) = owner.budget.time.toNat - (if o = 0 then 0 else time) ∧
          (p.budget.energy.toNat : Int) = owner.budget.energy.toNat - (if o = 0 then 0 else energy) ∧
          (g.budget.time.toNat : Int) = child.budget.time.toNat + time ∧
          (g.budget.energy.toNat : Int) = child.budget.energy.toNat + energy ∧
          g.budget.carved = (if mode = 0 then child.budget.carved else decide (mode = 2)) ∧
          p.budget.carved = owner.budget.carved ∧ { g with budget := child.budget } = child ∧
          { p with budget := owner.budget } = owner ∧ t.mem = s.mem ∧ t.harts = (s.answer d 0).harts) ∧
      ((child.budget.time.toNat + time < 0 ∨ child.budget.energy.toNat + energy < 0 ∨
          (o ≠ 0 ∧ (owner.budget.time.toNat - time < 0 ∨ owner.budget.energy.toNat - energy < 0))) →
        exec (.ctxBudget x c d) s = .next (s.answer d 0xFFFFFFFFFFFFFFFD)))

/-- `tlbinv` removes every translation that its range selects from every TLB of cores, dies and ports and every CLB: by virtual range the
context's own that the range covers, a tile's where its descriptor or its block begins there; by frames those of any context whose chain
passes through one of them; and `tlbfence` holds its hart until TLBFENCE_RETIRE lets it go on, which retries what is held (16 R327, R328,
R331; 17 R349, R351). -/
def Obligations.InvalidationResult : Prop :=
  (∀ (s : State) (a c : BitVec 5) (base n : Nat) (frames : Bool), s.HartActs →
    let h := s.hartAt s.hart
    let ctx := (h.reg c).toNat
    (s.contexts.find ctx).isSome = true → (ctx = s.callerOf s.hart ∨ s.below ctx (s.callerOf s.hart) = true) →
    12 ≤ n → n ≤ 48 → base % 4096 = 0 → base % 2 ^ n = 0 → base < 2 ^ 48 → (frames = true → 21 ≤ n) →
    (h.reg a).toNat = base + (if frames then 64 else 0) + n →
      ∃ t, exec (if frames then .tlbinvFrames a c else .tlbinvVirtual a c) s = .next t ∧
        (if frames then FramesShotDown t ctx (base / 0x200000) (2 ^ n / 0x200000)
          else NoTranslation t (fun e => e.ctx = ctx ∧ e.va < base + 2 ^ n ∧ base < e.va + 2 ^ e.log2) fun e => e.ctx = ctx ∧
            ((base ≤ e.desc ∧ e.desc < base + 2 ^ n) ∨ (base ≤ e.block ∧ e.block < base + 2 ^ n))) ∧
        t.mem = s.mem ∧ t.contexts = s.contexts ∧ t.gangs = s.gangs ∧ (t.hartAt s.hart).pc = h.pc + 4 ∧
        (t.hartAt s.hart).x = h.x ∧ (t.hartAt s.hart).unfenced = h.unfenced + 1) ∧
  (∀ (s : State) (a c : BitVec 5), s.HartActs → (s.contexts.find ((s.hartAt s.hart).reg c).toNat = none ∨
      ((s.hartAt s.hart).reg a).toNat % 64 < 12 ∨ 48 < ((s.hartAt s.hart).reg a).toNat % 64 ∨
      2 ^ 48 ≤ ((s.hartAt s.hart).reg a).toNat) →
    exec (.tlbinvVirtual a c) s = s.illegal ∧ exec (.tlbinvFrames a c) s = s.illegal) ∧
  (∀ s : State, s.HartActs →
    exec .tlbfence s = .next (s.setHart s.hart { s.hartAt s.hart with fencing := some s.serial })) ∧
  (∀ (s : State) (serial : Nat), (s.hartAt s.subject.who).fencing = some serial →
    ((s.hartAt s.subject.who).unfenced = 0 ∨ s.landedBelow serial = true) →
    let h := s.hartAt s.subject.who
    exec .tlbfenceRetire s =
      .next (s.setHart s.subject.who { h with fencing := none, unfenced := 0, pc := h.pc + 4 }).retryAll)


namespace Sys2Proof.Claim
open Sys2Proof.Machine

/-- The end of a revocation of context `n` has been recorded, cause none and flag 4, and waits where no context has a ring (16 R334, R344). -/
def EndRecorded (s t : State) (n : Nat) : Prop :=
  ∃ p, t.pending.getLast? = some p ∧ p.record.cause = .none ∧ p.record.ctx = n ∧ p.record.flags = 16 ∧
    p.record.timestamp = s.timestamp

end Sys2Proof.Claim

open Sys2Proof Sys2Proof.Machine Sys2Proof.Claim

/-- A doorbell write that reaches its context's doorbell page brings its queue to the device's notice; a number at or above the queue count
or of a disabled queue has no effect, and neither has a write where the context has no page: one of the host goes through the function of
the host link that exposes it. A cold context is first read back from its image, and resumes if its parent runs, or else with it; without
an image that can be read, or with too little room in the grant region, the restore is refused with a notice (19 R393). Every 250 µs the mapped queues go to the tail of the service list in slot order and its first are mapped, a
queue that keeps its place to its own slot; every 50 µs what is held is retried; neither comes before it is due (13 R294, R298; 16 R331;
21 R406). The areas' places in the grant region are log 20's and 22's. -/
def Obligations.DoorbellAndTimers : Prop :=
  (∀ (s : State) (c : Context), s.contexts.find s.subject.who = some c →
    let n := s.subject.who
    let reached := if s.subject.flag = true then c.depth = 0 ∨ (c.function = true ∧ c.doorbell ≠ none) else c.doorbell ≠ none
    (¬reached → exec .doorbell s = .next s) ∧
    (reached → c.cold = true → c.revocation = none → s.going n = false →
      let refused := exec .doorbell s = .next ((s.postNotice n (s.plainNotice n .restoreShortfall)).ring n s.subject.what)
      ((∀ i ∈ s.images, i.ctx ≠ n) → refused) ∧
      (∀ image, s.images.find? (fun i => i.ctx == n) = some image →
        let room := s.regionUsed + (image.contexts.map fun e => 0x1000000 * e.2.cores.length).sum
        let back (m : Nat) (y : Context) : Context :=
          { y with
            cold := if m = n then false else y.cold
            saved := match image.contexts.find m with
              | some x => x.saved
              | none => if m = n then none else y.saved }
        ((n ∉ s.boot.keys ∨ Config.grantRegionSize < room) → refused) ∧
        (n ∈ s.boot.keys → room ≤ Config.grantRegionSize →
          ∃ u : State, { u with contexts := s.contexts } = s ∧
            (∀ m y, s.contexts.find m = some y → u.contexts.find m = some (back m y)) ∧
            ((∃ p, s.contexts.find c.parent = some p ∧ p.state = .running) →
              exec .doorbell s = .next ((u.resume n).ring n s.subject.what)) ∧
            ((∀ p, s.contexts.find c.parent = some p → p.state ≠ .running) →
              exec .doorbell s =
                .next ((u.setContext n { back n c with resumeWithParent := true }).ring n s.subject.what))))) ∧
    (reached → (c.cold = false ∨ c.revocation ≠ none ∨ s.going n = true) →
      exec .doorbell s = .next (s.ring s.subject.who s.subject.what) ∧
      (Quiet s → c.queues ≤ s.subject.what → exec .doorbell s = .next s) ∧
      (Quiet s → s.subject.what < c.queues → s.isDisabled ⟨s.subject.who, s.subject.what⟩ = true → exec .doorbell s = .next s) ∧
      (Quiet s → s.subject.what < c.queues → s.isDisabled ⟨s.subject.who, s.subject.what⟩ = false → c.state = .created →
        exec .doorbell s = .next { s with rung := [⟨s.subject.who, s.subject.what⟩] }))) ∧
  (∀ s : State, (s.clock < s.quantumDue → exec .leaseQuantumBoundary s = .next s) ∧
    (s.clock < s.retryDue → exec .retryTimer s = .next s) ∧
    (s.quantumDue ≤ s.clock → Quiet s →
      exec .leaseQuantumBoundary s = .next { s with quantumDue := s.quantumDue + 325000 }) ∧
    (s.quantumDue ≤ s.clock → ∀ s1, State.serviceQueues { s with quantumDue := s.quantumDue + 325000 } = s1 → s1.service ≠ [] →
      exec .leaseQuantumBoundary s =
        .next (State.fillSlots { s1 with slots := [], service := s1.service ++ s1.slots.values, joining := [] } s1.slots.values)) ∧
    (s.retryDue ≤ s.clock → Quiet s → ∃ t, exec .retryTimer s = .next t ∧ t.retryDue = s.retryDue + 65000 ∧ t.mem = s.mem ∧
      t.contexts = s.contexts ∧
      (∀ k g, s.gangs.find k = some g → ∃ h, t.gangs.find k = some h ∧ h.v = g.v ∧ h.slices = g.slices ∧
        h.held = g.held.map fun x => { x with retry := true }) ∧
      t.commands = s.commands.map fun c => { c with held := c.held.map fun h => { h with retry := true } })) ∧
  (∀ (s : State) (again : List QueueId), s.slots = [] → s.service.Nodup → (∀ e ∈ s.lastSlot, e.2 < 512) →
    let t := s.fillSlots again
    (∀ q ∈ s.service.take 512, q ∉ t.service ∧ ∃ n < 512, t.slots.find n = some q) ∧
    (∀ q ∈ s.service.drop 512, q ∈ t.service) ∧
    ∀ q n, q ∈ s.service.take 512 → q ∈ again → s.lastSlot.find q.key = some n →
      (∀ p ∈ s.service.take 512, p ∈ again → p ≠ q → s.lastSlot.find p.key ≠ some n) → t.slots.find n = some q)

/-- A mapped slot takes its ready head entry and moves the queue's head on: a record that passes its checks becomes a launch of the context,
in state 1; one that fails them ends in state 3 with its fault code, and one whose predecessor failed in state 4 with that one's code (13
R292, R295-R297). An entry that ends so gets its status word, with the state in the low byte and the code in the next, and an end time,
and its identifier joins the context's failure list, which keeps the last 1,024 (13 R291, R297). That a failed predecessor is looked at
before the record is checked, what waits, and that an entry which never was in state 1 gets an end time, is log 38's choice. -/
def Sys2Proof.Claim.LaunchAcceptResult : Prop :=
  ∀ (s s1 : State) (id : QueueId) (c : Context) (ready : List ReadyHead) (r : ReadyHead),
    s.slots.find s.subject.who = some id → s.readyHeads = (ready, s1) → ready.find? (fun x => x.head.id == id) = some r →
    s1.contexts.find id.ctx = some c → c.launches.length < 64 →
    let moved := s1.queueWrite id (r.head.desc.va + 0x10) 4 ((r.head.desc.head + 1) % 2 ^ 32)
    (∀ code, r.cancel = some code → exec .launchAccept s = .next (moved.endHead r.head 4 code).serviceQueues) ∧
    (∀ t, r.cancel = none → s1.refusal c r.head = some t →
      exec .launchAccept s = .next (moved.endHead r.head 3 (trapCode t)).serviceQueues) ∧
    (∀ l, r.cancel = none → s1.refusal c r.head = none → r.head.launch = some l →
      exec .launchAccept s = .next (moved.acceptHead r.head l).serviceQueues) ∧
    (∀ (u : State) (l : LaunchRecord) (x : Context), u.queueWrites = [] →
      (u.writeStatus r.head.id r.head.entry 1 0 false).contexts.find r.head.id.ctx = some x →
      ∃ y n, (u.acceptHead r.head l).contexts.find r.head.id.ctx = some y ∧ y.launches = x.launches ++ [n] ∧ n.record = l ∧
        n.queue = r.head.id.number ∧ n.nextCrew = 0 ∧ n.crewsEnded = 0 ∧ n.stopped = false ∧ y.accepted = x.accepted + 1 ∧
        ∀ f ∈ y.failures, f ∈ x.failures ∧ f.ident ≠ l.ident) ∧
    (∀ (u : State) (state code a b : Nat), u.queueWrites = [] → (∀ q ∈ u.heldQueues, q.1 ≠ r.head.id) →
      (∀ p ∈ u.pending, p.blocks ≠ .queue r.head.id.ctx r.head.id.number) → r.head.entry + 0x20 ≤ 2 ^ 48 →
      u.queuePlace r.head.id.ctx (r.head.entry + 8) 4 .store = .ok (.mem a) →
      (u.write a 4 (state + 256 * code)).queuePlace r.head.id.ctx (r.head.entry + 0x18) 8 .store = .ok (.mem b) →
      let t := u.endHead r.head state code
      t.mem = ((u.write a 4 (state + 256 * code)).write b 8 u.timestamp).mem ∧
        (∀ m, m ≠ r.head.id.ctx → t.contexts.find m = u.contexts.find m) ∧
        ∀ x, u.contexts.find r.head.id.ctx = some x → t.contexts.find r.head.id.ctx = some { x with
          failures := match r.head.ident with
            | none => x.failures
            | some ident => (x.failures ++ [({ ident := ident, state := state, code := code } : Failure)]).drop (x.failures.length + 1 - 1024) })

/-- A crew placed by the distributor stands in the core's lowest free slot under the next crew index, with its gangs at their positions, each
at the entry with every lane enabled, its registers zero and its rounding keys as R22 says; a crew whose gangs have ended and whose items
have completed is released, and its core is free for the next (13 R301-R304; 01 R14; 07 R186; 11 R243). -/
def Obligations.CrewPlacedAndReleased : Prop :=
  (∀ (s : State) (x : Choice), s.placedUntil ≤ s.clock →
    s.contexts.filterMap (fun e => if e.2.distributes then s.choose e.1 e.2 else none) = [x] → x.positions.Nodup →
      let slot := x.core * 8 + s.freeSlot x.core
      ∃ t crew, exec .crewPlace s = .next t ∧ t.placedUntil = s.clock + 1 ∧ t.crews.find slot = some crew ∧
        crew.ctx = x.ctx ∧ crew.launch = x.launch.record.ident ∧ crew.record = x.launch.record ∧ crew.index = x.launch.nextCrew ∧
        crew.gangs = x.positions.map (x.core * 128 + ·) ∧ crew.barriers = [] ∧ crew.mooring = [] ∧ crew.manifest = none ∧
        ∀ i < x.positions.length, ∃ g, t.gangs.find (x.core * 128 + x.positions.getD i 0) = some g ∧ g.ctx = x.ctx ∧
          g.crew = slot ∧ g.index = i ∧ g.width = x.launch.record.width ∧ g.nregs = x.launch.record.registers ∧ g.v = [] ∧
          g.s = [] ∧ g.p = [] ∧ g.k = [] ∧ g.fpflags = 0 ∧ g.trim = 0 ∧ g.stop = none ∧ (∀ a ∈ g.ages, a = 0xFFFFFFFF) ∧
          g.slices.length = g.width / 4 ∧
          (∀ sl ∈ g.slices, sl.pc = x.launch.record.entry ∧ sl.status = .running ∧ sl.stack = [⟨0xF, .running, 0⟩]) ∧
          ∀ l < g.width, g.srkey.get l =
            BitVec.ofNat 32 (l + g.width * (i + x.launch.record.gangCount * x.launch.nextCrew))) ∧
  (∀ s : State, s.clock < s.placedUntil → exec .crewPlace s = .next s) ∧
  (∀ (s : State) (crew : Crew) (c : Context), s.crews.find s.subject.who = some crew →
    s.contexts.find crew.ctx = some c →
    (s.crewDone s.subject.who crew = false → exec .crewEnd s = .next s) ∧
    (s.crewDone s.subject.who crew = true → s.enginesRun crew.ctx = true →
      ∃ t x, exec .crewEnd s = .next t ∧ t.crews.find s.subject.who = none ∧
        (∀ k ∈ crew.gangs, t.gangs.find k = none) ∧ (∀ k, k ∉ crew.gangs → t.gangs.find k = s.gangs.find k) ∧
        (∀ k, k ≠ s.subject.who → t.crews.find k = s.crews.find k) ∧ t.contexts.find crew.ctx = some x ∧
        (s.clock, s.subject.who / 8) ∈ x.freed ∧
        x.launches = c.launches.map (fun l =>
          if l.record.ident = crew.launch then { l with crewsEnded := l.crewsEnded + 1 } else l) ∧
        (∀ b, (t.core (s.subject.who / 8)).banks.find crew.ctx = some b →
          ∀ e ∈ b.holds, e.2 ≠ BitVec.ofNat 32 (s.subject.who + 1)) ∧ t.mem = s.mem))

/-- A launch completes once every crew of it has ended, and not before: it leaves the context's launches, and state 2 is written to its
entry (13 R292, R293). -/
def Sys2Proof.Claim.LaunchCompleteResult : Prop :=
  ∀ (s : State) (c : Context) (l : Launch), s.contexts.find s.subject.who = some c → s.enginesRun s.subject.who = true →
    c.launches.find? (fun x => x.record.ident.toNat == s.subject.what) = some l → l.stopped = false →
    (l.crewsEnded < l.record.crewCount.toNat → exec .launchComplete s = .next s) ∧
    (l.record.crewCount.toNat ≤ l.crewsEnded →
      let s1 := s.setContext s.subject.who { c with launches := c.launches.filter fun x => x.record.ident != l.record.ident }
      exec .launchComplete s =
        .next (s1.writeStatus ⟨s.subject.who, l.queue⟩ l.entryAddr.toNat 2 0 true).serviceQueues)

/-- The ladder: the grace timer moves a soft step with a crew resident to the forced step, the kill timer discards the context's work and
leaves it created, a counter that ran out forces every running context that draws from it, with a record to the ring of its owner's parent, and the window of
floating-point traps raises the halt line when it closes, with the cause of its first event, whose gang's record takes the origin flag and
the number of events (16 R342; 19 R377, R379, R380). -/
def Sys2Proof.Claim.LadderEvents : Prop :=
  (∀ (s : State) (c : Context) (h : Halt), s.contexts.find s.subject.who = some c → c.halt = some h → h.inherited = false →
    (h.deadline > s.clock → exec .graceTimerExpiry s = .next s ∧ exec .killTimerExpiry s = .next s) ∧
    (c.state = .halting → h.forced = false → h.deadline ≤ s.clock →
      (∃ e ∈ s.crews, e.2.ctx = s.subject.who) →
      ∃ t x k, exec .graceTimerExpiry s = .next t ∧ t.contexts.find s.subject.who = some x ∧ x.state = .halting ∧
        x.halt = some k ∧ k.forced = true ∧ k.cause = h.cause ∧ k.deadline = s.clock + clocksOf s.killNs ∧ t.mem = s.mem ∧
        t.gangs = s.gangs) ∧
    (h.forced = true → h.deadline ≤ s.clock → exec .killTimerExpiry s = .next (s.kill s.subject.who .killed)) ∧
    (h.forced = true → h.deadline ≤ s.clock → Quiet s → c.depth ≠ 0 → c.state = .halting → c.launches = [] →
      s.subtree s.subject.who = [s.subject.who] → NoRing s →
      ∃ t x, exec .killTimerExpiry s = .next t ∧ t.contexts.find s.subject.who = some x ∧ x.state = .created ∧
        x.halt = none ∧ x.saved = none ∧ x.grants = c.grants ∧ x.cores = c.cores ∧ x.budget = c.budget ∧
        (∀ e ∈ t.crews, e.2.ctx ≠ s.subject.who) ∧ (∀ e ∈ t.gangs, e.2.ctx ≠ s.subject.who) ∧ t.mem = s.mem)) ∧
  (∀ (s : State) (c : Context), s.contexts.find s.subject.who = some c →
    (c.budget.exhausted = false → exec .budgetExhausted s = .next s) ∧
    (c.budget.exhausted = true → c.depth ≠ 0 →
      ∃ (u : State) (x : Context), exec .budgetExhausted s =
          .next (u.postRecord c.parent (u.plainNotice s.subject.who .budgetExhausted) .none).serviceQueues ∧
        u.contexts.find s.subject.who = some x ∧ x.budget.exhausted = false ∧
        (∀ m y, s.contexts.find m = some y → s.budgetOwner m = s.subject.who → y.state = .running → y.depth < 5 →
          ∃ z h, u.contexts.find m = some z ∧ z.state = .halting ∧ z.halt = some h ∧ h.forced = true ∧
            h.cause = .budgetExhausted) ∧
        { u with contexts := s.contexts } = s)) ∧
  (∀ (s : State) (w : Window), (s.core s.subject.who).windows.find? (fun x => x.ctx == s.subject.what) = some w →
    (s.clock < w.closes → s.lineRaised w.ctx = false → exec .collectionWindowClose s = .next s) ∧
    ((w.closes ≤ s.clock ∨ s.lineRaised w.ctx = true) →
      exec .collectionWindowClose s = .next (s.closeWindow s.subject.who w.ctx)) ∧
    (∀ (c : Context) (e : WindowEvent), (w.closes ≤ s.clock ∨ s.lineRaised w.ctx = true) → e ∈ w.events →
      (∀ f ∈ w.events, f = e ∨ e.issued < f.issued ∨ (e.issued = f.issued ∧ gangField e.gang < gangField f.gang)) →
      s.contexts.find w.ctx = some c → c.state = .running →
      ∃ t z h, exec .collectionWindowClose s = .next t ∧ t.contexts.find w.ctx = some z ∧ z.state = .halting ∧
        z.halt = some h ∧ h.forced = true ∧ h.cause = e.cause ∧
        (∀ g r, s.gangs.find e.gang = some g → g.stop = some r → ∃ k, t.gangs.find e.gang = some k ∧
          k.stop = some { r with flags := r.flags ||| 1, code := min w.events.length 255 } ∧ { k with stop := g.stop } = g) ∧
        (∀ n, n ≠ e.gang → t.gangs.find n = s.gangs.find n) ∧
        (∀ x ∈ (t.core s.subject.who).windows, x.ctx ≠ w.ctx) ∧ t.mem = s.mem))

/-- A halt is complete only once what the context's gangs loaded has landed, its engines can perform nothing more, nothing that its accepted
gantry instructions wait for can go on, of any context, no chart store has blocks yet to link, and its vectors have been applied; in the soft
step, once no crew of it is resident; and never before the halts of the contexts that halt with it. Then the context reads halted, its save
area holds the halt, with a stop record of every resident gang, and nothing of it is left on the cores (09 R222; 11 R267; 19 R368, R369, R371,
R374, R379). When the units have stopped is log 11; that no chart store has blocks yet to link is log 37 (DEDUCED). -/
def Sys2Proof.Claim.HaltCompleteResult : Prop :=
  ∀ (s : State) (c : Context) (h : Halt), s.contexts.find s.subject.who = some c → c.halt = some h →
    (s.haltReady s.subject.who h = true ↔
      (∀ e ∈ s.contexts, s.below e.1 s.subject.who = true → ∀ x, e.2.halt = some x → x.inherited = false) ∧
      (h.forced = true →
        (∀ e ∈ s.gangs, e.2.ctx = s.subject.who → (∀ l ∈ e.2.loads, l.sectors = []) ∧
          (∀ a, e.2.alloc = some a → a.taken = none) ∧ ∀ v ∈ e.2.vectors, s.covered v = true) ∧
        ∀ x ∈ s.awaited s.subject.who, s.canMove x = false) ∧
      (h.forced = false → ∀ e ∈ s.crews, e.2.ctx ≠ s.subject.who)) ∧
    (∀ x ∈ s.commands, x.done = false → x.id ∈ s.accepted s.subject.who → Errand.command x ∈ s.awaited s.subject.who) ∧
    (s.haltReady s.subject.who h = true → c.state = .halting → h.forced = true →
      ∀ x ∈ s.commands, x.ctx = s.subject.who → s.mayPerform x = false) ∧
    (s.haltReady s.subject.who h = false → exec .haltComplete s = .next s) ∧
    (s.haltReady s.subject.who h = true → exec .haltComplete s = .next (s.completeHalt s.subject.who h)) ∧
    (s.haltReady s.subject.who h = true → c.state = .halting → h.forced = true → h.records = [] → h.cause = .none →
      Quiet s → (∀ e ∈ s.cores, e.2.windows = []) →
      (∀ e ∈ s.gangs, e.2.ctx = s.subject.who → e.2.stop = none) →
      ∃ t x v, exec .haltComplete s = .next t ∧ t.contexts.find s.subject.who = some x ∧ x.state = .halted ∧ x.halt = none ∧
        x.saved = some v ∧ v.cause = .none ∧ v.forced = true ∧ v.haltTime = s.timestamp ∧ v.cores.length = c.cores.length ∧
        x.launches = c.launches ∧ x.grants = c.grants ∧ (∀ e ∈ t.crews, e.2.ctx ≠ s.subject.who) ∧
        (∀ e ∈ t.gangs, e.2.ctx ≠ s.subject.who) ∧ (∀ e ∈ t.commands, e.ctx ≠ s.subject.who) ∧
        (∀ k g, s.gangs.find k = some g → g.ctx ≠ s.subject.who → g ∈ t.gangs.values) ∧ t.mem = s.mem ∧
        ∀ e ∈ s.gangs, e.2.ctx = s.subject.who → coreOf e.1 ∈ c.cores → ∃ k ∈ v.cores, ∃ sr ∈ k.records,
          sr.gang = gangField e.1 ∧ sr.cause = .none ∧ sr.pc = ((e.2.slices.find? Slice.live).map fun sl => sl.pc).getD 0)

/-- The end of a revocation: nothing before what it waits for has landed and halted; frames taken read zero afterwards and bad sectors in
them are replaced; cores taken leave the context and all below it in order; general-purpose cores, a port or a namespace leave the context
and all below it and return to the parent; a whole context goes with all below it, its frames scrubbed and its resources, namespaces and
units returned; and a page-out leaves the context cold, its image on the namespace with the bytes of its frames under a fresh key, the
frames zeroed and shot down, and its save areas and those below released. The end is a record with cause none and flag 4 for the acting
parent's ring (16 R343, R344; 19 R391, R392; log 20). That the units go to the counters which the acting parent draws on, and stop at
2^64 - 1, is the model's choice (log 50). -/
def Sys2Proof.Claim.RevocationEndResult : Prop :=
  ∀ (s : State) (c : Context) (r : Revocation), s.contexts.find s.subject.who = some c → c.revocation = some r →
    (s.landedBelow r.serial = false → exec .revocationEnd s = .next s) ∧
    (s.landedBelow r.serial = true → (r.kind = 0 ∨ s.haltsOver s.subject.who = true) →
      ∃ u : State, u.clock = s.clock ∧ exec .revocationEnd s =
        .next (u.postRecord r.actor (u.plainNotice s.subject.who .none) .none).retryAll) ∧
    (s.landedBelow r.serial = true → Quiet s → NoRing s →
      (r.kind = 0 → ∃ t x, exec .revocationEnd s = .next t ∧ t.contexts.find s.subject.who = some x ∧ x.revocation = none ∧
        EndRecorded s t s.subject.who ∧
        (∀ a, t.byte a = if r.scrub.contains (a / 0x200000 * 0x200000) then 0 else s.byte a) ∧
        (∀ a, a ∈ t.badSectors ↔ a ∈ s.badSectors ∧ r.scrub.contains (a / 0x200000 * 0x200000) = false)) ∧
      (r.kind = 1 → s.haltsOver s.subject.who = true →
        ∃ t x, exec .revocationEnd s = .next t ∧ t.contexts.find s.subject.who = some x ∧ x.revocation = none ∧
          EndRecorded s t s.subject.who ∧ x.state = c.state ∧ x.cores = c.cores.filter (fun k => !r.cores.contains k) ∧ t.mem = s.mem ∧
          ∀ m y, s.contexts.find m = some y → s.below m s.subject.who = true → ∃ z, t.contexts.find m = some z ∧
            z.cores = y.cores.filter (fun k => !r.cores.contains k)) ∧
      (r.kind = 5 → s.haltsOver s.subject.who = true →
        ∃ t x, exec .revocationEnd s = .next t ∧ t.contexts.find s.subject.who = some x ∧
          { x with revocation := c.revocation } = c ∧ x.revocation = none ∧ EndRecorded s t s.subject.who ∧
          t.mem = s.mem) ∧
      (2 ≤ r.kind → r.kind ≤ 4 → s.haltsOver s.subject.who = true → ∀ p, s.contexts.find r.actor = some p →
        r.actor ∉ s.subtree s.subject.who →
        let block : ResourceBlock := { kind := r.kind, size := r.size, perm := 0, a := r.a, b := r.b }
        let held (k : Nat) : Prop := ∃ m ∈ s.subtree s.subject.who, ∃ e ∈ s.contexts, e.1 = m ∧ k ∈ e.2.heldOf block
        ∃ t x q, exec .revocationEnd s = .next t ∧ t.contexts.find s.subject.who = some x ∧ x.revocation = none ∧
          t.contexts.find r.actor = some q ∧ t.mem = s.mem ∧ EndRecorded s t s.subject.who ∧
          (∀ m ∈ s.subtree s.subject.who, ∀ y z, s.contexts.find m = some y → t.contexts.find m = some z →
            (r.kind = 2 → ∀ k, k ∈ z.gpCores ↔ k ∈ y.gpCores ∧ ¬held k) ∧
            (r.kind = 3 → ∀ k, k ∈ z.ports ↔ k ∈ y.ports ∧ ¬held k) ∧
            (r.kind = 4 → ∀ k, k ∈ z.namespaces ↔ k ∈ y.namespaces ∧ k ≠ (r.a, r.b))) ∧
          (r.kind = 2 → ∀ k < 16, k ∈ q.gpCores ↔ k ∈ p.gpCores ∨ held k) ∧
          (r.kind = 3 → ∀ k < 8, k ∈ q.ports ↔ k ∈ p.ports ∨ held k) ∧
          (r.kind = 4 → r.actor ≠ 0 → q.namespaces = p.namespaces ++ [(r.a, r.b)])) ∧
      (r.kind = 7 → s.haltsOver s.subject.who = true → ∀ p, s.contexts.find r.actor = some p →
        r.actor ∉ s.subtree s.subject.who →
        let gone (m : Nat) : Prop := m ∈ s.subtree s.subject.who
        (∀ m y, s.contexts.find m = some y → gone y.parent → gone m) →
        ∃ t q, exec .revocationEnd s = .next t ∧ (∀ m, gone m → t.contexts.find m = none) ∧
          (∀ m, ¬gone m → m ≠ r.actor → m ≠ s.budgetOwner r.actor → t.contexts.find m = s.contexts.find m) ∧
          t.contexts.find r.actor = some q ∧ EndRecorded s t s.subject.who ∧
          (r.actor ≠ 0 → ∀ y, y ∈ q.namespaces ↔ y ∈ p.namespaces ∨ ∃ e ∈ s.contexts, gone e.1 ∧ y ∈ e.2.namespaces) ∧
          (∀ o, s.budgetOwner r.actor ≠ 0 → s.contexts.find (s.budgetOwner r.actor) = some o →
            let all := s.contexts.filter fun e => (s.subtree s.subject.who).contains e.1
            ∃ v, t.contexts.find (s.budgetOwner r.actor) = some v ∧
              v.budget.time.toNat = min (o.budget.time.toNat + (all.map fun e => e.2.budget.time.toNat).sum) (2 ^ 64 - 1) ∧
              v.budget.energy.toNat = min (o.budget.energy.toNat + (all.map fun e => e.2.budget.energy.toNat).sum) (2 ^ 64 - 1)) ∧
          (∀ k < 16, k ∈ q.gpCores ↔ k ∈ p.gpCores ∨ ∃ e ∈ s.contexts, gone e.1 ∧ k ∈ e.2.gpCores) ∧
          (∀ k < 8, k ∈ q.ports ↔ k ∈ p.ports ∨ ∃ e ∈ s.contexts, gone e.1 ∧ k ∈ e.2.ports) ∧
          (∀ e ∈ c.grants, e.2.getLsbD 0 = true → ∀ m, s.machineOf c.parent ((e.2.extractLsb 47 21).toNat * 0x200000) = some m →
            m % 0x200000 = 0 → ∀ i < 0x200000, t.byte (m + i) = 0) ∧
          (∀ i ∈ t.images, ¬gone i.ctx) ∧ ∀ m, gone m → m ∉ t.boot.keys) ∧
      (r.kind = 6 → s.haltsOver s.subject.who = true →
        let n := s.subject.who
        let machine (k m : Nat) : Prop := ∃ e ∈ c.grants, e.1 = k ∧ e.2.getLsbD 0 = true ∧
          s.machineOf c.parent ((e.2.extractLsb 47 21).toNat * 0x200000) = some m
        ∃ t x image, exec .revocationEnd s = .next t ∧ t.contexts.find n = some x ∧ EndRecorded s t n ∧
          { x with grants := c.grants, coldFrames := c.coldFrames, cold := c.cold, saved := c.saved, image := c.image,
                   pullFailures := c.pullFailures, revocation := c.revocation } = c ∧
          x.cold = true ∧ x.grants = [] ∧ (∀ k, k ∈ x.coldFrames ↔ ∃ e ∈ c.grants, e.1 = k ∧ e.2.getLsbD 0 = true) ∧
          x.saved = none ∧ x.image = some (r.a, r.b) ∧ x.pullFailures = 0 ∧ x.revocation = none ∧
          (∀ m y, s.contexts.find m = some y → m ≠ n → m ∈ s.subtree n →
            t.contexts.find m = some { y with saved := none }) ∧
          t.images.find? (fun i => i.ctx == n) = some image ∧ image.port = r.a ∧ image.namespaceId = r.b ∧
          image.contexts = s.contexts.filter (fun e => (s.subtree n).contains e.1) ∧ n ∈ t.boot.keys ∧
          (∀ k m, machine k m → ∃ bytes, (k, bytes) ∈ image.frames ∧ ∀ i < 0x200000, bytes.get i = s.byte (m + i)) ∧
          (∀ k m, machine k m → m % 0x200000 = 0 → ∀ i < 0x200000, t.byte (m + i) = 0) ∧
          FramesShotDown t n 0 c.frames))

/-- A pull brings a granted cold frame's bytes from the image into the frame and ends its being cold; a pull that fails stops its context
with PAGE_UNREACHABLE, the fourth in a row revokes it as a whole, with a notice that says KILLED; and nothing is pulled of a frame that is
not granted again (19 R393, R394). -/
def Sys2Proof.Claim.FramePullResult : Prop :=
  ∀ (s : State) (c : Context), s.contexts.find s.subject.who = some c → s.enginesRun s.subject.who = true →
    let n := s.subject.who
    let f := s.subject.what
    let e := c.grants.get f
    ((f ∉ c.coldFrames ∨ e.getLsbD 0 = false) → exec .framePull s = .next s) ∧
    (f ∈ c.coldFrames → e.getLsbD 0 = true → ∀ m, s.machineOf c.parent ((e.extractLsb 47 21).toNat * 0x200000) = some m →
      (∀ image bytes place, s.subject.flag = false → n ∈ s.boot.keys → c.image = some place →
        s.holdsNamespace c.parent place = true → s.images.find? (fun i => i.ctx == n) = some image →
        image.frames.find f = some bytes → bytes.wf = true → m % 0x200000 = 0 → (∀ x ∈ bytes, x.1 < 0x200000) → Quiet s →
        ∃ t x, exec .framePull s = .next t ∧ (∀ k < 0x200000, t.byte (m + k) = bytes.get k) ∧
          (∀ a, (a < m ∨ m + 0x200000 ≤ a) → t.byte a = s.byte a) ∧ t.contexts.find n = some x ∧ f ∉ x.coldFrames ∧
          x.pullFailures = 0 ∧ ∀ k, k ≠ f → (k ∈ x.coldFrames ↔ k ∈ c.coldFrames)) ∧
      (s.subject.flag = true → c.pullFailures + 1 < 4 → c.state = .running →
        ∃ t x h, exec .framePull s = .next t ∧ t.contexts.find n = some x ∧ x.pullFailures = c.pullFailures + 1 ∧
          x.coldFrames = c.coldFrames ∧ x.state = .halting ∧ x.halt = some h ∧ h.forced = true ∧
          h.cause = .pageUnreachable ∧ t.mem = s.mem) ∧
      (s.subject.flag = true → 4 ≤ c.pullFailures + 1 → c.depth ≠ 0 → Quiet s → NoRing s →
        ∃ t x r p, exec .framePull s = .next t ∧ t.contexts.find n = some x ∧ x.state = .revoking ∧ x.revocation = some r ∧
          r.kind = 7 ∧ r.actor = c.parent ∧ t.pending = s.pending ++ [p] ∧ p.record.cause = .killed ∧ p.record.ctx = n))

/-- Records that wait are written in order as far as their rings have room: one that goes to a ring above its own is marked reflected, and
one whose ring is full keeps those of that ring behind it. The patrol scrubber reports each sector it cannot correct to the root's ring and
stops nothing (16 R334; 19 R396, R421). -/
def Sys2Proof.Claim.PendingAndPatrol : Prop :=
  (∀ s : State, s.pending = [] → exec .pendingRecordWrite s = .next s) ∧
  (∀ (s s1 : State) (left : List PendingRecord), writePending { s with pending := [] } [] s.pending = (s1, left) →
    exec .pendingRecordWrite s = .next { s1 with pending := left }) ∧
  (∀ (s : State) (full : List Nat) (p : PendingRecord) (rest : List PendingRecord),
    let ring := ((s.ringFor p.ring false 6).map fun x => x.1).getD 0
    let r := if ring = p.ring then p.record else { p.record with flags := p.record.flags ||| 16 }
    (∀ t, ring ∉ full → s.ringWrite ring r = some t → writePending s full (p :: rest) = writePending t full rest) ∧
    ((ring ∈ full ∨ s.ringWrite ring r = none) →
      writePending s full (p :: rest) =
        ((writePending s (ring :: full) rest).1, p :: (writePending s (ring :: full) rest).2))) ∧
  (∀ s : State, s.badSectors = [] → exec .patrolScrub s = .next s) ∧
  (∀ (s : State) (a : Nat), s.badSectors = [a] → s.pending = [] → NoRing s →
    ∃ t p, exec .patrolScrub s = .next t ∧ t.pending = [p] ∧ p.ring = 0 ∧ p.record.cause = .memoryUncorrectable ∧
      p.record.address = BitVec.ofNat 64 a ∧ t.contexts = s.contexts ∧ t.gangs = s.gangs ∧ t.mem = s.mem)

/-- An epoch marker raises its receiver's applied vector for its sender, markers of one pair in order; a write that comes over the host
link, or over one of the twelve quay links, writes its bytes at its addresses in HBM, host memory or a peer device's memory and nothing
else (05 R125, R136, R139; 16 R317; 21 R406). -/
def Sys2Proof.Claim.OutsideWritesAndMarkers : Prop :=
  (∀ s : State, (∀ m ∈ s.markers, ¬(m.src = s.subject.who ∧ m.dst = s.subject.what)) → exec .epochMarker s = .next s) ∧
  (∀ (s : State) (m : Marker) (before after : List Marker) (d : Die), s.markers = before ++ m :: after →
    m.src = s.subject.who → m.dst = s.subject.what →
    (∀ x ∈ before, ¬(x.src = s.subject.who ∧ x.dst = s.subject.what)) → s.dies[m.dst]? = some d →
    m.src < d.applied.length →
      ∃ t e, exec .epochMarker s = .next t ∧ t.markers = before ++ after ∧ t.dies[m.dst]? = some e ∧ e.epoch = d.epoch ∧
        (∀ i : Nat, e.applied[i]? = if i = m.src then some m.epoch else d.applied[i]?) ∧
        (∀ k : Nat, k ≠ m.dst → t.dies[k]? = s.dies[k]?) ∧ t.mem = s.mem ∧ t.gangs = s.gangs) ∧
  (∀ s : State, 12 ≤ s.subject.what → exec .quayLinkWrite s = .next s) ∧
  (∀ s : State, backedRange s.subject.who s.subject.data.length = false →
    exec .hostLinkWrite s = .next s ∧ exec .quayLinkWrite s = .next s) ∧
  (∀ s : State, backedRange s.subject.who s.subject.data.length = true → s.badSectors = [] →
    ∃ t, exec .hostLinkWrite s = .next t ∧ (s.subject.what < 12 → exec .quayLinkWrite s = .next t) ∧
      (∀ a, t.byte a = if s.subject.who ≤ a ∧ a < s.subject.who + s.subject.data.length
        then s.subject.data.getD (a - s.subject.who) 0 else s.byte a) ∧ { t with mem := s.mem } = s)

/-- A start: a reset fetches the image, or enters minimal mode after three failed starts; an image that keeps the format and is signed is
measured, and root firmware, its first stage of role 0, begins on hart 0 (log 47); each timeout, late, bad or unsigned image, late stage
or failed self-test counts a failed start under its reason code; the last stage to report ready sets the count to zero; and minimal mode
is left by a management request (21 R400, R401, R403). That a stage which has not been started has 60 s from when the image was found
good is log 47's choice. What a reset keeps is log 2, and whether a signature verifies log 19's free value. -/
def Obligations.StartEvents : Prop :=
  (∀ s : State, s.subject.flag = false → ∃ t, exec .deviceReset s = .next t ∧
    t.boot.phase = (if 3 ≤ s.boot.failedStarts then .minimal else .fetching) ∧ t.boot.failedStarts = s.boot.failedStarts ∧
    t.boot.startCount = s.boot.startCount + 1 ∧ t.boot.measurements = List.replicate 8 (List.replicate 64 0) ∧ t.clock = 0 ∧
    t.crews = [] ∧ t.gangs = [] ∧ t.contexts.keys = [0] ∧ t.boot.signatureIndex = s.boot.signatureIndex ∧
    t.boot.fused = s.boot.fused ∧ t.disabledCores = s.boot.fused.cores) ∧
  (∀ s : State, s.subject.flag = true → s.boot.failedStarts < 3 → ∃ t, exec .deviceReset s = .next t ∧
    t.boot.failedStarts = s.boot.failedStarts + 1 ∧ t.boot.lastReason = 6) ∧
  (∀ s : State, s.boot.phase = .fetching → s.subject.what < 8 → s.subject.who + s.subject.data.length ≤ 0x0040_0000_0000 →
    s.clock < clocksOf 120000000000 →
    let b := s.subject.data
    let n := fieldAt b 4 4
    (imageValid b = false → ∃ t, exec .imageFetched s = .next t ∧ t.boot.failedStarts = s.boot.failedStarts + 1 ∧
      t.boot.lastReason = 3) ∧
    (imageValid b = true → Config.imageSigned (b.take (0x10 + 16 * n)) ((b.drop (0x10 + 16 * n)).take 2500) = false →
      ∃ t, exec .imageFetched s = .next t ∧ t.boot.failedStarts = s.boot.failedStarts + 1 ∧ t.boot.lastReason = 2) ∧
    (imageValid b = true → Config.imageSigned (b.take (0x10 + 16 * n)) ((b.drop (0x10 + 16 * n)).take 2500) = true →
      ∃ t, exec .imageFetched s = .next t ∧ t.boot.phase = .starting ∧ t.boot.awaited = List.range n ∧ t.boot.since = s.clock ∧
        t.boot.failedStarts = s.boot.failedStarts ∧ t.boot.port = some s.subject.what ∧
        (∀ j < n, fieldAt b (0x1C + 16 * j) 4 = 0 → (∀ i < j, fieldAt b (0x1C + 16 * i) 4 ≠ 0) →
          t.boot.started = [(j, s.clock)] ∧ (t.hartAt 0).mode = .machine ∧
            (t.hartAt 0).pc.toNat = s.subject.who + fieldAt b (0x10 + 16 * j) 8) ∧
        (∀ a, t.byte a = if s.subject.who ≤ a ∧ a < s.subject.who + b.length then b.getD (a - s.subject.who) 0 else s.byte a) ∧
        ∀ old, s.boot.measurements[0]? = some old →
          t.boot.measurements[0]? = some (shake256 (old ++ shake256 (b.take (0x10 + 16 * n)))))) ∧
  (∀ s : State, s.boot.phase = .fetching →
    (s.clock < clocksOf 120000000000 → exec .imageFetchTimeout s = .next s) ∧
    (clocksOf 120000000000 ≤ s.clock → ∃ t, exec .imageFetchTimeout s = .next t ∧
      t.boot.failedStarts = s.boot.failedStarts + 1 ∧ t.boot.lastReason = 1) ∧
    (clocksOf 120000000000 ≤ s.clock → s.subject.what < 8 → s.subject.who + s.subject.data.length ≤ 0x0040_0000_0000 →
      ∃ t, exec .imageFetched s = .next t ∧ t.boot.failedStarts = s.boot.failedStarts + 1 ∧ t.boot.lastReason = 1)) ∧
  (∀ s : State, s.boot.phase = .starting →
    let late := ∃ j ∈ s.boot.awaited, (∃ x ∈ s.boot.started, x.1 = j ∧ x.2 + clocksOf 60000000000 ≤ s.clock) ∨
      ((∀ x ∈ s.boot.started, x.1 ≠ j) ∧ s.boot.since + clocksOf 60000000000 ≤ s.clock)
    let started := ∃ x ∈ s.boot.started, x.1 = s.subject.who
    (¬late → exec .stageReadyTimeout s = .next s) ∧
    (late → ∃ t, exec .stageReadyTimeout s = .next t ∧ t.boot.failedStarts = s.boot.failedStarts + 1 ∧ t.boot.lastReason = 4) ∧
    (¬started → exec .stageReady s = .next s) ∧
    (started → late → ∃ t, exec .stageReady s = .next t ∧ t.boot.failedStarts = s.boot.failedStarts + 1 ∧
      t.boot.lastReason = 4) ∧
    (started → ¬late → (∀ j ∈ s.boot.awaited, j = s.subject.who) → ∃ t, exec .stageReady s = .next t ∧
      t.boot.phase = .running ∧ t.boot.failedStarts = 0 ∧ { t with boot := s.boot } = s) ∧
    (started → ¬late → (∃ j ∈ s.boot.awaited, j ≠ s.subject.who) → exec .stageReady s =
      .next { s with boot := { s.boot with awaited := s.boot.awaited.filter fun j => j != s.subject.who } })) ∧
  (∀ s : State, (s.boot.phase = .minimal → ∃ t, exec .minimalModeRetry s = .next t ∧ t.boot.failedStarts = 2 ∧
      t.boot.phase = .fetching) ∧ (s.boot.phase ≠ .minimal → exec .minimalModeRetry s = .next s))

/-- A nonce of 32 bytes is answered by a report that carries the registers, the nonce and the next signature index, which is burned; a
sensor resets the device, erasing the keys first where its action says so, or logs a record with cause none; without power the machine
stops; and a management request is answered: with the reason of the last failed start, the marks of disabled units, the sensors' readings
and actions, the corrected errors by storage kind and die, or every context's counters (21 R402, R404, R407). The requests' numbers and the
form of the answers are log 49's choice; that a step without power is a fault is log 25. -/
def Obligations.AttestationSensorsPower : Prop :=
  (∀ s : State, s.subject.data.length = 32 → s.subject.flag = false → s.boot.signatureIndex < 2 ^ 20 →
    ∃ t r, exec .measurementReport s = .next t ∧ t.boot.signatureIndex = s.boot.signatureIndex + 1 ∧
      t.boot.reports = s.boot.reports ++ [r] ∧ r.nonce = s.subject.data ∧ r.registers = s.boot.measurements ∧
      r.index.toNat = s.boot.signatureIndex ∧ r.startCount = s.boot.startCount ∧ r.serialNumber.length = 16 ∧
      r.signature.length = 2820 ∧ { t with boot := s.boot } = s) ∧
  (∀ s : State, s.subject.data.length = 32 → s.subject.flag = false → 2 ^ 20 ≤ s.boot.signatureIndex →
    ∃ t r, exec .measurementReport s = .next t ∧ t.boot.signatureIndex = s.boot.signatureIndex ∧
      t.boot.reports = s.boot.reports ++ [r] ∧ r.index = 0xFFFFFFFF ∧ r.signature = List.replicate 2820 0) ∧
  (∀ (s : State) (i : Nat) (a : SensorAction), i < 4 → s.subject.who = 2 ^ i → s.boot.sensorActions[i]? = some a →
    (a = .log → NoRing s → ∃ t p, exec .securitySensor s = .next t ∧ t.pending = s.pending ++ [p] ∧
      p.ring = 0 ∧ p.record.cause = .none ∧ p.record.flags = 0 ∧ { t with pending := s.pending } = s) ∧
    (a ≠ .log → ∃ t, exec .securitySensor s = .next t ∧ t.boot.failedStarts = s.boot.failedStarts + 1 ∧
      t.boot.lastReason = 5 ∧ t.boot.keys = [])) ∧
  (∀ s : State, exec .powerRemoved s = .next { s with powered := false }) ∧
  (∀ s : State, s.powered = false → step s = .fault .noPower) ∧
  (∀ s : State, exec .managementRequest s =
    .next { s with boot := { s.boot with answer := s.managementAnswer s.subject.what } }) ∧
  (∀ s : State, s.managementAnswer 0 = [s.boot.lastReason] ∧
    (∀ k, k ∈ s.managementAnswer 1 ↔ k ∈ s.disabledCores ∨ ∃ e ∈ s.cores,
      (∃ p ∈ e.2.disabledPartitions, k = 1000 + 16 * e.1 + p) ∨ (e.2.gantryDisabled = true ∧ k = 10000 + e.1)) ∧
    s.managementAnswer 2 = s.subject.data.map (fun b => b.toNat) ++ s.boot.sensorActions.map (fun a =>
      match a with
      | .log => 0
      | .halt => 1
      | .erase => 2) ∧
    (s.managementAnswer 3).length = 35 ∧
    (∀ kind die, kind < 7 → die < 5 → (s.managementAnswer 3)[5 * kind + die]? = some (s.boot.corrected.get (5 * kind + die)).toNat) ∧
    ∀ k, 4 ≤ k →
      s.managementAnswer k = s.contexts.flatMap fun e => [e.1, e.2.budget.time.toNat, e.2.budget.energy.toNat])

namespace Sys2Proof.Claim
open Sys2Proof.Machine

/-! ### Launching from a kernel, steps, words and memory -/

/-- Words of the spec's encoding examples for gangs, and what each stands for (02, 03, 04, 07, 08, 09, 11, 12, 17). -/
def sampleWords : List (Nat × Instr) :=
  ([(0x00000000, .nop), (0x020A1838, .iadd false 5 6 7), (0x2B060FFC, .addi true 3 3 0x3FC),
   (0x2204102A, .icmpLt false 2 4 5), (0x0A081431, .iquoU false 4 5 6), (0x19142C62, .sar true 10 11 12),
   (0x28102022, .lea false 8 8 4 2), (0x32060C27, .shri false 3 3 7), (0x350A5678, .movi true 5 0x5678),
   (0x380E5001, .bcast 7 20), (0x38062422, .rdlane 3 9 4), (0x3B0C0C05, .pcnt 6 3), (0xE06FFFFD, .br 3 false 0xFFFFD),
   (0xE400000A, .call 0xA), (0xEC000000, .exit), (0xEE120001, .rsr false 9 1), (0xF0060000 + 10, .wsrSrkey 3),
   (0xF2000D21, .trapif 3 0x21), (0xE8000001, .regang), (0xEA000943, .await 2 40)] : List (Nat × Instr)) ++
  ([(0x40100818, .fadd 8 2 3), (0x52142C01, .frsq 10 11), (0x580C1C01, .cvt 6 7 1), (0x660A1838, .rng 5 6 7),
   (0x6828302C, .shflBcast 20 12 5), (0x6A0E2400, .vredFadd 7 9), (0x80800490, .mma 1 false 0 2 2 1),
   (0x84004000, .azero 1), (0x8C204600, .arowGet 8 1 12), (0x8E000008, .convoyNone), (0x90144068, .ld 5 4 3 2 0),
   (0x92144068, .st 5 4 3 2 0), (0x98185FF4, .ldacq 6 5 127 5), (0x9C24406C, .atomAdd 9 4 3 3),
   (0xA2106055, .mredFadd 4 6 2 5), (0xA60C2018, .mrlookVector 6 8 3), (0xB8008400, .hmk 2 8), (0xCA000017, .fenceSc 5),
   (0xCE000A01, .cyield 20 1), (0xD8008002, .clbinv 2 2), (0xD800820C, .clbinvTile 2 4 4), (0xDA000000, .berth), (0xDE140001, .tideAge 10)] :
    List (Nat × Instr))

/-- Words of the spec's encoding examples for harts (16). -/
def sampleHartWords : List (Nat × Instr) :=
  [(0x00C5850B, .ctxNew 12 11 10), (0x00C5950B, .ctxGrant 12 11 10), (0x0005B50B, .ctxGo 11 10),
   (0x02C5B50B, .ctxHaltQuery 12 11 10), (0x00C5E00B, .tlbinvVirtual 12 11), (0x0000700B, .tlbfence)]

/-- Context instructions that only their registers tell apart share a word; this is the one that a decoder reads (16 R335). -/
def spelled : Instr → Instr
  | .ctxNewRoot p b d => .ctxNew p b d
  | .ctxRevokeCold b c d => .ctxRevoke b c d
  | .ctxHaltSoft m c d => .ctxHaltQuery m c d
  | .ctxHaltForced m c d => .ctxHaltQuery m c d
  | .tlbinvFrames a c => .tlbinvVirtual a c
  | i => i

/-- A hart's word. -/
def hartRow (i : Instr) : Bool :=
  match i with
  | .ctxNew .. | .ctxNewRoot .. | .ctxGrant .. | .ctxRevoke .. | .ctxRevokeCold .. | .ctxGo .. | .ctxHaltQuery ..
  | .ctxHaltSoft .. | .ctxHaltForced .. | .ctxBudget .. | .ctxScope .. | .tlbinvVirtual .. | .tlbinvFrames .. | .tlbfence => true
  | _ => false

end Sys2Proof.Claim

open Sys2Proof Sys2Proof.Machine Sys2Proof.Claim

/-- `lnch` releases, appends a record address to a queue of its context, as the entry at the tail and a tail one higher, and brings the
count before it into s(d), or −1 where the queue is full or disabled; an address that is no record's is a trap, and so is a queue the context does not have (13 R300). -/
def Sys2Proof.Claim.LaunchAppendResult : Prop :=
  ∀ (s : State) (g : Gang) (c : Context) (d a b : BitVec 7), s.Issues g → s.contexts.find g.ctx = some c →
    a.toNat % 2 = 0 → s.Settled g [] [d.toNat, a.toNat, a.toNat + 1, b.toNat] →
    let address := g.spair a.toNat
    let q := (g.sreg b.toNat).toNat
    (2 ^ 48 ≤ address.toNat → exec (.lnch d a b) s =
      .next (s.trapAt (s.issuing g) .protection (g.enabled s.group) address)) ∧
    (address.toNat < 2 ^ 48 → address.toNat % 256 ≠ 0 → exec (.lnch d a b) s =
      .next (s.trapAt (s.issuing g) .misaligned (g.enabled s.group) address)) ∧
    (address.toNat < 2 ^ 48 → address.toNat % 256 = 0 → c.queues ≤ q → exec (.lnch d a b) s =
      .next (s.trapAt (s.issuing g) .protection (g.enabled s.group) 0)) ∧
    (address.toNat < 2 ^ 48 → address.toNat % 256 = 0 → q < c.queues → s.hasLogged s.gang = false →
      (∀ count r, Run.append (Run.start s (s.issuing g).stamp) (coreOf s.gang) g.ctx c q address.toNat = (.ok count, r) →
        let x := count.getD 0xFFFFFFFF
        ∃ t h ld, exec (.lnch d a b) s = .next (if count = none then t else t.ring g.ctx q) ∧ t.mem = r.st.mem ∧
          t.dies = (r.st.release (coreOf s.gang)).dies ∧ t.markers = (r.st.release (coreOf s.gang)).markers ∧
          t.gangs.find s.gang = some h ∧ h.loads = g.loads ++ [ld] ∧ ld.scalar = true ∧ ld.dests = [d.toNat] ∧
          ld.sectors = sectorsOf (piecesOf true d.toNat 0 0 4 fun i => byteOf (x.setWidth 128) i) (fun _ => 0) ∧ h.v = g.v ∧
          h.s = g.s) ∧
      ∀ (place : Nat → Nat), c.queueTable % 64 = 0 →
        let va := c.queueTable + 64 * q
        let bytes := (List.range 64).map fun i => s.byte (place (va + i))
        (∀ e, QueueDesc.of va bytes = some e → e.enabled = true → e.pending ≠ e.n →
          Mapped s (coreOf s.gang) g.ctx g.crew (s.issuing g).stamp false place
            (fun x => (va ≤ x ∧ x < va + 64) ∨ (e.entry e.tail ≤ x ∧ x < e.entry e.tail + 32)) →
          ∃ t : State, exec (.lnch d a b) s = .next (t.ring g.ctx q) ∧ ∀ x, t.byte x =
            if place (va + 20) ≤ x ∧ x < place (va + 20) + 4 then BitVec.ofNat 8 ((e.tail + 1) % 2 ^ 32 / 256 ^ (x - place (va + 20)))
            else if place (e.entry e.tail) ≤ x ∧ x < place (e.entry e.tail) + 32 then
              BitVec.ofNat 8 (address.toNat / 256 ^ (x - place (e.entry e.tail))) else s.byte x) ∧
        ((∀ e, QueueDesc.of va bytes = some e → e.enabled = true → e.pending = e.n) →
          Mapped s (coreOf s.gang) g.ctx g.crew (s.issuing g).stamp false place (fun x => va ≤ x ∧ x < va + 64) →
          ∃ t, exec (.lnch d a b) s = .next t ∧ ∀ x, t.byte x = s.byte x)) ∧
    (∀ bytes r1 (r : Run), r.readGlobal (coreOf s.gang) g.ctx 65 (c.queueTable + 64 * q) 64 = (.ok bytes, r1) →
      ((∀ e, QueueDesc.of (c.queueTable + 64 * q) bytes = some e → e.enabled = true → e.pending = e.n) →
        r.append (coreOf s.gang) g.ctx c q address.toNat = (.ok none, r1)) ∧
      (∀ e r2 r3 m n, QueueDesc.of (c.queueTable + 64 * q) bytes = some e → e.enabled = true → e.pending ≠ e.n →
        r1.resolve (coreOf s.gang) g.ctx .heldStore 33 (e.entry e.tail) (bytesOf 32 address.toNat) =
          (.ok [(.mem m, bytesOf 32 address.toNat)], r2) →
        r2.reach (coreOf s.gang) g.ctx (c.queueTable + 64 * q + 0x14) 4 .atomic = (.ok (.mem n), r3) →
          ∃ u, r.append (coreOf s.gang) g.ctx c q address.toNat = (.ok (some (BitVec.ofNat 32 e.tail)), u) ∧
            ∀ b, u.st.byte b =
              if n ≤ b ∧ b < n + 4 then BitVec.ofNat 8 ((e.tail + 1) % 2 ^ 32 / 256 ^ (b - n))
              else if m ≤ b ∧ b < m + 32 then BitVec.ofNat 8 (address.toNat / 256 ^ (b - m)) else r3.st.byte b))

/-- Right after reset the root is the one context, of number and depth 0, running with all its resources and both scopes and not yet configured;
the timestamp and the measurement registers are zero, the timers and the sensors' actions are at their defaults, no crew is resident, no
word of scratchpad is set, the firmware's image is being fetched, and memory is in its canonical form (16 R314, R337, R339; 19 R379; 21
R400, R401, R404, R405). That memory lists nothing is log 1's choice, and that no start has failed log 2's. -/
def Obligations.ResetState : Prop :=
  let s := State.reset
  s.contexts.keys = [0] ∧ s.clock = 0 ∧ s.timestamp = 0 ∧ s.crews = [] ∧ s.gangs = [] ∧ s.commands = [] ∧ s.graceNs = 500000 ∧
    s.killNs = 20000000 ∧ s.boot.phase = .fetching ∧ s.boot.port = none ∧ s.boot.started = [] ∧ s.boot.failedStarts = 0 ∧ s.boot.measurements = List.replicate 8 (List.replicate 64 0) ∧
    s.boot.sensorActions = [.erase, .halt, .halt, .halt] ∧ Memory.wf s.mem = true ∧
    (∀ n a, (s.core n).scratch.get a = 0) ∧
    ∃ c, s.contexts.find 0 = some c ∧ c.depth = 0 ∧ c.state = .running ∧ c.configured = false ∧ c.scope = 3 ∧
      c.cores = List.range 192 ∧ c.gpCores = List.range 16 ∧ c.ports = List.range 8 ∧ c.launches = [] ∧ c.halt = none

/-- A step runs the decoded instruction: an issue port's turn gives the word at the pc of the first gang in its rotation to `exec`, a word
that stands for none or cannot be fetched being an exception, and then only ports and budgets are charged, or, where the instruction waits,
the turn passes to the rotation's next; a scratchpad access also waits for its port (03 R71; 08 R214). A hart's turn gives it the hart's
context instruction, or reads the `time` CSR, and an event's turn gives it the event; the energy of what a turn replays and walks is drawn
besides (11 R249; 13 R306; 02 R36, R53; 16 R335, R341; 21 R400, R405). That the agenda orders turns is log 5, the CSR's encoding log 23, and
the scratchpad port during the clocks of an `xhist` log 40. -/
def Obligations.StepRunsDecodedInstruction : Prop :=
  (∀ (s : State) (core partition port : Nat) (rest : List Turn) (owner : Nat) (others : List Nat) (key group : Nat)
      (later : List (Nat × Nat)) (g : Gang), s.powered = true → s.agenda = .port core partition port :: rest →
    let s0 : State := { s with agenda := rest, idle := false }
    let last := (s0.core core).port (portKey partition port) |>.last
    s0.rotation core partition port last = owner :: others →
    ((s0.core core).port (portKey partition port)).busy ≤ s.clock →
    s0.candidates core partition port last = (key, group) :: later →
    let s1 : State :=
      { s0.setPort core (portKey partition port) { last := owner + 1, busy := s.clock + 1 } with
        gang := key, group := group, idle := false }
    s1.gangs.find key = some g → g.members group ≠ [] → s1.mayIssue key g = true →
    (∀ w s2 i t, s1.fetch (coreOf key) g.ctx (g.pc group) = (.ok w, s2) → decode w = .ok i →
      (usesPad i = true → ((s2.core (coreOf s2.gang)).port (padKey (s2.gang / 8 % 16))).busy ≤
        s2.padStart i (s2.occupancy g s2.group i)) →
      exec i s2 = .next t → step s = s0.drawing
        (if t.idle then State.offer exec later t else .next (s2.charge t g (s2.occupying g (g.pc s2.group) i)))) ∧
    (∀ w s2 i, s1.fetch (coreOf key) g.ctx (g.pc group) = (.ok w, s2) → decode w = .ok i → usesPad i = true →
      s2.padStart i (s2.occupancy g s2.group i) < ((s2.core (coreOf s2.gang)).port (padKey (s2.gang / 8 % 16))).busy →
      step s = s0.drawing (State.offer exec later { s2 with idle := true })) ∧
    (∀ w s2 e t, s1.fetch (coreOf key) g.ctx (g.pc group) = (.ok w, s2) → decode w = .error e →
      exec .illegalInstruction s2 = .next t → step s = s0.drawing
        (if t.idle then State.offer exec later t
          else .next (s2.charge t g (s2.occupying g (g.pc s2.group) .illegalInstruction)))) ∧
    (∀ f s2 t, s1.fetch (coreOf key) g.ctx (g.pc group) = (.error f, s2) →
      exec .instructionFetchFault { s2 with fetchFault := some f } = .next t → step s = s0.drawing
        (if t.idle then State.offer exec later t else .next t)) ∧
    (∀ t, s0.drawing (.next t) = .next (s0.drawReplays t))) ∧
  (∀ (s : State) (n : Nat) (rest : List Turn) (lo hi : Nat), s.powered = true → s.agenda = .hart n :: rest → n < 16 →
    (s.hartAt n).fencing = none → s.boot.phase ≠ .fetching →
    let s1 : State := { s with agenda := rest, idle := false }
    let s0 : State := { s1 with hart := n }
    s0.fetchHalf (s0.callerOf n) (s.hartAt n).pc = some lo → lo % 4 = 3 →
    s0.fetchHalf (s0.callerOf n) ((s.hartAt n).pc + 2) = some hi →
    let w := lo + 65536 * hi
    (∀ i, decodeHart w = .ok i → step s = s1.drawing (exec (s0.selectRow (s.hartAt n) i) s0)) ∧
    (decodeHart w = .error .unassignedOpcode → readsTime w = true →
      ∃ h, step s = .next (s1.drawReplays (s0.setHart n h)) ∧ h.pc = (s.hartAt n).pc + 4 ∧
        ∀ r : BitVec 5, h.reg r = if r.toNat = w / 128 % 32 ∧ r ≠ 0 then BitVec.ofNat 64 s.timestamp else (s.hartAt n).reg r)) ∧
  (∀ (s t : State) (e : Instr) (x : Subject) (rest : List Turn), s.powered = true → s.agenda = .event e x :: rest →
    isEvent e = true →
    let s0 : State := { s with agenda := rest, idle := false }
    exec e { s0 with subject := x } = .next t → step s = .next (s0.drawReplays (s0.drawEvent t e x)))

/-- A few words that the spec writes out decode to the instructions they stand for: gangs' words in the formats, operand fields and opcode
map of 02 R37-R53, from that file's tables and the sections "Encodings" of 03, 04, 07, 08, 09, 11, 12 and 17, and harts' words in the layout
of 16 R335, from the section "Encodings" of 16. -/
def Obligations.DecodeSampleWords : Prop :=
  (∀ x ∈ sampleWords, decode x.1 = .ok x.2) ∧ (∀ x ∈ sampleHartWords, decodeHart x.1 = .ok x.2)

/-- Every well-formed instruction that has a word fits it in 32 bits, and its word decodes to it, with every operand at every value; a
context instruction that shares its word decodes to the one spelled there (02 R37-R53; 16 R335). -/
def Sys2Proof.Claim.EncodeDecodeRoundTrip : Prop :=
  ∀ (i : Instr) (w : Nat), i.wf = true → encode i = some w →
    w < 2 ^ 32 ∧ (if hartRow i then decodeHart w = .ok (spelled i) else decode w = .ok i)

/-- Every word that decodes is the word of what it decodes to: no bit of an instruction is ignored (02 R42, R53; 16 R335). -/
def Sys2Proof.Claim.NoBitIgnored : Prop :=
  ∀ (i : Instr) (w : Nat), w < 2 ^ 32 → (decode w = .ok i ∨ decodeHart w = .ok i) → encode i = some w

/-- Every step keeps machine memory in its canonical form, addresses rising and nothing listed that reads as an unlisted byte, from any
state that has it (log 1, log 5). -/
def Obligations.MemoryStaysCanonical : Prop :=
  ∀ s t : State, Memory.wf s.mem = true → step s = .next t → Memory.wf t.mem = true

/-- Memory: a read gives what the last write of those bytes gave, little-endian; a write of `n` bytes changes those bytes alone, wraps
nowhere, and keeps the canonical form; and memories in canonical form that read alike are equal (00 R4). What
an unlisted byte reads as is log 1's choice. -/
def Obligations.MemoryReadWrite : Prop :=
  (∀ (s : State) (a n v : Nat), (s.write a n v).read a n = v % 256 ^ n ∧
    (∀ b, (s.write a n v).byte b = if a ≤ b ∧ b < a + n then BitVec.ofNat 8 (v / 256 ^ (b - a)) else s.byte b) ∧
    (Memory.wf s.mem = true → Memory.wf (s.write a n v).mem = true) ∧ { s.write a n v with mem := s.mem } = s) ∧
  (∀ s t : State, Memory.wf s.mem = true → Memory.wf t.mem = true → (∀ a, s.byte a = t.byte a) → s.mem = t.mem)

/-! ### Statements of several parts -/

/-- The integer instructions in vector and scalar form, each part stated above. -/
def Obligations.IntegerResult : Prop := VectorIntegerResult ∧ ScalarIntegerResult

/-- The 64-bit forms on register pairs, and moves between classes, each part stated above. -/
def Obligations.PairsAndMoves : Prop := PairResult ∧ PairSingleSources ∧ MoveBetweenClasses

/-- Predicate instructions, and how predicates read and are written, each part stated above. -/
def Obligations.PredicateOperations : Prop := PredicateResult ∧ PredicateZeroReadsTrue ∧ PredicateWriteLanes

/-- Reductions and scans, each part stated above. -/
def Obligations.ReduceAndScan : Prop := IntegerReduceAndScan ∧ FloatReduceAndScan

/-- Rounding, delivery and the exact results of element functions, each part stated above. -/
def Obligations.RoundingResult : Prop := RoundingChoosesNeighbour ∧ DeliveredValues ∧ ExactOperations

/-- Floating-point comparisons, classification and conversions, each part stated above. -/
def Obligations.CompareClassConvert : Prop := FloatCompareClass ∧ CompareOrder ∧ ConversionResult ∧ IntegerFromFloat ∧ ConvertedElement ∧ ClassesAndBins

/-- Scaling, dot products and histograms, each part stated above. -/
def Obligations.ScaleDotHistogram : Prop := ScaleAndDotResult ∧ DotSumExact ∧ HistogramResult ∧ HistogramTraps ∧ BinsCounted

/-- Modifier words, each part stated above. -/
def Obligations.ModifierPairResult : Prop := ModifierPairRuns ∧ ModifierIllegal ∧ ModifiedDrainSent

/-- Branches, and that no lane is lost, each part stated above. -/
def Obligations.Branches : Prop := BranchResult ∧ BranchLosesNoLane

/-- Jumps, calls, returns, joins, `nop`, `regang` and `exit`, each part stated above. -/
def Obligations.JumpsJoinsExits : Prop := JumpResult ∧ JoinResult ∧ NopRegangExit ∧ ExitRemovesLanes

/-- Barriers: what they do, their timeout and their misuse, each part stated above. -/
def Obligations.Barriers : Prop := BarrierResult ∧ BarrierTimeoutStops ∧ BarrierMisuseTrap ∧ BarredGangStops

/-- Special registers, and the trim values that trap, each part stated above. -/
def Obligations.SpecialRegisters : Prop := SpecialRegisterValues ∧ SpecialRegisterResult ∧ ReservedTrimTraps

/-- Software traps, and what taking a stop-class trap saves and changes, each part stated above. -/
def Obligations.SoftwareTraps : Prop := SoftwareTrapResult ∧ StopTrapEntry

/-- What does not issue: bad words, failed fetches, absent registers, formats not accepted, each part stated above. -/
def Obligations.IssueChecks : Prop := WordsThatDoNotIssue ∧ RegisterRangeTrap ∧ FormatTrap

/-- What a register write and the advance of the pc leave unchanged, each part stated above. -/
def Obligations.RegisterFrames : Prop := VectorRegisterFrame ∧ ScalarRegisterFrame ∧ AdvanceMovesPc

/-- Loads, from issue to the landing of their sectors, each part stated above. -/
def Obligations.Loads : Prop := LoadReadsMemory ∧ LoadSectorLands

/-- Stores, and those of their lanes that fault, each part stated above. -/
def Obligations.Stores : Prop := StoreWritesMemory ∧ StoreWinners ∧ FaultingStoreIsLogged

/-- Reductions and atomics, each part stated above. -/
def Obligations.ReductionsAndAtomics : Prop := ReductionUpdatesMemory ∧ AtomicUpdatesMemory ∧ OrderedAppendResult

/-- The checks of accesses, each part stated above. -/
def Obligations.AccessTraps : Prop := AccessCheckTraps ∧ ReproducibleFloatAtomicTraps ∧ ScopeDeniedTrap

/-- Scratchpad accesses and mooring instructions, each part stated above. -/
def Obligations.ScratchpadAndMooring : Prop := ScratchpadAccessResult ∧ MooringTableResult ∧ MooringLookups

/-- Counters, and yields on them, each part stated above. -/
def Obligations.CountersAndYields : Prop := CounterWaitResult ∧ YieldAndResume

/-- Fences and releases, each part stated above. -/
def Obligations.FencesAndReleases : Prop := FenceResult ∧ ReleaseBeginsEpoch

/-- Commands of the crane and the lighter, each part stated above. -/
def Obligations.EngineCommandsSent : Prop := CopyCommandSent ∧ BlockCommandsSent

/-- The end of an engine command, and an access of it that fails, each part stated above. -/
def Obligations.EngineCommandCompletes : Prop := EngineCommandResult ∧ EngineAccessFails

/-- The effects of crane and lighter commands, each part stated above. -/
def Obligations.EngineEffects : Prop := CopyEffect ∧ TileEffect ∧ DequantEffect ∧ LighterEffect

/-- The pilot, each part stated above. -/
def Obligations.PilotResult : Prop := PilotChainResult ∧ PilotNoticeResult

/-- Convoys and matrix instructions, each part stated above. -/
def Obligations.ConvoysAndMatrix : Prop := ConvoySelection ∧ SoloMatrixSent ∧ ConvoyRendezvous

/-- The matrix result, each part stated above. -/
def Obligations.MatrixResult : Prop := PartialSumResult ∧ PromotionResult ∧ JointEffect

/-- Accumulator commands as they issue, each part stated above. -/
def Obligations.AccumulatorCommands : Prop := AccumulatorCommandsSent ∧ AccumulatorHeldOrDisabled

/-- What gantry commands do, each part stated above. -/
def Obligations.AccumulatorEffects : Prop := RowsAndZeros ∧ DrainEffect ∧ PeerEffect

/-- Loads and stores by coordinates, each part stated above. -/
def Obligations.ChartAccess : Prop := ChartWalkResult ∧ ChartElementResult ∧ ChartLoadResult ∧ ChartStoreResult ∧ ChartAbsentTile

/-- Allocation of chart tiles, each part stated above. -/
def Obligations.ChartAllocation : Prop := AllocationFills ∧ AllocationLinks ∧ SwapSettles ∧ StoreGoesOn ∧ TileOffsetsAreDistinct

/-- Queries, freeing and invalidation of charts, and their handles, each part stated above. -/
def Obligations.ChartMaintenance : Prop := ChartQueryResult ∧ ChartFreeResult ∧ ChartInvalidateResult ∧ ChartHandleTraps

/-- Manifests and the tide, each part stated above. -/
def Obligations.ManifestAndTide : Prop := ManifestResult ∧ TideResult

/-- Lane refill, each part stated above. -/
def Obligations.LaneRefill : Prop := BerthResult ∧ RefillCheckResult ∧ RetireStepEnds ∧ DrawAssignsAges ∧ TidemarkNeverFalls

/-- Context instructions that are not performed, and the frame of those that are, each part stated above. -/
def Obligations.ContextInstructionTraps : Prop := ContextInstructionIllegal ∧ NotBelowStatus ∧ AnswerFrame

/-- Scope policies and budgets, each part stated above. -/
def Obligations.ScopeAndBudget : Prop := ScopeResult ∧ BudgetResult

/-- Revocations from issue to end, each part stated above. -/
def Obligations.Revocations : Prop := RevokeResult ∧ RevocationEndResult

/-- `ctx.go`, `ctx.halt` and the restore of a halted context, each part stated above. -/
def Obligations.HaltsAndResumption : Prop := GoAndHaltResult ∧ RestoreResult

/-- Launches from append to completion, each part stated above. -/
def Obligations.Launches : Prop := LaunchAcceptResult ∧ LaunchCompleteResult ∧ LaunchAppendResult

/-- The ladder and the end of a halt, each part stated above. -/
def Obligations.HaltLadder : Prop := LadderEvents ∧ HaltCompleteResult

/-- Pulls, pending records, patrol, markers and outside writes, each part stated above. -/
def Obligations.PullsRecordsWrites : Prop := FramePullResult ∧ PendingAndPatrol ∧ OutsideWritesAndMarkers

/-- Decoding inverts encoding, and encoding decoding, each part stated above. -/
def Obligations.EncodeDecode : Prop := EncodeDecodeRoundTrip ∧ NoBitIgnored
end

