-- ==== Sys2Proof/Laws/Cells.lean ====
section
/-!
SUPPORT. Sparse values and tables: what is read after a write, and the canonical form that every write keeps.
-/
namespace Sys2Proof.Machine

/-! ### Reading after a write -/

@[simp] theorem Cells.get_nil {w : Nat} (key : Nat) : Cells.get ([] : Cells w) key = 0 := rfl

theorem Cells.get_cons {w : Nat} (k : Nat) (x : BitVec w) (c : Cells w) (key : Nat) :
    Cells.get ((k, x) :: c) key = if k = key then x else Cells.get c key := rfl

theorem Cells.get_put {w : Nat} (c : Cells w) (key : Nat) (x : BitVec w) (k : Nat) :
    (c.put key x).get k = if key = k then x else c.get k := by
  induction c with
  | nil => simp [Cells.put, Cells.get]
  | cons e rest ih =>
    obtain ⟨j, y⟩ := e
    simp only [Cells.put]
    split
    · rfl
    · split
      · rename_i h
        subst h
        simp only [Cells.get_cons]
        split <;> simp_all
      · simp only [Cells.get_cons, ih]
        split
        · split
          · omega
          · rfl
        · rfl

theorem Cells.get_filter_key {w : Nat} (c : Cells w) (p : Nat → Bool) (k : Nat) :
    Cells.get (c.filter fun e => p e.1) k = if p k then c.get k else 0 := by
  induction c with
  | nil => simp
  | cons e rest ih =>
    obtain ⟨j, y⟩ := e
    by_cases hp : p j = true
    · simp only [List.filter_cons, hp, ↓reduceIte, Cells.get_cons, ih]
      by_cases hj : j = k
      · subst hj; simp [hp]
      · simp [hj]
    · simp only [List.filter_cons, hp, Bool.false_eq_true, ↓reduceIte, ih, Cells.get_cons]
      by_cases hj : j = k
      · subst hj; simp [hp]
      · simp [hj]

/-- A read after a write gives the value written at its key, and what it gave before at every other. -/
@[simp] theorem Cells.get_set {w : Nat} (c : Cells w) (key : Nat) (x : BitVec w) (k : Nat) :
    (c.set key x).get k = if key = k then x else c.get k := by
  unfold Cells.set
  split
  · rename_i h
    subst h
    rw [Cells.get_filter_key c (fun j => j != key) k]
    by_cases hk : key = k
    · simp [hk]
    · have : k ≠ key := fun h => hk h.symm
      simp [hk, this]
  · exact Cells.get_put c key x k

/-- The value at a key no write of the list names is as before. -/
theorem Cells.get_setAll_other {w : Nat} (c : Cells w) (keys : List Nat) (key : Nat → Nat) (f : Nat → BitVec w) (k : Nat)
    (h : ∀ l ∈ keys, key l ≠ k) : (c.setAll keys key f).get k = c.get k := by
  unfold Cells.setAll
  induction keys generalizing c with
  | nil => rfl
  | cons a rest ih =>
    rw [List.foldl_cons, ih _ fun l hl => h l (List.mem_cons_of_mem a hl)]
    rw [Cells.get_set]
    simp [h a (List.mem_cons_self ..)]

/-- Writes at keys that tell the lanes apart give each its value. -/
theorem Cells.get_setAll_self {w : Nat} (c : Cells w) (keys : List Nat) (key : Nat → Nat) (f : Nat → BitVec w) (l : Nat)
    (hl : l ∈ keys) (h : ∀ a ∈ keys, key a = key l → a = l) : (c.setAll keys key f).get (key l) = f l := by
  unfold Cells.setAll
  induction keys generalizing c with
  | nil => cases hl
  | cons a rest ih =>
    rw [List.foldl_cons]
    by_cases hr : l ∈ rest
    · exact ih _ hr fun b hb hk => h b (List.mem_cons_of_mem a hb) hk
    · have ha : a = l := by
        rcases List.mem_cons.mp hl with h1 | h1
        · exact h1.symm
        · exact absurd h1 hr
      subst ha
      have := Cells.get_setAll_other (c.set (key a) (f a)) rest key f (key a) fun b hb hk =>
        hr (h b (List.mem_cons_of_mem a hb) hk ▸ hb)
      unfold Cells.setAll at this
      rw [this, Cells.get_set]
      simp

/-! ### Tables -/

@[simp] theorem Table.find_put {α : Type} (t : Table α) (key : Nat) (x : α) (k : Nat) :
    (t.put key x).find k = if key = k then some x else t.find k := by
  induction t with
  | nil => simp [Table.put, Table.find]
  | cons e rest ih =>
    obtain ⟨j, y⟩ := e
    simp only [Table.put]
    split
    · rfl
    · split
      · rename_i h
        subst h
        simp only [Table.find]
        split <;> simp_all
      · simp only [Table.find, ih]
        split
        · split
          · omega
          · rfl
        · rfl

@[simp] theorem Table.find_update {α : Type} (t : Table α) (f : Nat → α → α) (k : Nat) :
    (t.update f).find k = (t.find k).map (f k) := by
  induction t with
  | nil => rfl
  | cons e rest ih =>
    obtain ⟨j, y⟩ := e
    simp only [Table.update, List.map_cons, Table.find] at ih ⊢
    by_cases h : j = k
    · subst h; simp
    · simp only [h, ↓reduceIte]; exact ih

theorem Table.find_filter_key {α : Type} (t : Table α) (p : Nat → Bool) (k : Nat) :
    Table.find (t.filter fun e => p e.1) k = if p k then t.find k else none := by
  induction t with
  | nil => simp [Table.find]
  | cons e rest ih =>
    obtain ⟨j, y⟩ := e
    by_cases hp : p j = true
    · simp only [List.filter_cons, hp, ↓reduceIte, Table.find, ih]
      by_cases hj : j = k
      · subst hj; simp [hp]
      · simp [hj]
    · simp only [List.filter_cons, hp, Bool.false_eq_true, ↓reduceIte, ih, Table.find]
      by_cases hj : j = k
      · subst hj; simp [hp]
      · simp [hj]

@[simp] theorem Table.find_erase {α : Type} (t : Table α) (key k : Nat) :
    (t.erase key).find k = if k = key then none else t.find k := by
  unfold Table.erase
  rw [Table.find_filter_key t (fun j => j != key) k]
  by_cases h : k = key <;> simp [h]

/-! ### The canonical form -/

theorem Cells.wfFrom_mono {w : Nat} (c : Cells w) (a b : Nat) (hab : a ≤ b) (h : Cells.wfFrom (some b) c = true) :
    Cells.wfFrom (some a) c = true := by
  cases c with
  | nil => rfl
  | cons e rest =>
    obtain ⟨k, x⟩ := e
    simp only [Cells.wfFrom, Bool.and_eq_true, decide_eq_true_eq] at h ⊢
    exact ⟨⟨by omega, h.1.2⟩, h.2⟩

theorem Cells.wf_of_wfFrom {w : Nat} (c : Cells w) (low : Option Nat) (h : Cells.wfFrom low c = true) : c.wf = true := by
  cases c with
  | nil => rfl
  | cons e rest =>
    obtain ⟨k, x⟩ := e
    cases low with
    | none => exact h
    | some a =>
      simp only [Cells.wf, Cells.wfFrom, Bool.and_eq_true, Bool.true_and] at h ⊢
      exact ⟨h.1.2, h.2⟩

theorem Cells.wfFrom_put {w : Nat} (c : Cells w) (low : Option Nat) (key : Nat) (x : BitVec w) (hx : x ≠ 0)
    (hl : ∀ a, low = some a → a < key) (h : Cells.wfFrom low c = true) : Cells.wfFrom low (c.put key x) = true := by
  have hx' : ¬x = 0#w := hx
  induction c generalizing low with
  | nil =>
    cases low with
    | none => simp [Cells.put, Cells.wfFrom, hx']
    | some a => simp [Cells.put, Cells.wfFrom, hx', hl a rfl]
  | cons e rest ih =>
    obtain ⟨k, y⟩ := e
    simp only [Cells.wfFrom, Bool.and_eq_true, decide_eq_true_eq] at h
    obtain ⟨⟨h1, h2⟩, h3⟩ := h
    have h2' : ¬y = 0#w := h2
    simp only [Cells.put]
    split
    · rename_i hk
      cases low with
      | none => simp [Cells.wfFrom, hx', hk, h2', h3]
      | some a => simp [Cells.wfFrom, hx', hk, h2', h3, hl a rfl]
    · split
      · rename_i hk
        subst hk
        cases low with
        | none => simp [Cells.wfFrom, hx', h3]
        | some a => simp [Cells.wfFrom, hx', h3, hl a rfl]
      · have h4 := ih (some k) (fun a ha => by cases ha; omega) h3
        cases low with
        | none => simp [Cells.wfFrom, h2', h4]
        | some a =>
          simp only [decide_eq_true_eq] at h1
          simp [Cells.wfFrom, h1, h2', h4]

theorem Cells.wfFrom_filter {w : Nat} (c : Cells w) (low : Option Nat) (p : Nat × BitVec w → Bool)
    (h : Cells.wfFrom low c = true) : Cells.wfFrom low (c.filter p) = true := by
  induction c generalizing low with
  | nil => rfl
  | cons e rest ih =>
    obtain ⟨k, x⟩ := e
    simp only [Cells.wfFrom, Bool.and_eq_true, decide_eq_true_eq] at h
    obtain ⟨⟨h1, h2⟩, h3⟩ := h
    by_cases hp : p (k, x) = true
    · simp only [List.filter_cons, hp, ↓reduceIte, Cells.wfFrom, Bool.and_eq_true, decide_eq_true_eq]
      exact ⟨⟨h1, h2⟩, ih _ h3⟩
    · simp only [List.filter_cons, hp, Bool.false_eq_true, ↓reduceIte]
      cases low with
      | none => exact Cells.wf_of_wfFrom _ _ (ih _ h3)
      | some a =>
        simp only [decide_eq_true_eq] at h1
        exact Cells.wfFrom_mono _ _ _ (by omega) (ih _ h3)

/-- A write keeps the canonical form. -/
theorem Cells.wf_set {w : Nat} (c : Cells w) (key : Nat) (x : BitVec w) (h : c.wf = true) : (c.set key x).wf = true := by
  unfold Cells.set
  split
  · exact Cells.wfFrom_filter c none _ h
  · rename_i hx
    exact Cells.wfFrom_put c none key x hx (fun a ha => nomatch ha) h

/-- Dropping entries keeps the canonical form. -/
theorem Cells.wf_filter {w : Nat} (c : Cells w) (p : Nat × BitVec w → Bool) (h : c.wf = true) : Cells.wf (c.filter p) = true :=
  Cells.wfFrom_filter c none p h

/-! ### Memory operations keep the canonical form -/

theorem writeLE_wf (m : Cells 8) (a n v : Nat) (h : m.wf = true) : (writeLE m a n v).wf = true := by
  induction n generalizing m a v with
  | zero => exact h
  | succ n ih => exact ih _ _ _ (Cells.wf_set m a _ h)

theorem writeBytes_wf (m : Cells 8) (a : Nat) (bytes : List Byte) (h : m.wf = true) : (writeBytes m a bytes).wf = true := by
  induction bytes generalizing m a with
  | nil => exact h
  | cons b rest ih => exact ih _ _ (Cells.wf_set m a b h)

theorem foldSet_wf {α : Type} (m : Cells 8) (xs : List α) (key : α → Nat) (f : α → Byte) (h : m.wf = true) :
    (xs.foldl (fun (acc : Cells 8) x => acc.set (key x) (f x)) m).wf = true := by
  induction xs generalizing m with
  | nil => exact h
  | cons x rest ih => exact ih _ (Cells.wf_set m _ _ h)

/-- Reset memory is in the canonical form. -/
theorem reset_mem_wf : Memory.wf State.reset.mem = true := rfl

theorem padWriteBytes_wf (m : Cells 8) (c : Crew) (off n v : Nat) (h : m.wf = true) : (padWriteBytes m c off n v).wf = true := by
  induction n generalizing m off v with
  | zero => exact h
  | succ n ih => exact ih _ _ _ (Cells.wf_set m _ _ h)

end Sys2Proof.Machine
end

