-- ==== Sys2Proof/Laws/Contexts.lean ====
section
/-!
SUPPORT. What the gate of context instructions, the reading of their blocks, and the naming of a context can do.
-/
namespace Sys2Proof.Machine

/-- Everything the gate of context instructions can answer. -/
theorem contextGate_cases (s : State) (body : Hart → Nat → Result) :
    contextGate s body = .fault .noIssuer ∨ contextGate s body = s.waiting ∨
    (((s.hartAt s.hart).mode = .user ∨ (s.hartAt s.hart).mode = .virtualUser) ∧ contextGate s body = s.illegal) ∨
    (s.HartActs ∧ contextGate s body = body (s.hartAt s.hart) (s.callerOf s.hart)) := by
  unfold contextGate
  split
  · exact .inl rfl
  · rename_i hn
    dsimp only
    split
    · exact .inr (.inl rfl)
    · rename_i hf
      have hf' : (s.hartAt s.hart).fencing = none := by simpa using hf
      split
      · rename_i hm; exact .inr (.inr (.inl ⟨.inl hm, rfl⟩))
      · rename_i hm; exact .inr (.inr (.inl ⟨.inr hm, rfl⟩))
      · rename_i h1 h2; exact .inr (.inr (.inr ⟨⟨by omega, hf', h1, h2⟩, rfl⟩))

/-- A hart that may execute context instructions performs the body. -/
theorem contextGate_of_acts {s : State} {body : Hart → Nat → Result} (h : s.HartActs) :
    contextGate s body = body (s.hartAt s.hart) (s.callerOf s.hart) := by
  have h1 : ¬16 ≤ s.hart := by have := h.exists_; omega
  have h2 : (s.hartAt s.hart).fencing.isSome = false := by rw [h.awake]; rfl
  unfold contextGate
  simp only [h1, ↓reduceIte, h2, Bool.false_eq_true]
  split
  · rename_i hm; exact absurd hm h.notUser
  · rename_i hm; exact absurd hm h.notVirtualUser
  · rfl

/-- Everything that reading a block can answer. -/
theorem withBlock_cases (s : State) (ctx : Nat) (d : BitVec 5) (a : DWord) (n : Nat) (body : List Byte → Answer) :
    withBlock s ctx d a n body = s.answers d (.error .malformed) ∨
    (∃ e, withBlock s ctx d a n body = s.hartExcept 13 e) ∨
    (∃ b, s.blockBytes ctx n a.toNat = .ok b ∧ withBlock s ctx d a n body = s.answers d (body b)) := by
  unfold withBlock
  split
  · exact .inl rfl
  · cases h : s.blockBytes ctx n a.toNat with
    | error e => exact .inr (.inl ⟨_, rfl⟩)
    | ok b => exact .inr (.inr ⟨b, rfl, rfl⟩)

/-- A context is named exactly where it exists strictly below the caller. -/
theorem named_ok_iff (s : State) (caller : Nat) (x : DWord) (n : Nat) (c : Context) :
    s.named caller x = .ok (n, c) ↔ n = x.toNat ∧ s.contexts.find x.toNat = some c ∧ s.below x.toNat caller = true := by
  unfold State.named State.context
  cases h : s.contexts.find x.toNat with
  | none => simp
  | some y =>
    simp only
    split
    · rename_i hb
      simp only [Except.ok.injEq, Prod.mk.injEq, Option.some.injEq, hb, and_true]
      exact ⟨fun ⟨a, b⟩ => ⟨a.symm, b⟩, fun ⟨a, b⟩ => ⟨a.symm, b⟩⟩
    · rename_i hb
      simp [hb]

/-- An answer is a next state in which rd and the pc have moved on. -/
theorem answers_next (s : State) (d : BitVec 5) (a : Answer) :
    (∃ x, a = .error x ∧ s.answers d a = .next (s.answer d x.code)) ∨
    (∃ v t, a = .ok (v, t) ∧ s.answers d a = .next (t.answer d v)) := by
  cases a with
  | error x => exact .inl ⟨x, rfl, rfl⟩
  | ok p => exact .inr ⟨p.1, p.2, rfl, rfl⟩

end Sys2Proof.Machine
end

