-- ==== Sys2Proof/Laws/Gate.lean ====
section
/-!
SUPPORT. What the issue gate can do: it stops without an issuer, waits, traps, or runs the body; and when it runs the body.
-/
namespace Sys2Proof.Machine

/-- Everything the gate can answer. -/
theorem gate_cases (s : State) (needs : Gang → Needs) (body : Gang → Result) :
    gate s needs body = .fault .noIssuer ∨ gate s needs body = s.waiting ∨
    (∃ g t, s.gangs.find s.gang = some g ∧ gate s needs body = .next (s.trapAt g t (g.enabled s.group) 0)) ∨
    (∃ g, s.Issues g ∧ s.issueTrap g (needs g) = none ∧ s.scoreboard g (needs g) = false ∧
      gate s needs body = body (s.issuing g)) := by
  unfold gate
  cases hg : s.gangs.find s.gang with
  | none => exact .inl rfl
  | some g =>
    simp only
    split
    · exact .inl rfl
    · rename_i hm
      split
      · exact .inr (.inl rfl)
      · rename_i hi
        cases ht : s.issueTrap g (needs g) with
        | some t => exact .inr (.inr (.inl ⟨g, t, rfl, rfl⟩))
        | none =>
          simp only
          cases hb : s.scoreboard g (needs g) with
          | true => exact .inr (.inl rfl)
          | false => exact .inr (.inr (.inr ⟨g, ⟨hg, by simpa using hm, by simpa using hi⟩, ht, hb, rfl⟩))

/-- A gang that may issue, with an instruction whose needs are met, runs its body. -/
theorem gate_of_issues {s : State} {g : Gang} {needs : Gang → Needs} {body : Gang → Result} (h : s.Issues g)
    (ht : s.issueTrap g (needs g) = none) (hb : s.scoreboard g (needs g) = false) :
    gate s needs body = body (s.issuing g) := by
  have hm : (g.members s.group).isEmpty = false := by simpa using h.members
  simp [gate, h.resident, hm, h.free, ht, hb, State.issuing]

/-- A gang that may issue takes the trap of the first issue check that fails (02 R54). -/
theorem gate_of_trap {s : State} {g : Gang} {needs : Gang → Needs} {body : Gang → Result} {t : Trap} (h : s.Issues g)
    (ht : s.issueTrap g (needs g) = some t) : gate s needs body = s.trap g t := by
  have hm : (g.members s.group).isEmpty = false := by simpa using h.members
  simp [gate, h.resident, hm, h.free, ht]

/-- Registers that are settled pass the checks of an instruction that needs nothing else. -/
theorem Settled.passes {s : State} {g : Gang} {vs ss : List Nat} (h : s.Settled g vs ss) (n : Needs)
    (hv : n.v = vs) (hs : n.s = ss) (he : n.even.all (fun r => r % 2 == 0) = true)
    (hf : n.fours.all (fun r => r % 4 == 0) = true) (hfo : n.format = true) (hl : n.lateV = []) (hl' : n.lateS = [])
    (hsc : n.scope = none) (hg : n.gantry = false) :
    s.issueTrap g n = none ∧ s.scoreboard g n = false := by
  subst hv hs
  obtain ⟨hv, hs⟩ := h
  have e1 : n.even.any (fun r => r % 2 == 1) = false := by
    simp only [List.all_eq_true, beq_iff_eq] at he
    simp only [List.any_eq_false, beq_iff_eq]
    intro r hr; have := he r hr; omega
  have e2 : n.fours.any (fun r => r % 4 != 0) = false := by
    simp only [List.all_eq_true, beq_iff_eq] at hf
    simp only [List.any_eq_false, bne_iff_ne, ne_eq, not_not]
    exact hf
  have e3 : n.v.any (fun r => decide (g.nregs ≤ r)) = false := by
    simp only [List.any_eq_false, decide_eq_true_eq, not_le]
    exact fun r hr => (hv r hr).1
  have e4 : n.s.any (fun r => decide (128 ≤ r)) = false := by
    simp only [List.any_eq_false, decide_eq_true_eq, not_le]
    exact fun r hr => (hs r hr).1
  refine ⟨by simp [State.issueTrap, e1, e2, e3, e4, hfo, hl, hl', hsc, hg], ?_⟩
  simp only [State.scoreboard, hl, hl', List.append_nil, Bool.or_eq_false_iff, List.any_eq_false, Bool.not_eq_true]
  exact ⟨fun r hr => (hv r hr).2, fun r hr => (hs r hr).2⟩

end Sys2Proof.Machine
end

