-- ==== Sys2Proof/Laws/Memory.lean ====
section
/-!
SUPPORT. Machine memory: a byte after a write, and the operations that write memory keep its canonical form.
-/
namespace Sys2Proof.Machine

/-- A byte of memory after a little-endian write. -/
theorem get_writeLE (m : Cells 8) (a n v b : Nat) :
    (writeLE m a n v).get b = if a ≤ b ∧ b < a + n then BitVec.ofNat 8 (v / 256 ^ (b - a)) else m.get b := by
  induction n generalizing m a v with
  | zero => simp [writeLE]
  | succ n ih =>
    rw [writeLE, ih, Cells.get_set]
    by_cases h1 : a + 1 ≤ b ∧ b < a + 1 + n
    · have h2 : a ≤ b ∧ b < a + (n + 1) := by omega
      have h3 : b - a = (b - (a + 1)) + 1 := by omega
      rw [if_pos h1, if_pos h2, h3, Nat.pow_succ, Nat.mul_comm, Nat.div_div_eq_div_mul]
    · rw [if_neg h1]
      by_cases h4 : a = b
      · subst h4
        have h5 : a ≤ a ∧ a < a + (n + 1) := by omega
        simp [h5]
      · have h6 : ¬(a ≤ b ∧ b < a + (n + 1)) := by omega
        simp [h4, h6]

/-- A byte of memory after a list of bytes has been written. -/
theorem get_writeBytes (m : Cells 8) (a : Nat) (bytes : List Byte) (b : Nat) :
    (writeBytes m a bytes).get b = if a ≤ b ∧ b < a + bytes.length then bytes.getD (b - a) 0 else m.get b := by
  induction bytes generalizing m a with
  | nil =>
    have : ¬(a ≤ b ∧ b < a + ([] : List Byte).length) := by simp
    simp only [writeBytes, if_neg this]
  | cons x rest ih =>
    rw [writeBytes, ih, Cells.get_set]
    by_cases h1 : a + 1 ≤ b ∧ b < a + 1 + rest.length
    · have h2 : a ≤ b ∧ b < a + (x :: rest).length := by simp only [List.length_cons]; omega
      have h3 : b - a = (b - (a + 1)) + 1 := by omega
      rw [if_pos h1, if_pos h2, h3]
      simp
    · rw [if_neg h1]
      by_cases h4 : a = b
      · subst h4; simp
      · have h6 : ¬(a ≤ b ∧ b < a + (x :: rest).length) := by simp only [List.length_cons]; omega
        rw [if_neg h6, if_neg h4]

theorem write_wf (s : State) (a n v : Nat) (h : Memory.wf s.mem = true) : Memory.wf (s.write a n v).mem = true :=
  writeLE_wf _ _ _ _ h

theorem scrubFrames_wf (s : State) (frames : List Nat) (h : Memory.wf s.mem = true) :
    Memory.wf (s.scrubFrames frames).mem = true :=
  Cells.wf_filter _ _ h

theorem putFrame_wf (s : State) (m : Nat) (bytes : Cells 8) (h : Memory.wf s.mem = true) :
    Memory.wf (s.putFrame m bytes).mem = true :=
  foldSet_wf _ _ _ _ (scrubFrames_wf s [m] h)

theorem outsideWrite_wf (s : State) (a : Nat) (data : List Byte) (h : Memory.wf s.mem = true) :
    Memory.wf (s.outsideWrite a data).mem = true := by
  unfold State.outsideWrite
  split
  · exact h
  · exact foldSet_wf _ _ _ _ h

theorem restart_wf (s : State) (n r : Nat) (h : Memory.wf s.mem = true) : Memory.wf (s.restart n r).mem = true := h

@[simp] theorem deviceWrite_mem (s : State) (ctx off n v : Nat) : (s.deviceWrite ctx off n v).mem = s.mem := by
  unfold State.deviceWrite
  split
  · rfl
  · split <;> rfl

theorem writePlace_wf (s : State) (p : Place) (n v : Nat) (h : Memory.wf s.mem = true) :
    Memory.wf (s.writePlace p n v).mem = true := by
  unfold State.writePlace
  split
  · exact write_wf _ _ _ _ h
  · rw [deviceWrite_mem]; exact h

theorem putPlace_wf (s : State) (p : Place) (bytes : List Byte) (h : Memory.wf s.mem = true) :
    Memory.wf (s.putPlace p bytes).mem = true := by
  unfold State.putPlace
  split
  · exact writeBytes_wf _ _ _ h
  · rw [deviceWrite_mem]; exact h

/-- A record written to a ring keeps memory in its canonical form. -/
theorem ringWrite_wf (s t : State) (n : Nat) (r : FaultRecord) (h : Memory.wf s.mem = true) (ht : s.ringWrite n r = some t) :
    Memory.wf t.mem = true := by
  unfold State.ringWrite at ht
  split at ht
  · cases ht
  · split at ht
    · cases ht
    · simp only at ht
      split at ht
      · cases ht
      · cases ht
        exact write_wf _ _ _ _ (write_wf _ _ _ _ h)

theorem postRecord_wf (s : State) (n : Nat) (r : FaultRecord) (b : Blocked) (h : Memory.wf s.mem = true) :
    Memory.wf (s.postRecord n r b).mem = true := by
  unfold State.postRecord
  split
  · exact h
  · simp only
    split
    · exact h
    · split
      · rename_i hw; exact ringWrite_wf _ _ _ _ h hw
      · exact h

end Sys2Proof.Machine
end

