-- ==== Sys2Proof/Laws/State.lean ====
section
/-!
SUPPORT. What each update of the state and of a gang leaves: one lemma for each field, so that no proof unfolds an update.
-/
namespace Sys2Proof.Machine

/-! ### `State.setGang` -/

@[simp] theorem State.setGang_mem (s : State) (k : Nat) (g : Gang) : (s.setGang k g).mem = s.mem := rfl
@[simp] theorem State.setGang_clock (s : State) (k : Nat) (g : Gang) : (s.setGang k g).clock = s.clock := rfl
@[simp] theorem State.setGang_powered (s : State) (k : Nat) (g : Gang) : (s.setGang k g).powered = s.powered := rfl
@[simp] theorem State.setGang_boot (s : State) (k : Nat) (g : Gang) : (s.setGang k g).boot = s.boot := rfl
@[simp] theorem State.setGang_graceNs (s : State) (k : Nat) (g : Gang) : (s.setGang k g).graceNs = s.graceNs := rfl
@[simp] theorem State.setGang_killNs (s : State) (k : Nat) (g : Gang) : (s.setGang k g).killNs = s.killNs := rfl
@[simp] theorem State.setGang_retryDue (s : State) (k : Nat) (g : Gang) : (s.setGang k g).retryDue = s.retryDue := rfl
@[simp] theorem State.setGang_quantumDue (s : State) (k : Nat) (g : Gang) : (s.setGang k g).quantumDue = s.quantumDue := rfl
@[simp] theorem State.setGang_disabledCores (s : State) (k : Nat) (g : Gang) : (s.setGang k g).disabledCores = s.disabledCores := rfl
@[simp] theorem State.setGang_badSectors (s : State) (k : Nat) (g : Gang) : (s.setGang k g).badSectors = s.badSectors := rfl
@[simp] theorem State.setGang_pending (s : State) (k : Nat) (g : Gang) : (s.setGang k g).pending = s.pending := rfl
@[simp] theorem State.setGang_dies (s : State) (k : Nat) (g : Gang) : (s.setGang k g).dies = s.dies := rfl
@[simp] theorem State.setGang_markers (s : State) (k : Nat) (g : Gang) : (s.setGang k g).markers = s.markers := rfl
@[simp] theorem State.setGang_portTlbs (s : State) (k : Nat) (g : Gang) : (s.setGang k g).portTlbs = s.portTlbs := rfl
@[simp] theorem State.setGang_shootDowns (s : State) (k : Nat) (g : Gang) : (s.setGang k g).shootDowns = s.shootDowns := rfl
@[simp] theorem State.setGang_cores (s : State) (k : Nat) (g : Gang) : (s.setGang k g).cores = s.cores := rfl
@[simp] theorem State.setGang_contexts (s : State) (k : Nat) (g : Gang) : (s.setGang k g).contexts = s.contexts := rfl
@[simp] theorem State.setGang_crews (s : State) (k : Nat) (g : Gang) : (s.setGang k g).crews = s.crews := rfl
@[simp] theorem State.setGang_gangs (s : State) (k : Nat) (g : Gang) : (s.setGang k g).gangs = s.gangs.put k g := rfl
@[simp] theorem State.setGang_commands (s : State) (k : Nat) (g : Gang) : (s.setGang k g).commands = s.commands := rfl
@[simp] theorem State.setGang_slots (s : State) (k : Nat) (g : Gang) : (s.setGang k g).slots = s.slots := rfl
@[simp] theorem State.setGang_service (s : State) (k : Nat) (g : Gang) : (s.setGang k g).service = s.service := rfl
@[simp] theorem State.setGang_joining (s : State) (k : Nat) (g : Gang) : (s.setGang k g).joining = s.joining := rfl
@[simp] theorem State.setGang_rung (s : State) (k : Nat) (g : Gang) : (s.setGang k g).rung = s.rung := rfl
@[simp] theorem State.setGang_lastMapped (s : State) (k : Nat) (g : Gang) : (s.setGang k g).lastMapped = s.lastMapped := rfl
@[simp] theorem State.setGang_lastSlot (s : State) (k : Nat) (g : Gang) : (s.setGang k g).lastSlot = s.lastSlot := rfl
@[simp] theorem State.setGang_queueWrites (s : State) (k : Nat) (g : Gang) : (s.setGang k g).queueWrites = s.queueWrites := rfl
@[simp] theorem State.setGang_placedUntil (s : State) (k : Nat) (g : Gang) : (s.setGang k g).placedUntil = s.placedUntil := rfl
@[simp] theorem State.setGang_heldQueues (s : State) (k : Nat) (g : Gang) : (s.setGang k g).heldQueues = s.heldQueues := rfl
@[simp] theorem State.setGang_portHolds (s : State) (k : Nat) (g : Gang) : (s.setGang k g).portHolds = s.portHolds := rfl
@[simp] theorem State.setGang_harts (s : State) (k : Nat) (g : Gang) : (s.setGang k g).harts = s.harts := rfl
@[simp] theorem State.setGang_images (s : State) (k : Nat) (g : Gang) : (s.setGang k g).images = s.images := rfl
@[simp] theorem State.setGang_serial (s : State) (k : Nat) (g : Gang) : (s.setGang k g).serial = s.serial := rfl
@[simp] theorem State.setGang_chartMoves (s : State) (k : Nat) (g : Gang) : (s.setGang k g).chartMoves = s.chartMoves := rfl
@[simp] theorem State.setGang_gang (s : State) (k : Nat) (g : Gang) : (s.setGang k g).gang = s.gang := rfl
@[simp] theorem State.setGang_group (s : State) (k : Nat) (g : Gang) : (s.setGang k g).group = s.group := rfl
@[simp] theorem State.setGang_hart (s : State) (k : Nat) (g : Gang) : (s.setGang k g).hart = s.hart := rfl
@[simp] theorem State.setGang_subject (s : State) (k : Nat) (g : Gang) : (s.setGang k g).subject = s.subject := rfl
@[simp] theorem State.setGang_idle (s : State) (k : Nat) (g : Gang) : (s.setGang k g).idle = s.idle := rfl
@[simp] theorem State.setGang_fetchFault (s : State) (k : Nat) (g : Gang) : (s.setGang k g).fetchFault = s.fetchFault := rfl
@[simp] theorem State.setGang_agenda (s : State) (k : Nat) (g : Gang) : (s.setGang k g).agenda = s.agenda := rfl

/-! ### `State.setCore` -/

@[simp] theorem State.setCore_mem (s : State) (k : Nat) (c : Core) : (s.setCore k c).mem = s.mem := rfl
@[simp] theorem State.setCore_clock (s : State) (k : Nat) (c : Core) : (s.setCore k c).clock = s.clock := rfl
@[simp] theorem State.setCore_powered (s : State) (k : Nat) (c : Core) : (s.setCore k c).powered = s.powered := rfl
@[simp] theorem State.setCore_boot (s : State) (k : Nat) (c : Core) : (s.setCore k c).boot = s.boot := rfl
@[simp] theorem State.setCore_graceNs (s : State) (k : Nat) (c : Core) : (s.setCore k c).graceNs = s.graceNs := rfl
@[simp] theorem State.setCore_killNs (s : State) (k : Nat) (c : Core) : (s.setCore k c).killNs = s.killNs := rfl
@[simp] theorem State.setCore_retryDue (s : State) (k : Nat) (c : Core) : (s.setCore k c).retryDue = s.retryDue := rfl
@[simp] theorem State.setCore_quantumDue (s : State) (k : Nat) (c : Core) : (s.setCore k c).quantumDue = s.quantumDue := rfl
@[simp] theorem State.setCore_disabledCores (s : State) (k : Nat) (c : Core) : (s.setCore k c).disabledCores = s.disabledCores := rfl
@[simp] theorem State.setCore_badSectors (s : State) (k : Nat) (c : Core) : (s.setCore k c).badSectors = s.badSectors := rfl
@[simp] theorem State.setCore_pending (s : State) (k : Nat) (c : Core) : (s.setCore k c).pending = s.pending := rfl
@[simp] theorem State.setCore_dies (s : State) (k : Nat) (c : Core) : (s.setCore k c).dies = s.dies := rfl
@[simp] theorem State.setCore_markers (s : State) (k : Nat) (c : Core) : (s.setCore k c).markers = s.markers := rfl
@[simp] theorem State.setCore_portTlbs (s : State) (k : Nat) (c : Core) : (s.setCore k c).portTlbs = s.portTlbs := rfl
@[simp] theorem State.setCore_shootDowns (s : State) (k : Nat) (c : Core) : (s.setCore k c).shootDowns = s.shootDowns := rfl
@[simp] theorem State.setCore_cores (s : State) (k : Nat) (c : Core) : (s.setCore k c).cores = s.cores.put k c := rfl
@[simp] theorem State.setCore_contexts (s : State) (k : Nat) (c : Core) : (s.setCore k c).contexts = s.contexts := rfl
@[simp] theorem State.setCore_crews (s : State) (k : Nat) (c : Core) : (s.setCore k c).crews = s.crews := rfl
@[simp] theorem State.setCore_gangs (s : State) (k : Nat) (c : Core) : (s.setCore k c).gangs = s.gangs := rfl
@[simp] theorem State.setCore_commands (s : State) (k : Nat) (c : Core) : (s.setCore k c).commands = s.commands := rfl
@[simp] theorem State.setCore_slots (s : State) (k : Nat) (c : Core) : (s.setCore k c).slots = s.slots := rfl
@[simp] theorem State.setCore_service (s : State) (k : Nat) (c : Core) : (s.setCore k c).service = s.service := rfl
@[simp] theorem State.setCore_joining (s : State) (k : Nat) (c : Core) : (s.setCore k c).joining = s.joining := rfl
@[simp] theorem State.setCore_rung (s : State) (k : Nat) (c : Core) : (s.setCore k c).rung = s.rung := rfl
@[simp] theorem State.setCore_lastMapped (s : State) (k : Nat) (c : Core) : (s.setCore k c).lastMapped = s.lastMapped := rfl
@[simp] theorem State.setCore_lastSlot (s : State) (k : Nat) (c : Core) : (s.setCore k c).lastSlot = s.lastSlot := rfl
@[simp] theorem State.setCore_queueWrites (s : State) (k : Nat) (c : Core) : (s.setCore k c).queueWrites = s.queueWrites := rfl
@[simp] theorem State.setCore_placedUntil (s : State) (k : Nat) (c : Core) : (s.setCore k c).placedUntil = s.placedUntil := rfl
@[simp] theorem State.setCore_heldQueues (s : State) (k : Nat) (c : Core) : (s.setCore k c).heldQueues = s.heldQueues := rfl
@[simp] theorem State.setCore_portHolds (s : State) (k : Nat) (c : Core) : (s.setCore k c).portHolds = s.portHolds := rfl
@[simp] theorem State.setCore_harts (s : State) (k : Nat) (c : Core) : (s.setCore k c).harts = s.harts := rfl
@[simp] theorem State.setCore_images (s : State) (k : Nat) (c : Core) : (s.setCore k c).images = s.images := rfl
@[simp] theorem State.setCore_serial (s : State) (k : Nat) (c : Core) : (s.setCore k c).serial = s.serial := rfl
@[simp] theorem State.setCore_chartMoves (s : State) (k : Nat) (c : Core) : (s.setCore k c).chartMoves = s.chartMoves := rfl
@[simp] theorem State.setCore_gang (s : State) (k : Nat) (c : Core) : (s.setCore k c).gang = s.gang := rfl
@[simp] theorem State.setCore_group (s : State) (k : Nat) (c : Core) : (s.setCore k c).group = s.group := rfl
@[simp] theorem State.setCore_hart (s : State) (k : Nat) (c : Core) : (s.setCore k c).hart = s.hart := rfl
@[simp] theorem State.setCore_subject (s : State) (k : Nat) (c : Core) : (s.setCore k c).subject = s.subject := rfl
@[simp] theorem State.setCore_idle (s : State) (k : Nat) (c : Core) : (s.setCore k c).idle = s.idle := rfl
@[simp] theorem State.setCore_fetchFault (s : State) (k : Nat) (c : Core) : (s.setCore k c).fetchFault = s.fetchFault := rfl
@[simp] theorem State.setCore_agenda (s : State) (k : Nat) (c : Core) : (s.setCore k c).agenda = s.agenda := rfl

/-! ### `State.setContext` -/

@[simp] theorem State.setContext_mem (s : State) (k : Nat) (c : Context) : (s.setContext k c).mem = s.mem := rfl
@[simp] theorem State.setContext_clock (s : State) (k : Nat) (c : Context) : (s.setContext k c).clock = s.clock := rfl
@[simp] theorem State.setContext_powered (s : State) (k : Nat) (c : Context) : (s.setContext k c).powered = s.powered := rfl
@[simp] theorem State.setContext_boot (s : State) (k : Nat) (c : Context) : (s.setContext k c).boot = s.boot := rfl
@[simp] theorem State.setContext_graceNs (s : State) (k : Nat) (c : Context) : (s.setContext k c).graceNs = s.graceNs := rfl
@[simp] theorem State.setContext_killNs (s : State) (k : Nat) (c : Context) : (s.setContext k c).killNs = s.killNs := rfl
@[simp] theorem State.setContext_retryDue (s : State) (k : Nat) (c : Context) : (s.setContext k c).retryDue = s.retryDue := rfl
@[simp] theorem State.setContext_quantumDue (s : State) (k : Nat) (c : Context) : (s.setContext k c).quantumDue = s.quantumDue := rfl
@[simp] theorem State.setContext_disabledCores (s : State) (k : Nat) (c : Context) : (s.setContext k c).disabledCores = s.disabledCores := rfl
@[simp] theorem State.setContext_badSectors (s : State) (k : Nat) (c : Context) : (s.setContext k c).badSectors = s.badSectors := rfl
@[simp] theorem State.setContext_pending (s : State) (k : Nat) (c : Context) : (s.setContext k c).pending = s.pending := rfl
@[simp] theorem State.setContext_dies (s : State) (k : Nat) (c : Context) : (s.setContext k c).dies = s.dies := rfl
@[simp] theorem State.setContext_markers (s : State) (k : Nat) (c : Context) : (s.setContext k c).markers = s.markers := rfl
@[simp] theorem State.setContext_portTlbs (s : State) (k : Nat) (c : Context) : (s.setContext k c).portTlbs = s.portTlbs := rfl
@[simp] theorem State.setContext_shootDowns (s : State) (k : Nat) (c : Context) : (s.setContext k c).shootDowns = s.shootDowns := rfl
@[simp] theorem State.setContext_cores (s : State) (k : Nat) (c : Context) : (s.setContext k c).cores = s.cores := rfl
@[simp] theorem State.setContext_contexts (s : State) (k : Nat) (c : Context) : (s.setContext k c).contexts = s.contexts.put k c := rfl
@[simp] theorem State.setContext_crews (s : State) (k : Nat) (c : Context) : (s.setContext k c).crews = s.crews := rfl
@[simp] theorem State.setContext_gangs (s : State) (k : Nat) (c : Context) : (s.setContext k c).gangs = s.gangs := rfl
@[simp] theorem State.setContext_commands (s : State) (k : Nat) (c : Context) : (s.setContext k c).commands = s.commands := rfl
@[simp] theorem State.setContext_slots (s : State) (k : Nat) (c : Context) : (s.setContext k c).slots = s.slots := rfl
@[simp] theorem State.setContext_service (s : State) (k : Nat) (c : Context) : (s.setContext k c).service = s.service := rfl
@[simp] theorem State.setContext_joining (s : State) (k : Nat) (c : Context) : (s.setContext k c).joining = s.joining := rfl
@[simp] theorem State.setContext_rung (s : State) (k : Nat) (c : Context) : (s.setContext k c).rung = s.rung := rfl
@[simp] theorem State.setContext_lastMapped (s : State) (k : Nat) (c : Context) : (s.setContext k c).lastMapped = s.lastMapped := rfl
@[simp] theorem State.setContext_lastSlot (s : State) (k : Nat) (c : Context) : (s.setContext k c).lastSlot = s.lastSlot := rfl
@[simp] theorem State.setContext_queueWrites (s : State) (k : Nat) (c : Context) : (s.setContext k c).queueWrites = s.queueWrites := rfl
@[simp] theorem State.setContext_placedUntil (s : State) (k : Nat) (c : Context) : (s.setContext k c).placedUntil = s.placedUntil := rfl
@[simp] theorem State.setContext_heldQueues (s : State) (k : Nat) (c : Context) : (s.setContext k c).heldQueues = s.heldQueues := rfl
@[simp] theorem State.setContext_portHolds (s : State) (k : Nat) (c : Context) : (s.setContext k c).portHolds = s.portHolds := rfl
@[simp] theorem State.setContext_harts (s : State) (k : Nat) (c : Context) : (s.setContext k c).harts = s.harts := rfl
@[simp] theorem State.setContext_images (s : State) (k : Nat) (c : Context) : (s.setContext k c).images = s.images := rfl
@[simp] theorem State.setContext_serial (s : State) (k : Nat) (c : Context) : (s.setContext k c).serial = s.serial := rfl
@[simp] theorem State.setContext_chartMoves (s : State) (k : Nat) (c : Context) : (s.setContext k c).chartMoves = s.chartMoves := rfl
@[simp] theorem State.setContext_gang (s : State) (k : Nat) (c : Context) : (s.setContext k c).gang = s.gang := rfl
@[simp] theorem State.setContext_group (s : State) (k : Nat) (c : Context) : (s.setContext k c).group = s.group := rfl
@[simp] theorem State.setContext_hart (s : State) (k : Nat) (c : Context) : (s.setContext k c).hart = s.hart := rfl
@[simp] theorem State.setContext_subject (s : State) (k : Nat) (c : Context) : (s.setContext k c).subject = s.subject := rfl
@[simp] theorem State.setContext_idle (s : State) (k : Nat) (c : Context) : (s.setContext k c).idle = s.idle := rfl
@[simp] theorem State.setContext_fetchFault (s : State) (k : Nat) (c : Context) : (s.setContext k c).fetchFault = s.fetchFault := rfl
@[simp] theorem State.setContext_agenda (s : State) (k : Nat) (c : Context) : (s.setContext k c).agenda = s.agenda := rfl

/-! ### `State.setCrew` -/

@[simp] theorem State.setCrew_mem (s : State) (k : Nat) (c : Crew) : (s.setCrew k c).mem = s.mem := rfl
@[simp] theorem State.setCrew_clock (s : State) (k : Nat) (c : Crew) : (s.setCrew k c).clock = s.clock := rfl
@[simp] theorem State.setCrew_powered (s : State) (k : Nat) (c : Crew) : (s.setCrew k c).powered = s.powered := rfl
@[simp] theorem State.setCrew_boot (s : State) (k : Nat) (c : Crew) : (s.setCrew k c).boot = s.boot := rfl
@[simp] theorem State.setCrew_graceNs (s : State) (k : Nat) (c : Crew) : (s.setCrew k c).graceNs = s.graceNs := rfl
@[simp] theorem State.setCrew_killNs (s : State) (k : Nat) (c : Crew) : (s.setCrew k c).killNs = s.killNs := rfl
@[simp] theorem State.setCrew_retryDue (s : State) (k : Nat) (c : Crew) : (s.setCrew k c).retryDue = s.retryDue := rfl
@[simp] theorem State.setCrew_quantumDue (s : State) (k : Nat) (c : Crew) : (s.setCrew k c).quantumDue = s.quantumDue := rfl
@[simp] theorem State.setCrew_disabledCores (s : State) (k : Nat) (c : Crew) : (s.setCrew k c).disabledCores = s.disabledCores := rfl
@[simp] theorem State.setCrew_badSectors (s : State) (k : Nat) (c : Crew) : (s.setCrew k c).badSectors = s.badSectors := rfl
@[simp] theorem State.setCrew_pending (s : State) (k : Nat) (c : Crew) : (s.setCrew k c).pending = s.pending := rfl
@[simp] theorem State.setCrew_dies (s : State) (k : Nat) (c : Crew) : (s.setCrew k c).dies = s.dies := rfl
@[simp] theorem State.setCrew_markers (s : State) (k : Nat) (c : Crew) : (s.setCrew k c).markers = s.markers := rfl
@[simp] theorem State.setCrew_portTlbs (s : State) (k : Nat) (c : Crew) : (s.setCrew k c).portTlbs = s.portTlbs := rfl
@[simp] theorem State.setCrew_shootDowns (s : State) (k : Nat) (c : Crew) : (s.setCrew k c).shootDowns = s.shootDowns := rfl
@[simp] theorem State.setCrew_cores (s : State) (k : Nat) (c : Crew) : (s.setCrew k c).cores = s.cores := rfl
@[simp] theorem State.setCrew_contexts (s : State) (k : Nat) (c : Crew) : (s.setCrew k c).contexts = s.contexts := rfl
@[simp] theorem State.setCrew_crews (s : State) (k : Nat) (c : Crew) : (s.setCrew k c).crews = s.crews.put k c := rfl
@[simp] theorem State.setCrew_gangs (s : State) (k : Nat) (c : Crew) : (s.setCrew k c).gangs = s.gangs := rfl
@[simp] theorem State.setCrew_commands (s : State) (k : Nat) (c : Crew) : (s.setCrew k c).commands = s.commands := rfl
@[simp] theorem State.setCrew_slots (s : State) (k : Nat) (c : Crew) : (s.setCrew k c).slots = s.slots := rfl
@[simp] theorem State.setCrew_service (s : State) (k : Nat) (c : Crew) : (s.setCrew k c).service = s.service := rfl
@[simp] theorem State.setCrew_joining (s : State) (k : Nat) (c : Crew) : (s.setCrew k c).joining = s.joining := rfl
@[simp] theorem State.setCrew_rung (s : State) (k : Nat) (c : Crew) : (s.setCrew k c).rung = s.rung := rfl
@[simp] theorem State.setCrew_lastMapped (s : State) (k : Nat) (c : Crew) : (s.setCrew k c).lastMapped = s.lastMapped := rfl
@[simp] theorem State.setCrew_lastSlot (s : State) (k : Nat) (c : Crew) : (s.setCrew k c).lastSlot = s.lastSlot := rfl
@[simp] theorem State.setCrew_queueWrites (s : State) (k : Nat) (c : Crew) : (s.setCrew k c).queueWrites = s.queueWrites := rfl
@[simp] theorem State.setCrew_placedUntil (s : State) (k : Nat) (c : Crew) : (s.setCrew k c).placedUntil = s.placedUntil := rfl
@[simp] theorem State.setCrew_heldQueues (s : State) (k : Nat) (c : Crew) : (s.setCrew k c).heldQueues = s.heldQueues := rfl
@[simp] theorem State.setCrew_portHolds (s : State) (k : Nat) (c : Crew) : (s.setCrew k c).portHolds = s.portHolds := rfl
@[simp] theorem State.setCrew_harts (s : State) (k : Nat) (c : Crew) : (s.setCrew k c).harts = s.harts := rfl
@[simp] theorem State.setCrew_images (s : State) (k : Nat) (c : Crew) : (s.setCrew k c).images = s.images := rfl
@[simp] theorem State.setCrew_serial (s : State) (k : Nat) (c : Crew) : (s.setCrew k c).serial = s.serial := rfl
@[simp] theorem State.setCrew_chartMoves (s : State) (k : Nat) (c : Crew) : (s.setCrew k c).chartMoves = s.chartMoves := rfl
@[simp] theorem State.setCrew_gang (s : State) (k : Nat) (c : Crew) : (s.setCrew k c).gang = s.gang := rfl
@[simp] theorem State.setCrew_group (s : State) (k : Nat) (c : Crew) : (s.setCrew k c).group = s.group := rfl
@[simp] theorem State.setCrew_hart (s : State) (k : Nat) (c : Crew) : (s.setCrew k c).hart = s.hart := rfl
@[simp] theorem State.setCrew_subject (s : State) (k : Nat) (c : Crew) : (s.setCrew k c).subject = s.subject := rfl
@[simp] theorem State.setCrew_idle (s : State) (k : Nat) (c : Crew) : (s.setCrew k c).idle = s.idle := rfl
@[simp] theorem State.setCrew_fetchFault (s : State) (k : Nat) (c : Crew) : (s.setCrew k c).fetchFault = s.fetchFault := rfl
@[simp] theorem State.setCrew_agenda (s : State) (k : Nat) (c : Crew) : (s.setCrew k c).agenda = s.agenda := rfl

/-! ### `State.setHart` -/

@[simp] theorem State.setHart_mem (s : State) (k : Nat) (h : Hart) : (s.setHart k h).mem = s.mem := rfl
@[simp] theorem State.setHart_clock (s : State) (k : Nat) (h : Hart) : (s.setHart k h).clock = s.clock := rfl
@[simp] theorem State.setHart_powered (s : State) (k : Nat) (h : Hart) : (s.setHart k h).powered = s.powered := rfl
@[simp] theorem State.setHart_boot (s : State) (k : Nat) (h : Hart) : (s.setHart k h).boot = s.boot := rfl
@[simp] theorem State.setHart_graceNs (s : State) (k : Nat) (h : Hart) : (s.setHart k h).graceNs = s.graceNs := rfl
@[simp] theorem State.setHart_killNs (s : State) (k : Nat) (h : Hart) : (s.setHart k h).killNs = s.killNs := rfl
@[simp] theorem State.setHart_retryDue (s : State) (k : Nat) (h : Hart) : (s.setHart k h).retryDue = s.retryDue := rfl
@[simp] theorem State.setHart_quantumDue (s : State) (k : Nat) (h : Hart) : (s.setHart k h).quantumDue = s.quantumDue := rfl
@[simp] theorem State.setHart_disabledCores (s : State) (k : Nat) (h : Hart) : (s.setHart k h).disabledCores = s.disabledCores := rfl
@[simp] theorem State.setHart_badSectors (s : State) (k : Nat) (h : Hart) : (s.setHart k h).badSectors = s.badSectors := rfl
@[simp] theorem State.setHart_pending (s : State) (k : Nat) (h : Hart) : (s.setHart k h).pending = s.pending := rfl
@[simp] theorem State.setHart_dies (s : State) (k : Nat) (h : Hart) : (s.setHart k h).dies = s.dies := rfl
@[simp] theorem State.setHart_markers (s : State) (k : Nat) (h : Hart) : (s.setHart k h).markers = s.markers := rfl
@[simp] theorem State.setHart_portTlbs (s : State) (k : Nat) (h : Hart) : (s.setHart k h).portTlbs = s.portTlbs := rfl
@[simp] theorem State.setHart_shootDowns (s : State) (k : Nat) (h : Hart) : (s.setHart k h).shootDowns = s.shootDowns := rfl
@[simp] theorem State.setHart_cores (s : State) (k : Nat) (h : Hart) : (s.setHart k h).cores = s.cores := rfl
@[simp] theorem State.setHart_contexts (s : State) (k : Nat) (h : Hart) : (s.setHart k h).contexts = s.contexts := rfl
@[simp] theorem State.setHart_crews (s : State) (k : Nat) (h : Hart) : (s.setHart k h).crews = s.crews := rfl
@[simp] theorem State.setHart_gangs (s : State) (k : Nat) (h : Hart) : (s.setHart k h).gangs = s.gangs := rfl
@[simp] theorem State.setHart_commands (s : State) (k : Nat) (h : Hart) : (s.setHart k h).commands = s.commands := rfl
@[simp] theorem State.setHart_slots (s : State) (k : Nat) (h : Hart) : (s.setHart k h).slots = s.slots := rfl
@[simp] theorem State.setHart_service (s : State) (k : Nat) (h : Hart) : (s.setHart k h).service = s.service := rfl
@[simp] theorem State.setHart_joining (s : State) (k : Nat) (h : Hart) : (s.setHart k h).joining = s.joining := rfl
@[simp] theorem State.setHart_rung (s : State) (k : Nat) (h : Hart) : (s.setHart k h).rung = s.rung := rfl
@[simp] theorem State.setHart_lastMapped (s : State) (k : Nat) (h : Hart) : (s.setHart k h).lastMapped = s.lastMapped := rfl
@[simp] theorem State.setHart_lastSlot (s : State) (k : Nat) (h : Hart) : (s.setHart k h).lastSlot = s.lastSlot := rfl
@[simp] theorem State.setHart_queueWrites (s : State) (k : Nat) (h : Hart) : (s.setHart k h).queueWrites = s.queueWrites := rfl
@[simp] theorem State.setHart_placedUntil (s : State) (k : Nat) (h : Hart) : (s.setHart k h).placedUntil = s.placedUntil := rfl
@[simp] theorem State.setHart_heldQueues (s : State) (k : Nat) (h : Hart) : (s.setHart k h).heldQueues = s.heldQueues := rfl
@[simp] theorem State.setHart_portHolds (s : State) (k : Nat) (h : Hart) : (s.setHart k h).portHolds = s.portHolds := rfl
@[simp] theorem State.setHart_harts (s : State) (k : Nat) (h : Hart) : (s.setHart k h).harts = s.harts.put k h := rfl
@[simp] theorem State.setHart_images (s : State) (k : Nat) (h : Hart) : (s.setHart k h).images = s.images := rfl
@[simp] theorem State.setHart_serial (s : State) (k : Nat) (h : Hart) : (s.setHart k h).serial = s.serial := rfl
@[simp] theorem State.setHart_chartMoves (s : State) (k : Nat) (h : Hart) : (s.setHart k h).chartMoves = s.chartMoves := rfl
@[simp] theorem State.setHart_gang (s : State) (k : Nat) (h : Hart) : (s.setHart k h).gang = s.gang := rfl
@[simp] theorem State.setHart_group (s : State) (k : Nat) (h : Hart) : (s.setHart k h).group = s.group := rfl
@[simp] theorem State.setHart_hart (s : State) (k : Nat) (h : Hart) : (s.setHart k h).hart = s.hart := rfl
@[simp] theorem State.setHart_subject (s : State) (k : Nat) (h : Hart) : (s.setHart k h).subject = s.subject := rfl
@[simp] theorem State.setHart_idle (s : State) (k : Nat) (h : Hart) : (s.setHart k h).idle = s.idle := rfl
@[simp] theorem State.setHart_fetchFault (s : State) (k : Nat) (h : Hart) : (s.setHart k h).fetchFault = s.fetchFault := rfl
@[simp] theorem State.setHart_agenda (s : State) (k : Nat) (h : Hart) : (s.setHart k h).agenda = s.agenda := rfl

/-! ### `State.write` -/

@[simp] theorem State.write_mem (s : State) (a n v : Nat) : (s.write a n v).mem = writeLE s.mem a n v := rfl
@[simp] theorem State.write_clock (s : State) (a n v : Nat) : (s.write a n v).clock = s.clock := rfl
@[simp] theorem State.write_powered (s : State) (a n v : Nat) : (s.write a n v).powered = s.powered := rfl
@[simp] theorem State.write_boot (s : State) (a n v : Nat) : (s.write a n v).boot = s.boot := rfl
@[simp] theorem State.write_graceNs (s : State) (a n v : Nat) : (s.write a n v).graceNs = s.graceNs := rfl
@[simp] theorem State.write_killNs (s : State) (a n v : Nat) : (s.write a n v).killNs = s.killNs := rfl
@[simp] theorem State.write_retryDue (s : State) (a n v : Nat) : (s.write a n v).retryDue = s.retryDue := rfl
@[simp] theorem State.write_quantumDue (s : State) (a n v : Nat) : (s.write a n v).quantumDue = s.quantumDue := rfl
@[simp] theorem State.write_disabledCores (s : State) (a n v : Nat) : (s.write a n v).disabledCores = s.disabledCores := rfl
@[simp] theorem State.write_badSectors (s : State) (a n v : Nat) : (s.write a n v).badSectors = s.badSectors := rfl
@[simp] theorem State.write_pending (s : State) (a n v : Nat) : (s.write a n v).pending = s.pending := rfl
@[simp] theorem State.write_dies (s : State) (a n v : Nat) : (s.write a n v).dies = s.dies := rfl
@[simp] theorem State.write_markers (s : State) (a n v : Nat) : (s.write a n v).markers = s.markers := rfl
@[simp] theorem State.write_portTlbs (s : State) (a n v : Nat) : (s.write a n v).portTlbs = s.portTlbs := rfl
@[simp] theorem State.write_shootDowns (s : State) (a n v : Nat) : (s.write a n v).shootDowns = s.shootDowns := rfl
@[simp] theorem State.write_cores (s : State) (a n v : Nat) : (s.write a n v).cores = s.cores := rfl
@[simp] theorem State.write_contexts (s : State) (a n v : Nat) : (s.write a n v).contexts = s.contexts := rfl
@[simp] theorem State.write_crews (s : State) (a n v : Nat) : (s.write a n v).crews = s.crews := rfl
@[simp] theorem State.write_gangs (s : State) (a n v : Nat) : (s.write a n v).gangs = s.gangs := rfl
@[simp] theorem State.write_commands (s : State) (a n v : Nat) : (s.write a n v).commands = s.commands := rfl
@[simp] theorem State.write_slots (s : State) (a n v : Nat) : (s.write a n v).slots = s.slots := rfl
@[simp] theorem State.write_service (s : State) (a n v : Nat) : (s.write a n v).service = s.service := rfl
@[simp] theorem State.write_joining (s : State) (a n v : Nat) : (s.write a n v).joining = s.joining := rfl
@[simp] theorem State.write_rung (s : State) (a n v : Nat) : (s.write a n v).rung = s.rung := rfl
@[simp] theorem State.write_lastMapped (s : State) (a n v : Nat) : (s.write a n v).lastMapped = s.lastMapped := rfl
@[simp] theorem State.write_lastSlot (s : State) (a n v : Nat) : (s.write a n v).lastSlot = s.lastSlot := rfl
@[simp] theorem State.write_queueWrites (s : State) (a n v : Nat) : (s.write a n v).queueWrites = s.queueWrites := rfl
@[simp] theorem State.write_placedUntil (s : State) (a n v : Nat) : (s.write a n v).placedUntil = s.placedUntil := rfl
@[simp] theorem State.write_heldQueues (s : State) (a n v : Nat) : (s.write a n v).heldQueues = s.heldQueues := rfl
@[simp] theorem State.write_portHolds (s : State) (a n v : Nat) : (s.write a n v).portHolds = s.portHolds := rfl
@[simp] theorem State.write_harts (s : State) (a n v : Nat) : (s.write a n v).harts = s.harts := rfl
@[simp] theorem State.write_images (s : State) (a n v : Nat) : (s.write a n v).images = s.images := rfl
@[simp] theorem State.write_serial (s : State) (a n v : Nat) : (s.write a n v).serial = s.serial := rfl
@[simp] theorem State.write_chartMoves (s : State) (a n v : Nat) : (s.write a n v).chartMoves = s.chartMoves := rfl
@[simp] theorem State.write_gang (s : State) (a n v : Nat) : (s.write a n v).gang = s.gang := rfl
@[simp] theorem State.write_group (s : State) (a n v : Nat) : (s.write a n v).group = s.group := rfl
@[simp] theorem State.write_hart (s : State) (a n v : Nat) : (s.write a n v).hart = s.hart := rfl
@[simp] theorem State.write_subject (s : State) (a n v : Nat) : (s.write a n v).subject = s.subject := rfl
@[simp] theorem State.write_idle (s : State) (a n v : Nat) : (s.write a n v).idle = s.idle := rfl
@[simp] theorem State.write_fetchFault (s : State) (a n v : Nat) : (s.write a n v).fetchFault = s.fetchFault := rfl
@[simp] theorem State.write_agenda (s : State) (a n v : Nat) : (s.write a n v).agenda = s.agenda := rfl

/-! ### `Gang.setV` -/

@[simp] theorem Gang.setV_ctx (g : Gang) (r : Nat) (lanes : List Nat) (f : Nat → Word) : (g.setV r lanes f).ctx = g.ctx := rfl
@[simp] theorem Gang.setV_crew (g : Gang) (r : Nat) (lanes : List Nat) (f : Nat → Word) : (g.setV r lanes f).crew = g.crew := rfl
@[simp] theorem Gang.setV_index (g : Gang) (r : Nat) (lanes : List Nat) (f : Nat → Word) : (g.setV r lanes f).index = g.index := rfl
@[simp] theorem Gang.setV_width (g : Gang) (r : Nat) (lanes : List Nat) (f : Nat → Word) : (g.setV r lanes f).width = g.width := rfl
@[simp] theorem Gang.setV_nregs (g : Gang) (r : Nat) (lanes : List Nat) (f : Nat → Word) : (g.setV r lanes f).nregs = g.nregs := rfl
@[simp] theorem Gang.setV_v (g : Gang) (r : Nat) (lanes : List Nat) (f : Nat → Word) : (g.setV r lanes f).v = g.v.setAll lanes (fun l => r * 64 + l) f := rfl
@[simp] theorem Gang.setV_s (g : Gang) (r : Nat) (lanes : List Nat) (f : Nat → Word) : (g.setV r lanes f).s = g.s := rfl
@[simp] theorem Gang.setV_p (g : Gang) (r : Nat) (lanes : List Nat) (f : Nat → Word) : (g.setV r lanes f).p = g.p := rfl
@[simp] theorem Gang.setV_k (g : Gang) (r : Nat) (lanes : List Nat) (f : Nat → Word) : (g.setV r lanes f).k = g.k := rfl
@[simp] theorem Gang.setV_srkey (g : Gang) (r : Nat) (lanes : List Nat) (f : Nat → Word) : (g.setV r lanes f).srkey = g.srkey := rfl
@[simp] theorem Gang.setV_trim (g : Gang) (r : Nat) (lanes : List Nat) (f : Nat → Word) : (g.setV r lanes f).trim = g.trim := rfl
@[simp] theorem Gang.setV_fpflags (g : Gang) (r : Nat) (lanes : List Nat) (f : Nat → Word) : (g.setV r lanes f).fpflags = g.fpflags := rfl
@[simp] theorem Gang.setV_ages (g : Gang) (r : Nat) (lanes : List Nat) (f : Nat → Word) : (g.setV r lanes f).ages = g.ages := rfl
@[simp] theorem Gang.setV_slices (g : Gang) (r : Nat) (lanes : List Nat) (f : Nat → Word) : (g.setV r lanes f).slices = g.slices := rfl
@[simp] theorem Gang.setV_lastGroup (g : Gang) (r : Nat) (lanes : List Nat) (f : Nat → Word) : (g.setV r lanes f).lastGroup = g.lastGroup := rfl
@[simp] theorem Gang.setV_words (g : Gang) (r : Nat) (lanes : List Nat) (f : Nat → Word) : (g.setV r lanes f).words = g.words := rfl
@[simp] theorem Gang.setV_convoy (g : Gang) (r : Nat) (lanes : List Nat) (f : Nat → Word) : (g.setV r lanes f).convoy = g.convoy := rfl
@[simp] theorem Gang.setV_rc (g : Gang) (r : Nat) (lanes : List Nat) (f : Nat → Word) : (g.setV r lanes f).rc = g.rc := rfl
@[simp] theorem Gang.setV_loads (g : Gang) (r : Nat) (lanes : List Nat) (f : Nat → Word) : (g.setV r lanes f).loads = g.loads := rfl
@[simp] theorem Gang.setV_chain (g : Gang) (r : Nat) (lanes : List Nat) (f : Nat → Word) : (g.setV r lanes f).chain = g.chain := rfl
@[simp] theorem Gang.setV_wait (g : Gang) (r : Nat) (lanes : List Nat) (f : Nat → Word) : (g.setV r lanes f).wait = g.wait := rfl
@[simp] theorem Gang.setV_waited (g : Gang) (r : Nat) (lanes : List Nat) (f : Nat → Word) : (g.setV r lanes f).waited = g.waited := rfl
@[simp] theorem Gang.setV_held (g : Gang) (r : Nat) (lanes : List Nat) (f : Nat → Word) : (g.setV r lanes f).held = g.held := rfl
@[simp] theorem Gang.setV_stop (g : Gang) (r : Nat) (lanes : List Nat) (f : Nat → Word) : (g.setV r lanes f).stop = g.stop := rfl
@[simp] theorem Gang.setV_stamp (g : Gang) (r : Nat) (lanes : List Nat) (f : Nat → Word) : (g.setV r lanes f).stamp = g.stamp := rfl
@[simp] theorem Gang.setV_seen (g : Gang) (r : Nat) (lanes : List Nat) (f : Nat → Word) : (g.setV r lanes f).seen = g.seen := rfl
@[simp] theorem Gang.setV_classSeen (g : Gang) (r : Nat) (lanes : List Nat) (f : Nat → Word) : (g.setV r lanes f).classSeen = g.classSeen := rfl
@[simp] theorem Gang.setV_alloc (g : Gang) (r : Nat) (lanes : List Nat) (f : Nat → Word) : (g.setV r lanes f).alloc = g.alloc := rfl
@[simp] theorem Gang.setV_refill (g : Gang) (r : Nat) (lanes : List Nat) (f : Nat → Word) : (g.setV r lanes f).refill = g.refill := rfl

/-! ### `Gang.setS` -/

@[simp] theorem Gang.setS_ctx (g : Gang) (r : Nat) (x : Word) : (g.setS r x).ctx = g.ctx := rfl
@[simp] theorem Gang.setS_crew (g : Gang) (r : Nat) (x : Word) : (g.setS r x).crew = g.crew := rfl
@[simp] theorem Gang.setS_index (g : Gang) (r : Nat) (x : Word) : (g.setS r x).index = g.index := rfl
@[simp] theorem Gang.setS_width (g : Gang) (r : Nat) (x : Word) : (g.setS r x).width = g.width := rfl
@[simp] theorem Gang.setS_nregs (g : Gang) (r : Nat) (x : Word) : (g.setS r x).nregs = g.nregs := rfl
@[simp] theorem Gang.setS_v (g : Gang) (r : Nat) (x : Word) : (g.setS r x).v = g.v := rfl
@[simp] theorem Gang.setS_s (g : Gang) (r : Nat) (x : Word) : (g.setS r x).s = g.s.set r x := rfl
@[simp] theorem Gang.setS_p (g : Gang) (r : Nat) (x : Word) : (g.setS r x).p = g.p := rfl
@[simp] theorem Gang.setS_k (g : Gang) (r : Nat) (x : Word) : (g.setS r x).k = g.k := rfl
@[simp] theorem Gang.setS_srkey (g : Gang) (r : Nat) (x : Word) : (g.setS r x).srkey = g.srkey := rfl
@[simp] theorem Gang.setS_trim (g : Gang) (r : Nat) (x : Word) : (g.setS r x).trim = g.trim := rfl
@[simp] theorem Gang.setS_fpflags (g : Gang) (r : Nat) (x : Word) : (g.setS r x).fpflags = g.fpflags := rfl
@[simp] theorem Gang.setS_ages (g : Gang) (r : Nat) (x : Word) : (g.setS r x).ages = g.ages := rfl
@[simp] theorem Gang.setS_slices (g : Gang) (r : Nat) (x : Word) : (g.setS r x).slices = g.slices := rfl
@[simp] theorem Gang.setS_lastGroup (g : Gang) (r : Nat) (x : Word) : (g.setS r x).lastGroup = g.lastGroup := rfl
@[simp] theorem Gang.setS_words (g : Gang) (r : Nat) (x : Word) : (g.setS r x).words = g.words := rfl
@[simp] theorem Gang.setS_convoy (g : Gang) (r : Nat) (x : Word) : (g.setS r x).convoy = g.convoy := rfl
@[simp] theorem Gang.setS_rc (g : Gang) (r : Nat) (x : Word) : (g.setS r x).rc = g.rc := rfl
@[simp] theorem Gang.setS_loads (g : Gang) (r : Nat) (x : Word) : (g.setS r x).loads = g.loads := rfl
@[simp] theorem Gang.setS_chain (g : Gang) (r : Nat) (x : Word) : (g.setS r x).chain = g.chain := rfl
@[simp] theorem Gang.setS_wait (g : Gang) (r : Nat) (x : Word) : (g.setS r x).wait = g.wait := rfl
@[simp] theorem Gang.setS_waited (g : Gang) (r : Nat) (x : Word) : (g.setS r x).waited = g.waited := rfl
@[simp] theorem Gang.setS_held (g : Gang) (r : Nat) (x : Word) : (g.setS r x).held = g.held := rfl
@[simp] theorem Gang.setS_stop (g : Gang) (r : Nat) (x : Word) : (g.setS r x).stop = g.stop := rfl
@[simp] theorem Gang.setS_stamp (g : Gang) (r : Nat) (x : Word) : (g.setS r x).stamp = g.stamp := rfl
@[simp] theorem Gang.setS_seen (g : Gang) (r : Nat) (x : Word) : (g.setS r x).seen = g.seen := rfl
@[simp] theorem Gang.setS_classSeen (g : Gang) (r : Nat) (x : Word) : (g.setS r x).classSeen = g.classSeen := rfl
@[simp] theorem Gang.setS_alloc (g : Gang) (r : Nat) (x : Word) : (g.setS r x).alloc = g.alloc := rfl
@[simp] theorem Gang.setS_refill (g : Gang) (r : Nat) (x : Word) : (g.setS r x).refill = g.refill := rfl

/-! ### `Gang.setK` -/

@[simp] theorem Gang.setK_ctx (g : Gang) (i : Nat) (x : BitVec 128) : (g.setK i x).ctx = g.ctx := rfl
@[simp] theorem Gang.setK_crew (g : Gang) (i : Nat) (x : BitVec 128) : (g.setK i x).crew = g.crew := rfl
@[simp] theorem Gang.setK_index (g : Gang) (i : Nat) (x : BitVec 128) : (g.setK i x).index = g.index := rfl
@[simp] theorem Gang.setK_width (g : Gang) (i : Nat) (x : BitVec 128) : (g.setK i x).width = g.width := rfl
@[simp] theorem Gang.setK_nregs (g : Gang) (i : Nat) (x : BitVec 128) : (g.setK i x).nregs = g.nregs := rfl
@[simp] theorem Gang.setK_v (g : Gang) (i : Nat) (x : BitVec 128) : (g.setK i x).v = g.v := rfl
@[simp] theorem Gang.setK_s (g : Gang) (i : Nat) (x : BitVec 128) : (g.setK i x).s = g.s := rfl
@[simp] theorem Gang.setK_p (g : Gang) (i : Nat) (x : BitVec 128) : (g.setK i x).p = g.p := rfl
@[simp] theorem Gang.setK_k (g : Gang) (i : Nat) (x : BitVec 128) : (g.setK i x).k = g.k.set i x := rfl
@[simp] theorem Gang.setK_srkey (g : Gang) (i : Nat) (x : BitVec 128) : (g.setK i x).srkey = g.srkey := rfl
@[simp] theorem Gang.setK_trim (g : Gang) (i : Nat) (x : BitVec 128) : (g.setK i x).trim = g.trim := rfl
@[simp] theorem Gang.setK_fpflags (g : Gang) (i : Nat) (x : BitVec 128) : (g.setK i x).fpflags = g.fpflags := rfl
@[simp] theorem Gang.setK_ages (g : Gang) (i : Nat) (x : BitVec 128) : (g.setK i x).ages = g.ages := rfl
@[simp] theorem Gang.setK_slices (g : Gang) (i : Nat) (x : BitVec 128) : (g.setK i x).slices = g.slices := rfl
@[simp] theorem Gang.setK_lastGroup (g : Gang) (i : Nat) (x : BitVec 128) : (g.setK i x).lastGroup = g.lastGroup := rfl
@[simp] theorem Gang.setK_words (g : Gang) (i : Nat) (x : BitVec 128) : (g.setK i x).words = g.words := rfl
@[simp] theorem Gang.setK_convoy (g : Gang) (i : Nat) (x : BitVec 128) : (g.setK i x).convoy = g.convoy := rfl
@[simp] theorem Gang.setK_rc (g : Gang) (i : Nat) (x : BitVec 128) : (g.setK i x).rc = g.rc := rfl
@[simp] theorem Gang.setK_loads (g : Gang) (i : Nat) (x : BitVec 128) : (g.setK i x).loads = g.loads := rfl
@[simp] theorem Gang.setK_chain (g : Gang) (i : Nat) (x : BitVec 128) : (g.setK i x).chain = g.chain := rfl
@[simp] theorem Gang.setK_wait (g : Gang) (i : Nat) (x : BitVec 128) : (g.setK i x).wait = g.wait := rfl
@[simp] theorem Gang.setK_waited (g : Gang) (i : Nat) (x : BitVec 128) : (g.setK i x).waited = g.waited := rfl
@[simp] theorem Gang.setK_held (g : Gang) (i : Nat) (x : BitVec 128) : (g.setK i x).held = g.held := rfl
@[simp] theorem Gang.setK_stop (g : Gang) (i : Nat) (x : BitVec 128) : (g.setK i x).stop = g.stop := rfl
@[simp] theorem Gang.setK_stamp (g : Gang) (i : Nat) (x : BitVec 128) : (g.setK i x).stamp = g.stamp := rfl
@[simp] theorem Gang.setK_seen (g : Gang) (i : Nat) (x : BitVec 128) : (g.setK i x).seen = g.seen := rfl
@[simp] theorem Gang.setK_classSeen (g : Gang) (i : Nat) (x : BitVec 128) : (g.setK i x).classSeen = g.classSeen := rfl
@[simp] theorem Gang.setK_alloc (g : Gang) (i : Nat) (x : BitVec 128) : (g.setK i x).alloc = g.alloc := rfl
@[simp] theorem Gang.setK_refill (g : Gang) (i : Nat) (x : BitVec 128) : (g.setK i x).refill = g.refill := rfl

/-! ### `Gang.setVpair` -/

@[simp] theorem Gang.setVpair_ctx (g : Gang) (r : Nat) (lanes : List Nat) (f : Nat → DWord) : (g.setVpair r lanes f).ctx = g.ctx := rfl
@[simp] theorem Gang.setVpair_crew (g : Gang) (r : Nat) (lanes : List Nat) (f : Nat → DWord) : (g.setVpair r lanes f).crew = g.crew := rfl
@[simp] theorem Gang.setVpair_index (g : Gang) (r : Nat) (lanes : List Nat) (f : Nat → DWord) : (g.setVpair r lanes f).index = g.index := rfl
@[simp] theorem Gang.setVpair_width (g : Gang) (r : Nat) (lanes : List Nat) (f : Nat → DWord) : (g.setVpair r lanes f).width = g.width := rfl
@[simp] theorem Gang.setVpair_nregs (g : Gang) (r : Nat) (lanes : List Nat) (f : Nat → DWord) : (g.setVpair r lanes f).nregs = g.nregs := rfl
@[simp] theorem Gang.setVpair_s (g : Gang) (r : Nat) (lanes : List Nat) (f : Nat → DWord) : (g.setVpair r lanes f).s = g.s := rfl
@[simp] theorem Gang.setVpair_p (g : Gang) (r : Nat) (lanes : List Nat) (f : Nat → DWord) : (g.setVpair r lanes f).p = g.p := rfl
@[simp] theorem Gang.setVpair_k (g : Gang) (r : Nat) (lanes : List Nat) (f : Nat → DWord) : (g.setVpair r lanes f).k = g.k := rfl
@[simp] theorem Gang.setVpair_srkey (g : Gang) (r : Nat) (lanes : List Nat) (f : Nat → DWord) : (g.setVpair r lanes f).srkey = g.srkey := rfl
@[simp] theorem Gang.setVpair_trim (g : Gang) (r : Nat) (lanes : List Nat) (f : Nat → DWord) : (g.setVpair r lanes f).trim = g.trim := rfl
@[simp] theorem Gang.setVpair_fpflags (g : Gang) (r : Nat) (lanes : List Nat) (f : Nat → DWord) : (g.setVpair r lanes f).fpflags = g.fpflags := rfl
@[simp] theorem Gang.setVpair_ages (g : Gang) (r : Nat) (lanes : List Nat) (f : Nat → DWord) : (g.setVpair r lanes f).ages = g.ages := rfl
@[simp] theorem Gang.setVpair_slices (g : Gang) (r : Nat) (lanes : List Nat) (f : Nat → DWord) : (g.setVpair r lanes f).slices = g.slices := rfl
@[simp] theorem Gang.setVpair_lastGroup (g : Gang) (r : Nat) (lanes : List Nat) (f : Nat → DWord) : (g.setVpair r lanes f).lastGroup = g.lastGroup := rfl
@[simp] theorem Gang.setVpair_words (g : Gang) (r : Nat) (lanes : List Nat) (f : Nat → DWord) : (g.setVpair r lanes f).words = g.words := rfl
@[simp] theorem Gang.setVpair_convoy (g : Gang) (r : Nat) (lanes : List Nat) (f : Nat → DWord) : (g.setVpair r lanes f).convoy = g.convoy := rfl
@[simp] theorem Gang.setVpair_rc (g : Gang) (r : Nat) (lanes : List Nat) (f : Nat → DWord) : (g.setVpair r lanes f).rc = g.rc := rfl
@[simp] theorem Gang.setVpair_loads (g : Gang) (r : Nat) (lanes : List Nat) (f : Nat → DWord) : (g.setVpair r lanes f).loads = g.loads := rfl
@[simp] theorem Gang.setVpair_chain (g : Gang) (r : Nat) (lanes : List Nat) (f : Nat → DWord) : (g.setVpair r lanes f).chain = g.chain := rfl
@[simp] theorem Gang.setVpair_wait (g : Gang) (r : Nat) (lanes : List Nat) (f : Nat → DWord) : (g.setVpair r lanes f).wait = g.wait := rfl
@[simp] theorem Gang.setVpair_waited (g : Gang) (r : Nat) (lanes : List Nat) (f : Nat → DWord) : (g.setVpair r lanes f).waited = g.waited := rfl
@[simp] theorem Gang.setVpair_held (g : Gang) (r : Nat) (lanes : List Nat) (f : Nat → DWord) : (g.setVpair r lanes f).held = g.held := rfl
@[simp] theorem Gang.setVpair_stop (g : Gang) (r : Nat) (lanes : List Nat) (f : Nat → DWord) : (g.setVpair r lanes f).stop = g.stop := rfl
@[simp] theorem Gang.setVpair_stamp (g : Gang) (r : Nat) (lanes : List Nat) (f : Nat → DWord) : (g.setVpair r lanes f).stamp = g.stamp := rfl
@[simp] theorem Gang.setVpair_seen (g : Gang) (r : Nat) (lanes : List Nat) (f : Nat → DWord) : (g.setVpair r lanes f).seen = g.seen := rfl
@[simp] theorem Gang.setVpair_classSeen (g : Gang) (r : Nat) (lanes : List Nat) (f : Nat → DWord) : (g.setVpair r lanes f).classSeen = g.classSeen := rfl
@[simp] theorem Gang.setVpair_alloc (g : Gang) (r : Nat) (lanes : List Nat) (f : Nat → DWord) : (g.setVpair r lanes f).alloc = g.alloc := rfl
@[simp] theorem Gang.setVpair_refill (g : Gang) (r : Nat) (lanes : List Nat) (f : Nat → DWord) : (g.setVpair r lanes f).refill = g.refill := rfl

/-! ### `Gang.setSpair` -/

@[simp] theorem Gang.setSpair_ctx (g : Gang) (r : Nat) (x : DWord) : (g.setSpair r x).ctx = g.ctx := rfl
@[simp] theorem Gang.setSpair_crew (g : Gang) (r : Nat) (x : DWord) : (g.setSpair r x).crew = g.crew := rfl
@[simp] theorem Gang.setSpair_index (g : Gang) (r : Nat) (x : DWord) : (g.setSpair r x).index = g.index := rfl
@[simp] theorem Gang.setSpair_width (g : Gang) (r : Nat) (x : DWord) : (g.setSpair r x).width = g.width := rfl
@[simp] theorem Gang.setSpair_nregs (g : Gang) (r : Nat) (x : DWord) : (g.setSpair r x).nregs = g.nregs := rfl
@[simp] theorem Gang.setSpair_v (g : Gang) (r : Nat) (x : DWord) : (g.setSpair r x).v = g.v := rfl
@[simp] theorem Gang.setSpair_p (g : Gang) (r : Nat) (x : DWord) : (g.setSpair r x).p = g.p := rfl
@[simp] theorem Gang.setSpair_k (g : Gang) (r : Nat) (x : DWord) : (g.setSpair r x).k = g.k := rfl
@[simp] theorem Gang.setSpair_srkey (g : Gang) (r : Nat) (x : DWord) : (g.setSpair r x).srkey = g.srkey := rfl
@[simp] theorem Gang.setSpair_trim (g : Gang) (r : Nat) (x : DWord) : (g.setSpair r x).trim = g.trim := rfl
@[simp] theorem Gang.setSpair_fpflags (g : Gang) (r : Nat) (x : DWord) : (g.setSpair r x).fpflags = g.fpflags := rfl
@[simp] theorem Gang.setSpair_ages (g : Gang) (r : Nat) (x : DWord) : (g.setSpair r x).ages = g.ages := rfl
@[simp] theorem Gang.setSpair_slices (g : Gang) (r : Nat) (x : DWord) : (g.setSpair r x).slices = g.slices := rfl
@[simp] theorem Gang.setSpair_lastGroup (g : Gang) (r : Nat) (x : DWord) : (g.setSpair r x).lastGroup = g.lastGroup := rfl
@[simp] theorem Gang.setSpair_words (g : Gang) (r : Nat) (x : DWord) : (g.setSpair r x).words = g.words := rfl
@[simp] theorem Gang.setSpair_convoy (g : Gang) (r : Nat) (x : DWord) : (g.setSpair r x).convoy = g.convoy := rfl
@[simp] theorem Gang.setSpair_rc (g : Gang) (r : Nat) (x : DWord) : (g.setSpair r x).rc = g.rc := rfl
@[simp] theorem Gang.setSpair_loads (g : Gang) (r : Nat) (x : DWord) : (g.setSpair r x).loads = g.loads := rfl
@[simp] theorem Gang.setSpair_chain (g : Gang) (r : Nat) (x : DWord) : (g.setSpair r x).chain = g.chain := rfl
@[simp] theorem Gang.setSpair_wait (g : Gang) (r : Nat) (x : DWord) : (g.setSpair r x).wait = g.wait := rfl
@[simp] theorem Gang.setSpair_waited (g : Gang) (r : Nat) (x : DWord) : (g.setSpair r x).waited = g.waited := rfl
@[simp] theorem Gang.setSpair_held (g : Gang) (r : Nat) (x : DWord) : (g.setSpair r x).held = g.held := rfl
@[simp] theorem Gang.setSpair_stop (g : Gang) (r : Nat) (x : DWord) : (g.setSpair r x).stop = g.stop := rfl
@[simp] theorem Gang.setSpair_stamp (g : Gang) (r : Nat) (x : DWord) : (g.setSpair r x).stamp = g.stamp := rfl
@[simp] theorem Gang.setSpair_seen (g : Gang) (r : Nat) (x : DWord) : (g.setSpair r x).seen = g.seen := rfl
@[simp] theorem Gang.setSpair_classSeen (g : Gang) (r : Nat) (x : DWord) : (g.setSpair r x).classSeen = g.classSeen := rfl
@[simp] theorem Gang.setSpair_alloc (g : Gang) (r : Nat) (x : DWord) : (g.setSpair r x).alloc = g.alloc := rfl
@[simp] theorem Gang.setSpair_refill (g : Gang) (r : Nat) (x : DWord) : (g.setSpair r x).refill = g.refill := rfl

/-! ### `Gang.setP` -/

@[simp] theorem Gang.setP_ctx (g : Gang) (i : Nat) (lanes : List Nat) (f : Nat → Bool) : (g.setP i lanes f).ctx = g.ctx := by
  unfold Gang.setP; split <;> rfl
@[simp] theorem Gang.setP_crew (g : Gang) (i : Nat) (lanes : List Nat) (f : Nat → Bool) : (g.setP i lanes f).crew = g.crew := by
  unfold Gang.setP; split <;> rfl
@[simp] theorem Gang.setP_index (g : Gang) (i : Nat) (lanes : List Nat) (f : Nat → Bool) : (g.setP i lanes f).index = g.index := by
  unfold Gang.setP; split <;> rfl
@[simp] theorem Gang.setP_width (g : Gang) (i : Nat) (lanes : List Nat) (f : Nat → Bool) : (g.setP i lanes f).width = g.width := by
  unfold Gang.setP; split <;> rfl
@[simp] theorem Gang.setP_nregs (g : Gang) (i : Nat) (lanes : List Nat) (f : Nat → Bool) : (g.setP i lanes f).nregs = g.nregs := by
  unfold Gang.setP; split <;> rfl
@[simp] theorem Gang.setP_v (g : Gang) (i : Nat) (lanes : List Nat) (f : Nat → Bool) : (g.setP i lanes f).v = g.v := by
  unfold Gang.setP; split <;> rfl
@[simp] theorem Gang.setP_s (g : Gang) (i : Nat) (lanes : List Nat) (f : Nat → Bool) : (g.setP i lanes f).s = g.s := by
  unfold Gang.setP; split <;> rfl
@[simp] theorem Gang.setP_k (g : Gang) (i : Nat) (lanes : List Nat) (f : Nat → Bool) : (g.setP i lanes f).k = g.k := by
  unfold Gang.setP; split <;> rfl
@[simp] theorem Gang.setP_srkey (g : Gang) (i : Nat) (lanes : List Nat) (f : Nat → Bool) : (g.setP i lanes f).srkey = g.srkey := by
  unfold Gang.setP; split <;> rfl
@[simp] theorem Gang.setP_trim (g : Gang) (i : Nat) (lanes : List Nat) (f : Nat → Bool) : (g.setP i lanes f).trim = g.trim := by
  unfold Gang.setP; split <;> rfl
@[simp] theorem Gang.setP_fpflags (g : Gang) (i : Nat) (lanes : List Nat) (f : Nat → Bool) : (g.setP i lanes f).fpflags = g.fpflags := by
  unfold Gang.setP; split <;> rfl
@[simp] theorem Gang.setP_ages (g : Gang) (i : Nat) (lanes : List Nat) (f : Nat → Bool) : (g.setP i lanes f).ages = g.ages := by
  unfold Gang.setP; split <;> rfl
@[simp] theorem Gang.setP_slices (g : Gang) (i : Nat) (lanes : List Nat) (f : Nat → Bool) : (g.setP i lanes f).slices = g.slices := by
  unfold Gang.setP; split <;> rfl
@[simp] theorem Gang.setP_lastGroup (g : Gang) (i : Nat) (lanes : List Nat) (f : Nat → Bool) : (g.setP i lanes f).lastGroup = g.lastGroup := by
  unfold Gang.setP; split <;> rfl
@[simp] theorem Gang.setP_words (g : Gang) (i : Nat) (lanes : List Nat) (f : Nat → Bool) : (g.setP i lanes f).words = g.words := by
  unfold Gang.setP; split <;> rfl
@[simp] theorem Gang.setP_convoy (g : Gang) (i : Nat) (lanes : List Nat) (f : Nat → Bool) : (g.setP i lanes f).convoy = g.convoy := by
  unfold Gang.setP; split <;> rfl
@[simp] theorem Gang.setP_rc (g : Gang) (i : Nat) (lanes : List Nat) (f : Nat → Bool) : (g.setP i lanes f).rc = g.rc := by
  unfold Gang.setP; split <;> rfl
@[simp] theorem Gang.setP_loads (g : Gang) (i : Nat) (lanes : List Nat) (f : Nat → Bool) : (g.setP i lanes f).loads = g.loads := by
  unfold Gang.setP; split <;> rfl
@[simp] theorem Gang.setP_chain (g : Gang) (i : Nat) (lanes : List Nat) (f : Nat → Bool) : (g.setP i lanes f).chain = g.chain := by
  unfold Gang.setP; split <;> rfl
@[simp] theorem Gang.setP_wait (g : Gang) (i : Nat) (lanes : List Nat) (f : Nat → Bool) : (g.setP i lanes f).wait = g.wait := by
  unfold Gang.setP; split <;> rfl
@[simp] theorem Gang.setP_waited (g : Gang) (i : Nat) (lanes : List Nat) (f : Nat → Bool) : (g.setP i lanes f).waited = g.waited := by
  unfold Gang.setP; split <;> rfl
@[simp] theorem Gang.setP_held (g : Gang) (i : Nat) (lanes : List Nat) (f : Nat → Bool) : (g.setP i lanes f).held = g.held := by
  unfold Gang.setP; split <;> rfl
@[simp] theorem Gang.setP_stop (g : Gang) (i : Nat) (lanes : List Nat) (f : Nat → Bool) : (g.setP i lanes f).stop = g.stop := by
  unfold Gang.setP; split <;> rfl
@[simp] theorem Gang.setP_stamp (g : Gang) (i : Nat) (lanes : List Nat) (f : Nat → Bool) : (g.setP i lanes f).stamp = g.stamp := by
  unfold Gang.setP; split <;> rfl
@[simp] theorem Gang.setP_seen (g : Gang) (i : Nat) (lanes : List Nat) (f : Nat → Bool) : (g.setP i lanes f).seen = g.seen := by
  unfold Gang.setP; split <;> rfl
@[simp] theorem Gang.setP_classSeen (g : Gang) (i : Nat) (lanes : List Nat) (f : Nat → Bool) : (g.setP i lanes f).classSeen = g.classSeen := by
  unfold Gang.setP; split <;> rfl
@[simp] theorem Gang.setP_alloc (g : Gang) (i : Nat) (lanes : List Nat) (f : Nat → Bool) : (g.setP i lanes f).alloc = g.alloc := by
  unfold Gang.setP; split <;> rfl
@[simp] theorem Gang.setP_refill (g : Gang) (i : Nat) (lanes : List Nat) (f : Nat → Bool) : (g.setP i lanes f).refill = g.refill := by
  unfold Gang.setP; split <;> rfl

/-! ### `State.issuing`, and the advance of the issuing gang -/

@[simp] theorem State.issuing_ctx (s : State) (g : Gang) : (s.issuing g).ctx = g.ctx := rfl
@[simp] theorem State.issuing_crew (s : State) (g : Gang) : (s.issuing g).crew = g.crew := rfl
@[simp] theorem State.issuing_index (s : State) (g : Gang) : (s.issuing g).index = g.index := rfl
@[simp] theorem State.issuing_width (s : State) (g : Gang) : (s.issuing g).width = g.width := rfl
@[simp] theorem State.issuing_nregs (s : State) (g : Gang) : (s.issuing g).nregs = g.nregs := rfl
@[simp] theorem State.issuing_v (s : State) (g : Gang) : (s.issuing g).v = g.v := rfl
@[simp] theorem State.issuing_s (s : State) (g : Gang) : (s.issuing g).s = g.s := rfl
@[simp] theorem State.issuing_p (s : State) (g : Gang) : (s.issuing g).p = g.p := rfl
@[simp] theorem State.issuing_k (s : State) (g : Gang) : (s.issuing g).k = g.k := rfl
@[simp] theorem State.issuing_srkey (s : State) (g : Gang) : (s.issuing g).srkey = g.srkey := rfl
@[simp] theorem State.issuing_trim (s : State) (g : Gang) : (s.issuing g).trim = g.trim := rfl
@[simp] theorem State.issuing_fpflags (s : State) (g : Gang) : (s.issuing g).fpflags = g.fpflags := rfl
@[simp] theorem State.issuing_ages (s : State) (g : Gang) : (s.issuing g).ages = g.ages := rfl
@[simp] theorem State.issuing_slices (s : State) (g : Gang) : (s.issuing g).slices = g.slices := rfl
@[simp] theorem State.issuing_lastGroup (s : State) (g : Gang) : (s.issuing g).lastGroup = g.lastGroup := rfl
@[simp] theorem State.issuing_words (s : State) (g : Gang) : (s.issuing g).words = g.words := rfl
@[simp] theorem State.issuing_convoy (s : State) (g : Gang) : (s.issuing g).convoy = g.convoy := rfl
@[simp] theorem State.issuing_rc (s : State) (g : Gang) : (s.issuing g).rc = g.rc := rfl
@[simp] theorem State.issuing_loads (s : State) (g : Gang) : (s.issuing g).loads = g.loads := rfl
@[simp] theorem State.issuing_chain (s : State) (g : Gang) : (s.issuing g).chain = g.chain := rfl
@[simp] theorem State.issuing_wait (s : State) (g : Gang) : (s.issuing g).wait = .none := rfl
@[simp] theorem State.issuing_waited (s : State) (g : Gang) : (s.issuing g).waited = 0 := rfl
@[simp] theorem State.issuing_held (s : State) (g : Gang) : (s.issuing g).held = none := rfl
@[simp] theorem State.issuing_stop (s : State) (g : Gang) : (s.issuing g).stop = g.stop := rfl
@[simp] theorem State.issuing_stamp (s : State) (g : Gang) :
    (s.issuing g).stamp = if g.atBarrier then maxEpochs g.stamp (s.applied (dieOf (coreOf s.gang))) else g.stamp := rfl
@[simp] theorem State.issuing_seen (s : State) (g : Gang) : (s.issuing g).seen = g.seen := rfl
@[simp] theorem State.issuing_classSeen (s : State) (g : Gang) : (s.issuing g).classSeen = g.classSeen := rfl
@[simp] theorem State.issuing_alloc (s : State) (g : Gang) : (s.issuing g).alloc = g.alloc := rfl
@[simp] theorem State.issuing_refill (s : State) (g : Gang) : (s.issuing g).refill = g.refill := rfl

@[simp] theorem State.advance_mem (s : State) (g : Gang) (n : Nat) : (s.advance g n).mem = s.mem := rfl
@[simp] theorem State.advance_clock (s : State) (g : Gang) (n : Nat) : (s.advance g n).clock = s.clock := rfl
@[simp] theorem State.advance_powered (s : State) (g : Gang) (n : Nat) : (s.advance g n).powered = s.powered := rfl
@[simp] theorem State.advance_boot (s : State) (g : Gang) (n : Nat) : (s.advance g n).boot = s.boot := rfl
@[simp] theorem State.advance_graceNs (s : State) (g : Gang) (n : Nat) : (s.advance g n).graceNs = s.graceNs := rfl
@[simp] theorem State.advance_killNs (s : State) (g : Gang) (n : Nat) : (s.advance g n).killNs = s.killNs := rfl
@[simp] theorem State.advance_retryDue (s : State) (g : Gang) (n : Nat) : (s.advance g n).retryDue = s.retryDue := rfl
@[simp] theorem State.advance_quantumDue (s : State) (g : Gang) (n : Nat) : (s.advance g n).quantumDue = s.quantumDue := rfl
@[simp] theorem State.advance_disabledCores (s : State) (g : Gang) (n : Nat) : (s.advance g n).disabledCores = s.disabledCores := rfl
@[simp] theorem State.advance_badSectors (s : State) (g : Gang) (n : Nat) : (s.advance g n).badSectors = s.badSectors := rfl
@[simp] theorem State.advance_pending (s : State) (g : Gang) (n : Nat) : (s.advance g n).pending = s.pending := rfl
@[simp] theorem State.advance_dies (s : State) (g : Gang) (n : Nat) : (s.advance g n).dies = s.dies := rfl
@[simp] theorem State.advance_markers (s : State) (g : Gang) (n : Nat) : (s.advance g n).markers = s.markers := rfl
@[simp] theorem State.advance_portTlbs (s : State) (g : Gang) (n : Nat) : (s.advance g n).portTlbs = s.portTlbs := rfl
@[simp] theorem State.advance_shootDowns (s : State) (g : Gang) (n : Nat) : (s.advance g n).shootDowns = s.shootDowns := rfl
@[simp] theorem State.advance_cores (s : State) (g : Gang) (n : Nat) : (s.advance g n).cores = s.cores := rfl
@[simp] theorem State.advance_contexts (s : State) (g : Gang) (n : Nat) : (s.advance g n).contexts = s.contexts := rfl
@[simp] theorem State.advance_crews (s : State) (g : Gang) (n : Nat) : (s.advance g n).crews = s.crews := rfl
@[simp] theorem State.advance_commands (s : State) (g : Gang) (n : Nat) : (s.advance g n).commands = s.commands := rfl
@[simp] theorem State.advance_slots (s : State) (g : Gang) (n : Nat) : (s.advance g n).slots = s.slots := rfl
@[simp] theorem State.advance_service (s : State) (g : Gang) (n : Nat) : (s.advance g n).service = s.service := rfl
@[simp] theorem State.advance_joining (s : State) (g : Gang) (n : Nat) : (s.advance g n).joining = s.joining := rfl
@[simp] theorem State.advance_rung (s : State) (g : Gang) (n : Nat) : (s.advance g n).rung = s.rung := rfl
@[simp] theorem State.advance_lastMapped (s : State) (g : Gang) (n : Nat) : (s.advance g n).lastMapped = s.lastMapped := rfl
@[simp] theorem State.advance_lastSlot (s : State) (g : Gang) (n : Nat) : (s.advance g n).lastSlot = s.lastSlot := rfl
@[simp] theorem State.advance_queueWrites (s : State) (g : Gang) (n : Nat) : (s.advance g n).queueWrites = s.queueWrites := rfl
@[simp] theorem State.advance_placedUntil (s : State) (g : Gang) (n : Nat) : (s.advance g n).placedUntil = s.placedUntil := rfl
@[simp] theorem State.advance_heldQueues (s : State) (g : Gang) (n : Nat) : (s.advance g n).heldQueues = s.heldQueues := rfl
@[simp] theorem State.advance_portHolds (s : State) (g : Gang) (n : Nat) : (s.advance g n).portHolds = s.portHolds := rfl
@[simp] theorem State.advance_harts (s : State) (g : Gang) (n : Nat) : (s.advance g n).harts = s.harts := rfl
@[simp] theorem State.advance_images (s : State) (g : Gang) (n : Nat) : (s.advance g n).images = s.images := rfl
@[simp] theorem State.advance_serial (s : State) (g : Gang) (n : Nat) : (s.advance g n).serial = s.serial := rfl
@[simp] theorem State.advance_chartMoves (s : State) (g : Gang) (n : Nat) : (s.advance g n).chartMoves = s.chartMoves := rfl
@[simp] theorem State.advance_gang (s : State) (g : Gang) (n : Nat) : (s.advance g n).gang = s.gang := rfl
@[simp] theorem State.advance_group (s : State) (g : Gang) (n : Nat) : (s.advance g n).group = s.group := rfl
@[simp] theorem State.advance_hart (s : State) (g : Gang) (n : Nat) : (s.advance g n).hart = s.hart := rfl
@[simp] theorem State.advance_subject (s : State) (g : Gang) (n : Nat) : (s.advance g n).subject = s.subject := rfl
@[simp] theorem State.advance_idle (s : State) (g : Gang) (n : Nat) : (s.advance g n).idle = s.idle := rfl
@[simp] theorem State.advance_fetchFault (s : State) (g : Gang) (n : Nat) : (s.advance g n).fetchFault = s.fetchFault := rfl
@[simp] theorem State.advance_agenda (s : State) (g : Gang) (n : Nat) : (s.advance g n).agenda = s.agenda := rfl

@[simp] theorem State.proceed_mem (s : State) (g : Gang) (n : Nat) (f : Nat → Slice → Slice) :
    (s.proceed g n f).mem = s.mem := rfl
@[simp] theorem State.proceed_clock (s : State) (g : Gang) (n : Nat) (f : Nat → Slice → Slice) :
    (s.proceed g n f).clock = s.clock := rfl
@[simp] theorem State.proceed_powered (s : State) (g : Gang) (n : Nat) (f : Nat → Slice → Slice) :
    (s.proceed g n f).powered = s.powered := rfl
@[simp] theorem State.proceed_boot (s : State) (g : Gang) (n : Nat) (f : Nat → Slice → Slice) :
    (s.proceed g n f).boot = s.boot := rfl
@[simp] theorem State.proceed_graceNs (s : State) (g : Gang) (n : Nat) (f : Nat → Slice → Slice) :
    (s.proceed g n f).graceNs = s.graceNs := rfl
@[simp] theorem State.proceed_killNs (s : State) (g : Gang) (n : Nat) (f : Nat → Slice → Slice) :
    (s.proceed g n f).killNs = s.killNs := rfl
@[simp] theorem State.proceed_retryDue (s : State) (g : Gang) (n : Nat) (f : Nat → Slice → Slice) :
    (s.proceed g n f).retryDue = s.retryDue := rfl
@[simp] theorem State.proceed_quantumDue (s : State) (g : Gang) (n : Nat) (f : Nat → Slice → Slice) :
    (s.proceed g n f).quantumDue = s.quantumDue := rfl
@[simp] theorem State.proceed_disabledCores (s : State) (g : Gang) (n : Nat) (f : Nat → Slice → Slice) :
    (s.proceed g n f).disabledCores = s.disabledCores := rfl
@[simp] theorem State.proceed_badSectors (s : State) (g : Gang) (n : Nat) (f : Nat → Slice → Slice) :
    (s.proceed g n f).badSectors = s.badSectors := rfl
@[simp] theorem State.proceed_pending (s : State) (g : Gang) (n : Nat) (f : Nat → Slice → Slice) :
    (s.proceed g n f).pending = s.pending := rfl
@[simp] theorem State.proceed_dies (s : State) (g : Gang) (n : Nat) (f : Nat → Slice → Slice) :
    (s.proceed g n f).dies = s.dies := rfl
@[simp] theorem State.proceed_markers (s : State) (g : Gang) (n : Nat) (f : Nat → Slice → Slice) :
    (s.proceed g n f).markers = s.markers := rfl
@[simp] theorem State.proceed_portTlbs (s : State) (g : Gang) (n : Nat) (f : Nat → Slice → Slice) :
    (s.proceed g n f).portTlbs = s.portTlbs := rfl
@[simp] theorem State.proceed_shootDowns (s : State) (g : Gang) (n : Nat) (f : Nat → Slice → Slice) :
    (s.proceed g n f).shootDowns = s.shootDowns := rfl
@[simp] theorem State.proceed_cores (s : State) (g : Gang) (n : Nat) (f : Nat → Slice → Slice) :
    (s.proceed g n f).cores = s.cores := rfl
@[simp] theorem State.proceed_contexts (s : State) (g : Gang) (n : Nat) (f : Nat → Slice → Slice) :
    (s.proceed g n f).contexts = s.contexts := rfl
@[simp] theorem State.proceed_crews (s : State) (g : Gang) (n : Nat) (f : Nat → Slice → Slice) :
    (s.proceed g n f).crews = s.crews := rfl
@[simp] theorem State.proceed_commands (s : State) (g : Gang) (n : Nat) (f : Nat → Slice → Slice) :
    (s.proceed g n f).commands = s.commands := rfl
@[simp] theorem State.proceed_slots (s : State) (g : Gang) (n : Nat) (f : Nat → Slice → Slice) :
    (s.proceed g n f).slots = s.slots := rfl
@[simp] theorem State.proceed_service (s : State) (g : Gang) (n : Nat) (f : Nat → Slice → Slice) :
    (s.proceed g n f).service = s.service := rfl
@[simp] theorem State.proceed_joining (s : State) (g : Gang) (n : Nat) (f : Nat → Slice → Slice) :
    (s.proceed g n f).joining = s.joining := rfl
@[simp] theorem State.proceed_rung (s : State) (g : Gang) (n : Nat) (f : Nat → Slice → Slice) :
    (s.proceed g n f).rung = s.rung := rfl
@[simp] theorem State.proceed_lastMapped (s : State) (g : Gang) (n : Nat) (f : Nat → Slice → Slice) :
    (s.proceed g n f).lastMapped = s.lastMapped := rfl
@[simp] theorem State.proceed_lastSlot (s : State) (g : Gang) (n : Nat) (f : Nat → Slice → Slice) :
    (s.proceed g n f).lastSlot = s.lastSlot := rfl
@[simp] theorem State.proceed_queueWrites (s : State) (g : Gang) (n : Nat) (f : Nat → Slice → Slice) :
    (s.proceed g n f).queueWrites = s.queueWrites := rfl
@[simp] theorem State.proceed_placedUntil (s : State) (g : Gang) (n : Nat) (f : Nat → Slice → Slice) :
    (s.proceed g n f).placedUntil = s.placedUntil := rfl
@[simp] theorem State.proceed_heldQueues (s : State) (g : Gang) (n : Nat) (f : Nat → Slice → Slice) :
    (s.proceed g n f).heldQueues = s.heldQueues := rfl
@[simp] theorem State.proceed_portHolds (s : State) (g : Gang) (n : Nat) (f : Nat → Slice → Slice) :
    (s.proceed g n f).portHolds = s.portHolds := rfl
@[simp] theorem State.proceed_harts (s : State) (g : Gang) (n : Nat) (f : Nat → Slice → Slice) :
    (s.proceed g n f).harts = s.harts := rfl
@[simp] theorem State.proceed_images (s : State) (g : Gang) (n : Nat) (f : Nat → Slice → Slice) :
    (s.proceed g n f).images = s.images := rfl
@[simp] theorem State.proceed_serial (s : State) (g : Gang) (n : Nat) (f : Nat → Slice → Slice) :
    (s.proceed g n f).serial = s.serial := rfl
@[simp] theorem State.proceed_chartMoves (s : State) (g : Gang) (n : Nat) (f : Nat → Slice → Slice) :
    (s.proceed g n f).chartMoves = s.chartMoves := rfl
@[simp] theorem State.proceed_gang (s : State) (g : Gang) (n : Nat) (f : Nat → Slice → Slice) :
    (s.proceed g n f).gang = s.gang := rfl
@[simp] theorem State.proceed_group (s : State) (g : Gang) (n : Nat) (f : Nat → Slice → Slice) :
    (s.proceed g n f).group = s.group := rfl
@[simp] theorem State.proceed_hart (s : State) (g : Gang) (n : Nat) (f : Nat → Slice → Slice) :
    (s.proceed g n f).hart = s.hart := rfl
@[simp] theorem State.proceed_subject (s : State) (g : Gang) (n : Nat) (f : Nat → Slice → Slice) :
    (s.proceed g n f).subject = s.subject := rfl
@[simp] theorem State.proceed_idle (s : State) (g : Gang) (n : Nat) (f : Nat → Slice → Slice) :
    (s.proceed g n f).idle = s.idle := rfl
@[simp] theorem State.proceed_fetchFault (s : State) (g : Gang) (n : Nat) (f : Nat → Slice → Slice) :
    (s.proceed g n f).fetchFault = s.fetchFault := rfl
@[simp] theorem State.proceed_agenda (s : State) (g : Gang) (n : Nat) (f : Nat → Slice → Slice) :
    (s.proceed g n f).agenda = s.agenda := rfl

@[simp] theorem State.raiseLine_mem (s : State) (n : Nat) (t : Trap) : (s.raiseLine n t).mem = s.mem := rfl
@[simp] theorem State.raiseLine_clock (s : State) (n : Nat) (t : Trap) : (s.raiseLine n t).clock = s.clock := rfl
@[simp] theorem State.raiseLine_powered (s : State) (n : Nat) (t : Trap) : (s.raiseLine n t).powered = s.powered := rfl
@[simp] theorem State.raiseLine_boot (s : State) (n : Nat) (t : Trap) : (s.raiseLine n t).boot = s.boot := rfl
@[simp] theorem State.raiseLine_graceNs (s : State) (n : Nat) (t : Trap) : (s.raiseLine n t).graceNs = s.graceNs := rfl
@[simp] theorem State.raiseLine_killNs (s : State) (n : Nat) (t : Trap) : (s.raiseLine n t).killNs = s.killNs := rfl
@[simp] theorem State.raiseLine_retryDue (s : State) (n : Nat) (t : Trap) : (s.raiseLine n t).retryDue = s.retryDue := rfl
@[simp] theorem State.raiseLine_quantumDue (s : State) (n : Nat) (t : Trap) : (s.raiseLine n t).quantumDue = s.quantumDue := rfl
@[simp] theorem State.raiseLine_disabledCores (s : State) (n : Nat) (t : Trap) : (s.raiseLine n t).disabledCores = s.disabledCores := rfl
@[simp] theorem State.raiseLine_badSectors (s : State) (n : Nat) (t : Trap) : (s.raiseLine n t).badSectors = s.badSectors := rfl
@[simp] theorem State.raiseLine_pending (s : State) (n : Nat) (t : Trap) : (s.raiseLine n t).pending = s.pending := rfl
@[simp] theorem State.raiseLine_dies (s : State) (n : Nat) (t : Trap) : (s.raiseLine n t).dies = s.dies := rfl
@[simp] theorem State.raiseLine_markers (s : State) (n : Nat) (t : Trap) : (s.raiseLine n t).markers = s.markers := rfl
@[simp] theorem State.raiseLine_portTlbs (s : State) (n : Nat) (t : Trap) : (s.raiseLine n t).portTlbs = s.portTlbs := rfl
@[simp] theorem State.raiseLine_shootDowns (s : State) (n : Nat) (t : Trap) : (s.raiseLine n t).shootDowns = s.shootDowns := rfl
@[simp] theorem State.raiseLine_cores (s : State) (n : Nat) (t : Trap) : (s.raiseLine n t).cores = s.cores := rfl
@[simp] theorem State.raiseLine_crews (s : State) (n : Nat) (t : Trap) : (s.raiseLine n t).crews = s.crews := rfl
@[simp] theorem State.raiseLine_gangs (s : State) (n : Nat) (t : Trap) : (s.raiseLine n t).gangs = s.gangs := rfl
@[simp] theorem State.raiseLine_commands (s : State) (n : Nat) (t : Trap) : (s.raiseLine n t).commands = s.commands := rfl
@[simp] theorem State.raiseLine_slots (s : State) (n : Nat) (t : Trap) : (s.raiseLine n t).slots = s.slots := rfl
@[simp] theorem State.raiseLine_service (s : State) (n : Nat) (t : Trap) : (s.raiseLine n t).service = s.service := rfl
@[simp] theorem State.raiseLine_joining (s : State) (n : Nat) (t : Trap) : (s.raiseLine n t).joining = s.joining := rfl
@[simp] theorem State.raiseLine_rung (s : State) (n : Nat) (t : Trap) : (s.raiseLine n t).rung = s.rung := rfl
@[simp] theorem State.raiseLine_lastMapped (s : State) (n : Nat) (t : Trap) : (s.raiseLine n t).lastMapped = s.lastMapped := rfl
@[simp] theorem State.raiseLine_lastSlot (s : State) (n : Nat) (t : Trap) : (s.raiseLine n t).lastSlot = s.lastSlot := rfl
@[simp] theorem State.raiseLine_queueWrites (s : State) (n : Nat) (t : Trap) : (s.raiseLine n t).queueWrites = s.queueWrites := rfl
@[simp] theorem State.raiseLine_placedUntil (s : State) (n : Nat) (t : Trap) : (s.raiseLine n t).placedUntil = s.placedUntil := rfl
@[simp] theorem State.raiseLine_heldQueues (s : State) (n : Nat) (t : Trap) : (s.raiseLine n t).heldQueues = s.heldQueues := rfl
@[simp] theorem State.raiseLine_portHolds (s : State) (n : Nat) (t : Trap) : (s.raiseLine n t).portHolds = s.portHolds := rfl
@[simp] theorem State.raiseLine_harts (s : State) (n : Nat) (t : Trap) : (s.raiseLine n t).harts = s.harts := rfl
@[simp] theorem State.raiseLine_images (s : State) (n : Nat) (t : Trap) : (s.raiseLine n t).images = s.images := rfl
@[simp] theorem State.raiseLine_serial (s : State) (n : Nat) (t : Trap) : (s.raiseLine n t).serial = s.serial := rfl
@[simp] theorem State.raiseLine_chartMoves (s : State) (n : Nat) (t : Trap) : (s.raiseLine n t).chartMoves = s.chartMoves := rfl
@[simp] theorem State.raiseLine_gang (s : State) (n : Nat) (t : Trap) : (s.raiseLine n t).gang = s.gang := rfl
@[simp] theorem State.raiseLine_group (s : State) (n : Nat) (t : Trap) : (s.raiseLine n t).group = s.group := rfl
@[simp] theorem State.raiseLine_hart (s : State) (n : Nat) (t : Trap) : (s.raiseLine n t).hart = s.hart := rfl
@[simp] theorem State.raiseLine_subject (s : State) (n : Nat) (t : Trap) : (s.raiseLine n t).subject = s.subject := rfl
@[simp] theorem State.raiseLine_idle (s : State) (n : Nat) (t : Trap) : (s.raiseLine n t).idle = s.idle := rfl
@[simp] theorem State.raiseLine_fetchFault (s : State) (n : Nat) (t : Trap) : (s.raiseLine n t).fetchFault = s.fetchFault := rfl
@[simp] theorem State.raiseLine_agenda (s : State) (n : Nat) (t : Trap) : (s.raiseLine n t).agenda = s.agenda := rfl

@[simp] theorem State.stopGang_mem (s : State) (k : Nat) (g : Gang) (e : TrapEvent) : (s.stopGang k g e).mem = s.mem := rfl
@[simp] theorem State.stopGang_clock (s : State) (k : Nat) (g : Gang) (e : TrapEvent) : (s.stopGang k g e).clock = s.clock := rfl
@[simp] theorem State.stopGang_powered (s : State) (k : Nat) (g : Gang) (e : TrapEvent) : (s.stopGang k g e).powered = s.powered := rfl
@[simp] theorem State.stopGang_boot (s : State) (k : Nat) (g : Gang) (e : TrapEvent) : (s.stopGang k g e).boot = s.boot := rfl
@[simp] theorem State.stopGang_graceNs (s : State) (k : Nat) (g : Gang) (e : TrapEvent) : (s.stopGang k g e).graceNs = s.graceNs := rfl
@[simp] theorem State.stopGang_killNs (s : State) (k : Nat) (g : Gang) (e : TrapEvent) : (s.stopGang k g e).killNs = s.killNs := rfl
@[simp] theorem State.stopGang_retryDue (s : State) (k : Nat) (g : Gang) (e : TrapEvent) : (s.stopGang k g e).retryDue = s.retryDue := rfl
@[simp] theorem State.stopGang_quantumDue (s : State) (k : Nat) (g : Gang) (e : TrapEvent) : (s.stopGang k g e).quantumDue = s.quantumDue := rfl
@[simp] theorem State.stopGang_disabledCores (s : State) (k : Nat) (g : Gang) (e : TrapEvent) : (s.stopGang k g e).disabledCores = s.disabledCores := rfl
@[simp] theorem State.stopGang_badSectors (s : State) (k : Nat) (g : Gang) (e : TrapEvent) : (s.stopGang k g e).badSectors = s.badSectors := rfl
@[simp] theorem State.stopGang_pending (s : State) (k : Nat) (g : Gang) (e : TrapEvent) : (s.stopGang k g e).pending = s.pending := rfl
@[simp] theorem State.stopGang_dies (s : State) (k : Nat) (g : Gang) (e : TrapEvent) : (s.stopGang k g e).dies = s.dies := rfl
@[simp] theorem State.stopGang_markers (s : State) (k : Nat) (g : Gang) (e : TrapEvent) : (s.stopGang k g e).markers = s.markers := rfl
@[simp] theorem State.stopGang_portTlbs (s : State) (k : Nat) (g : Gang) (e : TrapEvent) : (s.stopGang k g e).portTlbs = s.portTlbs := rfl
@[simp] theorem State.stopGang_shootDowns (s : State) (k : Nat) (g : Gang) (e : TrapEvent) : (s.stopGang k g e).shootDowns = s.shootDowns := rfl
@[simp] theorem State.stopGang_cores (s : State) (k : Nat) (g : Gang) (e : TrapEvent) : (s.stopGang k g e).cores = s.cores := rfl
@[simp] theorem State.stopGang_crews (s : State) (k : Nat) (g : Gang) (e : TrapEvent) : (s.stopGang k g e).crews = s.crews := rfl
@[simp] theorem State.stopGang_commands (s : State) (k : Nat) (g : Gang) (e : TrapEvent) : (s.stopGang k g e).commands = s.commands := rfl
@[simp] theorem State.stopGang_slots (s : State) (k : Nat) (g : Gang) (e : TrapEvent) : (s.stopGang k g e).slots = s.slots := rfl
@[simp] theorem State.stopGang_service (s : State) (k : Nat) (g : Gang) (e : TrapEvent) : (s.stopGang k g e).service = s.service := rfl
@[simp] theorem State.stopGang_joining (s : State) (k : Nat) (g : Gang) (e : TrapEvent) : (s.stopGang k g e).joining = s.joining := rfl
@[simp] theorem State.stopGang_rung (s : State) (k : Nat) (g : Gang) (e : TrapEvent) : (s.stopGang k g e).rung = s.rung := rfl
@[simp] theorem State.stopGang_lastMapped (s : State) (k : Nat) (g : Gang) (e : TrapEvent) : (s.stopGang k g e).lastMapped = s.lastMapped := rfl
@[simp] theorem State.stopGang_lastSlot (s : State) (k : Nat) (g : Gang) (e : TrapEvent) : (s.stopGang k g e).lastSlot = s.lastSlot := rfl
@[simp] theorem State.stopGang_queueWrites (s : State) (k : Nat) (g : Gang) (e : TrapEvent) : (s.stopGang k g e).queueWrites = s.queueWrites := rfl
@[simp] theorem State.stopGang_placedUntil (s : State) (k : Nat) (g : Gang) (e : TrapEvent) : (s.stopGang k g e).placedUntil = s.placedUntil := rfl
@[simp] theorem State.stopGang_heldQueues (s : State) (k : Nat) (g : Gang) (e : TrapEvent) : (s.stopGang k g e).heldQueues = s.heldQueues := rfl
@[simp] theorem State.stopGang_portHolds (s : State) (k : Nat) (g : Gang) (e : TrapEvent) : (s.stopGang k g e).portHolds = s.portHolds := rfl
@[simp] theorem State.stopGang_harts (s : State) (k : Nat) (g : Gang) (e : TrapEvent) : (s.stopGang k g e).harts = s.harts := rfl
@[simp] theorem State.stopGang_images (s : State) (k : Nat) (g : Gang) (e : TrapEvent) : (s.stopGang k g e).images = s.images := rfl
@[simp] theorem State.stopGang_serial (s : State) (k : Nat) (g : Gang) (e : TrapEvent) : (s.stopGang k g e).serial = s.serial := rfl
@[simp] theorem State.stopGang_chartMoves (s : State) (k : Nat) (g : Gang) (e : TrapEvent) : (s.stopGang k g e).chartMoves = s.chartMoves := rfl
@[simp] theorem State.stopGang_gang (s : State) (k : Nat) (g : Gang) (e : TrapEvent) : (s.stopGang k g e).gang = s.gang := rfl
@[simp] theorem State.stopGang_group (s : State) (k : Nat) (g : Gang) (e : TrapEvent) : (s.stopGang k g e).group = s.group := rfl
@[simp] theorem State.stopGang_hart (s : State) (k : Nat) (g : Gang) (e : TrapEvent) : (s.stopGang k g e).hart = s.hart := rfl
@[simp] theorem State.stopGang_subject (s : State) (k : Nat) (g : Gang) (e : TrapEvent) : (s.stopGang k g e).subject = s.subject := rfl
@[simp] theorem State.stopGang_idle (s : State) (k : Nat) (g : Gang) (e : TrapEvent) : (s.stopGang k g e).idle = s.idle := rfl
@[simp] theorem State.stopGang_fetchFault (s : State) (k : Nat) (g : Gang) (e : TrapEvent) : (s.stopGang k g e).fetchFault = s.fetchFault := rfl
@[simp] theorem State.stopGang_agenda (s : State) (k : Nat) (g : Gang) (e : TrapEvent) : (s.stopGang k g e).agenda = s.agenda := rfl

@[simp] theorem State.answer_mem (s : State) (d : BitVec 5) (v : DWord) : (s.answer d v).mem = s.mem := rfl
@[simp] theorem State.answer_clock (s : State) (d : BitVec 5) (v : DWord) : (s.answer d v).clock = s.clock := rfl
@[simp] theorem State.answer_powered (s : State) (d : BitVec 5) (v : DWord) : (s.answer d v).powered = s.powered := rfl
@[simp] theorem State.answer_boot (s : State) (d : BitVec 5) (v : DWord) : (s.answer d v).boot = s.boot := rfl
@[simp] theorem State.answer_graceNs (s : State) (d : BitVec 5) (v : DWord) : (s.answer d v).graceNs = s.graceNs := rfl
@[simp] theorem State.answer_killNs (s : State) (d : BitVec 5) (v : DWord) : (s.answer d v).killNs = s.killNs := rfl
@[simp] theorem State.answer_retryDue (s : State) (d : BitVec 5) (v : DWord) : (s.answer d v).retryDue = s.retryDue := rfl
@[simp] theorem State.answer_quantumDue (s : State) (d : BitVec 5) (v : DWord) : (s.answer d v).quantumDue = s.quantumDue := rfl
@[simp] theorem State.answer_disabledCores (s : State) (d : BitVec 5) (v : DWord) : (s.answer d v).disabledCores = s.disabledCores := rfl
@[simp] theorem State.answer_badSectors (s : State) (d : BitVec 5) (v : DWord) : (s.answer d v).badSectors = s.badSectors := rfl
@[simp] theorem State.answer_pending (s : State) (d : BitVec 5) (v : DWord) : (s.answer d v).pending = s.pending := rfl
@[simp] theorem State.answer_dies (s : State) (d : BitVec 5) (v : DWord) : (s.answer d v).dies = s.dies := rfl
@[simp] theorem State.answer_markers (s : State) (d : BitVec 5) (v : DWord) : (s.answer d v).markers = s.markers := rfl
@[simp] theorem State.answer_portTlbs (s : State) (d : BitVec 5) (v : DWord) : (s.answer d v).portTlbs = s.portTlbs := rfl
@[simp] theorem State.answer_shootDowns (s : State) (d : BitVec 5) (v : DWord) : (s.answer d v).shootDowns = s.shootDowns := rfl
@[simp] theorem State.answer_cores (s : State) (d : BitVec 5) (v : DWord) : (s.answer d v).cores = s.cores := rfl
@[simp] theorem State.answer_contexts (s : State) (d : BitVec 5) (v : DWord) : (s.answer d v).contexts = s.contexts := rfl
@[simp] theorem State.answer_crews (s : State) (d : BitVec 5) (v : DWord) : (s.answer d v).crews = s.crews := rfl
@[simp] theorem State.answer_gangs (s : State) (d : BitVec 5) (v : DWord) : (s.answer d v).gangs = s.gangs := rfl
@[simp] theorem State.answer_commands (s : State) (d : BitVec 5) (v : DWord) : (s.answer d v).commands = s.commands := rfl
@[simp] theorem State.answer_slots (s : State) (d : BitVec 5) (v : DWord) : (s.answer d v).slots = s.slots := rfl
@[simp] theorem State.answer_service (s : State) (d : BitVec 5) (v : DWord) : (s.answer d v).service = s.service := rfl
@[simp] theorem State.answer_joining (s : State) (d : BitVec 5) (v : DWord) : (s.answer d v).joining = s.joining := rfl
@[simp] theorem State.answer_rung (s : State) (d : BitVec 5) (v : DWord) : (s.answer d v).rung = s.rung := rfl
@[simp] theorem State.answer_lastMapped (s : State) (d : BitVec 5) (v : DWord) : (s.answer d v).lastMapped = s.lastMapped := rfl
@[simp] theorem State.answer_lastSlot (s : State) (d : BitVec 5) (v : DWord) : (s.answer d v).lastSlot = s.lastSlot := rfl
@[simp] theorem State.answer_queueWrites (s : State) (d : BitVec 5) (v : DWord) : (s.answer d v).queueWrites = s.queueWrites := rfl
@[simp] theorem State.answer_placedUntil (s : State) (d : BitVec 5) (v : DWord) : (s.answer d v).placedUntil = s.placedUntil := rfl
@[simp] theorem State.answer_heldQueues (s : State) (d : BitVec 5) (v : DWord) : (s.answer d v).heldQueues = s.heldQueues := rfl
@[simp] theorem State.answer_portHolds (s : State) (d : BitVec 5) (v : DWord) : (s.answer d v).portHolds = s.portHolds := rfl
@[simp] theorem State.answer_images (s : State) (d : BitVec 5) (v : DWord) : (s.answer d v).images = s.images := rfl
@[simp] theorem State.answer_serial (s : State) (d : BitVec 5) (v : DWord) : (s.answer d v).serial = s.serial := rfl
@[simp] theorem State.answer_chartMoves (s : State) (d : BitVec 5) (v : DWord) : (s.answer d v).chartMoves = s.chartMoves := rfl
@[simp] theorem State.answer_gang (s : State) (d : BitVec 5) (v : DWord) : (s.answer d v).gang = s.gang := rfl
@[simp] theorem State.answer_group (s : State) (d : BitVec 5) (v : DWord) : (s.answer d v).group = s.group := rfl
@[simp] theorem State.answer_hart (s : State) (d : BitVec 5) (v : DWord) : (s.answer d v).hart = s.hart := rfl
@[simp] theorem State.answer_subject (s : State) (d : BitVec 5) (v : DWord) : (s.answer d v).subject = s.subject := rfl
@[simp] theorem State.answer_idle (s : State) (d : BitVec 5) (v : DWord) : (s.answer d v).idle = s.idle := rfl
@[simp] theorem State.answer_fetchFault (s : State) (d : BitVec 5) (v : DWord) : (s.answer d v).fetchFault = s.fetchFault := rfl
@[simp] theorem State.answer_agenda (s : State) (d : BitVec 5) (v : DWord) : (s.answer d v).agenda = s.agenda := rfl

end Sys2Proof.Machine
end

