-- ==== Sys2Proof/Machine/SaveArea.lean ====
section
/-!
DEFINITION. The bytes of save areas, stop records and cold images (19 R372, R381-R388, R392; 11 R243; 01 R23). The machine keeps what they
hold as data, and no agent but the device reaches them; these functions say how that data is laid out (log 22). The order of
the fields in a side-log entry and in a pending send or receive, and the form of an image's header, are chosen (log 22, log 20).
-/
namespace Sys2Proof.Machine

/-- A field of a record: its offset, its size in bytes, and the number it holds, lowest byte first. -/
structure Field where
  offset : Nat
  size : Nat
  value : Nat
  deriving DecidableEq, Repr

/-- The byte at an offset of a record; a byte that no field holds is zero. -/
def byteAt (fields : List Field) (offset : Nat) : Byte :=
  match fields.find? fun f => decide (f.offset ≤ offset) && decide (offset < f.offset + f.size) with
  | none => 0
  | some f => BitVec.ofNat 8 (f.value / 256 ^ (offset - f.offset))

/-- Fields that stand at an offset of a larger record. -/
def placed (offset : Nat) (fields : List Field) : List Field := fields.map fun f => { f with offset := offset + f.offset }

/-- Records of one size, one after another from an offset. -/
def table (offset size : Nat) (records : List (List Field)) : List Field :=
  (records.mapIdx fun i r => placed (offset + size * i) r).flatten

/-- Numbers of one size, one after another from an offset. -/
def numbers (offset size : Nat) (values : List Nat) : List Field :=
  values.mapIdx fun i v => ⟨offset + size * i, size, v⟩

/-- A number made of flags, the first one its lowest bit. -/
def flagsOf (l : List Bool) : Nat := l.foldr (fun b n => (if b then 1 else 0) + 2 * n) 0

/-! ### Records (19 R372; 01 R23) -/

/-- A stop record, 64 bytes (19 R372). -/
def StopRecord.fields (r : StopRecord) : List Field :=
  [⟨0x00, 8, r.timestamp⟩, ⟨0x08, 2, r.source⟩, ⟨0x0A, 1, trapCode r.cause⟩, ⟨0x0B, 1, r.flags.toNat⟩, ⟨0x0C, 2, r.ctx⟩,
   ⟨0x0E, 2, r.core⟩, ⟨0x10, 8, r.laneMask.toNat⟩, ⟨0x18, 4, r.age.toNat⟩, ⟨0x1C, 1, r.gang⟩, ⟨0x1D, 1, r.code⟩,
   ⟨0x20, 8, r.address.toNat⟩, ⟨0x28, 8, r.pc.toNat⟩, ⟨0x30, 8, r.trapPc.toNat⟩, ⟨0x38, 4, r.launch.toNat⟩]

/-- A launch record, 256 bytes (01 R23). -/
def LaunchRecord.fields (r : LaunchRecord) : List Field :=
  [⟨0x00, 8, r.entry.toNat⟩, ⟨0x08, 8, r.prologue.toNat⟩, ⟨0x10, 8, r.body.toNat⟩, ⟨0x18, 8, r.retire.toNat⟩,
   ⟨0x20, 8, r.crewCount.toNat⟩, ⟨0x28, 8, r.params.toNat⟩, ⟨0x30, 4, r.geometry.toNat⟩, ⟨0x34, 4, r.control.toNat⟩,
   ⟨0x38, 4, r.ident.toNat⟩, ⟨0x70, 8, r.roles.toNat⟩] ++
  numbers 0x40 4 (r.preds.map BitVec.toNat) ++ numbers 0x50 4 (r.seeds.map BitVec.toNat) ++
  numbers 0x60 2 (r.slots.map BitVec.toNat) ++ numbers 0x80 4 (r.convoys.map BitVec.toNat)

/-! ### The context header (19 R382) -/

/-- An accepted launch in the header, 512 bytes. -/
def Launch.fields (l : Launch) : List Field :=
  l.record.fields ++ [⟨0x100, 8, l.nextCrew⟩, ⟨0x108, 8, l.entryAddr.toNat⟩]

/-- A failure in the header, 8 bytes (13 R297). -/
def Failure.fields (f : Failure) : List Field := [⟨0, 4, f.ident.toNat⟩, ⟨4, 1, f.state⟩, ⟨5, 1, f.code⟩]

/-- The context header, 64 KiB (19 R382). -/
def Context.headerFields (c : Context) : List Field :=
  let flags := flagsOf [c.saved.isSome, c.cold, c.resumeWithParent]
  let halt : List Field :=
    match c.saved with
    | none => []
    | some x =>
      [⟨0x0004, 4, x.cores.length⟩, ⟨0x0008, 1, trapCode x.cause⟩, ⟨0x0009, 1, if x.forced then 2 else 1⟩,
       ⟨0x000C, 4, x.records.length⟩, ⟨0x0010, 8, x.haltTime⟩] ++ table 0x0100 64 (x.records.map StopRecord.fields)
  [⟨0x0000, 4, 1⟩, ⟨0x000A, 1, c.pullFailures⟩, ⟨0x000B, 1, flags⟩] ++ halt ++
    table 0x1000 512 (c.launches.map Launch.fields) ++ table 0x9000 8 (c.failures.map Failure.fields)

/-! ### Gangs (19 R384) -/

/-- The code of a mask-stack entry's kind (11 R243). -/
def EntryKind.code (k : EntryKind) : Nat :=
  match k with
  | .running => 0
  | .pending => 1
  | .resumed => 2
  | .resumedFree => 3

/-- A mask-stack entry as it is stored (11 R243). -/
def MaskEntry.stored (e : MaskEntry) : Nat := e.addr.toNat % 2 ^ 48 * 65536 + e.kind.code * 16 + e.mask.toNat

/-- The program counters of the slices, and their stacks, bottom entry first, from two offsets. -/
def sliceFields (pcs masks : Nat) (l : List Slice) : List Field :=
  numbers pcs 8 (l.map fun sl => sl.pc.toNat) ++ table masks 64 (l.map fun sl => numbers 0 8 (sl.stack.reverse.map MaskEntry.stored))

/-- The code of a refill step (19 R384). -/
def RefillStep.code (x : RefillStep) : Nat :=
  match x with
  | .bodyPass => 0
  | .retire => 1
  | .prologue => 2
  | .check => 3

/-- The code of a lane's state (12 R269). -/
def LaneState.code (x : LaneState) : Nat :=
  match x with
  | .outside => 0
  | .fresh => 1
  | .working => 2
  | .berthed => 3
  | .idle => 4

/-- What a gang's record says of its wait: the code, the counter and the target (19 R384). -/
def Gang.waitFields (g : Gang) : Nat × Nat × Nat :=
  match g.wait, g.slices.findSome? fun sl => sl.yielded with
  | .bar c target, _ => (1, c, target)
  | .barc d target, _ => (2, d, target)
  | _, some y => (3, y.counter, 0)
  | _, none => (0, 0, 0)

/-- A gang record, 4 KiB (19 R384); `image` is the offset of its register image. -/
def Gang.fields (g : Gang) (image : Nat) : List Field :=
  let (wait, counter, target) := g.waitFields
  let step := (g.refill.map fun r => r.step.code).getD 0
  let flags := 1 + (if g.refill.isSome then 2 else 0) + 4 * step + 16 * wait + (if g.parted then 64 else 0)
  let yield := ((g.slices.findSome? fun sl => sl.yielded).map fun y => y.target.toNat).getD 0
  let width := if g.width = 16 then 0 else if g.width = 32 then 1 else 2
  [⟨0x000, 4, flags⟩, ⟨0x004, 1, g.crew % 8⟩, ⟨0x005, 1, g.index⟩, ⟨0x006, 1, width + 4 * (g.nregs / 8 - 1)⟩,
   ⟨0x007, 1, g.convoy.getD 8⟩, ⟨0x008, 4, image⟩, ⟨0x00C, 4, g.trim.toNat⟩, ⟨0x010, 4, g.fpflags.toNat⟩, ⟨0x014, 4, counter⟩,
   ⟨0x018, 4, target⟩, ⟨0x01C, 4, g.lastGroup⟩, ⟨0x030, 8, g.words⟩, ⟨0x038, 8, yield⟩] ++
  numbers 0x020 1 (g.slices.map fun sl => sl.group) ++ sliceFields 0x040 0x0C0 g.slices ++
  numbers 0x4C0 8 ((List.range 16).map fun i => (g.p.get i).toNat) ++
  numbers 0x540 16 ((List.range 16).map fun i => (g.k.get i).toNat) ++
  table 0x640 32 (g.rc.map fun c => [⟨0, 2, c.count⟩, ⟨16, 16, c.binding.toNat⟩]) ++
  (match g.refill with
    | none => []
    | some r => sliceFields 0x740 0x7C0 r.saved ++ numbers 0xBC0 1 (r.lanes.map LaneState.code)) ++
  numbers 0xC00 4 (g.ages.map BitVec.toNat) ++ numbers 0xD00 4 ((List.range 64).map fun l => (g.srkey.get l).toNat) ++
  numbers 0xE00 4 ((List.range 128).map fun i => (g.s.get i).toNat)

/-- Bytes of the register image of a gang. -/
def Gang.imageBytes (g : Gang) : Nat := 4 * g.width * g.nregs

/-- The register image of a gang: register v of lane l at 4 × (v × W + l) (19 R383). -/
def Gang.imageFields (g : Gang) : List Field :=
  g.v.map fun e => ⟨4 * (e.1 / 64 * g.width + e.1 % 64), 4, e.2.toNat⟩

/-! ### Crews (19 R385) -/

/-- The latch index of a convoy definition of a crew slot (19 R385, R387). -/
def latchIndex (slot defn : Nat) : Nat := slot * 8 + defn

/-- A crew record, 1 KiB (19 R385): `launches` is the header's launch table, `slot` the crew slot, `image` the offset of its scratchpad
image, and `latches` tells which definitions have a latch. -/
def Crew.fields (c : Crew) (launches : List Launch) (slot image : Nat) (latches : Nat → Bool) : List Field :=
  let total (d : Nat) : Nat := ((c.convoys.find? fun x => x.defn == d).map fun x => x.total).getD 0
  let barrier (i : Nat) : Nat := (c.barriers.get i).toNat
  [⟨0x000, 4, if c.manifest.isSome then 3 else 1⟩, ⟨0x004, 4, launches.findIdx fun l => l.record.ident == c.launch⟩,
   ⟨0x008, 8, c.index⟩, ⟨0x010, 4, image⟩, ⟨0x014, 4, 4096 * c.record.granules⟩] ++
  numbers 0x018 4 ((List.range 16).map fun i => barrier i % 2 ^ 32) ++ numbers 0x058 4 ((List.range 8).map fun d => total d % 2 ^ 32) ++
  numbers 0x078 1 ((List.range 8).map fun d => if latches d then latchIndex slot d else 0xFF) ++
  (match c.manifest with
    | none => []
    | some m =>
      numbers 0x080 4 [m.first.toNat, m.count.toNat, m.stride.toNat, m.next, m.tidemark] ++
        [⟨0x100, 128, (m.retired.map fun a => 2 ^ (a - m.tidemark - 1)).sum⟩]) ++
  numbers 0x094 4 ((List.range 16).map fun i => barrier i / 2 ^ 32) ++ numbers 0x0D4 4 ((List.range 8).map fun d => total d / 2 ^ 32)

/-! ### Engine commands (19 R386) -/

/-- An arrival as the field f[6:2] of its command gives it (04 R102). -/
def arrivalField (a : Option Nat) : Nat :=
  match a with
  | none => 0
  | some n => 16 + n

/-- The words of a command's block as read at issue, and its handle copy: what the block's registers held, and behind them for the gantry's
instructions the fields they carry (19 R386; the latter's order is chosen, log 22). -/
def Work.block (w : Work) : BitVec 128 × List Nat :=
  let pair (x : DWord) : List Nat := [(lowWord x).toNat, (highWord x).toNat]
  match w with
  | .copy sp dp src dst n => (0, pair src ++ pair dst ++ [n, flagsOf [sp, dp]])
  | .tile mode h dst pitch r0 c0 m n pad index => (h, [dst, pitch, r0, c0, m + 65536 * n, pad.toNat, index, mode])
  | .dequant f t h dst pitch page j0 n pad => (h, [dst, pitch] ++ pair page ++ [j0 + 65536 * n, pad.toNat, f + if t then 16 else 0])
  | .gather size index n base data => (0, [index, n] ++ pair base ++ [data, size])
  | .scatter size index n base data => (0, [index, n] ++ pair base ++ [data, size])
  | .joint sparse acc keep slot rows latch parts =>
    (0, [acc, flagsOf [sparse, keep], slot, rows, latch] ++ ((parts.map fun p => p.scalars).headD []).map BitVec.toNat)
  | .azero acc => (0, [acc])
  | .aload acc pad src pitch first count => (0, pair src ++ [pitch, first + 65536 * count, acc, flagsOf [pad]])
  | .adrain acc pad hist zero release dst pitch first count at_ key slot trim _ seed =>
    (0, pair dst ++ [pitch, first + 65536 * count, at_, key.toNat, acc + 4 * flagsOf [pad, hist, zero, release], slot.toNat, trim.toNat,
      seed.toNat])
  | .peerSend acc core destAcc rows => (0, [core, destAcc, rows, acc])
  | .peerRecv acc rows sends trim => (0, [sends.length, rows, acc, trim.toNat])
  | .rowGet acc d row col lanes => (0, [row + 65536 * col, acc, d] ++ pair lanes)
  | .rowPut acc row col lanes _ => (0, [row + 65536 * col, acc] ++ pair lanes)

/-- An engine command record, 64 bytes (19 R386). -/
def Command.fields (c : Command) : List Field :=
  let (handle, words) := c.work.block
  [⟨0, 2, classCode c.cls⟩, ⟨2, 1, gangField (c.gangs.headD 0)⟩, ⟨3, 1, (if c.arrival.isSome then 1 else 0) + 2 * arrivalField c.arrival⟩,
   ⟨4, 4, c.progress⟩, ⟨8, 16, handle.toNat⟩] ++ numbers 24 4 words

/-- The record of a pilot chain: its progress is the number of pages committed; behind what 19 R386 lists stand the notices yet to be
written, in an order of the model's (log 22). -/
def Chain.fields (c : Chain) (slot : Nat) : List Field :=
  [⟨0, 2, classCode .pilot⟩, ⟨2, 1, slot⟩, ⟨3, 1, (if c.arrival.isSome then 1 else 0) + 2 * arrivalField c.arrival⟩,
   ⟨4, 4, c.committed⟩, ⟨24, 8, ((c.next.or (c.unread.map fun n => n.page)).getD 0).toNat⟩, ⟨32, 4, c.unfreed⟩, ⟨36, 1, c.notices.length⟩] ++
  numbers 40 8 ((c.notices.map fun n => n.page.toNat).take 3)

/-- The engine records of a core slot in issue order. -/
def SavedCore.engineRecords (x : SavedCore) (commands : List Command) : List (List Field) :=
  let chains := x.gangs.filterMap fun e => e.2.chain.map fun c => (c.id, c.fields e.1)
  let mine := (commands.filter fun c => c.core == x.logical).map fun c => (c.id, c.fields)
  ((mine ++ chains).mergeSort fun a b => decide (a.1 ≤ b.1)).map fun e => e.2

/-! ### Side log, latches and bank (19 R383, R387) -/

/-- The code of a logged operation. -/
def SideOp.code (op : SideOp) : Nat :=
  match op with
  | .store => 0
  | .redAdd => 1
  | .redFadd => 2
  | .redMin => 3
  | .redMax => 4
  | .chart .. => 5

/-- A side-log entry, 64 bytes: what R332 lists, in an order of the model's (log 22). -/
def SideEntry.fields (e : SideEntry) : List Field :=
  let coords : List Nat :=
    match e.op with
    | .chart _ x y z => [x.toNat, y.toNat, z.toNat]
    | _ => []
  [⟨0, 8, e.addr.toNat⟩, ⟨8, 16, e.data.toNat⟩, ⟨24, 4, e.age.toNat⟩, ⟨28, 4, e.launch.toNat⟩, ⟨44, 1, e.op.code⟩, ⟨45, 1, e.size⟩,
   ⟨46, 1, e.lane.getD 0xFF⟩, ⟨47, 1, gangField e.gang⟩, ⟨48, 1, trapCode e.cause⟩, ⟨49, 1, e.counted.toNat⟩,
   ⟨50, 1, flagsOf [e.repro, e.release, e.faultAt.isSome]⟩, ⟨52, 4, e.item⟩, ⟨56, 8, (e.faultAt.getD 0).toNat⟩] ++ numbers 32 4 coords

/-- A row of an operand latch, 192 bytes (19 R387). -/
def latchRow (row : List (Option Word)) : List Field :=
  let word (j : Nat) : Nat := (((row[j]?).bind id).getD 0).toNat
  numbers 0 4 ((List.range 32).map word) ++ numbers 128 4 ((List.range 13).map fun j => word (32 + j)) ++
    [⟨184, 8, flagsOf ((List.range 45).map fun j => ((row[j]?).bind id).isSome)⟩]

/-- The gantry bank of a core slot, with its latches, from the slot's beginning (19 R383, R387). -/
def Bank.fields (b : Bank) (sends : List (List Field)) : List Field :=
  placed 0x0790000
    ((b.acc.map fun e => ⟨4 * e.1, 4, e.2.toNat⟩) ++
      numbers 0x60000 1 ((List.range 4).map fun a => if b.holds.get a = 0 then 0xFF else ((b.holds.get a).toNat - 1) % 8) ++
      table 0x60100 16 sends) ++
  b.latches.flatMap fun e =>
    if e.1 < 128 then table (0x0A50000 + 12288 * e.1) 192 (e.2.map latchRow)
    else table (0x0810000 + 36864 * (e.1 - 128)) 192 (e.2.map latchRow)

/-- The pending sends and receives of a core, 16 bytes each, in an order of the model's (log 22): the sends that stand in its bank, its own
and those offered to it, those of its own that its gantry has yet to reach, and its receives (09 R237). -/
def peerRecords (offers : List Offer) (mine : List Command) : List (List Field) :=
  (offers.map fun o => numbers 0 2 [1, o.acc, o.core, o.destAcc, o.rows, 1, o.dest]) ++
    mine.filterMap fun c =>
      match c.work with
      | .peerSend acc core destAcc rows => if c.offered then none else some (numbers 0 2 [1, acc, core, destAcc, rows, 0])
      | .peerRecv acc rows sends _ => some (numbers 0 2 [2, acc, sends.length, 0, rows, 0])
      | _ => none

/-! ### Core slots and the area (19 R381, R383) -/

/-- The items of a list, each with the sum of the sizes before it. -/
def withOffsets {α : Type} (size : α → Nat) : Nat → List α → List (Nat × α)
  | _, [] => []
  | n, x :: rest => (n, x) :: withOffsets size (n + size x) rest

/-- The mooring table of a core slot: the entries of its crews one crew after another, by crew slot (19 R383; 03 R90). -/
def mooringFields (crews : Table (Crew × Cells 8)) : List Field :=
  (withOffsets (fun e => e.2.1.record.mooringEntries) 0 crews).flatMap fun x =>
    x.2.2.1.mooring.map fun m =>
      ⟨0x6000 + 8 * (x.1 + m.1), 8, x.2.1 * 2 ^ 61 + 2 ^ 60 + (m.2.toNat - 1)⟩

/-- A core slot, 16 MiB (19 R383). -/
def SavedCore.fields (x : SavedCore) (launches : List Launch) (commands : List Command) : List Field :=
  let records := x.engineRecords commands
  let mine := commands.filter fun c => c.core == x.logical
  let latched (slot d : Nat) : Bool := (x.bank.any fun b => (b.latches.find (128 + latchIndex slot d)).isSome)
  let gangs := withOffsets (fun e => e.2.imageBytes) 0 x.gangs
  let crews := withOffsets (fun e => 4096 * e.2.1.record.granules) 0 x.crews
  numbers 0 4 [x.gangs.length, x.crews.length, records.length, x.sideLog.length] ++ table 0x40 64 (x.records.map StopRecord.fields) ++
  (crews.flatMap fun e =>
    placed (0x4000 + 1024 * e.2.1) (e.2.2.1.fields launches e.2.1 e.1 (latched e.2.1)) ++
      e.2.2.2.map fun b => ⟨0x390000 + e.1 + b.1, 1, b.2.toNat⟩) ++
  mooringFields x.crews ++ table 0x8000 64 (x.sideLog.map SideEntry.fields) ++
  (gangs.flatMap fun e => placed (0x10000 + 4096 * e.2.1) (e.2.2.fields e.1) ++ placed (0x290000 + e.1) e.2.2.imageFields) ++
  table 0x90000 64 records ++ ((x.bank.map fun b => b.fields (peerRecords b.offers mine)).getD [])

/-- The save area of a context: the header, then the core slots by logical core (19 R381). -/
def Context.saveFields (c : Context) : List Field :=
  c.headerFields ++
    match c.saved with
    | none => []
    | some x => x.cores.flatMap fun k => placed (0x10000 + 0x1000000 * k.logical) (k.fields c.launches x.commands)

/-- A byte of a context's save area (19 R381). -/
def State.saveByte (s : State) (ctx offset : Nat) : Byte :=
  match s.context ctx with
  | none => 0
  | some c => byteAt c.saveFields offset

/-! ### Cold images (19 R392) -/

/-- The bytes of a frame, in order. -/
def frameList (f : Cells 8) : List Byte := (List.range 0x200000).map f.get

/-- The first block of each section of an image: the areas of its contexts, the frame index, the frames (19 R392). -/
def Image.sections (i : Image) : List Nat × Nat × Nat :=
  let areas := withOffsets Context.areaBlocks 1 i.contexts.values
  let index := 1 + (i.contexts.values.map Context.areaBlocks).sum
  (areas.map fun x => x.1, index, index + (48 * i.frames.length + 4095) / 4096)

/-- An image before it is encrypted: its header, the save areas and grant arrays, the frame index with the digests, and the frames (19
R392). The widths of the header's fields are the model's (log 20). -/
def Image.fields (i : Image) : List Field :=
  let (areas, index, frames) := i.sections
  numbers 0 8 ([1, i.ctx, i.contexts.length, i.frames.length] ++ areas ++ [index, frames]) ++
  ((areas.zip i.contexts.values).flatMap fun e =>
    placed (4096 * e.1) e.2.saveFields ++
      placed (4096 * e.1 + 0x10000 + 0x1000000 * e.2.cores.length) (e.2.grants.map fun g => ⟨8 * g.1, 8, g.2.toNat⟩)) ++
  table (4096 * index) 48
    (i.frames.mapIdx fun j f => [⟨0, 4, f.1⟩, ⟨8, 32, numberOf ((shake256 (frameList f.2)).take 32)⟩, ⟨40, 8, frames + 512 * j⟩]) ++
  (i.frames.mapIdx fun j f => f.2.map fun b => (⟨4096 * (frames + 512 * j) + b.1, 1, b.2.toNat⟩ : Field)).flatten

/-- A byte of an image before it is encrypted (19 R392). -/
def Image.byte (i : Image) (offset : Nat) : Byte := byteAt i.fields offset

end Sys2Proof.Machine
end

