-- ==== Sys2Proof/Tests/Slice0.lean ====
section
/-!
SUPPORT. Tests of single steps on small states, the words of the spec's encodings, and witnesses that meet the hypotheses of the
statements.
-/
namespace Sys2Proof.Tests
set_option Elab.async false
open Sys2Proof.Machine Sys2Proof.Claim

/-! ### Well-formedness: one ill-formed term for each check -/

theorem test_illformed : ([
    .modifier false false false 0 0 7 0, .modifier true true false 0 0 0 0, .ld 0 0 0 5 0, .ld 0 0 0 2 3, .st 0 0 0 6 0,
    .st 0 0 0 2 3, .ldsp 0 0 0 7, .stsp 0 0 0 5, .sld 0 0 5 0, .sld 0 0 2 3, .sst 0 0 6 0, .sst 0 0 2 3, .pref 0 0 3,
    .ldacq 0 0 0 7, .strel 0 0 0 7, .atomAdd 0 0 0 7, .atomMin 0 0 0 7, .atomMax 0 0 0 7, .atomExch 0 0 0 7,
    .atombAnd 0 0 0 7, .atombOr 0 0 0 7, .atombXor 0 0 0 7, .atombFadd 0 0 0 7, .cas 0 0 0 7, .mredAdd 0 0 0 7,
    .mredFadd 0 0 0 7] : List Instr).all (fun i => !i.wf) = true := by decide

theorem test_illformed_more : ([
    .mredMin 0 0 0 7, .mredMax 0 0 0 7, .ordap 0 0 7, .mma 0 false 0 0 0 3, .mmas 0 false 0 0 0 3, .crc 0 false 1 false false,
    .crtTile 0 0 false 2, .crtTr 0 0 false 3, .crtGather 0 0 false 4, .crtDeq false 0 0 0 false 5, .lgt 0 true 0 3,
    .lsc 0 false 1 0, .pilStart 0 false 1, .ccw 0 5, .fenceAcq 7, .fenceRel 7, .fenceAcqrel 7, .fenceSc 7, .fencerAcq 0 0 7,
    .fencerRel 0 0 7, .fencerAcqrel 0 0 7, .cyield 0 13, .clbinv 0 1, .clbinv 0 5, .clbinvTile 0 0 0, .rsr true 0 33,
    .rsr true 0 1, .rsr false 0 0] : List Instr).all (fun i => !i.wf) = true := by decide

/-! ### Decoding -/

/-- Reserved and malformed words are rejected by name (02 R38, R42, R46, R53; 16 R335). -/
theorem test_decode_rejects :
    ([(0x72000000, .unassignedOpcode), (0xB2000000, .unassignedOpcode), (0xF8000000, .unassignedOpcode), (0x00000001, .badForm),
      (0x020A183F, .badForm), (0x16000007, .badForm), (0x68000005, .badForm), (0xF2000200, .badForm), (0x90144074, .reservedField),
      (0x9014406B, .reservedField), (0xCA00001F, .reservedField), (0xCE000A0D, .reservedField), (0xFF007090, .reservedField)] :
      List (Nat × Reject)).all (fun x => match decode x.1 with
        | .ok _ => false
        | .error e => e == x.2) = true := by decide +kernel

/-- A whole word is taken from the bytes in little-endian order (00 R4, 02 R35). -/
theorem test_decode_bytes : decodeBytes [0x38, 0x18, 0x0A, 0x02] = .ok (.iadd false 5 6 7) ∧
    decodeBytes [0x38, 0x18, 0x0A] = .error .tooShort := by decide +kernel

/-- Words assembled from the field places of the spec's encoding tables (02 R50-R53; 16 R335): nop to not. -/
theorem test_decode_gang0 : ([
    (0x00000000, .nop),
    (0xFF42D8A0, .modifier true false true false 5 5 138),
    (0x025F2C40, .iadd false 47 75 8),
    (0x040A31C0, .isub false 5 12 56),
    (0x07127C60, .imul true 9 31 12),
    (0x0711AA49, .imulhi true 8 106 73),
    (0x06F4768A, .imulhu false 122 29 81),
    (0x08952D98, .imad false 74 75 51),
    (0x0AFA7430, .iquo false 125 29 6),
    (0x0A4CD899, .iquoU false 38 54 19),
    (0x0C94A240, .irem false 74 40 72),
    (0x0C1D2E51, .iremU false 14 75 74),
    (0x0E603638, .imin false 48 13 71),
    (0x0E922281, .iminU false 73 8 80),
    (0x10816228, .imax false 64 88 69),
    (0x11C8A5E1, .imaxU true 100 41 60),
    (0x135E9C00, .iabs true 47 39),
    (0x14CC6000, .ineg false 102 24),
    (0x16172938, .and false 11 74 39),
    (0x17E2B2F1, .andn true 113 44 94),
    (0x174B3BF2, .or true 37 78 126),
    (0x162109B3, .orn false 16 66 54),
    (0x16C2B0A4, .xor false 97 44 20),
    (0x176C1BE5, .xnor true 54 6 124),
    (0x16C52006, .not false 98 72)] : List (Nat × Instr)).all
      (fun x => decide ((decode x.1).toOption = some x.2)) = true := by decide +kernel

/-- Words assembled from the field places of the spec's encoding tables (02 R50-R53; 16 R335): shl to lea. -/
theorem test_decode_gang1 : ([
    (0x19596568, .shl true 44 89 45),
    (0x19979DD9, .shr true 75 103 59),
    (0x18D833CA, .sar false 108 12 121),
    (0x197B6AB3, .rol true 61 90 86),
    (0x1A117800, .popc false 8 94),
    (0x1BA72801, .clz true 83 74),
    (0x1B4B7002, .ctz true 37 92),
    (0x1BE55803, .brev true 114 86),
    (0x1D07E5E0, .bfe true 3 121 60),
    (0x1D2D3C79, .bfeS true 22 79 15),
    (0x1F107318, .bfi true 8 28 99),
    (0x204A46F8, .sel 37 17 95),
    (0x220ECFB0, .icmpEq false 7 51 118),
    (0x230459D1, .icmpNe true 2 22 58),
    (0x23129392, .icmpLt true 9 36 114),
    (0x221CE37B, .icmpLe false 14 56 111),
    (0x2318DBFC, .icmpLtu true 12 54 127),
    (0x2317C98D, .icmpLeu true 11 114 49),
    (0x22062CBE, .icmpTst false 3 11 23),
    (0x220954F7, .icmpTstz false 4 85 30),
    (0x247FAE60, .add64 false 63 107 76),
    (0x24449409, .sub64 false 34 37 1),
    (0x266D1580, .mul64 false 54 69 48),
    (0x27F446C9, .mul64U true 122 17 89),
    (0x2877D387, .lea false 59 116 112 7)] : List (Nat × Instr)).all
      (fun x => decide ((decode x.1).toOption = some x.2)) = true := by decide +kernel

/-- Words assembled from the field places of the spec's encoding tables (02 R50-R53; 16 R335): addi to iaddus. -/
theorem test_decode_gang2 : ([
    (0x2B66D194, .addi true 51 52 404),
    (0x2C7D499B, .andi false 62 82 411),
    (0x2E3227F1, .ori false 25 9 1009),
    (0x30725471, .xori false 57 21 113),
    (0x339A1C04, .shli true 77 7 4),
    (0x32925032, .shri false 73 20 18),
    (0x32F4BC54, .sari false 122 47 20),
    (0x3215C067, .roli false 10 112 7),
    (0x352944D2, .movi true 20 83154),
    (0x37F6B1DE, .movhi true 123 45534),
    (0x397A4000, .mov true 61 16),
    (0x381FB401, .bcast 15 109),
    (0x387FF9E2, .rdlane 63 126 60),
    (0x387CF943, .wrlane 62 62 40),
    (0x3A040C10, .pand 2 3 2),
    (0x3A181861, .por 12 6 12),
    (0x3A0A2072, .pxor 5 8 14),
    (0x3A180C03, .pnot 12 3),
    (0x3B860404, .ptest 67 1),
    (0x3B362405, .pcnt 27 9),
    (0x3B5E0C06, .pfirst 47 3),
    (0x3BB22407, .pbits 89 9),
    (0x3D1E1000, .pset 15 4),
    (0x3FFD4F78, .iadds true 126 83 111),
    (0x3EB5B511, .iaddus false 90 109 34)] : List (Nat × Instr)).all
      (fun x => decide ((decode x.1).toOption = some x.2)) = true := by decide +kernel

/-- Words assembled from the field places of the spec's encoding tables (02 R50-R53; 16 R335): isubs to fcmpLt. -/
theorem test_decode_gang3 : ([
    (0x3FEA5972, .isubs true 117 22 46),
    (0x3E8B1B23, .isubus false 69 70 100),
    (0x4082AE90, .fadd 65 43 82),
    (0x423B3F40, .fsub 29 79 104),
    (0x44CBFF10, .fmul 101 127 98),
    (0x46DC6740, .fma 110 25 104),
    (0x483FA5A0, .fms 31 105 52),
    (0x4ABF9CF0, .fnma 95 103 30),
    (0x4C350E00, .fmin 26 67 64),
    (0x4C5D7821, .fmax 46 94 4),
    (0x4CFE1332, .fminnum 127 4 102),
    (0x4C48F513, .fmaxnum 36 61 34),
    (0x4E336670, .fdiv 25 89 78),
    (0x50F6B400, .fsqrt 123 45),
    (0x5275A000, .frcp 58 104),
    (0x52F17401, .frsq 120 93),
    (0x52FEB402, .fexp2 127 45),
    (0x52F7F403, .flog2 123 125),
    (0x525E2C04, .fsin 47 11),
    (0x523A3805, .fcos 29 14),
    (0x523CF406, .frint 30 61),
    (0x5234B007, .ffloor 26 44),
    (0x5408FA80, .fcmpEq 4 62 80),
    (0x541F3F61, .fcmpNe 15 79 108),
    (0x5402FBAA, .fcmpLt 1 62 117)] : List (Nat × Instr)).all
      (fun x => decide ((decode x.1).toOption = some x.2)) = true := by decide +kernel

/-- Words assembled from the field places of the spec's encoding tables (02 R50-R53; 16 R335): fcmpLe to shflDown. -/
theorem test_decode_gang4 : ([
    (0x5416B73B, .fcmpLe 11 45 103),
    (0x54162F5C, .fcmpUn 11 11 107),
    (0x541643AD, .fcmpOrd 11 16 117),
    (0x540F96E6, .fcmpLtu 7 101 92),
    (0x541A69F7, .fcmpLeu 13 26 62),
    (0x56E45C00, .fclass 114 23),
    (0x58719806, .cvt 56 102 6),
    (0x5A563000, .cvti 43 12),
    (0x5ACFE801, .cvtiU 103 122),
    (0x5CFB7400, .cvtf 125 93),
    (0x5C66F001, .cvtfU 51 60),
    (0x5E6983D0, .pack16 52 96 122),
    (0x5E1774A9, .pack8 11 93 21),
    (0x5E2C4422, .pack4 22 17 4),
    (0x602933A0, .unpack16 20 76 116),
    (0x6079A2A1, .unpack8 60 104 84),
    (0x60273F52, .unpack4 19 79 106),
    (0x620137F0, .xhist 77 126),
    (0x647B57C0, .dot2 61 85 120),
    (0x645A5239, .dot4 45 20 71),
    (0x648E441A, .dot8 71 17 3),
    (0x66059FE8, .rng 2 103 125),
    (0x68BB5070, .shflIdx 93 84 14),
    (0x688983C1, .shflUp 68 96 120),
    (0x6824E3FA, .shflDown 18 56 127)] : List (Nat × Instr)).all
      (fun x => decide ((decode x.1).toOption = some x.2)) = true := by decide +kernel

/-- Words assembled from the field places of the spec's encoding tables (02 R50-R53; 16 R335): shflXor to ld. -/
theorem test_decode_gang5 : ([
    (0x68E06753, .shflXor 112 25 106),
    (0x68E07024, .shflBcast 112 28 4),
    (0x6A427000, .vredFadd 33 28),
    (0x6A4D0401, .vredFmax 38 65),
    (0x6A3F8802, .vredFmin 31 98),
    (0x6A98A803, .vredIadd 76 42),
    (0x6A451804, .vredImax 34 70),
    (0x6A6DAC05, .vredImin 54 107),
    (0x6C222000, .vscanFadd 17 8),
    (0x6CEB7C01, .vscanIadd 117 95),
    (0x6C5DCC02, .vscanIaddx 46 115),
    (0x6F00EC00, .trim 59),
    (0x70AB2F48, .fscale 85 75 105),
    (0x81F57750, .mma 3 true 106 59 5 1),
    (0x83A24260, .mmas 3 false 68 33 1 2),
    (0x84004000, .azero 1),
    (0x8600C080, .aload 3 1 false),
    (0x88004989, .adrain 1 19 true false false true),
    (0x8A00E180, .apeerSend 3 67),
    (0x8A00E401, .apeerRecv 3 72),
    (0x8CF87900, .arowGet 62 1 114),
    (0x8D205001, .arowPut 72 1 32),
    (0x8E000002, .convoy 2),
    (0x8E000008, .convoyNone),
    (0x90903C66, .ld 36 3 99 1 2)] : List (Nat × Instr)).all
      (fun x => decide ((decode x.1).toOption = some x.2)) = true := by decide +kernel

/-- Words assembled from the field places of the spec's encoding tables (02 R50-R53; 16 R335): st to sst. -/
theorem test_decode_gang6 : ([
    (0x92EA4091, .st 58 36 4 4 1),
    (0x94E559F0, .ldsp 57 21 79 4),
    (0x973A1350, .stsp 78 33 26 4),
    (0x9891D850, .ldacq 36 29 66 4),
    (0x9BA1F828, .strel 104 31 65 2),
    (0x9D6A2E2C, .atomAdd 90 34 113 3),
    (0x9DDE4E69, .atomMin 119 36 115 2),
    (0x9DB1D252, .atomMax 108 29 18 4),
    (0x9C41A72F, .atomExch 16 26 57 3),
    (0x9E2AB3F0, .atombAnd 10 43 31 4),
    (0x9E28EACD, .atombOr 10 14 86 3),
    (0x9F948E72, .atombXor 101 8 115 4),
    (0x9E53DB93, .atombFadd 20 61 92 4),
    (0xA155826C, .cas 85 24 19 3),
    (0xA3C89F90, .mredAdd 114 9 124 4),
    (0xA2770F45, .mredFadd 29 48 122 1),
    (0xA2CF97EA, .mredMin 51 57 63 2),
    (0xA3FEBD6B, .mredMax 127 43 107 2),
    (0xA456EFF0, .ordap 21 46 4),
    (0xA684D160, .mrlookVector 66 52 44),
    (0xA76C6BF8, .mrlookScalar 54 26),
    (0xA900B948, .mrset 46 41),
    (0xAB000060, .mrclr 12),
    (0xAD758FE6, .sld 93 24 1 2),
    (0xAF1DEFF2, .sst 71 30 4 2)] : List (Nat × Instr)).all
      (fun x => decide ((decode x.1).toOption = some x.2)) = true := by decide +kernel

/-- Words assembled from the field places of the spec's encoding tables (02 R50-R53; 16 R335): pref to ldc. -/
theorem test_decode_gang7 : ([
    (0xB0002642, .pref 2 50 2),
    (0xB8026800, .hmk 9 80),
    (0xB89A4001, .hmkGet 38 9),
    (0xBA003DC8, .crc 123 true 2 false false),
    (0xBC009144, .crtTile 2 34 true 1),
    (0xBC03F255, .crtTr 15 100 true 5),
    (0xBC0348FA, .crtGather 13 17 true 14),
    (0xBC5CE2F3, .crtDeq true 7 3 69 true 12),
    (0xBE001555, .lgt 42 true 5 1),
    (0xC00033DD, .lsc 103 true 7 1),
    (0xC20011EC, .pilStart 35 true 11),
    (0xC2000001, .pilNext),
    (0xC2000002, .pilStop),
    (0xC4008007, .rcb 2 7),
    (0xC6001101, .rcw 34 1),
    (0xC8002704, .ccw 78 4),
    (0xCA000008, .fenceAcq 2),
    (0xCA000005, .fenceRel 1),
    (0xCA00000E, .fenceAcqrel 3),
    (0xCA000013, .fenceSc 4),
    (0xCC001D81, .fencerAcq false 59 1),
    (0xCC00638C, .fencerRel true 71 4),
    (0xCC006812, .fencerAcqrel true 80 2),
    (0xCE000309, .cyield 6 9),
    (0xD16D3C81, .ldc 91 4 121 1)] : List (Nat × Instr)).all
      (fun x => decide ((decode x.1).toOption = some x.2)) = true := by decide +kernel

/-- Words assembled from the field places of the spec's encoding tables (02 R50-R53; 16 R335): stc to wsrSrkey. -/
theorem test_decode_gang8 : ([
    (0xD3F4D101, .stc 125 3 34 1),
    (0xD4613C00, .chq 24 4 120),
    (0xD6A2D400, .chfree 40 11 40),
    (0xD6027101, .chfreeRet 9 98),
    (0xD8010003, .clbinv 4 3),
    (0xD802208B, .clbinvTile 8 65 3),
    (0xDA000000, .berth),
    (0xDD005C00, .mfst 23),
    (0xDF00B400, .tideWait true 45),
    (0xDECE0001, .tideAge 103),
    (0xDF060002, .tideMark 3),
    (0xE0A03EDC, .br 5 false 16092),
    (0xE3000C00, .jmp 3),
    (0xE40BBAB3, .call 768691),
    (0xE7010400, .ret 65),
    (0xE8000000, .join),
    (0xE8000001, .regang),
    (0xEA002400, .bar 9),
    (0xEA000801, .barc 2),
    (0xEA002402, .arrive 9),
    (0xEA002103, .await 8 32),
    (0xEC000000, .exit),
    (0xEF1C0005, .rsr true 14 5),
    (0xF1D20000, .wsrTrim 105),
    (0xF0A8000A, .wsrSrkey 84)] : List (Nat × Instr)).all
      (fun x => decide ((decode x.1).toOption = some x.2)) = true := by decide +kernel

/-- Words assembled from the field places of the spec's encoding tables (02 R50-R53; 16 R335): wsrFpflags to lnch. -/
theorem test_decode_gang9 : ([
    (0xF170000B, .wsrFpflags 56),
    (0xF20000A9, .trap 169),
    (0xF200218C, .trapif 8 140),
    (0xF40000D6, .brk 214),
    (0xF7E4CFE8, .lnch 114 51 125)] : List (Nat × Instr)).all
      (fun x => decide ((decode x.1).toOption = some x.2)) = true := by decide +kernel

/-- Words assembled from the field places of the spec's encoding tables (02 R50-R53; 16 R335): ctxNew to tlbfence. -/
theorem test_decode_hart0 : ([
    (0x01150B8B, .ctxNew 17 10 23),
    (0x0074058B, .ctxNew 7 8 11),
    (0x007D9E8B, .ctxGrant 7 27 29),
    (0x017C2A8B, .ctxRevoke 23 24 21),
    (0x0056A60B, .ctxRevoke 5 13 12),
    (0x00013D8B, .ctxGo 2 27),
    (0x0250B18B, .ctxHaltQuery 5 1 3),
    (0x035C3E8B, .ctxHaltQuery 21 24 29),
    (0x0297330B, .ctxHaltQuery 9 14 6),
    (0x0021CB0B, .ctxBudget 2 3 22),
    (0x01B6DE0B, .ctxScope 27 13 28),
    (0x011B600B, .tlbinvVirtual 17 22),
    (0x00AA600B, .tlbinvVirtual 10 20),
    (0x0000700B, .tlbfence)] : List (Nat × Instr)).all
      (fun x => decide ((decodeHart x.1).toOption = some x.2)) = true := by decide +kernel

/-! ### Small states -/

/-- The state in which the placed gang, of 16 lanes, is about to execute a word. -/
def gangState (w : Nat) : State := { State.reset.withFetchWord 32 w with gang := 0, group := 0, agenda := [] }

/-- The gang of that state. -/
def gangOf (s : State) : Gang := (s.gangs.find s.gang).getD (Gang.start 0 0 0 0 placedRecord)

/-- A state whose gang has been changed. -/
def withGang (f : Gang → Gang) : State := let s := gangState 0; s.setGang 0 (f (gangOf s))

/-- What a result's gang becomes. -/
def outcome (r : Result) : Option Gang :=
  match r with
  | .next t => t.gangs.find t.gang
  | _ => none

/-- The s register that an instruction leaves, from a gang with given s registers. -/
def scalar (i : Instr) (regs : List (Nat × Word)) (d : Nat) : Option Word :=
  (outcome (exec i (withGang fun g => regs.foldl (fun h x => h.setS x.1 x.2) g))).map fun g => g.sreg d

/-- The v register that an instruction leaves in a lane, from a gang with given values in every lane. -/
def vector (i : Instr) (regs : List (Nat × Word)) (d l : Nat) : Option Word :=
  (outcome (exec i (withGang fun g => regs.foldl (fun h x => h.setV x.1 (List.range 16) fun _ => x.2) g))).map
    fun g => g.vreg d l

/-! ### Results the spec works out -/

/-- 07 R171: `iquo` of −7 by 2 is −3 and `irem` −1; `iquo.u` of 0xFFFF_FFF9 by 2 is 0x7FFF_FFFC and `irem.u` 1. -/
theorem test_division : scalar (.iquo true 1 2 3) [(2, 0xFFFFFFF9), (3, 2)] 1 = some 0xFFFFFFFD ∧
    scalar (.irem true 1 2 3) [(2, 0xFFFFFFF9), (3, 2)] 1 = some 0xFFFFFFFF ∧
    scalar (.iquoU true 1 2 3) [(2, 0xFFFFFFF9), (3, 2)] 1 = some 0x7FFFFFFC ∧
    scalar (.iremU true 1 2 3) [(2, 0xFFFFFFF9), (3, 2)] 1 = some 1 := by decide +kernel

/-- 07 R171: division by zero and of the least number by −1. -/
theorem test_division_corners : scalar (.iquo true 1 2 3) [(2, 5), (3, 0)] 1 = some 0xFFFFFFFF ∧
    scalar (.irem true 1 2 3) [(2, 5), (3, 0)] 1 = some 5 ∧
    scalar (.iquo true 1 2 3) [(2, 0x80000000), (3, 0xFFFFFFFF)] 1 = some 0x80000000 ∧
    scalar (.irem true 1 2 3) [(2, 0x80000000), (3, 0xFFFFFFFF)] 1 = some 0 := by decide +kernel

/-- 07 R176: the bit fields of 0xF234_5678. -/
theorem test_bit_fields : scalar (.bfe true 1 2 3) [(2, 0xF2345678), (3, 0x818)] 1 = some 0xF2 ∧
    scalar (.bfeS true 1 2 3) [(2, 0xF2345678), (3, 0x818)] 1 = some 0xFFFFFFF2 ∧
    scalar (.bfeS true 1 2 3) [(2, 0xF2345678), (3, 0x81C)] 1 = some 0xF ∧
    scalar (.bfi true 1 2 3) [(2, 0xAB), (3, 0x818)] 1 = some 0xAB000000 ∧
    scalar (.bfi true 1 2 3) [(2, 0xAB), (3, 0x81C)] 1 = some 0xB0000000 := by decide +kernel

/-- 07 R174: shifts by 32 and more. -/
theorem test_long_shifts : vector (.shl false 1 2 3) [(2, 0x80000001), (3, 32)] 1 5 = some 0 ∧
    vector (.sar false 1 2 3) [(2, 0x80000001), (3, 40)] 1 5 = some 0xFFFFFFFF ∧
    vector (.rol false 1 2 3) [(2, 0x80000001), (3, 33)] 1 5 = some 3 := by decide +kernel

/-- 02: `li s5, #0x1234_5678` is `movi s5, #0x5678` and `movhi s5, #0x2468`. -/
theorem test_long_constant : scalar (.movi true 5 0x5678) [] 5 = some 0x5678 ∧
    scalar (.movhi true 5 0x2468) [(5, 0x5678)] 5 = some 0x12345678 := by decide +kernel

/-- 08 R209: seed 0, key 1 and tag 0 give 0xBBA2_A97B. -/
theorem test_rng : vector (.rng 1 2 3) [(2, 1), (3, 0xFFFFFF00)] 1 0 = some 0xBBA2A97B := by decide +kernel

/-- 11 R244: a divergent branch keeps the lanes not taken and leaves the taken ones pending at the target. -/
theorem test_divergence : (outcome (exec (.br 1 false 0x10) (withGang fun g => g.setP 1 (List.range 16) fun l => l % 4 == 1))).map
    (fun g => g.slices.head?.map fun sl => (sl.pc, sl.stack)) =
      some (some (0x2004, [⟨0xD, .running, 0⟩, ⟨0x2, .pending, 0x2040⟩, ⟨0xF, .running, 0⟩])) := by decide +kernel

/-- 07 R189: a software trap's record has cause, code, lane mask, the resuming pc and the trapping pc. -/
theorem test_software_trap : ((outcome (exec (.trap 0x21) (gangState 0xF2000021))).bind fun g => g.stop).map
    (fun r => (r.code, r.laneMask, r.pc, r.trapPc)) = some (0x21, 0xFFFF, 0x2004, 0x2000) := by decide +kernel

/-- 07 R186: `exit` of every lane ends the gang's slices. -/
theorem test_exit : (outcome (exec .exit (gangState 0xEC000000))).map (fun g => g.slices.map Slice.live) =
    some [false, false, false, false] := by decide +kernel

/-- 16 R335: the illegal-instruction exception of a context instruction in U-mode. -/
theorem test_hart_exception :
    (match exec .tlbfence { State.reset.setHart 3 { Hart.fresh with mode := .user, pc := 0x80, mtvec := 0x100 } with hart := 3 } with
      | .next t => some ((t.hartAt 3).pc, (t.hartAt 3).mepc, (t.hartAt 3).mcause, (t.hartAt 3).mode)
      | _ => none) = some (0x100, 0x80, 2, .machine) := by decide +kernel

/-- 13 R306, 02 R35: a step runs the word at the pc, and the gang goes on to the next one. -/
theorem test_step : (match step (State.reset.withFetchWord 32 0x2B060FFC) with
    | .next t => (t.gangs.find 0).map fun g => (g.sreg 3, g.pc 0)
    | _ => none) = some (0xFFFFFFFC, 0x2004) := by decide +kernel

/-- 21 R404: without power nothing runs. -/
theorem test_no_power : step { State.reset with powered := false } = .fault .noPower := rfl

/-! ### Witnesses: states and operands that meet the hypotheses of the statements -/

/-- A launch record of one-gang crews of 16 lanes and 128 registers, with 2 granules of scratchpad and mooring slots of 256 bytes. -/
def R : LaunchRecord := { placedRecord with geometry := 0x200BC0 }

/-- The state in which a crew of `n` gangs of a launch stands on core 0, with its lowest scratchpad granules, and its first gang has
its turn. -/
def crewState (r : LaunchRecord) (n : Nat) : State :=
  let bare : LaunchRecord := { r with geometry := r.geometry &&& 0xFFE003FF }
  let s := State.reset.withProgram.placeCrew 1 0 { placedLaunch with record := bare } (List.range n)
  let crews := s.crews.update fun _ c => { c with record := r, granules := List.range r.granules }
  { s with crews := crews, gang := 0, group := 0 }

/-- A state whose acting gang is changed. -/
def altered (s : State) (f : Gang → Gang) : State := s.setGang s.gang (f (gangOf s))

/-- The state of the first witnesses, and its gang. -/
def W : State := crewState R 1
def G : Gang := gangOf W

/-- The crew of that gang. -/
def crewOf (s : State) : Crew := (s.crews.find (gangOf s).crew).getD ⟨0, 0, R, 0, [], [], [], [], none, []⟩

theorem issues_of {s : State} {g : Gang}
    (h : (decide (s.gangs.find s.gang = some g) && (decide (g.members s.group ≠ []) && s.mayIssue s.gang g)) = true) :
    s.Issues g := by
  simp only [Bool.and_eq_true, decide_eq_true_eq] at h
  exact ⟨h.1, h.2.1, h.2.2⟩

theorem settled_of {s : State} {g : Gang} {vs ss : List Nat}
    (h : (vs.all (fun r => decide (r < g.nregs) && !s.isPending s.gang g false r) &&
      ss.all (fun r => decide (r < 128) && !s.isPending s.gang g true r)) = true) : s.Settled g vs ss := by
  simp only [Bool.and_eq_true, List.all_eq_true, decide_eq_true_eq, Bool.not_eq_true'] at h
  exact h

theorem issues_G : W.Issues G := issues_of (by decide +kernel)

theorem witness_IntegerResult : W.Issues G ∧ W.Settled G [127, 0, 126] [] ∧ W.Settled G [] [127, 0, 126] :=
  ⟨issues_G, settled_of (by decide +kernel), settled_of (by decide +kernel)⟩

theorem witness_ComparisonResult : W.Issues G ∧ W.Settled G [127, 0] [] ∧ W.Settled G [] [127, 0] :=
  ⟨issues_G, settled_of (by decide +kernel), settled_of (by decide +kernel)⟩

theorem witness_PairResult : W.Issues G ∧ (126#7).toNat % 2 = 0 ∧ W.Settled G [126, 127, 0, 1, 2, 3] [] ∧
    W.Settled G [] [126, 127, 0, 1, 2, 3] ∧ W.Settled G [126, 127, 1, 127] [] ∧ W.Settled G [] [126, 127, 1, 127] ∧
    W.Settled G [126, 127, 0, 1, 127] [] ∧ W.Settled G [] [126, 127, 0, 1, 127] := by
  refine ⟨issues_G, by decide, ?_, ?_, ?_, ?_, ?_, ?_⟩ <;> exact settled_of (by decide +kernel)

theorem witness_MoveBetweenClasses : W.Issues G ∧ W.Settled G [127, 0, 1] [] ∧ W.Settled G [127] [0] ∧ W.Settled G [0] [127, 1] ∧
    W.Settled G [127] [0, 1] := by
  refine ⟨issues_G, ?_, ?_, ?_, ?_⟩ <;> exact settled_of (by decide +kernel)

theorem witness_PredicateOperations : W.Issues G ∧ W.Settled G [] [127] ∧ (126#7).toNat % 2 = 0 ∧ W.Settled G [] [126, 127] ∧
    (15 ≠ 0 ∧ 63 < 64 ∧ ∀ x ∈ [0, 63], x < 64) :=
  ⟨issues_G, settled_of (by decide +kernel), by decide, settled_of (by decide +kernel), by decide⟩

theorem witness_PackShuffleRandom : W.Issues G ∧ W.Settled G [127, 0, 1] [] ∧ W.Settled G [127, 0] [1] :=
  ⟨issues_G, settled_of (by decide +kernel), settled_of (by decide +kernel)⟩

theorem witness_IntegerReduceAndScan : W.Issues G ∧ W.Settled G [127] [127] ∧ W.Settled G [127, 0] [] :=
  ⟨issues_G, settled_of (by decide +kernel), settled_of (by decide +kernel)⟩

/-! Floating-point: type FP32 (format code 0), lanes all zero, no trap enabled; FP64 (code 8) in slot 1 where pairs are asked for. -/

theorem ready_of {s : State} {g : Gang} {accept : Nat → Bool} {regs : List Nat} (h1 : accept (s.elementCode g) = true)
    (h2 : ((regs.flatMap (elementRegs (s.elementCode g))).all (fun r => decide (r < g.nregs) && !s.isPending s.gang g false r)
      && ([] : List Nat).all (fun r => decide (r < 128) && !s.isPending s.gang g true r)) = true)
    (h3 : s.elementCode g = 8 → ∀ r ∈ regs, r % 2 = 0) : ElementsReady s g accept regs := ⟨h1, settled_of h2, h3⟩

/-- `fadd v4, v2, v6`, and `fexp2` in FP32, with all elements zero. -/
theorem witness_FloatElementResult : W.Issues G ∧
    (∃ e ∈ elementOps 4 2 6, e.1 = .fadd 4 2 6 ∧ ElementsReady W G e.2.2.1 (4 :: e.2.1) ∧
      G.enabledTraps (laneFlags (G.active W.group) fun l =>
        joinFlags ((elementValues W G e.2.1 e.2.2.2 none l).map (·.2))) = 0) ∧
    (∃ e ∈ elementOps 4 2 6, e.1 = .fexp2 4 2 ∧ ElementsReady W G e.2.2.1 (4 :: e.2.1)) := by
  refine ⟨issues_G, ⟨(.fadd 4 2 6, [2, 6], arithmeticCode, fnAdd), by simp [elementOps], rfl, ?_, by decide +kernel⟩,
    ⟨(.fexp2 4 2, [2], functionCode, fnUnary exp2Num), by simp [elementOps], rfl, ?_⟩⟩
  · exact ready_of (by decide +kernel) (by decide +kernel) (by decide +kernel)
  · exact ready_of (by decide +kernel) (by decide +kernel) (by decide +kernel)

/-- `fdiv v4, v2, v6` of one by zero with the division-by-zero trap enabled (01 R17: enables from bit 12). -/
def divGang (g : Gang) : Gang := { g.setV 2 (List.range 16) fun _ => 0x3F800000 with trim := 0x2000 }

/-- The state with that gang. -/
def divState : State := altered W divGang

theorem witness_FloatTrapAfterCompletion : divState.Issues (divGang G) ∧
    ∃ e ∈ elementOps 4 2 6, e.1 = .fdiv 4 2 6 ∧ ElementsReady divState (divGang G) e.2.2.1 (4 :: e.2.1) ∧
      (divGang G).enabledTraps (laneFlags ((divGang G).active divState.group) fun l =>
        joinFlags ((elementValues divState (divGang G) e.2.1 e.2.2.2 none l).map (·.2))) ≠ 0 := by
  refine ⟨issues_of (by decide +kernel), (.fdiv 4 2 6, [2, 6], arithmeticCode, fnDiv), by simp [elementOps], rfl, ?_,
    by decide +kernel⟩
  exact ready_of (by decide +kernel) (by decide +kernel) (by decide +kernel)

/-- Comparison, class and conversions in FP32 of zeros. -/
theorem witness_CompareClassConvert : W.Issues G ∧ ElementsReady W G arithmeticCode [127, 0] ∧
    (∃ e ∈ floatComparisons 15 127 0, e.1 = .fcmpLt 15 127 0 ∧ G.enabledTraps (laneFlags (G.active W.group) fun l =>
      nanFlags 0 [G.element 0 127 l 0, G.element 0 0 l 0]) = 0) ∧
    ElementsReady W G arithmeticCode [127] ∧ W.Settled G [127] [] ∧
    (W.elementCode G ≤ 8 ∧ ((W.slotWord G 7).extractLsb 3 0).toNat ≤ 8 ∧
      W.Settled G (elementRegs (W.elementCode G) 127 ++ elementRegs ((W.slotWord G 7).extractLsb 3 0).toNat 0) [] ∧
      G.enabledTraps (laneFlags (G.active W.group) fun l => (convertElement (W.fpEnv G l none)
        ((W.slotWord G 7).extractLsb 3 0).toNat (W.elementCode G) (G.lowElement 0 0 l)).2) = 0) ∧
    ElementsReady W G floatCode [127] ∧
    G.enabledTraps (laneFlags (G.active W.group) fun l => (toInteger true (W.fpEnv G l none).mode ((W.fpEnv G l none).draw 0)
      ((W.fpEnv G l none).read 0 (G.lowElement 0 127 l)) (nanFlags 0 [G.lowElement 0 127 l])).2) = 0 ∧
    G.enabledTraps (laneFlags (G.active W.group) fun l =>
      ((W.fpEnv G l none).result (W.elementCode G) 0 (.num false 0 0 false) 0).2) = 0 := by
  refine ⟨issues_G, ?_, ⟨(floatComparisons 15 127 0)[2], List.getElem_mem _, rfl, by decide +kernel⟩, ?_, settled_of (by decide +kernel),
    ⟨by decide +kernel, by decide +kernel, settled_of (by decide +kernel), by decide +kernel⟩, ?_, by decide +kernel,
    by decide +kernel⟩
  all_goals exact ready_of (by decide +kernel) (by decide +kernel) (by decide +kernel)

/-- A crew whose launch holds BF16 (code 1) in slot 0. -/
def W1 : State := crewState { R with slots := [1, 0, 0, 0, 0, 0, 0, 0] } 1
def G1 : Gang := gangOf W1

/-- The test gang with a value in an s register of each number listed. -/
def withS (regs : List (Nat × Word)) (g : Gang) : Gang := regs.foldl (fun h x => h.setS x.1 x.2) g

/-- `fscale` in FP32, `dot2` in BF16, and a histogram at the last place of the crew's scratchpad that holds one. -/
theorem witness_ScaleDotHistogram : (W.Issues G ∧ ElementsReady W G arithmeticCode [127, 0] ∧ W.Settled G [1] []) ∧
    (W1.Issues G1 ∧ W1.Settled G1 [127, 0, 1] [] ∧
      (∃ e ∈ dots 127 0 1, e.1 = .dot2 127 0 1 ∧ W1.elementCode G1 ∈ e.2) ∧
      G1.enabledTraps (laneFlags (G1.active W1.group) fun l => (dotValue W1 G1 none 127 0 1 l).2) = 0) ∧
    (let g := withS [(127, 8192 - 272)] G
     let s := altered W (withS [(127, 8192 - 272)])
     s.Issues g ∧ s.crews.find g.crew = some (crewOf W) ∧ floatCode (s.elementCode g) = true ∧
      s.Settled g (elementRegs (s.elementCode g) 127) [127] ∧ (g.sreg 127).toNat % 4 = 0 ∧
      (g.sreg 127).toNat + 272 ≤ (crewOf W).padSize) ∧
    (∀ x ∈ [2, 8192 - 268],
      let s := altered W (withS [(127, x)])
      s.Issues (withS [(127, x)] G) ∧ s.crews.find (withS [(127, x)] G).crew = some (crewOf W) ∧
        floatCode (s.elementCode (withS [(127, x)] G)) = true ∧
        s.Settled (withS [(127, x)] G) (elementRegs (s.elementCode (withS [(127, x)] G)) 127) [127]) ∧
    ((withS [(127, 2)] G).sreg 127).toNat % 4 ≠ 0 ∧ ((withS [(127, 8192 - 268)] G).sreg 127).toNat % 4 = 0 ∧
    (crewOf W).padSize < ((withS [(127, 8192 - 268)] G).sreg 127).toNat + 272 ∧
    ((crewOf W).granules.Nodup ∧ (crewOf W).padSize ≤ 4096 * (crewOf W).granules.length ∧
      8192 - 272 + 272 ≤ (crewOf W).padSize ∧ ∀ i ∈ [0, 67, 67], i < 68) := by
  refine ⟨⟨issues_G, ready_of (by decide +kernel) (by decide +kernel) (by decide +kernel), settled_of (by decide +kernel)⟩,
    ⟨issues_of (by decide +kernel), settled_of (by decide +kernel), ⟨(dots 127 0 1)[0], List.getElem_mem _, rfl,
      by decide +kernel⟩, by decide +kernel⟩, ⟨issues_of (by decide +kernel), by decide +kernel, by decide +kernel,
      settled_of (by decide +kernel), by decide +kernel, by decide +kernel⟩, ?_, by decide +kernel⟩
  intro x hx
  simp only [List.mem_cons, List.not_mem_nil, or_false] at hx
  rcases hx with rfl | rfl <;>
    exact ⟨issues_of (by decide +kernel), by decide +kernel, by decide +kernel, settled_of (by decide +kernel)⟩

theorem witness_FloatReduceAndScan : W.Issues G ∧ ElementsReady W G arithmeticCode [127] ∧ W.Settled G [] [0] ∧
    (∃ e ∈ floatReductions 0 127, e.1 = .vredFmax 0 127 ∧ G.enabledTraps (laneFlags (G.active W.group) fun _ => joinFlags
      (((List.range 1).map fun j => reduceTree (e.2.1 0 false) 7 ((List.range 64).map fun l =>
        if l ∈ G.active W.group then some (G.element 0 127 l j) else none)).map (·.2))) = 0) ∧
    G.enabledTraps (laneFlags (G.active W.group) fun _ => joinFlags (((List.range 1).map fun j =>
      scanValues (combineAdd 0 false) none ((G.active W.group).map fun l => G.element 0 127 l j)).map (·.2))) = 0 :=
  ⟨issues_G, ready_of (by decide +kernel) (by decide +kernel) (by decide +kernel), settled_of (by decide +kernel),
    ⟨(floatReductions 0 127)[1], List.getElem_mem _, rfl, by decide +kernel⟩, by decide +kernel⟩

/-- In FP32 an infinity, a quiet and a signalling NaN, and a subnormal with flush, which a conversion to FP64 reads; no modifier. -/
theorem witness_ConvertedElement :
    let env : FpEnv := { mode := 0, flush := true, seed := 0, key := 0, outliers := false, modifier := none }
    env.modifier = none ∧ classOf 0 0x7F800000 = .infinite ∧ classOf 0 0x7FC00000 = .quiet ∧ classOf 0 0x7F800001 = .signalling ∧
      (env.flush = true ∧ classOf 0 1 = .subnormal) ∧ FiniteBits 0 0x3F800000 ∧ FiniteBits 8 0 ∧ (0 : Nat) ≠ 8 ∧
      (classOf 0 0 = .zero ∧ classOf 0 0x80000000 = .zero) := by
  refine ⟨rfl, by decide +kernel, by decide +kernel, by decide +kernel, by decide +kernel, ⟨by decide, .inr (.inr (by decide +kernel))⟩,
    ⟨by decide, .inl (by decide +kernel)⟩, by decide, by decide +kernel⟩

/-- A dot product of 1 by 2 onto 3, of zero by an infinity, and of a NaN; the modes, and the highest code of each class of formats. -/
theorem witness_DotSumExact :
    (∀ p ∈ [(Machine.Num.num false 1 0 false, Machine.Num.num false 2 0 false)],
      (∃ neg m e, p.1 = .num neg m e false) ∧ ∃ neg m e, p.2 = .num neg m e false) ∧
    isNaN (.nan false) = true ∧ ((Machine.Num.inf false, Machine.Num.num true 0 0 false) = (.inf false, .num true 0 0 false)) ∧
    5 < 6 ∧ arithmeticCode 8 = true ∧ isFloat 8 = true ∧ 2 ^ 64 - 1 < 2 ^ formatWidth 8 ∧ 15 < 2 ^ formatWidth 7 := by
  refine ⟨?_, by decide, rfl, by decide, by decide, by decide, by decide, by decide⟩
  intro p hp
  simp only [List.mem_singleton] at hp
  exact hp ▸ ⟨⟨_, _, _, rfl⟩, ⟨_, _, _, rfl⟩⟩

/-- 3, and a value between 2^100 and the next number of 101 bits. -/
theorem witness_RoundingChoosesNeighbour : isFloat 8 = true ∧ 5 < 6 ∧ Leads 3 0 false 3 ∧ Leads (2 ^ 100) (-4) true ((2 ^ 100 + 1 / 2) / 16) := by
  refine ⟨by decide, by decide, ?_, ?_⟩
  · simp [Leads]
  · simp only [Leads, if_true]
    norm_num

/-- The smallest magnitude and zero in E2M1; −8 and 7 in INT4. -/
theorem witness_DeliveredValues : isFloat 5 = true ∧ OnGrid 5 (((1 : Nat) : ℚ) * 2 ^ (0 : Int)) ∧
    (((1 : Nat) : ℚ) * 2 ^ (0 : Int)) ≤ largest 5 ∧ (6 = 6 ∨ 6 = 7) := by
  refine ⟨by decide, ⟨1, 0, by decide, by decide, rfl⟩, ?_, by decide⟩
  have h : largest 5 = 6 := by
    simp only [largest, show maxSignificand 5 = 3 from by decide, show maxExp 5 = 1 from by decide]
    norm_num
  rw [h]; norm_num

theorem valueOf_one : valueOf 0 0x3F800000 = 1 := by
  have h : decodeNum 0 0x3F800000 = .num false 8388608 (-23) false := by decide +kernel
  simp only [valueOf, h, realOf]
  norm_num

theorem witness_ExactOperations : arithmeticCode 0 = true ∧ (W.fpEnv G 15 none).flush = false ∧ FiniteBits 0 0x3F800000 ∧
    valueOf 0 0x3F800000 ≠ 0 ∧ 0 < valueOf 0 0x3F800000 ∧ (fnFnma, fun a b d : ℚ => -(a * b) + d) ∈ exactOps ∧ (1 : Nat) ≠ 0 ∧
    (W.fpEnv G 15 none).modifier = none ∧ isFloat 0 = true ∧ 0 ≠ 5 := by
  refine ⟨by decide, by decide +kernel, ⟨by decide, .inr (.inr (by decide +kernel))⟩, ?_, ?_, by simp [exactOps], by decide,
    by decide +kernel, by decide, by decide⟩ <;> rw [valueOf_one] <;> norm_num

/-! Control, special registers, traps. -/

/-- What a result goes on with. -/
def nextOf (r : Result) : State :=
  match r with
  | .next t => t
  | _ => State.reset

def goesOn (r : Result) : Bool :=
  match r with
  | .next _ => true
  | _ => false

theorem next_of {r : Result} (h : goesOn r = true) : r = .next (nextOf r) := by
  cases r <;> simp_all [goesOn, nextOf]

theorem pair_of {α β : Type} {p : α × β} {a : α} (h : p.1 = a) : p = (a, p.2) := by rw [← h]

/-- The word of `fadd v4, v2, v6` stands after the modifier. -/
def modState : State := W.write 0x2004 4 ((encode (.fadd 4 2 6)).getD 0)

theorem witness_ModifierPairRuns : modState.Issues G ∧ (6#3).toNat ≠ 7 ∧ ¬(true = true ∧ false = true) ∧
    (let w := (encode (.fadd 4 2 6)).getD 0
     let t := (modState.fetch (coreOf modState.gang) G.ctx (G.pc modState.group + 4)).2
     modState.fetch (coreOf modState.gang) G.ctx (G.pc modState.group + 4) = (.ok w, t) ∧ t.Issues G ∧ t.gang = modState.gang ∧
      t.group = modState.group ∧ decode w = .ok (.fadd 4 2 6) ∧ ElementsReady t G arithmeticCode [4, 2, 6] ∧
      G.enabledTraps (laneFlags (G.active modState.group) fun l => joinFlags
        ((elementValues t G [2, 6] fnAdd (some (Modifier.of true false true true 63 6 255)) l).map (·.2))) = 0) :=
  ⟨issues_of (by decide +kernel), by decide, by decide, pair_of (by decide +kernel), issues_of (by decide +kernel),
    by decide +kernel, by decide +kernel, by decide +kernel,
    ready_of (by decide +kernel) (by decide +kernel) (by decide +kernel), by decide +kernel⟩

/-- Override 7, saturate beside clamp, and the words after a modifier that are none (0xF8000000) or not eligible (`nop`). -/
theorem witness_ModifierIllegal : W.Issues G ∧ (7#3).toNat = 7 ∧ (true = true ∧ true = true) ∧
    ∀ w ∈ [0xF8000000, 0], let s := W.write 0x2004 4 w
      let t := (s.fetch (coreOf s.gang) G.ctx (G.pc s.group + 4)).2
      s.fetch (coreOf s.gang) G.ctx (G.pc s.group + 4) = (.ok w, t) ∧ t.group = s.group ∧
        ((decode w).toOption = none ∨ (decode w).toOption = some .nop ∧ eligible .nop = false) := by
  refine ⟨issues_G, by decide, by decide, ?_⟩
  intro w hw
  simp only [List.mem_cons, List.not_mem_nil, or_false] at hw
  rcases hw with rfl | rfl <;> exact ⟨pair_of (by decide +kernel), by decide +kernel, by decide +kernel⟩

/-- A slice at 0x2000 with the given stack. -/
def sliceOf (stack : List MaskEntry) : Slice :=
  { pc := 0x2000, stack := stack, status := .running, group := 0, parked := false, yielded := none }

/-- All lanes agree, none is taken though one is enabled, and they disagree; a pending lane below the top. -/
theorem witness_Branches : W.Issues G ∧
    (∀ i < 4, takenLanes (sliceOf [⟨0xF, .running, 0⟩]) 15 (fun _ => true) i = (sliceOf [⟨0xF, .running, 0⟩]).top.getLsbD i) ∧
    ((∀ i < 4, takenLanes (sliceOf [⟨0x8, .running, 0⟩]) 0 (fun l => l != 3) i = false) ∧
      (sliceOf [⟨0x8, .running, 0⟩]).top ≠ 0) ∧
    ((∃ i < 4, takenLanes (sliceOf [⟨0xF, .running, 0⟩]) 1 (fun l => l == 7) i = true) ∧
      ∃ i < 4, takenLanes (sliceOf [⟨0xF, .running, 0⟩]) 1 (fun l => l == 7) i ≠
        (sliceOf [⟨0xF, .running, 0⟩]).top.getLsbD i) ∧
    (3 < 4 ∧ (sliceOf [⟨0x8, .running, 0⟩, ⟨0x7, .pending, 0x3000⟩]).top.getLsbD 3 = true) :=
  ⟨issues_G, by decide +kernel⟩

/-- Targets 2^48 − 4, 2^48 and 2^48 − 2, and the three kinds of stack at a join. -/
theorem witness_JumpResult :
    (∀ x ∈ [(0xFFFFFFFC, 0xFFFF), (0, 0x10000), (0xFFFFFFFE, 0xFFFF)],
      let g := withS [(124, x.1), (125, x.2)] G
      (altered W (withS [(124, x.1), (125, x.2)])).Issues g ∧
      (altered W (withS [(124, x.1), (125, x.2)])).Settled g [] [124, 125]) ∧
    ((withS [(124, 0xFFFFFFFC), (125, 0xFFFF)] G).spair 124).toNat < 2 ^ 48 ∧
    ((withS [(124, 0xFFFFFFFC), (125, 0xFFFF)] G).spair 124).toNat % 4 = 0 ∧
    2 ^ 48 ≤ ((withS [(124, 0), (125, 0x10000)] G).spair 124).toNat ∧
    ((withS [(124, 0xFFFFFFFE), (125, 0xFFFF)] G).spair 124).toNat < 2 ^ 48 ∧
    ((withS [(124, 0xFFFFFFFE), (125, 0xFFFF)] G).spair 124).toNat % 4 ≠ 0 ∧ W.Settled G [] [126, 127] ∧
    (sliceOf [⟨0xF, .running, 0⟩]).stack = [⟨0xF, .running, 0⟩] ∧
    (sliceOf [⟨1, .running, 0⟩, ⟨2, .pending, 0x3000⟩]).stack = ⟨1, .running, 0⟩ :: ⟨2, .pending, 0x3000⟩ :: [] ∧
    (sliceOf [⟨1, .running, 0⟩, ⟨2, .running, 0⟩]).stack = ⟨1, .running, 0⟩ :: ⟨2, .running, 0⟩ :: [] ∧
    (∃ y rest, (sliceOf [⟨1, .running, 0⟩, ⟨2, .resumed, 0x2000⟩, ⟨3, .running, 0⟩]).stack = ⟨1, .running, 0⟩ :: y :: rest ∧
      y.kind = .resumed ∧ y.addr = (sliceOf []).pc ∧ rest ≠ []) ∧
    (∃ y rest, (sliceOf [⟨1, .running, 0⟩, ⟨2, .resumed, 0x2004⟩, ⟨3, .running, 0⟩]).stack = ⟨1, .running, 0⟩ :: y :: rest ∧
      y.kind = .resumed ∧ y.addr ≠ (sliceOf []).pc) ∧ (125#7).toNat % 2 = 1 := by
  refine ⟨?_, by decide +kernel, by decide +kernel, by decide +kernel, by decide +kernel, by decide +kernel,
    settled_of (by decide +kernel), rfl, rfl, rfl, ⟨_, _, rfl, rfl, rfl, by decide⟩, ⟨_, _, rfl, rfl, by decide⟩, by decide⟩
  intro x hx
  simp only [List.mem_cons, List.not_mem_nil, or_false] at hx
  rcases hx with rfl | rfl | rfl <;> exact ⟨issues_of (by decide +kernel), settled_of (by decide +kernel)⟩

/-- Slices 2 and 3 form a group of their own, at another address. -/
def parts (g : Gang) : Gang :=
  { g with slices := g.slices.mapIdx fun j sl => if 2 ≤ j then { sl with group := 2, pc := 0x3000 } else sl }

/-- The gang in refill mode, at a body pass. -/
def refills (g : Gang) : Gang := { g with refill := some { step := .bodyPass, lanes := List.replicate 16 .working, saved := [] } }

/-- `regang` parks one group of two, or all of a gang of one; `exit` outside and in refill mode; a stack of one entry. -/
theorem witness_NopRegangExit : W.Issues G ∧
    ((altered W parts).Issues (parts G) ∧
      ∃ sl ∈ ((((altered W parts).issuing (parts G)).mapMembers 0 fun _ sl => { sl with parked := true }).releaseParked
        ((altered W parts).stepEnd (parts G))).slices, sl.status = .running ∧ sl.parked = true) ∧
    (∀ sl ∈ (((W.issuing G).mapMembers 0 fun _ sl => { sl with parked := true }).releaseParked (W.stepEnd G)).slices,
      sl.status = .running → sl.parked = false) ∧
    G.refill = none ∧ ((altered W refills).Issues (refills G) ∧ (refills G).refill ≠ none) ∧
    (∀ e ∈ (sliceOf [⟨0x5, .running, 0⟩, ⟨0x7, .pending, 0x3000⟩]).stack, e.mask &&& ~~~(7 : BitVec 4) = 0) :=
  ⟨issues_G, ⟨issues_of (by decide +kernel), by decide +kernel⟩, by decide +kernel, by decide +kernel,
    ⟨issues_of (by decide +kernel), by decide +kernel⟩, by decide +kernel⟩

/-- A crew of two gangs whose convoy definition 7 lists both. -/
def W2 : State := crewState { R with geometry := 0x200BC4, convoys := [0, 0, 0, 0, 0, 0, 0, 0x40000010] } 2
def G2 : Gang := gangOf W2

/-- Two gangs, the first about to end, the second waiting. -/
def W2waits (w : Wait) : State := { W2 with gangs := W2.gangs.update fun k g => if k = 1 then { g with wait := w } else g }

/-- `bar` and `barc` of a crew of two gangs, `await` one below the wrap and one that waits, a parted gang and one in refill mode, a crew of
which a gang has ended, an unused definition, and a wait of 2^32. -/
theorem witness_Barriers : (W2.Issues G2 ∧ W2.crews.find G2.crew = some (crewOf W2) ∧ G2.parted = false ∧ G2.refill = none ∧
      W2.hasLogged W2.gang = false ∧ W2.anyEnded (crewOf W2).gangs = false ∧
      ∃ e, (crewOf W2).convoys.find? (fun x => x.defn == (7#3).toNat) = some e ∧ G2.index ∈ e.gangs ∧ e.gangs.length = 2 ∧
        W2.anyEnded (e.gangs.map fun i => (crewOf W2).gangs.getD i 0) = false) ∧
    (let g := withS [(127, 0x80000001)] G2
     let s := altered W2 (withS [(127, 0x80000001)])
     s.Issues g ∧ s.Settled g [] [127] ∧ (lowWord ((crewOf W2).barriers.get 15) - g.sreg 127).toNat < 2 ^ 31) ∧
    ((altered W parts).Issues (parts G) ∧ (altered W parts).crews.find (parts G).crew = some (crewOf W) ∧ (parts G).parted = true ∧
      (altered W parts).Settled (parts G) [] [127]) ∧
    ((altered W refills).Issues (refills G) ∧ (refills G).refill ≠ none) ∧
    (let g : Gang := { G2 with wait := .bar 0 2, waited := 2 ^ 32 }
     let s := altered W2 fun g => { g with wait := .bar 0 2, waited := 2 ^ 32 }
     s.gangs.find s.subject.who = some g ∧ g.stop = none ∧ 2 ^ 32 ≤ g.waited ∧ s.waitOver g = false) ∧
    (let g := withS [(127, 1)] G2
     let s := altered W2 (withS [(127, 1)])
     s.Issues g ∧ s.Settled g [] [127] ∧ 2 ^ 31 ≤ (lowWord ((crewOf W2).barriers.get 15) - g.sreg 127).toNat) ∧
    (let s : State := { W2 with gangs := W2.gangs.filter fun e => e.1 != 1 }
     s.Issues G2 ∧ s.crews.find G2.crew = some (crewOf W2) ∧ s.anyEnded (crewOf W2).gangs = true ∧
      (crewOf W2).convoys.find? (fun x => x.defn == (0#3).toNat) = none ∧
      ∀ e, (crewOf W2).convoys.find? (fun x => x.defn == (7#3).toNat) = some e →
        s.anyEnded (e.gangs.map fun i => (crewOf W2).gangs.getD i 0) = true) ∧
    (∀ w ∈ [Wait.bar 15 2, .barc 7 2, .await 15 1],
      let s := W2waits w
      ∃ h, s.crews.find G2.crew = some (crewOf W2) ∧ h.crew = G2.crew ∧ (∀ e ∈ (crewOf W2).convoys, e.arrivals = []) ∧
        1 ∈ (crewOf W2).gangs ∧ 1 ≠ s.gang ∧ s.gangs.find 1 = some h ∧ h.wait = w ∧ s.waitOver h = false ∧
        ∃ e ∈ (crewOf W2).convoys, e.defn = 7 ∧ G2.index ∈ e.gangs) := by
  refine ⟨⟨issues_of (by decide +kernel), by decide +kernel, by decide +kernel, by decide +kernel, by decide +kernel,
    by decide +kernel, ⟨{ defn := 7, gangs := [0, 1], arrivals := [], total := 0 }, by decide +kernel⟩⟩, ⟨issues_of (by decide +kernel), settled_of (by decide +kernel), by decide +kernel⟩,
    ⟨issues_of (by decide +kernel), by decide +kernel, by decide +kernel, settled_of (by decide +kernel)⟩,
    ⟨issues_of (by decide +kernel), by decide +kernel⟩, by decide +kernel,
    ⟨issues_of (by decide +kernel), settled_of (by decide +kernel), by decide +kernel⟩,
    ⟨issues_of (by decide +kernel), by decide +kernel, by decide +kernel, by decide +kernel, ?_⟩, ?_⟩
  · intro e he
    have h : ((crewOf W2).convoys.find? fun x => x.defn == (7#3).toNat).all (fun e =>
      State.anyEnded { W2 with gangs := W2.gangs.filter fun e => e.1 != 1 } (e.gangs.map fun i => (crewOf W2).gangs.getD i 0)) = true := by
      decide +kernel
    rw [he] at h
    simpa using h
  · intro w hw
    refine ⟨((W2waits w).gangs.find 1).getD G2, ?_⟩
    simp only [List.mem_cons, List.not_mem_nil, or_false] at hw
    rcases hw with rfl | rfl | rfl <;>
      exact by decide +kernel

/-- Indices 12, 17 and 18; a valid trim with every field at its highest value; fpflags 31 and 32; a reserved bit, seed and mode. -/
theorem witness_SpecialRegisters : W.Issues G ∧ W.Settled G [127] [] ∧ ((12#10).toNat = 12 ∨ (12#10).toNat = 17) ∧
    ((17#10).toNat = 12 ∨ (17#10).toNat = 17) ∧ (126#7).toNat % 2 = 0 ∧ W.Settled G [] [126, 127] ∧
    ((18#10).toNat ≠ 12 ∧ (18#10).toNat ≠ 17 ∧ W.Settled G [] [127]) ∧
    (∀ x ∈ [0x0007FDFF, 31, 32, 0x100000, 0x80000, 0x600],
      (altered W (withS [(127, x)])).Issues (withS [(127, x)] G) ∧
      (altered W (withS [(127, x)])).Settled (withS [(127, x)] G) [] [127]) ∧
    trimValid ((withS [(127, 0x0007FDFF)] G).sreg 127) = true ∧ ((withS [(127, 31)] G).sreg 127).toNat < 32 ∧
    32 ≤ ((withS [(127, 32)] G).sreg 127).toNat ∧ 2 ^ 20 ≤ ((withS [(127, 0x100000)] G).sreg 127).toNat ∧
    3 < ((withS [(127, 0x80000)] G).sreg 127).toNat / 2 ^ 17 % 8 ∧ 5 < ((withS [(127, 0x600)] G).sreg 127).toNat / 2 ^ 8 % 8 := by
  refine ⟨issues_G, settled_of (by decide +kernel), by decide, by decide, by decide, settled_of (by decide +kernel),
    ⟨by decide, by decide, settled_of (by decide +kernel)⟩, ?_, by decide +kernel⟩
  intro x hx
  simp only [List.mem_cons, List.not_mem_nil, or_false] at hx
  rcases hx with rfl | rfl | rfl | rfl | rfl | rfl <;>
    exact ⟨issues_of (by decide +kernel), settled_of (by decide +kernel)⟩

/-- The gang's crew and context, with a manifest bound and in a launch that is reproducible too; core 0 is logical core 0. -/
theorem witness_SpecialRegisterValues :
    (∀ r ∈ [R, { R with control := 1 }], let s := crewState r 1
      let g := gangOf s
      s.crews.find g.crew = some (crewOf s) ∧ s.contexts.find g.ctx = some ((s.contexts.find g.ctx).getD placedContext) ∧
        (crewOf s).index < 2 ^ 64 ∧ (crewOf s).record.reproducible = r.reproducible ∧
        ((s.contexts.find g.ctx).getD placedContext).cores[0]? = some (coreOf s.gang) ∧
        ((s.contexts.find g.ctx).getD placedContext).cores.Nodup ∧
        coreOf s.gang ∈ ((s.contexts.find g.ctx).getD placedContext).cores ∧ (crewOf s).manifest = none ∧ 63 < 64 ∧ G.ages[15]? = some 0xFFFFFFFF) ∧
    { crewOf W with manifest := some ⟨0, 1, 1, 0, 0, [], none⟩ }.manifest = some ⟨0, 1, 1, 0, 0, [], none⟩ := by
  refine ⟨?_, rfl⟩
  intro r hr
  simp only [List.mem_cons, List.not_mem_nil, or_false] at hr
  rcases hr with rfl | rfl <;> decide +kernel

/-- A predicate false in every active lane and one true in the last lane; the running context of the gang. -/
theorem witness_SoftwareTraps : W.Issues G ∧ ((G.active W.group).filter fun l => G.preg 1 l) = [] ∧
    (let f : Gang → Gang := fun g => g.setP 15 [15] fun _ => true
     (altered W f).Issues (f G) ∧ ((f G).active (altered W f).group).filter (fun l => (f G).preg 15 l) = [15]) ∧
    ∃ c, W.gangs.find W.gang = some G ∧ W.contexts.find G.ctx = some c ∧ c.state = .running :=
  ⟨issues_G, by decide +kernel, ⟨issues_of (by decide +kernel), by decide +kernel⟩,
    ⟨(W.contexts.find G.ctx).getD placedContext, by decide +kernel⟩⟩

/-- A crew whose launch holds INT8 (code 6) in slot 0. -/
def W6 : State := crewState { R with slots := [6, 0, 0, 0, 0, 0, 0, 0] } 1

/-- Fetches that failed with an uncorrectable sector and with a page fault; a gang of 64 registers; odd pairs; an integer format. -/
theorem witness_IssueChecks :
    (∀ cause ∈ [Trap.memoryUncorrectable, .pageFaultLoad],
      State.Issues { W with fetchFault := some (cause, 0x2000, 0, 1) } G) ∧
    (let f : Gang → Gang := fun g => { g with nregs := 64 }
     (altered W f).Issues (f G) ∧ (f G).nregs ≤ (64#7).toNat) ∧ (127#7).toNat % 2 = 1 ∧
    (W6.Issues (gangOf W6) ∧ W6.elementCode (gangOf W6) = 6 ∧ floatCode 6 = false ∧ arithmeticCode 6 = false ∧
      (∃ e ∈ elementOps 127 126 0, e.1 = .fadd 127 126 0 ∧ e.2.2.1 6 = false ∧
        ∀ r ∈ (127 :: e.2.1).flatMap (elementRegs 6), r < (gangOf W6).nregs) ∧
      ∃ e ∈ dots 127 126 0, e.1 = .dot2 127 126 0 ∧ 6 ∉ e.2) := by
  refine ⟨?_, ⟨issues_of (by decide +kernel), by decide +kernel⟩, by decide, issues_of (by decide +kernel), by decide +kernel,
    by decide, by decide, ⟨(elementOps 127 126 0)[0], List.getElem_mem _, rfl, by decide, by decide +kernel⟩,
    ⟨(dots 127 126 0)[0], List.getElem_mem _, rfl, by decide⟩⟩
  intro x hx
  simp only [List.mem_cons, List.not_mem_nil, or_false] at hx
  rcases hx with rfl | rfl <;> exact issues_of (by decide +kernel)

/-- `iadd` runs; so does it on an undeclared register, ending in a trap. -/
theorem witness_RegisterFrames : W.gangs.find W.gang = some G ∧ G.refill = none ∧
    Instr.iadd false 127 0 1 ∈ (integerOps 127 0 1 0 0 0).map (fun x => x.1 false) ∧
    exec (.iadd false 127 0 1) W = .next (nextOf (exec (.iadd false 127 0 1) W)) ∧
    exec (.iadd true 127 0 1) W = .next (nextOf (exec (.iadd true 127 0 1) W)) :=
  ⟨by decide +kernel, by decide +kernel, by simp [integerOps], next_of (by decide +kernel), next_of (by decide +kernel)⟩

/-! Memory accesses: the page at 0x4000 lies at machine address 0x4000; v5 holds 16 times the lane. -/

def memGang (g : Gang) : Gang :=
  (withS [(2, 0x4000), (4, 0x1F00)] g).setV 5 (List.range 16) fun l => BitVec.ofNat 32 (16 * l)

def M : State := altered W memGang
def MG : Gang := memGang G

theorem reached_of (place : Nat → Nat) (ys : List Reaching) (order : Lanes)
    (h : ys.map (fun r => (r.lane, r.addr, r.machine)) = order.map fun x => (x.1, x.2, some (place x.1))) :
    ys = order.map fun x => { lane := x.1, addr := x.2, place := .ok (.mem (place x.1)) } := by
  induction ys generalizing order with
  | nil => cases order <;> simp_all
  | cons y ys ih =>
    cases order with
    | nil => simp at h
    | cons x xs =>
      simp only [List.map_cons, List.cons.injEq, Prod.mk.injEq] at h
      obtain ⟨⟨h1, h2, h3⟩, h4⟩ := h
      rw [List.map_cons, ← ih xs h4]
      obtain ⟨l, a, p⟩ := y
      simp only [Reaching.machine] at h3
      split at h3 <;> simp_all

theorem error_of {α β : Type} {e : Except α β} (h : e.toOption.isNone = true) : ∃ f, e = .error f := by
  cases e <;> simp_all [Except.toOption]

theorem plain_of {s : State} {g : Gang} {k : Want} {n : Nat} {xs order : Lanes} {place : Nat → Nat}
    (h1 : (xs.all fun x => decide (x.2 < 2 ^ 48 ∧ x.2 % n = 0)) = true)
    (h2 : s.logOverlaps s.gang n xs = false) (h3 : g.countersFull (s.countersFor g (itemOf false n xs)) = false)
    (h5 : (order.all fun x => (s.translateLanes (coreOf s.gang) g.ctx k order).2.serves (s.issuing g).stamp (place x.1) &&
      decide (s.badSector (place x.1) n = none)) = true)
    (h4 : (s.translateLanes (coreOf s.gang) g.ctx k order).1.map (fun r => (r.lane, r.addr, r.machine)) =
      order.map fun x => (x.1, x.2, some (place x.1))) :
    Plain s g k n xs order place (s.translateLanes (coreOf s.gang) g.ctx k order).2 := by
  simp only [List.all_eq_true, decide_eq_true_eq, Bool.and_eq_true] at h1 h5
  exact ⟨h1, h2, h3, pair_of (reached_of place _ _ h4), fun x hx => (h5 x hx).1, fun x hx => (h5 x hx).2⟩

/-- 16-byte loads in 16 lanes, an acquiring one at the widest scope the context may use, and a scalar one; a sector on its way. -/
theorem witness_Loads :
    (let xs := M.globalLanes MG 1 5
     let place (l : Nat) : Nat := 0x4000 + 16 * l
     M.Issues MG ∧ xs ≠ [] ∧ AccessReady M MG false 124 1 5 4 none ∧
      Plain M MG .load 16 xs xs place (M.translateLanes 0 1 .load xs).2 ∧ AccessReady M MG false 127 1 5 2 (some 4) ∧
      Plain M MG .load 4 xs xs place (M.translateLanes 0 1 .load xs).2 ∧ AccessReady M MG true 124 1 127 4 none ∧
      Plain M MG .load 16 [(0, (MG.spair 2).toNat)] [(0, (MG.spair 2).toNat)] place
        (M.translateLanes 0 1 .load [(0, (MG.spair 2).toNat)]).2) ∧
    (let s : State := { nextOf (exec (.ld 124 1 5 4 0) M) with subject := { Subject.none with what := 16, which := 7 } }
     let g := gangOf s
     ∃ ld sector, s.gangs.find s.subject.who = some g ∧
      g.loads.find? (fun x => x.id == s.subject.what && decide (s.subject.which < x.sectors.length)) = some ld ∧
      ld.sectors[s.subject.which]? = some sector ∧ (g.loads.map fun x => x.id).Nodup) := by
  refine ⟨⟨issues_of (by decide +kernel), by decide +kernel, ⟨by decide, settled_of (by decide +kernel), by decide, by decide,
      by decide +kernel⟩, plain_of (by decide +kernel) (by decide +kernel) (by decide +kernel) (by decide +kernel) (by decide +kernel),
      ⟨by decide, settled_of (by decide +kernel), by decide, by decide, by simpa using (by decide +kernel)⟩,
      plain_of (by decide +kernel) (by decide +kernel) (by decide +kernel) (by decide +kernel) (by decide +kernel),
      ⟨by decide, settled_of (by decide +kernel), by decide, by decide, by decide +kernel⟩,
      plain_of (by decide +kernel) (by decide +kernel) (by decide +kernel) (by decide +kernel) (by decide +kernel)⟩, ?_⟩
  obtain ⟨ld, h⟩ := Option.isSome_iff_exists.mp (show Option.isSome
    ((gangOf (nextOf (exec (.ld 124 1 5 4 0) M))).loads.find? fun x => x.id == 16 && decide (7 < x.sectors.length)) = true by
    decide +kernel)
  have hw : 7 < ld.sectors.length := by
    have := List.find?_some h
    simp only [Bool.and_eq_true, decide_eq_true_eq] at this
    exact this.2
  exact ⟨ld, ld.sectors[7], by decide +kernel, h, List.getElem?_eq_getElem hw, by decide +kernel⟩

/-- The gang whose base lies outside its context's space. -/
def farGang : Gang → Gang := withS [(2, 0xFFFFFFF0), (3, 0xFFFF)]

def Far : State := altered W farGang
def FarG : Gang := farGang G

/-- What an access has met, if it has no place. -/
def faultOf (r : Reaching) : Option AccessFault :=
  match r.place with
  | .error f => some f
  | .ok _ => none

theorem failing_of (f : Nat → AccessFault) (ys : List Reaching) (order : Lanes)
    (h : ys.map (fun r => (r.lane, r.addr, faultOf r)) = order.map fun x => (x.1, x.2, some (f x.1))) :
    ys = order.map fun x => { lane := x.1, addr := x.2, place := .error (f x.1) } := by
  induction ys generalizing order with
  | nil => cases order <;> simp_all
  | cons y ys ih =>
    cases order with
    | nil => simp at h
    | cons x xs =>
      simp only [List.map_cons, List.cons.injEq, Prod.mk.injEq] at h
      obtain ⟨⟨h1, h2, h3⟩, h4⟩ := h
      rw [List.map_cons, ← ih xs h4]
      obtain ⟨l, a, p⟩ := y
      simp only [faultOf] at h3
      split at h3 <;> simp_all

/-- 16-byte stores in 16 lanes by age, a scalar one, a releasing one; and stores of 16 lanes at one address that meet no translation. -/
theorem witness_Stores :
    (let xs := M.globalLanes MG 1 5
     let place (l : Nat) : Nat := 0x4000 + 16 * l
     M.Issues MG ∧ (M.sideLogOf M.gang).length ≤ 128 ∧ AccessReady M MG false 124 1 5 4 none ∧
      Plain M MG .store 16 xs (winners (byAge MG xs)) place (M.translateLanes 0 1 .store (winners (byAge MG xs))).2 ∧
      AccessReady M MG true 124 1 127 4 none ∧
      Plain M MG .store 16 [(0, (MG.spair 2).toNat)] [(0, (MG.spair 2).toNat)] place
        (M.translateLanes 0 1 .store [(0, (MG.spair 2).toNat)]).2 ∧
      AccessReady M MG false 127 1 5 2 (some 4) ∧ M.hasLogged M.gang = false ∧
      Plain M MG .store 4 xs (winners (byAge MG xs)) place (M.translateLanes 0 1 .store (winners (byAge MG xs))).2) ∧
    (let xs := Far.globalLanes FarG 1 127
     let order := byAge FarG xs
     Far.Issues FarG ∧ AccessReady Far FarG false 127 1 127 2 none ∧ order.length = 16 ∧
      (∀ y ∈ xs, y.2 = 2 ^ 48 - 16 ∧ y.2 < 2 ^ 48 ∧ y.2 % 4 = 0) ∧ Far.logOverlaps Far.gang 4 xs = false ∧
      FarG.countersFull (Far.countersFor FarG (itemOf false 4 xs)) = false ∧
      (Far.sideLogOf Far.gang).length + order.length ≤ 128 ∧ (∀ c ∈ Far.contexts, c.2.ringEntries = 0) ∧
      ∃ f : Nat → AccessFault, Far.translateLanes (coreOf Far.gang) FarG.ctx .store order =
        (order.map fun y => { lane := y.1, addr := y.2, place := .error (f y.1) },
          (Far.translateLanes (coreOf Far.gang) FarG.ctx .store order).2)) := by
  refine ⟨⟨issues_of (by decide +kernel), by decide +kernel, ⟨by decide, settled_of (by decide +kernel), by decide, by decide,
      by decide +kernel⟩, plain_of (by decide +kernel) (by decide +kernel) (by decide +kernel) (by decide +kernel) (by decide +kernel),
      ⟨by decide, settled_of (by decide +kernel), by decide, by decide, by decide +kernel⟩,
      plain_of (by decide +kernel) (by decide +kernel) (by decide +kernel) (by decide +kernel) (by decide +kernel),
      ⟨by decide, settled_of (by decide +kernel), by decide, by decide, by simpa using (by decide +kernel)⟩, by decide +kernel,
      plain_of (by decide +kernel) (by decide +kernel) (by decide +kernel) (by decide +kernel) (by decide +kernel)⟩,
    issues_of (by decide +kernel), ⟨by decide, settled_of (by decide +kernel), by decide, by decide, by decide +kernel⟩,
    ?_, ?_, ?_, ?_, ?_, ?_, ?_⟩
  iterate 6 decide +kernel
  let found := (Far.translateLanes (coreOf Far.gang) FarG.ctx .store (byAge FarG (Far.globalLanes FarG 1 127))).1
  have hf : ∃ f, (found.head?.bind faultOf) = some f := Option.isSome_iff_exists.mp (by decide +kernel)
  obtain ⟨f, hf⟩ := hf
  refine ⟨fun _ => f, pair_of (failing_of (fun _ => f) _ _ ?_)⟩
  have hall : found.map (fun r => (r.lane, r.addr, faultOf r)) = (byAge FarG (Far.globalLanes FarG 1 127)).map
      fun x => (x.1, x.2, found.head?.bind faultOf) := by decide +kernel
  rw [hf] at hall
  exact hall

/-- Reductions and atomics in 16 lanes at 16 addresses, outside a reproducible launch. -/
theorem witness_ReductionsAndAtomics :
    (let xs := M.globalLanes MG 1 5
     let place (l : Nat) : Nat := 0x4000 + 16 * l
     M.Issues MG ∧ (M.sideLogOf M.gang).length ≤ 128 ∧ M.isReproducible MG = false ∧ xs ≠ [] ∧
      AccessReady M MG false 126 1 5 2 (some 4) ∧ Plain M MG .reduce 4 xs xs place (M.translateLanes 0 1 .reduce xs).2 ∧
      Plain M MG .atomic 4 xs xs place (M.translateLanes 0 1 .atomic xs).2 ∧ (126#7).toNat % 2 = 0 ∧
      M.scopeAllowed MG 4 = true ∧ M.Settled MG (indexRegs 5 ++ [126, 127]) [2, 3]) := by
  exact ⟨issues_of (by decide +kernel), by decide +kernel, by decide +kernel, by decide +kernel,
    ⟨by decide, settled_of (by decide +kernel), by decide, by decide, by simpa using (by decide +kernel)⟩,
    plain_of (by decide +kernel) (by decide +kernel) (by decide +kernel) (by decide +kernel) (by decide +kernel),
    plain_of (by decide +kernel) (by decide +kernel) (by decide +kernel) (by decide +kernel) (by decide +kernel), by decide, by decide +kernel,
    settled_of (by decide +kernel)⟩

/-- A launch that is reproducible. -/
def Repro : State := crewState { R with control := 1 } 1
def ReproG : Gang := gangOf Repro

/-- Accesses at 2^48 and at 2^48 − 16 + 1; a reproducible launch; scopes 5 and 6 without the context's policy. -/
theorem witness_AccessTraps :
    (let g := withS [(3, 0x10000)] G
     let s := altered W (withS [(3, 0x10000)])
     s.Issues g ∧ AccessReady s g false 124 1 127 4 none ∧ ∃ y ∈ s.globalLanes g 1 127, 2 ^ 48 ≤ y.2) ∧
    (let g := withS [(2, 0xFFFFFFF1), (3, 0xFFFF)] G
     let s := altered W (withS [(2, 0xFFFFFFF1), (3, 0xFFFF)])
     s.Issues g ∧ AccessReady s g false 127 1 127 1 none ∧ (∀ y ∈ s.globalLanes g 1 127, y.2 < 2 ^ 48) ∧
      (∃ y ∈ s.globalLanes g 1 127, y.2 % 2 ^ 1 ≠ 0) ∧ AccessReady s g false 126 1 127 2 (some 4) ∧ s.isReproducible g = false ∧
      s.scopeAllowed g 4 = true ∧ s.Settled g (indexRegs 127 ++ [126, 127]) [2, 3] ∧ AccessReady s g true 127 1 127 1 none ∧
      (g.spair 2).toNat < 2 ^ 48 ∧ (g.spair 2).toNat % 2 ≠ 0) ∧
    (Repro.Issues ReproG ∧ Repro.isReproducible ReproG = true ∧ AccessReady Repro ReproG false 127 1 5 2 (some 4)) ∧
    (W.Issues G ∧ W.scopeAllowed G (5#3).toNat = false ∧ W.scopeAllowed G (6#3).toNat = false) := by
  exact ⟨⟨issues_of (by decide +kernel), ⟨by decide, settled_of (by decide +kernel), by decide, by decide, by decide +kernel⟩,
      by decide +kernel⟩,
    ⟨issues_of (by decide +kernel), ⟨by decide, settled_of (by decide +kernel), by decide, by decide, by decide +kernel⟩,
      by decide +kernel, by decide +kernel,
      ⟨by decide, settled_of (by decide +kernel), by decide, by decide, by simpa using (by decide +kernel)⟩, by decide +kernel,
      by decide +kernel, settled_of (by decide +kernel),
      ⟨by decide, settled_of (by decide +kernel), by decide, by decide, by decide +kernel⟩, by decide +kernel, by decide +kernel⟩,
    ⟨issues_of (by decide +kernel), by decide +kernel,
      ⟨by decide, settled_of (by decide +kernel), by decide, by decide, by simpa using (by decide +kernel)⟩⟩,
    issues_G, by decide +kernel, by decide +kernel⟩

/-- `ordap` at 0x4000 in its turn and, with the turn at 1, before it. -/
theorem witness_OrderedAppendResult :
    ∀ s ∈ [M, M.write 0x4004 4 1], s.Issues MG ∧ s.crews.find MG.crew = some (crewOf W) ∧
      AccessReady s MG false 127 1 127 2 (some 4) ∧ (MG.spair 2).toNat = 0x4000 ∧ MG.active s.group ≠ [] ∧
      s.logOverlaps s.gang 8 [(0, 0x4000)] = false ∧
      MG.countersFull (s.countersFor MG (itemOf false 8 [(0, 0x4000)])) = false ∧
      s.translate (coreOf s.gang) MG.ctx 0x4000 .atomic = (.ok (.mem 0x4000), (s.translate (coreOf s.gang) MG.ctx 0x4000 .atomic).2) ∧
      (s.translate (coreOf s.gang) MG.ctx 0x4000 .atomic).2.serves (s.issuing MG).stamp 0x4000 = true ∧
      s.badSector 0x4000 8 = none ∧ (s.read 0x4004 4 = ((crewOf W).index * (crewOf W).record.gangCount + MG.index) % 2 ^ 32 ∨
        s.read 0x4004 4 = 1) := by
  intro s hs
  simp only [List.mem_cons, List.not_mem_nil, or_false] at hs
  rcases hs with rfl | rfl <;>
  exact ⟨issues_of (by decide +kernel), by decide +kernel,
    ⟨by decide, settled_of (by decide +kernel), by decide, by decide, by simpa using (by decide +kernel)⟩, by decide +kernel,
    by decide +kernel, by decide +kernel, by decide +kernel, pair_of (by decide +kernel), by decide +kernel⟩

/-- 16-byte scratchpad accesses up to the crew's last bytes; the last mooring entry, and all of them; a prefetch. -/
theorem witness_ScratchpadAndMooring :
    (let crew := crewOf W
     let xs := (MG.active M.group).map fun l => (l, MG.padOffset 2 5 l)
     M.Issues MG ∧ M.crews.find MG.crew = some crew ∧ M.Settled MG (indexRegs 5 ++ accessRegs 124 4) [4] ∧
      (∀ y ∈ xs, y.2 % 16 = 0 ∧ y.2 + 16 ≤ crew.padSize) ∧ (∃ y ∈ xs, y.2 + 16 = crew.padSize) ∧
      MG.countersFull (M.countersFor MG (itemOf true 16 xs)) = false) ∧
    (∀ x ∈ [31, 0xFFFFFFFF], (altered W (withS [(127, x)])).Issues (withS [(127, x)] G) ∧
      (altered W (withS [(127, x)])).crews.find G.crew = some (crewOf W) ∧
      (altered W (withS [(127, x)])).Settled (withS [(127, x)] G) [] [126, 127, 127] ∧
      (altered W (withS [(127, x)])).Settled (withS [(127, x)] G) (1 :: indexRegs 5) [124, 125]) ∧
    ((withS [(127, 31)] G).sreg 127).toNat < (crewOf W).entries ∧ (withS [(127, 31)] G).sreg 127 ≠ 0xFFFFFFFF ∧
    (withS [(127, 0xFFFFFFFF)] G).sreg 127 = 0xFFFFFFFF := by
  refine ⟨⟨issues_of (by decide +kernel), by decide +kernel, settled_of (by decide +kernel), by decide +kernel⟩, ?_, by decide +kernel⟩
  intro x hx
  simp only [List.mem_cons, List.not_mem_nil, or_false] at hx
  rcases hx with rfl | rfl <;> exact ⟨issues_of (by decide +kernel), by decide +kernel, settled_of (by decide +kernel),
    settled_of (by decide +kernel)⟩

/-- Three lanes at one address, the middle one of the largest age; the last entry of a mooring table, and a slot bound elsewhere. -/
theorem witness_StoreWinnersAndMooringLookups :
    (([(0, 64), (1, 64), (2, 64)] : Lanes).map fun y => y.1).Nodup ∧
    (let crew := { crewOf W with mooring := [(3, 9)] }
     31 < crew.entries ∧ crew.slotSize ≠ 0 ∧ crew.mooring.wf = true ∧ crew.mooring.get 3 = BitVec.ofNat 64 (8 * crew.slotSize / crew.slotSize + 1) ∧
      crew.mooring.get 31 ≠ BitVec.ofNat 64 (8 * crew.slotSize / crew.slotSize + 1)) := by
  decide +kernel

/-- Of three stores at one address the one of the largest age is performed (03 R68). -/
theorem test_winner : winners [(0, 64), (2, 64), (1, 64)] = [(1, 64)] := by decide

/-! Handles, counters, fences and engines. -/

theorem quad_of {α β γ δ : Type} {p : α × β × γ × δ} {a : α} {b : β} {c : γ} (h1 : p.1 = a) (h2 : p.2.1 = b) (h3 : p.2.2.1 = c) :
    p = (a, b, c, p.2.2.2) := by rw [← h1, ← h2, ← h3]

theorem wellMade_range {h : BitVec 128} (h1 : handleBits h 127 124 = 1) (h2 : handleBits h 123 109 = 0 ∧ handleBits h 107 96 = 0 ∧
    handleRun h ≠ 0 ∧ handleBits h 47 0 + handleRun h ≤ 2 ^ 48) : WellMade h := by
  simp only [WellMade, h1]
  exact h2

/-- The whole scratchpad, one byte more, and a value of no kind. -/
theorem witness_HandleResult :
    (∀ n ∈ [0x20000000, 0x20010000], let regs : List (Nat × Word) := [(124, 0), (125, n), (126, 0), (127, 0x10001000)]
     let g := withS regs G
     let h : BitVec 128 := g.spair 126 ++ g.spair 124
     (altered W (withS regs)).Issues g ∧ (altered W (withS regs)).crews.find g.crew = some (crewOf W) ∧
      (altered W (withS regs)).Settled g [] [124, 125, 126, 127] ∧ WellMade h ∧ h.getLsbD 108 = true ∧ 0 < handleRun h ∧
      (handleBits h 47 0 + handleRun h = (crewOf W).padSize ∨ handleBits h 47 0 + handleRun h = (crewOf W).padSize + 1)) ∧
    (let g := withS [(127, 0x40000000)] G
     (altered W (withS [(127, 0x40000000)])).Issues g ∧
      (altered W (withS [(127, 0x40000000)])).Settled g [] [124, 125, 126, 127] ∧ ¬WellMade (g.spair 126 ++ g.spair 124)) := by
  refine ⟨?_, issues_of (by decide +kernel), settled_of (by decide +kernel), ?_⟩
  · intro n hn
    simp only [List.mem_cons, List.not_mem_nil, or_false] at hn
    rcases hn with rfl | rfl <;> exact ⟨issues_of (by decide +kernel), by decide +kernel, settled_of (by decide +kernel),
      wellMade_range (by decide +kernel) (by decide +kernel), by decide +kernel⟩
  · intro h
    have h4 : handleBits ((withS [(127, 0x40000000)] G).spair 126 ++ (withS [(127, 0x40000000)] G).spair 124) 127 124 = 4 := by
      decide +kernel
    rw [WellMade, h4] at h
    exact h

/-- The gang whose range counter 7 is bound and counts 127. -/
def countGang (g : Gang) : Gang :=
  { g with rc := List.replicate 7 ⟨0, 0, noEpochs⟩ ++ [⟨127, 0x10001000000000002000000000000000, noEpochs⟩] }

/-- The gang whose slice 3 has yielded on range counter 0. -/
def yieldGang (g : Gang) : Gang :=
  { g with slices := g.slices.mapIdx fun j sl => if j = 3 then { sl with yielded := some ⟨0, 0x3000⟩ } else sl }

/-- A counter at zero, one at the number waited for and one above it; a target of a yield, and a slice that yielded. -/
theorem witness_CountersAndYields :
    (W.Issues G ∧ G.rangeCount (7#3).toNat = 0 ∧ G.rangeCount (7#3).toNat ≤ (0#7).toNat ∧
      W.classCounter W.gang G (4#3).toNat ≤ (0#7).toNat) ∧
    (let s := altered W countGang
     let g := countGang G
     s.Issues g ∧ g.rangeCount (7#3).toNat ≠ 0 ∧ g.rangeCount (7#3).toNat ≤ (127#7).toNat ∧
      (126#7).toNat < g.rangeCount (7#3).toNat ∧ (g.rc[(7#3).toNat]?).isSome = true ∧
      (g.classSeen[(4#3).toNat]?).isSome = true) ∧
    (let s := nextOf (exec (.ld 124 1 5 4 0) M)
     (0#7).toNat < s.classCounter s.gang (gangOf s) (4#3).toNat ∧ s.Issues (gangOf s)) ∧
    (let g := withS [(126, 0x3004)] G
     (altered W (withS [(126, 0x3004)])).Issues g ∧ (altered W (withS [(126, 0x3004)])).Settled g [] [126, 127] ∧
      (g.spair 126).toNat % 4 = 0 ∧ ((withS [(126, 0x3006)] G).spair 126).toNat % 4 ≠ 0) ∧
    (let s := altered W yieldGang
     let g := yieldGang G
     ∃ ctx sl, s.gangs.find s.subject.who = some g ∧ g.stop = none ∧ s.contexts.find g.ctx = some ctx ∧ ctx.mayIssue = true ∧
      g.refill = none ∧ g.slices.find? (fun sl => s.yieldOver s.subject.who g s.subject.what sl) = some sl ∧
      sl.yielded = some ⟨0, 0x3000⟩ ∧ (∀ sl ∈ g.slices, sl.parked = true → sl.yielded = none) ∧ sl.status = .running ∧
      sl.group = s.subject.what ∧ s.counter s.subject.who g 0 = 0) := by
  refine ⟨⟨issues_G, by decide +kernel⟩,
    ⟨issues_of (by decide +kernel), by decide +kernel⟩,
    ⟨by decide +kernel, issues_of (by decide +kernel)⟩,
    ⟨issues_of (by decide +kernel), settled_of (by decide +kernel), by decide +kernel, by decide +kernel⟩,
    ((altered W yieldGang).contexts.find 1).getD placedContext,
    { sliceOf [⟨0xF, .running, 0⟩] with yielded := some ⟨0, 0x3000⟩ }, ?_, ?_, ?_, ?_, ?_, ?_, rfl, ?_⟩ <;>
  decide +kernel

/-- Nothing outstanding and a load outstanding; no bound counter, a bound one at zero and one above it; a die's epoch. -/
theorem witness_FencesAndReleases :
    (W.Issues G ∧ W.scopeAllowed G (4#3).toNat = true ∧ W.performedAll W.gang G = true ∧ G.named true 127 = []) ∧
    (let s := nextOf (exec (.ld 124 1 5 4 0) M)
     s.Issues (gangOf s) ∧ s.performedAll s.gang (gangOf s) = false) ∧
    (let s := altered W countGang
     let g := countGang G
     s.Issues g ∧ g.named true 0 ≠ [] ∧ ∃ x ∈ g.named true 0, x.count ≠ 0) ∧
    (let f : Gang → Gang := fun g => { g with rc := List.replicate 8 ⟨0, 1, noEpochs⟩ }
     (altered W f).Issues (f G) ∧ (f G).named false 127 ≠ [] ∧ ∀ x ∈ (f G).named false 127, x.count = 0) ∧
    (W.dies[dieOf 191]? = some Die.fresh ∧ Die.fresh.applied.length = 4 ∧ dieOf 191 < 4) :=
  ⟨⟨issues_G, by decide +kernel⟩, ⟨issues_of (by decide +kernel), by decide +kernel⟩,
    ⟨issues_of (by decide +kernel), by decide +kernel, by decide +kernel⟩,
    ⟨issues_of (by decide +kernel), by decide +kernel, by decide +kernel⟩, by decide +kernel⟩

/-- A tensor of 2 rows and 4 columns of 32-bit elements at 0x4000, and a quantised page of 128 channels. -/
def tensorGang (g : Gang) : Gang :=
  (((withS [(120, 0x100), (121, 16), (124, 0x00020004), (126, 0x400)] g).setK 1
    (BitVec.ofNat 128 (2 * 2 ^ 124 + 16 * 2 ^ 80 + 3 * 2 ^ 64 + 1 * 2 ^ 48 + 0x4000))).setK 2
    (BitVec.ofNat 128 (2 * 2 ^ 124 + 7 * 2 ^ 104 + 64 * 2 ^ 80 + 127 * 2 ^ 64 + 1 * 2 ^ 48)))

def T : State := altered W tensorGang
def TG : Gang := tensorGang G

/-- Copies out of and into the crew's scratchpad up to its end; a tile move, a dequantisation, a gather and a scatter. -/
theorem witness_EngineCommandsSent :
    (let regs : List (Nat × Word) := [(122, 0x1F00), (124, 0x4000), (126, 0x100)]
     let g := withS regs G
     let s := altered W (withS regs)
     s.Issues g ∧ s.crews.find g.crew = some (crewOf W) ∧ s.Settled g [] ((List.range 5).map fun i => 122 + i) ∧
      InPad (crewOf W) ((g.sreg 122).setWidth 64 : DWord).toNat (g.sreg 126).toNat ∧ (g.spair 124).toNat < 2 ^ 48 ∧
      MaySend s g .crane (extent true 0x1F00 0x100 ++ extent false 0x4000 0x100)) ∧
    (let h := TG.kreg 1
     T.Issues TG ∧ T.crews.find TG.crew = some (crewOf W) ∧ T.Settled TG [] ((List.range 7).map fun i => 120 + i) ∧
      handleKind h = 2 ∧ formatWidth (handleFormat h) = 32 ∧ handleBase h % 4 = 0 ∧ handlePitch h % 4 = 0 ∧
      (TG.sreg 120).toNat % 4 = 0 ∧ (TG.sreg 121).toNat % 4 = 0 ∧ InPad (crewOf W) 0x100 (span 2 16 16) ∧
      InPad (crewOf W) 0x400 16 ∧ MaySend T TG .crane ((handleExtent h).toList ++ extent true 0x100 (span 2 16 16) ++ extent true 0x400 16)) ∧
    (pageHandle (TG.kreg 2) = true ∧ (4#4).toNat ≤ 4 ∧ (pairOf (TG.sreg 122) (TG.sreg 123)).toNat = 0 ∧
      InPad (crewOf W) 0x100 (span 2 16 128) ∧
      MaySend T TG .crane (extent false 0 (pageBytes 2 128) ++ extent true 0x100 (span 2 16 128))) ∧
    (let regs : List (Nat × Word) := [(122, 0x1000), (123, 16), (124, 0x4000), (126, 0x1F00)]
     let g := withS regs G
     let s := altered W (withS regs)
     s.Issues g ∧ s.Settled g [] ((List.range 5).map fun i => 122 + i) ∧ (g.spair 124).toNat < 2 ^ 48 ∧
      (g.spair 124).toNat % 32 = 0 ∧ InPad (crewOf W) (g.sreg 122).toNat (4 * (g.sreg 123).toNat) ∧
      MaySend s g .lighter (extent true 0x1000 64)) := by
  refine ⟨⟨issues_of (by decide +kernel), by decide +kernel, settled_of (by decide +kernel), Or.inr (by decide +kernel),
      by decide +kernel, ⟨by decide +kernel, by decide +kernel⟩⟩,
    ⟨issues_of (by decide +kernel), by decide +kernel, settled_of (by decide +kernel), ?_, ?_, ?_, ?_, ?_, ?_, Or.inr (by decide +kernel),
      Or.inr (by decide +kernel), ⟨by decide +kernel, by decide +kernel⟩⟩,
    ⟨by decide +kernel, by decide, by decide +kernel, Or.inr (by decide +kernel), ⟨by decide +kernel, by decide +kernel⟩⟩,
    ⟨issues_of (by decide +kernel), settled_of (by decide +kernel), by decide +kernel, by decide +kernel,
      Or.inr (by decide +kernel), ⟨by decide +kernel, by decide +kernel⟩⟩⟩ <;>
  decide +kernel

/-- A command of the test gang, alone outstanding, and one of a gang of the root context. -/
def commandOf (cls : EngineClass) (ctx : Nat) (work : Work) : Command :=
  { id := 9, cls := cls, work := work, gangs := [0], ctx := ctx, crew := 0, launch := 1, arrival := some 3, stopped := false, progress := 0,
    held := none, counted := [0], stamp := noEpochs, seen := noEpochs, pc := 0x2000, offered := false, done := false }

def commandState (c : Command) : State :=
  { W with commands := [c], serial := 20, subject := { Subject.none with who := 9 }, contexts := (W.setContext 0 placedContext).contexts }

theorem region_bound (n k f c r b : Nat) (hn : 0 < n) (hb : b = f % n * k) (hr : r = (c % (n - f % n) + 1) * k) :
    b + r ≤ n * k ∧ k ≤ r := by
  subst hb hr
  have h1 := Nat.mod_lt f hn
  have h2 := Nat.mod_lt c (y := n - f % n) (by omega)
  rw [← Nat.add_mul]
  exact ⟨Nat.mul_le_mul_right k (by omega), Nat.le_mul_of_pos_left k (by omega)⟩

/-- The grant region lies in HBM, and has a frame (16 R323). -/
theorem region_top : Config.grantRegionBase + Config.grantRegionSize ≤ 524288 * 0x200000 ∧ 0x200000 ≤ Config.grantRegionSize :=
  region_bound 524288 0x200000 Config.grantFirst Config.grantCount _ _ (by omega) rfl rfl

theorem outside_region {a : Nat} (h : 0x10000000000 ≤ a) : inGrantRegion a = false := by
  have hb := region_top.1
  unfold inGrantRegion
  rw [Bool.and_eq_false_iff, decide_eq_false_iff_not, decide_eq_false_iff_not]
  generalize Config.grantRegionBase + Config.grantRegionSize = c at hb ⊢
  exact Or.inr (by omega)

/-- The root's addresses are machine addresses: those of host memory are mapped whatever the state holds (16 R317). -/
theorem mapped_root {s : State} {core crew : Nat} {stamp : List DWord} {lighter : Bool} {A : Nat → Prop}
    (h : s.badSectors = []) (hA : ∀ a, A a → 0x400000000000 ≤ a ∧ a < 0xB00000000000) :
    Mapped s core 0 crew stamp lighter id A := by
  refine ⟨fun _ _ _ _ => rfl, fun u => u.badSectors = [], h, ?_, ?_, ?_, fun _ _ hu => hu⟩
  · intro r va n k hr _ _ hn _ ha
    have hv := hA va (by simpa using ha 0 hn)
    have hb : backed va = true := by
      simp only [backed, Bool.or_eq_true, Bool.and_eq_true, decide_eq_true_eq]
      omega
    have hg := outside_region (a := va) (by omega)
    have hh : homeDie va = none := by simp only [homeDie]; split <;> [omega; rfl]
    have hs (u : State) : u.serves r.stamp va = true := by simp [State.serves, hh]
    refine ⟨r.st, ?_, hr, rfl, rfl, rfl, rfl, rfl, fun _ _ => rfl⟩
    have h48 : va < 281474976710656 := by omega
    cases hl : r.lighter <;>
      simp [Run.reach, h48, hl, State.translate, State.translateKeep, State.translateDie, State.dieKeep, State.translateFresh, hb, hg,
        hs, State.badSector, hr]
  · intro u va bytes hu _
    simp [State.putPlace, hu]
  · intro u o bytes hu
    simp only [State.padPut]
    split <;> exact hu

theorem does_of {c : Command} {A : Nat → Prop} (h0 : c.ctx = 0)
    (h : ((commandState c).commands.find? (fun x => x.id == (commandState c).subject.who) == some c && decide (c.progress = 0) &&
      (commandState c).mayPerform c && decide ((commandState c).crews.find c.crew = some (crewOf W))) = true)
    (hA : ∀ a, A a → 0x400000000000 ≤ a ∧ a < 0xB00000000000) : EngineDoes (commandState c) c (crewOf W) id A := by
  simp only [Bool.and_eq_true, beq_iff_eq, decide_eq_true_eq] at h
  exact ⟨h.1.1.1, by rfl, h.1.1.2, h.1.2, h.2, by decide +kernel, h0 ▸ mapped_root rfl hA⟩

/-- A gather of two elements from 0x4000 and the next sector, and up to one of them; a copy
from 2^48, which is PROTECTION, and one whose address is not mapped. -/
theorem witness_EngineCommandResult :
    (let c := commandOf .lighter 1 (.gather 4 0 2 0x4000 0x100)
     let s := (commandState c).setCore 0 { W.core 0 with scratch := [(4, 8)] }
     ∀ limit ∈ [0, 1], ∃ r, s.commands.find? (fun x => x.id == s.subject.who) = some c ∧ s.mayPerform c = true ∧
      (s.commands.map fun x => x.id).Pairwise (· < ·) ∧ Alone s c ∧
      (Run.of (s.retakeHold c) c).perform c limit = (if limit = 0 then 2 else 1, limit == 0, none, r) ∧ r.st.commands = s.commands) ∧
    (let c := commandOf .crane 1 (.copy false true 0x1000000000000 0 16)
     let s := commandState c
     ∃ r, s.commands.find? (fun x => x.id == s.subject.who) = some c ∧ s.mayPerform c = true ∧ s.retakeHold c = s ∧
      s.subject.flag = false ∧ (s.contexts.find c.ctx).isSome = true ∧
      (Run.of s c).perform c 0 = (0, false, some (.stop .protection 0x1000000000000 none), r) ∧
      r.st.contexts = s.contexts ∧ r.st.commands = s.commands) ∧
    (let c := commandOf .crane 1 (.copy false true 0xFFFFFFFFFFF0 0 16)
     let s := commandState c
     ∃ f r, s.commands.find? (fun x => x.id == s.subject.who) = some c ∧ s.mayPerform c = true ∧ s.retakeHold c = s ∧
      s.subject.flag = false ∧ (Run.of s c).perform c 0 = (0, false, some (.hold f), r) ∧
      r.st.contexts = s.contexts ∧ r.st.commands = s.commands) := by
  refine ⟨?_, ⟨_, by decide +kernel, by decide +kernel, by decide +kernel, by decide +kernel, by decide +kernel,
    quad_of (by decide +kernel) (by decide +kernel) (by decide +kernel), by decide +kernel, by decide +kernel⟩,
    ⟨⟨.pageFaultLoad, 0xFFFFFFFFFFF0, 0, 1⟩, _, by decide +kernel, by decide +kernel, by decide +kernel, by decide +kernel,
    quad_of (by decide +kernel) (by decide +kernel) (by decide +kernel), by decide +kernel, by decide +kernel⟩⟩
  intro c s limit hl
  simp only [List.mem_cons, List.not_mem_nil, or_false] at hl
  rcases hl with rfl | rfl <;> exact ⟨_, by decide +kernel, by decide +kernel, by decide +kernel, ⟨by decide +kernel, by decide +kernel⟩,
    quad_of (by decide +kernel) (by decide +kernel) (by decide +kernel), by decide +kernel⟩

/-- A copy of 4 bytes from host memory to scratchpad, and to itself one byte further; a gather and a scatter of one element. -/
theorem witness_EngineEffects :
    (let n (a : Nat) : Prop := 0x400000000000 ≤ a ∧ a < 0x400000000005
     EngineDoes (commandState (commandOf .crane 0 (.copy false true 0x400000000000 8 4)))
        (commandOf .crane 0 (.copy false true 0x400000000000 8 4)) (crewOf W) id n ∧
      EngineDoes (commandState (commandOf .crane 0 (.copy false false 0x400000000000 0x400000000001 4)))
        (commandOf .crane 0 (.copy false false 0x400000000000 0x400000000001 4)) (crewOf W) id n ∧ InPad (crewOf W) 8 4) ∧
    (∀ w ∈ [Work.gather 4 0 1 0x400000000000 0x100, .scatter 4 0 1 0x400000000000 0x100],
      EngineDoes (commandState (commandOf .lighter 0 w)) (commandOf .lighter 0 w) (crewOf W) id (fun a => ∃ i, i < 1 ∧
        ((0x400000000000 : DWord) + BitVec.ofNat 64
          (numberOf ((commandState (commandOf .lighter 0 w)).padBytes 0 (0 + 4 * i) 4) * 4)).toNat ≤ a ∧
        a < ((0x400000000000 : DWord) + BitVec.ofNat 64
          (numberOf ((commandState (commandOf .lighter 0 w)).padBytes 0 (0 + 4 * i) 4) * 4)).toNat + 4)) := by
  refine ⟨⟨does_of rfl (by decide +kernel) fun a h => by omega, does_of rfl (by decide +kernel) fun a h => by omega,
    Or.inr (by decide +kernel)⟩, ?_⟩
  intro w hw
  simp only [List.mem_cons, List.not_mem_nil, or_false] at hw
  have h : ∀ i, i < 1 → ((0x400000000000 : DWord) + BitVec.ofNat 64
      (numberOf ((commandState (commandOf .lighter 0 w)).padBytes 0 (0 + 4 * i) 4) * 4)).toNat = 0x400000000000 := by
    rcases hw with rfl | rfl <;> decide +kernel
  rcases hw with rfl | rfl <;> exact does_of rfl (by decide +kernel) fun a ⟨i, hi, h1, h2⟩ => by rw [h i hi] at h1 h2; omega

/-- A tile of one 4-byte element within a tensor of host memory, and a page of 128 channels and one token there. -/
theorem witness_TileAndDequant :
    (let h := BitVec.ofNat 128 (2 * 2 ^ 124 + 16 * 2 ^ 80 + 3 * 2 ^ 64 + 1 * 2 ^ 48 + 0x400000000000)
     let c := commandOf .crane 0 (.tile 0 h 0x100 16 1 3 1 1 0 0)
     EngineDoes (commandState c) c (crewOf W) id (fun a => 0x40000000001C ≤ a ∧ a < 0x400000000020) ∧
      handleBase h + 1 * handlePitch h + 3 * 4 = 0x40000000001C ∧ 1 < handleRows h ∧ 3 < handleColumns h) ∧
    (let h := BitVec.ofNat 128 (2 * 2 ^ 124 + 7 * 2 ^ 104 + 64 * 2 ^ 80 + 127 * 2 ^ 64 + 0 * 2 ^ 48)
     let c := commandOf .crane 0 (.dequant 1 false h 0x100 256 0x400000000000 0 1 0)
     EngineDoes (commandState c) c (crewOf W) id
        (fun a => (0x400000000000 : DWord).toNat ≤ a ∧ a < (0x400000000000 : DWord).toNat + pageBytes (handleRows h) (handleColumns h)) ∧
      pageHandle h = true) := by
  have hp : pageBytes (handleRows (BitVec.ofNat 128 (2 * 2 ^ 124 + 7 * 2 ^ 104 + 64 * 2 ^ 80 + 127 * 2 ^ 64 + 0 * 2 ^ 48)))
      (handleColumns (BitVec.ofNat 128 (2 * 2 ^ 124 + 7 * 2 ^ 104 + 64 * 2 ^ 80 + 127 * 2 ^ 64 + 0 * 2 ^ 48))) < 0x10000 := by
    decide +kernel
  refine ⟨⟨does_of rfl (by decide +kernel) fun a h => by omega, by decide +kernel⟩,
    does_of rfl (by decide +kernel) fun a h => ?_, by decide +kernel⟩
  have : (0x400000000000 : DWord).toNat = 0x400000000000 := rfl
  omega

/-- A notice that the pilot has committed to, of a page of host memory. -/
def noticeOf (terminal : Bool) (header : Option Nat) : Notice :=
  { id := 4, chain := 3, pc := 0x2000, pageSize := 128, ring := 0x1FC0, arrival := none, stamp := noEpochs, number := 5,
    page := 0x400000000000, terminal := terminal, header := header, seen := noEpochs, counted := 0, held := none }

/-- A chain of pages of 128 bytes with its ring at the end of scratchpad. -/
def chainOf (notices : List Notice) : Chain :=
  { id := 3, pc := 0x2000, next := none, terminal := false, committed := 6, limit := 0, pageSize := 128, ring := 0x1FC0,
    arrival := none, unfreed := 3, ended := false, notices := notices, stamp := noEpochs }

/-- A pilot of pages of 128 bytes with its ring at the end of scratchpad, without a chain and with one that has not ended; its terminating
notice, and the notice of a page of host memory that is read, that is to be read, that is read ahead of another notice, and that an earlier
chain has left. -/
theorem witness_PilotChainResult :
    (let regs : List (Nat × Word) := [(122, 0x4000), (124, 0x1FC0), (125, 5), (126, 128)]
     let ready (s : State) (g : Gang) : Prop := s.Issues g ∧ s.Settled g [] ((List.range 5).map fun i => 122 + i) ∧
       s.crews.find g.crew = some (crewOf W) ∧ (g.sreg 126).toNat = 128 ∧ (g.spair 122).toNat < 2 ^ 48 ∧
       (g.spair 122).toNat % 128 = 0 ∧ (g.sreg 124).toNat % 16 = 0 ∧ (g.sreg 124).toNat + 64 = (crewOf W).padSize
     let chained (g : Gang) : Gang := { withS regs g with chain := some (chainOf []) }
     ready (altered W (withS regs)) (withS regs G) ∧ (withS regs G).chain = none ∧
       ready (altered W chained) (chained G) ∧ (chained G).chain.map (fun c => c.ended) = some false) ∧
    W.Issues G ∧
    (∀ y ∈ [(false, [], noticeOf true none), (false, [], noticeOf false (some 5)), (false, [], noticeOf false none),
        (true, [{ noticeOf true none with number := 4 }], noticeOf false none), (false, [], { noticeOf false none with chain := 2 })],
      let ch : Chain := chainOf (y.2.1 ++ [y.2.2])
      let g : Gang := { G with ctx := 0, chain := some ch }
      let s : State :=
        { altered W (fun g => { g with ctx := 0, chain := some ch }) with
          contexts := (W.setContext 0 placedContext).contexts, subject := { Subject.none with flag := y.1 } }
      (s.gangs.find s.subject.who = some g ∧ s.subject.flag = y.1 ∧ s.enginesRun g.ctx = true ∧ s.mayRetry y.2.2.held y.2.2.chain = true ∧
        s.pilotClear s.subject.who g.ctx y.2.2 s.pendingExtents = true ∧
        s.crews.find g.crew = some (crewOf W) ∧ y.2.2.ring + 64 ≤ (crewOf W).padSize ∧ (crewOf W).granules.Nodup ∧
        (crewOf W).padSize ≤ 4096 * (crewOf W).granules.length ∧
        (∀ x ∈ y.2.1 ++ ([] : List Notice), ¬(x.chain = y.2.2.chain ∧ x.number = y.2.2.number)) ∧
        (∀ x ∈ y.2.1, x.terminal = true ∨ x.header ≠ none) ∧ y.2.2.page.toNat % 128 = 0) ∧ ch.next = none ∧
        Mapped s (coreOf s.subject.who) g.ctx g.crew y.2.2.stamp false id
          (fun a => y.2.2.page.toNat ≤ a ∧ a < y.2.2.page.toNat + y.2.2.pageSize)) := by
  refine ⟨⟨⟨issues_of ?_, settled_of ?_, ?_⟩, ?_, ⟨issues_of ?_, settled_of ?_, ?_⟩, ?_⟩, issues_G, ?_⟩
  all_goals first | decide +kernel | skip
  intro y hy
  have hp : (0x400000000000 : DWord).toNat = 0x400000000000 := rfl
  simp only [List.mem_cons, List.not_mem_nil, or_false] at hy
  rcases hy with rfl | rfl | rfl | rfl | rfl <;> refine ⟨?_, rfl, mapped_root ?_ fun a h => ?_⟩
  all_goals first | decide +kernel | (simp only [noticeOf, hp] at h; omega)

/-- A notice for which a gantry instruction waits that the halting context's gantry has accepted. -/
theorem witness_PilotNoticeHalting :
    let g : Gang := { G with ctx := 0, chain := some (chainOf [noticeOf true none]) }
    let halt : Halt :=
      { forced := true, cause := .none, deadline := 0, records := [], resume := false, inherited := false, root := 0 }
    let c : Context := { placedContext with state := .halting, halt := some halt }
    let s : State :=
      { altered W (fun g => { g with ctx := 0, chain := some (chainOf [noticeOf true none]) }) with
        contexts := (W.setContext 0 c).contexts
        commands := [{ commandOf .gantry 0 (.aload 3 true 0x1FC0 512 190 2) with arrival := none }] }
    s.gangs.find s.subject.who = some g ∧ s.enginesRun g.ctx = false ∧ s.lineRaised g.ctx = true ∧
      Errand.notice s.subject.who (noticeOf true none) ∈ s.awaited g.ctx ∧
      s.pilotClear s.subject.who g.ctx (noticeOf true none) s.pendingExtents = true := by decide +kernel

/-! The gantry. -/

/-- A one-gang crew of 64 lanes with BF16 in slot 7, in a convoy of its own, and 5 granules of scratchpad. -/
def W64 : State := crewState { R with geometry := 0x2017C2, slots := [0, 0, 0, 0, 0, 0, 0, 0x11], convoys := [0, 0, 0, 0, 0, 0, 0, 0x20000000] } 1
def G64 : Gang := gangOf W64

theorem free_of {s : State} {g : Gang} {acc : Nat} (h : (s.bank (coreOf s.gang) g.ctx).holder acc = 0 ∨
    (s.bank (coreOf s.gang) g.ctx).holder acc = g.crew + 1) : ¬HeldByOther s g acc := fun ⟨h1, h2⟩ => h.elim h1 h2

theorem set_of {s : State} {g : Gang} {acc : Nat} (h : s.isReproducible g = false) : ¬Unset s g acc := fun ⟨_, h2⟩ => by
  rw [h] at h2
  exact Bool.false_ne_true h2

theorem gantry_of {s : State} {g : Gang} {acc : Nat} {sets : Bool} {bytes : List Extent}
    (h1 : ((s.core (coreOf s.gang)).gantryDisabled = false ∧ s.gantryAccepts (coreOf s.gang) = true) ∧
      ((s.bank (coreOf s.gang) g.ctx).holder acc = 0 ∨ (s.bank (coreOf s.gang) g.ctx).holder acc = g.crew + 1))
    (h2 : s.isReproducible g = false) (h3 : MaySend s g .gantry bytes) : GantryReady s g acc sets bytes :=
  ⟨h1.1.1, h1.1.2, ⟨free_of h1.2, Or.inr (set_of h2)⟩, h3⟩

theorem witness_ConvoysAndMatrix :
    (W64.Issues G64 ∧ W64.crews.find G64.crew = some (crewOf W64) ∧
      (∃ e ∈ (crewOf W64).convoys, e.defn = (7#3).toNat ∧ G64.index ∈ e.gangs) ∧
      ∀ e ∈ (crewOf W64).convoys, e.defn = (0#3).toNat → G64.index ∉ e.gangs) ∧
    (let w := W64.slotWord G64 7
     G64.convoy = none ∧ G64.width = 64 ∧ jointFormats w = true ∧ W64.latchHolds (coreOf W64.gang) G64.ctx (latchKey W64.gang G64.crew none) = false ∧
      W64.Settled G64 ((List.range 32).map (· + 96) ++ (rowExtras w).map (· + 96)) (126 :: scalarExtras true w 62) ∧
      (G64.sreg 126).toNat % 128 = 0 ∧ InPad (crewOf W64) (G64.sreg 126).toNat (tileBytes w) ∧
      (∀ e ∈ (crewOf W64).convoys, ∀ x ∈ e.arrivals, x.gang ≠ W64.gang) ∧ ¬HeldByOther W64 G64 3 ∧ ¬Unset W64 G64 3 ∧
      ∀ sparse, GantryReady W64 G64 3 false (jointBytes sparse w ([0, 2, 3, 4].map fun j => G64.sreg (2 * 63 + j)))) := by
  refine ⟨⟨issues_of (by decide +kernel), by decide +kernel⟩,
    ⟨by decide +kernel, by decide +kernel, by decide +kernel, by decide +kernel, settled_of (by decide +kernel), by decide +kernel,
      Or.inr (by decide +kernel), by decide +kernel, free_of (by decide +kernel), set_of (by decide +kernel), fun sparse =>
      gantry_of (by decide +kernel) (by decide +kernel) (by cases sparse <;> exact ⟨by decide +kernel, by decide +kernel⟩)⟩⟩

/-- The 64-lane gang with an accumulator block: 192 rows of the accumulator, and a histogram at the end of scratchpad. -/
def accRegs : List (Nat × Word) := [(120, 0x4000), (122, 512), (123, 0x00C00000), (124, 0x4EF0), (125, 0)]

/-- An accumulator block whose second word carries an address into scratchpad, with no rows' pitch. -/
def padRegs : List (Nat × Word) := [(120, 0x4000), (122, 0), (123, 0x00C00000)]

theorem witness_AccumulatorCommands :
    (W64.Issues G64 ∧ W64.crews.find G64.crew = some (crewOf W64) ∧ GantryReady W64 G64 3 true []) ∧
    (let g := withS accRegs G64
     let s := altered W64 (withS accRegs)
     s.Issues g ∧ s.Settled g [] ((List.range 4).map fun i => 120 + i) ∧
      (g.sreg 123).toNat % 65536 + (g.sreg 123).toNat / 65536 = 192 ∧ (g.spair 120).toNat < 2 ^ 48 ∧
      (g.spair 120).toNat % 4 = 0 ∧ (g.sreg 122).toNat % 4 = 0 ∧ GantryReady s g 3 true (rowExtents false 0x4000 512 192 512)) ∧
    (let g := withS padRegs G64
     let s := altered W64 (withS padRegs)
     s.Issues g ∧ InPad (crewOf W64) ((g.sreg 120).setWidth 64 : DWord).toNat (span 192 0 512) ∧
      GantryReady s g 3 true (rowExtents true 0x4000 0 192 512)) ∧
    (let g := withS [(127, 0x00600080)] G64
     let s := altered W64 (withS [(127, 0x00600080)])
     s.Issues g ∧ s.Settled g ((List.range 32).map (· + 96)) [127] ∧ arowBlock (g.sreg 127) g.width = (128, 96, true) ∧
      GantryReady s g 0 false []) ∧
    (let regs : List (Nat × Word) := [(124, 0), (125, 3), (126, 192)]
     let g := withS regs G64
     let s := altered W64 (withS regs)
     ∃ ctx, s.contexts.find g.ctx = some ctx ∧ s.Issues g ∧ s.Settled g [] ((List.range 3).map fun i => 124 + i) ∧
      (g.sreg 124).toNat < ctx.cores.length ∧ (g.sreg 125).toNat ≤ 3 ∧ (g.sreg 126).toNat ∈ [64, 128, 192] ∧
      GantryReady s g 3 false []) ∧
    (let regs : List (Nat × Word) := [(124, 1), (125, 192)]
     let g := withS regs G64
     let s := (altered W64 (withS regs)).setBank 0 1 { Bank.fresh with offers := [⟨5, 0, 0, 1, 3, 192⟩] }
     ∃ ctx, s.contexts.find g.ctx = some ctx ∧ s.Issues g ∧ s.Settled g [] ((List.range 2).map fun i => 124 + i) ∧
      (g.sreg 124).toNat = ctx.cores.length ∧ (g.sreg 125).toNat ∈ [64, 128, 192] ∧ GantryReady s g 3 true [] ∧
      1 ≤ (g.sreg 124).toNat ∧ [0].length = (g.sreg 124).toNat ∧ ([0] : List Nat).Pairwise (· < ·) ∧
      (s.bank (coreOf s.gang) g.ctx).offers = [⟨5, 0, 0, 1, 3, 192⟩] ∧ ctx.logicalCore (coreOf s.gang) = 0 ∧ s.commands = []) ∧
    (let s := W64.setCore 0 { W64.core 0 with gantryDisabled := true }
     s.Issues G64 ∧ (s.core (coreOf s.gang)).gantryDisabled = true) ∧
    (let s := W64.setBank 0 1 { Bank.fresh with holds := [(3, 8)] }
     s.Issues G64 ∧ (s.core (coreOf s.gang)).gantryDisabled = false ∧ (s.bank (coreOf s.gang) G64.ctx).holder 3 ≠ 0 ∧
      (s.bank (coreOf s.gang) G64.ctx).holder 3 ≠ G64.crew + 1 ∧ HeldByOther s G64 3) ∧
    (Repro.isReproducible ReproG = true ∧ ¬HeldByOther Repro ReproG 3 ∧ Unset Repro ReproG 3) ∧
    (let s : State := { W64 with commands := List.replicate 64 (commandOf .gantry 1 (.azero 3)) }
     s.Issues G64 ∧ ¬HeldByOther s G64 3 ∧ ¬Unset s G64 3 ∧ ¬(s.gantryAccepts (coreOf s.gang) = true ∧ MaySend s G64 .gantry [])) := by
  refine ⟨⟨issues_of (by decide +kernel), by decide +kernel, gantry_of (by decide +kernel) (by decide +kernel) ⟨by decide +kernel, by decide +kernel⟩⟩, ⟨issues_of (by decide +kernel), settled_of (by decide +kernel),
      by decide +kernel, by decide +kernel, by decide +kernel, by decide +kernel,
      gantry_of (by decide +kernel) (by decide +kernel) ⟨by decide +kernel, by decide +kernel⟩⟩,
    ⟨issues_of (by decide +kernel), Or.inr (by decide +kernel),
      gantry_of (by decide +kernel) (by decide +kernel) ⟨by decide +kernel, by decide +kernel⟩⟩,
    ⟨issues_of (by decide +kernel), settled_of (by decide +kernel), by decide +kernel,
      gantry_of (by decide +kernel) (by decide +kernel) ⟨by decide +kernel, by decide +kernel⟩⟩, ?_, ?_,
    ⟨issues_of (by decide +kernel), by decide +kernel⟩,
    ⟨issues_of (by decide +kernel), by decide +kernel, by decide +kernel, by decide +kernel, ⟨by decide +kernel, by decide +kernel⟩⟩,
    ⟨by decide +kernel, free_of (by decide +kernel), ⟨Or.inl (by decide +kernel), by decide +kernel⟩⟩,
    ⟨issues_of (by decide +kernel), free_of (by decide +kernel), set_of (by decide +kernel), fun h =>
      absurd h.2.1 (by decide +kernel)⟩⟩
  · exact ⟨(W64.contexts.find 1).getD placedContext, by decide +kernel, issues_of (by decide +kernel),
      settled_of (by decide +kernel), by decide +kernel, by decide +kernel, by decide +kernel,
      gantry_of (by decide +kernel) (by decide +kernel) ⟨by decide +kernel, by decide +kernel⟩⟩
  · exact ⟨(W64.contexts.find 1).getD placedContext, by decide +kernel, issues_of (by decide +kernel),
      settled_of (by decide +kernel), by decide +kernel, by decide +kernel,
      gantry_of (by decide +kernel) (by decide +kernel) ⟨by decide +kernel, by decide +kernel⟩, by decide +kernel⟩

/-- An `adrain` in the row and format checks of `DrainReady`, to memory and to scratchpad, with a histogram. -/
theorem witness_Drains :
    (let g := withS accRegs G64
     let s := altered W64 (withS accRegs)
     DrainReady s g (crewOf W64) 120 true false 32 ∧ DrainReady s g (crewOf W64) 120 false false 32) ∧
    (let g := withS padRegs G64
     let s := altered W64 (withS padRegs)
     DrainReady s g (crewOf W64) 120 false true 32) :=
  ⟨⟨⟨by decide +kernel, ⟨by decide, settled_of (by decide +kernel)⟩, by decide +kernel, by decide +kernel, (by decide +kernel : (drainTo (withS accRegs G64) 120 false).toNat < 2 ^ 48),
      fun _ => ⟨by decide +kernel, Or.inr (by decide +kernel)⟩⟩,
    ⟨by decide +kernel, ⟨by decide, settled_of (by decide +kernel)⟩, by decide +kernel, by decide +kernel,
      (by decide +kernel : (drainTo (withS accRegs G64) 120 false).toNat < 2 ^ 48), fun h => by simp at h⟩⟩,
    ⟨by decide +kernel, ⟨by decide, settled_of (by decide +kernel)⟩, by decide +kernel, by decide +kernel, Or.inr (by decide +kernel),
      fun h => by simp at h⟩⟩

/-- The modified `adrain` at 0x2004, and a joint instruction that arrives alone at the latch of its convoy, with 64 and with 128 rows. -/
theorem witness_ModifiedDrainAndRendezvous :
    (let f : Gang → Gang := withS accRegs
     let n := (encode (.adrain 3 120 false false true false)).getD 0
     let s := (altered W64 f).write 0x2004 4 n
     let t := (s.fetch (coreOf s.gang) (f G64).ctx ((f G64).pc s.group + 4)).2
     s.Issues (f G64) ∧ s.fetch (coreOf s.gang) (f G64).ctx ((f G64).pc s.group + 4) = (.ok n, t) ∧
      decode n = .ok (.adrain 3 120 false false true false) ∧ t.Issues (f G64) ∧ t.gang = s.gang ∧ t.group = s.group ∧
      t.crews.find (f G64).crew = some (crewOf W64) ∧ DrainReady t (f G64) (crewOf W64) 120 true false 32) ∧
    (let f : Gang → Gang := fun g => { g with convoy := some 7 }
     let s := altered W64 f
     let g := f G64
     let w := s.slotWord g 7
     ∃ e, s.Issues g ∧ s.crews.find g.crew = some (crewOf W64) ∧ g.convoy = some e.defn ∧
      (crewOf W64).convoys.find? (fun x => x.defn == e.defn) = some e ∧ e.arrivals = [] ∧
      (∀ e' ∈ (crewOf W64).convoys, (∃ x ∈ e'.arrivals, x.gang = s.gang ∧ x.group = s.group) → e' = e) ∧ ¬HeldByOther s g 3 ∧
      ¬Unset s g 3 ∧ e.gangs = [0] ∧ jointFormats w = true ∧
      s.Settled g ((List.range 32).map (· + 96)) [126] ∧ g.width * e.gangs.length = 64 ∧
      s.gantryAccepts (coreOf s.gang) = true ∧ s.isPending s.gang g true 126 = false) := by
  refine ⟨⟨issues_of (by decide +kernel), pair_of (by decide +kernel), by decide +kernel, issues_of (by decide +kernel),
      by decide +kernel, by decide +kernel, by decide +kernel, by decide +kernel, ⟨by decide, settled_of (by decide +kernel)⟩,
      by decide +kernel, by decide +kernel, (by decide +kernel : (drainTo (withS accRegs G64) 120 false).toNat < 2 ^ 48),
      fun _ => ⟨by decide +kernel, Or.inr (by decide +kernel)⟩⟩, ?_⟩
  exact ⟨{ defn := 7, gangs := [0], arrivals := [], total := 0 }, issues_of (by decide +kernel), by decide +kernel, by decide +kernel,
    by decide +kernel, rfl, by decide +kernel, free_of (by decide +kernel), set_of (by decide +kernel), rfl, by decide +kernel,
    settled_of (by decide +kernel), by decide +kernel⟩

/-- The gantry's own work: rows and elements at the ends of the bank, commands on the root's core, and partial sums. -/
theorem witness_GantryEffects :
    (191 < 192 ∧ 127 < 128 ∧ 128 + 64 ≤ 192 ∧ 96 + 32 ≤ 128) ∧
    (∀ w ∈ [Work.azero 3, .rowPut 3 128 96 0x8000000000000001 [], .rowGet 3 96 128 96 1, .peerSend 3 0 3 192, .peerRecv 3 192 [] 0,
        .aload 3 true 0x1000 512 190 2, .adrain 3 true false true true 0x1000 256 190 2 0 0 0x11 0 none 0,
        .joint false 3 false 7 64 0 []],
      EngineDoes (commandState { commandOf .gantry 0 w with arrival := none })
        { commandOf .gantry 0 w with arrival := none } (crewOf W) id (fun _ => False)) ∧
    (let c := { commandOf .gantry 0 (.aload 3 false 0x400000000000 512 190 2) with arrival := none }
     EngineDoes (commandState c) c (crewOf W) id (fun a => 0x400000000000 ≤ a ∧ a < 0x400000000400)) ∧
    FiniteBits 0 0x3F800000 := by
  refine ⟨by decide, ?_, does_of rfl (by decide +kernel) fun a h => by omega,
    ⟨by decide, Or.inr (Or.inr (by decide +kernel))⟩⟩
  intro w hw
  simp only [List.mem_cons, List.not_mem_nil, or_false] at hw
  rcases hw with rfl | rfl | rfl | rfl | rfl | rfl | rfl | rfl <;> exact does_of rfl (by decide +kernel) fun a h => h.elim

/-! Charts: a descriptor at 0x8000 over a base address, its ring, pool and tree in memory. -/

/-- The descriptor: extents of 16, 16 and 8, elements of 4 bytes, background 7, pool header at 0x8040; the pool of two entries has one
block, at 0xE000. The tree leads element (0, 0, 0) to the tile at 0xD000; the entry of tile (1, 0, 0) is empty, that of tile (0, 1, 0)
malformed. -/
def withChart (b tail : Nat) (s : State) : State :=
  [(0x8000, b + 0x9000), (0x8008, 0x0002000800100010), (0x8010, 7), (0x8018, b + 0x8040), (0x8040, b + 0x8080), (0x8048, 2),
    (0x8050, tail * 2 ^ 32), (0x8080, b + 0xE000), (0x9000, b + 0xA001), (0xA000, b + 0xB001), (0xB000, b + 0xC001),
    (0xC000, b + 0xD001), (0xC040, 2)].foldl
    (fun (acc : State) (x : Nat × Nat) => acc.write (b + x.1) 8 x.2) s

def chart (b : Nat) : Chart :=
  { desc := b + 0x8000, root := b + 0x9000, ex := 16, ey := 16, ez := 8, size := 2, e := 4, background := 7, pool := b + 0x8040 }

/-- The gang that names the chart by k15, of which lane 15 alone is active, at element (v120, v121, v122) or (s120, s121, s122); s124:125
holds a block's address. -/
def chartGang (b : Nat) (x : Word) (g : Gang) : Gang :=
  { ((((withS [(120, x), (124, 0xE000), (125, BitVec.ofNat 32 (b / 2 ^ 32))] g).setP 1 [15] fun _ => true).setV 120 [15] fun _ => x).setK 15
    (BitVec.ofNat 128 (3 * 2 ^ 124 + b + 0x8000))) with trim := 1, ctx := if b = 0 then 1 else 0 }

/-- The test context's chart, of which the pool has `tail` blocks; and the root's, in host memory. -/
def chartState (tail : Nat) (x : Word) : State := withChart 0 tail (altered W (chartGang 0 x))
def hostBase : Nat := 0x400000000000
def rootChart (x : Word) : State := { withChart hostBase 1 (altered W (chartGang hostBase x)) with contexts := (W.setContext 0 placedContext).contexts }

/-- The state after the descriptor was read. -/
def chartRun (tail : Nat) (x : Word) (size : Option Nat) : Run :=
  ((Run.start (chartState tail x) noEpochs).descriptor 0 1 0x8000 size).2

theorem open_of {s : State} {g : Gang} {k : Nat} {size : Option Nat} {c : Chart} (h1 : handleBase (g.kreg k) % 64 = 0)
    (h2 : handleKind (g.kreg k) = 3)
    (h3 : ((Run.start s (s.issuing g).stamp).descriptor (coreOf s.gang) g.ctx (handleBase (g.kreg k)) size).1 = .ok c) :
    ChartOpen s g k size c ((Run.start s (s.issuing g).stamp).descriptor (coreOf s.gang) g.ctx (handleBase (g.kreg k)) size).2 :=
  ⟨h1, h2, pair_of h3⟩

theorem ok_of {α β γ : Type} {p : Except α β × γ} (h : p.1.toOption.isSome = true) : ∃ x r, p = (.ok x, r) := by
  obtain ⟨e, r⟩ := p
  cases e with
  | error _ => simp [Except.toOption] at h
  | ok x => exact ⟨x, r, rfl⟩

/-- Loads of an element of a tile, of an absent tile and out of range: the walk of each, and what is read. -/
theorem witness_ChartReads :
    (∀ x ∈ [(0 : Word)], (chartState 1 x).Issues (chartGang 0 x G) ∧
      ChartReady (chartState 1 x) (chartGang 0 x G) 120 (accessRegs 127 2) ∧
      ChartReady (chartState 1 x) (chartGang 0 x G) 120 [126, 127] ∧
      (∃ r, ChartOpen (chartState 1 x) (chartGang 0 x G) 15 (some 2) (chart 0) r) ∧
      (∃ r, ChartOpen (chartState 1 x) (chartGang 0 x G) 15 none (chart 0) r) ∧
      (chartGang 0 x G).active (chartState 1 x).group = [15] ∧ (chartState 1 x).isReproducible (chartGang 0 x G) = false ∧
      (chartGang 0 x G).countersFull ((chartState 1 x).countersFor (chartGang 0 x G) { bytes := [], chart := some 0x8000 }) = false ∧
      (∃ xs r1, Run.lanes (fun r l => r.loadElement 0 1 (chart 0) ((chartGang 0 x G).coords 120 l) false) [15]
        (chartRun 1 x (some 2)) = (.ok xs, r1)) ∧
      ∃ xs r1, Run.lanes (fun r l => r.queryElement 0 1 (chart 0) ((chartGang 0 x G).coords 120 l) false) [15]
        (chartRun 1 x none) = (.ok xs, r1)) ∧
    (∀ y ∈ [((0 : Word), Found.tile 0xD000), (8, .absent 0xC008 4), (16, .outside)], ∃ r1,
      (chartRun 1 y.1 (some 2)).walk 0 1 (chart 0) ((chartGang 0 y.1 G).coords 120 15) false = (.ok y.2, r1) ∧
        (chartRun 1 y.1 (some 2)).st.sideLogOf 0 = [] ∧ r1.st.sideLogOf 0 = [] ∧
        ∃ b r2, r1.readGlobal 0 1 9 0xD000 4 = (.ok b, r2) ∧ r2.st.sideLogOf 0 = []) := by
  refine ⟨?_, ?_⟩
  · intro x hx
    simp only [List.mem_cons, List.not_mem_nil, or_false] at hx
    subst hx
    exact ⟨issues_of (by decide +kernel), settled_of (by decide +kernel), settled_of (by decide +kernel),
        ⟨_, open_of (by decide +kernel) (by decide +kernel) (by decide +kernel)⟩,
        ⟨_, open_of (by decide +kernel) (by decide +kernel) (by decide +kernel)⟩, by decide +kernel, by decide +kernel, by decide +kernel,
        (ok_of (by decide +kernel)), (ok_of (by decide +kernel))⟩
  · intro y hy
    simp only [List.mem_cons, List.not_mem_nil, or_false] at hy
    rcases hy with rfl | rfl | rfl <;>
      exact ⟨_, pair_of (by decide +kernel), by decide +kernel, by decide +kernel,
        ⟨[0, 0, 0, 0], _, pair_of (by decide +kernel), by decide +kernel⟩⟩

theorem lanes_fine {st : State} {c : Chart} {outs : List (Nat × StoreLane)}
    (h : ((outs.all fun y => match y.2 with
        | .outside => true
        | .at (.mem m) _ => (st.badSector m c.e).isNone
        | .at _ _ => false
        | x => x.logs) &&
      outs.all fun y => outs.all fun z => match y.2, z.2 with
        | .at (.mem m) va, .at (.mem n) vb => va != vb || m == n
        | _, _ => true) = true) : LanesFine st c outs := by
  simp only [Bool.and_eq_true, List.all_eq_true] at h
  refine ⟨fun y hy => ?_, fun l k m n va hl hk => ?_⟩
  · have := h.1 y hy
    split at this <;> simp_all
  · have := h.2 _ hl _ hk
    simpa using this

theorem triple_of {α β γ : Type} {p : α × β × γ} {x : α} {y : β} (h : (p.1, p.2.1) = (x, y)) : p = (x, y, p.2.2) := by
  obtain ⟨a, b, c⟩ := p
  simp_all

/-- A logged store of the gang to one element of the chart, and a logged reduction of its tile's first bytes. -/
def storeLogged (x : Word) : SideEntry :=
  ⟨.chart 0x8000 x 0 0, 0x8000, 3, 4, 0, 1, some 14, 0, .chartAlloc, 0, false, some 0x8000, 0, 1, false, noEpochs, []⟩
def reduceLogged : SideEntry := ⟨.redAdd, 0xD000, 3, 4, 0, 1, some 14, 0, .pageFaultStore, 0, false, some 0xD000, 0, 1, false, noEpochs, []⟩
def logging (es : List SideEntry) (s : State) : State := s.setCore 0 { s.core 0 with sideLog := es }

/-- The chart's gang with lane 14 active too, at element (0, 0, 0), and with no lane active. -/
def twoLanes (x y : Word) (g : Gang) : Gang := (((chartGang 0 x g).setP 1 [14] fun _ => true).setV 120 [14] fun _ => 0).setV 121 [15] fun _ => y
def noLane (g : Gang) : Gang := (chartGang 0 8 g).setP 1 [15] fun _ => false

/-- The lanes of an `stc` of that gang, and those of them that walk. -/
def storing (s : State) (g : Gang) (r : Run) (l : Nat) : LaneAnswer :=
  r.storeElement s.gang g.ctx (s.isReproducible g) (chart 0) (g.coords 120 l) (s.sideLogOf s.gang) l s.isRetry

def walkersOf (s : State) (g : Gang) : List Nat :=
  (g.active s.group).filter fun l => !((g.active s.group).any fun i => decide (i < l) && g.coords 120 i == g.coords 120 l)

/-- The state after the descriptor was read, as the gang issues. -/
def opened (s : State) (g : Gang) : Run := ((Run.start s (s.issuing g).stamp).descriptor (coreOf s.gang) g.ctx 0x8000 (some 2)).2

/-- An `stc` with no lane, and with two: both stored, in two tiles and, at one walk, in one element; one out of range, one that finds the pool
short, one behind a logged store, one whose tile cannot be reached; and one that begins an allocation. -/
theorem witness_ChartStores :
    (let s := withChart 0 1 (altered W noLane)
     let g := noLane G
     s.Issues g ∧ ChartReady s g 120 (accessRegs 127 2) ∧ ChartOpen s g 15 (some 2) (chart 0) (opened s g) ∧
      g.alloc = none ∧ g.active s.group = [] ∧ (s.sideLogOf s.gang).length ≤ 128) ∧
    (∀ y ∈ [((8 : Word), (8 : Word), 0xF001, 1, ([] : List SideEntry), [(14, StoreLane.at (.mem 0xD000) 0xD000), (15, .at (.mem 0xF000) 0xF000)]),
        (0, 0, 0, 1, [], [(14, .at (.mem 0xD000) 0xD000)]), (16, 0, 0, 1, [], [(14, .at (.mem 0xD000) 0xD000), (15, .outside)]),
        (8, 0, 0, 0, [], [(14, .at (.mem 0xD000) 0xD000), (15, .short)]),
        (8, 0, 0, 1, [storeLogged 8], [(14, .at (.mem 0xD000) 0xD000), (15, .behind)]),
        (8, 8, 0x700000000001, 1, [], [(14, .at (.mem 0xD000) 0xD000), (15, .failed ⟨.pageFaultStore, 0x700000000000, 0, 1⟩ [])])],
      let s := logging y.2.2.2.2.1 ((withChart 0 y.2.2.2.1 (altered W (twoLanes y.1 y.2.1))).write 0xC048 8 y.2.2.1)
      let g := twoLanes y.1 y.2.1 G
      s.Issues g ∧ ChartReady s g 120 (accessRegs 127 2) ∧ ChartOpen s g 15 (some 2) (chart 0) (opened s g) ∧
        (g.alloc = none ∧ g.active s.group = [14, 15] ∧
          g.countersFull (s.countersFor g { bytes := [], chart := some 0x8000 }) = false ∧
          (s.sideLogOf s.gang).length + (loggedLanes g (laneOutcomes g [14, 15] 120 y.2.2.2.2.2)).length ≤ 128) ∧
        ∃ r1, Run.lanesTo (storing s g) (walkersOf s g) (opened s g) = (y.2.2.2.2.2, none, r1) ∧
          LanesFine r1.st (chart 0) (laneOutcomes g [14, 15] 120 y.2.2.2.2.2)) ∧
    (let s := withChart 0 1 (altered W (twoLanes 8 0))
     let g := twoLanes 8 0 G
     ∃ r1, s.Issues g ∧ ChartOpen s g 15 (some 2) (chart 0) (opened s g) ∧ walkersOf s g = [14, 15] ∧
      Run.lanesTo (storing s g) (walkersOf s g) (opened s g) =
        ([(14, .at (.mem 0xD000) 0xD000)], some (15, .begun ⟨15, 0xC008, 4, [0xE000]⟩), r1)) ∧
    (let s := withChart 0 1 (altered Repro (chartGang 0 8))
     let g := chartGang 0 8 ReproG
     s.Issues g ∧ ChartOpen s g 15 (some 2) (chart 0) (opened s g) ∧
      (g.active s.group = [15] ∧ g.countersFull (s.countersFor g { bytes := [], chart := some 0x8000 }) = false) ∧
      ∃ r1, Run.lanesTo (storing s g) (walkersOf s g) (opened s g) = ([], some (15, .trap .reproViolation 0x8000 none), r1)) ∧
    (let s := withChart 0 1 (altered Repro (chartGang 0 8))
     let g := chartGang 0 8 ReproG
     ∃ r, s.Issues g ∧ ChartOpen s g 15 none (chart 0) r ∧
      s.Settled g [] ([126, 127] ++ [120, 121, 122]) ∧ s.Settled g [] [124, 125] ∧
      r.st.isReproducible g = true ∧ r.st.group = s.group ∧ r.st.gang = s.gang) := by
  refine ⟨⟨issues_of ?_, settled_of ?_, open_of ?_ ?_ ?_, ?_⟩, ?_, ⟨_, issues_of ?_, open_of ?_ ?_ ?_, ?_, triple_of ?_⟩,
    ⟨issues_of ?_, open_of ?_ ?_ ?_, ?_, _, triple_of ?_⟩, ⟨_, issues_of ?_, open_of ?_ ?_ ?_, settled_of ?_, settled_of ?_, ?_⟩⟩
  all_goals first | decide +kernel | skip
  intro y hy
  simp only [List.mem_cons, List.not_mem_nil, or_false] at hy
  rcases hy with rfl | rfl | rfl | rfl | rfl | rfl <;>
    refine ⟨issues_of ?_, settled_of ?_, open_of ?_ ?_ ?_, ?_, _, triple_of ?_, lanes_fine ?_⟩ <;> decide +kernel

/-- An `ldc` that stands behind a logged reduction, and one whose element a logged store of the gang holds whole. -/
theorem witness_ChartBehindLog :
    (let s := logging [reduceLogged] (chartState 1 0)
     let g := chartGang 0 0 G
     s.Issues g ∧ ChartReady s g 120 (accessRegs 127 2) ∧ ChartOpen s g 15 (some 2) (chart 0) (opened s g) ∧
      ∃ r1, Run.lanes (fun r l => r.loadElement s.gang g.ctx (chart 0) (g.coords 120 l) s.isRetry) (g.active s.group) (opened s g) =
        (.error (15, .behind), r1)) ∧
    (let s := logging [{ reduceLogged with op := .store, data := 5 }] (chartState 1 0)
     ∃ r1, (opened s (chartGang 0 0 G)).walk 0 1 (chart 0) (0, 0, 0) false = (.ok (.tile 0xD000), r1) ∧
      r1.st.logReduces 0 4 [(0, 0xD000)] = false ∧
      ∀ i, i < 4 → r1.st.loggedElement 0 0x8000 (0, 0, 0) (some 0xD000) i = some (if i = 0 then 5 else 0)) := by
  refine ⟨⟨issues_of ?_, settled_of ?_, open_of ?_ ?_ ?_, _, pair_of ?_⟩, _, pair_of ?_, ?_, ?_⟩ <;> decide +kernel

/-- The swap of an allocation of one block, with the pool at `pool` and `tail` blocks in it, whose link holds `old`. -/
def swapRun (tail old : Nat) : Run := Run.start ((withChart 0 tail (altered W (chartGang 0 8))).write 0xC008 8 old) noEpochs

/-- A swap that is won, lost, and cannot be made; and after the last two a put-back that is made, that cannot be reached, and that meets a full
pool. -/
theorem witness_SwapSettles :
    ((swapRun 0 0).swap 0 1 ⟨15, 0xC008, 4, [0xE000]⟩).1 = .ok true ∧
    ∀ y ∈ [(0xF001, 0xC008, (.ok false : Except EngineFault Bool)),
        (0, 0x700000000000, .error (.hold ⟨.pageFaultStore, 0x700000000000, 0, 1⟩))],
      (∃ r1 r2, (swapRun 0 y.1).swap 0 1 ⟨15, y.2.1, 4, [0xE000]⟩ = (y.2.2, r1) ∧ Run.putBack 0 1 0x8040 [0xE000] r1 = (.ok (), r2)) ∧
      (∃ r1 r2, (swapRun 0 y.1).swap 0 1 ⟨15, y.2.1, 4, [0xE000]⟩ = (y.2.2, r1) ∧
        Run.putBack 0 1 0x700000000000 [0xE000] r1 = (.error (.hold ⟨.pageFaultLoad, 0x700000000000, 0, 1⟩, [0xE000]), r2)) ∧
      ∃ r1 r2, (swapRun 2 y.1).swap 0 1 ⟨15, y.2.1, 4, [0xE000]⟩ = (y.2.2, r1) ∧
        Run.putBack 0 1 0x8040 [0xE000] r1 = (.error (.stop .chartFormat 0x8040 none, [0xE000]), r2) := by
  refine ⟨by decide +kernel, fun y hy => ?_⟩
  simp only [List.mem_cons, List.not_mem_nil, or_false] at hy
  rcases hy with rfl | rfl <;>
    refine ⟨⟨_, _, pair_of ?_, pair_of ?_⟩, ⟨_, _, pair_of ?_, pair_of ?_⟩, _, _, pair_of ?_, pair_of ?_⟩ <;> decide +kernel

/-- An `stc` that has taken blocks for lane 15, or for lane 14 before lane 15 has walked. -/
def storeTaken (y : Allocation) (faults : List LaneFault) : ChartStore :=
  { id := 1, chart := chart 0, tiles := [], faults := faults, lost := none, taken := some y }
def takenGang (f : Gang → Gang) (y : Allocation) (faults : List LaneFault) (g : Gang) : Gang :=
  { f g with alloc := some (storeTaken y faults) }

/-- The lanes of an `stc` that goes on after a settled swap. -/
def goingOn (s : State) (g : Gang) (w : ChartStore) (r : Run) (l : Nat) : LaneAnswer :=
  match w.faults.find? (fun y => y.lane == l), w.tiles.find? (fun y => y.lane == l) with
  | some ⟨_, none, _⟩, _ => (.ok .behind, r)
  | some ⟨_, some f, owed⟩, _ => (.ok (.failed f owed), r)
  | none, some y => r.elementPlace s.gang g.ctx (chart 0) (s.sideLogOf s.gang) y.va
  | none, none => r.storeElement s.gang g.ctx (s.isReproducible g) (chart 0) (g.coords 120 l) (s.sideLogOf s.gang) l
      (s.isRetry || w.lost == some l)

/-- The run after a swap, that of its lane having been won (with the buffer's entry of the tile forgotten) or not, and the turn from there. -/
def settledRun (s : State) (g : Gang) (y : Allocation) (won : Bool) : Run :=
  let r := ((Run.start s (s.issuing g).stamp).settle (coreOf s.gang) g.ctx 0x8040 y).2
  if won then { r with st := r.st.clbForget (coreOf s.gang) g.ctx 0x8000 (tileOf (g.coords 120 y.lane)) } else r
def nextGang (s : State) (g : Gang) (w : ChartStore) (r : Run) : Gang :=
  { (s.issuing g).afterChart r (coreOf s.gang) with alloc := some w }
def nextTurn (s : State) (g : Gang) (w : ChartStore) (r : Run) : List (Nat × StoreLane) × Option (Nat × LaneEnd) × Run :=
  Run.lanesTo (goingOn (r.st.setGang s.gang (nextGang s g w r)) (nextGang s g w r) w) (walkersOf s g)
    (Run.start (r.st.setGang s.gang (nextGang s g w r)) (nextGang s g w r).stamp)

/-- Two lanes, of which the second has taken a block: the swap is won, lost and fails, the other lane storing, standing behind a logged entry
or having failed; the swap meets a full pool; and the first lane's swap is won and the second lane takes blocks. -/
theorem witness_StoreGoesOn :
    (∀ y ∈ [((0xC008 : Nat), (0 : Nat), ([] : List LaneFault), some (0xE000 : Nat),
          [(14, StoreLane.at (.mem 0xD000) 0xD000), (15, .at (.mem 0xE000) 0xE000)]),
        (0xC008, 0xF001, [⟨14, none, []⟩], none, [(14, .behind), (15, .at (.mem 0xF000) 0xF000)]),
        (0x700000000000, 0, [⟨14, some ⟨.grantFault, 5, 0, 1⟩, [0x3000]⟩], none,
          [(14, .failed ⟨.grantFault, 5, 0, 1⟩ [0x3000]), (15, .failed ⟨.pageFaultStore, 0x700000000000, 0, 1⟩ [])])],
      let a : Allocation := ⟨15, y.1, 4, [0xE000]⟩
      let s := (withChart 0 0 (altered W (takenGang (twoLanes 8 0) a y.2.2.1))).write 0xC008 8 y.2.1
      let g := takenGang (twoLanes 8 0) a y.2.2.1 G
      let x := storeTaken a y.2.2.1
      let w : ChartStore := { x with
        taken := none, lost := if y.1 = 0xC008 ∧ y.2.2.2.1 = none then some 15 else none
        tiles := y.2.2.2.1.toList.map fun t => { lane := 15, tile := (1, 0, 0), va := t + 0 }
        faults := y.2.2.1 ++ if y.1 = 0xC008 then [] else [⟨15, some ⟨.pageFaultStore, 0x700000000000, 0, 1⟩, []⟩] }
      let r := settledRun s g a y.2.2.2.1.isSome
      s.Issues g ∧ ChartReady s g 120 (accessRegs 127 2) ∧
        (((Run.start s (s.issuing g).stamp).settle 0 1 0x8040 a).1 =
          (if y.1 = 0xC008 then .ok y.2.2.2.1 else .error (.hold ⟨.pageFaultStore, 0x700000000000, 0, 1⟩, [])) ∧
        g.alloc = some x ∧ x.taken = some a ∧ r.st.gang = s.gang ∧ r.st.group = s.group ∧ g.active s.group = [14, 15] ∧
        (laneOutcomes g [14, 15] 120 y.2.2.2.2) = y.2.2.2.2 ∧ tileOf (g.coords 120 15) = (1, 0, 0) ∧
        ((r.st.setGang s.gang (nextGang s g w r)).sideLogOf s.gang).length + (loggedLanes g y.2.2.2.2).length ≤ 128) ∧
        ∃ r4, nextTurn s g w r = (y.2.2.2.2, none, r4) ∧ LanesFine r4.st (chart 0) y.2.2.2.2) ∧
    (let a : Allocation := ⟨15, 0xC008, 4, [0xE000]⟩
     let s := (withChart 0 2 (altered W (takenGang (chartGang 0 8) a []))).write 0xC008 8 0xF001
     let g := takenGang (chartGang 0 8) a [] G
     ∃ r, s.Issues g ∧ ChartReady s g 120 (accessRegs 127 2) ∧
      (Run.start s (s.issuing g).stamp).settle 0 1 0x8040 a = (.error (.stop .chartFormat 0x8040 none, [0xE000]), r) ∧
      (g.active s.group = [15] ∧ (r.st.sideLogOf s.gang).length ≤ 128)) ∧
    (let a : Allocation := ⟨14, 0xC000, 4, [0xD000]⟩
     let s := (withChart 0 1 (altered W (takenGang (twoLanes 8 0) a []))).write 0xC000 8 0
     let g := takenGang (twoLanes 8 0) a [] G
     let w : ChartStore := { storeTaken a [] with taken := none, tiles := [⟨14, (0, 0, 0), 0xD000⟩] }
     ((Run.start s (s.issuing g).stamp).settle 0 1 0x8040 a).1 = .ok (some 0xD000) ∧
      ∃ r4, nextTurn s g w (settledRun s g a true) =
        ([(14, .at (.mem 0xD000) 0xD000)], some (15, .begun ⟨15, 0xC008, 4, [0xE000]⟩), r4)) := by
  refine ⟨fun y hy => ?_, ⟨_, issues_of ?_, settled_of ?_, pair_of ?_, ?_⟩, ?_, _, triple_of ?_⟩
  · simp only [List.mem_cons, List.not_mem_nil, or_false] at hy
    rcases hy with rfl | rfl | rfl <;>
      refine ⟨issues_of ?_, settled_of ?_, ?_, _, triple_of ?_, lanes_fine ?_⟩ <;> decide +kernel
  all_goals decide +kernel

/-- An entry of the root's chart, read from memory, is well-formed. -/
theorem path_of {s : State} {desc root : Nat} {p : Coords} {n : Nat}
    (h : (decide (s.read desc 8 = root) && decide (root < 2 ^ 48) && decide (root % 4096 = 0) && (List.range n).all fun v =>
      let x := s.read (entryAt (nodeAt (fun a => s.read a 8) root p v) p v) 8
      decide (x < 2 ^ 48) && (decide (x = 0) || decide (x % 2 = 1) && decide (x / 2 % 2048 = 0))) = true) :
    PathIn s id desc root p n := by
  simp only [Bool.and_eq_true, List.all_eq_true, List.mem_range, decide_eq_true_eq, Bool.or_eq_true] at h
  refine ⟨⟨h.1.1.1, h.1.1.2, h.1.2⟩, fun v hv _ => ?_⟩
  have := h.2 v hv
  simp only [id] at *
  exact ⟨this.1, by omega, by omega⟩

theorem pool_of {s : State} {pool ring n head tail i : Nat}
    (h : (decide (pool % 64 = 0) && decide (ring % 8 = 0) && decide (ring < 2 ^ 48) && decide (s.read pool 8 = ring) &&
      decide (s.read (pool + 8) 4 = n) && decide (s.read (pool + 16) 4 = head) && decide (s.read (pool + 20) 4 = tail) &&
      decide (1 ≤ i ∧ i ≤ 24 ∧ n = 2 ^ i) && decide (s.read (pool + 12) 4 = 0) &&
      (List.range 40).all fun i => decide (s.byte (pool + 24 + i) = 0)) = true) : PoolIn s id pool ring n head tail := by
  simp only [Bool.and_eq_true, List.all_eq_true, List.mem_range, decide_eq_true_eq] at h
  obtain ⟨⟨⟨⟨⟨⟨⟨⟨⟨h1, h2⟩, h3⟩, h4⟩, h5⟩, h6⟩, h7⟩, h8⟩, h9⟩, h10⟩ := h
  exact ⟨⟨h1, h2, h3⟩, ⟨h4, h5, h6, h7⟩, ⟨i, h8⟩, ⟨h9, h10⟩⟩

/-- What lies in the chart of the root lies in host memory. -/
theorem links_host {s : State} {p : Coords} {a : Nat}
    (hn : ((List.range 4).all fun v => (decide (nodeAt (fun a => s.read a 8) (hostBase + 0x9000) p v = 0)) ||
      (decide (hostBase ≤ entryAt (nodeAt (fun a => s.read a 8) (hostBase + 0x9000) p v) p v) &&
        decide (entryAt (nodeAt (fun a => s.read a 8) (hostBase + 0x9000) p v) p v < hostBase + 0x10000))) = true)
    (h : linkBytes s id (hostBase + 0x8000) (hostBase + 0x9000) p 4 a) : 0x400000000000 ≤ a ∧ a < 0xB00000000000 := by
  simp only [List.all_eq_true, List.mem_range, Bool.or_eq_true, Bool.and_eq_true, hostBase] at *
  rcases h with h | ⟨v, hv, h0, h1, h2⟩
  · omega
  · rcases hn v hv with h3 | h3
    · exact absurd (of_decide_eq_true h3) h0
    · have h4 := of_decide_eq_true h3.1
      have h5 := of_decide_eq_true h3.2
      simp only [id] at h1 h2
      omega

/-- The walk of the root's chart to a tile and to an absent one, and with a malformed last entry; its pool; the freeing of the tile. -/
theorem witness_RootChart :
    (∀ p ∈ [((0, 0, 0) : Coords), (8, 0, 0)], PathIn (rootChart 0) id (hostBase + 0x8000) (hostBase + 0x9000) p 4 ∧
      Mapped (rootChart 0) 0 0 0 noEpochs false id (linkBytes (rootChart 0) id (hostBase + 0x8000) (hostBase + 0x9000) p 4)) ∧
    (PathIn (rootChart 0) id (hostBase + 0x8000) (hostBase + 0x9000) (0, 8, 0) 3 ∧
      (rootChart 0).read (entryAt (nodeAt (fun a => (rootChart 0).read a 8) (hostBase + 0x9000) (0, 8, 0) 3) (0, 8, 0) 3) 8 = 2) ∧
    (PoolIn (rootChart 0) id (hostBase + 0x8040) (hostBase + 0x8080) 2 0 1 ∧
      Mapped (rootChart 0) 0 0 0 noEpochs false id (fun a => poolBytes (hostBase + 0x8040) (hostBase + 0x8080) 2 a ∨
        (5 - 4 ≤ (1 + 2 ^ 32 - 0) % 2 ^ 32 ∧ ∃ i, i < 5 - 4 ∧
          (rootChart 0).read (id (hostBase + 0x8080 + 8 * ((0 + i) % 2))) 8 ≤ a ∧
          a < (rootChart 0).read (id (hostBase + 0x8080 + 8 * ((0 + i) % 2))) 8 + 4096))) ∧
    (∀ x ∈ [(0 : Word), 16], let s := rootChart x
     let g := chartGang hostBase x G
     let bytes := (List.range 64).map fun i => s.byte (id (hostBase + 0x8000 + i))
     s.Issues g ∧ s.Settled g [] ([126, 127] ++ [120, 121, 122]) ∧ s.Settled g [] [124, 125] ∧ handleKind (g.kreg 15) = 3 ∧
      handleBase (g.kreg 15) = hostBase + 0x8000 ∧ (Chart.of (hostBase + 0x8000) bytes).valid bytes = true ∧
      (g.spair 124).toNat % 4096 = 0 ∧ s.isReproducible g = false) := by
  refine ⟨?_, ⟨path_of (by decide +kernel), by decide +kernel⟩, ⟨pool_of (i := 1) (by decide +kernel), mapped_root rfl ?_⟩, ?_⟩
  · intro p hp
    simp only [List.mem_cons, List.not_mem_nil, or_false] at hp
    rcases hp with rfl | rfl <;> exact ⟨path_of (by decide +kernel), mapped_root rfl fun a h => links_host (by decide +kernel) h⟩
  · rintro a (h | ⟨_, i, hi, h1, h2⟩)
    · simp only [poolBytes, hostBase] at h
      omega
    · have hb : (rootChart 0).read (id (hostBase + 0x8080 + 8 * ((0 + 0) % 2))) 8 = 0x40000000E000 := by decide +kernel
      have : i = 0 := by omega
      subst this
      rw [hb] at h1 h2
      omega
  · intro x hx
    simp only [List.mem_cons, List.not_mem_nil, or_false] at hx
    rcases hx with rfl | rfl <;> exact ⟨issues_of (by decide +kernel), settled_of (by decide +kernel),
      settled_of (by decide +kernel), by decide +kernel⟩

/-- A bad handle of each sort, and the buffers of a chart to clear: before and while the accesses of an earlier time finish. -/
theorem witness_ChartHandles :
    (∀ k ∈ [BitVec.ofNat 128 (3 * 2 ^ 124 + 0x8020), BitVec.ofNat 128 (1 * 2 ^ 124 + 2 ^ 48 + 0x8000)],
      (altered W fun g => g.setK 15 k).Issues (G.setK 15 k) ∧
        ChartReady (altered W fun g => g.setK 15 k) (G.setK 15 k) 120 [126, 127] ∧
        ChartReady (altered W fun g => g.setK 15 k) (G.setK 15 k) 120 (accessRegs 126 3) ∧
        (altered W fun g => g.setK 15 k).Settled (G.setK 15 k) [] ([126, 127] ++ [120, 121, 122]) ∧
        (altered W fun g => g.setK 15 k).Settled (G.setK 15 k) [] [124, 125] ∧
        (altered W fun g => g.setK 15 k).Settled (G.setK 15 k) [] [120, 121, 122]) ∧
    handleBase (BitVec.ofNat 128 (3 * 2 ^ 124 + 0x8020)) % 64 ≠ 0 ∧
    handleBase (BitVec.ofNat 128 (1 * 2 ^ 124 + 2 ^ 48 + 0x8000)) % 64 = 0 ∧
    handleKind (BitVec.ofNat 128 (1 * 2 ^ 124 + 2 ^ 48 + 0x8000)) ≠ 3 ∧
    (∀ w ∈ [Wait.none, .cleared 0 5], let f : Gang → Gang := fun g => { chartGang 0 8 g with wait := w }
      (altered W f).Issues (f G) ∧ (altered W f).Settled (f G) [] [120, 121, 122] ∧ handleBase ((f G).kreg 15) % 64 = 0 ∧
        handleKind ((f G).kreg 15) = 3) := by
  refine ⟨?_, by decide +kernel, by decide +kernel, by decide +kernel, ?_⟩
  · intro k hk
    simp only [List.mem_cons, List.not_mem_nil, or_false] at hk
    rcases hk with rfl | rfl <;> refine ⟨issues_of ?_, settled_of ?_, settled_of ?_, settled_of ?_, settled_of ?_, settled_of ?_⟩ <;>
      decide +kernel
  · intro w hw
    simp only [List.mem_cons, List.not_mem_nil, or_false] at hw
    rcases hw with rfl | rfl <;> exact ⟨issues_of (by decide +kernel), settled_of (by decide +kernel), by decide +kernel, by decide +kernel⟩

/-! Lane refill. -/

/-- A refill launch of one-gang crews with threshold 8; the crew's manifest of ages 0 to 15. -/
def Rr : LaunchRecord := { R with control := 0x22 }
def manifest : Manifest := { first := 100, count := 16, stride := 2, next := 0, tidemark := 0, retired := [], drew := none }

/-- The state in which the crew has a manifest, if any, and the gang is changed. -/
def refillState (m : Option Manifest) (f : Gang → Gang) : State :=
  let s := altered (crewState Rr 1) f
  s.setCrew 0 { crewOf (crewState Rr 1) with manifest := m }

def Rg : Gang := gangOf (crewState Rr 1)

/-- The crew of that state. -/
def refillCrew (m : Option Manifest) : Crew := { crewOf (crewState Rr 1) with manifest := m }

/-- A manifest asked for where none is in use, where the same one or another is, and in refill mode; the tide below, at and above a
target. -/
theorem witness_ManifestAndTide :
    (let g := withS [(125, 100), (126, 16), (127, 2)] Rg
     (∀ m ∈ [none, some manifest, some { manifest with first := 101 }],
      (refillState m (withS [(125, 100), (126, 16), (127, 2)])).Issues g ∧
      (refillState m (withS [(125, 100), (126, 16), (127, 2)])).crews.find g.crew = some (refillCrew m) ∧
      (refillState m (withS [(125, 100), (126, 16), (127, 2)])).Settled g [] [125, 126, 127]) ∧ g.refill = none ∧
      (refillState none id).manifestFree (refillCrew none) = true ∧
      (refillState (some manifest) id).manifestFree (refillCrew (some manifest)) = false ∧
      manifest.first = (askedManifest g 125).first ∧ manifest.count = (askedManifest g 125).count ∧
      manifest.stride = (askedManifest g 125).stride ∧ (101 : Word) ≠ (askedManifest g 125).first) ∧
    ((refillState (some manifest) refills).Issues (refills Rg) ∧ (refills Rg).refill ≠ none) ∧
    (let m : Manifest := { manifest with tidemark := 5 }
     let s := refillState (some m) (withS [(127, 5)])
     let g := withS [(127, 5)] Rg
     let f : Gang → Gang := fun g => g.setV 127 (List.range 16) fun l => if l = 15 then 5 else 4
     s.Issues g ∧ s.Settled g [] [127] ∧ (refillCrew (some m)).tidePasses (g.sreg 127) = false ∧
      (refillCrew (some m)).tidePasses (withS [(127, 4)] Rg |>.sreg 127) = true ∧
      (refillState (some m) f).Issues (f Rg) ∧ (refillState (some m) f).Settled (f Rg) [127] [] ∧
      (∃ l ∈ (f Rg).active 0, (refillCrew (some m)).tidePasses ((f Rg).vreg 127 l) = false) ∧
      (∀ l ∈ Rg.active 0, (refillCrew (some m)).tidePasses (Rg.vreg 127 l) = true) ∧
      (refillState (some m) id).Settled Rg [126, 127] []) := by
  refine ⟨⟨?_, by decide +kernel⟩, ⟨issues_of (by decide +kernel), by decide +kernel⟩,
    ⟨issues_of (by decide +kernel), settled_of (by decide +kernel), by decide +kernel, by decide +kernel,
      issues_of (by decide +kernel), settled_of (by decide +kernel), by decide +kernel, by decide +kernel,
      settled_of (by decide +kernel)⟩⟩
  intro m hm
  simp only [List.mem_cons, List.not_mem_nil, or_false] at hm
  rcases hm with rfl | rfl | rfl <;>
    exact ⟨issues_of (by decide +kernel), by decide +kernel, settled_of (by decide +kernel)⟩

/-- A gang at its check after a step, with lanes in the given states and its slices finished. -/
def checking (step : RefillStep) (lanes : List LaneState) (g : Gang) : Gang :=
  { g with
    refill := some { step := step, lanes := lanes, saved := g.slices }
    slices := g.slices.map fun sl => { sl with status := .finished } }

def checkState (step : RefillStep) (lanes : List LaneState) : State := refillState (some manifest) (checking step lanes)

theorem at_check (step : RefillStep) (lanes : List LaneState) (h : (((checkState step lanes).gangs.find 0 == some (checking step lanes Rg)) &&
    ((checkState step lanes).crews.find 0 == some (refillCrew (some manifest))) &&
    ((checking step lanes Rg).slices.all fun sl => sl.status != .running) && (checking step lanes Rg).crew == 0 &&
    (checking step lanes Rg).stop.isNone && !(checkState step lanes).hasLogged 0 &&
    !(checkState step lanes).drawsLater 0 (checking step lanes Rg) &&
    ((checkState step lanes).contexts.find (checking step lanes Rg).ctx).any fun c => c.mayIssue) = true) :
    AtCheck (checkState step lanes) (checking step lanes Rg) (refillCrew (some manifest)) manifest
      { step := step, lanes := lanes, saved := Rg.slices } := by
  simp only [Bool.and_eq_true, beq_iff_eq, List.all_eq_true, bne_iff_ne, ne_eq, Option.any_eq_true, Option.isNone_iff_eq_none,
    Bool.not_eq_true'] at h
  obtain ⟨⟨⟨⟨⟨⟨⟨h1, h2⟩, h3⟩, h4⟩, h5⟩, h8⟩, h9⟩, c, h6, h7⟩ := h
  exact ⟨h1, by rw [h4]; exact h2, rfl, rfl, h3, ⟨h5, c, h6, h7⟩, fun _ => h8, h9⟩

/-- The entering `berth`, one in a body pass, and one in a launch without refill; the check that drains and the one with too few lanes
to refill; a draw to the window's edge. -/
theorem witness_LaneRefill :
    ((refillState (some manifest) id).Issues Rg ∧ (refillState (some manifest) id).crews.find Rg.crew = some (refillCrew (some manifest)) ∧
      Rg.refill = none ∧ (refillCrew (some manifest)).record.refill = true ∧
      (refillState (some manifest) id).manifestFree (refillCrew (some manifest)) = false ∧ Rg.parted = false) ∧
    (W.Issues G ∧ (crewOf W).record.refill = false) ∧
    ((refillState (some manifest) refills).Issues (refills Rg) ∧
      (refills Rg).refill = some { step := .bodyPass, lanes := List.replicate 16 .working, saved := [] }) ∧
    (∀ x ∈ [(RefillStep.check, List.replicate 16 LaneState.idle), (.bodyPass, List.replicate 7 .berthed ++ List.replicate 9 .working),
        (.check, List.replicate 16 .fresh), (.check, List.replicate 8 .berthed ++ List.replicate 8 .working),
        (.retire, List.replicate 8 .berthed ++ List.replicate 8 .working)],
      AtCheck (checkState x.1 x.2) (checking x.1 x.2 Rg) (refillCrew (some manifest)) manifest
        { step := x.1, lanes := x.2, saved := Rg.slices }) ∧ manifest.closed = false ∧
    (refillCrew (some manifest)).record.threshold = 8 ∧
    (let m : Manifest := { manifest with count := 2000, next := 1009 }
     m.next + (List.range 16).length ≤ m.count.toNat ∧ m.next + (List.range 16).length = m.tidemark + 1025) :=
  ⟨⟨issues_of (by decide +kernel), by decide +kernel⟩,
    ⟨issues_G, by decide +kernel⟩, ⟨issues_of (by decide +kernel), by decide +kernel⟩,
    ⟨fun x hx => by
      simp only [List.mem_cons, List.not_mem_nil, or_false] at hx
      rcases hx with rfl | rfl | rfl | rfl | rfl <;> exact at_check _ _ (by decide +kernel), by decide +kernel⟩⟩

theorem witness_TidemarkNeverFalls :
    let m : Manifest := { manifest with next := 9, tidemark := 3, retired := [5, 7] }
    (∀ a ∈ m.retired ++ [3, 4], m.tidemark ≤ a) ∧ m.retired.Pairwise (· < ·) ∧ (m.retire [3, 4]).tidemark = 6 := by decide

/-! Contexts. Hart 0 acts in VS-mode for context 1, the test context; x11 names a context and x12 an address or a number. Context 2 is a
child of it. (The root reads its blocks by machine address, and whether one lies in the grant region is the implementation's, log 24.) -/

/-- Context 1 as the tests hold it, and a context of depth 2 under it with four frames. -/
def one : Context := (W.contexts.find 1).getD placedContext
def two : Context := { Context.fresh 1 2 with frames := 4 }

/-- The test state with context 1 and 2, the root configured, and the words of a block at 0x6000. -/
def tree (first second : Context) (block : List Nat) : State :=
  let root := { (W.contexts.find 0).getD Context.rootFresh with configured := true }
  let s : State := { W with contexts := ((W.contexts.put 0 root).put 1 first).put 2 second }
  block.zipIdx.foldl (fun (acc : State) (x : Nat × Nat) => acc.write (0x6000 + 8 * x.2) 8 x.1) s

/-- The state in which hart 0 has the given mode and registers. -/
def hartState (s : State) (mode : Priv) (regs : List (Nat × DWord)) : State :=
  { s with hart := 0, harts := [(0, { Hart.fresh with mode := mode, x := regs.foldl (fun m x => m.set x.1 x.2) [] })] }

/-- The eight bytes of each word of a block. -/
def blockOf (words : List Nat) : List Byte := words.flatMap fun w => bytesOf 8 w

/-- The state for a context instruction on context 2 with a block, or with a number in x12. -/
def ctxState (first second : Context) (block : List Nat) : State :=
  hartState (tree first second block) .virtualSupervisor [(11, 2), (12, 0x6000)]
def numberState (first second : Context) (v : DWord) : State :=
  hartState (tree first second []) .virtualSupervisor [(11, 2), (12, v)]

theorem acts_of {s : State} (h : (decide (s.hart < 16) && (decide ((s.hartAt s.hart).fencing = none) &&
    (decide ((s.hartAt s.hart).mode ≠ .user) && decide ((s.hartAt s.hart).mode ≠ .virtualUser)))) = true) : s.HartActs := by
  simp only [Bool.and_eq_true, decide_eq_true_eq] at h
  exact ⟨h.1, h.2.1, h.2.2.1, h.2.2.2⟩

theorem names_of {s : State} {r : BitVec 5} {c : Context} (h : (decide (s.hart < 16) && (decide ((s.hartAt s.hart).fencing = none) &&
    (decide ((s.hartAt s.hart).mode ≠ .user) && decide ((s.hartAt s.hart).mode ≠ .virtualUser)))) = true)
    (h1 : s.contexts.find ((s.hartAt s.hart).reg r).toNat = some c)
    (h2 : s.below ((s.hartAt s.hart).reg r).toNat (s.callerOf s.hart) = true) : Names s r c := ⟨acts_of h, h1, h2⟩

theorem block_of {s : State} {r : BitVec 5} {n : Nat} {bytes : List Byte} (h : ((s.hartAt s.hart).reg r).toNat % 8 = 0)
    (h1 : s.blockBytes (s.callerOf s.hart) n ((s.hartAt s.hart).reg r).toNat = .ok bytes) : BlockAt s r n bytes := ⟨h, h1⟩

theorem quiet_of {s : State} (h : (decide (s.rung = []) && (decide (s.queueWrites = []) && (decide (s.slots = []) &&
    (decide (s.service = []) && (decide (s.joining = []) && s.cores.all fun e => decide (e.2.sideLog = [])))))) = true) : Quiet s := by
  simp only [Bool.and_eq_true, List.all_eq_true, decide_eq_true_eq] at h
  exact ⟨h.1, h.2.1, h.2.2.1, h.2.2.2.1, h.2.2.2.2.1, h.2.2.2.2.2⟩

/-- VU-mode and U-mode; a number no context has, and a context that is not below the caller. -/
theorem witness_ContextInstructionTraps :
    (∀ m ∈ [Priv.user, .virtualUser], (hartState W m []).hart < 16 ∧ ((hartState W m []).hartAt 0).fencing = none ∧
      ((hartState W m []).hartAt 0).mode = m) ∧
    (let s := hartState W .machine [(11, 4096)]
     s.HartActs ∧ s.contexts.find ((s.hartAt s.hart).reg 11).toNat = none) ∧
    (let s := hartState W .virtualSupervisor [(11, 1)]
     s.HartActs ∧ (s.contexts.find ((s.hartAt s.hart).reg 11).toNat).isSome = true ∧
      s.below ((s.hartAt s.hart).reg 11).toNat (s.callerOf s.hart) = false) := by
  refine ⟨?_, ⟨acts_of (by decide +kernel), by decide +kernel⟩, ⟨acts_of (by decide +kernel), by decide +kernel, by decide +kernel⟩⟩
  intro m hm
  simp only [List.mem_cons, List.not_mem_nil, or_false] at hm
  rcases hm with rfl | rfl <;> exact by decide +kernel

/-- Context 1 with the device scope alone; with counters of its own; and context 2 with one unit of time. -/
def oneScope : Context := { one with scope := 1 }
def oneCarved : Context := { one with budget := ⟨true, 5, 6, 0, 0, false⟩ }
def twoCarved : Context := { two with budget := ⟨true, 1, 0, 0, 0, false⟩ }

/-- A scope bit the parent has, one it lacks, and 4; all that context 1 holds given to its child, one unit given back, one unit more
than each has; and units from the root, whose counters context 1 draws on. -/
theorem witness_ScopeAndBudget :
    (∀ v ∈ [(1 : DWord), 2, 4], Names (numberState oneScope two v) 11 two ∧
      (numberState oneScope two v).contexts.find two.parent = some oneScope) ∧
    ((∀ i < 2, (1 : DWord).getLsbD i = true → oneScope.scope.getLsbD i = true) ∧
      (∃ i < 2, (2 : DWord).getLsbD i = true ∧ oneScope.scope.getLsbD i = false) ∧ 4 ≤ (4 : DWord).toNat) ∧
    (∀ x ∈ [[5, 6, 2, 0], [2 ^ 64 - 1, 0, 0, 0], [6, 0, 0, 0], [2 ^ 64 - 2, 0, 0, 0]],
      Names (ctxState oneCarved twoCarved x) 11 twoCarved ∧ BlockAt (ctxState oneCarved twoCarved x) 12 4 (blockOf x) ∧
      (ctxState oneCarved twoCarved x).budgetOwner twoCarved.parent = 1 ∧
      (ctxState oneCarved twoCarved x).contexts.find 1 = some oneCarved ∧
      fieldAt (blockOf x) 16 4 < 3 ∧ numberOf ((blockOf x).drop 20) = 0) ∧
    ((BitVec.ofNat 64 (fieldAt (blockOf [5, 6, 2, 0]) 0 8)).toInt = 5 ∧
      (BitVec.ofNat 64 (fieldAt (blockOf [2 ^ 64 - 1, 0, 0, 0]) 0 8)).toInt = -1 ∧
      (oneCarved.budget.time.toNat : Int) - (BitVec.ofNat 64 (fieldAt (blockOf [6, 0, 0, 0]) 0 8)).toInt < 0 ∧
      (twoCarved.budget.time.toNat : Int) + (BitVec.ofNat 64 (fieldAt (blockOf [2 ^ 64 - 2, 0, 0, 0]) 0 8)).toInt < 0) ∧
    (∃ root, Names (ctxState one two [2 ^ 63 - 1, 0, 1, 0]) 11 two ∧ BlockAt (ctxState one two [2 ^ 63 - 1, 0, 1, 0]) 12 4 (blockOf [2 ^ 63 - 1, 0, 1, 0]) ∧
      (ctxState one two [2 ^ 63 - 1, 0, 1, 0]).budgetOwner two.parent = 0 ∧
      (ctxState one two [2 ^ 63 - 1, 0, 1, 0]).contexts.find 0 = some root) := by
  refine ⟨?_, by decide +kernel, ?_, by decide +kernel,
    ⟨{ (W.contexts.find 0).getD Context.rootFresh with configured := true },
      names_of (by decide +kernel) (by decide +kernel) (by decide +kernel), block_of (by decide +kernel) (by decide +kernel),
      by decide +kernel, by decide +kernel⟩⟩
  · intro x hx
    simp only [List.mem_cons, List.not_mem_nil, or_false] at hx
    rcases hx with rfl | rfl | rfl <;>
      exact ⟨names_of (by decide +kernel) (by decide +kernel) (by decide +kernel), by decide +kernel⟩
  · intro x hx
    simp only [List.mem_cons, List.not_mem_nil, or_false] at hx
    rcases hx with rfl | rfl | rfl | rfl <;>
    exact ⟨names_of (by decide +kernel) (by decide +kernel) (by decide +kernel), block_of (by decide +kernel) (by decide +kernel),
      by decide +kernel⟩

/-- A range of host memory is the root's to name (16 R317, R323). -/
theorem host_range {a n : Nat} (h : 0x400000000000 ≤ a) (h1 : a + n ≤ 0xB00000000000) (hn : 0 < n) : machineRange a n = true := by
  have hb := region_top.1
  have h2 : backed a = true := by
    simp only [backed, Bool.or_eq_true, Bool.and_eq_true, decide_eq_true_eq]
    omega
  have h3 : backed (a + n - 1) = true := by
    simp only [backed, Bool.or_eq_true, Bool.and_eq_true, decide_eq_true_eq]
    omega
  unfold machineRange backedRange
  generalize Config.grantRegionBase + Config.grantRegionSize = c at hb ⊢
  have h4 : decide (c ≤ a) = true := decide_eq_true (by omega)
  rw [h2, h3, h4, decide_eq_false (by omega : ¬a < 0x10000000000), decide_eq_false (by omega : ¬a + n - 1 < 0x10000000000)]
  simp

/-- A creation block: root node at 0x1000, 4,096-byte pages, one frame, no queue, no ring. -/
def creation : List Nat := [0x1000, 12, 0, 1, 0, 0, 0, 0]

/-- A child of a configured device of depth 1, and the same of depth 4; the root's block of no queue and a ring of two entries. -/
theorem witness_CreateContextResult :
    (∀ depth ∈ [1, 4], ∃ root : Context,
      let s := hartState (tree { one with depth := depth, cold := true } two creation) .virtualSupervisor [(11, 1), (12, 0x6000)]
      s.HartActs ∧ ((s.hartAt s.hart).reg 11) ≠ 0xFFFFFFFFFFFFFFFF ∧
      s.contexts.find ((s.hartAt s.hart).reg 11).toNat = some { one with depth := depth, cold := true } ∧
      ((s.hartAt s.hart).reg 11).toNat = s.callerOf s.hart ∧ BlockAt s 12 8 (blockOf creation) ∧
      s.contexts.find 0 = some root ∧ s.going 1 = false ∧ creationValid (blockOf creation) = true ∧ root.configured = true ∧
      s.contexts.find 3 = none ∧ (∀ m < 3, (s.contexts.find m).isSome = true) ∧
      s.regionUsed + 8 * fieldAt (blockOf creation) 0x18 4 + 0x10000 ≤ Config.grantRegionSize) ∧
    (let s := hartState (W.write 0x6000 8 0) .virtualSupervisor [(11, 1), (12, 0x6000)]
     s.HartActs ∧ s.contexts.find 0 = some ((W.contexts.find 0).getD Context.rootFresh) ∧
      ((W.contexts.find 0).getD Context.rootFresh).configured = false) ∧
    (let b := blockOf [0, 0, 0, 0, 0, 0x400000010000, 2, 0]
     fieldAt b 0 8 = 0 ∧ numberOf ((b.drop 8).take 16) = 0 ∧ fieldAt b 0x18 4 = 0 ∧ fieldAt b 0x30 4 ≠ 0 ∧
      numberOf (b.drop 0x34) = 0 ∧ structuresValid (fieldAt b 0x1C 4) (fieldAt b 0x20 8) (fieldAt b 0x28 8) (fieldAt b 0x30 4) = true ∧
      machineRange (fieldAt b 0x20 8) (64 * fieldAt b 0x1C 4) = true ∧
      machineRange (fieldAt b 0x28 8) (64 + 32 * fieldAt b 0x30 4) = true) ∧
    (∀ m ∈ [Priv.machine, .hypervisor], (hartState W m [(11, 0xFFFFFFFFFFFFFFFF)]).HartActs ∧
      ((hartState W m [(11, 0xFFFFFFFFFFFFFFFF)]).hartAt 0).mode = m) := by
  refine ⟨?_, ⟨acts_of (by decide +kernel), by decide +kernel, by decide +kernel⟩,
    ⟨?_, ?_, ?_, ?_, ?_, ?_, ?_, host_range (by decide +kernel) (by decide +kernel) (by decide +kernel)⟩, ?_⟩
  rotate_left
  iterate 7 decide +kernel
  rotate_right
  · intro x hx
    simp only [List.mem_cons, List.not_mem_nil, or_false] at hx
    rcases hx with rfl | rfl <;>
    exact ⟨{ (W.contexts.find 0).getD Context.rootFresh with configured := true }, acts_of (by decide +kernel), by decide +kernel,
      by decide +kernel, by decide +kernel, block_of (by decide +kernel) (by decide +kernel), by decide +kernel, by decide +kernel,
      by decide +kernel, by decide +kernel, by decide +kernel, by decide +kernel,
      Nat.le_trans (m := 0x200000) (by decide +kernel) region_top.2⟩
  · intro m hm
    simp only [List.mem_cons, List.not_mem_nil, or_false] at hm
    rcases hm with rfl | rfl <;> exact ⟨acts_of (by decide +kernel), by decide +kernel⟩

/-- A cold context 2 asks for no room in the grant region; context 1 with a port and a namespace. -/
def twoCold : Context := { two with cold := true, grants := [(2, 0x11)] }
def oneRich : Context := { one with ports := [7], namespaces := [(3, 9)], gpCores := [0, 15] }

def grants : List (List Nat) := [[0x0000000300070000, 0, 0, 0], [0x0000000300070000, 0x200000, 0, 0], [0x0000000000000001, 1, 0, 0],
  [0x0000800100000002, 0, 0, 0], [0x0000000700000003, 0, 0, 0], [0x0000000300000004, 9, 0, 0], [5, 0x600000, 0, 0]]

/-- Grants to a cold context 2: its last frame, which a block of two granted frames beside it does not hold; a frame that context 1 lacks; a
core; general-purpose cores; the last port, a namespace and a doorbell page. -/
theorem witness_GrantResult :
    (∀ x ∈ grants, let s := ctxState oneRich twoCold x
      Names s 11 twoCold ∧ s.contexts.find twoCold.parent = some oneRich ∧ twoCold.parent ≠ ((s.hartAt s.hart).reg 11).toNat ∧
      BlockAt s 12 4 (blockOf x) ∧ s.revocationUnderWay ((s.hartAt s.hart).reg 11).toNat twoCold = false ∧ Quiet s) ∧
    (grantBlock 0 0 7 3 0 (blockOf (grants.getD 0 [])) ∧ 3 + 2 ^ 0 ≤ twoCold.frames ∧ 0 / 0x200000 + 0 < oneRich.frames ∧
      (oneRich.grants.get 0).getLsbD 0 = true ∧ (∀ k < 3, (7 : Nat).testBit k = true → (oneRich.grants.get 0).getLsbD (k + 1) = true) ∧
      (ctxState oneRich twoCold []).machineOf 1 0 = some 0 ∧ (ctxState oneRich twoCold []).scrubbing 0 = false) ∧
    (grantBlock 0 0 7 3 0x200000 (blockOf (grants.getD 1 [])) ∧ oneRich.frames ≤ 0x200000 / 0x200000) ∧
    (grantBlock 1 0 0 0 1 (blockOf (grants.getD 2 [])) ∧ 0 + 1 ≤ oneRich.cores.length ∧
      (∀ k ∈ (oneRich.cores.drop 0).take 1, k ∉ twoCold.cores) ∧ twoCold.cold = true) ∧
    (grantBlock 2 0 0 0x8001 0 (blockOf (grants.getD 3 [])) ∧ ∀ k < 16, (0x8001 : Nat).testBit k = true → k ∈ oneRich.gpCores) ∧
    (grantBlock 3 0 0 7 0 (blockOf (grants.getD 4 [])) ∧ 7 ∈ oneRich.ports ∧ twoCold.depth ≠ 1) ∧
    (grantBlock 4 0 0 3 9 (blockOf (grants.getD 5 [])) ∧ (ctxState oneRich twoCold []).holdsNamespace 1 (3, 9) = true) ∧
    (grantBlock 5 0 0 0 0x600000 (blockOf (grants.getD 6 [])) ∧ 0x600000 / 0x200000 < twoCold.frames ∧
      (twoCold.grants.get 3).getLsbD 0 = false ∧ twoCold.doorbell = none) := by
  refine ⟨?_, ?_, ?_, ?_, ?_, ?_, ?_, ?_⟩
  rotate_left
  iterate 7
    · unfold grantBlock
      decide +kernel
  intro x hx
  simp only [grants, List.mem_cons, List.not_mem_nil, or_false] at hx
  rcases hx with rfl | rfl | rfl | rfl | rfl | rfl | rfl <;>
  exact ⟨names_of (by decide +kernel) (by decide +kernel) (by decide +kernel), by decide +kernel, by decide +kernel,
    block_of (by decide +kernel) (by decide +kernel), by decide +kernel, quiet_of (by decide +kernel)⟩

/-- Nothing waits below the fault rings (the test contexts have none). -/
theorem noRing_of {s : State} (h : (s.contexts.all fun e => e.2.ringEntries == 0) = true) : NoRing s := by
  simpa [NoRing, List.all_eq_true] using h

/-- Context 2 with a frame granted, in a block of two; running with all that it can hold, under a parent with a namespace; and under each
revocation, halted. -/
def twoG : Context := { two with grants := [(2, 0x10007), (3, 0x210007)] }
def oneN : Context := { one with namespaces := [(3, 5)] }
def twoFull : Context :=
  { two with state := .running, cores := one.cores, gpCores := [15], ports := [7], namespaces := [(3, 9)], doorbell := some 0x600000 }
def revocationOf (kind serial : Nat) : Revocation where
  kind := kind
  size := 0
  a := if kind = 3 then 7 else 3
  b := if kind = 4 then 9 else 0
  actor := 1
  scrub := [0x200000]
  cores := [0]
  serial := serial
def twoUnder (kind serial : Nat) : Context :=
  { twoFull with state := if kind = 0 then .created else .halted, revocation := some (revocationOf kind serial) }

/-- The state in which an event concerns context 2. -/
def eventState (s : State) : State := { s with subject := { Subject.none with who := 2 } }

/-- The blocks of the revocations: a frame, a core, general-purpose cores, the port, the namespace, the doorbell, all of it, its memory to a
drive. -/
def revokes : List (List Nat) := [[0x0000000300000000, 0, 0, 0], [1, 1, 0, 0], [0x0000800000000002, 0, 0, 0], [0x0000000700000003, 0, 0, 0],
  [0x0000000300000004, 9, 0, 0], [5, 0, 0, 0], [7, 0, 0, 0], [0x0000000300000006, 5, 0, 0]]

theorem absent_of {α : Type} {t : Table α} {n m : Nat} (h : (t.all fun e => decide (e.1 < n)) = true) (hm : n ≤ m) : t.find m = none := by
  induction t with
  | nil => rfl
  | cons x rest ih =>
    simp only [List.all_cons, Bool.and_eq_true, decide_eq_true_eq] at h
    rw [Table.find, if_neg (by omega), ih h.2]

/-- Each revocation of a context that holds what it names, and of one that does not; the page-out of one that is not halted, one that is, and
one that has an image, on a namespace the parent holds, large enough or not as the implementation has it. -/
theorem witness_RevokeResult :
    (∀ c ∈ [two, twoFull, { twoG with state := .halted }], ∀ x ∈ revokes, let s := ctxState oneN c x
      Names s 11 c ∧ s.contexts.find c.parent = some oneN ∧ BlockAt s 12 4 (blockOf x) ∧ Quiet s ∧
      s.revocationUnderWay 2 c = false ∧ s.going 2 = false) ∧
    (grantBlock 0 0 0 3 0 (blockOf (revokes.getD 0 [])) ∧ 3 + 2 ^ 0 ≤ two.frames ∧ two.grantedIn 3 0 = [] ∧
      twoG.grantedIn 3 0 ≠ []) ∧
    (grantBlock 1 0 0 0 1 (blockOf (revokes.getD 1 [])) ∧ 0 + 1 ≤ oneN.cores.length ∧
      (∃ k ∈ (oneN.cores.drop 0).take 1, k ∈ twoFull.cores) ∧ ∀ k ∈ (oneN.cores.drop 0).take 1, k ∉ two.cores) ∧
    (∀ k ∈ [(2, 0x8000, 0), (3, 7, 0), (4, 3, 9)], grantBlock k.1 0 0 k.2.1 k.2.2 (blockOf (revokes.getD k.1 [])) ∧
      ResourceBlock.movedValid { kind := k.1, size := 0, perm := 0, a := k.2.1, b := k.2.2 } = true ∧
      twoFull.heldOf { kind := k.1, size := 0, perm := 0, a := k.2.1, b := k.2.2 } ≠ [] ∧
      two.heldOf { kind := k.1, size := 0, perm := 0, a := k.2.1, b := k.2.2 } = []) ∧
    (grantBlock 5 0 0 0 0 (blockOf (revokes.getD 5 [])) ∧ twoFull.doorbell ≠ none ∧ two.doorbell = none) ∧
    (grantBlock 7 0 0 0 0 (blockOf (revokes.getD 6 [])) ∧ twoFull.halt = none ∧ twoFull.revocation = none) ∧
    (grantBlock 6 0 0 3 5 (blockOf (revokes.getD 7 [])) ∧ two.state ≠ .halted ∧
      (let s := ctxState oneN { twoG with state := .halted } []
       s.subtree 2 = [2] ∧ s.holdsNamespace 1 (3, 5) = true ∧ twoG.hasImage = false ∧ { twoG with cold := true }.hasImage = true) ∧
      (let s := ctxState one { twoG with state := .halted } []
       s.holdsNamespace 1 (3, 5) = false)) ∧
    (∀ m, (ctxState oneN twoFull []).below 2 m = true → (ctxState oneN twoFull []).below m 2 = false) := by
  refine ⟨?_, ?_, ?_, ?_, ?_, ?_, ?_, fun m _ => ?_⟩
  rotate_left
  iterate 6
    · unfold grantBlock
      decide +kernel
  rotate_right
  · intro c hc x hx
    simp only [revokes, List.mem_cons, List.not_mem_nil, or_false] at hc hx
    rcases hc with rfl | rfl | rfl <;> rcases hx with rfl | rfl | rfl | rfl | rfl | rfl | rfl | rfl <;>
      exact ⟨names_of (by decide +kernel) (by decide +kernel) (by decide +kernel), by decide +kernel,
        block_of (by decide +kernel) (by decide +kernel), quiet_of (by decide +kernel), by decide +kernel, by decide +kernel⟩
  · by_cases hm : m < 3
    · have h : (List.range 3).all (fun m => !(ctxState oneN twoFull []).below m 2) = true := by decide +kernel
      simpa using List.all_eq_true.mp h m (List.mem_range.mpr hm)
    · have h : ((ctxState oneN twoFull []).contexts.all fun e => decide (e.1 < 3)) = true := by decide +kernel
      have h2 : (ctxState oneN twoFull []).contexts.find m = none := by
        exact absent_of h (by omega)
      simp [State.below, State.belowFuel, h2]

theorem mem_of_find {α : Type} {t : Table α} {n : Nat} {x : α} (h : t.find n = some x) : (n, x) ∈ t := by
  induction t with
  | nil => simp [Table.find] at h
  | cons y rest ih =>
    simp only [Table.find] at h
    split at h
    · rename_i hn
      simp only [Option.some.injEq] at h
      exact List.mem_cons.mpr (Or.inl (by rw [← hn, ← h]))
    · exact List.mem_cons_of_mem _ (ih h)

/-- No context outside the subtree is the child of one in it. -/
theorem tree_of {s : State} {n : Nat}
    (h : (s.contexts.all fun e => !(s.subtree n).contains e.2.parent || (s.subtree n).contains e.1) = true) (m : Nat) (y : Context)
    (hm : s.contexts.find m = some y) (hy : y.parent ∈ s.subtree n) : m ∈ s.subtree n := by
  have := List.all_eq_true.mp h _ (mem_of_find hm)
  simp only [Bool.or_eq_true, Bool.not_eq_true', List.contains_eq_mem, decide_eq_true_eq, decide_eq_false_iff_not] at this
  exact this.resolve_left fun x => x hy

/-- The state in which a revocation of context 2 ends; the actor, context 1, draws on the root's counters or on its own. -/
def revoked (c : Context) (kind : Nat) : State := eventState { M with contexts := (M.contexts.put 1 c).put 2 (twoUnder kind 0) }

/-- The ends of the revocations of each kind, and one that has an earlier load to wait for. -/
theorem witness_RevocationEndResult :
    (let t := nextOf (exec (.ld 124 1 5 4 0) M)
     let u := eventState { t with contexts := t.contexts.put 2 (twoUnder 0 17) }
     u.contexts.find u.subject.who = some (twoUnder 0 17) ∧ u.landedBelow 17 = false) ∧
    (∀ c ∈ [one, oneCarved], ∀ kind ∈ [0, 1, 2, 3, 4, 5, 6, 7], let s := revoked c kind
     ∃ r p, s.contexts.find s.subject.who = some (twoUnder kind 0) ∧ (twoUnder kind 0).revocation = some r ∧ s.landedBelow 0 = true ∧
      Quiet s ∧ NoRing s ∧ (kind ≠ 0 → s.haltsOver s.subject.who = true) ∧ s.contexts.find r.actor = some p ∧
      r.actor ∉ s.subtree s.subject.who ∧
      ∀ m y, s.contexts.find m = some y → y.parent ∈ s.subtree s.subject.who → m ∈ s.subtree s.subject.who) ∧
    ((revoked one 7).budgetOwner 1 = 0 ∧ (revoked oneCarved 7).budgetOwner 1 = 1 ∧
      (revoked oneCarved 7).contexts.find 1 = some oneCarved) := by
  refine ⟨by decide +kernel, ?_, by decide +kernel⟩
  intro c hc k hk
  simp only [List.mem_cons, List.not_mem_nil, or_false] at hc hk
  rcases hc with rfl | rfl <;> rcases hk with rfl | rfl | rfl | rfl | rfl | rfl | rfl | rfl <;>
    exact ⟨_, _, by decide +kernel, rfl, by decide +kernel, quiet_of (by decide +kernel), noRing_of (by decide +kernel),
      by decide +kernel, rfl, by decide +kernel, tree_of (by decide +kernel)⟩

/-- A halt in its soft step. -/
def softHalt : Halt := { forced := false, cause := .none, deadline := 50, records := [], resume := false, inherited := false, root := 2 }

/-- Context 2 in each state, for each mode of `ctx.halt`. -/
theorem witness_GoAndHaltResult :
    (∀ c ∈ [two, { two with state := .running }, { two with state := .halting, halt := some softHalt },
        { two with state := .halting, halt := some { softHalt with forced := true } }, { two with state := .halted },
        { two with state := .revoking }],
      ∀ v ∈ [(0 : DWord), 1, 2, 3], let s := numberState one c v
      Names s 11 c ∧ Quiet s ∧ s.going 2 = false ∧ c.cold = false ∧ c.revocation = none ∧
        s.upward (Context.revokes fun k => k == 1 || k == 6) 2 = false ∧ (s.hartAt s.hart).reg 12 = v) := by
  intro c hc v hv
  simp only [List.mem_cons, List.not_mem_nil, or_false] at hc hv
  rcases hc with rfl | rfl | rfl | rfl | rfl | rfl <;> rcases hv with rfl | rfl | rfl | rfl <;>
    exact ⟨names_of (by decide +kernel) (by decide +kernel) (by decide +kernel), quiet_of (by decide +kernel), by decide +kernel⟩

/-- The work of context 2 saved as one core with one crew of one gang, whose scratchpad holds one byte, with a bank and a command; and the
same core as often as is asked. -/
def savedCore (bank : Option Bank) : SavedCore where
  logical := 0
  records := []
  crews := [(0, { crewOf W with ctx := 2, gangs := [0] }, [(5, 7)])]
  gangs := [(0, { G with ctx := 2, crew := 0 })]
  sideLog := []
  bank := bank
def savedOf (bank : Option Bank) (n : Nat) : Saved where
  cause := .none
  forced := true
  haltTime := 0
  records := []
  cores := List.replicate n (savedCore bank)
  commands := [{ commandOf .crane 2 (.copy false false 0x5000 0x6000 64) with gangs := [0] }]
def usedBank : Bank := { acc := [(0, 1)], holds := [], latches := [], offers := [] }

/-- The state for `ctx.go` of context 2 halted with saved work, on the cores of context 1. -/
def goState (v : Option Saved) : State := numberState one { two with state := .halted, cores := one.cores, saved := v } 0

/-- A halted child without saved work; with too many cores; with a crew that cannot stand where the core is disabled, or where every place
is taken; with a bank in use where the gantry is disabled; and with a crew that is loaded. -/
theorem witness_RestoreResult :
    (∀ v ∈ [none, some (savedOf none 1), some (savedOf (some usedBank) 1), some (savedOf none (one.cores.length + 1))], let s := goState v
      let child : Context := { two with state := .halted, cores := one.cores, saved := v }
      Names s 11 child ∧ Quiet s ∧ s.going 2 = false ∧ child.cold = false ∧ child.revocation = none ∧
        s.upward (Context.revokes fun k => k == 1 || k == 6) 2 = false ∧
        ∀ e ∈ s.contexts, s.below e.1 2 = true → e.2.resumeWithParent = false) ∧
    one.cores.length < (savedOf none (one.cores.length + 1)).cores.length ∧
    one.cores[0]? = some 0 ∧
    (let s : State := { goState (some (savedOf none 1)) with disabledCores := [0] }
     Names s 11 { two with state := .halted, cores := one.cores, saved := some (savedOf none 1) } ∧ Quiet s ∧
      ¬CoreTakes s 0 ((savedCore none).crews.map fun e => e.2.1)) ∧
    (let s : State := { goState (some (savedOf none 1)) with gangs := (List.range 128).map fun k => (k, G) }
     Names s 11 { two with state := .halted, cores := one.cores, saved := some (savedOf none 1) } ∧ Quiet s ∧
      ∀ r ∈ s.rooms 0 false, 8 ≤ r.taken.length) ∧
    (let s0 := goState (some (savedOf (some usedBank) 1))
     let s := s0.setCore 0 { s0.core 0 with gantryDisabled := true }
     Names s 11 { two with state := .halted, cores := one.cores, saved := some (savedOf (some usedBank) 1) } ∧ Quiet s ∧
      (s.core 0).gantryDisabled = true ∧ BankInUse usedBank) ∧
    (let s := goState (some (savedOf (some usedBank) 1))
     let crew : Crew := { crewOf W with ctx := 2, gangs := [0] }
     let g : Gang := { G with ctx := 2, crew := 0 }
     (s.core 0).gantryDisabled = false ∧ two.launches = [] ∧ g.held = none ∧ g.chain = none ∧ CoreTakes s 0 [crew] ∧ FreeSlot s 0 1 ∧
      crew.record.granules ≤ (s.freeGranules 0).length ∧ (∃ r, pickRoom (g.width * g.nregs * 4) (s.rooms 0 false) = some r) ∧
      Cells.wf ([(5, 7)] : Cells 8) = true ∧ ∀ y ∈ ([(5, 7)] : Cells 8), y.1 < 4096 * crew.record.granules) := by
  refine ⟨?_, by decide +kernel, by decide +kernel,
    ⟨names_of (by decide +kernel) (by decide +kernel) (by decide +kernel), quiet_of (by decide +kernel),
      fun h => h.enabled (by decide +kernel)⟩,
    ⟨names_of (by decide +kernel) (by decide +kernel) (by decide +kernel), quiet_of (by decide +kernel), by decide +kernel⟩,
    ⟨names_of (by decide +kernel) (by decide +kernel) (by decide +kernel), quiet_of (by decide +kernel), by decide +kernel,
      Or.inl (by decide)⟩,
    ⟨by decide +kernel, by decide +kernel, by decide +kernel, by decide +kernel,
      ⟨?_, ?_, ?_, ?_, ?_⟩,
      ⟨by decide, by decide +kernel, by decide +kernel⟩, by decide +kernel, Option.isSome_iff_exists.mp (by decide +kernel),
      by decide +kernel, by decide +kernel⟩⟩
  rotate_left
  iterate 5 decide +kernel
  intro v hv
  simp only [List.mem_cons, List.not_mem_nil, or_false] at hv
  rcases hv with rfl | rfl | rfl | rfl <;>
    exact ⟨names_of (by decide +kernel) (by decide +kernel) (by decide +kernel), quiet_of (by decide +kernel), by decide +kernel⟩

/-- The last page of the space, and a frame; operands out of range; a hart in `tlbfence`, with and without invalidations to wait for. -/
theorem witness_InvalidationResult :
    (let s := hartState W .virtualSupervisor [(11, 1), (12, 0x0000FFFFFFFFF00C)]
     s.HartActs ∧ (s.contexts.find ((s.hartAt s.hart).reg 11).toNat).isSome = true ∧
      ((s.hartAt s.hart).reg 11).toNat = s.callerOf s.hart ∧
      ((s.hartAt s.hart).reg 12).toNat = (2 ^ 48 - 4096) + 12 ∧ (2 ^ 48 - 4096) % 4096 = 0 ∧ (2 ^ 48 - 4096) % 2 ^ 12 = 0) ∧
    (let s := hartState (tree one two []) .virtualSupervisor [(11, 2), (12, 0x200000 + 64 + 21)]
     s.HartActs ∧ s.below ((s.hartAt s.hart).reg 11).toNat (s.callerOf s.hart) = true ∧
      ((s.hartAt s.hart).reg 12).toNat = 0x200000 + 64 + 21 ∧ 0x200000 % 2 ^ 21 = 0) ∧
    (∀ v ∈ [(11 : DWord), 49, 0x1000000000000 + 12], (hartState W .virtualSupervisor [(11, 1), (12, v)]).HartActs) ∧
    ((11 : DWord).toNat % 64 < 12 ∧ 48 < (49 : DWord).toNat % 64 ∧ 2 ^ 48 ≤ (0x1000000000000 + 12 : DWord).toNat) ∧
    (∀ n ∈ [0, 1], let s : State := { W with harts := [(0, { Hart.fresh with fencing := some 0, unfenced := n })] }
      (s.hartAt s.subject.who).fencing = some 0 ∧ s.landedBelow 0 = true) := by
  refine ⟨⟨acts_of (by decide +kernel), by decide +kernel⟩, ⟨acts_of (by decide +kernel), by decide +kernel⟩, ?_, by decide +kernel, by decide +kernel⟩
  intro v hv
  simp only [List.mem_cons, List.not_mem_nil, or_false] at hv
  rcases hv with rfl | rfl | rfl <;> exact acts_of (by decide +kernel)

/-! Queues and launches. -/

/-- Context 1 with one queue, at 0x10000: two entries at 0x10040, the first published, naming a record at 0x10100 for one crew of
context 1's core; its identifier is given, and a predecessor. -/
def oneQ (f : List Failure) : Context := { one with queues := 1, queueTable := 0x10000, launches := [], failures := f }

def queueState (ident : Nat) (preds : Nat) (f : List Failure) : State :=
  let s : State := { W with contexts := W.contexts.put 1 (oneQ f), rung := [⟨1, 0⟩] }
  [(0x10000, 0x10040), (0x10008, 0x0000000800000002), (0x10010, 0x0000000100000000), (0x10040, 0x10100), (0x10100, 0x2000),
    (0x10120, 1), (0x10130, 0x3C0 + 2 ^ 32 * (4096 * preds)), (0x10138, ident), (0x10140, 7 * preds)].foldl
    (fun (acc : State) (x : Nat × Nat) => acc.write x.1 8 x.2) s

/-- The queue mapped to slot 511. -/
def mapped (s : State) : State := { s with slots := [(511, ⟨1, 0⟩)], subject := { Subject.none with who := 511 } }

/-- A doorbell of a created context's queue, written by the device or the host, of a number it does not have and of a queue disabled; a
context without a page; the clock before and at each due time; and queues in the service list, of which one was mapped before. -/
theorem witness_DoorbellAndTimers :
    (let c : Context := { oneQ [] with state := .created, doorbell := some 0x600000, function := true }
     ∀ q ∈ [0, 1], ∀ host ∈ [true, false],
      let s : State :=
        { queueState 1 0 [] with
          contexts := W.contexts.put 1 c
          rung := []
          subject := { Subject.none with who := 1, what := q, flag := host } }
      s.contexts.find s.subject.who = some c ∧ c.cold = false ∧ c.function = true ∧ c.doorbell ≠ none ∧ Quiet s ∧ c.queues = 1 ∧
        s.isDisabled ⟨1, 0⟩ = false ∧ State.isDisabled { s with mem := W.mem } ⟨1, 0⟩ = true) ∧
    (∀ host ∈ [true, false], let s : State := { W with contexts := W.contexts.put 1 (oneQ []), subject := { Subject.none with who := 1, flag := host } }
      s.contexts.find s.subject.who = some (oneQ []) ∧ (oneQ []).doorbell = none ∧ (oneQ []).depth ≠ 0) ∧
    (W.clock < W.quantumDue ∧ W.clock < W.retryDue) ∧
    (let s : State := { W with clock := 325000 }
     s.quantumDue ≤ s.clock ∧ s.retryDue ≤ s.clock ∧ Quiet s) ∧
    (let s : State :=
      { queueState 1 0 [] with clock := 325000, slots := (List.range 512).map fun i => (i, ⟨1, 0⟩), service := [⟨1, 0⟩] }
     s.quantumDue ≤ s.clock ∧ (State.serviceQueues { s with quantumDue := s.quantumDue + 325000 }).service ≠ []) ∧
    (let qs : List QueueId := [⟨1, 0⟩, ⟨1, 1⟩]
     let s : State := { W with slots := [], service := qs, lastSlot := [(QueueId.key ⟨1, 1⟩, 511)] }
     s.service.Nodup ∧ (∀ e ∈ s.lastSlot, e.2 < 512) ∧ s.lastSlot.find (QueueId.key ⟨1, 1⟩) = some 511 ∧
      s.lastSlot.find (QueueId.key ⟨1, 0⟩) ≠ some 511) := by
  refine ⟨?_, by decide +kernel, by decide +kernel, ⟨by decide +kernel, by decide +kernel, quiet_of (by decide +kernel)⟩, by decide +kernel,
    by decide +kernel⟩
  intro c q hq host hh
  simp only [List.mem_cons, List.not_mem_nil, or_false] at hq hh
  rcases hq with rfl | rfl <;> rcases hh with rfl | rfl <;>
    exact ⟨by decide +kernel, by decide +kernel, by decide +kernel, by decide +kernel, quiet_of (by decide +kernel), by decide +kernel⟩

/-- Context 2 cold, with a page, under a context with a state and without cores; and an image of it whose contexts hold `n` cores. -/
def coldContext : Context := { two with state := .halted, cold := true, doorbell := some 0x600000 }
def coldImage (n : Nat) : Image :=
  { port := 3, namespaceId := 5, ctx := 2, contexts := [(2, { two with cores := List.replicate n 0 })], frames := [] }
def coldState (parent : ContextState) (images : List Image) (keys : List Nat) : State :=
  { W with
    contexts := (W.contexts.put 1 { one with cores := [], state := parent }).put 2 coldContext
    images := images
    boot := { W.boot with keys := keys }
    subject := { Subject.none with who := 2 } }

/-- A cold context without an image; with one whose key is gone, or that is larger than the grant region; and with one that fits, under a
parent that runs and under one that is halted. -/
theorem witness_ColdDoorbell :
    (∀ y ∈ [(ContextState.running, ([] : List Image), ([2] : List Nat)), (.running, [coldImage 0], []), (.running, [coldImage 65537], [2]),
        (.running, [coldImage 0], [2]), (.halted, [coldImage 0], [2])], let s := coldState y.1 y.2.1 y.2.2
      s.contexts.find s.subject.who = some coldContext ∧ coldContext.doorbell ≠ none ∧ s.subject.flag = false ∧
        coldContext.cold = true ∧ coldContext.revocation = none ∧ s.going s.subject.who = false) ∧
    (∀ i ∈ (coldState .running [] [2]).images, i.ctx ≠ 2) ∧
    (let s := coldState .running [coldImage 0] []
     s.images.find? (fun i => i.ctx == 2) = some (coldImage 0) ∧ 2 ∉ s.boot.keys) ∧
    (let s := coldState .running [coldImage 65537] [2]
     s.images.find? (fun i => i.ctx == 2) = some (coldImage 65537) ∧
      Config.grantRegionSize < s.regionUsed + ((coldImage 65537).contexts.map fun e => 0x1000000 * e.2.cores.length).sum) ∧
    (∀ p ∈ [ContextState.running, .halted], let s := coldState p [coldImage 0] [2]
      s.images.find? (fun i => i.ctx == 2) = some (coldImage 0) ∧ 2 ∈ s.boot.keys ∧
        s.regionUsed + ((coldImage 0).contexts.map fun e => 0x1000000 * e.2.cores.length).sum ≤ Config.grantRegionSize ∧
        ∃ q, s.contexts.find coldContext.parent = some q ∧ q.state = p) := by
  have hr := region_top
  refine ⟨?_, by decide +kernel, by decide +kernel, ⟨rfl, ?_⟩, ?_⟩
  · intro y hy
    simp only [List.mem_cons, List.not_mem_nil, or_false] at hy
    rcases hy with rfl | rfl | rfl | rfl | rfl <;>
      exact ⟨rfl, by decide +kernel, rfl, rfl, rfl, by
        unfold coldState
        decide +kernel⟩
  · simp only [coldImage, List.map_cons, List.map_nil, List.sum_cons, List.sum_nil, List.length_replicate]
    omega
  · intro p hp
    simp only [List.mem_cons, List.not_mem_nil, or_false] at hp
    rcases hp with rfl | rfl
    · have : (coldState .running [coldImage 0] [2]).regionUsed + ((coldImage 0).contexts.map fun e => 0x1000000 * e.2.cores.length).sum ≤ 0x200000 := by
        decide +kernel
      exact ⟨by decide +kernel, by decide +kernel, by omega, ⟨_, rfl, by decide +kernel⟩⟩
    · have : (coldState .halted [coldImage 0] [2]).regionUsed + ((coldImage 0).contexts.map fun e => 0x1000000 * e.2.cores.length).sum ≤ 0x200000 := by
        decide +kernel
      exact ⟨by decide +kernel, by decide +kernel, by omega, ⟨_, rfl, by decide +kernel⟩⟩

/-- The head that a state's queue holds, if a test holds of it. -/
theorem head_of {s : State} {p : ReadyHead → Bool}
    (h : (s.readyHeads.1.find? fun x => x.head.id == ⟨1, 0⟩).any p = true) :
    ∃ r, s.readyHeads.1.find? (fun x => x.head.id == ⟨1, 0⟩) = some r ∧ p r = true := by
  cases e : s.readyHeads.1.find? fun x => x.head.id == ⟨1, 0⟩ with
  | none => rw [e] at h; simp at h
  | some r => rw [e] at h; exact ⟨r, rfl, h⟩

/-- A head whose predecessor failed, one whose record has identifier 0, and one that is accepted; a launch with a crew still to end and
one without; `lnch` of a record to a queue with room, to a full one, to a queue that is not there, and of two bad addresses. -/
theorem witness_Launches :
    (∀ x ∈ [(2, 1, [(⟨7, 3, 4⟩ : Failure)]), (0, 0, []), (2, 0, [])],
      let s := mapped (queueState x.1 x.2.1 x.2.2)
      s.slots.find s.subject.who = some ⟨1, 0⟩ ∧ s.readyHeads.2.contexts.find 1 = some (oneQ x.2.2) ∧
        (oneQ x.2.2).launches.length < 64) ∧
    (∃ r, (mapped (queueState 2 1 [⟨7, 3, 4⟩])).readyHeads.1.find? (fun x => x.head.id == ⟨1, 0⟩) = some r ∧
      decide (r.cancel = some 4) = true) ∧
    (∃ r, (mapped (queueState 0 0 [])).readyHeads.1.find? (fun x => x.head.id == ⟨1, 0⟩) = some r ∧
      (decide (r.cancel = none) && ((mapped (queueState 0 0 [])).readyHeads.2.refusal (oneQ []) r.head).isSome) = true) ∧
    (∃ r, (mapped (queueState 2 0 [])).readyHeads.1.find? (fun x => x.head.id == ⟨1, 0⟩) = some r ∧
      (decide (r.cancel = none) && (((mapped (queueState 2 0 [])).readyHeads.2.refusal (oneQ []) r.head).isNone &&
        r.head.launch.isSome && ((State.writeStatus { W with queueWrites := [] } r.head.id r.head.entry 1 0 false).contexts.find
          r.head.id.ctx).isSome)) = true) ∧
    (∀ n ∈ [0, 1], let l : Launch := { placedLaunch with crewsEnded := n }
      let c : Context := { one with launches := [l] }
      let s : State := { W with contexts := W.contexts.put 1 c, subject := { Subject.none with who := 1, what := 1 } }
      s.contexts.find s.subject.who = some c ∧ s.enginesRun s.subject.who = true ∧
        c.launches.find? (fun x => x.record.ident.toNat == s.subject.what) = some l ∧ l.stopped = false ∧
        l.record.crewCount.toNat = 1) ∧
    (∀ x ∈ [[(120, 0x10100), (123, 0)], [(120, 0x10100), (123, 1)], [(120, 0x10180), (123, 0)], [(121, 0x10000), (123, 0)]],
      let s := altered (queueState 2 0 []) (withS x)
      let g := withS x G
      s.Issues g ∧ s.contexts.find g.ctx = some (oneQ []) ∧ s.Settled g [] [127, 120, 121, 123] ∧ s.hasLogged s.gang = false) ∧
    (∀ tail ∈ [1, 2], let s := altered ((queueState 2 0 []).write 0x10014 4 tail) (withS [(120, 0x10100), (123, 0)])
      let g := withS [(120, 0x10100), (123, 0)] G
      (Run.append (Run.start s (s.issuing g).stamp) (coreOf s.gang) g.ctx (oneQ []) 0 0x10100).1 = .ok (if tail = 1 then some 1 else none)) := by
  refine ⟨?_, head_of (by decide +kernel), head_of (by decide +kernel), head_of (by decide +kernel), ?_, ?_, ?_⟩
  · intro x hx
    simp only [List.mem_cons, List.not_mem_nil, or_false] at hx
    rcases hx with rfl | rfl | rfl <;> exact by decide +kernel
  · intro x hx
    simp only [List.mem_cons, List.not_mem_nil, or_false] at hx
    rcases hx with rfl | rfl <;> decide +kernel
  · intro x hx
    simp only [List.mem_cons, List.not_mem_nil, or_false] at hx
    rcases hx with rfl | rfl | rfl | rfl <;>
      exact ⟨issues_of (by decide +kernel), by decide +kernel, settled_of (by decide +kernel), by decide +kernel⟩
  · intro x hx
    simp only [List.mem_cons, List.not_mem_nil, or_false] at hx
    rcases hx with rfl | rfl <;> decide +kernel

/-- A head whose entry's words lie in memory, in a state with nothing written late. -/
theorem witness_HeadEnds :
    let u : State := { queueState 2 0 [] with queueWrites := [], heldQueues := [], pending := [] }
    ∃ r, (mapped (queueState 2 0 [])).readyHeads.1.find? (fun x => x.head.id == ⟨1, 0⟩) = some r ∧
      (decide (r.head.entry = 0x10040) && decide (r.head.id = ⟨1, 0⟩) && decide (u.queuePlace r.head.id.ctx (r.head.entry + 8) 4 .store = .ok (.mem 0x10048)) &&
        decide ((u.write 0x10048 4 (3 + 256 * 4)).queuePlace r.head.id.ctx (r.head.entry + 0x18) 8 .store = .ok (.mem 0x10058))) = true :=
  head_of (by decide +kernel)

/-- The queue table of the root in host memory: a queue of two entries of which one, and of which both, are published. -/
theorem witness_LaunchAppendEffect :
    (∀ tail ∈ [1, 2], let f : Gang → Gang := fun g => { withS [(120, 0x10100), (123, 0)] g with ctx := 0 }
      let c : Context := { oneQ [] with queueTable := hostBase }
      let s : State := { (((altered W f).write hostBase 8 (hostBase + 64)).write (hostBase + 8) 8 0x0000000800000002).write (hostBase + 16) 8
        (2 ^ 32 * tail) with contexts := (W.setContext 0 c).contexts }
      let bytes := (List.range 64).map fun i => s.byte (id (hostBase + i))
      let e : QueueDesc := { va := hostBase, base := hostBase + 64, n := 2, priority := 0, enabled := true, head := 0, tail := tail }
      s.Issues (f G) ∧ s.contexts.find (f G).ctx = some c ∧ s.hasLogged s.gang = false ∧ c.queueTable % 64 = 0 ∧
        QueueDesc.of hostBase bytes = some e ∧ (tail = 1 → e.pending ≠ e.n) ∧ (tail = 2 → e.pending = e.n) ∧
        Mapped s 0 0 0 noEpochs false id
          (fun x => (hostBase ≤ x ∧ x < hostBase + 64) ∨ (e.entry e.tail ≤ x ∧ x < e.entry e.tail + 32))) := by
  intro tail ht
  simp only [List.mem_cons, List.not_mem_nil, or_false] at ht
  rcases ht with rfl | rfl <;>
    refine ⟨issues_of (by decide +kernel), ?_, ?_, ?_, ?_, ?_, ?_, mapped_root rfl fun a h => by
      simp only [QueueDesc.entry, hostBase] at h
      omega⟩ <;>
    decide +kernel

/-- Context 1 with one crew still to place. -/
def toPlace : Launch := { placedLaunch with record := { placedRecord with ident := 9 } }
def oneToPlace : Context := { one with launches := [toPlace] }
def placeState : State := { W with contexts := W.contexts.put 1 oneToPlace }

/-- The test gang with its slices ended. -/
def endedGang (g : Gang) : Gang := { g with slices := g.slices.map fun sl => { sl with stack := [], status := .ended } }

/-- One crew to place, on core 0 beside the test crew; a clock whose placements are made; a crew that runs and one that has ended. -/
theorem witness_CrewPlacedAndReleased :
    (let x : Choice := { ctx := 1, launch := toPlace, core := 0, positions := [8], claimed := false }
     placeState.placedUntil ≤ placeState.clock ∧
      placeState.contexts.filterMap (fun e => if e.2.distributes then placeState.choose e.1 e.2 else none) = [x] ∧ x.positions.Nodup) ∧
    (let s : State := { W with placedUntil := 1 }
     s.clock < s.placedUntil) ∧
    (W.crews.find W.subject.who = some (crewOf W) ∧ (W.contexts.find (crewOf W).ctx).isSome = true ∧
      W.crewDone W.subject.who (crewOf W) = false) ∧
    (let s := altered W endedGang
     s.crews.find s.subject.who = some (crewOf W) ∧ s.crewDone s.subject.who (crewOf W) = true ∧
      s.enginesRun (crewOf W).ctx = true) := by
  refine ⟨⟨by decide +kernel, by decide +kernel, by decide⟩, by decide +kernel⟩

/-- Context 1 halting, in the forced step or the soft one, its timer due at clock 50; without launches; and its counters run out. -/
def oneHalting (forced : Bool) : Context :=
  { one with state := .halting, launches := [], halt := some { softHalt with forced := forced } }
def oneSpent : Context := { one with budget := ⟨true, 0, 5, 0, 0, true⟩ }

/-- The state with a given context 1 at a clock, an event concerning it. -/
def haltState (c : Context) (clock : Nat) : State :=
  { W with contexts := W.contexts.put 1 c, clock := clock, subject := { Subject.none with who := 1 } }

/-- Timers before and at their time, in each step; a counter that has not and one that has run out; a window open and one to close; a
forced halt that is complete, and one that waits for a load. -/
theorem witness_HaltLadder :
    (∀ forced ∈ [true, false], ∀ clock ∈ [49, 50], let s := haltState (oneHalting forced) clock
      let h : Halt := { softHalt with forced := forced }
      s.contexts.find s.subject.who = some (oneHalting forced) ∧ (oneHalting forced).halt = some h ∧ h.inherited = false ∧
        h.forced = forced ∧ (clock = 49 → h.deadline > s.clock) ∧ (clock = 50 → h.deadline ≤ s.clock) ∧
        (∃ e ∈ s.crews, e.2.ctx = s.subject.who) ∧ Quiet s ∧ (oneHalting forced).depth ≠ 0 ∧
        (oneHalting forced).state = .halting ∧ (oneHalting forced).launches = [] ∧ s.subtree s.subject.who = [s.subject.who] ∧
        NoRing s) ∧
    (∀ c ∈ [one, oneSpent], (haltState c 0).contexts.find 1 = some c) ∧
    (let s := haltState oneSpent 0
     one.budget.exhausted = false ∧ oneSpent.budget.exhausted = true ∧ oneSpent.depth ≠ 0 ∧ oneSpent.state = .running ∧
      s.budgetOwner s.subject.who = s.subject.who ∧ oneSpent.depth < 5 ∧ Quiet s ∧ NoRing s) ∧
    (∀ clock ∈ [31, 32], let s0 := haltState one clock
      let s := (s0.setCore 0 { s0.core 0 with windows := [⟨1, 32, []⟩] })
      let t : State := { s with subject := { Subject.none with who := 0, what := 1 } }
      (t.core t.subject.who).windows.find? (fun x => x.ctx == t.subject.what) = some ⟨1, 32, []⟩ ∧ t.lineRaised 1 = false ∧
        t.clock = clock) ∧
    (let s := haltState (oneHalting true) 60
     let h : Halt := { softHalt with forced := true }
     s.haltReady s.subject.who h = true ∧ h.records = [] ∧ h.cause = .none ∧ (∀ e ∈ s.cores, e.2.windows = []) ∧
      (∀ e ∈ s.gangs, e.2.ctx = s.subject.who → e.2.stop = none)) ∧
    (let t := nextOf (exec (.ld 124 1 5 4 0) M)
     let s : State := { t with contexts := t.contexts.put 1 (oneHalting true), subject := { Subject.none with who := 1 } }
     s.contexts.find s.subject.who = some (oneHalting true) ∧ s.haltReady s.subject.who { softHalt with forced := true } = false) := by
  refine ⟨?_, ?_, ⟨?_, ?_, ?_, ?_, ?_, ?_, quiet_of (by decide +kernel), noRing_of (by decide +kernel)⟩, ?_⟩
  rotate_left
  iterate 8 decide +kernel
  intro f hf k hk
  simp only [List.mem_cons, List.not_mem_nil, or_false] at hf hk
  rcases hf with rfl | rfl <;> rcases hk with rfl | rfl <;>
    refine ⟨?_, ?_, ?_, ?_, ?_, ?_, ?_, quiet_of ?_, ?_, ?_, ?_, ?_, noRing_of ?_⟩ <;> decide +kernel

/-- A window whose time has come, with two events of one clock, of which that of the lower gang is the first. -/
theorem witness_WindowCloses :
    (let e : WindowEvent := ⟨4, 0, .fpInvalid, 1, 0, 0x2000, 0x2000⟩
     let w : Window := ⟨1, 32, [⟨4, 1, .fpDivzero, 2, 0, 0x2000, 0x2000⟩, e]⟩
     let s0 := haltState one 32
     let s : State := { s0.setCore 0 { s0.core 0 with windows := [w] } with subject := { Subject.none with who := 0, what := 1 } }
     (s.core s.subject.who).windows.find? (fun x => x.ctx == s.subject.what) = some w ∧ w.closes ≤ s.clock ∧ e ∈ w.events ∧
      (∀ f ∈ w.events, f = e ∨ e.issued < f.issued ∨ (e.issued = f.issued ∧ gangField e.gang < gangField f.gang)) ∧
      s.contexts.find w.ctx = some one ∧ one.state = .running) := by decide +kernel

/-- Context 2 running, its frame 3 granted and cold, and its image on a namespace of its parent. -/
def twoCold3 : Context := { two with state := .running, grants := [(3, 0x1)], coldFrames := [3], image := some (3, 5), pullFailures := 2 }

/-- That image, whose frame 3 holds 7 in its last byte. -/
def image : Image := { port := 3, namespaceId := 5, ctx := 2, contexts := [], frames := [(3, [(0x1FFFFF, 7)])] }

/-- The state in which the pull of a frame of context 2 comes about. -/
def pullState (frame : Nat) (flag : Bool) : State :=
  { W with
    contexts := (W.contexts.put 1 oneN).put 2 twoCold3
    images := [image]
    boot := { W.boot with keys := [2] }
    subject := { Subject.none with who := 2, what := frame, flag := flag } }

/-- A record that waits for context 1's ring, of two entries at 0x7000, with and without room. -/
def waiting : PendingRecord :=
  { ring := 1, record := { address := 0x2000, timestamp := 0, ctx := 1, cause := .pageFaultLoad, flags := 0, core := 0, gang := 0, level := 0, age := 0 },
    blocks := .none }
def ringState (tail : Nat) : State :=
  { W.write 0x7000 4 tail with
    contexts := W.contexts.put 1 { one with ringAddr := 0x7000, ringEntries := 2 }
    pending := [waiting] }

/-- Frames that are not cold, cold, and one whose pull fails; records with and without room; a bad sector; a marker behind another one
and behind its like; a write of the last bytes of HBM. -/
theorem witness_PullsRecordsWrites :
    (∀ x ∈ [(2, false), (3, false), (3, true)], let s := pullState x.1 x.2
      s.contexts.find s.subject.who = some twoCold3 ∧ s.enginesRun s.subject.who = true) ∧
    (2 ∉ twoCold3.coldFrames ∧ 3 ∈ twoCold3.coldFrames ∧ (twoCold3.grants.get 3).getLsbD 0 = true) ∧
    (let s := pullState 3 false
     s.machineOf twoCold3.parent (((twoCold3.grants.get 3).extractLsb 47 21).toNat * 0x200000) = some 0 ∧ 2 ∈ s.boot.keys ∧
      twoCold3.image = some (3, 5) ∧ s.holdsNamespace twoCold3.parent (3, 5) = true ∧
      s.images.find? (fun i => i.ctx == 2) = some image ∧ image.frames.find 3 = some [(0x1FFFFF, 7)] ∧
      Cells.wf ([(0x1FFFFF, 7)] : Cells 8) = true ∧ (∀ x ∈ ([(0x1FFFFF, 7)] : Cells 8), x.1 < 0x200000) ∧ Quiet s) ∧
    ((pullState 3 true).subject.flag = true ∧ twoCold3.pullFailures + 1 < 4 ∧ twoCold3.state = .running) ∧
    (let s : State := { pullState 3 true with contexts := (W.contexts.put 1 oneN).put 2 { twoCold3 with pullFailures := 3 } }
     s.contexts.find s.subject.who = some { twoCold3 with pullFailures := 3 } ∧ twoCold3.depth ≠ 0 ∧ Quiet s ∧ NoRing s) ∧
    (∀ tail ∈ [1, 2], let s := ringState tail
      s.pending = [waiting] ∧ State.ringFor { s with pending := [] } 1 false 6 = some (1, 0x7000, false) ∧
        (State.ringWrite { s with pending := [] } 1 waiting.record).isSome = decide (tail = 1)) ∧
    (let s : State := { W with badSectors := [0x40] }
     s.badSectors = [0x40] ∧ s.pending = [] ∧ NoRing s) ∧
    (let m : Marker := { src := 3, dst := 0, epoch := 2 }
     let n : Marker := { src := 2, dst := 0, epoch := 9 }
     let s : State := { W with markers := [n, m, m], subject := { Subject.none with who := 3, what := 0 } }
     s.markers = [n] ++ m :: [m] ∧ (∀ x ∈ [n], ¬(x.src = s.subject.who ∧ x.dst = s.subject.what)) ∧
      s.dies[m.dst]? = some Die.fresh ∧ m.src < Die.fresh.applied.length ∧
      ∀ m ∈ W.markers, ¬(m.src = W.subject.who ∧ m.dst = W.subject.what)) ∧
    (let s : State := { W with subject := { Subject.none with who := 0x0100_0000_0000 - 2, data := [1, 2] } }
     s.subject.who + s.subject.data.length = 0x0100_0000_0000 ∧ s.badSectors = [] ∧ s.subject.what < 12 ∧
      backedRange s.subject.who s.subject.data.length = true) ∧
    (let s : State := { W with subject := { Subject.none with who := 0x0100_0000_0000 - 1, what := 12, data := [1, 2] } }
     12 ≤ s.subject.what ∧ backedRange s.subject.who s.subject.data.length = false) := by
  refine ⟨?_, ?_, ⟨?_, ?_, ?_, ?_, ?_, ?_, ?_, ?_, quiet_of ?_⟩, ?_, ⟨?_, ?_, quiet_of ?_, noRing_of ?_⟩, ?_, ⟨?_, ?_, noRing_of ?_⟩, ?_⟩ <;>
  decide +kernel

/-- An image of one stage without a body. -/
def imageBytes : List Byte :=
  bytesOf 4 0x4E594D01 ++ bytesOf 4 1 ++ bytesOf 8 2532 ++ bytesOf 8 2532 ++ bytesOf 8 0 ++ List.replicate 2500 0

/-- A device that waits for its image, for a stage, or is in minimal mode, at a clock. -/
def bootState (phase : Phase) (clock : Nat) (data : List Byte) : State :=
  { W with
    clock := clock
    boot := { W.boot with phase := phase, awaited := [0, 6], started := [(0, 7), (6, 9)] }
    subject := { Subject.none with who := 0x0040_0000_0000 - 2532, data := data } }

/-- Resets; a good image and a bad one, at the end of die 0's memory; each timeout before and at its time; the last stage and one of two;
minimal mode. Whether the image is signed is the implementation's key's to say (log 19). -/
theorem witness_StartEvents :
    ((W.subject.flag = false) ∧ (let s : State := { W with subject := { Subject.none with flag := true } }
      s.subject.flag = true ∧ s.boot.failedStarts < 3)) ∧
    (∀ b ∈ [imageBytes, List.replicate 2532 0], let s := bootState .fetching 0 b
      s.boot.phase = .fetching ∧ s.subject.what < 8 ∧ s.subject.who + s.subject.data.length = 0x0040_0000_0000) ∧
    imageValid imageBytes = true ∧ imageValid (List.replicate 2532 0) = false ∧
    ((bootState .fetching 155999999999 []).clock < clocksOf 120000000000 ∧
      clocksOf 120000000000 ≤ (bootState .fetching 156000000000 []).clock) ∧
    (let late (s : State) : Prop := ∃ x ∈ s.boot.started, x.1 ∈ s.boot.awaited ∧ x.2 + clocksOf 60000000000 ≤ s.clock
     let unstarted (s : State) : Prop := ∃ j ∈ s.boot.awaited, (∀ x ∈ s.boot.started, x.1 ≠ j) ∧ s.boot.since + clocksOf 60000000000 ≤ s.clock
     let before := bootState .starting 78000000006 []
     let after := bootState .starting 78000000007 []
     before.boot.phase = .starting ∧ ¬late before ∧ late after ∧
      (¬∃ x ∈ before.boot.started, x.1 = before.subject.who) ∧
      (let s : State := { before with subject := { Subject.none with who := 6 } }
       (∃ x ∈ s.boot.started, x.1 = s.subject.who) ∧ ∃ j ∈ s.boot.awaited, j ≠ s.subject.who) ∧
      (let s : State := { after with subject := { Subject.none with who := 6 } }
       ∃ x ∈ s.boot.started, x.1 = s.subject.who) ∧
      ∀ clock ∈ [78000000006, 78000000007], let s0 := bootState .starting clock []
        let s : State := { s0 with boot := { s0.boot with started := [(6, 9)], since := 7 } }
        ¬late s ∧ (unstarted s ↔ clock = 78000000007)) ∧
    (let s : State :=
      { bootState .starting 0 [] with
        boot := { W.boot with phase := .starting, awaited := [6], started := [(6, 0)] }, subject := { Subject.none with who := 6 } }
     s.boot.phase = .starting ∧ (∀ j ∈ s.boot.awaited, j = s.subject.who) ∧ ∃ x ∈ s.boot.started, x.1 = s.subject.who) ∧
    (bootState .minimal 0 []).boot.phase = .minimal ∧ (bootState .running 0 []).boot.phase ≠ .minimal := by
  refine ⟨?_, ?_, ?_, ?_, ?_, ?_, ?_⟩ <;> decide +kernel

/-- The last signature index and none left; a sensor that logs and one that resets; a device without power. -/
theorem witness_AttestationSensorsPower :
    (∀ i ∈ [2 ^ 20 - 1, 2 ^ 20], let s : State :=
      { W with boot := { W.boot with signatureIndex := i }, subject := { Subject.none with data := List.replicate 32 1 } }
      s.subject.data.length = 32 ∧ s.subject.flag = false ∧ s.boot.signatureIndex = i) ∧
    (let s : State := { W with boot := { W.boot with sensorActions := [.erase, .halt, .halt, .log] }, subject := { Subject.none with who := 8 } }
     3 < 4 ∧ s.subject.who = 2 ^ 3 ∧ s.boot.sensorActions[3]? = some .log ∧ NoRing s) ∧
    (let s : State := { W with subject := { Subject.none with who := 1 } }
     s.subject.who = 2 ^ 0 ∧ s.boot.sensorActions[0]? = some .erase) ∧
    State.powered { W with powered := false } = false :=
  ⟨by decide +kernel, ⟨by decide +kernel, by decide +kernel, by decide +kernel, noRing_of (by decide +kernel)⟩, by decide +kernel, rfl⟩


/-- The state in which the placed gang or hart has the next turn with a word. -/
def turnState (w : Nat) : State := State.reset.withFetchWord 32 w

/-- The same as the turn begins: the port's turn is taken, and gang 0's group 0 is to issue. -/
def portTurn (s : State) : State :=
  let s0 : State := { s with agenda := [], idle := false }
  { s0.setPort 0 (portKey 0 0) { last := 1, busy := s.clock + 1 } with gang := 0, group := 0, idle := false }

/-- Without its frame the placed context fetches nothing. -/
def unmapped (s : State) : State := { s with contexts := s.contexts.put 1 { placedContext with grants := [] } }

/-- The sector of the word at the pc is bad. -/
def spoilt (s : State) : State := { s with badSectors := [0x2000] }

/-- The error of a fetch. -/
def errOf {α : Type} (x : Except (Trap × DWord × Nat × Nat) α) : Trap × DWord × Nat × Nat :=
  match x with
  | .error f => f
  | .ok _ => (.protection, 0, 0, 0)

/-- A gang's turn with a word that decodes, one that does not, and one that cannot be fetched, held or trapping; a hart's turn; and an event's. -/
theorem witness_StepRunsDecodedInstruction :
    (∀ s ∈ [turnState 0x2B060FFC, turnState 0x72000000, unmapped (turnState 0), spoilt (turnState 0)],
      let s0 : State := { s with agenda := [], idle := false }
      let last := (s0.core 0).port (portKey 0 0) |>.last
      s.powered = true ∧ s.agenda = [.port 0 0 0] ∧ s0.rotation 0 0 0 last = [0] ∧
        ((s0.core 0).port (portKey 0 0)).busy ≤ s.clock ∧ s0.candidates 0 0 0 last = [(0, 0)] ∧
        ∃ g, (portTurn s).gangs.find 0 = some g ∧ g.members 0 ≠ [] ∧ (portTurn s).mayIssue 0 g = true) ∧
    (let s1 := portTurn (turnState 0x2B060FFC)
     let s2 := (s1.fetch 0 1 0x2000).2
     s1.fetch 0 1 0x2000 = (.ok 0x2B060FFC, s2) ∧ decode 0x2B060FFC = .ok (.addi true 3 3 0x3FC) ∧
      usesPad (.addi true 3 3 0x3FC) = false ∧
      exec (.addi true 3 3 0x3FC) s2 = .next (nextOf (exec (.addi true 3 3 0x3FC) s2)) ∧
      (nextOf (exec (.addi true 3 3 0x3FC) s2)).idle = false) ∧
    (let s1 := portTurn (turnState 0x72000000)
     let s2 := (s1.fetch 0 1 0x2000).2
     s1.fetch 0 1 0x2000 = (.ok 0x72000000, s2) ∧ decode 0x72000000 = .error .unassignedOpcode ∧
      exec .illegalInstruction s2 = .next (nextOf (exec .illegalInstruction s2)) ∧
      (nextOf (exec .illegalInstruction s2)).idle = false) ∧
    (∀ x ∈ [(unmapped (turnState 0), true), (spoilt (turnState 0), false)],
      let s1 := portTurn x.1
      let s2 := (s1.fetch 0 1 0x2000).2
      ∃ f, s1.fetch 0 1 0x2000 = (.error f, s2) ∧
        exec .instructionFetchFault { s2 with fetchFault := some f } =
          .next (nextOf (exec .instructionFetchFault { s2 with fetchFault := some f })) ∧
        (nextOf (exec .instructionFetchFault { s2 with fetchFault := some f })).idle = x.2) ∧
    (let s := turnState 0x00C5850B
     let s0 : State := { s with agenda := [], idle := false, hart := 0 }
     s.powered = true ∧ s.agenda = [.hart 0] ∧ (s.hartAt 0).fencing = none ∧ s.boot.phase ≠ .fetching ∧ (s.hartAt 0).pc = 0x2000 ∧
      s0.fetchHalf (s0.callerOf 0) 0x2000 = some 0x850B ∧ 0x850B % 4 = 3 ∧ s0.fetchHalf (s0.callerOf 0) 0x2002 = some 0x00C5 ∧
      decodeHart (0x850B + 65536 * 0x00C5) = .ok (.ctxNew 12 11 10)) ∧
    (decodeHart 0xC0102573 = .error .unassignedOpcode ∧ readsTime 0xC0102573 = true) ∧
    (let s : State := { W with agenda := [.event .powerRemoved Subject.none] }
     s.powered = true ∧ isEvent .powerRemoved = true ∧
      exec .powerRemoved { s with agenda := [], idle := false, subject := Subject.none } =
        .next (nextOf (exec .powerRemoved { s with agenda := [], idle := false, subject := Subject.none }))) := by
  refine ⟨?_, ⟨pair_of (by decide +kernel), by decide +kernel, by decide, next_of (by decide +kernel), by decide +kernel⟩,
    ⟨pair_of (by decide +kernel), by decide +kernel, next_of (by decide +kernel), by decide +kernel⟩, ?_, by decide +kernel,
    by decide +kernel,
    ⟨by decide +kernel, by decide, next_of (by decide +kernel)⟩⟩
  · intro s hs
    simp only [List.mem_cons, List.not_mem_nil, or_false] at hs
    rcases hs with rfl | rfl | rfl | rfl <;>
      exact ⟨by decide +kernel, by decide +kernel, by decide +kernel, by decide +kernel, by decide +kernel,
        ⟨(gangOf (turnState 0)), by decide +kernel⟩⟩
  · intro x hx
    simp only [List.mem_cons, List.not_mem_nil, or_false] at hx
    rcases hx with rfl | rfl
    · exact ⟨errOf ((portTurn (unmapped (turnState 0))).fetch 0 1 0x2000).1, pair_of (by decide +kernel), next_of (by decide +kernel), by decide +kernel⟩
    · exact ⟨errOf ((portTurn (spoilt (turnState 0))).fetch 0 1 0x2000).1, pair_of (by decide +kernel), next_of (by decide +kernel), by decide +kernel⟩

/-- The scratchpad port held to a clock. -/
def padHeld (n : Nat) (s : State) : State := s.setPort 0 (padKey 0) { last := 0, busy := n }

/-- A scratchpad load whose port is free from this clock, and one whose port is held. -/
theorem witness_ScratchpadTurn :
    let i : Instr := .ldsp 5 1 6 2
    let w := (encode i).getD 0
    (∀ n ∈ [0, 1], let s := padHeld n (turnState w)
      let s0 : State := { s with agenda := [], idle := false }
      let last := (s0.core 0).port (portKey 0 0) |>.last
      s.powered = true ∧ s.agenda = [.port 0 0 0] ∧ s0.rotation 0 0 0 last = [0] ∧
        ((s0.core 0).port (portKey 0 0)).busy ≤ s.clock ∧ s0.candidates 0 0 0 last = [(0, 0)] ∧
        ∃ g, (portTurn s).gangs.find 0 = some g ∧ g.members 0 ≠ [] ∧ (portTurn s).mayIssue 0 g = true ∧
          (let s1 := portTurn s
           let s2 := (s1.fetch 0 1 0x2000).2
           s1.fetch 0 1 0x2000 = (.ok w, s2) ∧ decode w = .ok i ∧ usesPad i = true ∧
            (n = 0 → ((s2.core (coreOf s2.gang)).port (padKey (s2.gang / 8 % 16))).busy ≤ s2.padStart i (s2.occupancy g s2.group i) ∧
              exec i s2 = .next (nextOf (exec i s2))) ∧
            (n = 1 → s2.padStart i (s2.occupancy g s2.group i) < ((s2.core (coreOf s2.gang)).port (padKey (s2.gang / 8 % 16))).busy))) := by
  intro i w n hn
  simp only [List.mem_cons, List.not_mem_nil, or_false] at hn
  rcases hn with rfl | rfl
  · exact ⟨by decide +kernel, by decide +kernel, by decide +kernel, by decide +kernel, by decide +kernel,
      ⟨gangOf (turnState w), by decide +kernel, by decide +kernel, by decide +kernel, pair_of (by decide +kernel), by decide +kernel,
        by decide +kernel, fun _ => ⟨by decide +kernel, next_of (by decide +kernel)⟩, fun h => absurd h (by decide)⟩⟩
  · exact ⟨by decide +kernel, by decide +kernel, by decide +kernel, by decide +kernel, by decide +kernel,
      ⟨gangOf (turnState w), by decide +kernel, by decide +kernel, by decide +kernel, pair_of (by decide +kernel), by decide +kernel,
        by decide +kernel, fun h => absurd h (by decide), fun _ => by decide +kernel⟩⟩

/-- A gang's word and a hart's word with their highest register numbers, and what they stand for. -/
theorem witness_EncodeDecode :
    ((Instr.iadd false 127 127 127).wf = true ∧ encode (.iadd false 127 127 127) = some 0x02FFFFF8) ∧
    ((Instr.ctxNew 31 31 31).wf = true ∧ (encode (.ctxNew 31 31 31)).isSome = true ∧ hartRow (.ctxNew 31 31 31) = true) ∧
    (0x02FFFFF8 < 2 ^ 32 ∧ decode 0x02FFFFF8 = .ok (.iadd false 127 127 127)) := by decide +kernel

/-- The first step from reset, and a memory of one byte at the highest address of HBM. -/
theorem witness_MemoryStaysCanonical : Memory.wf State.reset.mem = true ∧ step (turnState 0x2B060FFC) = .next (nextOf (step (turnState 0x2B060FFC))) ∧
    Memory.wf (turnState 0x2B060FFC).mem = true := ⟨by decide +kernel, next_of (by decide +kernel), by decide +kernel⟩

theorem witness_MemoryReadWrite : Memory.wf [(0x00FF_FFFF_FFFF, 1)] = true ∧ Memory.wf (State.reset.write 0x00FF_FFFF_FFFF 1 1).mem = true ∧
    ∀ a, (State.reset.write 0x00FF_FFFF_FFFF 1 1).byte a = State.byte { State.reset with mem := [(0x00FF_FFFF_FFFF, 1)] } a :=
  ⟨by decide +kernel, by decide +kernel, fun _ => rfl⟩
end Sys2Proof.Tests
end

section
/-!
PROOFS. Memory reads what was last written, and canonical memories that read alike are equal (00 R4; log 1).
-/
namespace Sys2Proof.Machine

/-! ### Canonical cells that read alike are equal -/

/-- A canonical list above a key holds nothing at that key or below. -/
theorem Cells.get_of_wfFrom {w : Nat} {c : Cells w} {low key : Nat} (h : Cells.wfFrom (some low) c = true) (hk : key ≤ low) :
    c.get key = 0 := by
  induction c generalizing low with
  | nil => rfl
  | cons e rest ih =>
    obtain ⟨k, x⟩ := e
    simp only [Cells.wfFrom, Bool.and_eq_true, decide_eq_true_eq] at h
    obtain ⟨⟨hlow, -⟩, hrest⟩ := h
    rw [Cells.get_cons, if_neg (by omega)]
    exact ih hrest (by omega)

/-- The first entry of a canonical list: it is not zero, and the rest lies above it. -/
theorem Cells.wf_cons {w : Nat} {k : Nat} {x : BitVec w} {c : Cells w} (h : Cells.wf ((k, x) :: c) = true) :
    x ≠ 0 ∧ Cells.wfFrom (some k) c = true := by
  simpa [Cells.wf, Cells.wfFrom] using h

/-- A canonical list that reads zero everywhere is empty. -/
theorem Cells.eq_nil_of_get {w : Nat} {c : Cells w} (h : c.wf = true) (hc : ∀ a, c.get a = 0) : c = [] := by
  cases c with
  | nil => rfl
  | cons e rest =>
    obtain ⟨k, x⟩ := e
    have hx := hc k
    rw [Cells.get_cons, if_pos rfl] at hx
    exact absurd hx (Cells.wf_cons h).1

/-- Where the first keys of two canonical lists that read alike stand: the one is not below the other. -/
theorem Cells.head_le {w : Nat} {k j : Nat} {x y : BitVec w} {c d : Cells w} (hc : Cells.wf ((k, x) :: c) = true)
    (hd : Cells.wf ((j, y) :: d) = true) (heq : Cells.get ((k, x) :: c) k = Cells.get ((j, y) :: d) k) : j ≤ k := by
  by_contra hlt
  rw [Cells.get_cons, if_pos rfl, Cells.get_cons, if_neg (by omega),
    Cells.get_of_wfFrom (Cells.wf_cons hd).2 (by omega)] at heq
  exact (Cells.wf_cons hc).1 heq

/-- Canonical lists that read alike are equal. -/
theorem Cells.ext_of_get {w : Nat} {c d : Cells w} (hc : c.wf = true) (hd : d.wf = true) (heq : ∀ a, c.get a = d.get a) :
    c = d := by
  induction c generalizing d with
  | nil => exact (Cells.eq_nil_of_get hd fun a => (heq a).symm).symm
  | cons e rest ih =>
    cases d with
    | nil => exact Cells.eq_nil_of_get hc heq
    | cons f rest' =>
      obtain ⟨k, x⟩ := e
      obtain ⟨j, y⟩ := f
      obtain rfl : k = j := Nat.le_antisymm (Cells.head_le hd hc (heq j).symm) (Cells.head_le hc hd (heq k))
      obtain rfl : x = y := by simpa [Cells.get_cons] using heq k
      obtain ⟨-, hc'⟩ := Cells.wf_cons hc
      obtain ⟨-, hd'⟩ := Cells.wf_cons hd
      have hrest : ∀ a, Cells.get rest a = Cells.get rest' a := fun a => by
        by_cases ha : k = a
        · rw [Cells.get_of_wfFrom hc' (by omega), Cells.get_of_wfFrom hd' (by omega)]
        · simpa [Cells.get_cons, ha] using heq a
      rw [ih (Cells.wf_of_wfFrom _ _ hc') (Cells.wf_of_wfFrom _ _ hd') hrest]

/-! ### Little-endian values -/

/-- A value read from bytes that are those of `v` is `v`, as far as the bytes go. -/
theorem readLE_of_bytes {f : Nat → Byte} {a n v : Nat} (h : ∀ i, i < n → f (a + i) = BitVec.ofNat 8 (v / 256 ^ i)) :
    readLE f a n = v % 256 ^ n := by
  induction n generalizing a v with
  | zero => simp [readLE, Nat.mod_one]
  | succ n ih =>
    have hlow : (f a).toNat = v % 256 := by
      have h0 := h 0 (by omega)
      simp only [Nat.add_zero, Nat.pow_zero, Nat.div_one] at h0
      rw [h0, BitVec.toNat_ofNat]
    have hrest : readLE f (a + 1) n = v / 256 % 256 ^ n := ih fun i hi => by
      have hi' := h (i + 1) (by omega)
      rwa [Nat.add_comm i 1, ← Nat.add_assoc, Nat.pow_add, Nat.pow_one, ← Nat.div_div_eq_div_mul] at hi'
    rw [readLE, hlow, hrest, Nat.pow_succ, Nat.mul_comm (256 ^ n), Nat.mod_mul]

/-- A byte of machine memory after a write. -/
theorem State.byte_write (s : State) (a n v b : Nat) :
    (s.write a n v).byte b = if a ≤ b ∧ b < a + n then BitVec.ofNat 8 (v / 256 ^ (b - a)) else s.byte b :=
  get_writeLE s.mem a n v b

/-- The bytes just written read as the value written. -/
theorem State.read_write (s : State) (a n v : Nat) : (s.write a n v).read a n = v % 256 ^ n :=
  readLE_of_bytes fun i hi => by rw [State.byte_write, if_pos (by omega), Nat.add_sub_cancel_left]

/-- Settles O60: a read gives what the write gave by induction on the bytes, and canonical lists that read alike agree entry by
entry from the lowest key. -/
theorem memoryReadWrite : Obligations.MemoryReadWrite :=
  ⟨fun s a n v => ⟨s.read_write a n v, s.byte_write a n v, write_wf s a n v, rfl⟩, fun _ _ => Cells.ext_of_get⟩

end Sys2Proof.Machine
end

section
/-!
PROOFS. Every step keeps machine memory in its canonical form (log 1). What an outcome does to memory, and the operations that
all instructions share: translation, fault records, loads, stores and atomics, barriers and the ends of gangs.
-/
namespace Sys2Proof.Machine

/-! ### Outcomes and the gate -/

/-- The state that an outcome brings, if any, has its memory in canonical form (log 1). -/
def CanonicalAfter (r : Result) : Prop :=
  match r with
  | .next t => Memory.wf t.mem = true
  | _ => True

theorem canonicalAfter_next {t : State} : CanonicalAfter (.next t) ↔ Memory.wf t.mem = true := Iff.rfl

/-- A fold of an operation that keeps the canonical form keeps it. -/
theorem foldl_wf {α : Type} {f : State → α → State} (hf : ∀ t x, Memory.wf t.mem = true → Memory.wf (f t x).mem = true)
    {s : State} (h : Memory.wf s.mem = true) (xs : List α) : Memory.wf (xs.foldl f s).mem = true := by
  induction xs generalizing s with
  | nil => exact h
  | cons x xs ih => exact ih (hf s x h)

/-- A fold of an operation that leaves memory alone leaves it alone. -/
theorem foldl_mem {α : Type} {f : State → α → State} (hf : ∀ t x, (f t x).mem = t.mem) (s : State) (xs : List α) :
    (xs.foldl f s).mem = s.mem := by
  induction xs generalizing s with
  | nil => rfl
  | cons x xs ih => exact (ih (f s x)).trans (hf s x)

/-- What an operation that leaves memory alone answers beside its value. -/
theorem wf_of_snd {α : Type} {s t : State} {x : α × State} {a : α} (hx : x = (a, t)) (hm : x.2.mem = s.mem)
    (h : Memory.wf s.mem = true) : Memory.wf t.mem = true := by
  subst hx
  exact hm ▸ h

section
variable {s : State} (h : Memory.wf s.mem = true)
include h

/-- An instruction of a gang keeps the canonical form where its own effect does: a wait and a trap at issue leave memory alone. -/
theorem gate_canonical {needs : Gang → Needs} {body : Gang → Result} (hb : ∀ g, CanonicalAfter (body g)) :
    CanonicalAfter (gate s needs body) := by
  obtain h1 | h1 | ⟨g, t, -, h1⟩ | ⟨g, -, -, -, h1⟩ := gate_cases s needs body
  · exact h1 ▸ trivial
  · exact h1 ▸ h
  · exact h1 ▸ h
  · exact h1 ▸ hb _

theorem State.finish_canonical (g : Gang) (n : Nat) : CanonicalAfter (s.finish g n) := h

end

@[simp] theorem State.trapAt_mem (s : State) (g : Gang) (t : Trap) (lanes : List Nat) (a : DWord) :
    (s.trapAt g t lanes a).mem = s.mem := rfl

@[simp] theorem State.modifyContext_mem (s : State) (n : Nat) (f : Context → Context) : (s.modifyContext n f).mem = s.mem := by
  unfold State.modifyContext
  split <;> rfl

/-! ### The operand forms -/

section
variable {s : State} (h : Memory.wf s.mem = true) (scalar : Bool) (d a b : Nat)
include h

theorem ternary_canonical (f : Word → Word → Word → Word) : CanonicalAfter (ternary s scalar d a b f) := by
  unfold ternary
  split <;> exact gate_canonical h fun _ => h

theorem unary_canonical (f : Word → Word) : CanonicalAfter (unary s scalar d a f) := by
  unfold unary
  split <;> exact gate_canonical h fun _ => h

theorem comparison_canonical (f : Word → Word → Bool) : CanonicalAfter (comparison s scalar d a b f) := by
  unfold comparison
  split <;> exact gate_canonical h fun _ => h

theorem pairBinary_canonical (f : DWord → DWord → DWord) : CanonicalAfter (pairBinary s scalar d a b f) := by
  unfold pairBinary
  split <;> exact gate_canonical h fun _ => h

theorem widening_canonical (f : Word → Word → DWord) : CanonicalAfter (widening s scalar d a b f) := by
  unfold widening
  split <;> exact gate_canonical h fun _ => h

theorem pairIndexed_canonical (f : DWord → Word → DWord) : CanonicalAfter (pairIndexed s scalar d a b f) := by
  unfold pairIndexed
  split <;> exact gate_canonical h fun _ => h

theorem predicateOp_canonical (f : Bool → Bool → Bool) : CanonicalAfter (predicateOp s d a b f) := gate_canonical h fun _ => h

theorem predicateRead_canonical (f : List Nat → Word) : CanonicalAfter (predicateRead s d a f) := gate_canonical h fun _ => h

end

/-! ### Translation leaves memory alone -/

section
variable (s : State) (core ctx va : Nat) (k : Want)

@[simp] theorem State.tlbFill_mem (e : TlbEntry) : (s.tlbFill core e).mem = s.mem := rfl

@[simp] theorem State.translateKeep_mem : (s.translateKeep core ctx va k).2.mem = s.mem := by
  unfold State.translateKeep
  split <;> simp

theorem State.served_mem (hit : Option TlbEntry) {walked : Except AccessFault Place × State} (hw : walked.2.mem = s.mem) :
    (s.served va hit walked).2.mem = s.mem := by
  unfold State.served
  split
  · exact hw
  · dsimp only
    split_ifs
    · exact hw
    · rfl
    · exact hw

@[simp] theorem State.translate_mem : (s.translate core ctx va k).2.mem = s.mem := by
  unfold State.translate
  split
  · simp
  · exact s.served_mem va _ (by simp)

@[simp] theorem State.dieKeep_mem (die : Nat) : (s.dieKeep die ctx va k).2.mem = s.mem := by
  unfold State.dieKeep
  split <;> rfl

@[simp] theorem State.translateDie_mem (die : Nat) : (s.translateDie die ctx va k).2.mem = s.mem := by
  unfold State.translateDie
  split
  · simp
  · exact s.served_mem va _ (by simp)

@[simp] theorem State.translatePort_mem (port : Nat) : (s.translatePort port ctx va k).2.mem = s.mem := by
  refine s.served_mem va _ ?_
  split <;> rfl

@[simp] theorem State.translateEach_mem (xs : List Nat) : (s.translateEach core ctx k xs).2.mem = s.mem := by
  induction xs generalizing s with
  | nil => rfl
  | cons a xs ih => exact (ih _).trans (s.translate_mem core ctx a k)

@[simp] theorem State.translateLanes_mem (xs : Lanes) : (s.translateLanes core ctx k xs).2.mem = s.mem :=
  s.translateEach_mem core ctx k _

/-- A word is fetched by a translation and a read. -/
@[simp] theorem State.fetch_mem (pc : DWord) : (s.fetch core ctx pc).2.mem = s.mem := by
  unfold State.fetch
  grind [State.translate_mem]

end

/-! ### Fault records -/

section
variable {s : State} (h : Memory.wf s.mem = true)
include h

theorem postFault_wf (f : AccessFault) (r : FaultRecord) (b : Blocked) : Memory.wf (s.postFault f r b).mem = true := by
  unfold State.postFault
  split
  · exact h
  · exact postRecord_wf s _ _ _ h

theorem holdGang_wf (g : Gang) (f : AccessFault) (flags : BitVec 8) (lanes : List Nat) :
    Memory.wf (s.holdGang g f flags lanes).mem = true := by
  unfold State.holdGang
  dsimp only
  split
  · split_ifs
    · exact h
    · exact postFault_wf (by exact h) _ _ _
  · exact postFault_wf (by exact h) _ _ _

end

@[simp] theorem State.release_mem (s : State) (core : Nat) : (s.release core).mem = s.mem := by
  unfold State.release
  dsimp only
  split <;> rfl

end Sys2Proof.Machine
end

section
/-!
PROOFS. The memory instructions of gangs keep memory in its canonical form: a store, reduction or atomic writes through
`State.performAt` or `State.writePlace`, lane by lane, and what a failing lane leaves is a record of a fault (03 R63-R90).
-/
namespace Sys2Proof.Machine

/-! ### Loads, stores and atomics of gangs -/

section
variable {s : State} (h : Memory.wf s.mem = true)
include h

theorem performLoad_canonical (g : Gang) (scalar acquire : Bool) (t z : Nat) (xs : Lanes) :
    CanonicalAfter (performLoad s g scalar acquire t z xs) := by
  have hs1 (ys : Lanes) : Memory.wf (s.translateLanes (coreOf s.gang) g.ctx .load ys).2.mem = true := by simpa using h
  unfold performLoad
  dsimp only
  split
  · exact h
  split
  · exact h
  split
  · exact h
  split
  · exact h
  split
  · exact holdGang_wf (hs1 _) _ _ _ _
  split
  · exact h
  split <;> exact hs1 _

theorem performAt_wf (op : SideOp) (p : Place) (n : Nat) (data : BitVec 128) :
    Memory.wf (s.performAt op p n data).mem = true := by
  unfold State.performAt
  split <;> exact writePlace_wf _ _ _ _ h

/-- The writes of a store's lanes, of those whose sector can be corrected. -/
theorem writeLanes_wf (reached : List Reaching) (bad : Reaching → Bool) (op : SideOp) (n : Nat) (data : Nat → BitVec 128) :
    Memory.wf (reached.foldl (fun acc r =>
      match r.place with
      | .ok p => if bad r then acc else acc.performAt op p n (data r.lane)
      | .error _ => acc) s).mem = true := by
  refine foldl_wf (fun t r ht => ?_) h _
  split
  · split
    · exact ht
    · exact performAt_wf ht _ _ _ _
  · exact ht

/-- The fault records of a store's lanes that entered the side log. -/
theorem postLanes_wf {α : Type} (logged : List α) (fault : α → Option AccessFault) (key : Nat) (g : Gang) (age : α → Word) :
    Memory.wf (logged.foldl (fun acc x =>
      match fault x with
      | none => acc
      | some f => acc.postFault f (acc.faultRecord key g f 1 (age x)) (.gang key)) s).mem = true := by
  refine foldl_wf (fun t x ht => ?_) h _
  split
  · exact ht
  · exact postFault_wf ht _ _ _

theorem performStore_canonical (g : Gang) (op : SideOp) (scalar release : Bool) (n : Nat) (xs : Lanes) (data : Nat → BitVec 128) :
    CanonicalAfter (performStore s g op scalar release n xs data) := by
  unfold performStore
  extract_lets item order wins behind
  split
  · exact h
  split
  · exact h
  split
  rename_i reached s1 htr
  have hs1 : Memory.wf s1.mem = true := wf_of_snd htr (s.translateLanes_mem ..) h
  extract_lets outcome logged log writing bad s2 entries s3 core s4 s5 g1
  have hs2 : Memory.wf s2.mem = true := writeLanes_wf hs1 _ _ _ _ _
  have hs5 : Memory.wf s5.mem = true := postLanes_wf (s := s4) hs2 _ _ _ _ _
  split
  · exact h
  split
  · exact h
  split
  rename_i s6 g2 hrel
  have hs6 : Memory.wf s6.mem = true := by
    have hr : Memory.wf (s5.release (coreOf s.gang)).mem = true := by simpa using hs5
    split at hrel <;> cases hrel
    · exact hr
    · exact hs5
  extract_lets s7
  split <;> exact hs6

/-- The lanes of an atomic, one after another. -/
theorem atomicLanes_wf (f : Nat → Word → Option Word) (reached : List Reaching) :
    Memory.wf (atomicLanes f s reached).2.mem = true := by
  induction reached generalizing s with
  | nil => exact h
  | cons r rest ih =>
    unfold atomicLanes
    split
    · exact ih h
    · refine ih ?_
      split
      · exact h
      · exact writePlace_wf _ _ _ _ h

theorem performAtomic_canonical (g : Gang) (t : Nat) (xs : Lanes) (f : Nat → Word → Option Word) :
    CanonicalAfter (performAtomic s g t xs f) := by
  unfold performAtomic
  split
  · exact h
  split
  · exact h
  extract_lets mask
  split
  · exact h
  split
  · exact h
  split
  rename_i reached s1 htr
  have hs1 : Memory.wf s1.mem = true := wf_of_snd htr (s.translateLanes_mem ..) h
  extract_lets failed bad
  split
  · exact holdGang_wf hs1 _ _ _ _
  split
  · exact h
  split
  · exact hs1
  · exact atomicLanes_wf hs1 _ _

theorem atomic_canonical (t b x c : Nat) (f : Word → Word → Word) (float : Bool) : CanonicalAfter (atomic s t b x c f float) :=
  gate_canonical h fun g => by
    split
    · exact h
    · exact performAtomic_canonical h _ _ _ _

theorem reduction_canonical (op : SideOp) (t b x c : Nat) : CanonicalAfter (reduction s op t b x c) :=
  gate_canonical h fun g => by
    split
    · exact h
    · exact performStore_canonical h _ _ _ _ _ _ _

theorem execOrdap_canonical (t : BitVec 7) (b : BitVec 6) (c : BitVec 3) : CanonicalAfter (execOrdap t b c s) :=
  gate_canonical h fun g => by
    split
    · trivial
    extract_lets a lanes mask _ turn
    split
    · exact h
    split
    · exact h
    split
    · exact h
    split
    · next htr => exact holdGang_wf (wf_of_snd htr (s.translate_mem ..) h) _ _ _ _
    next p s1 htr =>
    have hs1 : Memory.wf s1.mem = true := wf_of_snd htr (s.translate_mem ..) h
    extract_lets
    split
    · exact h
    split
    · exact hs1
    split
    · exact h
    split
    extract_lets s2
    have hs2 : Memory.wf s2.mem = true := writePlace_wf _ _ _ _ hs1
    split <;> exact hs2

theorem padAccess_canonical (t b x z : Nat) {body : Gang → Crew → Lanes → Result}
    (hb : ∀ g c xs, CanonicalAfter (body g c xs)) : CanonicalAfter (padAccess s t b x z body) :=
  gate_canonical h fun g => by
    split
    · trivial
    extract_lets xs
    split
    · exact h
    split
    · exact h
    · exact hb _ _ _

theorem execStsp_canonical (t : BitVec 7) (b : BitVec 6) (x : BitVec 7) (z : BitVec 3) : CanonicalAfter (execStsp t b x z s) :=
  padAccess_canonical h _ _ _ _ fun g c xs => by
    exact foldl_wf (f := fun acc x => acc.padWrite _ c x.2 _ _) (fun _ _ ht => ht) h (byAge g xs)

end

end Sys2Proof.Machine
end

section
/-!
PROOFS. Barriers, the ends of gangs, traps, special registers and moorings leave memory alone, but for the records of faults (01
R16-R22; 07 R183-R189; 11 R251-R264).
-/
namespace Sys2Proof.Machine

/-! ### Convoys, the ends of gangs, barriers and traps (07 R183-R189; 11 R256-R263) -/

@[simp] theorem State.trapArrivals_mem (s : State) (arrivals : List Arrival) (t : Trap) (a : DWord) (origin : Bool) :
    (s.trapArrivals arrivals t a origin).mem = s.mem := by
  refine foldl_mem (fun u x => ?_) s arrivals
  split <;> rfl

@[simp] theorem State.leaveConvoys_mem (s : State) (key : Nat) (g : Gang) (origin : Bool) :
    (s.leaveConvoys key g origin).mem = s.mem := by
  unfold State.leaveConvoys
  split
  · rfl
  extract_lets listing s1
  have hs1 : s1.mem = s.mem := by
    unfold s1
    split <;> rfl
  refine (foldl_mem (fun u e => ?_) s1 listing).trans hs1
  split
  · rfl
  split
  · rfl
  · simp

@[simp] theorem State.misuse_mem (s : State) (key : Nat) (g : Gang) (origin : Bool) : (s.misuse key g origin).mem = s.mem := rfl

@[simp] theorem State.gangEnds_mem (s : State) (g : Gang) : (s.gangEnds g).mem = s.mem := by
  unfold State.gangEnds
  extract_lets s1
  have hs1 : s1.mem = s.mem := State.leaveConvoys_mem ..
  split
  · exact hs1
  refine (foldl_mem (fun u key => ?_) s1 _).trans hs1
  split
  · rfl
  split
  · simp
  · rfl

section
variable {s : State} (h : Memory.wf s.mem = true)
include h

theorem jumpTo_canonical (a : Nat) : CanonicalAfter (jumpTo s a) :=
  gate_canonical h fun g => by
    extract_lets
    split
    · exact h
    split <;> exact h

theorem execRegang_canonical : CanonicalAfter (execRegang s) :=
  gate_canonical h fun g => by
    extract_lets
    split <;> exact h

theorem execExit_canonical : CanonicalAfter (execExit s) :=
  gate_canonical h fun g => by
    split
    · exact h
    extract_lets s1
    have hs1 : Memory.wf s1.mem = true := h
    split
    · exact hs1
    split
    · rw [canonicalAfter_next, State.gangEnds_mem]
      exact hs1
    · exact hs1

theorem arriveAs_canonical (g : Gang) (c : Crew) (w : Wait) : CanonicalAfter (s.arriveAs g c w) := by
  unfold State.arriveAs
  split
  · exact h
  · rw [← s.release_mem (coreOf s.gang)] at h
    exact h

theorem execBar_canonical (a : BitVec 4) : CanonicalAfter (execBar a s) :=
  gate_canonical h fun g => by
    split
    · trivial
    split
    · exact h
    · exact arriveAs_canonical h _ _ _

theorem execBarc_canonical (a : BitVec 3) : CanonicalAfter (execBarc a s) :=
  gate_canonical h fun g => by
    split
    · trivial
    split
    · exact h
    split
    · exact h
    · exact arriveAs_canonical h _ _ _

theorem execArrive_canonical (a : BitVec 4) : CanonicalAfter (execArrive a s) :=
  gate_canonical h fun g => by
    split
    · trivial
    split
    · exact h
    · exact arriveAs_canonical h _ _ _

theorem execAwait_canonical (a : BitVec 4) (b : BitVec 7) : CanonicalAfter (execAwait a b s) :=
  gate_canonical h fun g => by
    split
    · trivial
    split
    · exact h
    split <;> exact h

theorem execBarrierTimeout_canonical : CanonicalAfter (execBarrierTimeout s) := by
  unfold execBarrierTimeout
  extract_lets key
  split
  · exact h
  split <;> exact h

theorem execRsr_canonical (sc : Bool) (d : BitVec 7) (i : BitVec 10) : CanonicalAfter (execRsr sc d i s) := by
  unfold execRsr
  split
  · exact gate_canonical h fun _ => h
  split
  · exact gate_canonical h fun _ => h
  · exact gate_canonical h fun _ => by split <;> exact h

theorem writeTrim_canonical (r : Nat) : CanonicalAfter (writeTrim s r) := gate_canonical h fun _ => by split <;> exact h

theorem execWsrFpflags_canonical (d : BitVec 7) : CanonicalAfter (execWsrFpflags d s) :=
  gate_canonical h fun _ => by split <;> exact h

theorem softwareTrap_canonical (g : Gang) (cause : Trap) (code : Nat) (lanes : List Nat) :
    CanonicalAfter (softwareTrap s g cause code lanes) := by
  unfold softwareTrap
  extract_lets
  split <;> exact h

theorem execTrapif_canonical (p : BitVec 4) (c : BitVec 8) : CanonicalAfter (execTrapif p c s) :=
  gate_canonical h fun g => by
    extract_lets
    split
    · exact h
    · exact softwareTrap_canonical h _ _ _ _

theorem fetchStop_canonical (g : Gang) (fault : Trap × DWord × Nat × Nat) : CanonicalAfter (fetchStop s g fault) := by
  unfold fetchStop
  split
  · exact h
  · exact holdGang_wf h _ _ _ _

theorem execInstructionFetchFault_canonical : CanonicalAfter (execInstructionFetchFault s) :=
  gate_canonical h fun g => by
    split
    · exact h
    · exact fetchStop_canonical h _ _

theorem execLoadSector_canonical : CanonicalAfter (execLoadSector s) := by
  unfold execLoadSector
  split
  · exact h
  split <;> exact h

theorem execMrset_canonical (a b : BitVec 7) : CanonicalAfter (execMrset a b s) :=
  gate_canonical h fun g => by
    split
    · trivial
    extract_lets
    split <;> exact h

theorem execMrclr_canonical (b : BitVec 7) : CanonicalAfter (execMrclr b s) :=
  gate_canonical h fun g => by
    split
    · trivial
    extract_lets
    split
    · exact h
    split <;> exact h

end

end Sys2Proof.Machine
end

section
/-!
PROOFS. The accesses of engines and of chart instructions keep memory in its canonical form: what they read leaves it alone, and what they
write goes through `State.putPlace` (04 R103; 17 R345-R362).
-/
namespace Sys2Proof.Machine

/-! ### Reads of a run -/

section
variable (r : Run) (c : Command) (g : Gang) (ch : Chart) (p : Coords) (k : Want) (core ctx key va n fuel : Nat) (afresh raw : Bool)

@[simp] theorem Run.reach_mem : (r.reach core ctx va n k).2.st.mem = r.st.mem := by
  unfold Run.reach
  grind [!State.translateDie_mem, !State.translate_mem]

@[simp] theorem Run.readGlobal_mem : (Run.readGlobal core ctx fuel r va n).2.st.mem = r.st.mem := by
  induction fuel generalizing r va n with
  | zero => rfl
  | succ fuel ih =>
    unfold Run.readGlobal
    grind [!Run.reach_mem]

@[simp] theorem Run.resolve_mem (bytes : List Byte) : (Run.resolve core ctx k fuel r va bytes).2.st.mem = r.st.mem := by
  induction fuel generalizing r va bytes with
  | zero => rfl
  | succ fuel ih =>
    unfold Run.resolve
    grind [!Run.reach_mem]

@[simp] theorem Run.read_mem (pad : Bool) : (r.read c pad va n).2.st.mem = r.st.mem := by
  unfold Run.read
  split
  · rfl
  · simp

@[simp] theorem Run.fetchPage_mem (steps : List (Nat × Nat)) : (Run.fetchPage core ctx r steps).2.st.mem = r.st.mem := by
  induction steps generalizing r with
  | nil => rfl
  | cons x rest ih =>
    unfold Run.fetchPage
    grind [!Run.reach_mem]

@[simp] theorem Run.pageHeader_mem (page : DWord) : (r.pageHeader core ctx page n).2.st.mem = r.st.mem := by
  unfold Run.pageHeader
  grind [!Run.readGlobal_mem, !Run.fetchPage_mem]

@[simp] theorem Run.scatterPlaces_mem (size index i : Nat) (base : DWord) :
    (Run.scatterPlaces c size index base n r i).2.st.mem = r.st.mem := by
  induction n generalizing r i with
  | zero => rfl
  | succ n ih =>
    unfold Run.scatterPlaces
    grind [!Run.reach_mem]

@[simp] theorem Run.moved_mem : (r.moved core ctx va n).st.mem = r.st.mem := rfl

@[simp] theorem Run.fetch_mem : (r.fetch core ctx va n).2.st.mem = r.st.mem := by
  unfold Run.fetch
  grind [!Run.readGlobal_mem, Run.moved_mem]

@[simp] theorem Run.readLink_mem : (r.readLink core ctx va).2.st.mem = r.st.mem := by
  unfold Run.readLink
  grind [!Run.fetch_mem]

@[simp] theorem Run.descriptor_mem (size : Option Nat) : (r.descriptor core ctx va size).2.st.mem = r.st.mem := by
  unfold Run.descriptor
  grind [!Run.fetch_mem]

@[simp] theorem State.clbFill_mem (s : State) (block : Nat) (links : List DWord) :
    (s.clbFill core ctx va p block links).mem = s.mem := rfl

@[simp] theorem Run.descend_mem (node v : Nat) : (Run.descend core ctx p raw fuel r node v).2.st.mem = r.st.mem := by
  induction fuel generalizing r node v with
  | zero => rfl
  | succ fuel ih =>
    unfold Run.descend
    grind [!Run.readLink_mem]

@[simp] theorem Run.rootOf_mem : (r.rootOf core ctx ch).2.st.mem = r.st.mem := by
  unfold Run.rootOf
  grind [!Run.readLink_mem]

@[simp] theorem Run.walkTree_mem : (r.walkTree core ctx ch p raw n).2.st.mem = r.st.mem := by
  unfold Run.walkTree
  grind [!Run.rootOf_mem, !Run.descend_mem]

@[simp] theorem Run.walkFill_mem : (r.walkFill core ctx ch p).2.st.mem = r.st.mem := by
  unfold Run.walkFill
  grind [!Run.walkTree_mem, State.clbFill_mem]

@[simp] theorem Run.walk_mem : (r.walk core ctx ch p afresh).2.st.mem = r.st.mem := by
  unfold Run.walk
  grind [!Run.walkFill_mem]

@[simp] theorem Run.pool_mem : (r.pool core ctx va).2.st.mem = r.st.mem := by
  unfold Run.pool
  grind [!Run.fetch_mem]

@[simp] theorem Run.ringEntries_mem (pl : Pool) : (Run.ringEntries core ctx pl n r va).2.st.mem = r.st.mem := by
  induction n generalizing r va with
  | zero => rfl
  | succ n ih =>
    unfold Run.ringEntries
    grind [!Run.fetch_mem]

@[simp] theorem Run.loadElement_mem : (r.loadElement key ctx ch p afresh).2.st.mem = r.st.mem := by
  unfold Run.loadElement
  grind [!Run.walk_mem, !Run.fetch_mem]

@[simp] theorem Run.elementPlace_mem (log : List SideEntry) : (r.elementPlace key ctx ch log va).2.st.mem = r.st.mem := by
  unfold Run.elementPlace
  grind [!State.translate_mem]

@[simp] theorem Run.queryElement_mem : (r.queryElement core ctx ch p afresh).2.st.mem = r.st.mem := by
  unfold Run.queryElement
  grind [!Run.walk_mem]

@[simp] theorem Run.issueChart_mem (plan : LoadPlan) : (r.issueChart g core plan).1.mem = r.st.mem := rfl

/-- Lanes that leave memory alone one by one leave it alone together. -/
theorem Run.lanes_mem {ε α : Type} {f : Run → Nat → Except ε α × Run} (hf : ∀ r l, (f r l).2.st.mem = r.st.mem)
    (lanes : List Nat) : (Run.lanes f lanes r).2.st.mem = r.st.mem := by
  induction lanes generalizing r with
  | nil => rfl
  | cons l rest ih =>
    unfold Run.lanes
    grind

theorem Run.lanes_wf {ε α : Type} {f : Run → Nat → Except ε α × Run} (hf : ∀ r l, (f r l).2.st.mem = r.st.mem)
    {r : Run} (h : Memory.wf r.st.mem = true) (lanes : List Nat) : Memory.wf (Run.lanes f lanes r).2.st.mem = true := by
  rw [Run.lanes_mem r hf lanes]
  exact h

@[simp] theorem Run.start_st (s : State) (stamp : List DWord) (lighter : Bool) : (Run.start s stamp lighter).st = s := rfl

end

/-! ### Writes of a run -/

/-- The run that an operation leaves beside its value. -/
theorem Run.wf_of_snd {α : Type} {x : α × Run} {a : α} {r : Run} (hx : x = (a, r)) (h : Memory.wf x.2.st.mem = true) :
    Memory.wf r.st.mem = true := by
  subst hx
  exact h

/-- A fold of an operation on runs that keeps the canonical form keeps it. -/
theorem foldlRun_wf {α : Type} {f : Run → α → Run} (hf : ∀ r x, Memory.wf r.st.mem = true → Memory.wf (f r x).st.mem = true)
    {r : Run} (h : Memory.wf r.st.mem = true) (xs : List α) : Memory.wf (xs.foldl f r).st.mem = true := by
  induction xs generalizing r with
  | nil => exact h
  | cons x xs ih => exact ih (hf r x h)

/-- A run of pieces is written where its places say. -/
theorem putPlaces_wf {s : State} (h : Memory.wf s.mem = true) (places : List (Place × List Byte)) :
    Memory.wf (places.foldl (fun t p => t.putPlace p.1 p.2) s).mem = true :=
  foldl_wf (fun t _ ht => putPlace_wf t _ _ ht) h places

@[simp] theorem State.padPut_mem (s : State) (crew off : Nat) (bytes : List Byte) : (s.padPut crew off bytes).mem = s.mem := by
  unfold State.padPut
  split <;> rfl

/-- Elements that keep the canonical form one by one keep it together. -/
theorem Run.elements_wf {f : Run → Nat → Work.Answer Unit}
    (hf : ∀ r i, Memory.wf r.st.mem = true → Memory.wf (f r i).2.st.mem = true) {r : Run} (h : Memory.wf r.st.mem = true)
    (count i : Nat) : Memory.wf (Run.elements f count r i).2.2.st.mem = true := by
  induction count generalizing r i with
  | zero => exact h
  | succ count ih =>
    unfold Run.elements
    grind

/-- Lanes that keep the canonical form one by one keep it together. -/
theorem Run.lanesTo_wf {ε α : Type} {f : Run → Nat → Except ε α × Run}
    (hf : ∀ r l, Memory.wf r.st.mem = true → Memory.wf (f r l).2.st.mem = true) {r : Run} (h : Memory.wf r.st.mem = true)
    (lanes : List Nat) : Memory.wf (Run.lanesTo f lanes r).2.2.st.mem = true := by
  induction lanes generalizing r with
  | nil => exact h
  | cons l rest ih =>
    unfold Run.lanesTo
    grind

section
variable {r : Run} (h : Memory.wf r.st.mem = true) (c : Command) (ch : Chart) (p : Coords) (core ctx key va n : Nat)
include h

theorem Run.write_wf (pad : Bool) (bytes : List Byte) : Memory.wf (r.write c pad va bytes).2.st.mem = true := by
  unfold Run.write
  grind [State.padPut_mem, !Run.resolve_mem, putPlaces_wf]

theorem Run.copyPieces_wf (srcPad dstPad : Bool) (src dst stop fuel i : Nat) :
    Memory.wf (copyPieces c srcPad dstPad src dst n stop fuel r i).2.2.st.mem = true := by
  induction fuel generalizing r i with
  | zero => exact h
  | succ fuel ih =>
    unfold copyPieces
    grind [!Run.read_mem, !Run.write_wf]

theorem Run.copy_wf (srcPad dstPad : Bool) (src dst stop i : Nat) :
    Memory.wf (r.copy c srcPad dstPad src dst n stop i).2.2.st.mem = true := by
  unfold Run.copy
  grind [!Run.read_mem, !Run.write_wf, Run.copyPieces_wf]

theorem Run.tileElement_wf (mode : Nat) (hd : BitVec 128) (dst pitch r0 c0 index t : Nat) (pad : Word) :
    Memory.wf (Run.tileElement c mode hd dst pitch r0 c0 n pad index r t).2.st.mem = true := by
  unfold Run.tileElement
  grind [!Run.read_mem, !Run.write_wf]

theorem Run.dequantElement_wf (code : Nat) (tr : Bool) (hd : BitVec 128) (dst pitch page j0 filled t : Nat) (pad : Word) :
    Memory.wf (Run.dequantElement c code tr hd dst pitch page j0 pad filled r t).2.st.mem = true := by
  unfold Run.dequantElement
  extract_lets channels size i ch j at_
  split
  · exact Run.write_wf h _ _ _ _
  split
  · next hx => exact Run.wf_of_snd hx (by simpa using h)
  next r1 hx =>
  have h1 := Run.wf_of_snd hx (by simpa using h)
  split
  · next hy => exact Run.wf_of_snd hy (by simpa using h1)
  next _ r2 hy =>
  have h2 := Run.wf_of_snd hy (by simpa using h1)
  extract_lets
  split
  · exact Run.write_wf h2 _ _ _ _
  split
  · next hz => exact Run.wf_of_snd hz (by simpa using h2)
  next entries r3 hz =>
  have h3 := Run.wf_of_snd hz (by simpa using h2)
  split
  · exact h3
  · exact Run.write_wf h3 _ _ _ _

theorem Run.dequant_wf (code : Nat) (tr : Bool) (hd : BitVec 128) (dst pitch j0 count i : Nat) (page : DWord) (pad : Word) :
    Memory.wf (r.dequant c code tr hd dst pitch page j0 pad count i).2.2.st.mem = true := by
  unfold Run.dequant
  grind [!Run.read_mem, Run.elements_wf, Run.dequantElement_wf]

theorem Run.gatherElement_wf (size index data i : Nat) (base : DWord) :
    Memory.wf (Run.gatherElement c size index base data r i).2.st.mem = true := by
  unfold Run.gatherElement
  grind [!Run.read_mem, !Run.write_wf]

theorem Run.scatter_wf (size index data limit i : Nat) (base : DWord) :
    Memory.wf (r.scatter c size index n base data limit i).2.2.st.mem = true := by
  unfold Run.scatter
  split
  · next hx => exact Run.wf_of_snd hx (by simpa using h)
  next places r1 hx =>
  have h1 := Run.wf_of_snd hx (by simpa using h)
  exact foldl_wf (f := fun (st : State) (x : Nat × Place) => st.putPlace x.2 (st.padBytes c.crew (data + x.1 * size) size))
    (fun _ _ ht => putPlace_wf _ _ _ ht) h1 _

theorem Run.put_wf (bytes : List Byte) (k : Want) : Memory.wf (r.put core ctx va bytes k).2.st.mem = true := by
  unfold Run.put
  split
  · next hx => exact Run.wf_of_snd hx (by simpa using h)
  · next hx => exact putPlace_wf _ _ _ (Run.wf_of_snd hx (by simpa using h))

theorem Run.takeBlocks_wf : Memory.wf (r.takeBlocks core ctx va n).2.st.mem = true := by
  unfold Run.takeBlocks
  split
  · next hx => exact Run.wf_of_snd hx (by simpa using h)
  next pl r1 hx =>
  have h1 := Run.wf_of_snd hx (by simpa using h)
  split
  · exact h1
  split
  · next hy => exact Run.wf_of_snd hy (by simpa using h1)
  next blocks r2 hy =>
  have h2 := Run.wf_of_snd hy (by simpa using h1)
  split
  · next hz => exact Run.wf_of_snd hz (Run.put_wf h2 ..)
  · next hz => exact Run.wf_of_snd hz (Run.put_wf h2 ..)

theorem Run.putBlock_wf (block : Nat) (k : PoolWants) : Memory.wf (r.putBlock core ctx va block k).2.st.mem = true := by
  unfold Run.putBlock
  grind [!Run.pool_mem, !Run.put_wf]

theorem Run.putBack_wf (blocks : List Nat) : Memory.wf (Run.putBack core ctx va blocks r).2.st.mem = true := by
  induction blocks generalizing r with
  | nil => exact h
  | cons b rest ih =>
    unfold Run.putBack
    grind [!Run.putBlock_wf]

theorem Run.fill_wf (bytes : List Byte) : Memory.wf (r.fill core ctx va bytes).2.st.mem = true := by
  unfold Run.fill
  grind [!State.translate_mem, putPlace_wf, Run.moved_mem]

theorem Run.fillPath_wf (blocks : List Nat) (v : Nat) : Memory.wf (Run.fillPath core ctx ch p blocks r v).2.st.mem = true := by
  induction blocks generalizing r v with
  | nil => exact h
  | cons b rest ih =>
    cases rest with
    | nil => exact Run.fill_wf h _ _ _ _
    | cons next rest =>
      unfold Run.fillPath
      grind [!Run.fill_wf]

theorem Run.failedWith_wf (blocks : List Nat) (e : EngineFault) :
    Memory.wf (r.failedWith core ctx va blocks e).2.st.mem = true := by
  unfold Run.failedWith
  grind [!Run.putBack_wf]

theorem Run.takeFilled_wf (j : Nat) : Memory.wf (r.takeFilled core ctx ch p j).2.st.mem = true := by
  unfold Run.takeFilled
  grind [!Run.takeBlocks_wf, !Run.fillPath_wf, !Run.failedWith_wf]

theorem Run.swap_wf (a : Allocation) : Memory.wf (r.swap core ctx a).2.st.mem = true := by
  unfold Run.swap
  grind [!Run.reach_mem, Run.moved_mem, putPlace_wf, State.release_mem]

theorem Run.settle_wf (a : Allocation) : Memory.wf (r.settle core ctx va a).2.st.mem = true := by
  unfold Run.settle
  grind [!Run.swap_wf, !Run.putBack_wf, !Run.failedWith_wf]

theorem Run.allocate_wf (log : List SideEntry) (lane : Nat) : Memory.wf (r.allocate key ctx ch p log lane).2.st.mem = true := by
  unfold Run.allocate
  grind [!Run.walkTree_mem, !Run.takeFilled_wf, Run.elementPlace_mem]

theorem Run.storeElement_wf (repro afresh : Bool) (log : List SideEntry) (lane : Nat) :
    Memory.wf (r.storeElement key ctx repro ch p log lane afresh).2.st.mem = true := by
  unfold Run.storeElement
  grind [!Run.walk_mem, Run.elementPlace_mem, Run.allocate_wf]

theorem ChartStore.lane_wf (x : ChartStore) (repro afresh : Bool) (q : Nat → Coords) (log : List SideEntry) (l : Nat) :
    Memory.wf (x.lane key ctx repro q log afresh r l).2.st.mem = true := by
  unfold ChartStore.lane
  grind [Run.elementPlace_mem, Run.storeElement_wf]

theorem Run.settleStore_wf (x : ChartStore) (a : Allocation) : Memory.wf (r.settleStore core ctx x a p).2.st.mem = true := by
  unfold Run.settleStore State.clbForget
  grind [!Run.settle_wf, State.setCore_mem]

theorem Run.unlink_wf : Memory.wf (r.unlink core ctx va).2.st.mem = true := by
  unfold Run.unlink
  grind [!Run.reach_mem, Run.moved_mem, putPlace_wf]

theorem Run.freeTile_wf : Memory.wf (r.freeTile core ctx ch p).2.st.mem = true := by
  unfold Run.freeTile
  grind [!Run.walkTree_mem, Run.unlink_wf]

end

end Sys2Proof.Machine
end

section
/-!
PROOFS. The instructions that send engine commands and those that use charts keep memory in its canonical form: the first only list a
command, and the second act through a run (04 R98-R111; 17 R345-R362).
-/
namespace Sys2Proof.Machine

/-! ### Engine instructions and how an engine's access ends (04 R98-R111) -/

@[simp] theorem State.stopEngine_mem (s : State) (core ctx gang : Nat) (cls : EngineClass) (t : Trap) (a pc : DWord) (launch : Word)
    (source : Option Nat) : (s.stopEngine core ctx gang cls t a pc launch source).mem = s.mem := by
  simp [State.stopEngine]

@[simp] theorem State.modifyCommand_mem (s : State) (id : Nat) (f : Command → Command) : (s.modifyCommand id f).mem = s.mem := rfl

@[simp] theorem State.engineArrive_mem (s : State) (crew key : Nat) (arrival : Option Nat) :
    (s.engineArrive crew key arrival).mem = s.mem := by
  unfold State.engineArrive
  split
  · extract_lets s1
    have hs1 : s1.mem = s.mem := by simp [s1]
    split <;> exact hs1
  · rfl

@[simp] theorem State.writeNotice_mem (s : State) (key : Nat) (g : Gang) (c : Chain) (n : Notice) :
    (s.writeNotice key g c n).mem = s.mem := by
  simp [State.writeNotice]

section
variable {s : State} (h : Memory.wf s.mem = true)
include h

theorem send_canonical (g : Gang) (cls : EngineClass) (w : Work) (arrival : Option Nat) (bytes : List Extent) :
    CanonicalAfter (s.send g cls w arrival bytes) := by
  unfold State.send
  extract_lets
  split <;> exact h

theorem sendChecked_canonical (g : Gang) (checks : List BlockFault) (cls : EngineClass) (w : Work) (arrival : Option Nat)
    (bytes : List Extent) : CanonicalAfter (s.sendChecked g checks cls w arrival bytes) := by
  unfold State.sendChecked
  split
  · exact h
  · exact send_canonical h _ _ _ _ _

theorem execCrc_canonical (a : BitVec 7) (e : Bool) (n : BitVec 4) (y x : Bool) : CanonicalAfter (execCrc a e n y x s) :=
  gate_canonical h fun g => by
    split
    · trivial
    · exact sendChecked_canonical h _ _ _ _ _ _

theorem tileMove_canonical (mode : Nat) (k : BitVec 4) (a : BitVec 7) (e : Bool) (n : BitVec 4) :
    CanonicalAfter (tileMove s mode k a e n) :=
  gate_canonical h fun g => by
    split
    · trivial
    · exact sendChecked_canonical h _ _ _ _ _ _

theorem execCrtDeq_canonical (t : Bool) (f k : BitVec 4) (a : BitVec 7) (e : Bool) (n : BitVec 4) :
    CanonicalAfter (execCrtDeq t f k a e n s) :=
  gate_canonical h fun g => by
    split
    · trivial
    · exact sendChecked_canonical h _ _ _ _ _ _

theorem lighter_canonical (scatter : Bool) (a : BitVec 7) (e : Bool) (n : BitVec 4) (z : BitVec 2) :
    CanonicalAfter (lighter s scatter a e n z) :=
  gate_canonical h fun g => by
    split
    · trivial
    · exact sendChecked_canonical h _ _ _ _ _ _

theorem execPilStart_canonical (a : BitVec 7) (e : Bool) (n : BitVec 4) : CanonicalAfter (execPilStart a e n s) :=
  gate_canonical h fun g => by
    split
    · trivial
    extract_lets page ring size checks
    split
    · exact h
    clear_value checks
    cases checks with
    | cons => exact h
    | nil =>
      dsimp only
      split <;> exact h

theorem commandFault_wf (c : Command) (e : EngineFault) : Memory.wf (s.commandFault c e).mem = true := by
  unfold State.commandFault
  extract_lets key
  split
  · extract_lets s1
    split
    · exact h
    · exact postFault_wf (by exact h) _ _ _
  · simpa using h
  · exact h

theorem chainFault_wf (key : Nat) (g : Gang) (c : Chain) (n : Notice) (e : EngineFault) :
    Memory.wf (s.chainFault key g c n e).mem = true := by
  unfold State.chainFault
  extract_lets holds
  split
  · extract_lets s1
    split
    · exact h
    · exact postFault_wf (by exact h) _ _ _
  · simpa using h
  · exact h

end

/-! ### Chart instructions (17 R345-R362) -/

section
variable {s : State} (h : Memory.wf s.mem = true)
include h

theorem chartHandle_canonical (g : Gang) (k : Nat) {body : Nat → Result} (hb : ∀ n, CanonicalAfter (body n)) :
    CanonicalAfter (chartHandle s g k body) := by
  unfold chartHandle
  extract_lets
  split
  · exact h
  split
  · exact h
  · exact hb _

theorem reproOr_canonical (g : Gang) (c : Chart) {body : Result} (hb : CanonicalAfter body) :
    CanonicalAfter (reproOr s g c body) := by
  unfold reproOr
  split
  · exact h
  · exact hb

omit h in
theorem Run.failed_canonical {r : Run} (hr : Memory.wf r.st.mem = true) (g : Gang) (lanes : List Nat) (e : EngineFault) :
    CanonicalAfter (r.failed g lanes e) := by
  unfold Run.failed
  split
  · exact holdGang_wf hr _ _ _ _
  · exact hr
  · exact hr

theorem openChart_canonical (g : Gang) (k : Nat) (size : Option Nat) {body : Chart → Run → Result}
    (hb : ∀ c r, Memory.wf r.st.mem = true → CanonicalAfter (body c r)) : CanonicalAfter (openChart s g k size body) := by
  refine chartHandle_canonical h g k fun desc => ?_
  split
  · next hx => exact Run.failed_canonical (Run.wf_of_snd hx (by simpa using h)) _ _ _
  · next hx => exact hb _ _ (Run.wf_of_snd hx (by simpa using h))

theorem execLdc_canonical (d : BitVec 7) (k : BitVec 4) (a : BitVec 7) (z : BitVec 2) : CanonicalAfter (execLdc d k a z s) := by
  unfold execLdc
  extract_lets regs
  refine gate_canonical h fun g => openChart_canonical h _ _ _ fun c r hr => ?_
  extract_lets lanes mask
  split
  · exact hr
  split
  · exact h
  split
  · exact h
  · next hx =>
    have h1 := Run.wf_of_snd hx (Run.lanes_wf (by simp) hr _)
    exact Run.failed_canonical h1 _ _ _
  · next hx =>
    have h1 := Run.wf_of_snd hx (Run.lanes_wf (by simp) hr _)
    exact h1

omit h in
/-- The element writes of an `stc`, in the order in which they take effect. -/
theorem writeElements_wf {r : Run} (hr : Memory.wf r.st.mem = true) (order bad : List (Nat × Nat))
    (place : Nat × Nat → Except AccessFault Place) (core ctx n : Nat) (data : Nat → BitVec 128) :
    Memory.wf (order.foldl (fun (acc : Run) x =>
      match place x with
      | .ok q =>
        if bad.contains x then acc
        else ({ acc with st := acc.st.writePlace q n (data x.1).toNat } : Run).moved core ctx x.2 n
      | .error _ => acc) r).st.mem = true := by
  refine foldlRun_wf (fun t x ht => ?_) hr _
  split
  · split
    · exact ht
    · exact writePlace_wf _ _ _ _ ht
  · exact ht

omit h in
theorem storeChart_canonical {r : Run} (hr : Memory.wf r.st.mem = true) (g : Gang) (c : Chart) (p : Nat → Coords)
    (data : Nat → BitVec 128) (outs : List (Nat × StoreLane)) (trap : Option (Nat × EngineFault)) (mask : BitVec 8) :
    CanonicalAfter (storeChart g c r p data outs trap mask) := by
  unfold storeChart
  extract_lets key core stores order bad r2 s2 logged came loggedOrder entries s3 logCore s4 s5 g1 s6
  have hs2 : Memory.wf s2.mem = true := writeElements_wf hr _ _ _ _ _ _ _
  have hs5 : Memory.wf s5.mem = true := postLanes_wf (s := s4) hs2 _ _ _ _ _
  split
  · exact Run.failed_canonical hs5 _ _ _
  · split <;> exact hs5

omit h in
theorem ChartStore.pause_canonical {r : Run} (hr : Memory.wf r.st.mem = true) (x : ChartStore) (g : Gang) :
    CanonicalAfter (x.pause g r) := hr

theorem stcLanes_canonical {r : Run} (hr : Memory.wf r.st.mem = true) (g : Gang) (x : ChartStore) (p : Nat → Coords)
    (data : Nat → BitVec 128) (afresh : Bool) (ended : Option (Nat × EngineFault)) {again : Result} (ha : CanonicalAfter again) :
    CanonicalAfter (stcLanes s g x r p data afresh ended again) := by
  unfold stcLanes
  extract_lets c lanes mask log before
  split
  next outs early r1 hx =>
  have hr1 : Memory.wf r1.st.mem = true := by
    have hl := Run.lanesTo_wf (f := x.lane s.gang g.ctx (s.isReproducible g) p log afresh)
      (fun _ _ ht => ChartStore.lane_wf ht ..) hr (before (leaders p lanes))
    rw [hx] at hl
    exact hl
  extract_lets waits gang stores
  have hwaits (alone : Bool) : CanonicalAfter (waits alone) := by
    unfold waits
    split
    · exact ha
    split
    · exact hr1
    split <;> exact h
  have hstores (trap : Option (Nat × EngineFault)) : CanonicalAfter (stores trap) := by
    unfold stores
    extract_lets upTo all
    split
    · exact hwaits _
    · exact storeChart_canonical hr1 _ _ _ _ _ _ _
  clear_value waits stores
  split
  · exact hr1
  · exact hwaits _
  · exact hstores _
  · exact hstores _

theorem execStc_canonical (d : BitVec 7) (k : BitVec 4) (a : BitVec 7) (z : BitVec 2) : CanonicalAfter (execStc d k a z s) := by
  unfold execStc
  refine gate_canonical h fun g => ?_
  extract_lets data go
  have hgo {s1 : State} (h1 : Memory.wf s1.mem = true) (g1 : Gang) (x : ChartStore) {r : Run} (hr : Memory.wf r.st.mem = true)
      (ended : Option (Nat × EngineFault)) : CanonicalAfter (go s1 g1 x r ended) :=
    stcLanes_canonical h1 hr _ _ _ _ _ _ h
  split
  · refine openChart_canonical h _ _ _ fun c r hr => ?_
    split
    · exact h
    · exact hgo h _ _ hr _
  split
  · exact hgo h _ _ h _
  split
  · exact h
  next hx =>
  have hr := Run.wf_of_snd hx (Run.settleStore_wf h ..)
  extract_lets chart g1 s1
  exact hgo (s1 := s1) hr g1 _ (r := Run.start s1 g1.stamp) hr _

theorem execChq_canonical (d : BitVec 7) (k : BitVec 4) (a : BitVec 7) : CanonicalAfter (execChq d k a s) := by
  unfold execChq
  extract_lets regs
  refine gate_canonical h fun g => openChart_canonical h _ _ _ fun c r hr => reproOr_canonical hr _ _ ?_
  extract_lets lanes
  split
  · exact hr
  split
  · next hx => exact Run.failed_canonical (Run.wf_of_snd hx (Run.lanes_wf (by simp) hr _)) _ _ _
  · next hx =>
    have hr1 := Run.wf_of_snd hx (Run.lanes_wf (by simp) hr _)
    exact hr1

theorem execChfree_canonical (d : BitVec 7) (k : BitVec 4) (a : BitVec 7) : CanonicalAfter (execChfree d k a s) := by
  unfold execChfree
  extract_lets regs
  refine gate_canonical h fun g => openChart_canonical h _ _ _ fun c r hr => reproOr_canonical hr _ _ ?_
  split
  · next hx => exact Run.failed_canonical (Run.wf_of_snd hx (Run.freeTile_wf hr ..)) _ _ _
  · next hx =>
    have hr1 := Run.wf_of_snd hx (Run.freeTile_wf hr ..)
    exact hr1

theorem invalidateChart_canonical (g : Gang) (k scope : Nat) (tile : Option Coords) :
    CanonicalAfter (invalidateChart s g k scope tile) := by
  refine chartHandle_canonical h _ _ fun desc => ?_
  extract_lets cores clean
  split
  next serial s1 hx =>
  have h1 : Memory.wf s1.mem = true := by
    split at hx <;> cases hx <;> exact h
  split <;> exact h1

end

end Sys2Proof.Machine
end

section
/-!
PROOFS. The instructions of vectors, of the gantry and the completion of commands keep memory in its canonical form: arithmetic and
accumulators leave it alone, and a drain writes through `State.putPlace` (08 R194-R213; 09 R220-R237; 04 R101-R110).
-/
namespace Sys2Proof.Machine

/-! ### Floating-point and vector instructions (08 R194-R213) -/

@[simp] theorem State.collect_mem (s : State) (key : Nat) (g : Gang) (e : TrapEvent) (issued : Nat) :
    (s.collect key g e issued).mem = s.mem := by
  unfold State.collect
  extract_lets
  split <;> rfl

@[simp] theorem State.closeWindow_mem (s : State) (core ctx : Nat) : (s.closeWindow core ctx).mem = s.mem := by
  unfold State.closeWindow
  extract_lets c
  split
  · rfl
  extract_lets s1
  split
  · rfl
  extract_lets s2
  show s2.mem = s.mem
  unfold s2
  split <;> rfl

@[simp] theorem State.countBins_mem (s : State) (core : Nat) (crew : Crew) (table : Nat) (bins : List Nat) :
    (s.countBins core crew table bins).mem = s.mem :=
  foldl_mem (f := fun acc i => acc.padWrite core crew (table + 4 * i) 4 _) (fun _ _ => rfl) s bins

section
variable {s : State} (h : Memory.wf s.mem = true)
include h

theorem finishFloat_canonical (g : Gang) (words : Nat) (lanes : List (Nat × Flags)) :
    CanonicalAfter (s.finishFloat g words lanes) := by
  unfold State.finishFloat
  extract_lets all g1 s1 enabled
  split
  · exact h
  split
  · exact h
  · rw [canonicalAfter_next, State.collect_mem]
    exact h

theorem elementwise_canonical (m : Option Modifier) (d : Nat) (srcs : List Nat) (accept : Nat → Bool) (f : ElementFn) :
    CanonicalAfter (elementwise s m d srcs accept f) := gate_canonical h fun _ => finishFloat_canonical h _ _ _

theorem floatCompare_canonical (d a b : Nat) (strict : Bool) (f : Bool → Int → Bool) :
    CanonicalAfter (floatCompare s d a b strict f) := gate_canonical h fun _ => finishFloat_canonical h _ _ _

theorem cvtWith_canonical (m : Option Modifier) (d a : BitVec 7) (f : BitVec 3) : CanonicalAfter (cvtWith m d a f s) :=
  gate_canonical h fun _ => finishFloat_canonical h _ _ _

theorem convertToInt_canonical (signed : Bool) (d a : Nat) : CanonicalAfter (convertToInt s signed d a) :=
  gate_canonical h fun _ => finishFloat_canonical h _ _ _

theorem convertFromInt_canonical (m : Option Modifier) (signed : Bool) (d a : Nat) :
    CanonicalAfter (convertFromInt m s signed d a) := gate_canonical h fun _ => finishFloat_canonical h _ _ _

theorem execXhist_canonical (a b : BitVec 7) : CanonicalAfter (execXhist a b s) :=
  gate_canonical h fun g => by
    split
    · exact h
    extract_lets
    split
    · exact h
    split
    · exact h
    · rw [← s.countBins_mem] at h
      exact h

theorem dotWith_canonical (m : Option Modifier) (accept : Nat → Bool) (d a b : Nat) : CanonicalAfter (dotWith m accept d a b s) :=
  gate_canonical h fun _ => finishFloat_canonical h _ _ _

theorem shuffle_canonical (d a b : Nat) (source : Nat → Nat → Nat → Nat) : CanonicalAfter (shuffle s d a b source) :=
  gate_canonical h fun _ => h

theorem reduceFloat_canonical (d a : Nat) (f : Nat → Bool → Combine) (empty : Nat → Nat) :
    CanonicalAfter (reduceFloat s d a f empty) := gate_canonical h fun _ => finishFloat_canonical h _ _ _

theorem reduceInt_canonical (d a : Nat) (f : Word → Word → Word) (empty : Word) : CanonicalAfter (reduceInt s d a f empty) :=
  gate_canonical h fun _ => h

theorem execVscanFadd_canonical (d a : BitVec 7) : CanonicalAfter (execVscanFadd d a s) :=
  gate_canonical h fun _ => finishFloat_canonical h _ _ _

theorem scanInt_canonical (d a : Nat) (pick : Word × Word → Word) : CanonicalAfter (scanInt s d a pick) :=
  gate_canonical h fun _ => h

theorem fscaleWith_canonical (m : Option Modifier) (d a b : BitVec 7) : CanonicalAfter (fscaleWith m d a b s) :=
  gate_canonical h fun _ => finishFloat_canonical h _ _ _

theorem execCollectionWindowClose_canonical : CanonicalAfter (execCollectionWindowClose s) := by
  unfold execCollectionWindowClose
  extract_lets core
  split
  · exact h
  split
  · rw [canonicalAfter_next, State.closeWindow_mem]
    exact h
  · exact h

end

/-! ### Gantry instructions (09 R220-R237) -/

@[simp] theorem State.releaseJoint_mem (s : State) (parts : List Arrival) (g : Gang) (latch : Nat) (bytes : List Extent) :
    (s.releaseJoint parts g latch bytes).mem = s.mem := by
  unfold State.releaseJoint
  split
  · rfl
  extract_lets s1 s2
  refine (foldl_mem (fun u x => ?_) s2 _).trans rfl
  split <;> rfl

section
variable {s : State} (h : Memory.wf s.mem = true)
include h

theorem sendGantry_canonical (g : Gang) (acc : Nat) (sets : Bool) (w : Work) (bytes : List Extent) (words : Nat) :
    CanonicalAfter (s.sendGantry g acc sets w bytes words) := by
  unfold State.sendGantry
  split
  · exact h
  · exact h
  · split <;> exact h

theorem sendGantryChecked_canonical (g : Gang) (checks : List BlockFault) (acc : Nat) (sets : Bool) (w : Work)
    (bytes : List Extent) (words : Nat) : CanonicalAfter (s.sendGantryChecked g checks acc sets w bytes words) := by
  unfold State.sendGantryChecked
  split
  · exact h
  · exact sendGantry_canonical h _ _ _ _ _ _

theorem soloJoint_canonical (g : Gang) (c : Crew) (p : Arrival) (w : BitVec 16) : CanonicalAfter (soloJoint s g c p w) := by
  unfold soloJoint
  extract_lets off
  split
  · exact h
  split
  · exact h
  split
  · exact h
  · exact h
  split
  · exact h
  · rw [canonicalAfter_next, State.releaseJoint_mem]
    exact h

theorem convoyJoint_canonical (g : Gang) (c : Crew) (e : Convoy) (p : Arrival) (w : BitVec 16) :
    CanonicalAfter (convoyJoint s g c e p w) := by
  unfold convoyJoint
  extract_lets keys arrivals cleared agrees
  have htrap (t : Trap) (a : DWord) (o : Bool) : CanonicalAfter (.next (cleared.trapArrivals arrivals t a o)) := by
    rw [canonicalAfter_next, State.trapArrivals_mem]
    exact h
  split
  · exact h
  split
  · exact h
  split
  · exact h
  split
  · exact htrap _ _ _
  split
  · exact h
  split
  · exact htrap _ _ _
  split
  · exact htrap _ _ _
  split
  · exact h
  · rw [canonicalAfter_next, State.releaseJoint_mem]
    exact h

theorem jointInstruction_canonical (sparse : Bool) (c : BitVec 2) (k : Bool) (a : BitVec 7) (b : BitVec 6) (l : BitVec 3)
    (m : BitVec 2) : CanonicalAfter (jointInstruction s sparse c k a b l m) :=
  gate_canonical h fun g => by
    split
    · trivial
    extract_lets
    split
    · exact soloJoint_canonical h _ _ _ _
    split
    · exact h
    · exact convoyJoint_canonical h _ _ _ _ _

theorem execAload_canonical (k : BitVec 2) (a : BitVec 7) (p : Bool) : CanonicalAfter (execAload k a p s) :=
  gate_canonical h fun g => by
    split
    · trivial
    extract_lets
    split
    · exact h
    · exact sendGantryChecked_canonical h _ _ _ _ _ _ _

theorem adrainWith_canonical (m : Option Modifier) (k : BitVec 2) (a : BitVec 7) (r z hist p : Bool) :
    CanonicalAfter (adrainWith m k a r z hist p s) :=
  gate_canonical h fun g => by
    split
    · trivial
    extract_lets
    split
    · exact h
    · exact sendGantryChecked_canonical h _ _ _ _ _ _ _

theorem execArowGet_canonical (d : BitVec 7) (k : BitVec 2) (a : BitVec 7) : CanonicalAfter (execArowGet d k a s) :=
  gate_canonical h fun g => by
    split
    split
    · exact h
    · exact sendGantry_canonical h _ _ _ _ _ _

theorem execArowPut_canonical (d : BitVec 7) (k : BitVec 2) (a : BitVec 7) : CanonicalAfter (execArowPut d k a s) :=
  gate_canonical h fun g => by
    split
    split
    · exact h
    · exact sendGantry_canonical h _ _ _ _ _ _

theorem execApeerSend_canonical (k : BitVec 2) (a : BitVec 7) : CanonicalAfter (execApeerSend k a s) :=
  gate_canonical h fun g => by
    extract_lets
    split
    · exact h
    split
    · exact h
    · exact sendGantry_canonical h _ _ _ _ _ _

theorem execApeerRecv_canonical (k : BitVec 2) (a : BitVec 7) : CanonicalAfter (execApeerRecv k a s) :=
  gate_canonical h fun g => by
    extract_lets
    split
    · exact h
    split
    · exact h
    · exact sendGantry_canonical h _ _ _ _ _ _

end

/-! ### What the gantry performs (09 R231-R237) -/

@[simp] theorem State.setBank_mem (s : State) (core ctx : Nat) (b : Bank) : (s.setBank core ctx b).mem = s.mem := rfl

@[simp] theorem State.gantryFlags_mem (s : State) (key : Nat) (trim : Word) (all : Flags) (lanes : Flags → List Nat)
    (address : Flags → DWord) (pc : DWord) : (s.gantryFlags key trim all lanes address pc).mem = s.mem := by
  unfold State.gantryFlags
  split
  · rfl
  extract_lets g1 s1
  have hs1 : s1.mem = s.mem := rfl
  split
  · exact hs1
  · rw [State.collect_mem, hs1]

theorem performJoint_mem {s t : State} {c : Command} {sparse : Bool} {acc : Nat} {keep : Bool} {slot : BitVec 16} {latch : Nat}
    {parts : List Arrival} (ht : s.performJoint c sparse acc keep slot latch parts = .ok t) : t.mem = s.mem := by
  unfold State.performJoint at ht
  extract_lets at ht
  split at ht
  · cases ht
  · cases ht
    exact (foldl_mem (fun u p => by simp) _ parts).trans rfl

/-- A fold beside a value, of an operation that leaves memory alone. -/
theorem foldl_fst_mem {α β : Type} {f : State × β → α → State × β} {p : State × β} {xs : List α} {t : State} {b : β}
    (hx : xs.foldl f p = (t, b)) (hf : ∀ q x, (f q x).1.mem = q.1.mem) : t.mem = p.1.mem := by
  induction xs generalizing p with
  | nil => exact (congrArg (·.1.mem) hx).symm
  | cons x xs ih => exact (ih hx).trans (hf p x)

@[simp] theorem State.rowGet_mem (s : State) (c : Command) (acc d row col : Nat) (lanes : DWord) :
    (s.rowGet c acc d row col lanes).mem = s.mem := by
  unfold State.rowGet
  extract_lets
  split <;> rfl

@[simp] theorem State.rowPut_mem (s : State) (c : Command) (acc row col : Nat) (lanes : DWord) (words : List (List Word)) :
    (s.rowPut c acc row col lanes words).mem = s.mem := rfl

@[simp] theorem State.offerSend_mem (s : State) (c : Command) (acc dest destAcc rows : Nat) :
    (s.offerSend c acc dest destAcc rows).mem = s.mem := by
  unfold State.offerSend
  split
  · rfl
  extract_lets o add s1
  have hadd (u : State) (core : Nat) : (add u core).mem = u.mem := by
    unfold add
    extract_lets
    split <;> rfl
  exact (hadd _ _).trans (hadd _ _)

theorem performRecv_mem {s t : State} {c : Command} {acc rows : Nat} {sends : List Nat} {trim : Word}
    (ht : s.performRecv c acc rows sends trim = .ok t) : t.mem = s.mem := by
  unfold State.performRecv at ht
  extract_lets b offers at ht
  split at ht
  · cases ht
    rfl
  split at ht
  · cases ht
  split at ht
  next s1 _ hx =>
  have hs1 : s1.mem = s.mem := foldl_fst_mem hx fun _ _ => rfl
  extract_lets s2 s3 at ht
  cases ht
  have hs2 : s2.mem = s1.mem := by
    refine (foldl_mem ?_ _ offers).trans rfl
    exact fun _ _ => rfl
  have hs3 : s3.mem = s2.mem := by
    refine foldl_mem ?_ _ sends
    exact fun _ _ => rfl
  rw [State.gantryFlags_mem, hs3, hs2, hs1]

section
variable {r : Run} (c : Command)

@[simp] theorem Run.readRows_mem (pad : Bool) (src pitch count i : Nat) :
    (Run.readRows c pad src pitch count r i).2.st.mem = r.st.mem := by
  induction count generalizing r i with
  | zero => rfl
  | succ count ih =>
    unfold Run.readRows
    grind [!Run.read_mem]

@[simp] theorem Run.loadRows_mem (acc : Nat) (pad : Bool) (src pitch first count : Nat) :
    (r.loadRows c acc pad src pitch first count).2.st.mem = r.st.mem := by
  unfold Run.loadRows State.setBank
  grind [!Run.readRows_mem, State.setCore_mem]

@[simp] theorem Run.resolveRows_mem (dst pitch i : Nat) (rows : List (List Byte)) :
    (Run.resolveRows c dst pitch r i rows).2.st.mem = r.st.mem := by
  induction rows generalizing r i with
  | nil => rfl
  | cons row rest ih =>
    unfold Run.resolveRows
    grind [!Run.resolve_mem]

theorem Run.drain_wf (h : Memory.wf r.st.mem = true) (acc : Nat) (pad hist zero release : Bool) (dst pitch first count table : Nat)
    (key : Word) (slot : BitVec 16) (trim : Word) (m : Option Modifier) (seed : Word) :
    Memory.wf (r.drain c acc pad hist zero release dst pitch first count table key slot trim m seed).2.st.mem = true := by
  unfold Run.drain
  extract_lets b w results rows written
  have hwritten : Memory.wf written.2.st.mem = true := by
    unfold written
    split
    · exact foldl_wf (f := fun st (x : Nat × List Byte) => st.padPut c.crew _ x.2) (fun _ _ ht => by simpa using ht) h _
    split
    · next hx => exact Run.wf_of_snd hx (by simpa using h)
    · next hx => exact putPlaces_wf (Run.wf_of_snd hx (by simpa using h)) _
  clear_value written
  obtain ⟨e | _, r1⟩ := written
  · exact hwritten
  dsimp only at hwritten ⊢
  rw [State.gantryFlags_mem, State.setBank_mem]
  split
  · simpa using hwritten
  · exact hwritten

end

/-! ### Completion (04 R101-R103, R110) -/

/-- An engine performs a command: each kind of work keeps the canonical form. -/
theorem Run.perform_wf {r : Run} (h : Memory.wf r.st.mem = true) (c : Command) (limit : Nat) :
    Memory.wf (r.perform c limit).2.2.2.st.mem = true := by
  unfold Run.perform
  extract_lets upTo elements whole plain
  have hwhole (x : Work.Answer Unit) (hx : Memory.wf x.2.st.mem = true) : Memory.wf (whole x).2.2.2.st.mem = true := by
    unfold whole
    split <;> exact hx
  have hplain (x : Except EngineFault State) (hx : ∀ t, x = .ok t → t.mem = r.st.mem) :
      Memory.wf (plain x).2.2.2.st.mem = true := by
    unfold plain
    split
    · exact h
    · next t => exact (hx t rfl).symm ▸ h
  clear_value whole plain
  split
  case h_1 => exact Run.copy_wf h ..
  case h_2 => exact Run.elements_wf (fun _ _ ht => Run.tileElement_wf ht ..) h _ _
  case h_3 => exact Run.dequant_wf h ..
  case h_4 => exact Run.elements_wf (fun _ _ ht => Run.gatherElement_wf ht ..) h _ _
  case h_5 => exact Run.scatter_wf h ..
  case h_6 => exact hplain _ fun t ht => performJoint_mem ht
  case h_7 => exact hplain _ fun t ht => by cases ht; rfl
  case h_8 => exact hwhole _ (by simpa using h)
  case h_9 => exact hwhole _ (Run.drain_wf _ h ..)
  case h_10 => exact (r.st.offerSend_mem ..).symm ▸ h
  case h_11 => exact hplain _ fun t ht => performRecv_mem ht
  case h_12 => exact hplain _ fun t ht => by cases ht; simp
  case h_13 => exact hplain _ fun t ht => by cases ht; simp

/-- The run that an engine's work leaves. -/
theorem wf_of_perform {r r' : Run} {c : Command} {limit progress : Nat} {done : Bool} {fault : Option EngineFault}
    (hx : r.perform c limit = (progress, done, fault, r')) (h : Memory.wf r.st.mem = true) : Memory.wf r'.st.mem = true := by
  have hp := Run.perform_wf h c limit
  rwa [hx] at hp

@[simp] theorem State.retakeHold_mem (s : State) (c : Command) : (s.retakeHold c).mem = s.mem := by
  unfold State.retakeHold
  split
  · rfl
  · split <;> rfl

@[simp] theorem State.completeCommand_mem (s : State) (c : Command) : (s.completeCommand c).mem = s.mem := by
  unfold State.completeCommand
  extract_lets s1 s2
  rw [State.engineArrive_mem]
  refine (foldl_mem (fun u p => ?_) s1 _).trans rfl
  split <;> rfl

@[simp] theorem State.completeDone_mem (s : State) : (s.completeDone).mem = s.mem := by
  refine foldl_mem (fun u c => ?_) s _
  split
  · simp
  · rfl

@[simp] theorem State.pilotRead_mem (s : State) (key : Nat) (g : Gang) (c : Chain) (n : Notice) :
    (s.pilotRead key g c n).2.mem = s.mem := by
  unfold State.pilotRead
  grind [!Run.pageHeader_mem, Run.start_st]

section
variable {s : State} (h : Memory.wf s.mem = true)
include h

theorem execEngineCommandComplete_canonical : CanonicalAfter (execEngineCommandComplete s) := by
  unfold execEngineCommandComplete
  split
  · exact h
  split
  · exact h
  split
  next hx =>
  have hr := wf_of_perform hx (by
    rw [← s.retakeHold_mem] at h
    exact h)
  split
  · extract_lets s1
    exact commandFault_wf (s := s1) hr _ _
  · rw [canonicalAfter_next, State.completeDone_mem]
    exact hr

theorem execEngineAccessFault_canonical : CanonicalAfter (execEngineAccessFault s) := by
  unfold execEngineAccessFault
  split
  · exact h
  split
  · exact h
  split
  next hx =>
  have hr := wf_of_perform hx h
  split
  · exact h
  · extract_lets s1
    exact commandFault_wf (s := s1) hr _ _

theorem execPilotNotice_canonical : CanonicalAfter (execPilotNotice s) := by
  unfold execPilotNotice
  extract_lets key
  split
  · exact h
  extract_lets g
  split
  · exact h
  split
  · exact h
  split
  · rw [canonicalAfter_next, State.writeNotice_mem]
    exact h
  split
  · next hx => exact chainFault_wf (wf_of_snd hx (s.pilotRead_mem ..) h) _ _ _ _ _
  next s1 hx =>
  have h1 := wf_of_snd hx (s.pilotRead_mem ..) h
  split
  · split
    · exact h1
    · rw [canonicalAfter_next, State.writeNotice_mem]
      exact h1
  · exact h1

end

end Sys2Proof.Machine
end

section
/-!
PROOFS. Crews, side logs and retries keep memory in its canonical form: an entry that a retry performs writes through
`State.performAt`, and a chart store's retry allocates through its pool (07 R186; 13 R303, R304; 16 R331, R332; 17 R354-R357).
-/
namespace Sys2Proof.Machine

/-! ### Crews (07 R186, 11 R253, 13 R303) -/

@[simp] theorem State.giveGranules_mem (s : State) (core ctx n : Nat) (free : List Nat) :
    (s.giveGranules core ctx n free).2.mem = s.mem := by
  induction n generalizing s free with
  | zero => rfl
  | succ n ih =>
    unfold State.giveGranules
    split
    · rfl
    · exact ih _ _

@[simp] theorem State.placeCrew_mem (s : State) (ctx core : Nat) (launch : Launch) (positions : List Nat) :
    (s.placeCrew ctx core launch positions).mem = s.mem := by
  unfold State.placeCrew
  extract_lets r slot keys
  split
  next s1 hx =>
  extract_lets crew s2 s3 c s4
  have h1 : s1.mem = s.mem := by rw [← State.giveGranules_mem s core ctx r.granules (s.freeGranules core), hx]
  have h3 : s3.mem = s2.mem := foldl_mem (f := fun acc g => acc.setGang _ _) (fun _ _ => rfl) s2 _
  rw [State.modifyContext_mem]
  exact h3.trans h1

@[simp] theorem State.releaseCrew_mem (s : State) (key : Nat) (c : Crew) : (s.releaseCrew key c).mem = s.mem := by
  unfold State.releaseCrew
  extract_lets core drop s1 s2
  have h2 : s2.mem = s.mem := by
    unfold s2
    split <;> rfl
  rw [State.modifyContext_mem, h2]

theorem execCrewEnd_canonical {s : State} (h : Memory.wf s.mem = true) : CanonicalAfter (execCrewEnd s) := by
  unfold execCrewEnd
  split
  · exact h
  split
  · rw [canonicalAfter_next, State.releaseCrew_mem]
    exact h
  · exact h

/-! ### Retries (16 R331, R332; 17 R354-R356) -/

@[simp] theorem State.stopEntry_mem (s : State) (core : Nat) (e : SideEntry) (source : Nat) (cause : Trap) (addr : DWord) :
    (s.stopEntry core e source cause addr).mem = s.mem := by
  unfold State.stopEntry
  extract_lets r
  rw [State.modifyContext_mem, State.raiseLine_mem]

@[simp] theorem Run.leave_mem (r : Run) (core : Nat) (e : SideEntry) : (r.leave core e).mem = r.st.mem := rfl

section
variable {r : Run} (h : Memory.wf r.st.mem = true) (core ctx : Nat)
include h

theorem Run.repay_wf (owed : List (Nat × Nat)) : Memory.wf (Run.repay core ctx owed r).2.st.mem = true := by
  induction owed generalizing r with
  | nil => exact h
  | cons b rest ih =>
    unfold Run.repay
    grind [!Run.putBlock_wf]

theorem Run.retryElement_wf (kept : List SideEntry) (e : SideEntry) (c : Chart) (p : Coords) (fuel : Nat) :
    Memory.wf (Run.retryElement core kept e c p fuel r).2.st.mem = true := by
  induction fuel generalizing r with
  | zero => exact h
  | succ fuel ih =>
    have h1 := Run.storeElement_wf h (key := e.gang) (ctx := e.ctx) (ch := c) (p := p) e.repro true kept 0
    unfold Run.retryElement
    split
    next a r1 hx =>
      have h2 := Run.settle_wf (Run.wf_of_snd hx h1) core e.ctx c.pool a
      split
      · exact h
      next hy => exact Run.wf_of_snd hy h2
      next hy => exact ih (Run.wf_of_snd hy h2)
      next hy =>
        have h3 := Run.wf_of_snd hy h2
        rw [Run.elementPlace_mem]
        exact h3
    · exact h1

end

section
variable {s : State} (h : Memory.wf s.mem = true) (core : Nat)
include h

theorem refault_wf (e : SideEntry) (f : AccessFault) : Memory.wf (s.refault core e f).2.mem = true := by
  unfold State.refault
  split
  · exact h
  · exact postFault_wf h _ _ _

theorem performEntry_wf (e : SideEntry) (op : SideOp) (va : Nat) (p : Place) :
    Memory.wf (s.performEntry core e op va p).2.mem = true := by
  unfold State.performEntry
  extract_lets r s1 s2
  split
  · rw [State.stopEntry_mem]
    exact h
  have h1 : Memory.wf s1.mem = true := performAt_wf h _ _ _ _
  split
  · rw [← State.release_mem s1 core] at h1
    exact h1
  · exact h1

theorem retryLoser_wf (e : SideEntry) : Memory.wf (s.retryLoser core e).2.mem = true := by
  unfold State.retryLoser
  split
  · split
    next hx => exact refault_wf (wf_of_snd hx (State.translate_mem ..) h) _ _ _
    next hx => exact wf_of_snd hx (State.translate_mem ..) h
  · exact h

theorem retryChart_wf (kept : List SideEntry) (e : SideEntry) (desc : DWord) (p : Coords) :
    Memory.wf (s.retryChart core kept e desc p).2.mem = true := by
  unfold State.retryChart
  extract_lets stay stop
  have hstay : ∀ (r : Run) f owed, Memory.wf r.st.mem = true → Memory.wf (stay r f owed).2.mem = true :=
    fun r f owed hr => refault_wf (s := r.leave core e) hr core _ f
  have hstop : ∀ (r : Run) cause a source owed, Memory.wf r.st.mem = true →
      Memory.wf (stop r cause a source owed).2.mem = true := fun r cause a source owed hr => by
    unfold stop
    simpa using hr
  clear_value stay stop
  have h0 := Run.repay_wf (r := Run.start s e.stamp) h core e.ctx e.owed
  split
  next hx => exact hstay _ _ _ (Run.wf_of_snd hx h0)
  next hx => exact hstop _ _ _ _ _ (Run.wf_of_snd hx h0)
  · exact h
  next r0 hx =>
  have h1 : Memory.wf (r0.descriptor core e.ctx desc.toNat (some (Nat.log2 e.size))).2.st.mem = true := by
    rw [Run.descriptor_mem]
    exact Run.wf_of_snd hx h0
  split
  next hy => exact hstay _ _ _ (Run.wf_of_snd hy h1)
  next hy => exact hstop _ _ _ _ _ (Run.wf_of_snd hy h1)
  · exact h
  next c r hy =>
  have h2 := Run.retryElement_wf (Run.wf_of_snd hy h1) core kept e c p 6
  split
  next hz => exact hstop _ _ _ _ _ (Run.wf_of_snd hz h2)
  · exact h
  next hz => exact Run.wf_of_snd hz h2
  next hz => exact Run.wf_of_snd hz h2
  next hz => exact Run.wf_of_snd hz h2
  next hz => exact hstay _ _ _ (Run.wf_of_snd hz h2)
  next hz => exact hstay _ _ _ (Run.wf_of_snd hz h2)
  next hz =>
    have h3 := Run.wf_of_snd hz h2
    exact performEntry_wf (by exact h3) _ _ _ _ _

theorem retryEntry_wf (kept : List SideEntry) (e : SideEntry) : Memory.wf (s.retryEntry core kept e).2.mem = true := by
  unfold State.retryEntry
  split
  · exact retryChart_wf h _ _ _ _ _
  split
  · exact h
  split
  next hx => exact refault_wf (wf_of_snd hx (State.translate_mem ..) h) _ _ _
  next hx =>
  extract_lets waits
  split
  · exact h
  · exact performEntry_wf (wf_of_snd hx (State.translate_mem ..) h) _ _ _ _ _

theorem retryEntries_wf (due : SideEntry → Bool) (log kept gone : List SideEntry) :
    Memory.wf (State.retryEntries core due log s kept gone).2.2.mem = true := by
  induction log generalizing s kept gone with
  | nil => exact h
  | cons e rest ih =>
    unfold State.retryEntries
    split
    · exact ih h _ _
    split
    · exact ih (retryLoser_wf h core e) _ _
    extract_lets others
    have h1 := retryEntry_wf h core others e
    split
    next hx => exact ih (wf_of_snd hx rfl h1) _ _
    next hx => exact ih (wf_of_snd hx rfl h1) _ _

end

@[simp] theorem State.uncountItems_mem (s : State) (kept gone : List SideEntry) : (s.uncountItems kept gone).mem = s.mem :=
  foldl_mem (fun t x => by split <;> rfl) s _

section
variable {s : State} (h : Memory.wf s.mem = true)
include h

theorem replayCore_wf (due : SideEntry → Bool) (core : Nat) : Memory.wf (s.replayCore due core).mem = true := by
  unfold State.replayCore
  extract_lets log
  split
  · exact h
  have h1 := retryEntries_wf h core due log [] []
  split
  next hx =>
  rw [hx] at h1
  rw [State.uncountItems_mem]
  exact h1

theorem replay_wf (due : SideEntry → Bool) : Memory.wf (s.replay due).mem = true :=
  foldl_wf (fun _ _ ht => replayCore_wf ht _ _) h _

theorem retry_wf : Memory.wf s.retry.mem = true := replay_wf (s := s.retryHeld) h _

theorem execChfreeRet_canonical (k : BitVec 4) (a : BitVec 7) : CanonicalAfter (execChfreeRet k a s) :=
  gate_canonical h fun g => openChart_canonical h _ _ _ fun c r hr => reproOr_canonical hr _ _ <| by
    extract_lets block
    split
    · exact hr
    have h1 := Run.putBlock_wf hr (coreOf s.gang) g.ctx c.pool block .held
    split
    next hx => exact Run.failed_canonical (Run.wf_of_snd hx h1) _ _ _
    next hx => exact replay_wf (s := State.advance _ _ 1) (Run.wf_of_snd hx h1) _

end
end Sys2Proof.Machine
end

section
/-!
PROOFS. The queues keep memory in its canonical form: the device's writes go through `State.writePlace`, and the append of `lnch`
through `State.putPlace`; readiness, slots and placement leave memory alone but for the records of faults (13 R290-R305, R420).
-/
namespace Sys2Proof.Machine

/-! ### Accesses of queue structures (13 R420) -/

@[simp] theorem State.stopQueue_mem (s : State) (ctx : Nat) (addr : DWord) (machine : Nat) :
    (s.stopQueue ctx addr machine).mem = s.mem := by
  unfold State.stopQueue
  extract_lets r
  split
  · rw [State.modifyContext_mem, State.raiseLine_mem]
  · rfl

@[simp] theorem State.freeQueue_mem (s : State) (id : QueueId) : (s.freeQueue id).mem = s.mem := rfl
@[simp] theorem State.freeAccess_mem (s : State) (id : QueueId) (va : DWord) : (s.freeAccess id va).mem = s.mem := rfl

section
variable {s : State} (h : Memory.wf s.mem = true)
include h

theorem holdQueue_wf (id : QueueId) (va : Nat) (f : AccessFault) : Memory.wf (s.holdQueue id va f).mem = true := by
  unfold State.holdQueue
  extract_lets recorded hold
  split
  · exact h
  · exact postFault_wf (by exact h) _ _ _

theorem queueFault_wf (id : QueueId) (e : DeviceFault) : Memory.wf (s.queueFault id e).mem = true := by
  unfold State.queueFault
  split
  · exact holdQueue_wf h _ _ _
  · rw [State.stopQueue_mem]
    exact h

theorem makeWrites_wf (blocked : List QueueId) (ws : List QueueWrite) : Memory.wf (makeWrites s blocked ws).1.mem = true := by
  induction ws generalizing s blocked with
  | nil => exact h
  | cons w rest ih =>
    unfold makeWrites
    split
    · exact ih h _
    split
    · exact ih (queueFault_wf h _ _) _
    · exact ih (writePlace_wf (s.freeAccess w.queue w.addr) _ _ _ h) _

theorem flushWrites_wf : Memory.wf s.flushWrites.mem = true := by
  unfold State.flushWrites
  split
  · exact h
  · exact makeWrites_wf h _ _

theorem queueWrite_wf (id : QueueId) (va n v : Nat) : Memory.wf (s.queueWrite id va n v).mem = true := by
  unfold State.queueWrite
  exact flushWrites_wf h

theorem writeStatus_wf (id : QueueId) (entry state code : Nat) (ends : Bool) :
    Memory.wf (s.writeStatus id entry state code ends).mem = true := by
  unfold State.writeStatus
  extract_lets s1
  have h1 : Memory.wf s1.mem = true := queueWrite_wf h _ _ _ _
  split
  · exact queueWrite_wf h1 _ _ _ _
  · exact h1

/-! ### Readiness and slots (13 R290-R298) -/

theorem gatherHeads_wf (ids : List QueueId) : Memory.wf (gatherHeads s ids).2.mem = true := by
  induction ids generalizing s with
  | nil => exact h
  | cons id rest ih =>
    unfold gatherHeads
    split
    · exact ih h
    split
    · exact ih (queueFault_wf h _ _)
    · exact ih h
    · exact ih h

/-- The equation of `gatherQueued` makes the kernel evaluate `State.queuedIdents`, and with it a sum with 2 ^ 32 that it counts up to
in unary; so the proof makes that function a variable before it unfolds the recursion. -/
theorem gatherQueued_wf (asked : List Nat) (hs : List Head) : Memory.wf (gatherQueued s asked hs).2.2.2.mem = true := by
  obtain ⟨idents, hi⟩ : ∃ f, f = State.queuedIdents := ⟨_, rfl⟩
  delta gatherQueued gatherQueued._f
  rw [← hi]
  clear hi
  induction hs generalizing s with
  | nil => exact h
  | cons x rest ih =>
    dsimp only [List.brecOn] at ih ⊢
    split
    · exact ih (s := s.freeQueue x.id) h
    split
    · exact ih (queueFault_wf h _ _)
    · exact ih (s := s.freeQueue x.id) h

theorem readyHeads_wf : Memory.wf s.readyHeads.2.mem = true :=
  gatherQueued_wf (gatherHeads_wf h _) _ _

theorem serviceQueues_wf : Memory.wf s.serviceQueues.mem = true := readyHeads_wf (flushWrites_wf h)

end

@[simp] theorem State.mapTo_mem (s : State) (q : QueueId) (n : Nat) : (s.mapTo q n).mem = s.mem := rfl

/-- Mapping a queue to a slot, where there is one, leaves memory alone. -/
theorem mapSlot_mem (s : State) (q : QueueId) (slot : Option Nat) : ((slot.map (s.mapTo q)).getD s).mem = s.mem := by
  cases slot <;> rfl

@[simp] theorem State.mapAgain_mem (s : State) (q : QueueId) : (s.mapAgain q).mem = s.mem := by
  unfold State.mapAgain
  split
  · exact mapSlot_mem s q _
  · rfl

@[simp] theorem State.mapLowest_mem (s : State) (q : QueueId) : (s.mapLowest q).mem = s.mem := by
  unfold State.mapLowest
  split
  · exact mapSlot_mem s q _
  · rfl

@[simp] theorem State.fillSlots_mem (s : State) (again : List QueueId) : (s.fillSlots again).mem = s.mem :=
  (foldl_mem State.mapLowest_mem _ _).trans (foldl_mem State.mapAgain_mem s _)

section
variable {s : State} (h : Memory.wf s.mem = true)
include h

theorem endQueueClock_wf : Memory.wf s.endQueueClock.mem = true := by
  have h1 := serviceQueues_wf h
  rw [← State.fillSlots_mem s.serviceQueues []] at h1
  exact h1

theorem retryAll_wf : Memory.wf s.retryAll.mem = true := serviceQueues_wf (retry_wf h)

theorem execLeaseQuantumBoundary_canonical : CanonicalAfter (execLeaseQuantumBoundary s) := by
  unfold execLeaseQuantumBoundary
  split
  · exact h
  extract_lets s1 mapped
  have h1 : Memory.wf s1.mem = true := serviceQueues_wf (by exact h)
  clear_value s1
  split
  · exact h1
  · rw [canonicalAfter_next, State.fillSlots_mem]
    exact h1

theorem ring_wf (ctx number : Nat) : Memory.wf (s.ring ctx number).mem = true := by
  unfold State.ring
  split
  · exact h
  split
  · exact serviceQueues_wf h
  · exact serviceQueues_wf (by exact h)

/-! ### Acceptance, placement and completion (13 R292-R305) -/

theorem endHead_wf (x : Head) (state code : Nat) : Memory.wf (s.endHead x state code).mem = true := by
  unfold State.endHead
  extract_lets s1
  have h1 : Memory.wf s1.mem = true := writeStatus_wf h _ _ _ _ _
  split
  · exact h1
  · rw [State.modifyContext_mem]
    exact h1

theorem acceptHead_wf (x : Head) (r : LaunchRecord) : Memory.wf (s.acceptHead x r).mem = true := by
  unfold State.acceptHead
  rw [State.modifyContext_mem]
  exact writeStatus_wf h _ _ _ _ _

theorem execLaunchAccept_canonical : CanonicalAfter (execLaunchAccept s) := by
  unfold execLaunchAccept
  split
  · exact h
  have h1 := readyHeads_wf h
  split
  next s1 hx =>
  rw [hx] at h1
  split
  · split
    · exact h
    extract_lets x s2
    have h2 : Memory.wf s2.mem = true := queueWrite_wf h1 _ _ _ _
    clear_value s2
    split
    · exact serviceQueues_wf (endHead_wf h2 _ _ _)
    · exact serviceQueues_wf (endHead_wf h2 _ _ _)
    · exact serviceQueues_wf (acceptHead_wf h2 _ _)
    · exact h
  · exact h

theorem placeChoice_wf (x : Choice) : Memory.wf (s.placeChoice x).mem = true := by
  unfold State.placeChoice
  extract_lets s1
  have h1 : Memory.wf s1.mem = true := by
    unfold s1
    rw [State.placeCrew_mem]
    exact h
  split
  · exact queueWrite_wf h1 _ _ _ _
  · exact h1

theorem execCrewPlace_canonical : CanonicalAfter (execCrewPlace s) := by
  unfold execCrewPlace
  split
  · exact h
  · exact foldl_wf (f := fun acc x => acc.placeChoice x) (fun _ _ ht => placeChoice_wf ht _) (by exact h) _

theorem execLaunchComplete_canonical : CanonicalAfter (execLaunchComplete s) := by
  unfold execLaunchComplete
  extract_lets ctx
  split
  · exact h
  split
  · exact h
  split
  · exact h
  · exact serviceQueues_wf (writeStatus_wf (by exact h) _ _ _ _ _)

/-! ### `lnch` (13 R300) -/

omit h in
theorem Run.append_wf {r : Run} (h : Memory.wf r.st.mem = true) (core ctx : Nat) (c : Context) (q address : Nat) :
    Memory.wf (r.append core ctx c q address).2.st.mem = true := by
  unfold Run.append
  extract_lets va
  split
  next hx => exact Run.wf_of_snd hx (by simpa using h)
  next r1 hx =>
  have h1 : Memory.wf r1.st.mem = true := Run.wf_of_snd hx (by simpa using h)
  split
  · exact h1
  split
  · exact h1
  split
  next hy => exact Run.wf_of_snd hy (by simpa using h1)
  next r2 hy =>
  have h2 : Memory.wf r2.st.mem = true := Run.wf_of_snd hy (by simpa using h1)
  split
  next hz => exact Run.wf_of_snd hz (by simpa using h2)
  next r3 hz =>
  have h3 : Memory.wf r3.st.mem = true := Run.wf_of_snd hz (by simpa using h2)
  exact writePlace_wf _ _ _ _ (putPlaces_wf h3 _)

theorem execLnch_canonical (d a b : BitVec 7) : CanonicalAfter (execLnch d a b s) := by
  unfold execLnch
  refine gate_canonical h fun g => ?_
  split
  · trivial
  extract_lets rec q
  split
  · exact h
  split
  · exact h
  split
  · exact h
  split
  · exact h
  have h1 := Run.append_wf (r := Run.start s g.stamp) h (coreOf s.gang) g.ctx
  split
  next hx => exact Run.failed_canonical (Run.wf_of_snd hx (h1 _ _ _)) _ _ _
  next r hx =>
  extract_lets x s1
  have hr : Memory.wf r.st.mem = true := Run.wf_of_snd hx (h1 _ _ _)
  have hs : Memory.wf s1.mem = true := by
    unfold s1
    rw [State.release_mem]
    exact hr
  clear_value s1
  split
  next s2 g2 hy =>
  extract_lets s3
  have h3 : Memory.wf s3.mem = true := by
    unfold s3
    rw [State.advance_mem, show s2.mem = s1.mem from (congrArg (·.1.mem) hy).symm]
    exact hs
  split
  · exact ring_wf h3 _ _
  · exact h3

end
end Sys2Proof.Machine
end

section
/-!
PROOFS. The harts' instructions and halts keep memory in its canonical form: what a context instruction answers changes memory only
through retries, statuses of launches and notices (16 R335-R344; 19 R366-R380).
-/
namespace Sys2Proof.Machine

/-- The state that a context instruction's operation leaves, if it answers no status, has its memory in canonical form. -/
def CanonicalAnswer (a : Answer) : Prop :=
  match a with
  | .ok (_, t) => Memory.wf t.mem = true
  | .error _ => True

theorem canonicalAnswer_error (x : Status) : CanonicalAnswer (.error x) := trivial

theorem canonicalAnswer_ok {v : DWord} {t : State} (ht : Memory.wf t.mem = true) : CanonicalAnswer (.ok (v, t)) := ht

section
variable {s : State} (h : Memory.wf s.mem = true)
include h

theorem answers_canonical (d : BitVec 5) {a : Answer} (ha : CanonicalAnswer a) : CanonicalAfter (s.answers d a) := by
  obtain ⟨x, -, h1⟩ | ⟨v, t, h1, h2⟩ := answers_next s d a
  · exact h1 ▸ h
  · subst h1
    exact h2 ▸ ha

theorem answers_error_canonical (d : BitVec 5) (x : Status) : CanonicalAfter (s.answers d (.error x)) :=
  answers_canonical h d (canonicalAnswer_error x)

theorem withBlock_canonical (ctx : Nat) (d : BitVec 5) (a : DWord) (n : Nat) {body : List Byte → Answer}
    (hb : ∀ b, CanonicalAnswer (body b)) : CanonicalAfter (withBlock s ctx d a n body) := by
  obtain h1 | ⟨e, h1⟩ | ⟨b, -, h1⟩ := withBlock_cases s ctx d a n body
  · exact h1 ▸ h
  · exact h1 ▸ h
  · exact h1 ▸ answers_canonical h d (hb b)

theorem contextGate_canonical {body : Hart → Nat → Result} (hb : ∀ x n, CanonicalAfter (body x n)) :
    CanonicalAfter (contextGate s body) := by
  obtain h1 | h1 | ⟨-, h1⟩ | ⟨-, h1⟩ := contextGate_cases s body
  · exact h1 ▸ trivial
  · exact h1 ▸ h
  · exact h1 ▸ h
  · exact h1 ▸ hb _ _

/-! ### Creation, scope and budget (16 R336-R343) -/

theorem newContext_canonical (parent : Nat) (p : Context) (b : List Byte) : CanonicalAnswer (s.newContext parent p b) := by
  unfold State.newContext
  extract_lets frames
  split
  · exact canonicalAnswer_error _
  split
  · exact canonicalAnswer_error _
  split
  · exact canonicalAnswer_error _
  split
  · exact canonicalAnswer_error _
  · exact canonicalAnswer_ok h

theorem configureRoot_canonical (b : List Byte) : CanonicalAnswer (s.configureRoot b) := by
  unfold State.configureRoot
  extract_lets queues table ring entries
  split
  · exact canonicalAnswer_error _
  split
  · exact canonicalAnswer_error _
  split
  · exact canonicalAnswer_error _
  · exact canonicalAnswer_ok h

theorem contextNew_canonical (p b d : BitVec 5) : CanonicalAfter (contextNew s p b d) :=
  contextGate_canonical h fun x caller => by
    extract_lets r
    split
    · split
      · exact withBlock_canonical h _ _ _ _ fun _ => configureRoot_canonical h _
      · exact h
    split
    · exact answers_error_canonical h _ _
    split
    · exact answers_error_canonical h _ _
    split
    · exact withBlock_canonical h _ _ _ _ fun _ => newContext_canonical h _ _ _
    · exact answers_error_canonical h _ _

theorem setScope_canonical (n : Nat) (c : Context) (x : DWord) : CanonicalAnswer (s.setScope n c x) := by
  unfold State.setScope
  extract_lets held
  split
  · exact canonicalAnswer_error _
  split
  · exact canonicalAnswer_error _
  · exact canonicalAnswer_ok h

theorem execCtxScope_canonical (r c d : BitVec 5) : CanonicalAfter (execCtxScope r c d s) :=
  contextGate_canonical h fun _ _ => by
    split
    · exact answers_error_canonical h _ _
    · exact answers_canonical h d (setScope_canonical h _ _ _)

theorem setBudget_canonical (n : Nat) (c : Context) (b : List Byte) : CanonicalAnswer (s.setBudget n c b) := by
  unfold State.setBudget
  extract_lets time energy mode owner
  split
  · exact canonicalAnswer_error _
  split
  · exact canonicalAnswer_error _
  split
  · exact canonicalAnswer_error _
  · exact canonicalAnswer_error _
  · exact canonicalAnswer_ok h

theorem execCtxBudget_canonical (b c d : BitVec 5) : CanonicalAfter (execCtxBudget b c d s) :=
  contextGate_canonical h fun _ _ => by
    split
    · exact answers_error_canonical h _ _
    · exact withBlock_canonical h _ _ _ _ fun _ => setBudget_canonical h _ _ _

omit h in
@[simp] theorem State.draw_mem (s : State) (ctx clocks femtojoules : Nat) : (s.draw ctx clocks femtojoules).mem = s.mem := by
  unfold State.draw
  extract_lets owner
  split
  · rfl
  · rw [State.modifyContext_mem]

/-! ### Halts requested, invalidation and fences (16 R327, R328, R340) -/

theorem raiseLine_wf (n : Nat) (t : Trap) : Memory.wf (s.raiseLine n t).mem = true := by
  rw [State.raiseLine_mem]
  exact h

theorem haltContext_canonical (n : Nat) (c : Context) (mode : DWord) : CanonicalAnswer (s.haltContext n c mode) := by
  unfold State.haltContext
  split
  · exact canonicalAnswer_ok h
  split
  · exact canonicalAnswer_error _
  split
  · split
    · exact canonicalAnswer_ok (serviceQueues_wf (by exact h))
    · exact canonicalAnswer_ok (serviceQueues_wf (raiseLine_wf h _ _))
  · split
    · exact canonicalAnswer_ok h
    · exact canonicalAnswer_ok (raiseLine_wf h _ _)
  · exact canonicalAnswer_error _

theorem contextHalt_canonical (m c d : BitVec 5) : CanonicalAfter (contextHalt s m c d) :=
  contextGate_canonical h fun _ _ => by
    split
    · exact answers_error_canonical h _ _
    · exact answers_canonical h d (haltContext_canonical h _ _ _)

theorem invalidate_canonical (a c : BitVec 5) : CanonicalAfter (invalidate s a c) :=
  contextGate_canonical h fun x caller => by
    extract_lets r range n frames base s1 s2 h2
    split
    · exact h
    have h1 : s1.mem = s.mem := by
      unfold s1
      split <;> rfl
    rw [← h1] at h
    exact h

theorem execTlbfence_canonical : CanonicalAfter (execTlbfence s) := contextGate_canonical h fun _ _ => h

theorem execTlbfenceRetire_canonical : CanonicalAfter (execTlbfenceRetire s) := by
  unfold execTlbfenceRetire
  extract_lets x
  split
  · exact h
  split
  · exact h
  · exact retryAll_wf (by exact h)

/-! ### Grants and the issue of revocations (16 R338, R344) -/

theorem grant_canonical (n : Nat) (c : Context) (b : List Byte) : CanonicalAnswer (s.grant n c b) := by
  unfold State.grant
  split
  · exact canonicalAnswer_error _
  · exact canonicalAnswer_error _
  split
  · exact canonicalAnswer_error _
  split
  · split
    · exact canonicalAnswer_error _
    · extract_lets s1 s2
      have h2 : s2.mem = s.mem := by
        unfold s2
        split <;> rfl
      rw [← h2] at h
      exact canonicalAnswer_ok (retryAll_wf h)
  · split
    · exact canonicalAnswer_error _
    · exact canonicalAnswer_ok (retryAll_wf (by exact h))

theorem execCtxGrant_canonical (b c d : BitVec 5) : CanonicalAfter (execCtxGrant b c d s) :=
  contextGate_canonical h fun _ _ => by
    split
    · exact answers_error_canonical h _ _
    · exact withBlock_canonical h _ _ _ _ fun _ => grant_canonical h _ _ _

theorem revokeMemory_canonical (n : Nat) (c : Context) (x : ResourceBlock) : CanonicalAnswer (s.revokeMemory n c x) := by
  unfold State.revokeMemory
  split
  · exact canonicalAnswer_error _
  extract_lets entries s1
  split
  · exact canonicalAnswer_error _
  · exact canonicalAnswer_ok h

omit h in
@[simp] theorem State.beginRevocation_mem (s : State) (n : Nat) (c : Context) (x : ResourceBlock) (scrub : List Nat) :
    (s.beginRevocation n c x scrub).mem = s.mem := rfl

omit h in
@[simp] theorem State.forceAll_mem (s : State) (ns : List Nat) : (s.forceAll ns).mem = s.mem :=
  foldl_mem (fun _ _ => State.raiseLine_mem ..) s ns

theorem revokeWhole_wf (n : Nat) : Memory.wf (s.revokeWhole n).mem = true := by
  unfold State.revokeWhole
  extract_lets s1
  split
  · exact h
  extract_lets old
  have h1 : Memory.wf s1.mem = true := raiseLine_wf h _ _
  exact serviceQueues_wf (by exact h1)

theorem revokeCold_canonical (n : Nat) (c : Context) (x : ResourceBlock) : CanonicalAnswer (s.revokeCold n c x) := by
  unfold State.revokeCold
  split
  · exact canonicalAnswer_error _
  split
  · exact canonicalAnswer_error _
  split
  · exact canonicalAnswer_error _
  split
  · split
    · exact canonicalAnswer_error _
    · exact canonicalAnswer_ok h
  · split
    · exact canonicalAnswer_error _
    · exact canonicalAnswer_ok h

theorem revoke_canonical (n : Nat) (c : Context) (b : List Byte) : CanonicalAnswer (s.revoke n c b) := by
  unfold State.revoke
  split
  · exact canonicalAnswer_error _
  · exact canonicalAnswer_error _
  split
  · split
    · exact canonicalAnswer_error _
    split
    · exact canonicalAnswer_error _
    · exact canonicalAnswer_ok (revokeWhole_wf h n)
  split
  · exact canonicalAnswer_error _
  split
  · exact revokeMemory_canonical h _ _ _
  split
  · extract_lets cores s1
    split
    · exact canonicalAnswer_error _
    split
    · exact canonicalAnswer_error _
    · refine canonicalAnswer_ok (serviceQueues_wf (raiseLine_wf ?_ _ _))
      unfold s1
      rw [State.modifyContext_mem]
      exact h
  split
  · exact revokeCold_canonical h _ _ _
  split
  · split
    · exact canonicalAnswer_error _
    split
    · exact canonicalAnswer_error _
    · exact canonicalAnswer_ok h
  split
  · exact canonicalAnswer_error _
  extract_lets holders
  split
  · exact canonicalAnswer_error _
  · refine canonicalAnswer_ok (serviceQueues_wf ?_)
    rw [State.forceAll_mem]
    exact h

theorem contextRevoke_canonical (b c d : BitVec 5) : CanonicalAfter (contextRevoke s b c d) :=
  contextGate_canonical h fun _ _ => by
    split
    · exact answers_error_canonical h _ _
    · exact withBlock_canonical h _ _ _ _ fun _ => revoke_canonical h _ _ _

/-! ### The end of a halt, kills and budget halts (19 R371-R380; 16 R342) -/

theorem postNotice_wf (ctx : Nat) (r : FaultRecord) : Memory.wf (s.postNotice ctx r).mem = true := by
  unfold State.postNotice
  split
  · exact h
  split
  · exact h
  · exact postRecord_wf _ _ _ _ h

omit h in
@[simp] theorem State.clearCores_mem (s : State) (n : Nat) : (s.clearCores n).mem = s.mem := rfl

omit h in
@[simp] theorem State.closeWindows_mem (s : State) (n : Nat) : (s.closeWindows n).mem = s.mem :=
  foldl_mem (fun _ _ => State.closeWindow_mem ..) s _

/-- The statuses of a list of launches, written one after another. -/
theorem writeStatuses_wf (n state code : Nat) (ends : Bool) (ls : List Launch) :
    Memory.wf (ls.foldl (fun acc l => acc.writeStatus ⟨n, l.queue⟩ l.entryAddr.toNat state code ends) s).mem = true :=
  foldl_wf (f := fun acc (l : Launch) => acc.writeStatus ⟨n, l.queue⟩ l.entryAddr.toNat state code ends)
    (fun _ _ ht => writeStatus_wf ht _ _ _ _ _) h ls

theorem stopLaunches_wf (n : Nat) (c : Context) (cause : Trap) : Memory.wf (s.stopLaunches n c cause).mem = true := by
  unfold State.stopLaunches
  split
  · exact h
  extract_lets unfinished s1
  rw [State.modifyContext_mem]
  exact writeStatuses_wf h _ _ _ _ _

theorem killLaunches_wf (n : Nat) (c : Context) : Memory.wf (s.killLaunches n c).mem = true := by
  unfold State.killLaunches
  extract_lets failed s1
  rw [State.modifyContext_mem]
  exact writeStatuses_wf h _ _ _ _ _

theorem completeHalt_wf (n : Nat) (x : Halt) : Memory.wf (s.completeHalt n x).mem = true := by
  unfold State.completeHalt
  extract_lets s0
  split
  · exact h
  next c _ =>
  extract_lets raised origin cause gangs events records saved halted s1 s2
  have h1 : Memory.wf s1.mem = true := by
    refine stopLaunches_wf ?_ _ _ _
    rw [State.setContext_mem, State.clearCores_mem, State.closeWindows_mem]
    exact h
  have h2 : Memory.wf s2.mem = true := by
    unfold s2
    clear_value s1 origin
    split
    · exact h1
    · exact postNotice_wf h1 _ _
  exact serviceQueues_wf h2

theorem discard_wf (n : Nat) : Memory.wf (s.discard n).mem = true := by
  unfold State.discard
  split
  · exact h
  extract_lets forget
  rw [State.modifyContext_mem]
  exact killLaunches_wf (s := s.clearCores n) h _ _

theorem kill_wf (n : Nat) (cause : Trap) : Memory.wf (s.kill n cause).mem = true := by
  unfold State.kill
  extract_lets s1
  have h1 : Memory.wf s1.mem = true := foldl_wf (f := fun acc m => acc.discard m) (fun _ _ ht => discard_wf ht _) h _
  exact serviceQueues_wf (postNotice_wf h1 _ _)

theorem execHaltComplete_canonical : CanonicalAfter (execHaltComplete s) := by
  unfold execHaltComplete
  extract_lets n
  split
  · exact h
  split
  · exact completeHalt_wf h _ _
  · exact h

theorem execGraceTimerExpiry_canonical : CanonicalAfter (execGraceTimerExpiry s) := by
  unfold execGraceTimerExpiry
  extract_lets n
  split
  · exact h
  split
  · exact raiseLine_wf h _ _
  · exact h

theorem execKillTimerExpiry_canonical : CanonicalAfter (execKillTimerExpiry s) := by
  unfold execKillTimerExpiry
  extract_lets n
  split
  · exact h
  split
  · exact kill_wf h _ _
  · exact h

theorem execBudgetExhausted_canonical : CanonicalAfter (execBudgetExhausted s) := by
  unfold execBudgetExhausted
  extract_lets n
  split
  · exact h
  extract_lets s1 drawing s2
  split
  · exact h
  have h2 : Memory.wf s2.mem = true :=
    foldl_wf (f := fun acc m => acc.raiseLine m .budgetExhausted) (fun _ _ ht => raiseLine_wf ht _ _) (by exact h) _
  exact serviceQueues_wf (postNotice_wf h2 _ _)

end
end Sys2Proof.Machine
end

section
/-!
PROOFS. Restores, the ends of revocations, pulls, the device's life and what the world outside does keep memory in its canonical form:
frames are scrubbed and filled, images fetched and DMA written by operations that keep it (16 R340, R344; 19 R388-R396, R421; 21
R400-R407).
-/
namespace Sys2Proof.Machine

/-! ### Restores (19 R388-R390) -/

@[simp] theorem State.loadCrew_mem (s : State) (ctx core : Nat) (gangs : Nat → Nat) (e : Nat × Crew × Cells 8) :
    (s.loadCrew ctx core gangs e).2.mem = s.mem := by
  unfold State.loadCrew
  extract_lets slot crew
  split
  next hx =>
  exact (congrArg (·.2.mem) hx).symm.trans (State.giveGranules_mem ..)

@[simp] theorem State.loadCrews_mem (s : State) (ctx core : Nat) (gangs : Nat → Nat) (es : List (Nat × Crew × Cells 8)) :
    (s.loadCrews ctx core gangs es).2.mem = s.mem := by
  induction es generalizing s with
  | nil => rfl
  | cons e rest ih => exact (ih _).trans (State.loadCrew_mem ..)

@[simp] theorem State.loadCore_mem (s : State) (ctx core : Nat) (x : SavedCore) (positions : List Nat) :
    (s.loadCore ctx core x positions).2.mem = s.mem := by
  unfold State.loadCore
  extract_lets base gangPairs
  split
  next hx =>
  extract_lets crewPairs m s2 c banks
  have h2 : s2.mem = _ := foldl_mem (f := fun acc (e : Nat × Gang) => acc.setGang _ _) (fun _ _ => rfl) _ _
  exact h2.trans ((congrArg (·.2.mem) hx).symm.trans (State.loadCrews_mem ..))

theorem loadCores_mem {s t : State} {n : Nat} {cores : List Nat} {commands : List Command} {xs : List SavedCore}
    (ht : s.loadCores n cores commands xs = some t) : t.mem = s.mem := by
  induction xs generalizing s with
  | nil =>
    cases ht
    rfl
  | cons x rest ih =>
    unfold State.loadCores at ht
    split at ht
    · cases ht
    split at ht
    · cases ht
    split at ht
    · cases ht
    exact (ih ht).trans (State.loadCore_mem ..)

section
variable {s : State} (h : Memory.wf s.mem = true)
include h

theorem resumeLaunches_wf (n : Nat) (c : Context) : Memory.wf (s.resumeLaunches n c).mem = true := by
  unfold State.resumeLaunches
  extract_lets s1
  rw [State.modifyContext_mem]
  exact writeStatuses_wf h _ _ _ _ _

theorem restoreOne_wf {t : State} {n : Nat} (ht : s.restoreOne n = some t) : Memory.wf t.mem = true := by
  unfold State.restoreOne at ht
  split at ht
  · cases ht
  split at ht
  · cases ht
    exact h
  split at ht
  · cases ht
  obtain ⟨s1, h1, rfl⟩ := Option.map_eq_some_iff.mp ht
  refine resumeLaunches_wf ?_ _ _
  rw [State.modifyContext_mem, loadCores_mem h1]
  exact h

theorem restoreAll_wf {t : State} {ns : List Nat} (ht : s.restoreAll ns = some t) : Memory.wf t.mem = true := by
  induction ns generalizing s with
  | nil =>
    cases ht
    exact h
  | cons n rest ih =>
    unfold State.restoreAll at ht
    split at ht
    · cases ht
    next h1 => exact ih (restoreOne_wf h h1) ht

theorem resume_wf (n : Nat) : Memory.wf (s.resume n).mem = true := by
  unfold State.resume
  split
  next h1 => exact retryAll_wf (restoreAll_wf h h1)
  · exact postNotice_wf h _ _

theorem goContext_canonical (n : Nat) (c : Context) : CanonicalAnswer (s.goContext n c) := by
  unfold State.goContext
  split
  · exact canonicalAnswer_error _
  split
  · exact canonicalAnswer_error _
  split
  · exact canonicalAnswer_ok (serviceQueues_wf (by exact h))
  · exact canonicalAnswer_ok (resume_wf h _)
  · exact canonicalAnswer_error _

theorem execCtxGo_canonical (c d : BitVec 5) : CanonicalAfter (execCtxGo c d s) :=
  contextGate_canonical h fun _ _ => by
    split
    · exact answers_error_canonical h _ _
    · exact answers_canonical h _ (goContext_canonical h _ _)

/-! ### The ends of revocations (16 R344; 19 R391) -/

theorem endRevocation_wf (n actor : Nat) : Memory.wf (s.endRevocation n actor).mem = true :=
  retryAll_wf (postRecord_wf _ _ _ _ h)

omit h in
@[simp] theorem State.clearRevocation_mem (s : State) (n : Nat) : (s.clearRevocation n).mem = s.mem :=
  State.modifyContext_mem ..

omit h in
@[simp] theorem State.returnUnits_mem (s : State) (n time energy : Nat) : (s.returnUnits n time energy).mem = s.mem := by
  unfold State.returnUnits
  extract_lets add owner
  split
  · rfl
  · rw [State.modifyContext_mem]

omit h in
@[simp] theorem State.removeContexts_mem (s : State) (ns : List Nat) (actor : Nat) : (s.removeContexts ns actor).mem = s.mem :=
  rfl

theorem endWhole_wf (n : Nat) (c : Context) (r : Revocation) : Memory.wf (s.endWhole n c r).mem = true := by
  unfold State.endWhole
  extract_lets ns all valid frames give time energy s1
  refine endRevocation_wf ?_ _ _
  rw [State.returnUnits_mem, State.removeContexts_mem]
  unfold s1
  rw [State.modifyContext_mem]
  exact scrubFrames_wf _ _ h

omit h in
@[simp] theorem State.returnMoved_mem (s : State) (n : Nat) (r : Revocation) : (s.returnMoved n r).mem = s.mem := by
  unfold State.returnMoved
  extract_lets
  rw [State.modifyContext_mem]

theorem pageOut_wf (n : Nat) (c : Context) (r : Revocation) : Memory.wf (s.pageOut n c r).mem = true :=
  scrubFrames_wf _ _ (by exact h)

theorem execRevocationEnd_canonical : CanonicalAfter (execRevocationEnd s) := by
  unfold execRevocationEnd
  extract_lets n
  split
  · exact h
  split
  · exact h
  next r _ =>
  have hcleared : ∀ t : State, Memory.wf t.mem = true → Memory.wf ((t.clearRevocation n).endRevocation n r.actor).mem = true :=
    fun t ht => endRevocation_wf (by rw [State.clearRevocation_mem]; exact ht) _ _
  split
  · exact h
  split
  · exact hcleared _ (scrubFrames_wf _ _ h)
  split
  · exact h
  split
  · exact hcleared _ h
  split
  · exact hcleared _ h
  split
  · exact endRevocation_wf (pageOut_wf h _ _ _) _ _
  split
  · exact endWhole_wf h _ _ _
  · refine hcleared _ ?_
    rw [State.returnMoved_mem]
    exact h

/-! ### Cold contexts and records that wait (19 R393, R394, R421) -/

theorem warm_wf (n : Nat) (c : Context) : Memory.wf (s.warm n c).mem = true := by
  unfold State.warm
  extract_lets refused
  have hr : Memory.wf refused.mem = true := postNotice_wf h _ _
  clear_value refused
  split
  · exact hr
  extract_lets area saved s1
  split
  · exact hr
  split
  · exact resume_wf (s := s1) h _
  · rw [State.modifyContext_mem]
    exact h

theorem doorbell_wf (n : Nat) (c : Context) (queue : Nat) : Memory.wf (s.doorbell n c queue).mem = true := by
  unfold State.doorbell
  extract_lets s1
  refine ring_wf ?_ _ _
  unfold s1
  split
  · exact warm_wf h _ _
  · exact h

theorem execDoorbell_canonical : CanonicalAfter (execDoorbell s) := by
  unfold execDoorbell
  extract_lets n
  split
  · exact h
  rw [canonicalAfter_next]
  split
  · exact doorbell_wf h _ _ _
  · exact h

theorem pullFails_wf (n : Nat) (c : Context) : Memory.wf (s.pullFails n c).mem = true := by
  unfold State.pullFails
  extract_lets port s1 r
  split
  · refine postNotice_wf (revokeWhole_wf ?_ n) _ _
    rw [State.modifyContext_mem]
    exact h
  · rw [State.modifyContext_mem]
    exact raiseLine_wf h _ _

theorem execFramePull_canonical : CanonicalAfter (execFramePull s) := by
  unfold execFramePull
  extract_lets n f
  split
  · exact h
  extract_lets
  split
  · exact h
  split
  · refine retryAll_wf ?_
    rw [State.modifyContext_mem]
    exact putFrame_wf _ _ _ h
  · exact pullFails_wf h _ _
  · exact h

theorem execRetryTimer_canonical : CanonicalAfter (execRetryTimer s) := by
  unfold execRetryTimer
  split
  · exact h
  · exact retryAll_wf (by exact h)

theorem writePending_wf (full : List Nat) (ps : List PendingRecord) : Memory.wf (writePending s full ps).1.mem = true := by
  induction ps generalizing s full with
  | nil => exact h
  | cons p rest ih =>
    unfold writePending
    extract_lets ring r wait
    split
    · exact ih h _
    split
    · exact ih h _
    next hw => exact ih (ringWrite_wf _ _ _ _ h hw) _

theorem execPendingRecordWrite_canonical : CanonicalAfter (execPendingRecordWrite s) := by
  unfold execPendingRecordWrite
  exact writePending_wf (by exact h) _ _

theorem execPatrolScrub_canonical : CanonicalAfter (execPatrolScrub s) :=
  foldl_wf (fun _ _ ht => postRecord_wf _ _ _ _ ht) h _

theorem execEpochMarker_canonical : CanonicalAfter (execEpochMarker s) := by
  unfold execEpochMarker
  split
  · exact h
  split <;> exact h

theorem execQuayLinkWrite_canonical : CanonicalAfter (execQuayLinkWrite s) := by
  unfold execQuayLinkWrite
  rw [canonicalAfter_next]
  split
  · exact outsideWrite_wf _ _ _ h
  · exact h

/-! ### The device's life (21 R400-R407) -/

theorem failStart_wf (reason : Nat) : Memory.wf (s.failStart reason).mem = true := restart_wf _ _ _ h

theorem execDeviceReset_canonical : CanonicalAfter (execDeviceReset s) := by
  unfold execDeviceReset
  extract_lets s1
  split <;> exact h

omit h in
@[simp] theorem State.startRoot_mem (s : State) (image : Nat) (table : List StageEntry) : (s.startRoot image table).mem = s.mem := by
  unfold State.startRoot
  split <;> rfl

theorem execImageFetched_canonical : CanonicalAfter (execImageFetched s) := by
  unfold execImageFetched
  extract_lets b n s1 table
  have h1 : Memory.wf s1.mem = true := writeBytes_wf _ _ _ h
  split
  · exact h
  split
  · exact failStart_wf h _
  split
  · exact failStart_wf h1 _
  split
  · exact failStart_wf h1 _
  · rw [canonicalAfter_next, State.startRoot_mem]
    exact h1

theorem execImageFetchTimeout_canonical : CanonicalAfter (execImageFetchTimeout s) := by
  unfold execImageFetchTimeout
  rw [canonicalAfter_next]
  split <;> exact h

theorem execStageReady_canonical : CanonicalAfter (execStageReady s) := by
  unfold execStageReady
  split
  · exact h
  split
  · exact failStart_wf h _
  extract_lets left
  split <;> exact h

theorem execStageReadyTimeout_canonical : CanonicalAfter (execStageReadyTimeout s) := by
  unfold execStageReadyTimeout
  rw [canonicalAfter_next]
  split <;> exact h

theorem execMinimalModeRetry_canonical : CanonicalAfter (execMinimalModeRetry s) := by
  unfold execMinimalModeRetry
  split <;> exact h

theorem execMeasurementReport_canonical : CanonicalAfter (execMeasurementReport s) := by
  unfold execMeasurementReport
  extract_lets
  split
  · exact h
  split <;> exact h

theorem execSecuritySensor_canonical : CanonicalAfter (execSecuritySensor s) := by
  unfold execSecuritySensor
  extract_lets acting
  split
  · exact h
  split
  · exact postRecord_wf _ _ _ _ h
  · exact h
  · exact h

/-! ### The world outside (01 R10; 16 R334; 19 R396) -/

omit h in
@[simp] theorem State.stopPort_mem (s : State) (port ctx addr : Nat) (partialAt : Option Nat) :
    (s.stopPort port ctx addr partialAt).mem = s.mem := by
  unfold State.stopPort
  extract_lets r
  rw [State.modifyContext_mem, State.raiseLine_mem]

omit h in
@[simp] theorem State.freePort_mem (s : State) (port ctx : Nat) : (s.freePort port ctx).mem = s.mem := rfl

theorem portAccess_wf (port ctx va : Nat) (data : List Byte) (write : Bool) :
    Memory.wf (s.portAccess port ctx va data write).mem = true := by
  unfold State.portAccess
  extract_lets old s0
  have h0 : Memory.wf s0.mem = true := h
  clear_value s0
  split
  next s1 hx =>
    have h1 := wf_of_snd hx (State.translatePort_mem ..) h0
    extract_lets p s2
    split
    · exact h1
    · exact postFault_wf (s := s2) h1 _ _ _
  next hx => exact wf_of_snd hx (State.translatePort_mem ..) h0
  next s1 hx =>
  have h1 := wf_of_snd hx (State.translatePort_mem ..) h0
  split
  · rw [State.stopPort_mem]
    exact h1
  extract_lets s2
  rw [State.draw_mem]
  unfold s2
  split
  · exact writeBytes_wf _ _ _ h1
  · exact h1

theorem portDma_wf (port ctx va : Nat) (data : List Byte) (write : Bool) :
    Memory.wf (s.portDma port ctx va data write).mem = true := by
  unfold State.portDma
  split
  · exact h
  · exact portAccess_wf h _ _ _ _ _

theorem retryPorts_wf : Memory.wf s.retryPorts.mem = true :=
  foldl_wf (f := fun acc (p : PortHold) => acc.portAccess p.port p.ctx p.va p.data p.write)
    (fun _ _ ht => portAccess_wf ht _ _ _ _ _) h _

omit h in
@[simp] theorem State.markCore_mem (s : State) (core : Nat) : (s.markCore core).mem = s.mem := by
  unfold State.markCore
  rw [State.modifyContext_mem]

theorem outside_wf (x : Outside) : Memory.wf (s.outside x).mem = true := by
  unfold State.outside
  split
  · extract_lets key
    split <;> exact h
  · extract_lets a
    split <;> exact h
  · split
    · exact kill_wf h _ _
    · exact h
  · split
    · exact kill_wf h _ _
    · exact h
  · split <;> exact h
  · split
    · rw [State.markCore_mem]
      exact h
    · exact h
  · split <;> exact h
  · split <;> exact h
  · split <;> exact h
  · split
    · exact h
    · rw [State.modifyContext_mem]
      exact h
  · split <;> exact h
  · exact h
  · exact portDma_wf h _ _ _ _ _
  · extract_lets old
    split <;> exact h

/-! ### Handles and fences (04 R95-R97, R112-R120) -/

theorem releaseOn_canonical (g : Gang) (acquire : Bool) : CanonicalAfter (s.releaseOn g acquire) := by
  rw [← State.release_mem s (coreOf s.gang)] at h
  exact State.finish_canonical h _ _

theorem releaseFence_canonical (scope : Nat) (acquire : Bool) : CanonicalAfter (releaseFence s scope acquire) :=
  gate_canonical h fun g => by
    split
    · exact releaseOn_canonical h _ _
    · exact h

theorem counterFence_canonical (k : Bool) (m : BitVec 7) (scope : Nat) (acquire : Bool) :
    CanonicalAfter (counterFence s k m scope acquire) :=
  gate_canonical h fun g => by
    extract_lets cs
    split
    · exact h
    split
    · exact releaseOn_canonical h _ _
    · exact h

theorem execFencerAcq_canonical (k : Bool) (m : BitVec 7) (c : BitVec 3) : CanonicalAfter (execFencerAcq k m c s) :=
  gate_canonical h fun g => by split <;> exact h

theorem execHmk_canonical (k : BitVec 4) (a : BitVec 7) : CanonicalAfter (execHmk k a s) :=
  gate_canonical h fun g => by
    split
    · trivial
    extract_lets x
    split
    · exact h
    split
    · split <;> exact h
    · exact h

theorem execRcb_canonical (k : BitVec 4) (n : BitVec 3) : CanonicalAfter (execRcb k n s) :=
  gate_canonical h fun g => by split <;> exact h

theorem execRcw_canonical (a : BitVec 7) (n : BitVec 3) : CanonicalAfter (execRcw a n s) :=
  gate_canonical h fun g => by split <;> exact h

theorem execCcw_canonical (a : BitVec 7) (c : BitVec 3) : CanonicalAfter (execCcw a c s) :=
  gate_canonical h fun g => by split <;> exact h

theorem execCyield_canonical (a : BitVec 7) (c : BitVec 4) : CanonicalAfter (execCyield a c s) :=
  gate_canonical h fun g => by
    extract_lets target
    split <;> exact h

theorem execCyieldResume_canonical : CanonicalAfter (execCyieldResume s) := by
  unfold execCyieldResume
  extract_lets key
  split
  · exact h
  extract_lets runs
  split
  · exact h
  split <;> exact h

end
end Sys2Proof.Machine
end

section
/-!
PROOFS. The modifier word and lane refill keep memory in its canonical form: a modified pair acts as its instruction does, and refill
mode changes gangs and manifests only (02 R46-R49; 12 R269-R289).
-/
namespace Sys2Proof.Machine

section
variable {s : State} (h : Memory.wf s.mem = true)
include h

/-! ### The modifier word (02 R46-R49) -/

theorem modified_canonical {m : Modifier} {i : Instr} {f : State → Result} (hf : modified m i = some f) :
    CanonicalAfter (f s) := by
  unfold modified at hf
  split at hf <;> cases hf
  iterate 20 exact elementwise_canonical h _ _ _ _ _
  · exact cvtWith_canonical h _ _ _ _
  · exact convertFromInt_canonical h _ _ _ _
  · exact convertFromInt_canonical h _ _ _ _
  · exact dotWith_canonical h _ _ _ _ _
  · exact dotWith_canonical h _ _ _ _ _
  · exact dotWith_canonical h _ _ _ _ _
  · exact fscaleWith_canonical h _ _ _ _
  · exact adrainWith_canonical h _ _ _ _ _ _ _

theorem execModifier_canonical (saturate clamp negate absolute : Bool) (e : BitVec 6) (o : BitVec 3) (t : BitVec 8) :
    CanonicalAfter (execModifier saturate clamp negate absolute e o t s) :=
  gate_canonical h fun g => by
    split
    · exact h
    split
    next hx => exact fetchStop_canonical (wf_of_snd hx (State.fetch_mem ..) h) _ _
    next hx =>
    have h1 := wf_of_snd hx (State.fetch_mem ..) h
    split
    · exact h1
    split
    · exact h1
    next hf => exact modified_canonical h1 hf

/-! ### Lane refill (12 R271-R283) -/

theorem execMfst_canonical (a : BitVec 7) : CanonicalAfter (execMfst a s) :=
  gate_canonical h fun g => by
    split
    · trivial
    extract_lets m
    split
    · exact h
    split
    · exact h
    split
    · exact h
    split <;> exact h

theorem enterRefill_canonical (g : Gang) (crew : Crew) : CanonicalAfter (enterRefill s g crew) := by
  unfold enterRefill
  extract_lets
  split <;> exact h

theorem execBerth_canonical : CanonicalAfter (execBerth s) :=
  gate_canonical h fun g => by
    split
    · trivial
    · exact enterRefill_canonical h _ _
    extract_lets
    split <;> exact h

omit h in
@[simp] theorem State.retireStep_mem (s : State) (key : Nat) (g : Gang) (r : Refill) (crew : Crew) (m : Manifest) :
    (s.retireStep key g r crew m).mem = s.mem := by
  unfold State.retireStep
  exact State.release_mem s (coreOf key)

omit h in
@[simp] theorem State.drawStep_mem (s : State) (key : Nat) : (s.drawStep key).mem = s.mem := by
  unfold State.drawStep
  split
  · rfl
  split
  · split <;> rfl
  · rfl

omit h in
@[simp] theorem State.check_mem (s : State) (key : Nat) : (s.check key).mem = s.mem := by
  unfold State.check
  split
  · rfl
  split
  · split
    · rfl
    extract_lets
    split
    · rfl
    split
    · rfl
    split
    · split
      · exact State.drawStep_mem s key
      · rfl
    · rfl
  · rfl

theorem execRefillCheck_canonical : CanonicalAfter (execRefillCheck s) := by
  unfold execRefillCheck
  extract_lets key
  split
  · exact h
  split
  · split
    · exact h
    split
    · rw [canonicalAfter_next, State.drawStep_mem, State.retireStep_mem]
      exact h
    · rw [canonicalAfter_next, State.check_mem]
      exact h
  · exact h

theorem execTideWait_canonical (scalar : Bool) (a : BitVec 7) : CanonicalAfter (execTideWait scalar a s) :=
  gate_canonical h fun g => by
    split
    · trivial
    extract_lets targets
    split <;> exact h

theorem execTideAge_canonical (d : BitVec 7) : CanonicalAfter (execTideAge d s) :=
  gate_canonical h fun g => by
    split
    · trivial
    · exact h

end
end Sys2Proof.Machine
end

section
/-!
PROOFS. Every instruction and event of the opcode table keeps memory in its canonical form, those of one form by the lemma of that
form.
-/
namespace Sys2Proof.Machine

section
variable {s : State} (h : Memory.wf s.mem = true)
include h

theorem execConvoy_canonical (i : BitVec 3) : CanonicalAfter (execConvoy i s) :=
  gate_canonical h fun g => by
    split
    · trivial
    · split <;> exact h

theorem execMrlookVector_canonical (d a b : BitVec 7) : CanonicalAfter (execMrlookVector d a b s) :=
  gate_canonical h fun g => by
    split
    · trivial
    · exact h

theorem execMrlookScalar_canonical (d a : BitVec 7) : CanonicalAfter (execMrlookScalar d a s) :=
  gate_canonical h fun g => by
    split
    · trivial
    · exact h

/-- Whatever an instruction or event does to a state whose memory is in canonical form, it leaves it in that form (log 1). -/
theorem exec_canonical (i : Instr) : CanonicalAfter (exec i s) := by
  unfold exec
  cases i
  case modifier => exact execModifier_canonical h ..
  case iadd | isub | imul | imulhi | imulhu | imad | iquo | iquoU | irem | iremU | imin | iminU | imax | imaxU | and
      | andn | or | orn | xor | xnor | shl | shr | sar | rol | bfe | bfeS | bfi | iadds | iaddus | isubs | isubus
      | pack16 | pack8 | pack4 | unpack16 | unpack8 | unpack4 => exact ternary_canonical h ..
  case iabs | ineg | not | popc | clz | ctz | brev | addi | andi | ori | xori | shli | shri | sari | roli | movi
      | movhi | mov => exact unary_canonical h ..
  case sel | bcast | rdlane | wrlane | pbits | pset | fclass | rng | shflIdx | pref | hmkGet | fenceAcq | tideMark
      | br | call | wsrSrkey | nop | convoyNone | pilNext | pilStop | join | illegalInstruction =>
    exact gate_canonical h fun _ => h
  case icmpEq | icmpNe | icmpLt | icmpLe | icmpLtu | icmpLeu | icmpTst | icmpTstz => exact comparison_canonical h ..
  case add64 | sub64 => exact pairBinary_canonical h ..
  case mul64 | mul64U => exact widening_canonical h ..
  case lea => exact pairIndexed_canonical h ..
  case pand | por | pxor | pnot => exact predicateOp_canonical h ..
  case ptest | pcnt | pfirst => exact predicateRead_canonical h ..
  case fadd | fsub | fmul | fma | fms | fnma | fmin | fmax | fminnum | fmaxnum | fdiv | fsqrt | frcp | frsq | fexp2
      | flog2 | fsin | fcos | frint | ffloor => exact elementwise_canonical h ..
  case fcmpEq | fcmpNe | fcmpLt | fcmpLe | fcmpUn | fcmpOrd | fcmpLtu | fcmpLeu => exact floatCompare_canonical h ..
  case cvt => exact cvtWith_canonical h ..
  case cvti | cvtiU => exact convertToInt_canonical h ..
  case cvtf | cvtfU => exact convertFromInt_canonical h ..
  case xhist => exact execXhist_canonical h ..
  case dot2 | dot4 | dot8 => exact dotWith_canonical h ..
  case shflUp | shflDown | shflXor | shflBcast => exact shuffle_canonical h ..
  case vredFadd | vredFmax | vredFmin => exact reduceFloat_canonical h ..
  case vredIadd | vredImax | vredImin => exact reduceInt_canonical h ..
  case vscanFadd => exact execVscanFadd_canonical h ..
  case vscanIadd | vscanIaddx => exact scanInt_canonical h ..
  case trim | wsrTrim => exact writeTrim_canonical h ..
  case fscale => exact fscaleWith_canonical h ..
  case mma | mmas => exact jointInstruction_canonical h ..
  case azero => exact gate_canonical h fun g => sendGantry_canonical h g _ _ _ _ _
  case aload => exact execAload_canonical h ..
  case adrain => exact adrainWith_canonical h ..
  case apeerSend => exact execApeerSend_canonical h ..
  case apeerRecv => exact execApeerRecv_canonical h ..
  case arowGet => exact execArowGet_canonical h ..
  case arowPut => exact execArowPut_canonical h ..
  case convoy => exact execConvoy_canonical h ..
  case ld | ldacq | sld => exact gate_canonical h fun g => performLoad_canonical h g _ _ _ _ _
  case st | strel | sst => exact gate_canonical h fun g => performStore_canonical h g _ _ _ _ _ _
  case ldsp => exact padAccess_canonical h _ _ _ _ fun _ _ _ => h
  case stsp => exact execStsp_canonical h ..
  case atomAdd | atomMin | atomMax | atomExch | atombAnd | atombOr | atombXor | atombFadd => exact atomic_canonical h ..
  case cas => exact gate_canonical h fun g => performAtomic_canonical h g _ _ _
  case mredAdd | mredFadd | mredMin | mredMax => exact reduction_canonical h ..
  case ordap => exact execOrdap_canonical h ..
  case mrlookVector => exact execMrlookVector_canonical h ..
  case mrlookScalar => exact execMrlookScalar_canonical h ..
  case mrset => exact execMrset_canonical h ..
  case mrclr => exact execMrclr_canonical h ..
  case hmk => exact execHmk_canonical h ..
  case crc => exact execCrc_canonical h ..
  case crtTile | crtTr | crtGather => exact tileMove_canonical h ..
  case crtDeq => exact execCrtDeq_canonical h ..
  case lgt | lsc => exact lighter_canonical h ..
  case pilStart => exact execPilStart_canonical h ..
  case rcb => exact execRcb_canonical h ..
  case rcw => exact execRcw_canonical h ..
  case ccw => exact execCcw_canonical h ..
  case fenceRel | fenceAcqrel | fenceSc => exact releaseFence_canonical h ..
  case fencerAcq => exact execFencerAcq_canonical h ..
  case fencerRel | fencerAcqrel => exact counterFence_canonical h ..
  case cyield => exact execCyield_canonical h ..
  case ldc => exact execLdc_canonical h ..
  case stc => exact execStc_canonical h ..
  case chq => exact execChq_canonical h ..
  case chfree => exact execChfree_canonical h ..
  case chfreeRet => exact execChfreeRet_canonical h ..
  case clbinv | clbinvTile => exact gate_canonical h fun g => invalidateChart_canonical h g _ _ _
  case mfst => exact execMfst_canonical h ..
  case tideWait => exact execTideWait_canonical h ..
  case tideAge => exact execTideAge_canonical h ..
  case jmp | ret => exact jumpTo_canonical h ..
  case bar => exact execBar_canonical h ..
  case barc => exact execBarc_canonical h ..
  case arrive => exact execArrive_canonical h ..
  case await => exact execAwait_canonical h ..
  case rsr => exact execRsr_canonical h ..
  case wsrFpflags => exact execWsrFpflags_canonical h ..
  case trap | brk => exact gate_canonical h fun g => softwareTrap_canonical h g _ _ _
  case trapif => exact execTrapif_canonical h ..
  case lnch => exact execLnch_canonical h ..
  case ctxNew | ctxNewRoot => exact contextNew_canonical h ..
  case ctxGrant => exact execCtxGrant_canonical h ..
  case ctxRevoke | ctxRevokeCold => exact contextRevoke_canonical h ..
  case ctxGo => exact execCtxGo_canonical h ..
  case ctxHaltQuery | ctxHaltSoft | ctxHaltForced => exact contextHalt_canonical h ..
  case ctxBudget => exact execCtxBudget_canonical h ..
  case ctxScope => exact execCtxScope_canonical h ..
  case tlbinvVirtual | tlbinvFrames => exact invalidate_canonical h ..
  case cyieldResume => exact execCyieldResume_canonical h
  case berth => exact execBerth_canonical h
  case refillCheck => exact execRefillCheck_canonical h
  case regang => exact execRegang_canonical h
  case exit => exact execExit_canonical h
  case loadSector => exact execLoadSector_canonical h
  case engineCommandComplete => exact execEngineCommandComplete_canonical h
  case pilotNotice => exact execPilotNotice_canonical h
  case epochMarker => exact execEpochMarker_canonical h
  case hostLinkWrite => exact outsideWrite_wf _ _ _ h
  case quayLinkWrite => exact execQuayLinkWrite_canonical h
  case doorbell => exact execDoorbell_canonical h
  case leaseQuantumBoundary => exact execLeaseQuantumBoundary_canonical h
  case launchAccept => exact execLaunchAccept_canonical h
  case crewPlace => exact execCrewPlace_canonical h
  case crewEnd => exact execCrewEnd_canonical h
  case launchComplete => exact execLaunchComplete_canonical h
  case retryTimer => exact execRetryTimer_canonical h
  case pendingRecordWrite => exact execPendingRecordWrite_canonical h
  case barrierTimeout => exact execBarrierTimeout_canonical h
  case collectionWindowClose => exact execCollectionWindowClose_canonical h
  case haltComplete => exact execHaltComplete_canonical h
  case graceTimerExpiry => exact execGraceTimerExpiry_canonical h
  case killTimerExpiry => exact execKillTimerExpiry_canonical h
  case budgetExhausted => exact execBudgetExhausted_canonical h
  case framePull => exact execFramePull_canonical h
  case revocationEnd => exact execRevocationEnd_canonical h
  case tlbfenceRetire => exact execTlbfenceRetire_canonical h
  case patrolScrub => exact execPatrolScrub_canonical h
  case tlbfence => exact execTlbfence_canonical h
  case deviceReset => exact execDeviceReset_canonical h
  case imageFetched => exact execImageFetched_canonical h
  case imageFetchTimeout => exact execImageFetchTimeout_canonical h
  case stageReady => exact execStageReady_canonical h
  case stageReadyTimeout => exact execStageReadyTimeout_canonical h
  case minimalModeRetry => exact execMinimalModeRetry_canonical h
  case measurementReport => exact execMeasurementReport_canonical h
  case securitySensor => exact execSecuritySensor_canonical h
  case powerRemoved | managementRequest => exact h
  case instructionFetchFault => exact execInstructionFetchFault_canonical h
  case engineAccessFault => exact execEngineAccessFault_canonical h

end
end Sys2Proof.Machine
end

section
/-!
PROOFS. Turns keep memory in its canonical form where the meaning of instructions does, and so does every step (13 R306, R307; log 1,
log 5).
-/
namespace Sys2Proof.Machine

/-! ### Energy and clocks (16 R341) -/

/-- A fold of draws leaves memory alone. -/
theorem foldl_draw_mem {α : Type} (s : State) (xs : List α) (ctx clocks energy : α → Nat) :
    (xs.foldl (fun acc x => acc.draw (ctx x) (clocks x) (energy x)) s).mem = s.mem :=
  foldl_mem (f := fun acc x => acc.draw (ctx x) (clocks x) (energy x)) (fun _ _ => State.draw_mem ..) s xs

@[simp] theorem State.drawCommands_mem (old new : State) : (old.drawCommands new).mem = new.mem := foldl_draw_mem ..

@[simp] theorem State.drawPilot_mem (old new : State) (key : Nat) : (old.drawPilot new key).mem = new.mem := by
  unfold State.drawPilot
  split
  · rfl
  · exact State.draw_mem ..

@[simp] theorem State.drawEvent_mem (old new : State) (e : Instr) (x : Subject) : (old.drawEvent new e x).mem = new.mem := by
  unfold State.drawEvent
  extract_lets s1
  have h1 : s1.mem = new.mem := State.drawCommands_mem ..
  split
  · rw [State.drawPilot_mem, h1]
  · exact h1

@[simp] theorem State.drawCharts_mem (s : State) : s.drawCharts.mem = s.mem :=
  foldl_draw_mem { s with chartMoves := [] } _ _ _ _

@[simp] theorem State.drawReplays_mem (old new : State) : (old.drawReplays new).mem = new.mem := by
  unfold State.drawReplays
  extract_lets s1
  have h1 : s1.mem = new.mem := (foldl_draw_mem ..).trans (State.drawCharts_mem new)
  exact (foldl_draw_mem ..).trans h1

theorem elapse_wf {s : State} (h : Memory.wf s.mem = true) (n : Nat) : Memory.wf (s.elapse n).mem = true := by
  unfold State.elapse
  extract_lets s0 s1 cores
  have h0 : Memory.wf s0.mem = true := endQueueClock_wf (retryPorts_wf h)
  refine foldl_wf (fun t e ht => ?_) (by exact h0) _
  split
  · exact ht
  · rw [State.draw_mem]
    exact ht

@[simp] theorem State.setPort_mem (s : State) (core key : Nat) (p : Port) : (s.setPort core key p).mem = s.mem := rfl

@[simp] theorem State.charge_mem (before s : State) (g : Gang) (i : Instr) : (before.charge s g i).mem = s.mem := by
  unfold State.charge
  extract_lets key partition clocks pk port s1 s2
  have h2 : s2.mem = s.mem := by
    unfold s2
    split <;> rfl
  rw [State.draw_mem, h2]

/-! ### Turns (13 R306, R307; 16 R335) -/

section
variable {run : Instr → State → Result} (hrun : ∀ i s, Memory.wf s.mem = true → CanonicalAfter (run i s))
include hrun
variable {s : State} (h : Memory.wf s.mem = true)
include h

theorem runDecoded_canonical (g : Gang) (i : Instr) : CanonicalAfter (s.runDecoded run g i) := by
  have h1 := hrun i s h
  unfold State.runDecoded
  extract_lets start
  split
  · exact h
  split
  next ht =>
    rw [ht] at h1
    rw [canonicalAfter_next]
    split
    · exact h1
    · rw [State.charge_mem]
      exact h1
  · exact h1

theorem issue_canonical (key group : Nat) : CanonicalAfter (s.issue run key group) := by
  unfold State.issue
  extract_lets s0
  have h0 : Memory.wf s0.mem = true := h
  clear_value s0
  split
  · exact h0
  split
  · exact h0
  split
  next hx =>
    have h1 := wf_of_snd hx (State.fetch_mem ..) h0
    exact hrun _ _ (by exact h1)
  next hx =>
  have h1 := wf_of_snd hx (State.fetch_mem ..) h0
  split
  · exact runDecoded_canonical hrun h1 _ _
  · exact runDecoded_canonical hrun h1 _ _

theorem offer_canonical (xs : List (Nat × Nat)) : CanonicalAfter (State.offer run xs s) := by
  induction xs generalizing s with
  | nil => exact h
  | cons x rest ih =>
    have h1 := issue_canonical hrun h x.1 x.2
    unfold State.offer
    split
    next ht =>
      rw [ht] at h1
      split
      · exact ih h1
      · exact h1
    · exact h1

theorem portTurn_canonical (core partition port : Nat) : CanonicalAfter (s.portTurn run core partition port) := by
  unfold State.portTurn
  extract_lets pk p
  split
  · exact h
  split
  · exact h
  · exact offer_canonical hrun (by exact h) _

theorem hartTurn_canonical (n : Nat) : CanonicalAfter (s.hartTurn run n) := by
  unfold State.hartTurn
  extract_lets s1 x caller
  have h1 : Memory.wf s1.mem = true := h
  clear_value s1
  split
  · exact h1
  split
  · exact h1
  split
  · trivial
  split
  · exact h1
  split
  · exact hrun _ _ h1
  · split
    · exact h1
    · trivial
  · exact h1

theorem happen_canonical (e : Instr) (x : Subject) : CanonicalAfter (s.happen run e x) := by
  have h1 := hrun e { s with subject := x } h
  unfold State.happen
  split
  · exact h
  split
  next ht =>
    rw [ht] at h1
    rw [canonicalAfter_next, State.drawEvent_mem]
    exact h1
  · exact h1

omit hrun h in
/-- Drawing the energy of a turn leaves memory as the turn left it. -/
theorem drawing_canonical (s : State) {r : Result} (hr : CanonicalAfter r) : CanonicalAfter (s.drawing r) := by
  unfold State.drawing
  split
  · rw [canonicalAfter_next, State.drawReplays_mem]
    exact hr
  · exact hr

theorem takeOn_canonical (t : Turn) : CanonicalAfter (s.takeOn run t) := by
  refine drawing_canonical s ?_
  split
  · exact portTurn_canonical hrun h _ _ _
  · exact hartTurn_canonical hrun h _
  · exact happen_canonical hrun h _ _
  · exact elapse_wf h _
  · exact outside_wf h _

omit hrun h in
@[simp] theorem State.takeTurn_mem (s : State) : s.takeTurn.2.mem = s.mem := by
  unfold State.takeTurn
  split <;> rfl

theorem stepWith_canonical : CanonicalAfter (s.stepWith run) := by
  unfold State.stepWith
  split
  · trivial
  · rw [← State.takeTurn_mem s] at h
    exact takeOn_canonical hrun h _

end

/-- One step of the device keeps memory in its canonical form (log 1). -/
theorem step_canonical {s : State} (h : Memory.wf s.mem = true) : CanonicalAfter (step s) :=
  stepWith_canonical (fun i _ ht => exec_canonical ht i) h

/-- Settles O59: every turn, whatever it runs, keeps the canonical form, since every instruction and event does. -/
theorem memoryStaysCanonical : Obligations.MemoryStaysCanonical := by
  unfold Obligations.MemoryStaysCanonical
  intro s t h ht
  have h1 := step_canonical h
  rw [ht] at h1
  exact h1

end Sys2Proof.Machine
end

section
/-!
PROOFS. Special registers: what each holds, and how `rsr`, `wsr` and `trim` read and write them (01 R16-R22; 07 R169, R187, R188).
-/
namespace Sys2Proof.Machine
open Sys2Proof.Claim

/-! ### Logical dies (16 R315) -/

/-- A filter that drops only elements with `q` drops them from what a list takes while `q` holds. -/
theorem takeWhile_filter_of_imp {α : Type} {p q : α → Bool} (h : ∀ x, q x = false → p x = true) (l : List α) :
    (l.filter p).takeWhile q = (l.takeWhile q).filter p := by
  induction l with
  | nil => rfl
  | cons x xs ih =>
    cases hq : q x with
    | false => simp [hq, h x hq]
    | true => cases hp : p x <;> simp [hq, hp, ih]

theorem length_dedup_cons_filter (x : Nat) (xs : List Nat) :
    (x :: xs).dedup.length = (xs.filter fun y => !y == x).dedup.length + 1 := by
  have h : (x :: xs).toFinset = insert x (xs.filter fun y => !y == x).toFinset := by ext y; simp; tauto
  rw [← List.card_toFinset, ← List.card_toFinset, h, Finset.card_insert_of_notMem (by simp)]

/-- The place of an element in the order of first appearance is the number of elements, each counted once, before its first. -/
theorem idxOf_eraseDups {d : Nat} (l : List Nat) (h : d ∈ l) :
    l.eraseDups.idxOf d = (l.takeWhile (· != d)).dedup.length := by
  induction hn : l.length using Nat.strong_induction_on generalizing l with
  | _ n ih =>
    cases l with
    | nil => cases h
    | cons x xs =>
      rw [List.eraseDups_cons, List.idxOf_cons]
      by_cases hx : x = d
      · simp [hx]
      · have hd : d ∈ xs.filter fun y => !y == x := by
          rcases List.mem_cons.1 h with h1 | h1
          · exact absurd h1.symm hx
          · simp [h1, Ne.symm hx]
        have hlen : (xs.filter fun y => !y == x).length < n := hn ▸ Nat.lt_succ_of_le (List.length_filter_le _ xs)
        have hq : ∀ y, (y != d) = false → (!y == x) = true := by
          intro y hy
          have hyd : y = d := by simpa using hy
          simpa [hyd] using Ne.symm hx
        have hxd : (x == d) = false := by simpa using hx
        rw [ih _ hlen _ hd rfl, takeWhile_filter_of_imp hq]
        simp [hx, hxd, length_dedup_cons_filter]

/-- The logical number of a core's die: the dies that appear before it among the context's cores (16 R315). -/
theorem Context.idxOf_dies {c : Context} {core : Nat} (h : core ∈ c.cores) :
    c.dies.idxOf (dieOf core) = ((c.cores.takeWhile fun k => dieOf k != dieOf core).map dieOf).dedup.length := by
  unfold Context.dies
  rw [idxOf_eraseDups _ (List.mem_map_of_mem h), List.takeWhile_map]
  rfl

/-- The logical number of a core is its place among the context's cores (16 R315). -/
theorem Context.logicalCore_of_getElem? {c : Context} {core i : Nat} (h : c.cores[i]? = some core) (hn : c.cores.Nodup) :
    c.logicalCore core = i := by
  obtain ⟨hi, rfl⟩ := List.getElem?_eq_some_iff.1 h
  simp [Context.logicalCore, hn.idxOf_getElem]

/-! ### What the registers of a gang, its crew and its context hold (01 R19, R20) -/

/-- The bits that a list sets in a mask. -/
theorem getLsbD_foldl_twoPow {α : Type} (p : α → Bool) (bit : α → Nat) (xs : List α) (m : DWord) {i : Nat} (hi : i < 64) :
    (xs.foldl (fun m e => if p e then m ||| BitVec.twoPow 64 (bit e) else m) m).getLsbD i = true ↔
      m.getLsbD i = true ∨ ∃ e ∈ xs, bit e = i ∧ p e = true := by
  induction xs generalizing m with
  | nil => simp
  | cons x xs ih =>
    rw [List.foldl_cons, ih]
    cases hp : p x with
    | false => simp [hp]
    | true => simp [hp, hi, or_assoc, eq_comm (a := i)]

section
variable {s : State} {g : Gang} {crew : Crew} {c : Context}

/-- The clock of a launch that is not reproducible counts from the creation of the context (01 R20). -/
theorem State.clockRegister_of_elapsed (hc : s.crews.find g.crew = some crew) (hx : s.contexts.find g.ctx = some c)
    (h : crew.record.reproducible = false) : s.clockRegister g = s.clock - c.createdAt := by
  simp [State.clockRegister, State.context, hc, hx, h]

/-- The clock of a reproducible launch is a count of instruction words, rounded down to the quantisation period (01 R20). -/
theorem State.clockRegister_of_reproducible (hc : s.crews.find g.crew = some crew) (hx : s.contexts.find g.ctx = some c)
    (h : crew.record.reproducible = true) {q : Nat} (hq : q = 2 ^ (crew.record.control.toNat / 2 ^ 15 % 32)) :
    s.clockRegister g = g.words / q * q := by
  have h1 : (crew.record.control.extractLsb 19 15).toNat = crew.record.control.toNat / 2 ^ 15 % 32 := by
    simp [BitVec.extractLsb_toNat, Nat.shiftRight_eq_div_pow]
  simp [State.clockRegister, State.context, hc, hx, h, h1, hq]

theorem State.special_crewLow (hc : s.crews.find g.crew = some crew) : (s.special g 3).toNat = crew.index % 2 ^ 32 := by
  simp only [State.special, hc, Option.map_some, Option.getD_some, BitVec.toNat_setWidth, BitVec.toNat_ofNat]
  omega

theorem State.special_crewHigh (hc : s.crews.find g.crew = some crew) :
    (s.special g 4).toNat = crew.index % 2 ^ 64 / 2 ^ 32 := by
  simp only [State.special, hc, Option.map_some, Option.getD_some, BitVec.toNat_ushiftRight, BitVec.toNat_ofNat,
    Nat.shiftRight_eq_div_pow]

theorem State.special_role (hc : s.crews.find g.crew = some crew) :
    (s.special g 6).toNat = crew.record.roles.toNat / 16 ^ g.index % 16 := by
  have h1 : (16 : Nat) ^ g.index = 2 ^ (4 * g.index) := by rw [pow_mul]; norm_num
  have h2 (x : Nat) : x &&& 15 = x % 16 := Nat.and_two_pow_sub_one_eq_mod x 4
  simp [State.special, hc, Nat.shiftRight_eq_div_pow, h1, h2]

theorem State.special_convoys (hc : s.crews.find g.crew = some crew) {i : Nat} (hi : i < 64) :
    (s.special g 7).getLsbD i = true ↔ ∃ e ∈ crew.convoys, e.defn = i ∧ g.index ∈ e.gangs := by
  simp only [State.special, hc, Option.map_some, Option.getD_some]
  rw [getLsbD_foldl_twoPow (fun e : Convoy => e.gangs.contains g.index) Convoy.defn _ _ hi]
  simp

end

/-- Registers 20 to 27 are the range counters (01 R19). -/
theorem State.special_rangeCount (s : State) (g : Gang) {i : Nat} (hi : i < 8) :
    s.special g (20 + i) = BitVec.ofNat 64 (g.rangeCount i) := by
  interval_cases i <;> rfl

/-- Registers 28 to 32 are the class counters (01 R19). -/
theorem State.special_classCounter (s : State) (g : Gang) {i : Nat} (hi : i < 5) :
    s.special g (28 + i) = BitVec.ofNat 64 (s.classCounter s.gang g i) := by
  interval_cases i <;> rfl

theorem Gang.laneSpecial_age {g : Gang} {l : Nat} {a : Word} (h : g.ages[l]? = some a) : g.laneSpecial 8 l = a := by
  simp [Gang.laneSpecial, h]

theorem specialRegisterValues : SpecialRegisterValues := by
  unfold SpecialRegisterValues
  intro s g crew c hc hx
  have hx' : s.context g.ctx = some c := hx
  refine ⟨⟨rfl, ?index, ?crewLow, ?crewHigh, ?crewCount, s.special_role hc, fun i => s.special_convoys hc, ?tidemark, ?noManifest, rfl,
    ?elapsed, ?words, ?core, ?die, rfl, ?launch, ?params, rfl, rfl, fun i => s.special_rangeCount g,
    fun i => s.special_classCounter g⟩, fun l _ => ⟨rfl, fun a => Gang.laneSpecial_age, rfl⟩⟩
  case index => simp [State.special]
  case crewLow => exact State.special_crewLow hc
  case crewHigh =>
    intro h
    rw [State.special_crewHigh hc, Nat.mod_eq_of_lt h]
  case crewCount => simp [State.special, hc]
  case tidemark =>
    intro m hm
    simp [State.special, hc, hm]
  case noManifest =>
    intro hm
    simp [State.special, hc, hm]
  case elapsed => exact fun h => congrArg (BitVec.ofNat 64) (State.clockRegister_of_elapsed hc hx h)
  case words => exact fun h q hq => congrArg (BitVec.ofNat 64) (State.clockRegister_of_reproducible hc hx h hq)
  case core =>
    intro i hi hn
    simp [State.special, hx', Context.logicalCore_of_getElem? hi hn]
  case die =>
    intro h
    simp [State.special, hx', Context.idxOf_dies h]
  case launch => simp [State.special, hc]
  case params => simp [State.special, hc]

/-! ### Reads and writes (01 R16-R22; 07 R169, R187, R188) -/

/-- A gang whose registers are settled runs the body of an instruction that needs nothing else. -/
theorem gate_of_settled {s : State} {g : Gang} {vs ss even : List Nat} {body : Gang → Result} (h : s.Issues g)
    (hs : s.Settled g vs ss) (he : even.all (fun r => r % 2 == 0) = true) :
    gate s (fun _ => { v := vs, s := ss, even := even }) body = body (s.issuing g) := by
  obtain ⟨ht, hb⟩ := Settled.passes hs { v := vs, s := ss, even := even } rfl rfl he rfl rfl rfl rfl rfl rfl
  exact gate_of_issues h ht hb

section
variable {s : State} {g : Gang} (h : s.Issues g)
include h

theorem execRsr_lane (d : BitVec 7) (i : BitVec 10) (hs : s.Settled g [d.toNat] []) :
    execRsr false d i s = .next (vectorDone s g d.toNat fun l => g.laneSpecial i.toNat l) := by
  unfold execRsr
  rw [if_pos (by simp)]
  exact gate_of_settled h hs rfl

theorem execRsr_pair {d : BitVec 7} {i : BitVec 10} (hi : i.toNat = 12 ∨ i.toNat = 17) (hd : d.toNat % 2 = 0)
    (hs : s.Settled g [] [d.toNat, d.toNat + 1]) :
    execRsr true d i s = .next (s.advance ((s.issuing g).setSpair d.toNat (s.special (s.issuing g) i.toNat)) 1) := by
  unfold execRsr
  rw [if_neg (by simp), if_pos hi]
  exact gate_of_settled h hs (by simp [hd])

/-- A read of a register of 32 bits: of `fpflags` it waits for the gantry instructions that will write it (07 R169). -/
theorem execRsr_scalar {d : BitVec 7} {i : BitVec 10} (hi : i.toNat ≠ 12) (hi' : i.toNat ≠ 17) (hs : s.Settled g [] [d.toNat]) :
    execRsr true d i s = if i.toNat = 11 ∧ s.flagsPending s.gang = true then s.waiting
      else .next (scalarDone s g d.toNat (lowWord (s.special (s.issuing g) i.toNat))) := by
  unfold execRsr
  rw [if_neg (by simp), if_neg (by simp [hi, hi'])]
  exact gate_of_settled h hs rfl

theorem writeTrim_of_settled {r : Nat} (hs : s.Settled g [] [r]) :
    writeTrim s r = if trimValid (g.sreg r) = true then .next (s.advance { (s.issuing g) with trim := g.sreg r } 1)
      else .next (s.trapAt (s.issuing g) .illegalInstruction (g.enabled s.group) 0) := gate_of_settled h hs rfl

theorem execWsrSrkey_of_settled (d : BitVec 7) (hs : s.Settled g [d.toNat] []) :
    execWsrSrkey d s = .next (s.advance
      { (s.issuing g) with srkey := g.srkey.setAll (g.active s.group) id fun l => g.vreg d.toNat l } 1) := gate_of_settled h hs rfl

theorem execWsrFpflags_of_settled (d : BitVec 7) (hs : s.Settled g [] [d.toNat]) :
    execWsrFpflags d s = if (g.sreg d.toNat).toNat < 32 then .next (s.advance { (s.issuing g) with fpflags := g.sreg d.toNat } 1)
      else .next (s.trapAt (s.issuing g) .illegalInstruction (g.enabled s.group) 0) := gate_of_settled h hs rfl

end

theorem specialRegisterResult : SpecialRegisterResult := by
  unfold SpecialRegisterResult
  intro s g d i h
  refine ⟨fun hs => ⟨execRsr_lane h d i hs, execWsrSrkey_of_settled h d hs⟩, fun hi hd hs => execRsr_pair h hi hd hs,
    fun hi hi' hs => ⟨fun hp => ?done, fun h11 hp => ?waits⟩, fun hs => ⟨fun hv => ?trim, fun hv => ?flags, fun hv => ?refused⟩⟩
  case done =>
    refine (execRsr_scalar h hi hi' hs).trans (if_neg ?_)
    rintro ⟨h11, hf⟩
    simp [hp h11] at hf
  case waits => exact (execRsr_scalar h hi hi' hs).trans (if_pos ⟨h11, hp⟩)
  case trim =>
    have hw := (writeTrim_of_settled h hs).trans (if_pos hv)
    exact ⟨hw, hw⟩
  case flags => exact (execWsrFpflags_of_settled h d hs).trans (if_pos hv)
  case refused => exact (execWsrFpflags_of_settled h d hs).trans (if_neg (by omega))

/-- A trim value with a reserved bit, seed or rounding mode is not valid (01 R17). -/
theorem trimValid_of_reserved {x : Word} (h : 2 ^ 20 ≤ x.toNat ∨ 3 < x.toNat / 2 ^ 17 % 8 ∨ 5 < x.toNat / 2 ^ 8 % 8) :
    trimValid x = false := by
  have hx := x.isLt
  simp only [trimValid, BitVec.extractLsb_toNat, Nat.shiftRight_eq_div_pow, Bool.and_eq_false_iff, decide_eq_false_iff_not]
  omega

theorem reservedTrimTraps : ReservedTrimTraps := by
  unfold ReservedTrimTraps
  intro s g d h hs x hx
  have hv : ¬trimValid (g.sreg d.toNat) = true := by simp [trimValid_of_reserved (x := g.sreg d.toNat) hx]
  have hw := (writeTrim_of_settled h hs).trans (if_neg hv)
  exact ⟨hw, hw⟩

/-- Settles O16: each register read from the crew and context of the gang, and each read and write by the gate's one rule for settled
registers. -/
theorem specialRegisters : Obligations.SpecialRegisters := ⟨specialRegisterValues, specialRegisterResult, reservedTrimTraps⟩

end Sys2Proof.Machine
end

section
/-!
PROOFS. `ctx.grant`: what a retry is where no queue and no logged store waits, the grant array after a change, what is shot down, and the
answer of each kind of grant (01 R8; 16 R323, R324, R327, R331, R338).
-/
namespace Sys2Proof.Machine
open Sys2Proof.Claim

/-! ### A retry where nothing waits but held accesses (16 R331) -/

theorem Table.mem_of_find {α : Type} {t : Table α} {n : Nat} {x : α} (h : t.find n = some x) : (n, x) ∈ t := by
  induction t with
  | nil => cases h
  | cons e t ih =>
    simp only [Table.find] at h
    split at h
    next hn => exact List.mem_cons.2 (.inl (by rw [← hn, ← Option.some.inj h]))
    · exact List.mem_cons_of_mem _ (ih h)

section
variable {s : State}

theorem State.core_sideLog (h : ∀ e ∈ s.cores, e.2.sideLog = []) (n : Nat) : (s.core n).sideLog = [] := by
  unfold State.core
  cases hf : s.cores.find n with
  | none => rfl
  | some c => exact h (n, c) (Table.mem_of_find hf)

theorem State.replay_of_noLog (h : ∀ e ∈ s.cores, e.2.sideLog = []) (due : SideEntry → Bool) : s.replay due = s := by
  have h1 (n : Nat) : s.replayCore due n = s := by simp [State.replayCore, s.core_sideLog h n]
  unfold State.replay
  induction s.cores.keys with
  | nil => rfl
  | cons n ns ih => rw [List.foldl_cons, h1, ih]

theorem State.readyHeads_of_noneRung (h : s.rung = []) : s.readyHeads = ([], s) := by
  unfold State.readyHeads
  rw [h]
  rfl

theorem State.serviceQueues_of_quiet (h : Quiet s) : s.serviceQueues = s := by
  obtain ⟨hrung, hwrites, hslots, hservice, hjoining, -⟩ := h
  have hf : s.flushWrites = s := by simp [State.flushWrites, hwrites]
  unfold State.serviceQueues
  rw [hf, s.readyHeads_of_noneRung hrung]
  simp only [hslots, hservice, hjoining]
  obtain ⟨⟩ := s
  cases hslots
  cases hservice
  cases hjoining
  rfl

/-- Where no queue and no logged store waits, a retry event makes held accesses due and does nothing else. -/
theorem State.retryAll_of_quiet (h : Quiet s) : s.retryAll = s.retryHeld := by
  have hheld : Quiet s.retryHeld := h
  obtain ⟨-, -, -, -, -, hlogs⟩ := h
  have hretry : s.retry = s.retryHeld := State.replay_of_noLog (s := s.retryHeld) hlogs _
  rw [State.retryAll, hretry, State.serviceQueues_of_quiet hheld]

end

/-! ### The grant array after a change (16 R323, R324) -/

theorem Cells.get_append_left {w : Nat} (c d : Cells w) {k : Nat} (h : ∀ e ∈ d, e.1 ≠ k) : Cells.get (c ++ d) k = c.get k := by
  induction c with
  | nil =>
    induction d with
    | nil => rfl
    | cons e d ih =>
      rw [List.nil_append, Cells.get_cons, if_neg (h e (List.mem_cons_self ..))]
      exact ih fun x hx => h x (List.mem_cons_of_mem e hx)
  | cons e c ih => rw [List.cons_append, Cells.get_cons, Cells.get_cons, ih]

theorem Cells.get_append_right {w : Nat} (c d : Cells w) {k : Nat} (h : ∀ e ∈ c, e.1 ≠ k) : Cells.get (c ++ d) k = d.get k := by
  induction c with
  | nil => rfl
  | cons e c ih =>
    rw [List.cons_append, Cells.get_cons, if_neg (h e (List.mem_cons_self ..))]
    exact ih fun x hx => h x (List.mem_cons_of_mem e hx)

/-- The values of a list of cells changed one by one, a zero staying zero. -/
theorem Cells.get_map_value {w : Nat} {f : Nat → BitVec w → BitVec w} (c : Cells w) {k : Nat} (hf : f k 0 = 0) :
    Cells.get (c.map fun e => (e.1, f e.1 e.2)) k = f k (c.get k) := by
  induction c with
  | nil => exact hf.symm
  | cons e c ih =>
    rw [List.map_cons, Cells.get_cons, Cells.get_cons, ih]
    split
    next h => rw [h]
    · rfl

/-- The values of a block of cells with keys from `a` on. -/
theorem Cells.get_block {w : Nat} (a : Nat) (f : Nat → BitVec w) {is : List Nat} {i : Nat} (hi : i ∈ is) :
    Cells.get (is.map fun j => (a + j, f j)) (a + i) = f i := by
  induction is with
  | nil => cases hi
  | cons j is ih =>
    rw [List.map_cons, Cells.get_cons]
    split
    next h => rw [Nat.add_left_cancel h]
    next h =>
      rcases List.mem_cons.1 hi with rfl | h1
      · exact absurd rfl h
      · exact ih h1

theorem keptEntry_zero (k a size : Nat) : keptEntry k a size 0 = 0 := by
  simp [keptEntry]

/-- An entry outside the changed block survives as R324 says (16 R324). -/
theorem get_surviving (grants : Cells 64) {lo n k : Nat} (hk : k < lo ∨ lo + 2 ^ n ≤ k) :
    (surviving grants lo n).get k = keptEntry k lo n (grants.get k) := by
  have h1 : surviving grants lo n =
      (grants.filter fun e => decide (e.1 < lo) || decide (lo + 2 ^ n ≤ e.1)).map fun e => (e.1, keptEntry e.1 lo n e.2) := by
    unfold surviving keptEntry
    refine List.map_congr_left fun e _ => ?_
    dsimp only
    split <;> rfl
  rw [h1, Cells.get_map_value (f := fun k e => keptEntry k lo n e) _ (keptEntry_zero k lo n),
    Cells.get_filter_key grants (fun j => decide (j < lo) || decide (lo + 2 ^ n ≤ j))]
  simp [hk]

/-- Outside the changed block the array holds what survives. -/
theorem get_replaceBlock_outside (grants : Cells 64) {lo n k : Nat} (f : Nat → DWord) (hk : k < lo ∨ lo + 2 ^ n ≤ k) :
    (replaceBlock grants lo n ((List.range (2 ^ n)).map fun i => (lo + i, f i))).get k = keptEntry k lo n (grants.get k) := by
  rw [← get_surviving grants hk]
  have hpos : 0 < 2 ^ n := Nat.two_pow_pos n
  unfold replaceBlock
  rcases hk with hk | hk
  · rw [List.append_assoc, Cells.get_append_left, Cells.get_filter_key _ (fun j => decide (j < lo)), if_pos (by simpa using hk)]
    simp only [List.mem_append, List.mem_map, List.mem_filter, List.mem_range, decide_eq_true_eq]
    rintro e (⟨i, -, rfl⟩ | ⟨-, he⟩)
    · show lo + i ≠ k
      omega
    · omega
  · rw [Cells.get_append_right, Cells.get_filter_key _ (fun j => decide (lo + 2 ^ n ≤ j)), if_pos (by simpa using hk)]
    simp only [List.mem_append, List.mem_map, List.mem_filter, List.mem_range, decide_eq_true_eq]
    rintro e (⟨-, he⟩ | ⟨i, hi, rfl⟩)
    · omega
    · show lo + i ≠ k
      omega

/-- Inside it the array holds the new entries. -/
theorem get_replaceBlock_inside (grants : Cells 64) {lo n i : Nat} (f : Nat → DWord) (hi : i < 2 ^ n) :
    (replaceBlock grants lo n ((List.range (2 ^ n)).map fun i => (lo + i, f i))).get (lo + i) = f i := by
  unfold replaceBlock
  rw [List.append_assoc, Cells.get_append_right, Cells.get_append_left, Cells.get_block lo f (List.mem_range.2 hi)]
  · simp only [List.mem_filter, decide_eq_true_eq]
    rintro e ⟨-, he⟩
    omega
  · simp only [List.mem_filter, decide_eq_true_eq]
    rintro e ⟨-, he⟩
    omega

/-- The entry of a frame at a multiple of the frame size (16 R323). -/
theorem grantEntry_of_aligned {f : Nat} (hf : 0x200000 ∣ f) (run perm : Nat) :
    grantEntry f run perm = BitVec.ofNat 64 (f + 65536 * run + 2 * perm + 1) := by
  rw [grantEntry, Nat.div_mul_cancel hf, Nat.mul_comm run, Nat.mul_comm perm]

/-! ### What a retry, the note of an invalidation and the invalidation itself leave alone -/

@[simp] theorem State.retryHeld_contexts (s : State) : s.retryHeld.contexts = s.contexts := rfl
@[simp] theorem State.retryHeld_harts (s : State) : s.retryHeld.harts = s.harts := rfl
@[simp] theorem State.retryHeld_hart (s : State) : s.retryHeld.hart = s.hart := rfl
@[simp] theorem State.retryHeld_mem (s : State) : s.retryHeld.mem = s.mem := rfl
@[simp] theorem State.retryHeld_cores (s : State) : s.retryHeld.cores = s.cores := rfl
@[simp] theorem State.retryHeld_dies (s : State) : s.retryHeld.dies = s.dies := rfl
@[simp] theorem State.retryHeld_portTlbs (s : State) : s.retryHeld.portTlbs = s.portTlbs := rfl
@[simp] theorem State.invalidateFrames_contexts (s : State) (ctx lo n : Nat) :
    (s.invalidateFrames ctx lo n).contexts = s.contexts := rfl
@[simp] theorem State.invalidateFrames_harts (s : State) (ctx lo n : Nat) : (s.invalidateFrames ctx lo n).harts = s.harts := rfl
@[simp] theorem State.invalidateFrames_hart (s : State) (ctx lo n : Nat) : (s.invalidateFrames ctx lo n).hart = s.hart := rfl
@[simp] theorem State.invalidateFrames_mem (s : State) (ctx lo n : Nat) : (s.invalidateFrames ctx lo n).mem = s.mem := rfl
@[simp] theorem State.noteInvalidation_contexts (s : State) : s.noteInvalidation.contexts = s.contexts := rfl
@[simp] theorem State.noteInvalidation_hart (s : State) : s.noteInvalidation.hart = s.hart := rfl
@[simp] theorem State.noteInvalidation_mem (s : State) : s.noteInvalidation.mem = s.mem := rfl
@[simp] theorem State.noteInvalidation_cores (s : State) : s.noteInvalidation.cores = s.cores := rfl
@[simp] theorem State.noteInvalidation_dies (s : State) : s.noteInvalidation.dies = s.dies := rfl
@[simp] theorem State.noteInvalidation_portTlbs (s : State) : s.noteInvalidation.portTlbs = s.portTlbs := rfl

/-- The answer reaches the harts as it would from a state with the same harts. -/
theorem State.answer_harts_congr {s t : State} (h : t.harts = s.harts) (hh : t.hart = s.hart) (d : BitVec 5) (v : DWord) :
    (t.answer d v).harts = (s.answer d v).harts := by
  simp [State.answer, State.hartAt, h, hh]

theorem State.noteInvalidation_harts_congr {s t : State} (h : t.harts = s.harts) (hh : t.hart = s.hart) :
    t.noteInvalidation.harts = s.noteInvalidation.harts := by
  simp [State.noteInvalidation, State.hartAt, h, hh]

/-! ### What an invalidation of frames shoots down (16 R325, R327) -/

theorem chainMeets_of_throughFrames {chain : List (Nat × Nat)} {ctx lo n span : Nat} (h : throughFrames ctx lo n span chain) :
    chainMeets chain span ctx lo n = true := by
  obtain ⟨l, hl, rfl, k, hk, hlo, hn⟩ := h
  simp only [chainMeets, List.any_eq_true, Bool.and_eq_true, beq_iff_eq, decide_eq_true_eq]
  exact ⟨l, hl, ⟨rfl, by omega⟩, by omega⟩

theorem framesShotDown_invalidateFrames (s : State) (ctx lo n : Nat) : FramesShotDown (s.invalidateFrames ctx lo n) ctx lo n := by
  have htlb {l : List TlbEntry} : ∀ e ∈ l.filter (fun e => !chainMeets e.chain e.frames ctx lo n),
      ¬throughFrames ctx lo n (2 ^ (e.log2 - 21)) e.chain := by
    intro e he h
    have h1 := chainMeets_of_throughFrames h
    simp [TlbEntry.frames, h1] at he
  have hclb {l : List ClbEntry} : ∀ e ∈ l.filter (fun e => !chainMeets e.chain 1 ctx lo n), ¬throughFrames ctx lo n 1 e.chain := by
    intro e he h
    simp [chainMeets_of_throughFrames h] at he
  refine ⟨fun c hc => ?_, fun d hd => ?_, fun x hx => ?_⟩
  · obtain ⟨y, -, rfl⟩ := List.mem_map.1 hc
    exact ⟨htlb, hclb⟩
  · obtain ⟨y, -, rfl⟩ := List.mem_map.1 hd
    exact htlb
  · obtain ⟨y, -, rfl⟩ := List.mem_map.1 hx
    exact htlb

theorem framesShotDown_congr {s t : State} {ctx lo n : Nat} (h : FramesShotDown s ctx lo n) (hc : t.cores = s.cores)
    (hd : t.dies = s.dies) (hp : t.portTlbs = s.portTlbs) : FramesShotDown t ctx lo n := by
  unfold FramesShotDown NoTranslation at h ⊢
  rw [hc, hd, hp]
  exact h

theorem quiet_invalidateFrames {s : State} (h : Quiet s) (ctx lo n : Nat) : Quiet (s.invalidateFrames ctx lo n) := by
  obtain ⟨hrung, hwrites, hslots, hservice, hjoining, hlogs⟩ := h
  refine ⟨hrung, hwrites, hslots, hservice, hjoining, fun e he => ?_⟩
  obtain ⟨y, hy, rfl⟩ := List.mem_map.1 he
  exact hlogs y hy

/-! ### The instruction up to its kinds (16 R335, R338) -/

theorem ResourceBlock.of_grantBlock {kind size perm a b : Nat} {bytes : List Byte} (h : grantBlock kind size perm a b bytes) :
    ResourceBlock.of bytes = some { kind := kind, size := size, perm := perm, a := a, b := b } := by
  obtain ⟨-, rfl, rfl, rfl, h3, rfl, rfl, h4⟩ := h
  simp [ResourceBlock.of, h3, h4]

/-- The acting hart grants to `child`, which register x`c` names, what the block at x`x` says: no revocation of it is under way, and no
queue and no logged store waits. -/
structure Grants (s : State) (x c : BitVec 5) (child parent : Context) (bytes : List Byte) : Prop where
  names : Names s c child
  parentIs : s.contexts.find child.parent = some parent
  apart : child.parent ≠ ((s.hartAt s.hart).reg c).toNat
  block : BlockAt s x 4 bytes
  free : s.revocationUnderWay ((s.hartAt s.hart).reg c).toNat child = false
  quiet : Quiet s

section
variable {s : State} {x c : BitVec 5} {child parent : Context} {bytes : List Byte} (h : Grants s x c child parent bytes)
include h

theorem Grants.exec_eq (d : BitVec 5) :
    exec (.ctxGrant x c d) s = s.answers d (s.grant ((s.hartAt s.hart).reg c).toNat child bytes) := by
  obtain ⟨halign, hread⟩ := h.block
  have h1 : exec (.ctxGrant x c d) s = execCtxGrant x c d s := rfl
  have h2 := (named_ok_iff s (s.callerOf s.hart) ((s.hartAt s.hart).reg c) _ child).2 ⟨rfl, h.names.named, h.names.below⟩
  rw [h1, execCtxGrant, contextGate_of_acts h.names.acts, h2]
  simp [withBlock, halign, hread]

variable {b : ResourceBlock} (hb : ResourceBlock.of bytes = some b)
include hb

/-- A grant that returns a status changes nothing else. -/
theorem Grants.exec_memory_error (hk : b.kind = 0) (d : BitVec 5) {e : Status} (he : s.grantMemory parent child b = .error e) :
    exec (.ctxGrant x c d) s = .next (s.answer d e.code) := by
  have hp : s.context child.parent = some parent := h.parentIs
  rw [h.exec_eq, State.grant, hb, hp]
  simp [h.free, hk, he, State.answers]

/-- A memory grant that replaces nothing. -/
theorem Grants.exec_memory_new (hk : b.kind = 0) (d : BitVec 5) {c1 : Context} (ho : s.grantMemory parent child b = .ok (c1, false)) :
    ∃ t, exec (.ctxGrant x c d) s = .next t ∧ t.contexts.find ((s.hartAt s.hart).reg c).toNat = some c1 ∧
      t.harts = (s.answer d 0).harts ∧ t.mem = s.mem := by
  have hp : s.context child.parent = some parent := h.parentIs
  have hq : Quiet (s.setContext ((s.hartAt s.hart).reg c).toNat c1) := h.quiet
  refine ⟨(s.setContext ((s.hartAt s.hart).reg c).toNat c1).retryHeld.answer d 0, ?_, by simp, ?_, by simp⟩
  · rw [h.exec_eq, State.grant, hb, hp]
    simp [h.free, hk, ho, State.answers, State.retryAll_of_quiet hq]
  · exact State.answer_harts_congr (by simp) (by simp) d 0

/-- A memory grant that replaces an entry shoots down what stood in the block. -/
theorem Grants.exec_memory_replaced (hk : b.kind = 0) (d : BitVec 5) {c1 : Context}
    (ho : s.grantMemory parent child b = .ok (c1, true)) :
    ∃ t, exec (.ctxGrant x c d) s = .next t ∧ t.contexts.find ((s.hartAt s.hart).reg c).toNat = some c1 ∧
      FramesShotDown t ((s.hartAt s.hart).reg c).toNat b.a (2 ^ b.size) ∧
      t.harts = (s.noteInvalidation.answer d 0).harts ∧ t.mem = s.mem := by
  have hp : s.context child.parent = some parent := h.parentIs
  have hq : Quiet (((s.setContext ((s.hartAt s.hart).reg c).toNat c1).invalidateFrames
      ((s.hartAt s.hart).reg c).toNat b.a (2 ^ b.size)).noteInvalidation) :=
    quiet_invalidateFrames (s := s.setContext ((s.hartAt s.hart).reg c).toNat c1) h.quiet _ _ _
  refine ⟨((s.setContext ((s.hartAt s.hart).reg c).toNat c1).invalidateFrames
    ((s.hartAt s.hart).reg c).toNat b.a (2 ^ b.size)).noteInvalidation.retryHeld.answer d 0, ?_, by simp, ?_, ?_, by simp⟩
  · rw [h.exec_eq, State.grant, hb, hp]
    simp [h.free, hk, ho, State.answers, State.retryAll_of_quiet hq]
  · refine framesShotDown_congr (framesShotDown_invalidateFrames (s.setContext ((s.hartAt s.hart).reg c).toNat c1) _ _ _) ?_ ?_ ?_ <;>
      simp
  · refine State.answer_harts_congr ?_ (by simp) d 0
    exact State.noteInvalidation_harts_congr (by simp) (by simp)

theorem Grants.exec_other_error (hk : b.kind ≠ 0) (d : BitVec 5) {e : Status}
    (he : s.grantOther ((s.hartAt s.hart).reg c).toNat parent child b = .error e) :
    exec (.ctxGrant x c d) s = .next (s.answer d e.code) := by
  have hp : s.context child.parent = some parent := h.parentIs
  rw [h.exec_eq, State.grant, hb, hp]
  simp [h.free, hk, he, State.answers]

/-- A grant of what is not memory changes the child and its parent. -/
theorem Grants.exec_other (hk : b.kind ≠ 0) (d : BitVec 5) {p1 c1 : Context}
    (ho : s.grantOther ((s.hartAt s.hart).reg c).toNat parent child b = .ok (p1, c1)) :
    ∃ t, exec (.ctxGrant x c d) s = .next t ∧ t.contexts.find ((s.hartAt s.hart).reg c).toNat = some c1 ∧
      t.contexts.find child.parent = some p1 ∧ t.harts = (s.answer d 0).harts := by
  have hp : s.context child.parent = some parent := h.parentIs
  have hq : Quiet ((s.setContext child.parent p1).setContext ((s.hartAt s.hart).reg c).toNat c1) := h.quiet
  refine ⟨((s.setContext child.parent p1).setContext ((s.hartAt s.hart).reg c).toNat c1).retryHeld.answer d 0, ?_, ?_, ?_,
    State.answer_harts_congr (by simp) (by simp) d 0⟩
  · rw [h.exec_eq, State.grant, hb, hp]
    simp [h.free, hk, ho, State.answers, State.retryAll_of_quiet hq]
  · simp
  · simp [h.apart.symm]

end

/-! ### Memory (16 R323, R324, R338) -/

/-- A memory block of `2^size` frames from frame `a` of the context, granted at address `b` of its parent, that is not malformed. -/
structure MemoryBlock (c : Context) (size perm a b : Nat) : Prop where
  size_le : size ≤ 16
  perm_lt : perm < 8
  aligned : a % 2 ^ size = 0
  inside : a + 2 ^ size ≤ c.frames
  parentAligned : b % 2 ^ (21 + size) = 0
  address_lt : b < 2 ^ 48
  machine : c.parent = 0 → machineRange b (2 ^ (21 + size)) = true

/-- The context holds frame `f` with the permissions. -/
def Context.HoldsFrame (p : Context) (perm f : Nat) : Prop :=
  f < p.frames ∧ (p.grants.get f).getLsbD 0 = true ∧
    ∀ k < 3, perm.testBit k = true → (p.grants.get f).getLsbD (k + 1) = true

/-- The permissions of an entry contain others bit by bit. -/
theorem permissions_contain_iff (e : DWord) {perm : Nat} (hp : perm < 8) :
    e.toNat / 2 % 8 &&& perm = perm ↔ ∀ k < 3, perm.testBit k = true → e.getLsbD (k + 1) = true := by
  have hbit (k : Nat) : (e.toNat / 2 % 8).testBit k = (decide (k < 3) && e.getLsbD (k + 1)) := by
    rw [show (8 : Nat) = 2 ^ 3 from rfl, Nat.testBit_mod_two_pow, ← Nat.testBit_succ]
    rfl
  constructor
  · intro h k hk hpk
    have h1 := congrArg (Nat.testBit · k) h
    simpa [hbit, hk, hpk] using h1
  · intro h
    refine Nat.eq_of_testBit_eq fun k => ?_
    rw [Nat.testBit_and, hbit]
    cases hpk : perm.testBit k with
    | false => simp
    | true =>
      have hk : k < 3 := by
        by_contra hk
        have h8 : perm < 2 ^ k := lt_of_lt_of_le hp (Nat.pow_le_pow_right (n := 2) (by omega) (by omega : 3 ≤ k))
        simp [Nat.testBit_lt_two_pow h8] at hpk
      simp [hk, h k hk hpk]

section
variable {s : State} {p c : Context} {size perm a b : Nat} (hm : MemoryBlock c size perm a b)
include hm

theorem MemoryBlock.two_pow_dvd : 0x200000 ∣ b :=
  (Dvd.intro (2 ^ size) (by rw [pow_add]; norm_num) : 0x200000 ∣ 2 ^ (21 + size)).trans (Nat.dvd_of_mod_eq_zero hm.parentAligned)

/-- A frame that the parent does not hold with the permissions (16 R338). -/
theorem State.grantMemory_notHeld (hp : c.parent ≠ 0) (hh : ∃ i < 2 ^ size, ¬p.HoldsFrame perm (b / 0x200000 + i)) :
    s.grantMemory p c { kind := 0, size := size, perm := perm, a := a, b := b } = .error .notHeld := by
  obtain ⟨i, hi, hh⟩ := hh
  unfold State.grantMemory
  extract_lets frames held busy block
  have hheld : ¬frames.all held = true := by
    intro h
    have h1 : held (b + 0x200000 * i) = true :=
      List.all_eq_true.1 h _ (List.mem_map.2 ⟨i, List.mem_range.2 hi, rfl⟩)
    simp only [held, if_neg hp, Nat.add_mul_div_left b i (by omega : 0 < 0x200000), Bool.and_eq_true, decide_eq_true_eq,
      beq_iff_eq, permissions_contain_iff _ hm.perm_lt] at h1
    exact hh ⟨h1.1.1, h1.1.2, h1.2⟩
  rw [if_neg, if_pos (by simpa using hheld)]
  have h1 := hm.size_le
  have h2 := hm.perm_lt
  have h3 := hm.inside
  have h4 := hm.address_lt
  simp [hm.aligned, hm.parentAligned, hp]
  omega

/-- A grant of frames that the parent holds with the permissions, none of them still to be scrubbed (16 R338, R344). -/
theorem State.grantMemory_ok (hh : c.parent ≠ 0 → ∀ i < 2 ^ size, p.HoldsFrame perm (b / 0x200000 + i))
    (hs : ∀ i < 2 ^ size, ∀ m, s.machineOf c.parent (b + 0x200000 * i) = some m → s.scrubbing m = false) :
    s.grantMemory p c { kind := 0, size := size, perm := perm, a := a, b := b } =
      .ok ({ c with
        grants := replaceBlock c.grants a size
          ((List.range (2 ^ size)).map fun i => (a + i, grantEntry (b + 0x200000 * i) size perm)) },
        !(c.grantedIn a size).isEmpty) := by
  unfold State.grantMemory
  extract_lets frames held busy block
  have hframe {f : Nat} (hf : f ∈ frames) : ∃ i < 2 ^ size, f = b + 0x200000 * i := by
    obtain ⟨i, hi, rfl⟩ := List.mem_map.1 hf
    exact ⟨i, List.mem_range.1 hi, rfl⟩
  have hheld : frames.all held = true := by
    refine List.all_eq_true.2 fun f hf => ?_
    obtain ⟨i, hi, rfl⟩ := hframe hf
    by_cases hp : c.parent = 0
    · simp only [held, if_pos hp]
    · obtain ⟨h1, h2, h3⟩ := hh hp i hi
      simp only [held, if_neg hp, Nat.add_mul_div_left b i (by omega : 0 < 0x200000), Bool.and_eq_true, decide_eq_true_eq,
        beq_iff_eq, permissions_contain_iff _ hm.perm_lt]
      exact ⟨⟨h1, h2⟩, h3⟩
  have hbusy : ¬frames.any busy = true := by
    simp only [List.any_eq_true, not_exists, not_and]
    intro f hf
    obtain ⟨i, hi, rfl⟩ := hframe hf
    unfold busy
    split
    · simp
    next m h1 => simp [hs i hi m h1]
  rw [if_neg, if_neg (by simpa using hheld), if_neg hbusy]
  have h1 := hm.size_le
  have h2 := hm.perm_lt
  have h3 := hm.inside
  have h4 := hm.address_lt
  have h5 := hm.machine
  simp only [hm.aligned, hm.parentAligned, Bool.not_eq_true', not_or, not_and, ne_eq, not_true_eq_false, not_false_eq_true]
  exact ⟨by omega, by omega, trivial, by omega, trivial, by omega, fun hp => by simp [h5 hp]⟩

end

/-- What a memory grant leaves: the child's grant array with the block written, and no translation through what stood there. -/
theorem Grants.exec_memory {s : State} {x c d : BitVec 5} {child parent : Context} {bytes : List Byte}
    (h : Grants s x c child parent bytes) {size perm a b : Nat} (hb : grantBlock 0 size perm a b bytes)
    (hm : MemoryBlock child size perm a b) (hh : child.parent ≠ 0 → ∀ i < 2 ^ size, parent.HoldsFrame perm (b / 0x200000 + i))
    (hs : ∀ i < 2 ^ size, ∀ m, s.machineOf child.parent (b + 0x200000 * i) = some m → s.scrubbing m = false) :
    let n := ((s.hartAt s.hart).reg c).toNat
    let replaced := child.grantedIn a size ≠ []
    ∃ t, exec (.ctxGrant x c d) s = .next t ∧
      t.contexts.find n = some { child with
        grants := replaceBlock child.grants a size
          ((List.range (2 ^ size)).map fun i => (a + i, grantEntry (b + 0x200000 * i) size perm)) } ∧
      (replaced → FramesShotDown t n a (2 ^ size) ∧ t.harts = (s.noteInvalidation.answer d 0).harts) ∧
      (¬replaced → t.harts = (s.answer d 0).harts) ∧ t.mem = s.mem := by
  intro n replaced
  have ho := State.grantMemory_ok hm hh hs
  have hbl := ResourceBlock.of_grantBlock hb
  by_cases hr : child.grantedIn a size = []
  · rw [hr] at ho
    obtain ⟨t, ht, hn, hh, hmem⟩ := h.exec_memory_new hbl rfl d ho
    exact ⟨t, ht, hn, fun h1 => absurd hr h1, fun _ => hh, hmem⟩
  · rw [List.isEmpty_eq_false_iff.2 hr] at ho
    obtain ⟨t, ht, hn, hshot, hh, hmem⟩ := h.exec_memory_replaced hbl rfl d ho
    exact ⟨t, ht, hn, fun _ => ⟨hshot, hh⟩, fun h1 => absurd hr h1, hmem⟩

/-! ### Cores, general-purpose cores, ports, namespaces and the doorbell page (01 R8; 16 R338) -/

section
variable {s : State} {n : Nat} {p c : Context}

theorem State.grantOther_cores {a b : Nat} (h1 : 1 ≤ b) (h2 : b ≤ 192) (hp : a + b ≤ p.cores.length)
    (hc : ∀ k ∈ (p.cores.drop a).take b, k ∉ c.cores)
    (hroom : s.upward Context.cold c.parent = true ∨ c.cold = true ∨ s.regionUsed + 0x1000000 * b ≤ Config.grantRegionSize) :
    s.grantOther n p c { kind := 1, size := 0, perm := 0, a := a, b := b } =
      .ok (p, { c with cores := c.cores ++ (p.cores.drop a).take b }) := by
  have hdup : ¬((p.cores.drop a).take b).any (fun k => c.cores.contains k) = true := by simpa using hc
  have hfull : ¬((!s.upward Context.cold c.parent) = true ∧ (!c.cold) = true ∧
      Config.grantRegionSize < s.regionUsed + 0x1000000 * b) := by
    rintro ⟨hu, hcold, hlt⟩
    rcases hroom with h | h | h
    · simp [h] at hu
    · simp [h] at hcold
    · omega
  unfold State.grantOther
  rw [if_neg (by simp), if_pos rfl]
  dsimp only
  rw [if_neg (by omega), if_neg (by omega), if_neg hdup, if_neg hfull]

theorem mem_maskCores {a k : Nat} (hk : k < 16) : k ∈ maskCores a ↔ a.testBit k = true := by
  simp [maskCores, hk, Nat.testBit_eq_decide_div_mod_eq]

theorem mem_mergeRising {xs ys : List Nat} {n k : Nat} (hk : k < n) : k ∈ mergeRising xs ys n ↔ k ∈ xs ∨ k ∈ ys := by
  simp [mergeRising, hk]

theorem State.grantOther_gpCores {a : Nat} (ha : a < 65536) (hp : ∀ k < 16, a.testBit k = true → k ∈ p.gpCores) :
    s.grantOther n p c { kind := 2, size := 0, perm := 0, a := a, b := 0 } =
      .ok ({ p with gpCores := p.gpCores.filter fun k => !(maskCores a).contains k },
        { c with gpCores := mergeRising c.gpCores (maskCores a) 16 }) := by
  have hheld : (maskCores a).all (fun k => p.gpCores.contains k) = true := by
    refine List.all_eq_true.2 fun k hk => ?_
    have hlt : k < 16 := List.mem_range.1 (List.mem_filter.1 hk).1
    simpa using hp k hlt ((mem_maskCores hlt).1 hk)
  unfold State.grantOther
  rw [if_neg (by simp), if_neg (by simp), if_pos rfl]
  dsimp only
  rw [if_neg (by omega), if_neg (by simpa using hheld)]

/-- Some context of the subtree has a port. -/
theorem State.subtree_hasPort_iff (s : State) (n : Nat) :
    (s.subtree n).any (fun m => ((s.context m).map fun y => !y.ports.isEmpty).getD false) = true ↔
      ∃ m y, m ∈ s.subtree n ∧ s.contexts.find m = some y ∧ y.ports ≠ [] := by
  simp only [List.any_eq_true, State.context]
  constructor
  · rintro ⟨m, hm, h⟩
    cases hf : s.contexts.find m with
    | none => simp [hf] at h
    | some y => exact ⟨m, y, hm, hf, by simpa [hf] using h⟩
  · rintro ⟨m, y, hm, hf, h⟩
    exact ⟨m, hm, by simpa [hf] using h⟩

theorem State.grantOther_port {a : Nat} (ha : a < 8) (hp : a ∈ p.ports)
    (hfree : c.depth ≠ 1 ∨ ¬∃ m y, m ∈ s.subtree n ∧ s.contexts.find m = some y ∧ y.ports ≠ []) :
    s.grantOther n p c { kind := 3, size := 0, perm := 0, a := a, b := 0 } =
      .ok ({ p with ports := p.ports.filter fun k => k != a }, { c with ports := mergeRising c.ports [a] 8 }) := by
  have hone : ¬(c.depth = 1 ∧ (s.subtree n).any (fun m => ((s.context m).map fun y => !y.ports.isEmpty).getD false) = true) := by
    rw [s.subtree_hasPort_iff]
    exact fun ⟨hd, ht⟩ => hfree.elim (· hd) (· ht)
  unfold State.grantOther
  rw [if_neg (by simp), if_neg (by simp), if_neg (by simp), if_pos rfl]
  dsimp only
  rw [if_neg (by omega), if_neg (by simpa using hp), if_neg hone]

/-- A partition of depth 1 with a port takes no other (01 R8). -/
theorem State.grantOther_secondPort {a : Nat} (ha : a < 8) (hp : a ∈ p.ports) (hd : c.depth = 1)
    (htaken : ∃ m y, m ∈ s.subtree n ∧ s.contexts.find m = some y ∧ y.ports ≠ []) :
    s.grantOther n p c { kind := 3, size := 0, perm := 0, a := a, b := 0 } = .error .limit := by
  unfold State.grantOther
  rw [if_neg (by simp), if_neg (by simp), if_neg (by simp), if_pos rfl]
  dsimp only
  rw [if_neg (by omega), if_neg (by simpa using hp), if_pos ⟨hd, (s.subtree_hasPort_iff n).2 htaken⟩]

theorem State.grantOther_namespace {a b : Nat} (ha : a < 4) (hb : b < 2 ^ 32) (hp : s.holdsNamespace c.parent (a, b) = true) :
    s.grantOther n p c { kind := 4, size := 0, perm := 0, a := a, b := b } =
      .ok ({ p with namespaces := p.namespaces.filter fun y => y != (a, b) },
        { c with namespaces := c.namespaces ++ [(a, b)] }) := by
  unfold State.grantOther
  rw [if_neg (by simp), if_neg (by simp), if_neg (by simp), if_neg (by simp), if_pos rfl]
  dsimp only
  rw [if_neg (by omega), if_neg (by simpa using hp)]

theorem State.grantOther_doorbell {b : Nat} (hb : b % 4096 = 0) (hin : b / 0x200000 < c.frames)
    (hfree : (c.grants.get (b / 0x200000)).getLsbD 0 = false) (hd : c.doorbell = none) :
    s.grantOther n p c { kind := 5, size := 0, perm := 0, a := 0, b := b } = .ok (p, { c with doorbell := some b }) := by
  unfold State.grantOther
  rw [if_neg (by simp), if_neg (by simp), if_neg (by simp), if_neg (by simp), if_neg (by simp), if_pos rfl]
  dsimp only
  rw [if_neg, if_neg (by simp [hd])]
  rintro (h | h | h | h)
  · exact h rfl
  · exact h hb
  · omega
  · exact absurd (hfree.symm.trans h) (by decide)

end

/-- Settles O44: the array by where a key lies beside the changed block, what is shot down by the invalidation's own test, and each other
kind by the child and parent that it makes. -/
theorem grantResult : Obligations.GrantResult := by
  unfold Obligations.GrantResult
  intro s x c d child parent bytes hnames hparent hapart hblock hfree hquiet n
  have h : Grants s x c child parent bytes := ⟨hnames, hparent, hapart, hblock, hfree, hquiet⟩
  refine ⟨fun size perm a b hb hsize hperm ha hin hb21 hb48 => ⟨?memory, ?notHeld⟩, ?cores, ?gpCores,
    fun a hb ha hp => ⟨?port, ?secondPort⟩, ?storage, ?doorbell⟩
  case memory =>
    intro hmach hheld hscrub replaced
    have hm : MemoryBlock child size perm a b := ⟨hsize, hperm, ha, hin, hb21, hb48, hmach⟩
    obtain ⟨t, ht, hn, hr, hnr, hmem⟩ := h.exec_memory (d := d) hb hm hheld hscrub
    refine ⟨t, _, ht, hn, rfl, fun i hi => ?_, fun k hk => get_replaceBlock_outside child.grants _ hk, hr, hnr, hmem⟩
    refine (get_replaceBlock_inside child.grants _ hi).trans (grantEntry_of_aligned ?_ size perm)
    exact (Nat.dvd_add_right hm.two_pow_dvd).2 (Nat.dvd_mul_right ..)
  case notHeld =>
    intro hp hmiss
    have hm : MemoryBlock child size perm a b := ⟨hsize, hperm, ha, hin, hb21, hb48, fun h0 => absurd h0 hp⟩
    obtain ⟨i, hi, hmiss⟩ := hmiss
    refine h.exec_memory_error (ResourceBlock.of_grantBlock hb) rfl d (State.grantMemory_notHeld hm hp ⟨i, hi, ?_⟩)
    rintro ⟨h1, h2, h3⟩
    rcases hmiss with h4 | h4 | ⟨k, hk, hpk, h4⟩
    · omega
    · exact absurd (h2.symm.trans h4) (by decide)
    · exact absurd ((h3 k hk hpk).symm.trans h4) (by decide)
  case cores =>
    intro a b hb h1 h2 hp hc hroom
    obtain ⟨t, ht, hn, -, hh⟩ :=
      h.exec_other (ResourceBlock.of_grantBlock hb) (by simp) d (State.grantOther_cores h1 h2 hp hc hroom)
    exact ⟨t, _, ht, hn, rfl, hh⟩
  case gpCores =>
    intro a hb ha hp
    obtain ⟨t, ht, hn, hpar, hh⟩ :=
      h.exec_other (ResourceBlock.of_grantBlock hb) (by simp) d (State.grantOther_gpCores ha hp)
    refine ⟨t, _, _, ht, hn, hpar, fun k hk => ?_, fun k hk => ?_, hh⟩
    · rw [mem_mergeRising hk, mem_maskCores hk]
    · simp [List.mem_filter, mem_maskCores hk]
  case port =>
    intro hok
    obtain ⟨t, ht, hn, hpar, hh⟩ :=
      h.exec_other (ResourceBlock.of_grantBlock hb) (by simp) d (State.grantOther_port ha hp hok)
    refine ⟨t, _, _, ht, hn, hpar, fun k hk => ?_, rfl, hh⟩
    simp [mem_mergeRising hk]
  case secondPort =>
    intro hd htaken
    exact h.exec_other_error (ResourceBlock.of_grantBlock hb) (by simp) d (State.grantOther_secondPort ha hp hd htaken)
  case storage =>
    intro a b hb ha hb32 hp
    obtain ⟨t, ht, hn, hpar, hh⟩ :=
      h.exec_other (ResourceBlock.of_grantBlock hb) (by simp) d (State.grantOther_namespace ha hb32 hp)
    exact ⟨t, _, _, ht, hn, hpar, rfl, rfl, hh⟩
  case doorbell =>
    intro b hb hb12 hin hg hd
    obtain ⟨t, ht, hn, -, hh⟩ :=
      h.exec_other (ResourceBlock.of_grantBlock hb) (by simp) d (State.grantOther_doorbell hb12 hin hg hd)
    exact ⟨t, _, ht, hn, rfl, hh⟩

end Sys2Proof.Machine
end

section
/-!
PROOFS. The placement of a crew, with what stands where after it, and its release (01 R14, R22; 07 R186; 11 R243; 13 R301-R304).
-/
namespace Sys2Proof.Machine
open Sys2Proof.Claim

/-! ### What an access of a queue leaves alone (13 R420) -/

/-- The crews, the gangs, and until when the distributors have placed. -/
def State.residents (s : State) : Table Crew × Table Gang × Nat := (s.crews, s.gangs, s.placedUntil)

theorem State.residents_eq_iff {s t : State} :
    t.residents = s.residents ↔ t.crews = s.crews ∧ t.gangs = s.gangs ∧ t.placedUntil = s.placedUntil := by
  simp [State.residents]

theorem State.modifyContext_residents (s : State) (n : Nat) (f : Context → Context) :
    (s.modifyContext n f).residents = s.residents := by
  unfold State.modifyContext
  split <;> rfl

theorem ringWrite_residents {s t : State} {ctx : Nat} {r : FaultRecord} (h : s.ringWrite ctx r = some t) :
    t.residents = s.residents := by
  unfold State.ringWrite at h
  split at h
  · cases h
  split at h
  · cases h
  dsimp only at h
  split at h
  · cases h
  · cases h
    rfl

theorem State.postRecord_residents (s : State) (start : Nat) (r : FaultRecord) (b : Blocked) :
    (s.postRecord start r b).residents = s.residents := by
  unfold State.postRecord
  split
  · rfl
  dsimp only
  split
  · rfl
  split
  next h => exact ringWrite_residents h
  · rfl

theorem State.holdQueue_residents (s : State) (id : QueueId) (va : Nat) (f : AccessFault) :
    (s.holdQueue id va f).residents = s.residents := by
  unfold State.holdQueue State.postFault
  dsimp only
  split
  · rfl
  split
  · rfl
  · exact State.postRecord_residents _ _ _ _

theorem State.stopQueue_residents (s : State) (ctx : Nat) (addr : DWord) (machine : Nat) :
    (s.stopQueue ctx addr machine).residents = s.residents := by
  unfold State.stopQueue
  dsimp only
  split
  · exact State.modifyContext_residents _ _ _
  · rfl

theorem State.queueFault_residents (s : State) (id : QueueId) (e : DeviceFault) : (s.queueFault id e).residents = s.residents := by
  cases e with
  | hold va f => exact s.holdQueue_residents id va f
  | bad addr machine => exact s.stopQueue_residents id.ctx addr machine

theorem State.writePlace_residents (s : State) (p : Place) (n v : Nat) : (s.writePlace p n v).residents = s.residents := by
  cases p with
  | mem a => rfl
  | device ctx off =>
    unfold State.writePlace State.deviceWrite
    dsimp only
    split
    · rfl
    · split <;> rfl

theorem makeWrites_residents (s : State) (blocked : List QueueId) (ws : List QueueWrite) :
    (makeWrites s blocked ws).1.residents = s.residents := by
  induction ws generalizing s blocked with
  | nil => rfl
  | cons w ws ih =>
    unfold makeWrites
    split
    · exact ih s blocked
    split
    · exact (ih _ _).trans (s.queueFault_residents _ _)
    · exact (ih _ _).trans (State.writePlace_residents _ _ _ _)

theorem State.queueWrite_residents (s : State) (id : QueueId) (va n v : Nat) : (s.queueWrite id va n v).residents = s.residents := by
  unfold State.queueWrite State.flushWrites
  split
  · rfl
  · exact makeWrites_residents _ _ _

/-! ### The start of a crew (01 R14, R22; 11 R243) -/

theorem State.giveGranules_residents (s : State) (core ctx n : Nat) (free : List Nat) :
    (s.giveGranules core ctx n free).2.residents = s.residents := by
  induction n generalizing s free with
  | zero => rfl
  | succ n ih =>
    unfold State.giveGranules
    split
    · rfl
    · exact ih _ _

/-- Gangs put one after another at keys of their own. -/
theorem find_foldl_setGang {key : Nat → Nat} {is : List Nat} {i : Nat} (hi : i ∈ is) (hkey : ∀ j ∈ is, key j = key i → j = i)
    (f : Nat → Gang) (s : State) : (is.foldl (fun acc j => acc.setGang (key j) (f j)) s).gangs.find (key i) = some (f i) := by
  induction is using List.reverseRecOn with
  | nil => cases hi
  | append_singleton is j ih =>
    rw [List.foldl_append, List.foldl_cons, List.foldl_nil, State.setGang_gangs, Table.find_put]
    split
    next h => rw [hkey j (by simp) h]
    next h =>
      rcases List.mem_append.1 hi with h1 | h1
      · exact ih h1 fun k hk => hkey k (List.mem_append_left _ hk)
      · exact absurd (by rw [List.mem_singleton.1 h1]) h

theorem foldl_setGang_others (key : Nat → Nat) (f : Nat → Gang) (is : List Nat) (s : State) :
    (is.foldl (fun acc j => acc.setGang (key j) (f j)) s).crews = s.crews ∧
      (is.foldl (fun acc j => acc.setGang (key j) (f j)) s).placedUntil = s.placedUntil := by
  induction is generalizing s with
  | nil => exact ⟨rfl, rfl⟩
  | cons j is ih => exact ih _

/-- The rounding key of a lane right after its crew starts (01 R22). -/
theorem Gang.start_srkey (ctx crew index crewIndex : Nat) (r : LaunchRecord) {l : Nat} (hl : l < r.width) :
    (Gang.start ctx crew index crewIndex r).srkey.get l =
      BitVec.ofNat 32 (l + r.width * (index + r.gangCount * crewIndex)) :=
  Cells.get_setAll_self [] (List.range r.width) id _ l (List.mem_range.2 hl) fun _ _ h => h

/-- The record of a crew that is placed (11 R253, R254; 13 R301). -/
def State.placedCrew (s : State) (ctx core : Nat) (l : Launch) (ps : List Nat) : Crew where
  ctx := ctx
  launch := l.record.ident
  record := l.record
  index := l.nextCrew
  gangs := ps.map fun p => core * 128 + p
  granules := (s.giveGranules core ctx l.record.granules (s.freeGranules core)).1
  barriers := []
  convoys := l.record.convoyTable
  manifest := none
  mooring := []

/-- A placement puts the crew's record in the lowest free slot and then each gang, as it starts, at its key. -/
theorem State.placeCrew_residents (s : State) (ctx core : Nat) (l : Launch) (ps : List Nat) :
    (s.placeCrew ctx core l ps).residents =
      ((List.range (ps.map fun p => core * 128 + p).length).foldl
        (fun acc i => acc.setGang ((ps.map fun p => core * 128 + p).getD i 0)
          (Gang.start ctx (core * 8 + s.freeSlot core) i l.nextCrew l.record))
        ((s.giveGranules core ctx l.record.granules (s.freeGranules core)).2.setCrew (core * 8 + s.freeSlot core)
          (s.placedCrew ctx core l ps))).residents :=
  State.modifyContext_residents _ _ _

/-- What stands where after a crew has been placed: its record in the core's lowest free slot, and its gangs at their positions. -/
theorem State.placeCrew_places (s : State) (ctx core : Nat) (l : Launch) {ps : List Nat} (hps : ps.Nodup) :
    (s.placeCrew ctx core l ps).crews.find (core * 8 + s.freeSlot core) = some (s.placedCrew ctx core l ps) ∧
      (∀ i < ps.length, (s.placeCrew ctx core l ps).gangs.find (core * 128 + ps.getD i 0) =
        some (Gang.start ctx (core * 8 + s.freeSlot core) i l.nextCrew l.record)) ∧
      (s.placeCrew ctx core l ps).placedUntil = s.placedUntil := by
  have hkeys : (ps.map fun p => core * 128 + p).Nodup := hps.map fun _ _ h => Nat.add_left_cancel h
  have hlen : (ps.map fun p => core * 128 + p).length = ps.length := List.length_map _
  obtain ⟨-, -, hgiven⟩ := State.residents_eq_iff.1 (s.giveGranules_residents core ctx l.record.granules (s.freeGranules core))
  obtain ⟨hcrews, hgangs, huntil⟩ := State.residents_eq_iff.1 (s.placeCrew_residents ctx core l ps)
  refine ⟨?_, fun i hi => ?_, ?_⟩
  · rw [hcrews, (foldl_setGang_others _ _ _ _).1, State.setCrew_crews, Table.find_put, if_pos rfl]
  · have hkey : (ps.map fun p => core * 128 + p).getD i 0 = core * 128 + ps.getD i 0 := by
      simp [List.getD_eq_getElem?_getD, hi]
    rw [hgangs, ← hkey]
    refine find_foldl_setGang (List.mem_range.2 (hlen ▸ hi)) (fun j hj h => ?_) _ _
    rw [List.getD_eq_getElem _ _ (List.mem_range.1 hj), List.getD_eq_getElem _ _ (hlen ▸ hi)] at h
    exact (hkeys.getElem_inj_iff).1 h
  · rw [huntil, (foldl_setGang_others _ _ _ _).2, State.setCrew_placedUntil, hgiven]

/-- A placement with the write of a launch's start time leaves the crews and gangs as the placement does (13 R291, R301). -/
theorem State.placeChoice_residents (s : State) (x : Choice) :
    (s.placeChoice x).residents = (s.placeCrew x.ctx x.core x.launch x.positions).residents := by
  unfold State.placeChoice
  dsimp only
  split
  · exact State.queueWrite_residents _ _ _ _ _
  · rfl

/-- One distributor's choice meets no other for its core, and its crew is placed (13 R305). -/
theorem execCrewPlace_single {s : State} {x : Choice} (hc : s.placedUntil ≤ s.clock)
    (hx : s.contexts.filterMap (fun e => if e.2.distributes then s.choose e.1 e.2 else none) = [x]) :
    execCrewPlace s = .next (State.placeChoice { s with
      placedUntil := s.clock + 1, contexts := s.contexts.update fun n c => c.serve n [x] [x] } x) := by
  have hwins : [x].filter (fun a => [x].all fun b => a.ctx == b.ctx || a.core != b.core || s.wins a b) = [x] := by simp
  unfold execCrewPlace
  rw [if_neg (by omega)]
  dsimp only
  rw [hx, hwins]
  rfl

/-! ### The end of a crew (07 R186; 09 R225; 13 R304) -/

section
variable (s : State) (key : Nat) (c : Crew)

theorem State.modifyContext_find (n : Nat) (f : Context → Context) :
    (s.modifyContext n f).contexts.find n = (s.contexts.find n).map f := by
  unfold State.modifyContext
  cases h : s.contexts.find n with
  | none => simp [h]
  | some x => simp

theorem State.modifyContext_core (n : Nat) (f : Context → Context) (core : Nat) : (s.modifyContext n f).core core = s.core core := by
  unfold State.modifyContext
  split <;> rfl

/-- The bank of a context on a core after it has been replaced. -/
theorem State.setBank_bank (core ctx : Nat) (b : Bank) : ((s.setBank core ctx b).core core).banks.find ctx = some b := by
  simp [State.setBank, State.core]

/-- A released crew's gangs and record leave the device. -/
theorem State.releaseCrew_residents : (s.releaseCrew key c).residents =
    (s.crews.erase key, s.gangs.filter fun e => !c.gangs.contains e.1, s.placedUntil) := by
  unfold State.releaseCrew
  dsimp only
  rw [State.modifyContext_residents]
  split <;> rfl

/-- Its context counts the crew's end, and has a claim on the freed slot (13 R304). -/
theorem State.releaseCrew_context {x : Context} (h : s.contexts.find c.ctx = some x) :
    (s.releaseCrew key c).contexts.find c.ctx = some { x with
      launches := x.launches.map fun l => if l.record.ident == c.launch then { l with crewsEnded := l.crewsEnded + 1 } else l
      freed := x.freed ++ [(s.clock, key / 8)] } := by
  unfold State.releaseCrew
  dsimp only
  rw [State.modifyContext_find]
  split <;> simp [State.setBank, h]

/-- The crew holds no accumulator of its context's bank (09 R225). -/
theorem State.releaseCrew_holds {b : Bank} (h : ((s.releaseCrew key c).core (key / 8)).banks.find c.ctx = some b) :
    ∀ e ∈ b.holds, e.2 ≠ BitVec.ofNat 32 (key + 1) := by
  unfold State.releaseCrew at h
  dsimp only at h
  rw [State.modifyContext_core] at h
  split at h
  next hnone => cases hnone.symm.trans h
  next y hsome =>
    rw [State.setBank_bank] at h
    cases h
    intro e he
    simpa using (List.mem_filter.1 he).2

end

/-- Settles O50: what a placement puts where, its write of the start time leaving crews and gangs alone, and the release of a crew. -/
theorem crewPlacedAndReleased : Obligations.CrewPlacedAndReleased := by
  unfold Obligations.CrewPlacedAndReleased
  refine ⟨fun s x hc hx hps => ?placed, fun s hc => ?again, fun s crew c hcrew hctx => ⟨fun hd => ?stays, fun hd he => ?released⟩⟩
  case placed =>
    intro slot
    have hrun : exec .crewPlace s = execCrewPlace s := rfl
    obtain ⟨hc1, hg1, hp1⟩ := State.placeCrew_places { s with
      placedUntil := s.clock + 1, contexts := s.contexts.update fun n c => c.serve n [x] [x] } x.ctx x.core x.launch hps
    obtain ⟨hc2, hg2, hp2⟩ := State.residents_eq_iff.1 (State.placeChoice_residents { s with
      placedUntil := s.clock + 1, contexts := s.contexts.update fun n c => c.serve n [x] [x] } x)
    refine ⟨_, _, hrun.trans (execCrewPlace_single hc hx), hp2.trans hp1, (congrArg (Table.find · slot) hc2).trans hc1, rfl, rfl, rfl,
      rfl, rfl, rfl, rfl, rfl, fun i hi => ⟨_, (congrArg (Table.find · _) hg2).trans (hg1 i hi), rfl, rfl, rfl, rfl, rfl, rfl, rfl, rfl,
      rfl, rfl, rfl, rfl, fun a => List.eq_of_mem_replicate, List.length_replicate, fun sl hsl => ?_,
      fun l hl => Gang.start_srkey _ _ _ _ _ hl⟩⟩
    rw [List.eq_of_mem_replicate hsl]
    exact ⟨rfl, rfl, rfl⟩
  case again => exact if_pos hc
  case stays =>
    have hrun : exec .crewEnd s = execCrewEnd s := rfl
    rw [hrun, execCrewEnd, hcrew]
    simp [hd]
  case released =>
    have hrun : exec .crewEnd s = execCrewEnd s := rfl
    obtain ⟨hcrews, hgangs⟩ := Prod.ext_iff.1 (s.releaseCrew_residents s.subject.who crew)
    obtain ⟨hgangs, -⟩ := Prod.ext_iff.1 hgangs
    have hfind (k : Nat) : (s.releaseCrew s.subject.who crew).gangs.find k = if !crew.gangs.contains k then s.gangs.find k else none :=
      (congrArg (Table.find · k) hgangs).trans (Table.find_filter_key s.gangs (fun k => !crew.gangs.contains k) k)
    have hcrew' (k : Nat) : (s.releaseCrew s.subject.who crew).crews.find k = if k = s.subject.who then none else s.crews.find k :=
      (congrArg (Table.find · k) hcrews).trans (Table.find_erase s.crews s.subject.who k)
    refine ⟨s.releaseCrew s.subject.who crew, _, ?_, ?_, fun k hk => ?_, fun k hk => ?_, fun k hk => ?_,
      s.releaseCrew_context s.subject.who crew hctx, ?_, ?_, fun b => s.releaseCrew_holds s.subject.who crew,
      s.releaseCrew_mem s.subject.who crew⟩
    · rw [hrun, execCrewEnd, hcrew]
      simp [hd, he]
    · simp [hcrew']
    · simp [hfind, hk]
    · simp [hfind, hk]
    · simp [hcrew', hk]
    · simp
    · simp

end Sys2Proof.Machine
end

section
/-!
PROOFS. Encoding and decoding agree (02 R37-R53; 16 R335). A word is a sum of fields, each at its place; reading a place of such a sum gives
the field that stands there. The other way, the fields and the fixed bits of a word, each at its place, add up to the word.
-/
namespace Sys2Proof
open Sys2Proof.Claim

/-! ### Reading a word that is written as a sum of fields (02 R37) -/

theorem bits_eq (w lo n : Nat) : bits w lo n = w / 2 ^ lo % 2 ^ n := by rw [bits]

theorem field_eq (w lo n : Nat) : field w lo n = BitVec.ofNat n (bits w lo n) :=
  BitVec.eq_of_toNat_eq (by simp [field, bits])

theorem flag_eq (w i : Nat) : flag w i = (BitVec.ofNat 1 (bits w i 1)).getLsbD 0 := by
  unfold flag bits
  rcases Nat.mod_two_eq_zero_or_one (w / 2 ^ i) with h | h <;> simp [h]

theorem getLsbD_zero_ofBool (b : Bool) : (BitVec.ofBool b).getLsbD 0 = b := by cases b <;> rfl

theorem add_mul_mod_of_mod {A y k p : Nat} (hk : k % p = 0) : (A + y * k) % p = A % p := by
  obtain ⟨q, rfl⟩ := Nat.dvd_of_mod_eq_zero hk
  rw [Nat.mul_left_comm, Nat.add_mul_mod_self_left]

/-- A field above the place that is read does not show there. -/
theorem bits_add_above {A y k lo n : Nat} (hk : k % 2 ^ (lo + n) = 0) : bits (A + y * k) lo n = bits A lo n := by
  rw [bits_eq, bits_eq, ← Nat.mod_mul_right_div_self, ← Nat.mod_mul_right_div_self, ← Nat.pow_add, add_mul_mod_of_mod hk]

/-- A field below the place that is read, where nothing else stands, does not show there. -/
theorem bits_add_below {A k lo n m : Nat} {y : BitVec m} (h : A % (2 ^ m * k) + (2 ^ m - 1) * k < 2 ^ m * k)
    (hlo : 2 ^ lo % (2 ^ m * k) = 0) : bits (A + y.toNat * k) lo n = bits A lo n := by
  obtain ⟨q, hq⟩ := Nat.dvd_of_mod_eq_zero hlo
  have hy : y.toNat * k ≤ (2 ^ m - 1) * k := Nat.mul_le_mul_right k (by omega)
  have hlt : A % (2 ^ m * k) + y.toNat * k < 2 ^ m * k := by omega
  have hd : (A + y.toNat * k) / (2 ^ m * k) = A / (2 ^ m * k) := by
    conv_lhs => rw [← Nat.div_add_mod A (2 ^ m * k), Nat.add_assoc, Nat.mul_add_div (by omega), Nat.div_eq_of_lt hlt, Nat.add_zero]
  rw [bits_eq, bits_eq, hq, ← Nat.div_div_eq_div_mul, hd, Nat.div_div_eq_div_mul]

/-- A field at the place that is read, where nothing else stands. -/
theorem bits_add_at {A k lo n : Nat} {y : BitVec n} (hk : k = 2 ^ lo) (h : bits A lo n = 0) :
    bits (A + y.toNat * k) lo n = y.toNat := by
  rw [bits_eq] at *
  rw [hk, Nat.add_mul_div_right _ _ (Nat.two_pow_pos lo), Nat.add_mod, h, Nat.zero_add, Nat.mod_mod, Nat.mod_eq_of_lt y.isLt]

/-- A field in the lowest bits, read elsewhere. -/
theorem bits_add_first {A lo n m : Nat} {y : BitVec m} (h : A % 2 ^ m = 0) (hlo : 2 ^ lo % 2 ^ m = 0) :
    bits (A + y.toNat) lo n = bits A lo n := by
  simpa using bits_add_below (A := A) (k := 1) (lo := lo) (n := n) (y := y) (by simp [h]) (by simpa using hlo)

/-- A field in the lowest bits, read there. -/
theorem bits_add_first_at {A n : Nat} {y : BitVec n} (h : bits A 0 n = 0) : bits (A + y.toNat) 0 n = y.toNat := by
  simpa using bits_add_at (A := A) (k := 1) (lo := 0) (y := y) rfl h

/-- The highest seven bits are the primary opcode, whatever fields stand below (02 R37). -/
theorem opcode_of_word {w C x : Nat} (h : C + x = w) (hx : C % 33554432 + x < 33554432) (hC : C < 4294967296) :
    w < 2 ^ 32 ∧ bits w 25 7 = C / 33554432 := by
  rw [bits_eq]
  omega

/-! ### The word of an instruction decodes to it -/

/-- The decoder that reads the word of a gang's instruction: that of its primary opcode (02 R50, R51). -/
def decoderOf : Instr → Nat → Except Reject Instr
  | .nop .. => decodeNop | .iadd .. => decodeIadd | .isub .. => decodeIsub | .imul .. | .imulhi .. | .imulhu .. => decodeImul
  | .imad .. => decodeImad | .iquo .. | .iquoU .. => decodeIquo | .irem .. | .iremU .. => decodeIrem | .imin .. | .iminU .. => decodeImin
  | .imax .. | .imaxU .. => decodeImax | .iabs .. => decodeIabs | .ineg .. => decodeIneg
  | .and .. | .andn .. | .or .. | .orn .. | .xor .. | .xnor .. | .not .. => decodeLogic
  | .shl .. | .shr .. | .sar .. | .rol .. => decodeShift | .popc .. | .clz .. | .ctz .. | .brev .. => decodeBitcount
  | .bfe .. | .bfeS .. => decodeBfe | .bfi .. => decodeBfi | .sel .. => decodeSel
  | .icmpEq .. | .icmpNe .. | .icmpLt .. | .icmpLe .. | .icmpLtu .. | .icmpLeu .. | .icmpTst .. | .icmpTstz .. => decodeIcmp
  | .add64 .. | .sub64 .. => decodeAdd64 | .mul64 .. | .mul64U .. => decodeMul64 | .lea .. => decodeLea | .addi .. => decodeAddi
  | .andi .. => decodeAndi | .ori .. => decodeOri | .xori .. => decodeXori | .shli .. | .shri .. | .sari .. | .roli .. => decodeShi
  | .movi .. => decodeMovi | .movhi .. => decodeMovhi | .mov .. | .bcast .. | .rdlane .. | .wrlane .. => decodeMov
  | .pand .. | .por .. | .pxor .. | .pnot .. | .ptest .. | .pcnt .. | .pfirst .. | .pbits .. => decodePredop | .pset .. => decodePset
  | .iadds .. | .iaddus .. | .isubs .. | .isubus .. => decodeSatadd | .fadd .. => decodeFadd | .fsub .. => decodeFsub
  | .fmul .. => decodeFmul | .fma .. => decodeFma | .fms .. => decodeFms | .fnma .. => decodeFnma
  | .fmin .. | .fmax .. | .fminnum .. | .fmaxnum .. => decodeMinmax | .fdiv .. => decodeFdiv | .fsqrt .. => decodeFsqrt
  | .frcp .. | .frsq .. | .fexp2 .. | .flog2 .. | .fsin .. | .fcos .. | .frint .. | .ffloor .. => decodeFunary
  | .fcmpEq .. | .fcmpNe .. | .fcmpLt .. | .fcmpLe .. | .fcmpUn .. | .fcmpOrd .. | .fcmpLtu .. | .fcmpLeu .. => decodeFcmp
  | .fclass .. => decodeFclass | .cvt .. => decodeCvt | .cvti .. | .cvtiU .. => decodeCvti | .cvtf .. | .cvtfU .. => decodeCvtf
  | .pack16 .. | .pack8 .. | .pack4 .. => decodePack | .unpack16 .. | .unpack8 .. | .unpack4 .. => decodeUnpack
  | .xhist .. => decodeXhist | .dot2 .. | .dot4 .. | .dot8 .. => decodeDot | .rng .. => decodeRng
  | .shflIdx .. | .shflUp .. | .shflDown .. | .shflXor .. | .shflBcast .. => decodeShfl
  | .vredFadd .. | .vredFmax .. | .vredFmin .. | .vredIadd .. | .vredImax .. | .vredImin .. => decodeVred
  | .vscanFadd .. | .vscanIadd .. | .vscanIaddx .. => decodeVscan | .trim .. => decodeTrim | .fscale .. => decodeFscale
  | .mma .. => decodeMma | .mmas .. => decodeMmas | .azero .. => decodeAzero | .aload .. => decodeAload | .adrain .. => decodeAdrain
  | .apeerSend .. | .apeerRecv .. => decodeApeer | .arowGet .. | .arowPut .. => decodeArow | .convoy .. | .convoyNone .. => decodeConvoy
  | .ld .. => decodeLd | .st .. => decodeSt | .ldsp .. => decodeLdsp | .stsp .. => decodeStsp | .ldacq .. => decodeLdacq
  | .strel .. => decodeStrel | .atomAdd .. | .atomMin .. | .atomMax .. | .atomExch .. => decodeAtom
  | .atombAnd .. | .atombOr .. | .atombXor .. | .atombFadd .. => decodeAtomb | .cas .. => decodeCas
  | .mredAdd .. | .mredFadd .. | .mredMin .. | .mredMax .. => decodeMred | .ordap .. => decodeOrdap
  | .mrlookVector .. | .mrlookScalar .. => decodeMrlook | .mrset .. => decodeMrset | .mrclr .. => decodeMrclr | .sld .. => decodeSld
  | .sst .. => decodeSst | .pref .. => decodePref | .hmk .. | .hmkGet .. => decodeHmk | .crc .. => decodeCrc
  | .crtTile .. | .crtTr .. | .crtGather .. | .crtDeq .. => decodeCrt | .lgt .. => decodeLgt | .lsc .. => decodeLsc
  | .pilStart .. | .pilNext .. | .pilStop .. => decodePil | .rcb .. => decodeRcb | .rcw .. => decodeRcw | .ccw .. => decodeCcw
  | .fenceAcq .. | .fenceRel .. | .fenceAcqrel .. | .fenceSc .. => decodeFence
  | .fencerAcq .. | .fencerRel .. | .fencerAcqrel .. => decodeFencer | .cyield .. => decodeCyield | .ldc .. => decodeLdc
  | .stc .. => decodeStc | .chq .. => decodeChq | .chfree .. | .chfreeRet .. => decodeChfree
  | .clbinv .. | .clbinvTile .. => decodeClbinv | .berth .. => decodeBerth | .mfst .. => decodeMfst
  | .tideWait .. | .tideAge .. | .tideMark .. => decodeTide | .br .. => decodeBr | .jmp .. => decodeJmp | .call .. => decodeCall
  | .ret .. => decodeRet | .join .. | .regang .. => decodeJoinop | .bar .. | .barc .. | .arrive .. | .await .. => decodeBarrier
  | .exit .. => decodeExit | .rsr .. => decodeRsr | .wsrTrim .. | .wsrSrkey .. | .wsrFpflags .. => decodeWsr
  | .trap .. | .trapif .. => decodeTrapop | .brk .. => decodeBrk | .lnch .. => decodeLnch | .modifier .. => decodeModifier
  | _ => fun _ => .error .unassignedOpcode

/-- A gang's word meets the decoder of its opcode: the fields stand below the opcode and do not reach it. -/
theorem decodeFields_eq_decoderOf {i : Instr} {w : Nat} (h : encode i = some w) (hi : hartRow i = false) :
    w < 2 ^ 32 ∧ decodeFields w = decoderOf i w := by
  cases i
  all_goals try contradiction
  all_goals replace h := Option.some.inj h
  case nop | convoyNone | pilNext | pilStop | berth | join | regang | exit =>
    subst h
    exact ⟨by decide, rfl⟩
  all_goals
    simp -failIfUnchanged only [Nat.add_assoc, ← BitVec.toNat_ofBool] at h
    obtain ⟨hlt, hop⟩ := opcode_of_word h (by clear h; simp only [Nat.reduceMod]; omega) (by decide)
    refine ⟨hlt, ?_⟩
    rewrite [decodeFields.eq_def, hop]
    rfl

/-- A decoder reads back the fields of each of its instructions. Most rows of a decoder are passed over for the fixed bits that they ask
for; of five instructions, an earlier row asks for bits in which an operand stands. -/
theorem decoderOf_encode {i : Instr} {w : Nat} (h : encode i = some w) (hi : hartRow i = false) : decoderOf i w = .ok i := by
  cases i
  all_goals try contradiction
  all_goals replace h := Option.some.inj h
  case nop | convoyNone | pilNext | pilStop | berth | join | regang | exit =>
    subst h
    rfl
  all_goals
    simp -failIfUnchanged only [← BitVec.toNat_ofBool] at h
    first | show ite _ _ _ = _ | show Except.ok _ = _
  case' rdlane | wrlane => rw [if_neg (by rw [bits_eq]; omega), if_neg (by rw [bits_eq]; omega)]
  case' await => rw [if_neg (by rw [bits_eq]; omega), if_neg (by rw [bits_eq]; omega), if_neg (by rw [bits_eq]; omega)]
  case' clbinvTile | trapif => rw [if_neg (by rw [bits_eq]; omega)]
  all_goals
    rw [← h]
    simp only [↓bits_add_above, ↓bits_add_below, ↓bits_add_at, ↓bits_add_first, ↓bits_add_first_at, add_mul_mod_of_mod, bits_eq,
      field_eq, flag_eq, BitVec.ofNat_toNat, BitVec.setWidth_eq, getLsbD_zero_ofBool, Nat.reduceMod, Nat.reducePow, Nat.reduceAdd,
      Nat.reduceMul, Nat.reduceDiv, Nat.reduceSub, Nat.reduceLT, Nat.reduceEqDiff, ↓reduceIte, false_and, and_false, and_self]

/-- A hart's word decodes to its instruction, or to the one that shares its word (16 R335). -/
theorem decodeHart_encode {i : Instr} {w : Nat} (h : encode i = some w) (hi : hartRow i = true) :
    w < 2 ^ 32 ∧ decodeHart w = .ok (spelled i) := by
  cases i
  all_goals try contradiction
  all_goals
    replace h := Option.some.inj h
    refine ⟨by omega, ?_⟩
    rw [decodeHart, ← h]
    simp only [↓bits_add_above, ↓bits_add_below, ↓bits_add_at, add_mul_mod_of_mod, bits_eq, field_eq, BitVec.ofNat_toNat,
      BitVec.setWidth_eq, Nat.reduceMod, Nat.reducePow, Nat.reduceAdd, Nat.reduceMul, Nat.reduceDiv, Nat.reduceSub, Nat.reduceLT,
      Nat.reduceEqDiff, ↓reduceIte, false_and, and_self]
  case' ctxHaltQuery | ctxHaltSoft | ctxHaltForced => rw [if_neg (by omega)]
  all_goals rfl

theorem decode_of_decodeFields {w : Nat} {i : Instr} (h : decodeFields w = .ok i) (hi : i.wf = true) : decode w = .ok i := by
  rw [decode, h]
  exact if_pos hi

theorem decodeFields_of_decode {w : Nat} {i : Instr} (h : decode w = .ok i) : decodeFields w = .ok i := by
  unfold decode at h
  cases hd : decodeFields w with
  | error e => rw [hd] at h; cases h
  | ok j =>
    rw [hd] at h
    change (if j.wf then Except.ok j else .error Reject.reservedField) = .ok i at h
    split at h
    · exact h
    · cases h

theorem encodeDecodeRoundTrip : EncodeDecodeRoundTrip := by
  unfold EncodeDecodeRoundTrip
  intro i w hi h
  cases hr : hartRow i with
  | true => exact decodeHart_encode h hr
  | false =>
    obtain ⟨hw, hd⟩ := decodeFields_eq_decoderOf h hr
    exact ⟨hw, decode_of_decodeFields (hd.trans (decoderOf_encode h hr)) hi⟩

/-! ### A word that decodes is the word of what it decodes to (02 R42, R53) -/

/-- The number that the low bits of a word make: what stands at a place of the word is a difference of two of them. -/
def lowPart (w k : Nat) : Int := (w % 2 ^ k : Nat)

theorem lowPart_zero (w : Nat) : lowPart w 0 = 0 := by simp [lowPart, Nat.mod_one]

theorem lowPart_word {w : Nat} (hw : w < 2 ^ 32) : lowPart w 32 = w := by rw [lowPart, Nat.mod_eq_of_lt hw]

theorem bits_mul (w lo n : Nat) : ((bits w lo n * 2 ^ lo : Nat) : Int) = lowPart w (lo + n) - lowPart w lo := by
  rw [lowPart, lowPart, bits_eq, Nat.pow_add, Nat.mod_mul]
  push_cast
  ring

theorem field_mul {w lo n k : Nat} (hk : k = 2 ^ lo) : (((field w lo n).toNat * k : Nat) : Int) = lowPart w (lo + n) - lowPart w lo := by
  rw [hk, ← bits_mul, bits_eq, field, BitVec.toNat_ofNat]

theorem field_zero (w n : Nat) : ((field w 0 n).toNat : Int) = lowPart w n := by
  simp [field, lowPart]

theorem toNat_flag (w i : Nat) : (flag w i).toNat = (field w i 1).toNat := by
  unfold flag field
  rcases Nat.mod_two_eq_zero_or_one (w / 2 ^ i) with h | h <;> simp [h]

theorem bits_eq_iff {w lo n v : Nat} : bits w lo n = v ↔ lowPart w (lo + n) - lowPart w lo = (v * 2 ^ lo : Nat) := by
  rw [← bits_mul, Nat.cast_inj, Nat.mul_left_inj (by positivity)]

/-- Whatever instruction a decoder answers has the word `w`. -/
def Spells (w : Nat) (r : Except Reject Instr) : Prop := ∀ i, r = .ok i → encode i = some w

theorem spells_error {w : Nat} {e : Reject} : Spells w (.error e) := fun _ h => nomatch h

theorem spells_ok {w n : Nat} {i : Instr} (hi : encode i = some n) (h : (n : Int) = w) : Spells w (.ok i) := by
  rintro j ⟨⟩
  rw [hi, Int.ofNat.inj h]

/-- A row of a decoder: the word of the row's instruction is `w` where `w` has the bits that the row asks for. -/
theorem spells_row {w n : Nat} {c : Prop} {_ : Decidable c} {i : Instr} {r : Except Reject Instr} (hi : encode i = some n)
    (h : c → (n : Int) = w) (hr : Spells w r) : Spells w (if c then .ok i else r) := by
  split
  · exact spells_ok hi (h ‹c›)
  · exact hr

/-- Opcodes 0x00 to 0x3F (02 R50): row by row, what the row asks for and what it reads add up to the word. -/
theorem spells_decodeFields_low {w c : Nat} (hw : w < 2 ^ 32) (hop : bits w 25 7 = c) (hc : c < 64) : Spells w (decodeFields w) := by
  have hword := lowPart_word hw
  have hzero := lowPart_zero w
  rewrite [decodeFields.eq_def, hop]
  rw [bits_eq_iff] at hop
  interval_cases c
  all_goals
    repeat' first | exact spells_error | refine spells_row rfl (fun hc => ?_) ?_ | refine spells_ok rfl ?_
  all_goals
    simp only [toNat_flag, field_mul, field_zero, Nat.cast_add, Nat.cast_ofNat, bits_eq_iff, Nat.reduceAdd, Nat.reducePow,
      Nat.reduceMul] at *
    omega

/-- Opcodes 0x40 to 0x7F (02 R50), likewise. -/
theorem spells_decodeFields_high {w c : Nat} (hw : w < 2 ^ 32) (hop : bits w 25 7 = c) (hc : 64 ≤ c) (hc' : c < 128) :
    Spells w (decodeFields w) := by
  have hword := lowPart_word hw
  have hzero := lowPart_zero w
  rewrite [decodeFields.eq_def, hop]
  rw [bits_eq_iff] at hop
  interval_cases c
  all_goals
    repeat' first | exact spells_error | refine spells_row rfl (fun hc => ?_) ?_ | refine spells_ok rfl ?_
  all_goals
    simp only [toNat_flag, field_mul, field_zero, Nat.cast_add, Nat.cast_ofNat, bits_eq_iff, Nat.reduceAdd, Nat.reducePow,
      Nat.reduceMul] at *
    omega

theorem spells_decodeHart {w : Nat} (hw : w < 2 ^ 32) : Spells w (decodeHart w) := by
  have hword := lowPart_word hw
  have hzero := lowPart_zero w
  unfold decodeHart
  split
  case isFalse => exact spells_error
  case isTrue hop =>
    repeat' first | exact spells_error | refine spells_row rfl (fun hc => ?_) ?_
    all_goals
      simp only [field_mul, Nat.cast_add, Nat.cast_ofNat, bits_eq_iff, Nat.reduceAdd, Nat.reducePow, Nat.reduceMul] at *
      omega

theorem noBitIgnored : NoBitIgnored := by
  unfold NoBitIgnored
  rintro i w hw (h | h)
  · have hop : bits w 25 7 < 128 := Nat.mod_lt _ (by decide)
    by_cases hc : bits w 25 7 < 64
    · exact spells_decodeFields_low hw rfl hc i (decodeFields_of_decode h)
    · exact spells_decodeFields_high hw rfl (by omega) hop i (decodeFields_of_decode h)
  · exact spells_decodeHart hw i h

/-- Settles O58: the fields of a word stand at places of their own, so that each is read back where it was put; and the fields that a
decoder reads and the bits that it asks for cover the word. -/
theorem encodeDecode : Obligations.EncodeDecode := ⟨encodeDecodeRoundTrip, noBitIgnored⟩

/-- Settles O57: each word is run through its decoder. -/
theorem decodeSampleWords : Obligations.DecodeSampleWords := by
  unfold Obligations.DecodeSampleWords
  exact ⟨by decide +kernel, by decide +kernel⟩

end Sys2Proof
end

section
/-!
PROOFS. Words that do not issue: what a hold leaves alone, registers that do not exist, and formats that are not accepted (02 R36, R53,
R54; 08 R190, R191; 19 R396).
-/
namespace Sys2Proof.Machine
open Sys2Proof.Claim

/-! ### What a hold leaves alone -/

theorem ringWrite_contexts {s t : State} {ctx : Nat} {r : FaultRecord} (h : s.ringWrite ctx r = some t) : t.contexts = s.contexts := by
  unfold State.ringWrite at h
  split at h
  · cases h
  split at h
  · cases h
  dsimp only at h
  split at h
  · cases h
  · cases h
    rfl

theorem State.postRecord_contexts (s : State) (start : Nat) (r : FaultRecord) (b : Blocked) :
    (s.postRecord start r b).contexts = s.contexts := by
  unfold State.postRecord
  split
  · rfl
  dsimp only
  split
  · rfl
  split
  next h => exact ringWrite_contexts h
  · rfl

theorem State.postFault_contexts (s : State) (f : AccessFault) (r : FaultRecord) (b : Blocked) :
    (s.postFault f r b).contexts = s.contexts := by
  unfold State.postFault
  split
  · rfl
  · exact s.postRecord_contexts f.ring r b

theorem State.postFault_gangs (s : State) (f : AccessFault) (r : FaultRecord) (b : Blocked) : (s.postFault f r b).gangs = s.gangs := by
  unfold State.postFault
  split
  · rfl
  · exact (State.residents_eq_iff.1 (s.postRecord_residents f.ring r b)).2.1

/-- A gang that holds at its access is marked with the fault and changes no other gang and no context. -/
theorem State.holdGang_gangs_contexts (s : State) (g : Gang) (f : AccessFault) (flags : BitVec 8) (lanes : List Nat) :
    (s.holdGang g f flags lanes).gangs =
        s.gangs.put s.gang { g with held := some { cause := f.cause, addr := f.addr, retry := false, group := s.group } } ∧
      (s.holdGang g f flags lanes).contexts = s.contexts := by
  unfold State.holdGang
  dsimp only
  split
  · split
    · exact ⟨rfl, rfl⟩
    · exact ⟨State.postFault_gangs .., State.postFault_contexts ..⟩
  · exact ⟨State.postFault_gangs .., State.postFault_contexts ..⟩

/-! ### Words that do not issue -/

/-- A gang that may issue runs the body of an instruction that names no register and needs nothing else. -/
theorem gate_of_noNeeds {s : State} {g : Gang} {body : Gang → Result} (h : s.Issues g) :
    gate s (fun _ => {}) body = body (s.issuing g) :=
  gate_of_settled (vs := []) (ss := []) (even := []) h ⟨by simp, by simp⟩ rfl

theorem wordsThatDoNotIssue : WordsThatDoNotIssue := by
  unfold WordsThatDoNotIssue
  intro s g h
  have hill : exec .illegalInstruction s = s.trap (s.issuing g) .illegalInstruction := by
    unfold exec
    exact gate_of_noNeeds h
  refine ⟨hill, fun cause addr level ring hf => ?_⟩
  have hrun : exec .instructionFetchFault s = fetchStop s (s.issuing g) (cause, addr, level, ring) := by
    unfold exec
    refine (gate_of_noNeeds h).trans ?_
    simp only [hf]
  refine ⟨fun hc => hrun.trans (if_pos hc), fun hc => ⟨_, _, hrun.trans (if_neg hc), ?_, rfl, ?_⟩⟩
  · rw [(State.holdGang_gangs_contexts ..).1, Table.find_put, if_pos rfl]
  · exact (State.holdGang_gangs_contexts ..).2

/-! ### Registers that do not exist -/

/-- An instruction that names a v register beyond the gang's is REGISTER_RANGE (02 R54). -/
theorem issueTrap_of_undeclared {s : State} {g : Gang} {n : Needs} {r : Nat} (hr : r ∈ n.v) (h : g.nregs ≤ r) :
    s.issueTrap g n = some .registerRange := by
  have hv : n.v.any (fun r => decide (g.nregs ≤ r)) = true := List.any_eq_true.2 ⟨r, hr, by simpa using h⟩
  simp [State.issueTrap, hv]

/-- An instruction that names an odd register as a pair is REGISTER_RANGE (02 R54). -/
theorem issueTrap_of_odd {s : State} {g : Gang} {n : Needs} {r : Nat} (hr : r ∈ n.even) (h : r % 2 = 1) :
    s.issueTrap g n = some .registerRange := by
  have he : n.even.any (fun r => r % 2 == 1) = true := List.any_eq_true.2 ⟨r, hr, by simpa using h⟩
  simp [State.issueTrap, he]

/-- The result is that of an instruction that names v register `d`. -/
def NamesVector (s : State) (d : Nat) (r : Result) : Prop := ∃ needs body, r = gate s needs body ∧ ∀ g, d ∈ (needs g).v

/-- The result is that of an instruction whose operands `rs` must be even. -/
def NamesPairs (s : State) (rs : List Nat) (r : Result) : Prop := ∃ needs body, r = gate s needs body ∧ ∀ g, (needs g).even = rs

theorem ternary_namesVector (s : State) (d a b : Nat) (f : Word → Word → Word → Word) : NamesVector s d (ternary s false d a b f) := by
  unfold ternary
  rw [if_neg Bool.false_ne_true]
  refine ⟨_, _, rfl, fun g => ?_⟩
  exact List.mem_cons_self

theorem unary_namesVector (s : State) (d a : Nat) (f : Word → Word) : NamesVector s d (unary s false d a f) := by
  unfold unary
  rw [if_neg Bool.false_ne_true]
  refine ⟨_, _, rfl, fun g => ?_⟩
  exact List.mem_cons_self

theorem pairBinary_namesPairs (s : State) (c : Bool) (d a b : Nat) (f : DWord → DWord → DWord) :
    NamesPairs s [d, a, b] (pairBinary s c d a b f) := by
  unfold pairBinary
  split
  · exact ⟨_, _, rfl, fun g => rfl⟩
  · exact ⟨_, _, rfl, fun g => rfl⟩

/-- In vector form each integer instruction, of two sources or of one, names its destination. -/
theorem integerOps_namesVector (s : State) (d a b : BitVec 7) (i : BitVec 10) (j : BitVec 17) (n : BitVec 5) :
    ∀ e ∈ integerOps d a b i j n, NamesVector s d.toNat (exec (e.1 false) s) := by
  simp only [integerOps, List.cons_append, List.nil_append, List.forall_mem_cons]
  and_intros
  iterate 14 (unfold exec; exact ternary_namesVector ..)
  iterate 2 (unfold exec; exact unary_namesVector ..)
  iterate 10 (unfold exec; exact ternary_namesVector ..)
  iterate 1 (unfold exec; exact unary_namesVector ..)
  iterate 4 (unfold exec; exact ternary_namesVector ..)
  iterate 4 (unfold exec; exact unary_namesVector ..)
  iterate 3 (unfold exec; exact ternary_namesVector ..)
  iterate 11 (unfold exec; exact unary_namesVector ..)
  exact List.forall_mem_nil _

theorem pairOps_namesPairs (s : State) (d a b : BitVec 7) (c : Bool) :
    ∀ e ∈ pairOps d a b, NamesPairs s [d.toNat, a.toNat, b.toNat] (exec (e.1 c) s) := by
  simp only [pairOps, List.forall_mem_cons]
  and_intros
  iterate 2 (unfold exec; exact pairBinary_namesPairs ..)
  exact List.forall_mem_nil _

theorem registerRangeTrap : RegisterRangeTrap := by
  unfold RegisterRangeTrap
  intro s g d a b i j n h
  refine ⟨fun hd e he => ?undeclared, fun hodd c e he => ?odd⟩
  case undeclared =>
    obtain ⟨needs, body, hrun, hmem⟩ := integerOps_namesVector s d a b i j n e he
    rw [hrun]
    exact gate_of_trap h (issueTrap_of_undeclared (hmem g) hd)
  case odd =>
    obtain ⟨needs, body, hrun, heven⟩ := pairOps_namesPairs s d a b c e he
    have hr : ∃ r ∈ (needs g).even, r % 2 = 1 := by simpa [heven] using hodd
    obtain ⟨r, hr, h1⟩ := hr
    rw [hrun]
    exact gate_of_trap h (issueTrap_of_odd hr h1)

/-! ### Formats that are not accepted -/

/-- The v registers that an element-wise instruction names exist for the gang, and its pairs are even (08 R190). -/
def ElementsNamed (g : Gang) (code : Nat) (regs : List Nat) : Prop :=
  (∀ r ∈ regs.flatMap (elementRegs code), r < g.nregs) ∧ (code = 8 → ∀ r ∈ regs, r % 2 = 0)

/-- An instruction on v registers that exist, with even pairs, is ILLEGAL_FORMAT where its format is not accepted (02 R54). -/
theorem issueTrap_of_format {s : State} {g : Gang} {n : Needs} (hv : ∀ r ∈ n.v, r < g.nregs) (he : ∀ r ∈ n.even, r % 2 = 0)
    (hs : n.s = []) (h4 : n.fours = []) (hf : n.format = false) : s.issueTrap g n = some .illegalFormat := by
  have hv' : n.v.any (fun r => decide (g.nregs ≤ r)) = false := by simpa using hv
  have he' : n.even.any (fun r => r % 2 == 1) = false := by simpa using he
  simp [State.issueTrap, hv', he', hs, h4, hf]

/-- An instruction on element registers, and on v registers of one word beside them, is ILLEGAL_FORMAT where its type is not accepted. -/
theorem gate_of_elementFormat {s : State} {g : Gang} {regs vs : List Nat} {accept : Nat → Bool} {body : Gang → Result} (h : s.Issues g)
    (hn : ElementsNamed g (s.elementCode g) regs) (hv : ∀ r ∈ vs, r < g.nregs) (ha : accept (s.elementCode g) = false) :
    gate s (fun g => { elementNeeds (s.elementCode g) regs accept with v := vs ++ regs.flatMap (elementRegs (s.elementCode g)) }) body =
      .next (s.trapAt g .illegalFormat (g.enabled s.group) 0) := by
  obtain ⟨hr, he⟩ := hn
  refine gate_of_trap h (issueTrap_of_format ?_ ?_ rfl rfl ha)
  · exact List.forall_mem_append.2 ⟨hv, hr⟩
  · intro r hr'
    by_cases h8 : s.elementCode g = 8
    · exact he h8 r (by simpa [elementNeeds, h8] using hr')
    · simp [elementNeeds, h8] at hr'

/-- Each element-wise instruction is the element-wise shape with its sources, types and function. -/
theorem exec_elementOps (s : State) (d a b : BitVec 7) :
    ∀ e ∈ elementOps d a b, exec e.1 s = elementwise s none d.toNat e.2.1 e.2.2.1 e.2.2.2 := by
  simp only [elementOps, List.cons_append, List.nil_append, List.forall_mem_cons]
  and_intros
  iterate 20 rfl
  exact List.forall_mem_nil _

/-- Each float comparison is the shape of a comparison with its order. -/
theorem exec_floatComparisons (s : State) (p : BitVec 4) (a b : BitVec 7) :
    ∀ e ∈ floatComparisons p a b, ∃ f, exec e.1 s = floatCompare s p.toNat a.toNat b.toNat e.2.1 f := by
  simp only [floatComparisons, List.forall_mem_cons]
  and_intros
  iterate 8 (unfold exec; exact ⟨_, rfl⟩)
  exact List.forall_mem_nil _

/-- A dot product on v registers that exist is ILLEGAL_FORMAT where its type is not accepted. -/
theorem dotWith_of_format {s : State} {g : Gang} {accept : Nat → Bool} {d a b : Nat} (h : s.Issues g)
    (hn : ∀ r ∈ [d, a, b], r < g.nregs) (ha : accept (s.elementCode g) = false) (m : Option Modifier) :
    dotWith m accept d a b s = .next (s.trapAt g .illegalFormat (g.enabled s.group) 0) :=
  gate_of_trap h (issueTrap_of_format hn (by simp) rfl rfl ha)

theorem formatTrap : FormatTrap := by
  unfold FormatTrap
  intro s g d a b p h
  refine ⟨fun e he ha hn => ?elements, fun e he ha hn => ?comparisons, fun ha hn hd => ?toInteger, fun ha hn hd => ?fromInteger,
    fun e he ha hn => ?dots⟩
  case elements =>
    refine (exec_elementOps s d a b e he).trans ?_
    exact gate_of_elementFormat (vs := []) h hn (by simp) ha
  case comparisons =>
    obtain ⟨f, hrun⟩ := exec_floatComparisons s p a b e he
    refine hrun.trans ?_
    exact gate_of_elementFormat (vs := []) h hn (by simp) ha
  case toInteger =>
    have htrap : ∀ signed, convertToInt s signed d.toNat a.toNat = .next (s.trapAt g .illegalFormat (g.enabled s.group) 0) :=
      fun signed => gate_of_elementFormat (vs := [d.toNat]) h hn (by simpa using hd) ha
    dsimp only [exec]
    exact ⟨htrap true, htrap false⟩
  case fromInteger =>
    have htrap : ∀ signed, convertFromInt none s signed d.toNat a.toNat = .next (s.trapAt g .illegalFormat (g.enabled s.group) 0) :=
      fun signed => gate_of_elementFormat (vs := [a.toNat]) h hn (by simpa using hd) ha
    dsimp only [exec]
    exact ⟨htrap true, htrap false⟩
  case dots =>
    simp only [dots, List.mem_cons, List.not_mem_nil, or_false] at he
    obtain rfl | rfl | rfl := he
    all_goals unfold exec
    · exact dotWith_of_format h hn (by simpa [dot2Code] using ha) none
    · exact dotWith_of_format h hn (by simpa [dot4Code, and_assoc] using ha) none
    · exact dotWith_of_format h hn (by simpa [dot8Code] using ha) none

/-- Settles O18: a word that does not issue runs its body at the gate, and each refused word stops there at the first check that fails. -/
theorem issueChecks : Obligations.IssueChecks := ⟨wordsThatDoNotIssue, registerRangeTrap, formatTrap⟩

end Sys2Proof.Machine
end

section
/-!
PROOFS. A gang that waits for the turn of an `ordap`: its range counters count the `ordap` until an instruction issues, which ends the wait
(03 R70, R88; 04 R112). A gantry instruction that this `ordap` alone would leave without room is sent.
-/
namespace Sys2Proof.Machine
open Sys2Proof.Claim

/-- The gang waits for the turn of an `ordap` that counts on range counter 0. The counter stands one below the highest count and is bound
to the 512 bytes at 0x4000, where a block at s0 has the one row of a load or a drain. -/
def waitingAtOrdap (g : Gang) : Gang :=
  { (((g.setS 0 0x4000).setS 2 512).setS 3 0x00010000) with
    wait := .ordap 0 (some 1)
    rc := g.rc.set 0 { count := 65534, binding := 0x1000_0000_0200_0000_0000_0000_0000_4000, seen := noEpochs } }

/-- The drain of the block at s0 to memory, without histogram. -/
def drainOfBlock : Instr := .adrain 0 0 false false false false

/-- The device with that gang on core 0, a modifier's place at 0x2000, and the drain in the word after it. -/
def ordapState : State :=
  let s := (State.reset.withFetchWord 32 0).write 0x2004 4 ((encode drainOfBlock).getD 0)
  { s with gangs := s.gangs.update fun _ g => waitingAtOrdap g }

/-- The gang and the crew of that device. -/
def ordapGang : Gang := (ordapState.gangs.find 0).getD (Gang.start 0 0 0 0 placedRecord)
def ordapCrew : Crew := (ordapState.crews.find 0).getD ⟨0, 0, placedRecord, 0, [], [], [], [], none, []⟩

/-- The device after the word behind the modifier has been fetched. -/
def ordapFetched : State := (ordapState.fetch 0 ordapGang.ctx (ordapGang.pc 0 + 4)).2

/-- The answer is a state in which a command stands. -/
def sendsCommand (r : Result) : Bool :=
  match r with
  | .next t => !t.commands.isEmpty
  | _ => false

/-- A gantry instruction that goes out although the counters of its gang have no room does not meet the gantry as the statements say. -/
theorem not_meetsGantry_of_sends {r : Result} {s : State} {g : Gang} {crew : Crew} {acc : Nat} {sets : Bool} {work : Work}
    {bytes : List Extent} {words : Nat} (hen : (s.core (coreOf s.gang)).gantryDisabled = false)
    (hfree : (s.bank (coreOf s.gang) g.ctx).holder acc = 0) (hrep : s.isReproducible g = false)
    (hfull : g.countersFull (s.countersFor g { bytes := bytes }) = true) (hnone : s.commands = []) (hr : sendsCommand r = true) :
    ¬MeetsGantry r s g crew acc sets work bytes words := by
  rintro ⟨-, hmeets, -⟩
  obtain ⟨-, -, hwaits⟩ := hmeets hen
  have hheld : ¬HeldByOther s g acc := fun h => h.1 hfree
  have hset : ¬Unset s g acc := fun ⟨_, hr⟩ => Bool.false_ne_true (hrep.symm.trans hr)
  have hroom : ¬(s.gantryAccepts (coreOf s.gang) = true ∧ MaySend s g .gantry bytes) :=
    fun ⟨_, _, hc⟩ => Bool.false_ne_true (hc.symm.trans hfull)
  have hw : r = s.waiting := hwaits hheld (.inr hset) hroom
  rw [hw] at hr
  simp [sendsCommand, State.waiting, hnone] at hr

theorem ordapState_issues : ordapState.Issues ordapGang := ⟨by decide +kernel, by decide +kernel, by decide +kernel⟩

theorem ordapFetched_issues : ordapFetched.Issues ordapGang := ⟨by decide +kernel, by decide +kernel, by decide +kernel⟩

/-- The registers of the block exist, and nothing is to be written to them. -/
theorem ordapState_settled : ordapState.Settled ordapGang [] [0, 1, 2, 3] := by
  unfold State.Settled
  decide +kernel

/-- The block's row begins in global space. -/
theorem ordapBlock_inMemory : (ordapGang.spair 0).toNat < 2 ^ 48 := by decide +kernel

theorem ordapFetched_drainReady : DrainReady ordapFetched ordapGang ordapCrew 0 false false 32 where
  format := by decide +kernel
  settled := ⟨rfl, by unfold State.Settled; decide +kernel⟩
  rows := by decide +kernel
  aligned := by decide +kernel
  range := ordapBlock_inMemory
  table := nofun

/-- The load of the block is sent, and so is its drain under a modifier. -/
theorem ordapState_sends : sendsCommand (exec (.aload 0 0 false) ordapState) = true ∧
    sendsCommand (exec (.modifier false false false false 0 0 0) ordapState) = true := by decide +kernel

/-- Refutes O34: with the gang at an `ordap`, an `aload` of 512 bytes that counter 0 covers is sent, where the statement counts the `ordap`,
finds the counter full, and has the instruction wait. -/
theorem not_accumulatorCommands : ¬Obligations.AccumulatorCommands := by
  unfold Obligations.AccumulatorCommands AccumulatorCommandsSent
  rintro ⟨hsent, -⟩
  obtain ⟨-, hload, -⟩ := hsent ordapState ordapGang ordapCrew 0 0 ordapState_issues (by decide +kernel)
  refine not_meetsGantry_of_sends (by decide +kernel) (by decide +kernel) (by decide +kernel) ?_ (by decide +kernel)
    ordapState_sends.1 (hload false rfl ordapState_settled ?_ ?_ ?_ ?_ ordapBlock_inMemory)
  all_goals decide +kernel

/-- Refutes O12: the modified `adrain` of 512 bytes that counter 0 covers is sent, where the statement has it wait as the `ordap` would fill
the counter. -/
theorem not_modifierPairResult : ¬Obligations.ModifierPairResult := by
  unfold Obligations.ModifierPairResult ModifiedDrainSent
  rintro ⟨-, -, hdrain⟩
  refine not_meetsGantry_of_sends (by decide +kernel) (by decide +kernel) (by decide +kernel) ?_ (by decide +kernel) ordapState_sends.2
    (hdrain ordapState ordapFetched ordapGang ordapCrew false false false false 0 0 0 ((encode drainOfBlock).getD 0) 0 0 false false false
      false 32 ordapState_issues ?_ ?_ ?_ ?_ ordapFetched_issues ?_ ?_ ?_ ordapFetched_drainReady)
  all_goals decide +kernel

end Sys2Proof.Machine
end

section
/-!
PROOFS. An enabled floating-point exception stops the gang after its instruction has completed (06 R158; 08 R192; 19 R376, R377).
-/
namespace Sys2Proof.Machine
open Sys2Proof.Claim

/-! ### What the end of an instruction leaves of the gang -/

theorem Gang.releaseParked_keeps (g : Gang) (stop : Option DWord) :
    (g.releaseParked stop).v = g.v ∧ (g.releaseParked stop).fpflags = g.fpflags := by
  unfold Gang.releaseParked
  extract_lets running go leader
  split
  · exact ⟨rfl, rfl⟩
  · exact ⟨rfl, rfl⟩

/-- Going on to the next word moves the slices and keeps the v registers and the exceptions (11 R248). -/
theorem Gang.proceed_keeps (g : Gang) (group words : Nat) (stop : Option DWord) (f : Nat → Slice → Slice) :
    (g.proceed group words stop f).v = g.v ∧ (g.proceed group words stop f).fpflags = g.fpflags := by
  unfold Gang.proceed
  cases stop with
  | none => exact ⟨rfl, rfl⟩
  | some a => exact Gang.releaseParked_keeps _ _

theorem State.find_advance (s : State) (g : Gang) (words : Nat) :
    (s.advance g words).gangs.find s.gang = some (g.proceed s.group words (s.stepEnd g) (Slice.next words)) := by
  unfold State.advance State.proceed
  rw [State.setGang_gangs, Table.find_put, if_pos rfl]

/-! ### The shape of an instruction computed element by element -/

/-- Writing elements reaches the v registers alone. -/
theorem Gang.setElements_keeps (g : Gang) (code r : Nat) (lanes : List Nat) (f : Nat → List Nat) :
    ∃ v, g.setElements code r lanes f = { g with v := v } := by
  unfold Gang.setElements
  split <;> exact ⟨_, rfl⟩

/-- Elements are written to the v registers as they stood, whatever the gang waited for. -/
theorem State.issuing_setElements_v (s : State) (g : Gang) (code r : Nat) (lanes : List Nat) (f : Nat → List Nat) :
    ((s.issuing g).setElements code r lanes f).v = (g.setElements code r lanes f).v := by
  unfold Gang.setElements
  split <;> rfl

/-- An element-wise instruction whose registers are ready computes its elements and completes (08 R190, R192). -/
theorem elementwise_of_ready {s : State} {g : Gang} {accept : Nat → Bool} {d : Nat} {srcs : List Nat} (h : s.Issues g)
    (hr : ElementsReady s g accept (d :: srcs)) (m : Option Modifier) (f : ElementFn) :
    elementwise s m d srcs accept f =
      s.finishFloat ((s.issuing g).setElements (s.elementCode g) d (g.active s.group) fun l =>
          (elementValues s g srcs f m l).map (·.1)) (wordsOf m)
        ((g.active s.group).map fun l => (l, joinFlags ((elementValues s g srcs f m l).map (·.2)))) := by
  have heven : (elementNeeds (s.elementCode g) (d :: srcs) accept).even.all (fun r => r % 2 == 0) = true := by
    unfold elementNeeds
    split
    · rename_i h8
      simpa using hr.even h8
    · rfl
  obtain ⟨ht, hb⟩ := Settled.passes hr.settled (elementNeeds (s.elementCode g) (d :: srcs) accept) rfl rfl heven rfl hr.accepted
    rfl rfl rfl rfl
  exact gate_of_issues h ht hb

/-! ### The stop after completion (19 R376) -/

/-- The gang whose event enters a collection window holds its stop record from then on (19 R377). -/
theorem State.find_collect (s : State) (key : Nat) (g : Gang) (e : TrapEvent) (issued : Nat) :
    (s.collect key g e issued).gangs.find key =
      some { g with stop := some { s.stopRecord key g e with timestamp := issued } } := by
  have hgangs : (s.collect key g e issued).gangs =
      s.gangs.put key { g with stop := some { s.stopRecord key g e with timestamp := issued } } := by
    unfold State.collect
    extract_lets s0 s1 core event windows
    split <;> rfl
  rw [hgangs, Table.find_put, if_pos rfl]

/-- An enabled exception stops the gang, completed as it is, with the record of the lowest code (06 R158; 19 R376, R377). -/
theorem State.finishFloat_of_enabled (s : State) (g : Gang) (words : Nat) (lanes : List (Nat × Flags))
    (h : g.enabledTraps (joinFlags (lanes.map (·.2))) ≠ 0) :
    ∃ t k rec_, s.finishFloat g words lanes = .next t ∧ t.gangs.find s.gang = some k ∧ k.stop = some rec_ ∧
      rec_.cause = trapOfFlags (g.enabledTraps (joinFlags (lanes.map (·.2)))) ∧
      rec_.pc = g.pc s.group + BitVec.ofNat 64 (4 * words) ∧ rec_.trapPc = g.pc s.group ∧
      k.fpflags = g.fpflags ||| (joinFlags (lanes.map (·.2))).setWidth 32 ∧ k.v = g.v := by
  have hfound := State.find_advance s (g.addFlags (joinFlags (lanes.map (·.2)))) words
  obtain ⟨hv, hfl⟩ := Gang.proceed_keeps (g.addFlags (joinFlags (lanes.map (·.2)))) s.group words
    (s.stepEnd (g.addFlags (joinFlags (lanes.map (·.2))))) (Slice.next words)
  unfold State.finishFloat
  rw [if_neg h, hfound]
  exact ⟨_, _, _, rfl, State.find_collect .., rfl, rfl, rfl, rfl, hfl, hv⟩

/-- Settles O9: the instruction's shape computes and writes its elements, and its end stops the gang that has completed. -/
theorem floatTrapAfterCompletion : Obligations.FloatTrapAfterCompletion := by
  unfold Obligations.FloatTrapAfterCompletion
  intro s g d a b h e he hr r fl hen
  have hfl : joinFlags (((g.active s.group).map fun l => (l, joinFlags ((r l).map (·.2)))).map (·.2)) = fl := by
    rw [List.map_map]
    rfl
  obtain ⟨v, hkeeps⟩ := Gang.setElements_keeps (s.issuing g) (s.elementCode g) d.toNat (g.active s.group) fun l => (r l).map (·.1)
  have hrun := (exec_elementOps s d a b e he).trans (elementwise_of_ready h hr none e.2.2.2)
  have hstop := State.finishFloat_of_enabled s ((s.issuing g).setElements (s.elementCode g) d.toNat (g.active s.group) fun l =>
    (r l).map (·.1)) 1 ((g.active s.group).map fun l => (l, joinFlags ((r l).map (·.2)))) (by rw [hfl, hkeeps]; exact hen)
  rw [hfl, State.issuing_setElements_v, hkeeps] at hstop
  rw [hkeeps] at hrun
  obtain ⟨t, k, rec_, hnext, hk, hrec, hcause, hpc, htrap, hflags, hv⟩ := hstop
  exact ⟨t, k, rec_, hrun.trans hnext, hk, hrec, hcause, hpc, htrap, hflags, hv⟩

end Sys2Proof.Machine
end

section
/-!
PROOFS. Rounding takes the neighbour that its mode names, with the exceptions of 06 R158: a magnitude is split on the grid's spacing, the part
discarded decides, and no value of the grid lies between the two neighbours (06 R154, R155, R158, R162).
-/
namespace Sys2Proof.Machine
open Sys2Proof.Claim

/-! ### Magnitudes m × 2^e -/

theorem two_zpow_pos (e : Int) : (0 : ℚ) < 2 ^ e := zpow_pos two_pos e

/-- A magnitude in units of a smaller power of two. -/
theorem shifted_magnitude (m : Nat) {q e : Int} (h : q ≤ e) :
    ((m * 2 ^ (e - q).toNat : Nat) : ℚ) * 2 ^ q = (m : ℚ) * 2 ^ e := by
  have he : (2 : ℚ) ^ e = 2 ^ (e - q).toNat * 2 ^ q := by
    rw [← zpow_natCast, ← zpow_add₀ two_ne_zero]
    congr 1
    omega
  rw [he]
  push_cast
  ring

theorem magnitudeAbove_iff {m m' : Nat} {e e' : Int} :
    magnitudeAbove m e m' e' = true ↔ (m' : ℚ) * 2 ^ e' < (m : ℚ) * 2 ^ e := by
  unfold magnitudeAbove
  rw [decide_eq_true_eq, ← shifted_magnitude m (min_le_left e e'), ← shifted_magnitude m' (min_le_right e e'),
    mul_lt_mul_iff_left₀ (two_zpow_pos _), Nat.cast_lt]

theorem two_pow_mul_zpow (n : Nat) (q : Int) : ((2 ^ n : Nat) : ℚ) * 2 ^ q = 2 ^ (q + n) := by
  rw [zpow_add₀ two_ne_zero, zpow_natCast]
  push_cast
  ring

/-! ### Grids (06 R154) -/

/-- Up to 2^(fraction bits + 1) units of a spacing no finer than the subnormal one lie on the grid. -/
theorem onGrid_units {code k : Nat} {q : Int} (hq : subnormalExp code ≤ q) (hk : k ≤ 2 ^ (fractionBits code + 1)) :
    OnGrid code ((k : ℚ) * 2 ^ q) := by
  obtain h | rfl := hk.lt_or_eq
  · exact ⟨k, q, h, hq, rfl⟩
  · refine ⟨2 ^ fractionBits code, q + 1, Nat.pow_lt_pow_right one_lt_two (Nat.lt_succ_self _), by omega, ?_⟩
    rw [two_pow_mul_zpow, two_pow_mul_zpow]
    congr 1
    push_cast
    ring

/-- The grid's values from 2^(q + fraction bits) on are multiples of 2^q, and so are all where 2^q is the subnormal spacing. -/
theorem onGrid_eq_units {code : Nat} {z : ℚ} {q : Int} (hz : OnGrid code z)
    (hq : q = subnormalExp code ∨ (2 : ℚ) ^ (q + fractionBits code) ≤ z) : ∃ j : Nat, z = (j : ℚ) * 2 ^ q := by
  obtain ⟨k, n, hk, hn, rfl⟩ := hz
  by_cases hqn : q ≤ n
  · exact ⟨_, (shifted_magnitude k hqn).symm⟩
  obtain hq | hq := hq
  · omega
  have hlt : (k : ℚ) * 2 ^ n < ((2 ^ (fractionBits code + 1) : Nat) : ℚ) * 2 ^ n :=
    mul_lt_mul_of_pos_right (Nat.cast_lt.2 hk) (two_zpow_pos n)
  have hle : (2 : ℚ) ^ (n + (fractionBits code + 1 : Nat)) ≤ 2 ^ (q + fractionBits code) :=
    zpow_le_zpow_right₀ one_le_two (by push_cast; omega)
  rw [two_pow_mul_zpow] at hlt
  exact absurd (hq.trans_lt (hlt.trans_le hle)) (lt_irrefl _)

/-! ### What a split discards -/

/-- `t` is the part of a step that the split `p` discards. -/
structure Discards (p : Split) (t : ℚ) : Prop where
  small : p.rem < 2 ^ p.d
  plain : p.sticky = false → t * 2 ^ p.d = p.rem
  more : p.sticky = true → 16 < p.d ∧ (p.rem : ℚ) < t * 2 ^ p.d ∧ t * 2 ^ p.d < p.rem + 1

/-- Splitting a value whose bits beyond m, if any, lie well below the spacing. -/
theorem splitAt_discards {m : Nat} {e q : Int} {more : Bool} {x : ℚ} (h : Leads m e more x) (hd : more = true → e + 16 < q) :
    ∃ t, Discards (splitAt m e q more) t ∧ x = (((splitAt m e q more).lo : ℚ) + t) * 2 ^ q := by
  by_cases he : e ≥ q
  · obtain rfl : more = false := by
      cases more
      · rfl
      · exact absurd (hd rfl) (by omega)
    obtain ⟨-, hx⟩ := h
    have hs : splitAt m e q false = ⟨m * 2 ^ (e - q).toNat, 0, 0, false⟩ := if_pos he
    refine ⟨0, ?_, ?_⟩
    · rw [hs]
      exact ⟨by simp, by simp, by simp⟩
    · rw [hs, hx, add_zero, shifted_magnitude m he]
  · obtain ⟨d, hdq⟩ : ∃ d : Nat, q = e + d := ⟨(q - e).toNat, by omega⟩
    subst hdq
    have hs : splitAt m e (e + d) more = ⟨m / 2 ^ d, m % 2 ^ d, d, more⟩ := by
      unfold splitAt
      rw [if_neg he, show (e + d - e).toNat = d by omega]
    have hu := two_zpow_pos e
    have h2 : (0 : ℚ) < 2 ^ d := pow_pos two_pos d
    have hm : (m : ℚ) = 2 ^ d * (m / 2 ^ d : Nat) + (m % 2 ^ d : Nat) := by
      exact_mod_cast (Nat.div_add_mod m (2 ^ d)).symm
    have ht : ((x / 2 ^ e - (m / 2 ^ d : Nat) * 2 ^ d) / 2 ^ d) * 2 ^ d = x / 2 ^ e - (m / 2 ^ d : Nat) * 2 ^ d :=
      div_mul_cancel₀ _ h2.ne'
    refine ⟨(x / 2 ^ e - (m / 2 ^ d : Nat) * 2 ^ d) / 2 ^ d, ?_, ?_⟩
    · rw [hs]
      refine ⟨Nat.mod_lt _ (by positivity), fun hmore => ?_, fun hmore => ?_⟩
      · simp only at hmore
        subst hmore
        obtain ⟨-, hx⟩ := h
        rw [ht, hx, mul_div_cancel_right₀ _ hu.ne']
        linear_combination hm
      · simp only at hmore
        subst hmore
        obtain ⟨-, hlo, hhi⟩ := h
        rw [← lt_div_iff₀ hu] at hlo
        rw [← div_lt_iff₀ hu] at hhi
        simp only [ht]
        exact ⟨by have := hd rfl; omega, by linarith, by linarith⟩
    · rw [hs, zpow_add₀ two_ne_zero, zpow_natCast]
      field_simp
      ring

section
variable {p : Split} {t : ℚ} (h : Discards p t)
include h

theorem Discards.nonneg : 0 ≤ t := by
  have h2 : (0 : ℚ) < 2 ^ p.d := pow_pos two_pos _
  refine nonneg_of_mul_nonneg_left ?_ h2
  cases hs : p.sticky with
  | false => exact (h.plain hs).symm ▸ Nat.cast_nonneg _
  | true => exact (Nat.cast_nonneg _).trans (h.more hs).2.1.le

theorem Discards.lt_one : t < 1 := by
  have h2 : (0 : ℚ) < 2 ^ p.d := pow_pos two_pos _
  have hr : (p.rem : ℚ) + 1 ≤ 2 ^ p.d := by exact_mod_cast h.small
  refine (mul_lt_iff_lt_one_left h2).1 ?_
  cases hs : p.sticky with
  | false => linarith [h.plain hs]
  | true => linarith [h.more hs]

theorem Discards.exact_iff : p.exact = true ↔ t = 0 := by
  have h2 : (0 : ℚ) < 2 ^ p.d := pow_pos two_pos _
  unfold Split.exact
  cases hs : p.sticky with
  | false =>
    have ht := h.plain hs
    simp only [Bool.not_false, Bool.and_true, beq_iff_eq]
    rw [← Nat.cast_eq_zero (R := ℚ), ← ht, mul_eq_zero, or_iff_left h2.ne']
  | true =>
    obtain ⟨-, hlo, -⟩ := h.more hs
    simp only [Bool.not_true, Bool.and_false, Bool.false_eq_true, false_iff]
    rintro rfl
    rw [zero_mul] at hlo
    exact absurd (Nat.cast_nonneg p.rem) hlo.not_ge

/-- The discarded part against one half, in whole units: half of a step of at least two units is a number of them. -/
theorem Discards.half (hd : p.d ≠ 0) : ∃ n : Nat, 2 ^ p.d = 2 * n ∧ (1 / 2 < t ↔ (n : ℚ) < t * 2 ^ p.d) ∧
    (t = 1 / 2 ↔ t * 2 ^ p.d = n) := by
  obtain ⟨k, hk⟩ := Nat.exists_eq_succ_of_ne_zero hd
  have h2 : (0 : ℚ) < 2 ^ k := pow_pos two_pos _
  refine ⟨2 ^ k, by rw [hk, pow_succ]; ring, ?_, ?_⟩
  · rw [hk, pow_succ]
    push_cast
    constructor <;> intro <;> nlinarith
  · rw [hk, pow_succ]
    push_cast
    constructor
    · rintro rfl
      ring
    · intro ht
      have : (2 * t - 1) * 2 ^ k = 0 := by linear_combination ht
      rcases mul_eq_zero.1 this with h0 | h0
      · linarith
      · exact absurd h0 h2.ne'

theorem Discards.eq_zero_of_whole (hd : p.d = 0) : t = 0 := by
  have hs : p.sticky = false := by
    by_contra hs
    have := (h.more (by simpa using hs)).1
    omega
  have ht := h.plain hs
  have hr := h.small
  rw [hd] at ht hr
  have : p.rem = 0 := by simpa using hr
  simpa [this] using ht

theorem Discards.aboveHalf_iff : p.aboveHalf = true ↔ 1 / 2 < t := by
  unfold Split.aboveHalf
  by_cases hd : p.d = 0
  · simp [hd, h.eq_zero_of_whole hd]
  obtain ⟨n, hn, habove, -⟩ := h.half hd
  rw [habove, hn]
  cases hs : p.sticky with
  | false =>
    rw [h.plain hs, Nat.cast_lt]
    simp [hd]
  | true =>
    obtain ⟨-, hlo, hhi⟩ := h.more hs
    have hwhole : (n : ℚ) < t * 2 ^ p.d ↔ n ≤ p.rem := by
      constructor
      · intro hlt
        have : (n : ℚ) < p.rem + 1 := hlt.trans hhi
        exact Nat.lt_succ_iff.1 (by exact_mod_cast this)
      · exact fun hle => (Nat.cast_le.2 hle).trans_lt hlo
    rw [hwhole]
    simp only [bne_iff_ne, ne_eq, hd, not_false_eq_true, Bool.and_true, Bool.and_eq_true, Bool.or_eq_true, decide_eq_true_eq,
      beq_iff_eq, true_and]
    omega

theorem Discards.isHalf_iff : p.isHalf = true ↔ t = 1 / 2 := by
  unfold Split.isHalf
  by_cases hd : p.d = 0
  · simp [hd, h.eq_zero_of_whole hd]
  obtain ⟨n, hn, -, hhalf⟩ := h.half hd
  rw [hhalf, hn]
  cases hs : p.sticky with
  | false =>
    rw [h.plain hs, Nat.cast_inj]
    simp [hd]
  | true =>
    obtain ⟨-, hlo, hhi⟩ := h.more hs
    simp only [Bool.not_true, Bool.and_false, Bool.false_eq_true, false_iff]
    intro heq
    rw [heq] at hlo hhi
    have h1 : p.rem < n := by exact_mod_cast hlo
    have h2 : n < p.rem + 1 := by exact_mod_cast hhi
    omega

/-- The 16 bits that stochastic rounding compares with its draw (06 R162). -/
theorem Discards.floor_eq : ⌊t * 65536⌋ = ((p.rem * 65536 / 2 ^ p.d : Nat) : Int) := by
  have h2 : (0 : ℚ) < 2 ^ p.d := pow_pos two_pos _
  have hpos : 0 < 2 ^ p.d := Nat.two_pow_pos _
  set a := p.rem * 65536 / 2 ^ p.d with ha
  have hlo : a * 2 ^ p.d ≤ p.rem * 65536 := Nat.div_mul_le_self _ _
  have hhi : p.rem * 65536 < (a + 1) * 2 ^ p.d := Nat.lt_mul_of_div_lt (Nat.lt_succ_self _) hpos
  have hloq : (a : ℚ) * 2 ^ p.d ≤ p.rem * 65536 := by exact_mod_cast hlo
  rw [Int.floor_eq_iff, Int.cast_natCast]
  cases hs : p.sticky with
  | false =>
    have ht := h.plain hs
    have hhiq : (p.rem : ℚ) * 65536 < (a + 1) * 2 ^ p.d := by exact_mod_cast hhi
    constructor
    · exact le_of_mul_le_mul_right (by linarith) h2
    · exact lt_of_mul_lt_mul_right (by linarith) h2.le
  | true =>
    obtain ⟨hd, hlo', hhi'⟩ := h.more hs
    obtain ⟨k, hk⟩ : ∃ k, p.d = k + 16 := ⟨p.d - 16, by omega⟩
    have hnext : (p.rem + 1) * 65536 ≤ (a + 1) * 2 ^ p.d := by
      rw [hk, pow_add] at hhi ⊢
      have hstep : (a + 1) * (2 ^ k * 2 ^ 16) = ((a + 1) * 2 ^ k) * 65536 := by ring
      rw [hstep] at hhi ⊢
      exact Nat.mul_le_mul_right _ (Nat.lt_of_mul_lt_mul_right hhi)
    have hnextq : ((p.rem : ℚ) + 1) * 65536 ≤ (a + 1) * 2 ^ p.d := by exact_mod_cast hnext
    constructor
    · exact le_of_mul_le_mul_right (by linarith) h2
    · exact lt_of_mul_lt_mul_right (by linarith) h2.le

end

/-! ### The neighbour taken (06 R155, R162) -/

/-- The neighbour that a split takes, in units of its spacing. -/
def Split.taken (p : Split) (mode r : Nat) (neg : Bool) : Nat := if p.up mode r neg then p.lo + 1 else p.lo

theorem Split.taken_of_exact {p : Split} (hp : p.exact = true) (mode r : Nat) (neg : Bool) : p.taken mode r neg = p.lo := by
  simp [Split.taken, Split.up, hp]

theorem Split.taken_cases (p : Split) (mode r : Nat) (neg : Bool) : p.taken mode r neg = p.lo ∨ p.taken mode r neg = p.lo + 1 := by
  unfold Split.taken
  split
  · exact .inr rfl
  · exact .inl rfl

section
variable {p : Split} {t : ℚ} (h : Discards p t)
include h

theorem Discards.inexact (ht : t ≠ 0) : p.exact = false := Bool.eq_false_iff.2 fun hex => ht (h.exact_iff.1 hex)

theorem Discards.below_half (ht : t < 1 / 2) : p.aboveHalf = false ∧ p.isHalf = false :=
  ⟨Bool.eq_false_iff.2 fun ha => ht.not_gt (h.aboveHalf_iff.1 ha), Bool.eq_false_iff.2 fun hh => ht.ne (h.isHalf_iff.1 hh)⟩

theorem Discards.taken_nearest_below (ht : t < 1 / 2) (r : Nat) (neg : Bool) : p.taken 0 r neg = p.lo := by
  obtain ⟨habove, hhalf⟩ := h.below_half ht
  simp [Split.taken, Split.up, habove, hhalf]

theorem Discards.taken_nearest_above (ht : 1 / 2 < t) (r : Nat) (neg : Bool) : p.taken 0 r neg = p.lo + 1 := by
  simp [Split.taken, Split.up, h.aboveHalf_iff.2 ht, h.inexact (by linarith)]

theorem Discards.taken_nearest_half (ht : t = 1 / 2) (r : Nat) (neg : Bool) : p.taken 0 r neg % 2 = 0 := by
  have habove : p.aboveHalf = false := Bool.eq_false_iff.2 fun ha => (h.aboveHalf_iff.1 ha).ne' ht
  obtain hpar | hpar := Nat.mod_two_eq_zero_or_one p.lo
  · simp [Split.taken, Split.up, habove, hpar]
  · simp [Split.taken, Split.up, habove, h.isHalf_iff.2 ht, h.inexact (by rw [ht]; norm_num), hpar]
    omega

theorem Discards.taken_away_below (ht : t < 1 / 2) (r : Nat) (neg : Bool) : p.taken 4 r neg = p.lo := by
  obtain ⟨habove, hhalf⟩ := h.below_half ht
  simp [Split.taken, Split.up, habove, hhalf]

theorem Discards.taken_away_from (ht : 1 / 2 ≤ t) (r : Nat) (neg : Bool) : p.taken 4 r neg = p.lo + 1 := by
  have hup : (p.aboveHalf || p.isHalf) = true := by
    rw [Bool.or_eq_true, h.aboveHalf_iff, h.isHalf_iff]
    exact ht.lt_or_eq.imp id Eq.symm
  simp [Split.taken, Split.up, hup, h.inexact (by linarith)]

theorem Discards.taken_stochastic (ht : t ≠ 0) (r : Nat) (neg : Bool) :
    p.taken 5 r neg = if 65536 ≤ ⌊t * 65536⌋ + (r : Int) then p.lo + 1 else p.lo := by
  have hdraw : (65536 ≤ ⌊t * 65536⌋ + (r : Int)) ↔ 65536 ≤ p.rem * 65536 / 2 ^ p.d + r := by
    rw [h.floor_eq]
    exact_mod_cast Iff.rfl
  simp [Split.taken, Split.up, h.inexact ht, hdraw]

/-- The neighbour taken is the one that the mode picks. -/
theorem Discards.picks_taken (ht : t ≠ 0) {mode : Nat} (hm : mode < 6) (r : Nat) (neg : Bool) (q : Int) :
    picks mode r neg ((p.lo : ℚ) * 2 ^ q) (((p.lo : ℚ) + t) * 2 ^ q) (((p.lo + 1 : Nat) : ℚ) * 2 ^ q)
      ((p.taken mode r neg : ℚ) * 2 ^ q) := by
  have hu := two_zpow_pos q
  have hbelow : ((p.lo : ℚ) + t) * 2 ^ q - (p.lo : ℚ) * 2 ^ q = t * 2 ^ q := by ring
  have habove : ((p.lo + 1 : Nat) : ℚ) * 2 ^ q - ((p.lo : ℚ) + t) * 2 ^ q = (1 - t) * 2 ^ q := by push_cast; ring
  have hstep : ((p.lo + 1 : Nat) : ℚ) * 2 ^ q - (p.lo : ℚ) * 2 ^ q = 2 ^ q := by push_cast; ring
  have hnear : t * 2 ^ q < (1 - t) * 2 ^ q ↔ t < 1 / 2 := by
    rw [mul_lt_mul_iff_left₀ hu]
    constructor <;> intro <;> linarith
  have hfar : (1 - t) * 2 ^ q < t * 2 ^ q ↔ 1 / 2 < t := by
    rw [mul_lt_mul_iff_left₀ hu]
    constructor <;> intro <;> linarith
  have hex := h.inexact ht
  unfold picks
  rw [hbelow, habove, hstep]
  match mode, hm with
  | 0, _ =>
    simp only [hnear, hfar]
    obtain hlt | heq | hgt := lt_trichotomy t (1 / 2)
    · exact .inl ⟨hlt, by rw [h.taken_nearest_below hlt]⟩
    · refine .inr (.inr ⟨by rw [heq]; ring, ?_, p.taken 0 r neg / 2, ?_⟩)
      · exact (Split.taken_cases p 0 r neg).imp (fun hc => by rw [hc]) (fun hc => by rw [hc])
      · have heven : 2 * (p.taken 0 r neg / 2) = p.taken 0 r neg := by
          have := h.taken_nearest_half heq r neg
          omega
        exact_mod_cast congrArg (fun n : Nat => (n : ℚ) * 2 ^ q) heven.symm
    · exact .inr (.inl ⟨hgt, by rw [h.taken_nearest_above hgt]⟩)
  | 1, _ => simp [Split.taken, Split.up]
  | 2, _ => cases neg <;> simp [Split.taken, Split.up, hex]
  | 3, _ => cases neg <;> simp [Split.taken, Split.up, hex]
  | 4, _ =>
    simp only [hnear]
    obtain hlt | hge := lt_or_ge t (1 / 2)
    · exact .inl ⟨hlt, by rw [h.taken_away_below hlt]⟩
    · exact .inr ⟨not_lt.1 fun hc => absurd (hnear.1 hc) hge.not_gt, by rw [h.taken_away_from hge]⟩
  | 5, _ =>
    have hf : t * 2 ^ q / 2 ^ q * 65536 = t * 65536 := by rw [mul_div_cancel_right₀ _ hu.ne']
    simp only [hf, h.taken_stochastic ht]
    split <;> rfl

end

/-- Of two neighbours one alone is an even number of steps. -/
theorem neighbours_not_both_even {lo hi : ℚ} (hlt : lo < hi) {j k : Nat} (hj : lo = 2 * (j : ℚ) * (hi - lo))
    (hk : hi = 2 * (k : ℚ) * (hi - lo)) : False := by
  have h1 : (1 - 2 * ((k : ℚ) - j)) * (hi - lo) = 0 := by linear_combination hk - hj
  obtain h0 | h0 := mul_eq_zero.1 h1
  · have : (1 : Int) = 2 * ((k : Int) - j) := by exact_mod_cast sub_eq_zero.1 h0
    omega
  · linarith

/-- A mode picks one magnitude. -/
theorem picks_unique {mode r : Nat} {neg : Bool} {lo x hi w w' : ℚ} (hlt : lo < hi) (h : picks mode r neg lo x hi w)
    (h' : picks mode r neg lo x hi w') : w = w' := by
  unfold picks at h h'
  match mode with
  | 0 =>
    obtain ⟨hn, rfl⟩ | ⟨hn, rfl⟩ | ⟨hn, hw, k, hk⟩ := h
    · obtain ⟨-, rfl⟩ | ⟨hn', -⟩ | ⟨hn', -⟩ := h'
      · rfl
      · exact absurd hn hn'.not_gt
      · exact absurd hn' hn.ne
    · obtain ⟨hn', -⟩ | ⟨-, rfl⟩ | ⟨hn', -⟩ := h'
      · exact absurd hn hn'.not_gt
      · rfl
      · exact absurd hn' hn.ne'
    · obtain ⟨hn', -⟩ | ⟨hn', -⟩ | ⟨-, hw', j, hj⟩ := h'
      · exact absurd hn hn'.ne
      · exact absurd hn hn'.ne'
      · obtain rfl | rfl := hw <;> obtain rfl | rfl := hw'
        · rfl
        · exact (neighbours_not_both_even hlt hk hj).elim
        · exact (neighbours_not_both_even hlt hj hk).elim
        · rfl
  | 1 => exact Eq.trans h (Eq.symm h')
  | 2 => exact Eq.trans h (Eq.symm h')
  | 3 => exact Eq.trans h (Eq.symm h')
  | 4 =>
    obtain ⟨hn, rfl⟩ | ⟨hn, rfl⟩ := h <;> obtain ⟨hn', rfl⟩ | ⟨hn', rfl⟩ := h'
    · rfl
    · exact absurd hn hn'.not_gt
    · exact absurd hn' hn.not_gt
    · rfl
  | _ + 5 => exact Eq.trans h (Eq.symm h')

/-- Rounding chooses one magnitude. -/
theorem chosen_unique {code mode r : Nat} {neg : Bool} {x w w' : ℚ} (h : Chosen code mode r neg x w)
    (h' : Chosen code mode r neg x w') : w = w' := by
  obtain ⟨hon, rfl⟩ | ⟨hoff, lo, hi, hlo, hhi, hl, hh, hgap, hp⟩ := h
  · obtain ⟨-, rfl⟩ | ⟨hoff, -⟩ := h'
    · rfl
    · exact absurd hon hoff
  · obtain ⟨hon, -⟩ | ⟨-, lo', hi', hlo', hhi', hl', hh', hgap', hp'⟩ := h'
    · exact absurd hon hoff
    have e1 : lo = lo' := le_antisymm ((hgap' lo hlo).resolve_right (by linarith)) ((hgap lo' hlo').resolve_right (by linarith))
    have e2 : hi = hi' := le_antisymm ((hgap hi' hhi').resolve_left (by linarith)) ((hgap' hi hhi).resolve_left (by linarith))
    subst e1 e2
    exact picks_unique (hl.trans hh) hp hp'

/-! ### Leading bits, and the formats -/

theorem leads_ne_zero {m : Nat} {e : Int} {more : Bool} {x : ℚ} (h : Leads m e more x) : m ≠ 0 := by
  cases more with
  | false => exact h.1
  | true => exact (Nat.pow_pos two_pos |>.trans_le h.1).ne'

/-- A value lies between the powers of two that its leading bit names. -/
theorem leads_bounds {m : Nat} {e : Int} {more : Bool} {x : ℚ} (h : Leads m e more x) :
    (2 : ℚ) ^ ((m.log2 : Int) + e) ≤ x ∧ x < 2 ^ ((m.log2 : Int) + e + 1) := by
  have hu := two_zpow_pos e
  have hlo : ((2 ^ m.log2 : Nat) : ℚ) * 2 ^ e ≤ (m : ℚ) * 2 ^ e :=
    mul_le_mul_of_nonneg_right (Nat.cast_le.2 (Nat.log2_self_le (leads_ne_zero h))) hu.le
  have hhi : ((m : ℚ) + 1) * 2 ^ e ≤ ((2 ^ (m.log2 + 1) : Nat) : ℚ) * 2 ^ e :=
    mul_le_mul_of_nonneg_right (by exact_mod_cast Nat.succ_le_of_lt Nat.lt_log2_self) hu.le
  rw [two_pow_mul_zpow] at hlo hhi
  rw [show e + (m.log2 : Int) = (m.log2 : Int) + e by ring] at hlo
  rw [show e + ((m.log2 + 1 : Nat) : Int) = (m.log2 : Int) + e + 1 by push_cast; ring] at hhi
  cases more with
  | false =>
    obtain ⟨-, rfl⟩ := h
    exact ⟨hlo, by linarith⟩
  | true =>
    obtain ⟨-, hl, hh⟩ := h
    exact ⟨hlo.trans hl.le, hh.trans_le hhi⟩

theorem isFloat_cases {code : Nat} (h : isFloat code = true) :
    code = 0 ∨ code = 1 ∨ code = 2 ∨ code = 3 ∨ code = 4 ∨ code = 5 ∨ code = 8 := by
  simp only [isFloat, Bool.or_eq_true, decide_eq_true_eq, beq_iff_eq] at h
  omega

theorem isInteger_of_isFloat {code : Nat} (h : isFloat code = true) : isInteger code = false := by
  obtain rfl | rfl | rfl | rfl | rfl | rfl | rfl := isFloat_cases h <;> rfl

theorem maxSignificand_bounds {code : Nat} (h : isFloat code = true) :
    maxSignificand code < 2 ^ (fractionBits code + 1) ∧ 2 ^ fractionBits code ≤ maxSignificand code := by
  obtain rfl | rfl | rfl | rfl | rfl | rfl | rfl := isFloat_cases h <;> decide

theorem fractionBits_le (code : Nat) : fractionBits code ≤ 52 := by
  unfold fractionBits
  split <;> decide

/-! ### The split that rounding makes -/

/-- The exponent of the grid's spacing at m × 2^e (06 R154). -/
def spacing (code m : Nat) (e : Int) : Int := max ((m.log2 : Int) + e - (fractionBits code : Int)) (subnormalExp code)

/-- The magnitude on the grid at itself. -/
def splitOf (code m : Nat) (e : Int) (more : Bool) : Split := splitAt m e (spacing code m e) more

/-- The magnitude lies beyond the largest finite value. -/
def beyond (code k : Nat) (q : Int) : Bool := magnitudeAbove k q (maxSignificand code) (maxExp code)

/-- The magnitude lies below every normal one. -/
def belowNormal (code k : Nat) (q : Int) : Bool := !magnitudeAbove k q (2 ^ fractionBits code - 1) (subnormalExp code)

/-- The mode takes a magnitude beyond the range to the largest finite value. -/
def toLargest (mode : Nat) (neg : Bool) : Bool := mode == 1 || (mode == 2 && neg) || (mode == 3 && !neg)

/-- Rounding a finite value that is not zero into a floating-point format, by the neighbour that its split takes. -/
theorem roundNum_num {code m : Nat} (hf : isFloat code = true) (hm : m ≠ 0) (mode r : Nat) (neg more : Bool) (e : Int) :
    roundNum code mode r (.num neg m e more) =
      if beyond code ((splitOf code m e more).taken mode r neg) (spacing code m e) then
        (if toLargest mode neg then .num neg (maxSignificand code) (maxExp code) false else .inf neg, 20)
      else if (splitOf code m e more).taken mode r neg = (splitOf code m e more).lo &&
          beyond code ((splitOf code m e more).taken 0 0 neg) (spacing code m e) then
        (.num neg ((splitOf code m e more).taken mode r neg) (spacing code m e) false, 20)
      else (.num neg ((splitOf code m e more).taken mode r neg) (spacing code m e) false,
        (if (splitOf code m e more).exact then 0 else 16) |||
          if (splitOf code m e more).taken mode r neg != 0 && !(splitOf code m e more).exact &&
            belowNormal code ((splitOf code m e more).taken mode r neg) (spacing code m e) then 8 else 0) := by
  simp only [roundNum, isInteger_of_isFloat hf, hm, decide_false, Bool.false_and, Bool.false_eq_true, ↓reduceIte]
  rfl

/-- The split of a value that rounding gets: its lower neighbour has at most the format's bits, and all of them above the subnormal
spacing. -/
theorem splitOf_spec {code m : Nat} {e : Int} {more : Bool} {x : ℚ} (h : Leads m e more x) :
    ∃ t, Discards (splitOf code m e more) t ∧ x = (((splitOf code m e more).lo : ℚ) + t) * 2 ^ spacing code m e ∧
      (splitOf code m e more).lo < 2 ^ (fractionBits code + 1) ∧
      (spacing code m e = subnormalExp code ∨ 2 ^ fractionBits code ≤ (splitOf code m e more).lo) := by
  have hm : m ≠ 0 := leads_ne_zero h
  have hfb : fractionBits code ≤ 52 := fractionBits_le code
  have hdeep : more = true → e + 16 < spacing code m e := by
    rintro rfl
    obtain ⟨hbig, -⟩ := h
    have : 100 ≤ m.log2 := (Nat.le_log2 hm).2 hbig
    unfold spacing
    omega
  obtain ⟨t, ht, hx⟩ := splitAt_discards (q := spacing code m e) h hdeep
  obtain ⟨hge, hlt⟩ := leads_bounds h
  have hq := two_zpow_pos (spacing code m e)
  have h0 := ht.nonneg
  have h1 := ht.lt_one
  refine ⟨t, ht, hx, ?_, ?_⟩
  · have hle : (2 : ℚ) ^ ((m.log2 : Int) + e + 1) ≤ 2 ^ (spacing code m e + (fractionBits code + 1 : Nat)) :=
      zpow_le_zpow_right₀ one_le_two (by unfold spacing; push_cast; omega)
    rw [← two_pow_mul_zpow] at hle
    have hlo : ((splitOf code m e more).lo : ℚ) * 2 ^ spacing code m e ≤ x := by
      rw [hx]
      exact mul_le_mul_of_nonneg_right (le_add_of_nonneg_right h0) hq.le
    exact Nat.cast_lt.1 (lt_of_mul_lt_mul_right (hlo.trans_lt (hlt.trans_le hle)) hq.le)
  · by_cases hs : spacing code m e = subnormalExp code
    · exact .inl hs
    refine .inr ?_
    have hle : (2 : ℚ) ^ (spacing code m e + fractionBits code) ≤ 2 ^ ((m.log2 : Int) + e) :=
      zpow_le_zpow_right₀ one_le_two (by unfold spacing at hs ⊢; omega)
    rw [← two_pow_mul_zpow] at hle
    have hhi : x < (((splitOf code m e more).lo + 1 : Nat) : ℚ) * 2 ^ spacing code m e := by
      rw [hx]
      exact mul_lt_mul_of_pos_right (by push_cast; exact add_lt_add_right h1 _) hq
    have := Nat.cast_lt.1 (lt_of_mul_lt_mul_right (hle.trans_lt (hge.trans_lt hhi)) hq.le)
    omega

section
variable {code m : Nat} {e : Int} {more : Bool} {x : ℚ} (h : Leads m e more x)
include h

/-- No value of the grid lies between the neighbours. -/
theorem grid_gap {z : ℚ} (hz : OnGrid code z) :
    z ≤ ((splitOf code m e more).lo : ℚ) * 2 ^ spacing code m e ∨
      (((splitOf code m e more).lo + 1 : Nat) : ℚ) * 2 ^ spacing code m e ≤ z := by
  obtain ⟨t, -, -, -, hunits⟩ := splitOf_spec h
  have hq := two_zpow_pos (spacing code m e)
  by_cases hle : z ≤ ((splitOf code m e more).lo : ℚ) * 2 ^ spacing code m e
  · exact .inl hle
  refine .inr ?_
  rw [not_le] at hle
  obtain ⟨j, rfl⟩ := onGrid_eq_units hz (hunits.imp_right fun hb => by
    rw [← two_pow_mul_zpow]
    exact (mul_le_mul_of_nonneg_right (Nat.cast_le.2 hb) hq.le).trans hle.le)
  exact mul_le_mul_of_nonneg_right (Nat.cast_le.2 (Nat.cast_lt.1 (lt_of_mul_lt_mul_right hle hq.le))) hq.le

/-- What rounding takes is the magnitude chosen. -/
theorem chosen_taken {mode : Nat} (hm : mode < 6) (r : Nat) (neg : Bool) :
    Chosen code mode r neg x (((splitOf code m e more).taken mode r neg : ℚ) * 2 ^ spacing code m e) := by
  obtain ⟨t, ht, hx, hlo, -⟩ := splitOf_spec h
  have hq := two_zpow_pos (spacing code m e)
  have hsub : subnormalExp code ≤ spacing code m e := le_max_right _ _
  by_cases h0 : t = 0
  · have hx' : x = ((splitOf code m e more).lo : ℚ) * 2 ^ spacing code m e := by rw [hx, h0, add_zero]
    refine .inl ⟨hx' ▸ onGrid_units hsub hlo.le, ?_⟩
    rw [Split.taken_of_exact (ht.exact_iff.2 h0), hx']
  have hpos : 0 < t := lt_of_le_of_ne ht.nonneg (Ne.symm h0)
  have hl : ((splitOf code m e more).lo : ℚ) * 2 ^ spacing code m e < x := by
    rw [hx]
    exact mul_lt_mul_of_pos_right (by linarith) hq
  have hh : x < (((splitOf code m e more).lo + 1 : Nat) : ℚ) * 2 ^ spacing code m e := by
    rw [hx]
    exact mul_lt_mul_of_pos_right (by push_cast; linarith [ht.lt_one]) hq
  refine .inr ⟨fun hon => ?_, _, _, onGrid_units hsub hlo.le, onGrid_units hsub (Nat.succ_le_of_lt hlo), hl, hh,
    fun z hz => grid_gap h hz, ?_⟩
  · obtain hle | hge := grid_gap h hon
    · exact absurd hle hl.not_ge
    · exact absurd hge hh.not_ge
  · have := ht.picks_taken h0 hm r neg (spacing code m e)
    rwa [← hx] at this

/-- What rounding takes is the value itself just where nothing is discarded. -/
theorem taken_eq_iff (mode r : Nat) (neg : Bool) :
    ((splitOf code m e more).taken mode r neg : ℚ) * 2 ^ spacing code m e = x ↔ (splitOf code m e more).exact = true := by
  obtain ⟨t, ht, hx, -, -⟩ := splitOf_spec h
  have hq := two_zpow_pos (spacing code m e)
  rw [ht.exact_iff, hx, mul_left_inj' hq.ne']
  constructor
  · intro heq
    obtain hc | hc := Split.taken_cases (splitOf code m e more) mode r neg <;> rw [hc] at heq
    · linarith
    · push_cast at heq
      linarith [ht.lt_one]
  · intro h0
    rw [Split.taken_of_exact (ht.exact_iff.2 h0), h0, add_zero]

end

/-! ### Bounds of the formats -/

theorem beyond_iff {code k : Nat} {q : Int} : beyond code k q = true ↔ largest code < (k : ℚ) * 2 ^ q := magnitudeAbove_iff

/-- A multiple of the subnormal spacing is compared with the smallest normal magnitude. -/
theorem belowNormal_iff {code k : Nat} {q : Int} (h : ∃ j : Nat, (k : ℚ) * 2 ^ q = (j : ℚ) * 2 ^ subnormalExp code) :
    belowNormal code k q = true ↔ (k : ℚ) * 2 ^ q < (2 : ℚ) ^ (subnormalExp code + fractionBits code) := by
  obtain ⟨j, hj⟩ := h
  have hu := two_zpow_pos (subnormalExp code)
  have hpos := Nat.two_pow_pos (fractionBits code)
  unfold belowNormal
  rw [Bool.not_eq_true', ← Bool.not_eq_true, magnitudeAbove_iff, not_lt, hj, ← two_pow_mul_zpow, mul_le_mul_iff_left₀ hu,
    mul_lt_mul_iff_left₀ hu, Nat.cast_le, Nat.cast_lt]
  omega

/-- The largest finite value is on the grid, and is no subnormal. -/
theorem largest_spec {code : Nat} (hf : isFloat code = true) :
    OnGrid code (largest code) ∧ (2 : ℚ) ^ (subnormalExp code + fractionBits code) ≤ largest code := by
  obtain ⟨hlt, hle⟩ := maxSignificand_bounds hf
  have hexp : subnormalExp code ≤ maxExp code := by
    obtain rfl | rfl | rfl | rfl | rfl | rfl | rfl := isFloat_cases hf <;> decide
  refine ⟨⟨_, _, hlt, hexp, rfl⟩, ?_⟩
  rw [← two_pow_mul_zpow]
  exact mul_le_mul (Nat.cast_le.2 hle) (zpow_le_zpow_right₀ one_le_two hexp) (two_zpow_pos _).le (Nat.cast_nonneg _)

/-! ### The exceptions of a rounding (06 R158) -/

/-- The exceptions of a rounding within the range: inexact where something is discarded, underflow where the result is tiny. -/
theorem roundingFlags_bits (exact tiny : Bool) (f : Flags) (h : f = (if exact then 0 else 16) ||| if tiny then 8 else 0) :
    f.getLsbD 0 = false ∧ f.getLsbD 1 = false ∧ f.getLsbD 2 = false ∧ f.getLsbD 3 = tiny ∧ f.getLsbD 4 = !exact := by
  subst h
  revert exact tiny
  decide

/-- A magnitude below another one that could be taken is the lower neighbour. -/
theorem Split.taken_eq_lo_of_lt {p : Split} {mode mode' r r' : Nat} {neg : Bool} (h : p.taken mode r neg < p.taken mode' r' neg) :
    p.taken mode r neg = p.lo := by
  have h1 := p.taken_cases mode r neg
  have h2 := p.taken_cases mode' r' neg
  omega

/-- Where the nearer neighbour lies beyond the range, the lower one is the largest finite value or more. -/
theorem largest_le_lower {code m : Nat} {e : Int} {more : Bool} {x : ℚ} {neg : Bool} (hf : isFloat code = true) (h : Leads m e more x)
    (hb : beyond code ((splitOf code m e more).taken 0 0 neg) (spacing code m e) = true) :
    largest code ≤ ((splitOf code m e more).lo : ℚ) * 2 ^ spacing code m e := by
  refine (grid_gap h (largest_spec hf).1).resolve_right fun hge => ?_
  have hlt := beyond_iff.1 hb
  obtain hc | hc := Split.taken_cases (splitOf code m e more) 0 0 neg <;> rw [hc] at hlt
  · push_cast at hge
    linarith [two_zpow_pos (spacing code m e)]
  · exact absurd hlt hge.not_gt

theorem overflowFlags_bits : (20 : Flags).getLsbD 0 = false ∧ (20 : Flags).getLsbD 1 = false ∧ (20 : Flags).getLsbD 2 = true ∧
    (20 : Flags).getLsbD 3 = false ∧ (20 : Flags).getLsbD 4 = true := by decide

/-- What 06 R154 and R158 say of the rounding `out` of `x`, of which `w` is the magnitude chosen. -/
def RoundedAs (code mode r : Nat) (neg : Bool) (x w : ℚ) (out : Num × Flags) : Prop :=
  (w ≤ largest code → ∃ k n, out.1 = .num neg k n false ∧ (k : ℚ) * 2 ^ n = w) ∧
  (largest code < w → toLargest mode neg = false → out.1 = .inf neg) ∧
  (largest code < w → toLargest mode neg = true → ∃ k n, out.1 = .num neg k n false ∧ (k : ℚ) * 2 ^ n = largest code) ∧
  (out.2.getLsbD 2 = true ↔ largest code < w ∨ ∃ v, Chosen code 0 r neg x v ∧ w < v ∧ largest code < v) ∧
  (out.2.getLsbD 4 = true ↔ w ≠ x ∨ largest code < w) ∧
  (out.2.getLsbD 3 = true ↔ w ≠ x ∧ w ≠ 0 ∧ w < (2 : ℚ) ^ (subnormalExp code + fractionBits code)) ∧
  out.2.getLsbD 0 = false ∧ out.2.getLsbD 1 = false

section
variable {code mode r k : Nat} {neg : Bool} {x : ℚ} {q : Int}

/-- A magnitude beyond the range overflows. -/
theorem roundedAs_beyond {w : ℚ} (hf : isFloat code = true) (hw : largest code < w) : RoundedAs code mode r neg x w
    (if toLargest mode neg then .num neg (maxSignificand code) (maxExp code) false else .inf neg, 20) := by
  obtain ⟨h0, h1, h2, h3, h4⟩ := overflowFlags_bits
  refine ⟨fun hle => absurd hw hle.not_gt, fun _ hto => if_neg (Bool.eq_false_iff.1 hto), fun _ hto => ⟨_, _, if_pos hto, rfl⟩,
    iff_of_true h2 (.inl hw), iff_of_true h4 (.inr hw), iff_of_false (Bool.eq_false_iff.1 h3) fun ⟨_, _, hlt⟩ => ?_, h0, h1⟩
  exact absurd hw (hlt.le.trans (largest_spec hf).2).not_gt

/-- A magnitude within the range overflows too where RNE would have taken one beyond it. -/
theorem roundedAs_nearestBeyond {v : ℚ} (hw : (k : ℚ) * 2 ^ q ≤ largest code) (hv : Chosen code 0 r neg x v) (hbig : largest code < v)
    (hne : (k : ℚ) * 2 ^ q ≠ x) (hnormal : (2 : ℚ) ^ (subnormalExp code + fractionBits code) ≤ (k : ℚ) * 2 ^ q) :
    RoundedAs code mode r neg x ((k : ℚ) * 2 ^ q) (.num neg k q false, 20) := by
  obtain ⟨h0, h1, h2, h3, h4⟩ := overflowFlags_bits
  exact ⟨fun _ => ⟨_, _, rfl, rfl⟩, fun hlt => absurd hw hlt.not_ge, fun hlt => absurd hw hlt.not_ge,
    iff_of_true h2 (.inr ⟨v, hv, hw.trans_lt hbig, hbig⟩), iff_of_true h4 (.inl hne),
    iff_of_false (Bool.eq_false_iff.1 h3) fun ⟨_, _, hlt⟩ => absurd hlt hnormal.not_gt, h0, h1⟩

/-- Otherwise what is discarded makes the result inexact, and a tiny one an underflow. -/
theorem roundedAs_within (exact tiny : Bool) (hw : (k : ℚ) * 2 ^ q ≤ largest code)
    (hnearest : ∀ v, Chosen code 0 r neg x v → (k : ℚ) * 2 ^ q < v → v ≤ largest code)
    (hexact : exact = true ↔ (k : ℚ) * 2 ^ q = x)
    (htiny : tiny = true ↔ (k : ℚ) * 2 ^ q ≠ x ∧ (k : ℚ) * 2 ^ q ≠ 0 ∧
      (k : ℚ) * 2 ^ q < (2 : ℚ) ^ (subnormalExp code + fractionBits code)) :
    RoundedAs code mode r neg x ((k : ℚ) * 2 ^ q) (.num neg k q false, (if exact then 0 else 16) ||| if tiny then 8 else 0) := by
  obtain ⟨h0, h1, h2, h3, h4⟩ := roundingFlags_bits exact tiny _ rfl
  refine ⟨fun _ => ⟨_, _, rfl, rfl⟩, fun hlt => absurd hw hlt.not_ge, fun hlt => absurd hw hlt.not_ge, ?overflow, ?inexact, ?underflow,
    h0, h1⟩
  case overflow =>
    rw [h2]
    exact iff_of_false Bool.false_ne_true (not_or.2 ⟨hw.not_gt, fun ⟨v, hv, hlt, hbig⟩ => absurd hbig (hnearest v hv hlt).not_gt⟩)
  case inexact =>
    rw [h4, Bool.not_eq_true', ← Bool.not_eq_true, hexact]
    exact (or_iff_left hw.not_gt).symm
  case underflow => rw [h3, htiny]

end

theorem roundingChoosesNeighbour : RoundingChoosesNeighbour := by
  unfold RoundingChoosesNeighbour
  intro code mode r m neg more e x hf hmode h y flags toward
  refine ⟨_, chosen_taken h hmode r neg, ?_⟩
  have hround := roundNum_num hf (leads_ne_zero h) mode r neg more e
  have hnearest := chosen_taken (code := code) h (mode := 0) (by decide) r neg
  have hexact := taken_eq_iff (code := code) h mode r neg
  have hsub : subnormalExp code ≤ spacing code m e := le_max_right _ _
  have hu := two_zpow_pos (spacing code m e)
  set p := splitOf code m e more
  set q := spacing code m e
  set k := p.taken mode r neg
  suffices hrounded : RoundedAs code mode r neg x ((k : ℚ) * 2 ^ q) (roundNum code mode r (.num neg m e more)) from hrounded
  rw [hround]
  by_cases hbeyond : beyond code k q = true
  case pos =>
    rw [if_pos hbeyond]
    exact roundedAs_beyond hf (beyond_iff.1 hbeyond)
  rw [if_neg hbeyond]
  have hw : (k : ℚ) * 2 ^ q ≤ largest code := not_lt.1 fun hlt => hbeyond (beyond_iff.2 hlt)
  by_cases hnext : (k = p.lo && beyond code (p.taken 0 0 neg) q) = true
  case pos =>
    rw [if_pos hnext]
    rw [Bool.and_eq_true, decide_eq_true_eq] at hnext
    obtain ⟨hlo, hbnext⟩ := hnext
    have hv := beyond_iff.1 hbnext
    refine roundedAs_nearestBeyond hw hnearest hv (fun heq => ?_) ?_
    · rw [Split.taken_of_exact (hexact.1 heq)] at hv
      exact absurd hv (hlo ▸ hw).not_gt
    · rw [hlo]
      exact (largest_spec hf).2.trans (largest_le_lower hf h hbnext)
  case neg =>
    rw [if_neg hnext]
    refine roundedAs_within _ _ hw (fun v hv hlt => not_lt.1 fun hbig => hnext ?_) hexact.symm ?_
    · obtain rfl := chosen_unique hv hnearest
      have hlo : k = p.lo := Split.taken_eq_lo_of_lt (Nat.cast_lt.1 (lt_of_mul_lt_mul_right hlt hu.le))
      rw [Bool.and_eq_true, decide_eq_true_eq]
      exact ⟨hlo, beyond_iff.2 hbig⟩
    · have hzero : k ≠ 0 ↔ (k : ℚ) * 2 ^ q ≠ 0 := by simp [hu.ne']
      rw [Bool.and_eq_true, Bool.and_eq_true, Bool.not_eq_true', ← Bool.not_eq_true, ← hexact, bne_iff_ne, hzero,
        belowNormal_iff ⟨_, (shifted_magnitude k hsub).symm⟩]
      tauto

end Sys2Proof.Machine
end

section
/-!
PROOFS. A value on the grid and within the range is delivered as the bits that decode to it: encoding finds the fields of the value, and bits read as
their fields say (06 R145, R146, R148, R156, R159).
-/
namespace Sys2Proof.Machine
open Sys2Proof.Claim

/-! ### What bits stand for, by their class (06 R145-R148) -/

theorem code_ne_of_isFloat {code : Nat} (hf : isFloat code = true) : code ≠ 6 ∧ code ≠ 7 := by
  obtain rfl | rfl | rfl | rfl | rfl | rfl | rfl := isFloat_cases hf <;> decide

section
variable {code bits : Nat} (hf : isFloat code = true)
include hf

theorem decodeNum_of_zero (h : classOf code bits = .zero) : decodeNum code bits = .zero (signOf code bits) := by
  obtain ⟨h6, h7⟩ := code_ne_of_isFloat hf
  simp only [decodeNum, if_neg h6, if_neg h7, h]

theorem decodeNum_of_subnormal (h : classOf code bits = .subnormal) :
    decodeNum code bits = .num (signOf code bits) (bits % 2 ^ fractionBits code) (subnormalExp code) false := by
  obtain ⟨h6, h7⟩ := code_ne_of_isFloat hf
  simp only [decodeNum, if_neg h6, if_neg h7, h]

theorem decodeNum_of_normal (h : classOf code bits = .normal) : decodeNum code bits = .num (signOf code bits)
    (2 ^ fractionBits code + bits % 2 ^ fractionBits code)
    (((bits / 2 ^ fractionBits code % 2 ^ exponentBits code : Nat) : Int) - (bias code : Int) - (fractionBits code : Int)) false := by
  obtain ⟨h6, h7⟩ := code_ne_of_isFloat hf
  simp only [decodeNum, if_neg h6, if_neg h7, h]

theorem decodeNum_of_infinite (h : classOf code bits = .infinite) : decodeNum code bits = .inf (signOf code bits) := by
  obtain ⟨h6, h7⟩ := code_ne_of_isFloat hf
  simp only [decodeNum, if_neg h6, if_neg h7, h]

theorem decodeNum_of_nan (h : classOf code bits = .signalling ∨ classOf code bits = .quiet) :
    decodeNum code bits = .nan (signOf code bits) := by
  obtain ⟨h6, h7⟩ := code_ne_of_isFloat hf
  obtain h | h := h <;> simp only [decodeNum, if_neg h6, if_neg h7, h]

end

/-! ### The fields of a format's bits (06 R145, R146) -/

/-- The bits of a sign, an exponent field and a fraction field. -/
def packed (code : Nat) (neg : Bool) (ex fr : Nat) : Nat := signBit code neg + ex * 2 ^ fractionBits code + fr

/-- The fields of a finite value. -/
structure FiniteFields (code ex fr : Nat) : Prop where
  fraction : fr < 2 ^ fractionBits code
  exponent : ex < 2 ^ exponentBits code
  top : ex = 2 ^ exponentBits code - 1 → code = 5 ∨ code = 3 ∧ fr ≠ 7

/-- The magnitude that the fields of a finite value stand for. -/
def fieldsValue (code ex fr : Nat) : ℚ :=
  if ex = 0 then (fr : ℚ) * 2 ^ subnormalExp code
  else ((2 ^ fractionBits code + fr : Nat) : ℚ) * 2 ^ ((ex : Int) - (bias code : Int) - (fractionBits code : Int))

theorem formatWidth_eq {code : Nat} (hf : isFloat code = true) : formatWidth code = fractionBits code + exponentBits code + 1 := by
  obtain rfl | rfl | rfl | rfl | rfl | rfl | rfl := isFloat_cases hf <;> rfl

theorem signBit_eq (code : Nat) (neg : Bool) : signBit code neg = neg.toNat * 2 ^ exponentBits code * 2 ^ fractionBits code := by
  cases neg <;> simp [signBit, pow_add, mul_comm]

theorem packed_eq (code : Nat) (neg : Bool) (ex fr : Nat) :
    packed code neg ex fr = (neg.toNat * 2 ^ exponentBits code + ex) * 2 ^ fractionBits code + fr := by
  rw [packed, signBit_eq]
  ring

section
variable {code ex fr : Nat} (neg : Bool) (h : FiniteFields code ex fr)
include h

theorem packed_fraction : packed code neg ex fr % 2 ^ fractionBits code = fr := by
  rw [packed_eq, Nat.mul_add_mod_of_lt h.fraction]

theorem packed_upper : packed code neg ex fr / 2 ^ fractionBits code = neg.toNat * 2 ^ exponentBits code + ex := by
  rw [packed_eq, mul_comm, Nat.mul_add_div (Nat.two_pow_pos _), Nat.div_eq_of_lt h.fraction, add_zero]

theorem packed_exponent : packed code neg ex fr / 2 ^ fractionBits code % 2 ^ exponentBits code = ex := by
  rw [packed_upper neg h, Nat.mul_add_mod_of_lt h.exponent]

theorem packed_sign : packed code neg ex fr / 2 ^ (fractionBits code + exponentBits code) = neg.toNat := by
  rw [pow_add, ← Nat.div_div_eq_div_mul, packed_upper neg h, mul_comm, Nat.mul_add_div (Nat.two_pow_pos _),
    Nat.div_eq_of_lt h.exponent, add_zero]

end

/-- The class of a finite value is that of its fields (06 R145, R148). -/
theorem classOf_packed {code ex fr : Nat} (hf : isFloat code = true) (neg : Bool) (h : FiniteFields code ex fr) :
    classOf code (packed code neg ex fr) = if ex = 0 then (if fr = 0 then .zero else .subnormal) else .normal := by
  have hescape : code = 5 → packed code neg ex fr % 16 = 8 → ex = 0 ∧ fr = 0 := by
    rintro rfl h8
    have hfr : fr < 2 := h.fraction
    have hex : ex < 4 := h.exponent
    rw [packed_eq] at h8
    cases neg <;> simp [fractionBits, exponentBits] at h8 <;> omega
  unfold classOf
  simp only [isInteger_of_isFloat hf, Bool.false_eq_true, ↓reduceIte, packed_fraction neg h, packed_exponent neg h]
  by_cases hesc : code = 5 ∧ packed code neg ex fr % 16 = 8
  · obtain ⟨hex, hfr⟩ := hescape hesc.1 hesc.2
    rw [if_pos hesc, if_pos hex, if_pos hfr]
  rw [if_neg hesc]
  by_cases hex : ex = 0
  · rw [if_pos hex, if_pos hex]
  rw [if_neg hex, if_neg hex]
  by_cases h5 : code = 5
  · rw [if_pos h5]
  rw [if_neg h5]
  by_cases htop : ex = 2 ^ exponentBits code - 1
  · obtain ⟨h3, h7⟩ := (h.top htop).resolve_left h5
    rw [if_pos htop, if_pos h3, if_neg h7]
  · rw [if_neg htop]

theorem signOf_packed {code ex fr : Nat} (hf : isFloat code = true) (neg : Bool) (h : FiniteFields code ex fr) :
    signOf code (packed code neg ex fr) = neg := by
  obtain ⟨h6, h7⟩ := code_ne_of_isFloat hf
  rw [signOf, if_neg h6, if_neg h7, packed_sign neg h]
  cases neg <;> rfl

/-- The bits of finite fields are a finite value's, and stand for what the fields do. -/
theorem packed_spec {code ex fr : Nat} (hf : isFloat code = true) (neg : Bool) (h : FiniteFields code ex fr) :
    FiniteBits code (packed code neg ex fr) ∧
      valueOf code (packed code neg ex fr) = (if neg then -1 else 1) * fieldsValue code ex fr := by
  have hclass := classOf_packed hf neg h
  have hsign := signOf_packed hf neg h
  have hlt : packed code neg ex fr < 2 ^ formatWidth code := by
    rw [formatWidth_eq hf, pow_succ', ← Nat.div_lt_iff_lt_mul (Nat.two_pow_pos _), packed_sign neg h]
    exact Bool.toNat_lt neg
  unfold valueOf fieldsValue
  by_cases hex : ex = 0
  · rw [if_pos hex] at hclass ⊢
    by_cases hfr : fr = 0
    · rw [if_pos hfr] at hclass
      refine ⟨⟨hlt, .inl hclass⟩, ?_⟩
      rw [decodeNum_of_zero hf hclass, hfr]
      simp [Num.zero, realOf]
    · rw [if_neg hfr] at hclass
      refine ⟨⟨hlt, .inr (.inl hclass)⟩, ?_⟩
      rw [decodeNum_of_subnormal hf hclass, hsign, packed_fraction neg h]
      simp only [realOf, mul_assoc]
  · rw [if_neg hex] at hclass ⊢
    refine ⟨⟨hlt, .inr (.inr hclass)⟩, ?_⟩
    rw [decodeNum_of_normal hf hclass, hsign, packed_fraction neg h, packed_exponent neg h]
    simp only [realOf, mul_assoc]

/-! ### The bits of a value on the grid -/

/-- The number of units of 2^q in a value that is a whole number of them. -/
theorem units_eq {m j : Nat} {e q : Int} (h : (m : ℚ) * 2 ^ e = (j : ℚ) * 2 ^ q) :
    (if q ≤ e then m * 2 ^ (e - q).toNat else m / 2 ^ (q - e).toNat) = j := by
  split
  next hqe =>
    rw [← shifted_magnitude m hqe, mul_left_inj' (two_zpow_pos q).ne'] at h
    exact Nat.cast_injective h
  next hqe =>
    rw [← shifted_magnitude j (not_le.1 hqe).le, mul_left_inj' (two_zpow_pos e).ne'] at h
    rw [Nat.cast_injective h, Nat.mul_div_cancel _ (Nat.two_pow_pos _)]

/-- The exponent field of the largest finite value. -/
def topField (code : Nat) : Nat := if code = 3 ∨ code = 5 then 2 ^ exponentBits code - 1 else 2 ^ exponentBits code - 2

theorem maxExp_eq (code : Nat) : maxExp code = (topField code : Int) - (bias code : Int) - (fractionBits code : Int) := rfl

/-- The fields of a normal value within the range. -/
theorem finiteFields_of_le {code ex fr : Nat} (hf : isFloat code = true) (hex : ex ≠ 0) (hfr : fr < 2 ^ fractionBits code)
    (hle : fieldsValue code ex fr ≤ largest code) : FiniteFields code ex fr := by
  rw [fieldsValue, if_neg hex, largest] at hle
  obtain ⟨hmax, -⟩ := maxSignificand_bounds hf
  set n : Int := (ex : Int) - (bias code : Int) - (fractionBits code : Int)
  have hexp : n ≤ maxExp code := by
    by_contra hn
    have h1 : ((2 ^ (fractionBits code + 1) : Nat) : ℚ) * 2 ^ maxExp code ≤ ((2 ^ fractionBits code + fr : Nat) : ℚ) * 2 ^ n :=
      calc ((2 ^ (fractionBits code + 1) : Nat) : ℚ) * 2 ^ maxExp code = 2 ^ (maxExp code + (fractionBits code + 1 : Nat)) :=
            two_pow_mul_zpow _ _
        _ ≤ 2 ^ (n + fractionBits code) := zpow_le_zpow_right₀ one_le_two (by push_cast; omega)
        _ = ((2 ^ fractionBits code : Nat) : ℚ) * 2 ^ n := (two_pow_mul_zpow _ _).symm
        _ ≤ _ := mul_le_mul_of_nonneg_right (Nat.cast_le.2 (Nat.le_add_right _ _)) (two_zpow_pos n).le
    have h2 := lt_of_mul_lt_mul_right ((mul_lt_mul_of_pos_right (Nat.cast_lt.2 hmax) (two_zpow_pos (maxExp code))).trans_le
      (h1.trans hle)) (two_zpow_pos (maxExp code)).le
    exact lt_irrefl _ h2
  have hfield : ex ≤ topField code := by
    rw [maxExp_eq] at hexp
    omega
  have hbits : 4 ≤ 2 ^ exponentBits code := by
    obtain rfl | rfl | rfl | rfl | rfl | rfl | rfl := isFloat_cases hf <;> decide
  unfold topField at hfield
  refine ⟨hfr, by split at hfield <;> omega, fun htop => ?_⟩
  by_cases h5 : code = 5
  · exact .inl h5
  by_cases h3 : code = 3
  · subst h3
    rw [show n = maxExp 3 by rw [maxExp_eq, show topField 3 = ex from htop.symm]] at hle
    have hsig : 2 ^ fractionBits 3 + fr ≤ 14 := Nat.cast_le.1 (le_of_mul_le_mul_right hle (two_zpow_pos _))
    exact .inr ⟨rfl, by simp only [fractionBits] at hsig; omega⟩
  · rw [if_neg (by simp [h3, h5])] at hfield
    omega

/-- A value on the grid and within the range is encoded by fields that stand for it. -/
theorem encodeFinite_packed {code m : Nat} {e : Int} (hf : isFloat code = true) (hg : OnGrid code ((m : ℚ) * 2 ^ e))
    (hle : (m : ℚ) * 2 ^ e ≤ largest code) (neg : Bool) :
    ∃ ex fr, encodeFinite code neg m e = packed code neg ex fr ∧ FiniteFields code ex fr ∧
      fieldsValue code ex fr = (m : ℚ) * 2 ^ e := by
  have hzero : (0 : Nat) = 2 ^ exponentBits code - 1 → False := by
    obtain rfl | rfl | rfl | rfl | rfl | rfl | rfl := isFloat_cases hf <;> decide
  unfold encodeFinite
  by_cases hm : m = 0
  · rw [if_pos hm]
    refine ⟨0, 0, by simp [packed], ⟨Nat.two_pow_pos _, Nat.two_pow_pos _, fun h => (hzero h).elim⟩, ?_⟩
    simp [fieldsValue, hm]
  rw [if_neg hm]
  obtain ⟨hge, hlt⟩ := leads_bounds (more := false) ⟨hm, rfl⟩
  by_cases htop : (m.log2 : Int) + e < 1 - (bias code : Int)
  · rw [if_pos htop]
    obtain ⟨j, hj⟩ := onGrid_eq_units hg (.inl rfl)
    have hunits := units_eq hj
    have hsmall : j < 2 ^ fractionBits code := by
      have hle' : (2 : ℚ) ^ ((m.log2 : Int) + e + 1) ≤ 2 ^ (subnormalExp code + fractionBits code) :=
        zpow_le_zpow_right₀ one_le_two (by unfold subnormalExp; omega)
      rw [← two_pow_mul_zpow] at hle'
      rw [hj] at hlt
      exact Nat.cast_lt.1 (lt_of_mul_lt_mul_right (hlt.trans_le hle') (two_zpow_pos _).le)
    refine ⟨0, j, ?_, ⟨hsmall, Nat.two_pow_pos _, fun h => (hzero h).elim⟩, ?_⟩
    · simp only [ge_iff_le, sub_nonneg, neg_sub, hunits, packed, zero_mul, add_zero]
    · rw [fieldsValue, if_pos rfl, hj]
  · rw [if_neg htop]
    obtain ⟨q, hq⟩ : ∃ q : Int, q + fractionBits code = (m.log2 : Int) + e := ⟨_, sub_add_cancel _ _⟩
    rw [← hq] at hge
    obtain ⟨j, hj⟩ := onGrid_eq_units hg (.inr hge)
    have hunits : (if m.log2 ≤ fractionBits code then m * 2 ^ (fractionBits code - m.log2)
        else m / 2 ^ (m.log2 - fractionBits code)) = j := by
      rw [← units_eq hj, show (e - q).toNat = fractionBits code - m.log2 by omega,
        show (q - e).toNat = m.log2 - fractionBits code by omega]
      exact if_congr (by omega) rfl rfl
    have hbig : 2 ^ fractionBits code ≤ j := by
      rw [hj, ← two_pow_mul_zpow] at hge
      exact Nat.cast_le.1 (le_of_mul_le_mul_right hge (two_zpow_pos q))
    have hsmall : j < 2 ^ (fractionBits code + 1) := by
      rw [hj, ← hq, show q + (fractionBits code : Int) + 1 = q + (fractionBits code + 1 : Nat) by push_cast; ring,
        ← two_pow_mul_zpow] at hlt
      exact Nat.cast_lt.1 (lt_of_mul_lt_mul_right hlt (two_zpow_pos q).le)
    have hfr : j - 2 ^ fractionBits code < 2 ^ fractionBits code := by
      rw [pow_succ] at hsmall
      omega
    have hex : ((m.log2 : Int) + e + (bias code : Int)).toNat ≠ 0 := by omega
    have hvalue : fieldsValue code ((m.log2 : Int) + e + (bias code : Int)).toNat (j - 2 ^ fractionBits code) = (m : ℚ) * 2 ^ e := by
      rw [fieldsValue, if_neg hex, hj, Nat.add_sub_cancel' hbig]
      congr 2
      omega
    refine ⟨_, _, ?_, finiteFields_of_le hf hex hfr (hvalue ▸ hle), hvalue⟩
    simp only [hunits, packed]

/-! ### Delivery (06 R156, R159) -/

theorem deliver_num {code m : Nat} (hf : isFloat code = true) (outliers neg more : Bool) (e : Int) (fl : Flags) :
    deliver code outliers (.num neg m e more) fl = if code = 5 ∧ m = 0 then (0, fl) else (encodeFinite code neg m e, fl) := by
  simp [deliver, isInteger_of_isFloat hf]

/-- A value on the grid and within the range is delivered exactly. -/
theorem deliver_onGrid {code m : Nat} {e : Int} (hf : isFloat code = true) (hg : OnGrid code ((m : ℚ) * 2 ^ e))
    (hle : (m : ℚ) * 2 ^ e ≤ largest code) (outliers neg : Bool) (fl : Flags) :
    let b := deliver code outliers (.num neg m e false) fl
    FiniteBits code b.1 ∧ valueOf code b.1 = realOf (.num neg m e false) ∧ b.2 = fl ∧ (code ≠ 5 → signOf code b.1 = neg) ∧
      (code = 5 → m = 0 → b.1 = 0) := by
  intro b
  have hb : b = _ := deliver_num hf outliers neg false e fl
  by_cases hz : code = 5 ∧ m = 0
  · rw [if_pos hz] at hb
    obtain ⟨rfl, rfl⟩ := hz
    have hfinite : FiniteBits 5 0 := ⟨by decide, .inl (by decide)⟩
    have hdecoded : decodeNum 5 0 = .num false 0 0 false := by decide
    rw [hb]
    refine ⟨hfinite, ?_, rfl, fun h => absurd rfl h, fun _ _ => rfl⟩
    simp [valueOf, hdecoded, realOf]
  · rw [if_neg hz] at hb
    obtain ⟨ex, fr, hpacked, hfields, hvalue⟩ := encodeFinite_packed hf hg hle neg
    obtain ⟨hfinite, hval⟩ := packed_spec hf neg hfields
    rw [hb, hpacked]
    refine ⟨hfinite, ?_, rfl, fun _ => signOf_packed hf neg hfields, fun h5 hm => absurd ⟨h5, hm⟩ hz⟩
    rw [hval, hvalue, ← mul_assoc]
    rfl

theorem classOf_encodeNan : ∀ code ∈ [0, 1, 2, 4, 8], ∀ neg, classOf code (encodeNan code neg) = .quiet := by decide

/-- Infinities and NaNs in floating-point formats. -/
theorem deliver_special (outliers neg : Bool) (fl : Flags) : deliver 3 outliers (.inf neg) fl = (if neg then 0xFF else 0x7F, fl) ∧
    deliver 5 outliers (.inf neg) fl = (if neg then 0xF else 0x7, fl) ∧ deliver 5 outliers (.nan neg) fl = (0, 1) ∧
    (∀ code ∈ [0, 1, 2, 4, 8], deliver code outliers (.inf neg) fl =
        ((if neg then 2 ^ (formatWidth code - 1) else 0) + (2 ^ exponentBits code - 1) * 2 ^ fractionBits code, fl) ∧
      classOf code (deliver code outliers (.nan neg) fl).1 = .quiet ∧ (deliver code outliers (.nan neg) fl).2 = fl) := by
  refine ⟨?_, ?_, rfl, ?_⟩
  · cases neg <;> rfl
  · cases neg <;> rfl
  · intro code hc
    have hquiet := classOf_encodeNan code hc neg
    simp only [List.mem_cons, List.not_mem_nil, or_false] at hc
    obtain rfl | rfl | rfl | rfl | rfl := hc <;> exact ⟨rfl, hquiet, rfl⟩

/-- Delivery into an integer format keeps to its range. -/
theorem deliver_integer {code : Nat} (hc : code = 6 ∨ code = 7) (outliers neg : Bool) (m : Nat) (fl : Flags) :
    let low : Int := if code = 6 then -128 else if outliers then -7 else -8
    let high : Int := if code = 6 then 127 else 7
    let v : Int := if neg then -m else m
    let put (x : Int) : Nat := (x % (if code = 6 then 256 else 16)).toNat
    deliver code outliers (.nan neg) fl = (0, 1) ∧ deliver code outliers (.inf neg) fl = (put (if neg then low else high), 1) ∧
    deliver code outliers (.num neg m 0 false) fl = (if v < low then (put low, 1) else if high < v then (put high, 1)
      else (put v, fl)) := by
  intro low high v put
  have hi : isInteger code = true := by obtain rfl | rfl := hc <;> rfl
  have hv : (Num.num neg m 0 false).toInt = v := by simp [Num.toInt, v]
  refine ⟨?_, ?_, ?_⟩
  · simp [deliver, hi]
  · simp only [deliver, hi, ↓reduceIte]
    rfl
  · simp only [deliver, hi, ↓reduceIte, hv]
    rfl

/-- Flush takes the values below every normal magnitude to zero (06 R159). -/
theorem flushResult_onGrid {code m : Nat} {e : Int} (hf : isFloat code = true) (hg : OnGrid code ((m : ℚ) * 2 ^ e))
    (neg flush : Bool) (fl : Flags) :
    flushResult code flush (.num neg m e false) fl =
      if flush = true ∧ code ≠ 5 ∧ m ≠ 0 ∧ (m : ℚ) * 2 ^ e < (2 : ℚ) ^ (subnormalExp code + fractionBits code)
      then (.num neg 0 0 false, fl ||| 24) else (.num neg m e false, fl) := by
  have htiny : isTiny code (.num neg m e false) = (m != 0 && belowNormal code m e) := rfl
  have hiff := belowNormal_iff (onGrid_eq_units hg (.inl rfl))
  have hcond : (flush && flushable code && isTiny code (.num neg m e false)) = true ↔
      flush = true ∧ code ≠ 5 ∧ m ≠ 0 ∧ (m : ℚ) * 2 ^ e < (2 : ℚ) ^ (subnormalExp code + fractionBits code) := by
    simp [htiny, flushable, hf, hiff, and_assoc]
  unfold flushResult
  exact if_congr hcond rfl rfl

theorem deliveredValues : DeliveredValues := by
  unfold DeliveredValues
  exact ⟨fun _ _ neg outliers _ fl hf hg hle => deliver_onGrid hf hg hle outliers neg fl,
    fun outliers neg fl => deliver_special outliers neg fl, fun _ outliers neg m fl hc => deliver_integer hc outliers neg m fl,
    fun _ _ neg flush _ fl hf hg => flushResult_onGrid hf hg neg flush fl⟩

end Sys2Proof.Machine
end

section
/-!
PROOFS. The arithmetic of elements before its rounding: sums and products are exact, quotients and square roots keep their leading bits and
whether more follow, and minimum and maximum select an operand (06 R144, R147, R157; 08 R195-R197).
-/
namespace Sys2Proof.Machine
open Sys2Proof.Claim

/-! ### Finite operands (06 R144, R145) -/

theorem arithmeticCode_cases {code : Nat} (h : arithmeticCode code = true) : code = 0 ∨ code = 1 ∨ code = 2 ∨ code = 8 := by
  simp only [arithmeticCode, Bool.or_eq_true, decide_eq_true_eq, beq_iff_eq] at h
  omega

theorem isFloat_of_arithmeticCode {code : Nat} (h : arithmeticCode code = true) : isFloat code = true := by
  obtain rfl | rfl | rfl | rfl := arithmeticCode_cases h <;> rfl

/-- A finite value of a floating-point format is a number with the sign of its bits, of magnitude zero just for a zero. -/
theorem decodeNum_finite {code bits : Nat} (hf : isFloat code = true) (h : FiniteBits code bits) :
    ∃ m e, decodeNum code bits = .num (signOf code bits) m e false ∧ (classOf code bits = .zero → m = 0) := by
  obtain ⟨-, hc | hc | hc⟩ := h
  · exact ⟨0, 0, decodeNum_of_zero hf hc, fun _ => rfl⟩
  · exact ⟨_, _, decodeNum_of_subnormal hf hc, fun hz => by rw [hc] at hz; cases hz⟩
  · exact ⟨_, _, decodeNum_of_normal hf hc, fun hz => by rw [hc] at hz; cases hz⟩

theorem exactly_decodeNum {code bits : Nat} (hf : isFloat code = true) (h : FiniteBits code bits) :
    Exactly (decodeNum code bits) (valueOf code bits) := by
  obtain ⟨m, e, hd, -⟩ := decodeNum_finite hf h
  exact ⟨_, m, e, hd, rfl⟩

theorem nanFlags_of_not_signalling {code : Nat} {xs : List Nat} (h : ∀ b ∈ xs, classOf code b ≠ .signalling) : nanFlags code xs = 0 := by
  unfold nanFlags
  rw [if_neg]
  simpa [isSignalling] using h

theorem finiteBits_not_signalling {code bits : Nat} (h : FiniteBits code bits) : classOf code bits ≠ .signalling := by
  obtain ⟨-, h | h | h⟩ := h <;> rw [h] <;> decide

/-- An instruction that rounds one exact result of finite operands raises nothing of its own (08 R195). -/
theorem exactly_of_finite {f : FpEnv → List Num → Num × Flags} {env : FpEnv} {code j : Nat} {xs : List Nat} {x : Num}
    (hflush : env.flush = false) (hxs : ∀ b ∈ xs, FiniteBits code b) (hx : f env (xs.map (decodeNum code)) = (x, 0)) :
    exactly f env code j xs = env.result code j x 0 := by
  have hread : (fun b => env.read code b) = decodeNum code := by
    funext b
    simp [FpEnv.read, operand, hflush]
  unfold exactly
  rw [hread, hx, nanFlags_of_not_signalling fun b hb => finiteBits_not_signalling (hxs b hb)]
  rfl

/-! ### Exact sums and products (06 R144, R157) -/

theorem realOf_num (neg st : Bool) (m : Nat) (e : Int) : realOf (.num neg m e st) = (if neg then -1 else 1) * (m : ℚ) * 2 ^ e := rfl

theorem realOf_zero (neg : Bool) : realOf (.zero neg) = 0 := by simp [Num.zero, realOf]

theorem exactly_zero (neg : Bool) : Exactly (.zero neg) 0 := ⟨neg, 0, 0, rfl, realOf_zero neg⟩

theorem realOf_eq_zero {neg st : Bool} {m : Nat} {e : Int} : realOf (.num neg m e st) = 0 ↔ m = 0 := by
  have he := (two_zpow_pos e).ne'
  cases neg <;> simp [realOf, he]

theorem abs_realOf (neg st : Bool) (m : Nat) (e : Int) : |realOf (.num neg m e st)| = (m : ℚ) * 2 ^ e := by
  have he := (two_zpow_pos e).le
  cases neg <;> simp [realOf, abs_mul]

theorem realOf_neg_iff {neg st : Bool} {m : Nat} {e : Int} (hm : m ≠ 0) : realOf (.num neg m e st) < 0 ↔ neg = true := by
  have hpos : (0 : ℚ) < (m : ℚ) * 2 ^ e := mul_pos (Nat.cast_pos.2 (Nat.pos_of_ne_zero hm)) (two_zpow_pos e)
  cases neg <;> simp [realOf] <;> linarith

/-- A signed magnitude m × 2^k in units of 2^e, as sums and comparisons take it. -/
def signedUnits (neg : Bool) (m : Nat) (k e : Int) : Int :=
  if neg then -((m * 2 ^ (k - e).toNat : Nat) : Int) else ((m * 2 ^ (k - e).toNat : Nat) : Int)

theorem signedUnits_spec (neg st : Bool) {m : Nat} {k e : Int} (h : m = 0 ∨ e ≤ k) :
    (signedUnits neg m k e : ℚ) * 2 ^ e = realOf (.num neg m k st) := by
  have hmag : ((m * 2 ^ (k - e).toNat : Nat) : ℚ) * 2 ^ e = (m : ℚ) * 2 ^ k := by
    obtain rfl | h := h
    · simp
    · exact shifted_magnitude m h
  rw [signedUnits, realOf_num]
  cases neg
  · simp only [Bool.false_eq_true, ↓reduceIte, Int.cast_natCast, hmag, one_mul]
  · simp only [↓reduceIte, Int.cast_neg, Int.cast_natCast, neg_mul, one_mul, hmag]

theorem realOf_int (t : Int) (e : Int) : realOf (.num (decide (t < 0)) t.natAbs e false) = (t : ℚ) * 2 ^ e := by
  have habs : ((t.natAbs : Nat) : ℚ) = |(t : ℚ)| := by rw [Nat.cast_natAbs, Int.cast_abs]
  rw [realOf_num, habs]
  by_cases ht : t < 0
  · have : (t : ℚ) < 0 := Int.cast_lt_zero.2 ht
    simp [ht, abs_of_neg this]
  · have : (0 : ℚ) ≤ t := by exact_mod_cast not_lt.1 ht
    simp [ht, abs_of_nonneg this]

/-- The exponent that a sum is taken in. -/
def sumExp (ma : Nat) (ea : Int) (mb : Nat) (eb : Int) : Int := if ma = 0 then eb else if mb = 0 then ea else min ea eb

/-- The sum in units of its exponent. -/
def sumUnits (na : Bool) (ma : Nat) (ea : Int) (nb : Bool) (mb : Nat) (eb : Int) : Int :=
  signedUnits na ma ea (sumExp ma ea mb eb) + signedUnits nb mb eb (sumExp ma ea mb eb)

theorem sumUnits_spec (na nb : Bool) (ma mb : Nat) (ea eb : Int) :
    (sumUnits na ma ea nb mb eb : ℚ) * 2 ^ sumExp ma ea mb eb = realOf (.num na ma ea false) + realOf (.num nb mb eb false) := by
  have ha : ma = 0 ∨ sumExp ma ea mb eb ≤ ea := by grind [sumExp]
  have hb : mb = 0 ∨ sumExp ma ea mb eb ≤ eb := by grind [sumExp]
  rw [sumUnits, Int.cast_add, add_mul, signedUnits_spec na false ha, signedUnits_spec nb false hb]

theorem addNum_num (mode : Nat) (na nb : Bool) (ma mb : Nat) (ea eb : Int) :
    addNum mode (.num na ma ea false) (.num nb mb eb false) =
      if (ma = 0 && mb = 0) = true then (.zero (if na == nb then na else mode == 3), 0)
      else if sumUnits na ma ea nb mb eb = 0 then (.zero (mode == 3), 0)
      else (.num (decide (sumUnits na ma ea nb mb eb < 0)) (sumUnits na ma ea nb mb eb).natAbs (sumExp ma ea mb eb) false, 0) := rfl

theorem addNum_exactly {x y : Num} {v w : ℚ} (hx : Exactly x v) (hy : Exactly y w) (mode : Nat) :
    ∃ z, addNum mode x y = (z, 0) ∧ Exactly z (v + w) := by
  obtain ⟨na, ma, ea, rfl, rfl⟩ := hx
  obtain ⟨nb, mb, eb, rfl, rfl⟩ := hy
  rw [addNum_num]
  by_cases hz : (ma = 0 && mb = 0) = true
  · obtain ⟨rfl, rfl⟩ : ma = 0 ∧ mb = 0 := by simpa using hz
    rw [if_pos hz, realOf_eq_zero.2 rfl, realOf_eq_zero.2 rfl, add_zero]
    exact ⟨_, rfl, exactly_zero _⟩
  rw [if_neg hz, ← sumUnits_spec]
  by_cases h0 : sumUnits na ma ea nb mb eb = 0
  · rw [if_pos h0, h0, Int.cast_zero, zero_mul]
    exact ⟨_, rfl, exactly_zero _⟩
  · rw [if_neg h0]
    exact ⟨_, rfl, _, _, _, rfl, realOf_int _ _⟩

theorem mulNum_exactly {x y : Num} {v w : ℚ} (hx : Exactly x v) (hy : Exactly y w) :
    ∃ z, mulNum x y = (z, 0) ∧ Exactly z (v * w) := by
  obtain ⟨na, ma, ea, rfl, rfl⟩ := hx
  obtain ⟨nb, mb, eb, rfl, rfl⟩ := hy
  refine ⟨_, rfl, _, _, _, rfl, ?_⟩
  rw [realOf_num, realOf_num, realOf_num, zpow_add₀ two_ne_zero]
  cases na <;> cases nb <;> simp <;> ring

theorem negNum_exactly {x : Num} {v : ℚ} (hx : Exactly x v) : Exactly (negNum x) (-v) := by
  obtain ⟨neg, m, e, rfl, rfl⟩ := hx
  refine ⟨!neg, m, e, rfl, ?_⟩
  cases neg <;> simp [negNum, realOf]

theorem fmaNum_exactly {x y z : Num} {u v w : ℚ} (hx : Exactly x u) (hy : Exactly y v) (hz : Exactly z w) (mode : Nat) :
    ∃ r, fmaNum mode x y z = (r, 0) ∧ Exactly r (u * v + w) := by
  obtain ⟨p, hp, hpv⟩ := mulNum_exactly hx hy
  obtain ⟨r, hr, hrv⟩ := addNum_exactly hpv hz mode
  refine ⟨r, ?_, hrv⟩
  unfold fmaNum
  rw [hp]
  simp only [hr]
  rfl

/-- Each sum and product of finite operands is the rounding of the exact one (08 R195). -/
theorem exactOps_of_finite {env : FpEnv} {code a b d : Nat} (j : Nat) (hc : arithmeticCode code = true) (hflush : env.flush = false)
    (ha : FiniteBits code a) (hb : FiniteBits code b) (hd : FiniteBits code d) : ∀ op ∈ exactOps,
      ∃ x, Exactly x (op.2 (valueOf code a) (valueOf code b) (valueOf code d)) ∧ op.1 env code j [a, b, d] = env.result code j x 0 := by
  have hf := isFloat_of_arithmeticCode hc
  have hxs : ∀ x ∈ [a, b, d], FiniteBits code x := by simp [ha, hb, hd]
  have ea := exactly_decodeNum hf ha
  have eb := exactly_decodeNum hf hb
  have ed := exactly_decodeNum hf hd
  simp only [exactOps, List.forall_mem_cons]
  refine ⟨?add, ?sub, ?mul, ?fma, ?fms, ?fnma, List.forall_mem_nil _⟩
  case add =>
    obtain ⟨x, hx, hv⟩ := addNum_exactly ea eb env.effective
    exact ⟨x, hv, exactly_of_finite hflush hxs hx⟩
  case sub =>
    obtain ⟨x, hx, hv⟩ := addNum_exactly ea (negNum_exactly eb) env.effective
    exact ⟨x, sub_eq_add_neg (valueOf code a) _ ▸ hv, exactly_of_finite hflush hxs hx⟩
  case mul =>
    obtain ⟨x, hx, hv⟩ := mulNum_exactly ea eb
    exact ⟨x, hv, exactly_of_finite hflush hxs hx⟩
  case fma =>
    obtain ⟨x, hx, hv⟩ := fmaNum_exactly ea eb ed env.effective
    exact ⟨x, hv, exactly_of_finite hflush hxs hx⟩
  case fms =>
    obtain ⟨x, hx, hv⟩ := fmaNum_exactly ea eb (negNum_exactly ed) env.effective
    exact ⟨x, sub_eq_add_neg (valueOf code a * valueOf code b) _ ▸ hv, exactly_of_finite hflush hxs hx⟩
  case fnma =>
    obtain ⟨x, hx, hv⟩ := fmaNum_exactly (negNum_exactly ea) eb ed env.effective
    exact ⟨x, neg_mul (valueOf code a) _ ▸ hv, exactly_of_finite hflush hxs hx⟩

/-- Equal magnitudes of opposite signs sum to +0, or −0 under RDN (06 R157). -/
theorem addNum_opposite (mode : Nat) (neg : Bool) {m : Nat} (e : Int) (hm : m ≠ 0) :
    addNum mode (.num neg m e false) (.num (!neg) m e false) = (.num (mode == 3) 0 0 false, 0) := by
  cases neg <;> simp [addNum, hm, Num.zero]

/-! ### Quotients (08 R197) -/

theorem quotientNum_leads {ma mb : Nat} (ha : ma ≠ 0) (hb : mb ≠ 0) (neg : Bool) (ea eb : Int) :
    ∃ m e more, quotientNum neg ma ea mb eb = .num neg m e more ∧ Leads m e more ((ma : ℚ) * 2 ^ ea / ((mb : ℚ) * 2 ^ eb)) := by
  refine ⟨_, _, _, rfl, ?_⟩
  set k := 160 + mb.log2 with hk
  set n := ma * 2 ^ k with hn
  have hmb : 0 < mb := Nat.pos_of_ne_zero hb
  have hmbq : (0 : ℚ) < mb := Nat.cast_pos.2 hmb
  have hbig : 2 ^ 100 ≤ n / mb := by
    rw [Nat.le_div_iff_mul_le hmb]
    calc 2 ^ 100 * mb ≤ 2 ^ 100 * 2 ^ (mb.log2 + 1) := Nat.mul_le_mul_left _ Nat.lt_log2_self.le
      _ ≤ 2 ^ k := by rw [← pow_add]; exact Nat.pow_le_pow_right two_pos (by omega)
      _ ≤ n := Nat.le_mul_of_pos_left _ (Nat.pos_of_ne_zero ha)
  have hu := two_zpow_pos (ea - eb - (k : Int))
  have hv : (ma : ℚ) * 2 ^ ea / ((mb : ℚ) * 2 ^ eb) = (n : ℚ) / mb * 2 ^ (ea - eb - (k : Int)) := by
    rw [hn, zpow_sub₀ two_ne_zero, zpow_sub₀ two_ne_zero, zpow_natCast]
    push_cast
    field_simp
  rw [hv]
  unfold Leads
  by_cases hr : n % mb = 0
  · have hq : (n : ℚ) / mb = (n / mb : Nat) := (Nat.cast_div (Nat.dvd_of_mod_eq_zero hr) hmbq.ne').symm
    rw [if_neg (by simp [hr]), hq]
    exact ⟨(Nat.pow_pos two_pos |>.trans_le hbig).ne', rfl⟩
  · have hsplit : (n : ℚ) = mb * (n / mb : Nat) + (n % mb : Nat) := by exact_mod_cast (Nat.div_add_mod n mb).symm
    have hrpos : (0 : ℚ) < (n % mb : Nat) := Nat.cast_pos.2 (Nat.pos_of_ne_zero hr)
    have hrlt : ((n % mb : Nat) : ℚ) < mb := Nat.cast_lt.2 (Nat.mod_lt _ hmb)
    rw [if_pos (by simp [hr])]
    refine ⟨hbig, mul_lt_mul_of_pos_right ?_ hu, mul_lt_mul_of_pos_right ?_ hu⟩
    · rw [lt_div_iff₀ hmbq]
      linarith
    · rw [div_lt_iff₀ hmbq]
      linarith

/-- A quotient of finite operands keeps what decides its rounding. -/
theorem fnDiv_of_finite {env : FpEnv} {code a b : Nat} (j : Nat) (hc : arithmeticCode code = true) (hflush : env.flush = false)
    (ha : FiniteBits code a) (hb : FiniteBits code b) (hva : valueOf code a ≠ 0) (hvb : valueOf code b ≠ 0) :
    ∃ m e more, Leads m e more |valueOf code a / valueOf code b| ∧
      fnDiv env code j [a, b] = env.result code j (.num (decide (valueOf code a / valueOf code b < 0)) m e more) 0 := by
  have hf := isFloat_of_arithmeticCode hc
  obtain ⟨ma, ea, hda, -⟩ := decodeNum_finite hf ha
  obtain ⟨mb, eb, hdb, -⟩ := decodeNum_finite hf hb
  have hma : ma ≠ 0 := fun h => hva (by rw [valueOf, hda, realOf_eq_zero, h])
  have hmb : mb ≠ 0 := fun h => hvb (by rw [valueOf, hdb, realOf_eq_zero, h])
  obtain ⟨m, e, more, hq, hleads⟩ := quotientNum_leads hma hmb (signOf code a != signOf code b) ea eb
  have hsign : decide (valueOf code a / valueOf code b < 0) = (signOf code a != signOf code b) := by
    have hneg : valueOf code a / valueOf code b < 0 ↔ (valueOf code a < 0 ↔ ¬valueOf code b < 0) := by
      rw [div_neg_iff, not_lt]
      have := hva.lt_or_gt
      have := hvb.lt_or_gt
      grind
    have hsa : valueOf code a < 0 ↔ signOf code a = true := by rw [valueOf, hda, realOf_neg_iff hma]
    have hsb : valueOf code b < 0 ↔ signOf code b = true := by rw [valueOf, hdb, realOf_neg_iff hmb]
    rw [Bool.eq_iff_iff, decide_eq_true_eq, hneg, hsa, hsb]
    cases signOf code a <;> cases signOf code b <;> decide
  refine ⟨m, e, more, ?_, ?_⟩
  · rw [abs_div, valueOf, valueOf, hda, hdb, abs_realOf, abs_realOf]
    exact hleads
  · rw [hsign]
    refine exactly_of_finite hflush (by simp [ha, hb]) ?_
    simp only [List.map_cons, List.map_nil, two, List.getD_cons_zero, List.getD_cons_succ, hda, hdb, divNum, if_neg hma, if_neg hmb, hq]

/-! ### Square roots (08 R197) -/

/-- The digits of an integer square root, from the highest. -/
theorem isqrt_spec {n k r : Nat} (hlo : r * r ≤ n) (hhi : n < (r + 2 ^ k) * (r + 2 ^ k)) :
    isqrt n k r * isqrt n k r ≤ n ∧ n < (isqrt n k r + 1) * (isqrt n k r + 1) := by
  induction k generalizing r with
  | zero => exact ⟨hlo, hhi⟩
  | succ k ih =>
    unfold isqrt
    split
    next hle => exact ih hle (by rwa [add_assoc, ← two_mul, ← pow_succ'])
    next hgt => exact ih hlo (not_le.1 hgt)

/-- The root taken of a number is below the power of two that its digits begin under. -/
theorem isqrt_root (n : Nat) : isqrt n ((n.log2 + 2) / 2 + 1) 0 * isqrt n ((n.log2 + 2) / 2 + 1) 0 ≤ n ∧
    n < (isqrt n ((n.log2 + 2) / 2 + 1) 0 + 1) * (isqrt n ((n.log2 + 2) / 2 + 1) 0 + 1) := by
  refine isqrt_spec (Nat.zero_le _) ?_
  rw [zero_add, ← pow_add]
  exact Nat.lt_log2_self.trans_le (Nat.pow_le_pow_right two_pos (by omega))

/-- The exponent below an odd one, and an even one itself, is even. -/
theorem evenExponent_even (e : Int) : (if (e % 2 != 0) = true then e - 1 else e) % 2 = 0 := by
  split
  next h =>
    rw [bne_iff_ne] at h
    omega
  next h => simpa using h

theorem rootNum_spec {m : Nat} (hm : m ≠ 0) (e : Int) : ∃ r k more, rootNum m e = .num false r k more ∧
    if more then 2 ^ 100 ≤ r ∧ ((r : ℚ) * 2 ^ k) ^ 2 < (m : ℚ) * 2 ^ e ∧ (m : ℚ) * 2 ^ e < (((r : ℚ) + 1) * 2 ^ k) ^ 2
    else (m : ℚ) * 2 ^ e = ((r : ℚ) * 2 ^ k) ^ 2 := by
  refine ⟨_, _, _, rfl, ?_⟩
  set m1 := if (e % 2 != 0) = true then 2 * m else m with hm1
  set e1 := if (e % 2 != 0) = true then e - 1 else e with he1
  set n := m1 * 2 ^ 320 with hn
  set r := isqrt n ((n.log2 + 2) / 2 + 1) 0 with hr
  set u : ℚ := 2 ^ (e1 / 2 - 160) with hu
  have hupos : 0 < u := two_zpow_pos _
  obtain ⟨hlo, hhi⟩ : r * r ≤ n ∧ n < (r + 1) * (r + 1) := isqrt_root n
  have hsame : (m : ℚ) * 2 ^ e = (m1 : ℚ) * 2 ^ e1 := by
    by_cases hodd : (e % 2 != 0) = true
    · rw [hm1, he1, if_pos hodd, if_pos hodd, zpow_sub₀ two_ne_zero]
      push_cast
      field_simp
    · rw [hm1, he1, if_neg hodd, if_neg hodd]
  have heven : e1 = 2 * (e1 / 2 - 160) + 320 := by
    have : e1 % 2 = 0 := evenExponent_even e
    omega
  have hv : (m : ℚ) * 2 ^ e = (n : ℚ) * u ^ 2 := by
    have hscale : (n : ℚ) = m1 * 2 ^ (320 : Int) := by
      rw [hn, Nat.cast_mul, Nat.cast_pow, Nat.cast_ofNat, ← zpow_natCast]
      rfl
    rw [hsame, heven, zpow_add₀ two_ne_zero, mul_comm 2, zpow_mul, hu, hscale, zpow_ofNat _ 2]
    ring
  have hm1pos : 0 < m1 := by
    rw [hm1]
    split
    · exact Nat.mul_pos two_pos (Nat.pos_of_ne_zero hm)
    · exact Nat.pos_of_ne_zero hm
  rw [hv, mul_pow, mul_pow]
  by_cases hsq : r * r = n
  · rw [if_neg fun h => bne_iff_ne.1 h hsq, ← hsq, sq (r : ℚ), Nat.cast_mul]
  · rw [if_pos (bne_iff_ne.2 hsq)]
    refine ⟨?_, mul_lt_mul_of_pos_right ?_ (by positivity), mul_lt_mul_of_pos_right ?_ (by positivity)⟩
    · by_contra hsmall
      have h1 : (r + 1) * (r + 1) ≤ 2 ^ 100 * 2 ^ 100 := Nat.mul_le_mul (by omega) (by omega)
      have h2 : 1 * 2 ^ 320 ≤ n := Nat.mul_le_mul_right _ hm1pos
      omega
    · rw [sq]
      exact_mod_cast lt_of_le_of_ne hlo hsq
    · rw [sq]
      exact_mod_cast hhi

/-- The square root of a positive operand keeps what decides its rounding. -/
theorem fnSqrt_of_finite {env : FpEnv} {code a : Nat} (j : Nat) (hc : arithmeticCode code = true) (hflush : env.flush = false)
    (ha : FiniteBits code a) (hva : 0 < valueOf code a) :
    ∃ m e more, fnUnary sqrtNum env code j [a] = env.result code j (.num false m e more) 0 ∧
      if more then 2 ^ 100 ≤ m ∧ ((m : ℚ) * 2 ^ e) ^ 2 < valueOf code a ∧ valueOf code a < (((m : ℚ) + 1) * 2 ^ e) ^ 2
      else valueOf code a = ((m : ℚ) * 2 ^ e) ^ 2 := by
  obtain ⟨m, e, hd, -⟩ := decodeNum_finite (isFloat_of_arithmeticCode hc) ha
  have hreal : valueOf code a = realOf (.num (signOf code a) m e false) := by rw [valueOf, hd]
  have hm : m ≠ 0 := fun h => hva.ne' (by rw [hreal, realOf_eq_zero, h])
  have hsign : signOf code a = false := Bool.eq_false_iff.2 fun h => hva.not_gt (by rw [hreal, realOf_neg_iff hm, h])
  obtain ⟨r, k, more, hroot, hspec⟩ := rootNum_spec hm e
  refine ⟨r, k, more, exactly_of_finite hflush (by simpa using ha) ?_, ?_⟩
  · simp only [List.map_cons, List.map_nil, two, List.getD_cons_zero, hd, hsign, sqrtNum, if_neg hm, Bool.false_eq_true, ↓reduceIte,
      hroot]
  · have hval : valueOf code a = (m : ℚ) * 2 ^ e := by rw [hreal, hsign]; simp [realOf]
    rw [hval]
    exact hspec

/-! ### The order of values (08 R196) -/

/-- Comparison is that of the reals. -/
theorem compareNum_num (na nb : Bool) (ma mb : Nat) (ea eb : Int) :
    compareNum (.num na ma ea false) (.num nb mb eb false) =
      if realOf (.num na ma ea false) < realOf (.num nb mb eb false) then -1
      else if realOf (.num na ma ea false) = realOf (.num nb mb eb false) then 0 else 1 := by
  have hunits : compareNum (.num na ma ea false) (.num nb mb eb false) =
      if (ma = 0 && mb = 0) = true then 0
      else if signedUnits na ma ea (min ea eb) < signedUnits nb mb eb (min ea eb) then -1
      else if signedUnits na ma ea (min ea eb) = signedUnits nb mb eb (min ea eb) then 0 else 1 := rfl
  rw [hunits]
  by_cases hz : (ma = 0 && mb = 0) = true
  · obtain ⟨rfl, rfl⟩ : ma = 0 ∧ mb = 0 := by simpa using hz
    rw [if_pos hz, realOf_eq_zero.2 rfl, realOf_eq_zero.2 rfl, if_neg (lt_irrefl _), if_pos rfl]
  have hu := two_zpow_pos (min ea eb)
  rw [if_neg hz, ← signedUnits_spec na false (.inr (min_le_left ea eb)), ← signedUnits_spec nb false (.inr (min_le_right ea eb))]
  refine if_congr ?_ rfl (if_congr ?_ rfl rfl)
  · rw [mul_lt_mul_iff_left₀ hu, Int.cast_lt]
  · rw [mul_left_inj' hu.ne', Int.cast_inj]

/-- What `numBelow` says of two numbers, and of two zeros. -/
theorem numBelow_spec {x y : Num} {v w : ℚ} (hx : Exactly x v) (hy : Exactly y w) :
    (numBelow x y = true → v ≤ w) ∧ (numBelow x y = false → w ≤ v) := by
  obtain ⟨na, ma, ea, rfl, rfl⟩ := hx
  obtain ⟨nb, mb, eb, rfl, rfl⟩ := hy
  unfold numBelow
  rw [compareNum_num]
  obtain hlt | heq | hgt := lt_trichotomy (realOf (.num na ma ea false)) (realOf (.num nb mb eb false))
  · simp [hlt, hlt.le]
  · exact ⟨fun _ => heq.le, fun _ => heq.ge⟩
  · simp [hgt.not_gt, hgt.ne', hgt.le]

theorem numBelow_zero (a b : Bool) (ea eb : Int) : numBelow (.num a 0 ea false) (.num b 0 eb false) = (a && !b) := rfl

/-! ### What minimum and maximum read (08 R196; 06 R159) -/

/-- The bits that an operand is taken for: under flush a subnormal is a zero of its sign. -/
def readBits (code : Nat) (flush : Bool) (bits : Nat) : Nat :=
  if flush && flushable code && classOf code bits == .subnormal then signBit code (signOf code bits) else bits

/-- The bits are a NaN's. -/
def NanBits (code bits : Nat) : Prop := classOf code bits = .signalling ∨ classOf code bits = .quiet

section
variable {code : Nat} (hc : arithmeticCode code = true)
include hc

theorem readBits_eq (flush : Bool) (bits : Nat) : readBits code flush bits =
    if flush = true ∧ classOf code bits = .subnormal then if signOf code bits then 2 ^ (formatWidth code - 1) else 0 else bits := by
  have hflush : flushable code = true := by obtain rfl | rfl | rfl | rfl := arithmeticCode_cases hc <;> rfl
  unfold readBits signBit
  rw [formatWidth_eq (isFloat_of_arithmeticCode hc), hflush]
  simp

theorem finiteFields_zero : FiniteFields code 0 0 := by
  obtain rfl | rfl | rfl | rfl := arithmeticCode_cases hc <;> exact ⟨by decide, by decide, by decide⟩

theorem signBit_spec (neg : Bool) : classOf code (signBit code neg) = .zero ∧ signOf code (signBit code neg) = neg ∧
    decodeNum code (signBit code neg) = .zero neg := by
  have hf := isFloat_of_arithmeticCode hc
  have hp : signBit code neg = packed code neg 0 0 := by simp [packed]
  have hclass : classOf code (signBit code neg) = .zero := hp ▸ classOf_packed hf neg (finiteFields_zero hc)
  have hsign : signOf code (signBit code neg) = neg := hp ▸ signOf_packed hf neg (finiteFields_zero hc)
  exact ⟨hclass, hsign, by rw [decodeNum_of_zero hf hclass, hsign]⟩

/-- An operand is the value of the bits that it is taken for. -/
theorem operand_eq (flush : Bool) (bits : Nat) : operand code flush bits = decodeNum code (readBits code flush bits) := by
  unfold operand readBits
  split
  · exact ((signBit_spec hc _).2.2).symm
  · rfl

/-- The value of bits is a NaN just where their class is one. -/
theorem decodeNum_nan_iff (bits : Nat) : (∃ neg, decodeNum code bits = .nan neg) ↔ NanBits code bits := by
  have hf := isFloat_of_arithmeticCode hc
  refine ⟨fun ⟨neg, hn⟩ => ?_, fun h => ⟨_, decodeNum_of_nan hf h⟩⟩
  cases hclass : classOf code bits with
  | zero => exact nomatch (decodeNum_of_zero hf hclass).symm.trans hn
  | subnormal => exact nomatch (decodeNum_of_subnormal hf hclass).symm.trans hn
  | normal => exact nomatch (decodeNum_of_normal hf hclass).symm.trans hn
  | infinite => exact nomatch (decodeNum_of_infinite hf hclass).symm.trans hn
  | quiet => exact .inr hclass
  | signalling => exact .inl hclass

theorem nanBits_readBits (flush : Bool) (bits : Nat) : NanBits code (readBits code flush bits) ↔ NanBits code bits := by
  unfold readBits
  split
  next h =>
    simp only [Bool.and_eq_true, beq_iff_eq] at h
    simp [NanBits, (signBit_spec hc _).1, h.2]
  next => exact Iff.rfl

/-! ### Which operand is selected -/

theorem operand_of_nan {bits : Nat} (h : NanBits code bits) (flush : Bool) : ∃ neg, operand code flush bits = .nan neg := by
  rw [operand_eq hc]
  exact (decodeNum_nan_iff hc _).2 ((nanBits_readBits hc flush bits).2 h)

theorem operand_of_not_nan {bits : Nat} (h : ¬NanBits code bits) (flush neg : Bool) : operand code flush bits ≠ .nan neg := by
  rw [operand_eq hc]
  exact fun hn => h ((nanBits_readBits hc flush bits).1 ((decodeNum_nan_iff hc _).1 ⟨neg, hn⟩))

theorem pickMinMax_numbers {a b : Nat} (ha : ¬NanBits code a) (hb : ¬NanBits code b) (flush larger numForm : Bool) :
    pickMinMax code flush larger numForm a b =
      some (if numBelow (operand code flush a) (operand code flush b) != larger then readBits code flush a
        else readBits code flush b) := by
  have hx := operand_of_not_nan hc ha flush
  have hy := operand_of_not_nan hc hb flush
  unfold pickMinMax
  generalize operand code flush a = x at hx ⊢
  generalize operand code flush b = y at hy ⊢
  cases x with
  | nan neg => exact (hx neg rfl).elim
  | _ =>
    cases y with
    | nan neg => exact (hy neg rfl).elim
    | _ => exact (apply_ite some ..).symm

theorem pickMinMax_nan_nan {a b : Nat} (ha : NanBits code a) (hb : NanBits code b) (flush larger numForm : Bool) :
    pickMinMax code flush larger numForm a b = none := by
  obtain ⟨_, hx⟩ := operand_of_nan hc ha flush
  obtain ⟨_, hy⟩ := operand_of_nan hc hb flush
  simp only [pickMinMax, hx, hy]

theorem pickMinMax_nan_left {a b : Nat} (ha : NanBits code a) (hb : ¬NanBits code b) (flush larger numForm : Bool) :
    pickMinMax code flush larger numForm a b = if numForm then some (readBits code flush b) else none := by
  obtain ⟨_, hx⟩ := operand_of_nan hc ha flush
  have hy := operand_of_not_nan hc hb flush
  unfold pickMinMax
  simp only [hx]
  generalize operand code flush b = y at hy ⊢
  cases y with
  | nan neg => exact absurd rfl (hy neg)
  | inf neg => rfl
  | num neg m e st => rfl

theorem pickMinMax_nan_right {a b : Nat} (ha : ¬NanBits code a) (hb : NanBits code b) (flush larger numForm : Bool) :
    pickMinMax code flush larger numForm a b = if numForm then some (readBits code flush a) else none := by
  have hx := operand_of_not_nan hc ha flush
  obtain ⟨_, hy⟩ := operand_of_nan hc hb flush
  unfold pickMinMax
  simp only [hy]
  generalize operand code flush a = x at hx ⊢
  cases x with
  | nan neg => exact absurd rfl (hx neg)
  | inf neg => rfl
  | num neg m e st => rfl

end

/-- Minimum and maximum without a modifier: the bits selected, or the canonical NaN. -/
theorem fnMinMax_unmodified {env : FpEnv} (hm : env.modifier = none) (larger numForm : Bool) (code j a b : Nat) :
    fnMinMax larger numForm env code j [a, b] =
      ((pickMinMax code env.flush larger numForm a b).getD (encodeNan code false), nanFlags code [a, b]) := by
  unfold fnMinMax
  simp only [hm, Option.isSome_none, Bool.false_eq_true, ↓reduceIte, List.getD_cons_zero, List.getD_cons_succ]
  cases pickMinMax code env.flush larger numForm a b <;> rfl

theorem finiteBits_not_nan {code bits : Nat} (h : FiniteBits code bits) : ¬NanBits code bits := by
  unfold NanBits
  obtain ⟨-, h | h | h⟩ := h <;> rw [h] <;> decide

/-- Of two zeros the maximum is −0 where both are, and the minimum where one is (08 R196). -/
theorem zero_selected_sign : ∀ s t larger : Bool,
    (if (s && !t) != larger then s else t) = if larger then s && t else s || t := by decide

/-- The minimum and maximum of finite operands (08 R196). -/
theorem fnMinMax_of_finite {env : FpEnv} {code a b : Nat} (j : Nat) (larger numForm : Bool) (hc : arithmeticCode code = true)
    (hflush : env.flush = false) (hm : env.modifier = none) (ha : FiniteBits code a) (hb : FiniteBits code b) :
    let r := fnMinMax larger numForm env code j [a, b]
    (r.1 = a ∨ r.1 = b) ∧ r.2 = 0 ∧
      (if larger then valueOf code a ≤ valueOf code r.1 ∧ valueOf code b ≤ valueOf code r.1
       else valueOf code r.1 ≤ valueOf code a ∧ valueOf code r.1 ≤ valueOf code b) ∧
      (classOf code a = .zero → classOf code b = .zero →
        signOf code r.1 = if larger then signOf code a && signOf code b else signOf code a || signOf code b) := by
  intro r
  have hf := isFloat_of_arithmeticCode hc
  have hread : ∀ x, readBits code false x = x := fun _ => rfl
  have hr : r = (if numBelow (decodeNum code a) (decodeNum code b) != larger then a else b, 0) := by
    have hflags : nanFlags code [a, b] = 0 :=
      nanFlags_of_not_signalling (by simp [finiteBits_not_signalling ha, finiteBits_not_signalling hb])
    simp only [r, fnMinMax_unmodified hm, hflush, pickMinMax_numbers hc (finiteBits_not_nan ha) (finiteBits_not_nan hb), operand_eq hc,
      hread, hflags, Option.getD_some]
  obtain ⟨hle, hge⟩ := numBelow_spec (exactly_decodeNum hf ha) (exactly_decodeNum hf hb)
  have hzeros : classOf code a = .zero → classOf code b = .zero →
      numBelow (decodeNum code a) (decodeNum code b) = (signOf code a && !signOf code b) := by
    intro hza hzb
    obtain ⟨ma, ea, hda, h0a⟩ := decodeNum_finite hf ha
    obtain ⟨mb, eb, hdb, h0b⟩ := decodeNum_finite hf hb
    rw [hda, hdb, h0a hza, h0b hzb, numBelow_zero]
  rw [hr]
  refine ⟨ite_eq_or_eq .., rfl, ?order, fun hza hzb => ?sign⟩
  case order => cases hbelow : numBelow (decodeNum code a) (decodeNum code b) <;> cases larger <;> simp [hle, hge, hbelow]
  case sign =>
    rw [apply_ite (signOf code), hzeros hza hzb]
    exact zero_selected_sign ..

/-- The minimum and maximum where an operand is a NaN, and of the numbers that flush leaves (08 R196; 06 R147, R159). -/
theorem fnMinMax_of_nan {env : FpEnv} {code : Nat} (j a b : Nat) (larger numForm : Bool) (hc : arithmeticCode code = true)
    (hm : env.modifier = none) :
    let nan (x : Nat) : Prop := classOf code x = .signalling ∨ classOf code x = .quiet
    let fl : Flags := if classOf code a = .signalling ∨ classOf code b = .signalling then 1 else 0
    let canonical : Nat := (2 ^ exponentBits code - 1) * 2 ^ fractionBits code + 2 ^ (fractionBits code - 1)
    let read (x : Nat) : Nat :=
      if env.flush = true ∧ classOf code x = .subnormal then if signOf code x then 2 ^ (formatWidth code - 1) else 0 else x
    (numForm = false → nan a ∨ nan b → fnMinMax larger numForm env code j [a, b] = (canonical, fl)) ∧
    (nan a → nan b → fnMinMax larger numForm env code j [a, b] = (canonical, fl)) ∧
    (numForm = true → nan a → ¬nan b → fnMinMax larger numForm env code j [a, b] = (read b, fl)) ∧
    (numForm = true → ¬nan a → nan b → fnMinMax larger numForm env code j [a, b] = (read a, fl)) ∧
    (¬nan a → ¬nan b → fnMinMax larger numForm env code j [a, b] =
      fnMinMax larger numForm { env with flush := false } code j [read a, read b]) := by
  intro nan fl canonical read
  have hfl : nanFlags code [a, b] = fl := by simp [nanFlags, isSignalling, fl]
  have hcanonical : encodeNan code false = canonical := by
    obtain rfl | rfl | rfl | rfl := arithmeticCode_cases hc <;> rfl
  have hread : ∀ x, read x = readBits code env.flush x := fun x => (readBits_eq hc env.flush x).symm
  have hrun := fnMinMax_unmodified hm larger numForm code j a b
  rw [hfl, hcanonical] at hrun
  have hboth : nan a → nan b → fnMinMax larger numForm env code j [a, b] = (canonical, fl) := by
    intro ha hb
    rw [hrun, pickMinMax_nan_nan hc ha hb]
    rfl
  refine ⟨?any, hboth, ?left, ?right, ?numbers⟩
  case any =>
    rintro rfl hab
    by_cases ha : nan a
    · by_cases hb : nan b
      · exact hboth ha hb
      · rw [hrun, pickMinMax_nan_left hc ha hb]
        rfl
    · rw [hrun, pickMinMax_nan_right hc ha (hab.resolve_left ha)]
      rfl
  case left =>
    rintro rfl ha hb
    rw [hrun, pickMinMax_nan_left hc ha hb, hread]
    rfl
  case right =>
    rintro rfl ha hb
    rw [hrun, pickMinMax_nan_right hc ha hb, hread]
    rfl
  case numbers =>
    intro ha hb
    have hra : ¬NanBits code (readBits code env.flush a) := fun h => ha ((nanBits_readBits hc _ _).1 h)
    have hrb : ¬NanBits code (readBits code env.flush b) := fun h => hb ((nanBits_readBits hc _ _).1 h)
    have hquiet : ∀ x y, ¬NanBits code x → ¬NanBits code y → nanFlags code [x, y] = 0 := fun x y hx hy =>
      nanFlags_of_not_signalling (by simp only [List.forall_mem_cons]; exact ⟨fun h => hx (.inl h), fun h => hy (.inl h), nofun⟩)
    rw [hread, hread, fnMinMax_unmodified hm, fnMinMax_unmodified (env := { env with flush := false }) hm, pickMinMax_numbers hc ha hb,
      pickMinMax_numbers hc hra hrb, hquiet a b ha hb, hquiet _ _ hra hrb]
    simp only [operand_eq hc]
    rfl

/-! ### Zero products and quotients (06 R157) -/

/-- A zero is delivered as a zero of its sign. -/
theorem result_zero {env : FpEnv} {code : Nat} (hc : arithmeticCode code = true) (hflush : env.flush = false) (hm : env.modifier = none)
    (j : Nat) (neg : Bool) (e : Int) : env.result code j (.num neg 0 e false) 0 = (signBit code neg, 0) := by
  have h5 : code ≠ 5 := by obtain rfl | rfl | rfl | rfl := arithmeticCode_cases hc <;> decide
  have hround : roundNum code env.effective (env.draw j) (.num neg 0 e false) = (.num neg 0 e false, 0) := rfl
  have hdeliver := deliver_num (m := 0) (isFloat_of_arithmeticCode hc) env.outliers neg false e 0
  rw [if_neg fun h => h5 h.1] at hdeliver
  simp only [FpEnv.result, hm, hround, flushResult, hflush, Bool.false_and, Bool.false_eq_true, ↓reduceIte, hdeliver]
  rfl

/-- A zero product or quotient has the exclusive-or of the signs. -/
theorem zero_product_quotient {env : FpEnv} {code a b : Nat} (j : Nat) (hc : arithmeticCode code = true) (hflush : env.flush = false)
    (hm : env.modifier = none) (ha : FiniteBits code a) (hb : FiniteBits code b) :
    let signed : Nat := if signOf code a = signOf code b then 0 else 2 ^ (formatWidth code - 1)
    (valueOf code a = 0 ∨ valueOf code b = 0 → fnMul env code j [a, b] = (signed, 0)) ∧
    (valueOf code a = 0 → valueOf code b ≠ 0 → fnDiv env code j [a, b] = (signed, 0)) := by
  intro signed
  have hf := isFloat_of_arithmeticCode hc
  obtain ⟨ma, ea, hda, -⟩ := decodeNum_finite hf ha
  obtain ⟨mb, eb, hdb, -⟩ := decodeNum_finite hf hb
  have hma : valueOf code a = 0 ↔ ma = 0 := by rw [valueOf, hda, realOf_eq_zero]
  have hmb : valueOf code b = 0 ↔ mb = 0 := by rw [valueOf, hdb, realOf_eq_zero]
  have hxs : ∀ x ∈ [a, b], FiniteBits code x := by simp [ha, hb]
  have hsigned : signBit code (signOf code a != signOf code b) = signed := by
    simp only [signBit, signed, formatWidth_eq hf, Nat.add_sub_cancel]
    cases signOf code a <;> cases signOf code b <;> rfl
  have hzero := fun e => result_zero hc hflush hm j (signOf code a != signOf code b) e
  simp only [hsigned] at hzero
  refine ⟨fun h => ?_, fun hva hvb => ?_⟩
  · have hprod : ma * mb = 0 := mul_eq_zero.2 (h.imp hma.1 hmb.1)
    refine (exactly_of_finite (x := .num (signOf code a != signOf code b) 0 (ea + eb) false) hflush hxs ?_).trans (hzero _)
    simp only [List.map_cons, List.map_nil, two, List.getD_cons_zero, List.getD_cons_succ, hda, hdb, mulNum, hprod]
  · refine (exactly_of_finite (x := .num (signOf code a != signOf code b) 0 0 false) hflush hxs ?_).trans (hzero _)
    simp only [List.map_cons, List.map_nil, two, List.getD_cons_zero, List.getD_cons_succ, hda, hdb, divNum, hma.1 hva,
      if_neg (mt hmb.2 hvb), ↓reduceIte]
    rfl

theorem exactOperations : ExactOperations := by
  unfold ExactOperations
  refine ⟨?sums, ?opposite, ?quotients, ?minmax, ?nans, ?zeros⟩
  case sums => exact fun _ _ j _ _ _ hc hflush ha hb hd => exactOps_of_finite j hc hflush ha hb hd
  case opposite => exact fun mode neg _ e hm => addNum_opposite mode neg e hm
  case quotients =>
    exact fun _ _ j _ _ hc hflush ha hb => ⟨fnDiv_of_finite j hc hflush ha hb, fnSqrt_of_finite j hc hflush ha⟩
  case minmax => exact fun _ _ j _ _ larger numForm hc hflush hm ha hb => fnMinMax_of_finite j larger numForm hc hflush hm ha hb
  case nans => exact fun _ _ j a b larger numForm hc hm => fnMinMax_of_nan j a b larger numForm hc hm
  case zeros => exact fun _ _ j _ _ hc hflush hm ha hb => zero_product_quotient j hc hflush hm ha hb

/-- Settles O8: rounding by the neighbour that a split takes, delivery by the fields of the value's bits, and the element functions by the
exact results that they round. -/
theorem roundingResult : Obligations.RoundingResult := ⟨roundingChoosesNeighbour, deliveredValues, exactOperations⟩

end Sys2Proof.Machine
end

section
/-!
PROOFS. The integer functions of 07 as the statements write them: saturation as a clamp, counts and reversals of bits over the positions, and
fields by quotients and remainders (07 R170-R177).
-/
namespace Sys2Proof.Machine
open Sys2Proof.Claim

/-! ### Sums, products and orders (07 R170, R172) -/

theorem saturateSigned_eq_clampInt (x : Int) : saturateSigned x = clampInt (-2147483648) 2147483647 x := by
  unfold saturateSigned clampInt
  split_ifs with hlow hhigh
  · rw [min_eq_right (by omega), max_eq_left (by omega)]
    rfl
  · rw [min_eq_left (by omega), max_eq_right (by omega)]
    rfl
  · rw [min_eq_right (by omega), max_eq_right (by omega)]

theorem saturateUnsigned_eq_clampInt (x : Int) : saturateUnsigned x = clampInt 0 4294967295 x := by
  unfold saturateUnsigned clampInt
  split_ifs with hlow hhigh
  · rw [min_eq_right (by omega), max_eq_left (by omega)]
    rfl
  · rw [min_eq_left (by omega), max_eq_right (by omega)]
    rfl
  · rw [min_eq_right (by omega), max_eq_right (by omega)]

/-- Bits [63:32] of an integer kept to 64 bits are its quotient by 2^32. -/
theorem highWord_ofInt (x : Int) : highWord (BitVec.ofInt 64 x) = BitVec.ofInt 32 (x / 2 ^ 32) := by
  apply BitVec.eq_of_toNat_eq
  simp only [highWord, BitVec.toNat_setWidth, BitVec.toNat_ushiftRight, BitVec.toNat_ofInt, Nat.shiftRight_eq_div_pow]
  omega

theorem mulHighSigned_eq (x y : Word) : mulHighSigned x y = BitVec.ofInt 32 (x.toInt * y.toInt / 2 ^ 32) := highWord_ofInt _

theorem mulHighUnsigned_eq (x y : Word) : mulHighUnsigned x y = BitVec.ofNat 32 (x.toNat * y.toNat / 2 ^ 32) := by
  have h := highWord_ofInt ((x.toNat * y.toNat : Nat) : Int)
  rw [BitVec.ofInt_natCast] at h
  exact h.trans (by norm_cast)

theorem minSigned_eq (x y : Word) : minSigned x y = BitVec.ofInt 32 (min x.toInt y.toInt) := by
  unfold minSigned
  split_ifs with h
  · rw [min_eq_left h, BitVec.ofInt_toInt]
  · rw [min_eq_right (by omega), BitVec.ofInt_toInt]

theorem maxSigned_eq (x y : Word) : maxSigned x y = BitVec.ofInt 32 (max x.toInt y.toInt) := by
  unfold maxSigned
  split_ifs with h
  · rw [max_eq_right h, BitVec.ofInt_toInt]
  · rw [max_eq_left (by omega), BitVec.ofInt_toInt]

theorem minUnsigned_eq (x y : Word) : minUnsigned x y = BitVec.ofNat 32 (min x.toNat y.toNat) := by
  unfold minUnsigned
  split_ifs with h
  · rw [min_eq_left h, BitVec.ofNat_toNat, BitVec.setWidth_eq]
  · rw [min_eq_right (by omega), BitVec.ofNat_toNat, BitVec.setWidth_eq]

theorem maxUnsigned_eq (x y : Word) : maxUnsigned x y = BitVec.ofNat 32 (max x.toNat y.toNat) := by
  unfold maxUnsigned
  split_ifs with h
  · rw [max_eq_right h, BitVec.ofNat_toNat, BitVec.setWidth_eq]
  · rw [max_eq_left (by omega), BitVec.ofNat_toNat, BitVec.setWidth_eq]

/-- The absolute value modulo 2^32, of the lowest integer also. -/
theorem abs_eq_ofInt_natAbs (x : Word) : (if x.msb then -x else x) = BitVec.ofInt 32 x.toInt.natAbs := by
  have hneg : x.msb = true ↔ x.toInt < 0 := by rw [BitVec.msb_eq_toInt, decide_eq_true_eq]
  split_ifs with h
  · rw [Int.ofNat_natAbs_of_nonpos (hneg.1 h).le, BitVec.ofInt_neg, BitVec.ofInt_toInt]
  · rw [Int.natAbs_of_nonneg (not_lt.1 (mt hneg.2 h)), BitVec.ofInt_toInt]

theorem ofInt_mul_toInt (x y : Word) : BitVec.ofInt 64 (x.toInt * y.toInt) = x.signExtend 64 * y.signExtend 64 := by
  rw [BitVec.ofInt_mul]
  rfl

theorem ofNat_mul_toNat (x y : Word) : BitVec.ofNat 64 (x.toNat * y.toNat) = x.setWidth 64 * y.setWidth 64 := by
  rw [BitVec.ofNat_mul, BitVec.ofNat_toNat, BitVec.ofNat_toNat]

/-! ### Shifts (07 R174) -/

/-- A right shift by 31 leaves copies of the sign. -/
theorem sshiftRight_31 (x : Word) : x.sshiftRight 31 = if x.msb then 0xFFFFFFFF else 0 := by
  have hlow := BitVec.le_toInt x
  have hhigh := BitVec.toInt_lt (x := x)
  apply BitVec.eq_of_toInt_eq
  rw [BitVec.toInt_sshiftRight, Int.shiftRight_eq_div_pow, BitVec.msb_eq_toInt]
  split_ifs with hneg
  · rw [decide_eq_true_eq] at hneg
    exact (show x.toInt / (2 ^ 31 : Nat) = -1 by omega)
  · rw [decide_eq_true_eq] at hneg
    exact (show x.toInt / (2 ^ 31 : Nat) = 0 by omega)

theorem shiftArith_eq (x y : Word) : shiftArith x y = x.sshiftRight (min y.toNat 31) := by
  unfold shiftArith
  by_cases hlt : y.toNat < 32
  · rw [if_pos hlt, min_eq_left (by omega)]
  · rw [if_neg hlt, min_eq_right (by omega), sshiftRight_31]

section
variable (x : Word) (n : BitVec 5)

theorem toNat_setWidth_amount : (n.setWidth 32).toNat = n.toNat := BitVec.toNat_setWidth_of_le (by decide)

/-- Shifts by an immediate amount, which is below 32 (07 R177). -/
theorem shiftLeft_amount : shiftLeft x (n.setWidth 32) = x <<< n.toNat := by
  rw [shiftLeft, toNat_setWidth_amount, if_pos n.isLt]

theorem shiftRight_amount : shiftRight x (n.setWidth 32) = x >>> n.toNat := by
  rw [shiftRight, toNat_setWidth_amount, if_pos n.isLt]

theorem shiftArith_amount : shiftArith x (n.setWidth 32) = x.sshiftRight n.toNat := by
  rw [shiftArith, toNat_setWidth_amount, if_pos n.isLt]

theorem rotateLeft_amount : rotateLeft x (n.setWidth 32) = x.rotateLeft n.toNat := by
  rw [rotateLeft, toNat_setWidth_amount, Nat.mod_eq_of_lt n.isLt]

end

/-! ### Counts and reversal of bits (07 R175) -/

theorem countOnes_eq_countP (x : Word) (n : Nat) : countOnes x n = (List.range n).countP fun k => x.getLsbD k := by
  induction n with
  | zero => rfl
  | succ n ih =>
    rw [countOnes, ih, List.range_succ, List.countP_append, Nat.add_comm]
    cases h : x.getLsbD n <;> simp [h]

/-- How far a test holds from 0 on: it fails at 0, or holds there and then from 1 on. -/
theorem length_takeWhile_range_succ (p : Nat → Bool) (n : Nat) :
    ((List.range (n + 1)).takeWhile p).length = if p 0 then 1 + ((List.range n).takeWhile fun k => p (k + 1)).length else 0 := by
  rw [List.range_succ_eq_map, List.takeWhile_cons]
  split_ifs
  · rw [List.length_cons, List.takeWhile_map, List.length_map, Nat.add_comm]
    rfl
  · rfl

theorem leadingZeros_eq_takeWhile (x : Word) (n : Nat) :
    leadingZeros x n = ((List.range n).takeWhile fun k => !x.getLsbD (n - 1 - k)).length := by
  induction n with
  | zero => rfl
  | succ n ih =>
    have hshift : (fun k => !x.getLsbD (n + 1 - 1 - (k + 1))) = fun k => !x.getLsbD (n - 1 - k) := by
      funext k
      rw [show n + 1 - 1 - (k + 1) = n - 1 - k by omega]
    rw [length_takeWhile_range_succ, hshift, ← ih, leadingZeros]
    cases h : x.getLsbD n <;> simp [h]

theorem trailingZeros_eq_takeWhile (x : Word) {n : Nat} (hn : n ≤ 32) :
    trailingZeros x n = ((List.range n).takeWhile fun k => !x.getLsbD (32 - n + k)).length := by
  induction n with
  | zero => rfl
  | succ n ih =>
    have hshift : (fun k => !x.getLsbD (32 - (n + 1) + (k + 1))) = fun k => !x.getLsbD (32 - n + k) := by
      funext k
      rw [show 32 - (n + 1) + (k + 1) = 32 - n + k by omega]
    rw [length_takeWhile_range_succ, hshift, ← ih (by omega), trailingZeros, show 32 - (n + 1) + 0 = 31 - n by omega]
    cases x.getLsbD (31 - n) <;> simp

theorem trailingZeros_word (x : Word) :
    BitVec.ofNat 32 (trailingZeros x 32) = BitVec.ofNat 32 ((List.range 32).takeWhile fun k => !x.getLsbD k).length := by
  rw [trailingZeros_eq_takeWhile x le_rfl]
  simp only [Nat.sub_self, Nat.zero_add]

/-- The bits that a list sets in a word. -/
theorem getLsbD_foldl_twoPow_word (p : Nat → Bool) (bit : Nat → Nat) (xs : List Nat) (m : Word) {i : Nat} (hi : i < 32) :
    (xs.foldl (fun m e => if p e then m ||| BitVec.twoPow 32 (bit e) else m) m).getLsbD i = true ↔
      m.getLsbD i = true ∨ ∃ e ∈ xs, bit e = i ∧ p e = true := by
  induction xs generalizing m with
  | nil => simp
  | cons x xs ih =>
    rw [List.foldl_cons, ih]
    cases hp : p x with
    | false => simp [hp]
    | true => simp [hp, hi, or_assoc, eq_comm (a := i)]

theorem reverseBits_eq (x : Word) : reverseBits x = x.reverse := by
  refine BitVec.eq_of_getLsbD_eq fun i hi => Bool.eq_iff_iff.2 ?_
  rw [reverseBits, getLsbD_foldl_twoPow_word _ _ _ _ hi, BitVec.getLsbD_reverse, BitVec.getMsbD_eq_getLsbD]
  constructor
  · rintro (hzero | ⟨e, he, rfl, hbit⟩)
    · simp at hzero
    · have he' := List.mem_range.1 he
      rw [show 32 - 1 - (31 - e) = e by omega]
      simp [hbit, hi]
  · intro h
    exact .inr ⟨31 - i, List.mem_range.2 (by omega), by omega, by simpa [hi] using h⟩

/-! ### Fields (07 R176) -/

theorem fieldOffset_eq (b : Word) : fieldOffset b = b.toNat % 32 := by
  simp [fieldOffset, BitVec.extractLsb_toNat]

theorem fieldLength_eq (b : Word) : fieldLength b = b.toNat / 256 % 32 := by
  simp [fieldLength, BitVec.extractLsb_toNat, Nat.shiftRight_eq_div_pow]

theorem extractField_eq (a b : Word) :
    extractField a b = BitVec.ofNat 32 (a.toNat / 2 ^ (b.toNat % 32) % 2 ^ (b.toNat / 256 % 32)) := by
  rw [extractField, fieldOffset_eq, fieldLength_eq]

/-- A field of fewer than 32 bits stands in a word as it is. -/
theorem toNat_extractField (a b : Word) :
    (extractField a b).toNat = a.toNat / 2 ^ (b.toNat % 32) % 2 ^ (b.toNat / 256 % 32) := by
  have hlt : a.toNat / 2 ^ (b.toNat % 32) % 2 ^ (b.toNat / 256 % 32) < 2 ^ 32 :=
    (Nat.mod_lt _ (by positivity)).trans (Nat.pow_lt_pow_right (by decide) (Nat.mod_lt _ (by decide)))
  rw [extractField_eq, BitVec.toNat_ofNat, Nat.mod_eq_of_lt hlt]

theorem extractFieldSigned_eq (a b : Word) :
    extractFieldSigned a b =
      let w := b.toNat / 256 % 32
      let f := a.toNat / 2 ^ (b.toNat % 32) % 2 ^ w
      if w = 0 then 0 else if f < 2 ^ (w - 1) then BitVec.ofNat 32 f else BitVec.ofInt 32 ((f : Int) - 2 ^ w) := by
  rw [extractFieldSigned, toNat_extractField, fieldLength_eq]

/-- A mask of `n` ones at an offset, cut at bit 31. -/
theorem ones_shiftLeft {n : Nat} (hn : n < 32) (o : Nat) :
    BitVec.ofNat 32 ((2 ^ n - 1) * 2 ^ o) = (((1 : Word) <<< n) - 1) <<< o := by
  have hlt : 2 ^ n < 2 ^ 32 := Nat.pow_lt_pow_right (by decide) hn
  have hpos : 0 < 2 ^ n := Nat.two_pow_pos n
  have hone : ((1 : Word) <<< n).toNat = 2 ^ n := by
    rw [BitVec.toNat_shiftLeft, Nat.shiftLeft_eq]
    exact (congrArg (· % 2 ^ 32) (Nat.one_mul _)).trans (Nat.mod_eq_of_lt hlt)
  have hones : (((1 : Word) <<< n) - 1).toNat = 2 ^ n - 1 := by
    rw [BitVec.toNat_sub_of_le (BitVec.le_def.2 (by rw [hone]; exact hpos)), hone]
    rfl
  apply BitVec.eq_of_toNat_eq
  rw [BitVec.toNat_ofNat, BitVec.toNat_shiftLeft, hones, Nat.shiftLeft_eq]

theorem insertField_eq (d a b : Word) :
    insertField d a b =
      let o := b.toNat % 32
      let m : Word := (((1 : Word) <<< (b.toNat / 256 % 32)) - 1) <<< o
      (d &&& ~~~m) ||| ((a <<< o) &&& m) := by
  rw [insertField, fieldOffset_eq, fieldLength_eq, ones_shiftLeft (Nat.mod_lt _ (by decide))]

end Sys2Proof.Machine
end

section
/-!
PROOFS. Integer instructions, comparisons, pairs, moves and predicates: each instruction is one of a few operand forms with its function, and
each form, once its registers are settled, writes its result and goes on (07 R168-R182).
-/
namespace Sys2Proof.Machine
open Sys2Proof.Claim

/-! ### The operand forms on settled registers (07 R168, R172, R179, R181) -/

/-- Registers among settled ones are settled. -/
theorem State.Settled.mono {s : State} {g : Gang} {vs ss vs' ss' : List Nat} (h : s.Settled g vs ss) (hv : vs' ⊆ vs) (hs : ss' ⊆ ss) :
    s.Settled g vs' ss' :=
  ⟨fun r hr => h.1 r (hv hr), fun r hr => h.2 r (hs hr)⟩

section
variable {s : State} {g : Gang} (h : s.Issues g) {d a b : Nat}
include h

theorem ternary_vector (hs : s.Settled g [d, a, b] []) (f : Word → Word → Word → Word) :
    ternary s false d a b f = .next (vectorDone s g d fun l => f (g.vreg d l) (g.vreg a l) (g.vreg b l)) := by
  unfold ternary
  rw [if_neg Bool.false_ne_true]
  exact gate_of_settled h hs rfl

theorem ternary_scalar (hs : s.Settled g [] [d, a, b]) (f : Word → Word → Word → Word) :
    ternary s true d a b f = .next (scalarDone s g d (f (g.sreg d) (g.sreg a) (g.sreg b))) := by
  unfold ternary
  rw [if_pos rfl]
  exact gate_of_settled h hs rfl

theorem unary_vector (hs : s.Settled g [d, a] []) (f : Word → Word) :
    unary s false d a f = .next (vectorDone s g d fun l => f (g.vreg a l)) := by
  unfold unary
  rw [if_neg Bool.false_ne_true]
  exact gate_of_settled h hs rfl

theorem unary_scalar (hs : s.Settled g [] [d, a]) (f : Word → Word) :
    unary s true d a f = .next (scalarDone s g d (f (g.sreg a))) := by
  unfold unary
  rw [if_pos rfl]
  exact gate_of_settled h hs rfl

theorem comparison_vector (hs : s.Settled g [a, b] []) (f : Word → Word → Bool) :
    comparison s false d a b f =
      .next (s.advance ((s.issuing g).setP d (g.active s.group) fun l => f (g.vreg a l) (g.vreg b l)) 1) := by
  unfold comparison
  rw [if_neg Bool.false_ne_true]
  exact gate_of_settled h hs rfl

theorem comparison_scalar (hs : s.Settled g [] [a, b]) (f : Word → Word → Bool) :
    comparison s true d a b f =
      .next (s.advance ((s.issuing g).setP d (g.enabled s.group) fun _ => f (g.sreg a) (g.sreg b)) 1) := by
  unfold comparison
  rw [if_pos rfl]
  exact gate_of_settled h hs rfl

theorem predicateOp_of_issues (f : Bool → Bool → Bool) :
    predicateOp s d a b f =
      .next (s.advance ((s.issuing g).setP d (g.active s.group) fun l => f (g.preg a l) (g.preg b l)) 1) :=
  gate_of_noNeeds h

theorem predicateRead_of_settled (hs : s.Settled g [] [d]) (f : List Nat → Word) :
    predicateRead s d a f = .next (scalarDone s g d (f ((g.active s.group).filter fun l => g.preg a l))) :=
  gate_of_settled h hs rfl

section
variable (hd : d % 2 = 0)
include hd

theorem widening_vector (hs : s.Settled g [d, d + 1, a, b] []) (f : Word → Word → DWord) :
    widening s false d a b f =
      .next (s.advance ((s.issuing g).setVpair d (g.active s.group) fun l => f (g.vreg a l) (g.vreg b l)) 1) := by
  unfold widening
  rw [if_neg Bool.false_ne_true]
  exact gate_of_settled h hs (by simp [hd])

theorem widening_scalar (hs : s.Settled g [] [d, d + 1, a, b]) (f : Word → Word → DWord) :
    widening s true d a b f = .next (s.advance ((s.issuing g).setSpair d (f (g.sreg a) (g.sreg b))) 1) := by
  unfold widening
  rw [if_pos rfl]
  exact gate_of_settled h hs (by simp [hd])

variable (ha : a % 2 = 0)
include ha

theorem pairIndexed_vector (hs : s.Settled g [d, d + 1, a, a + 1, b] []) (f : DWord → Word → DWord) :
    pairIndexed s false d a b f =
      .next (s.advance ((s.issuing g).setVpair d (g.active s.group) fun l => f (g.vpair a l) (g.vreg b l)) 1) := by
  unfold pairIndexed
  rw [if_neg Bool.false_ne_true]
  exact gate_of_settled h hs (by simp [hd, ha])

theorem pairIndexed_scalar (hs : s.Settled g [] [d, d + 1, a, a + 1, b]) (f : DWord → Word → DWord) :
    pairIndexed s true d a b f = .next (s.advance ((s.issuing g).setSpair d (f (g.spair a) (g.sreg b))) 1) := by
  unfold pairIndexed
  rw [if_pos rfl]
  exact gate_of_settled h hs (by simp [hd, ha])

variable (hb : b % 2 = 0)
include hb

theorem pairBinary_vector (hs : s.Settled g [d, d + 1, a, a + 1, b, b + 1] []) (f : DWord → DWord → DWord) :
    pairBinary s false d a b f =
      .next (s.advance ((s.issuing g).setVpair d (g.active s.group) fun l => f (g.vpair a l) (g.vpair b l)) 1) := by
  unfold pairBinary
  rw [if_neg Bool.false_ne_true]
  exact gate_of_settled h hs (by simp [hd, ha, hb])

theorem pairBinary_scalar (hs : s.Settled g [] [d, d + 1, a, a + 1, b, b + 1]) (f : DWord → DWord → DWord) :
    pairBinary s true d a b f = .next (s.advance ((s.issuing g).setSpair d (f (g.spair a) (g.spair b))) 1) := by
  unfold pairBinary
  rw [if_pos rfl]
  exact gate_of_settled h hs (by simp [hd, ha, hb])

end

end

/-! ### Integer instructions (07 R170, R171, R173-R177, R180) -/

/-- The operand form of an integer instruction and the function that it applies, which is the one the statements give: of the old
destination and two sources, of one source, or of the old destination alone. -/
inductive IntegerForm (d a b : Nat) (op : IntegerOp) : Prop
  | ternary (f : Word → Word → Word → Word) (hexec : ∀ c s, exec (op.1 c) s = ternary s c d a b f) (hf : ∀ z x y, f z x y = op.2 z x y)
  | unary (f : Word → Word) (hexec : ∀ c s, exec (op.1 c) s = unary s c d a f) (hf : ∀ z x y, f x = op.2 z x y)
  | inPlace (f : Word → Word) (hexec : ∀ c s, exec (op.1 c) s = unary s c d d f) (hf : ∀ z x y, f z = op.2 z x y)

/-- Each integer instruction of the statements has its form, with the model's function equal to theirs: the entries stand in the order of
`integerOps`. -/
theorem integerOps_form (d a b : BitVec 7) (i : BitVec 10) (j : BitVec 17) (n : BitVec 5) :
    ∀ op ∈ integerOps d a b i j n, IntegerForm d.toNat a.toNat b.toNat op := by
  simp only [integerOps, List.cons_append, List.nil_append, List.forall_mem_cons]
  refine ⟨.ternary _ ?_ fun _ _ _ => rfl, .ternary _ ?_ fun _ _ _ => rfl, .ternary _ ?_ fun _ _ _ => rfl,
    .ternary _ ?_ fun _ => mulHighSigned_eq, .ternary _ ?_ fun _ => mulHighUnsigned_eq, .ternary _ ?_ fun _ _ _ => rfl,
    .ternary _ ?_ fun _ _ _ => rfl, .ternary _ ?_ fun _ _ _ => rfl, .ternary _ ?_ fun _ _ _ => rfl, .ternary _ ?_ fun _ _ _ => rfl,
    .ternary _ ?_ fun _ => minSigned_eq, .ternary _ ?_ fun _ => minUnsigned_eq, .ternary _ ?_ fun _ => maxSigned_eq,
    .ternary _ ?_ fun _ => maxUnsigned_eq, .unary _ ?_ fun _ x _ => abs_eq_ofInt_natAbs x,
    .unary _ ?_ fun _ x _ => (BitVec.zero_sub x).symm, .ternary _ ?_ fun _ _ _ => saturateSigned_eq_clampInt _,
    .ternary _ ?_ fun _ _ _ => saturateUnsigned_eq_clampInt _, .ternary _ ?_ fun _ _ _ => saturateSigned_eq_clampInt _,
    .ternary _ ?_ fun _ _ _ => saturateUnsigned_eq_clampInt _, .ternary _ ?_ fun _ _ _ => rfl, .ternary _ ?_ fun _ _ _ => rfl,
    .ternary _ ?_ fun _ _ _ => rfl, .ternary _ ?_ fun _ _ _ => rfl, .ternary _ ?_ fun _ _ _ => rfl, .ternary _ ?_ fun _ _ _ => rfl,
    .unary _ ?_ fun _ _ _ => rfl, .ternary _ ?_ fun _ _ _ => rfl, .ternary _ ?_ fun _ _ _ => rfl, .ternary _ ?_ fun _ => shiftArith_eq,
    .ternary _ ?_ fun _ _ _ => rfl, .unary _ ?_ fun _ x _ => congrArg (BitVec.ofNat 32) (countOnes_eq_countP x 32),
    .unary _ ?_ fun _ x _ => congrArg (BitVec.ofNat 32) (leadingZeros_eq_takeWhile x 32), .unary _ ?_ fun _ x _ => trailingZeros_word x,
    .unary _ ?_ fun _ x _ => reverseBits_eq x, .ternary _ ?_ fun _ => extractField_eq, .ternary _ ?_ fun _ => extractFieldSigned_eq,
    .ternary _ ?_ insertField_eq, .unary _ ?_ fun _ _ _ => rfl, .unary _ ?_ fun _ _ _ => rfl, .unary _ ?_ fun _ _ _ => rfl,
    .unary _ ?_ fun _ _ _ => rfl, .unary _ ?_ fun _ x _ => shiftLeft_amount x n, .unary _ ?_ fun _ x _ => shiftRight_amount x n,
    .unary _ ?_ fun _ x _ => shiftArith_amount x n, .unary _ ?_ fun _ x _ => rotateLeft_amount x n, .inPlace _ ?_ fun _ _ _ => rfl,
    .inPlace _ ?_ fun _ _ _ => rfl, .unary _ ?_ fun _ _ _ => rfl, List.forall_mem_nil _⟩
  all_goals (intro c s; unfold exec; rfl)

section
variable {d a b : Nat} {op : IntegerOp} {s : State} {g : Gang}

/-- An integer instruction in vector form writes what the statements give, in every active lane. -/
theorem IntegerForm.exec_vector (hop : IntegerForm d a b op) (h : s.Issues g) (hs : s.Settled g [d, a, b] []) :
    exec (op.1 false) s = .next (vectorDone s g d fun l => op.2 (g.vreg d l) (g.vreg a l) (g.vreg b l)) := by
  cases hop with
  | ternary f hexec hf =>
    rw [hexec, ternary_vector h hs]
    simp only [hf]
  | unary f hexec hf =>
    rw [hexec, unary_vector h (hs.mono (by simp) (by simp))]
    simp only [fun l => hf (g.vreg d l) (g.vreg a l) (g.vreg b l)]
  | inPlace f hexec hf =>
    rw [hexec, unary_vector h (hs.mono (by simp) (by simp))]
    simp only [fun l => hf (g.vreg d l) (g.vreg a l) (g.vreg b l)]

/-- An integer instruction in scalar form writes what the statements give, once. -/
theorem IntegerForm.exec_scalar (hop : IntegerForm d a b op) (h : s.Issues g) (hs : s.Settled g [] [d, a, b]) :
    exec (op.1 true) s = .next (scalarDone s g d (op.2 (g.sreg d) (g.sreg a) (g.sreg b))) := by
  cases hop with
  | ternary f hexec hf => rw [hexec, ternary_scalar h hs, hf]
  | unary f hexec hf => rw [hexec, unary_scalar h (hs.mono (by simp) (by simp)), hf (g.sreg d) _ (g.sreg b)]
  | inPlace f hexec hf => rw [hexec, unary_scalar h (hs.mono (by simp) (by simp)), hf _ (g.sreg a) (g.sreg b)]

end

/-- Settles O1: each instruction has its operand form and the function that 07 gives, and each form writes its result in the active lanes, or
once. -/
theorem integerResult : Obligations.IntegerResult :=
  ⟨fun _ _ d a b i j n h hs e he => (integerOps_form d a b i j n e he).exec_vector h hs,
    fun _ _ d a b i j n h hs e he => (integerOps_form d a b i j n e he).exec_scalar h hs⟩

/-! ### Comparisons (07 R179) -/

theorem bne_eq_decide (x y : Word) : (x != y) = decide (x ≠ y) := by
  rw [bne, beq_eq_decide, decide_not]

/-- Each comparison of the statements is the form of a comparison with their test. -/
theorem exec_comparisons (d : BitVec 4) (a b : BitVec 7) :
    ∀ e ∈ comparisons d a b, ∃ f, (∀ c s, exec (e.1 c) s = comparison s c d.toNat a.toNat b.toNat f) ∧ ∀ x y, f x y = e.2 x y := by
  simp only [comparisons, List.forall_mem_cons]
  refine ⟨⟨_, ?_, fun x y => beq_eq_decide x y⟩, ⟨_, ?_, fun x y => bne_eq_decide x y⟩, ⟨_, ?_, fun _ _ => rfl⟩, ⟨_, ?_, fun _ _ => rfl⟩,
    ⟨_, ?_, fun _ _ => rfl⟩, ⟨_, ?_, fun _ _ => rfl⟩, ⟨_, ?_, fun x y => bne_eq_decide (x &&& y) 0⟩,
    ⟨_, ?_, fun x y => beq_eq_decide (x &&& y) 0⟩, List.forall_mem_nil _⟩
  all_goals (intro c s; unfold exec; rfl)

/-- Settles O2: each comparison has its test in the one form, which writes the lanes that its class of register reaches. -/
theorem comparisonResult : Obligations.ComparisonResult := by
  unfold Obligations.ComparisonResult
  intro s g d a b h e he
  obtain ⟨f, hexec, hf⟩ := exec_comparisons d a b e he
  simp only [hexec, ← hf]
  exact ⟨fun hs => comparison_vector h hs f, fun hs => comparison_scalar h hs f⟩

/-! ### Pairs and moves (07 R172, R178, R180) -/

/-- `add64` and `sub64` are the form on pairs with sum and difference. -/
theorem exec_pairOps (d a b : BitVec 7) :
    ∀ e ∈ pairOps d a b, ∀ c s, exec (e.1 c) s = pairBinary s c d.toNat a.toNat b.toNat e.2 := by
  simp only [pairOps, List.forall_mem_cons]
  refine ⟨?_, ?_, List.forall_mem_nil _⟩
  all_goals (intro c s; unfold exec; rfl)

theorem pairResult : PairResult := by
  unfold PairResult
  intro s g d a b h hd ha hb e he
  simp only [exec_pairOps d a b e he]
  exact ⟨fun hs => pairBinary_vector h hd ha hb hs e.2, fun hs => pairBinary_scalar h hd ha hb hs e.2⟩

theorem exec_mul64 (c : Bool) (d a b : BitVec 7) (s : State) :
    exec (.mul64 c d a b) s = widening s c d.toNat a.toNat b.toNat fun x y => x.signExtend 64 * y.signExtend 64 := by
  simp only [← ofInt_mul_toInt]
  unfold exec
  rfl

theorem exec_mul64U (c : Bool) (d a b : BitVec 7) (s : State) :
    exec (.mul64U c d a b) s = widening s c d.toNat a.toNat b.toNat fun x y => x.setWidth 64 * y.setWidth 64 := by
  simp only [← ofNat_mul_toNat]
  unfold exec
  rfl

theorem exec_lea (c : Bool) (d a b : BitVec 7) (n : BitVec 3) (s : State) :
    exec (.lea c d a b n) s = pairIndexed s c d.toNat a.toNat b.toNat fun x y => x + (y.setWidth 64 <<< n.toNat) := by
  unfold exec
  rfl

theorem pairSingleSources : PairSingleSources := by
  unfold PairSingleSources
  intro s g d a b n h hd
  simp only [exec_mul64, exec_mul64U, exec_lea]
  exact ⟨fun hs => ⟨widening_vector h hd hs _, widening_vector h hd hs _⟩,
    fun hs => ⟨widening_scalar h hd hs _, widening_scalar h hd hs _⟩,
    fun ha hs => pairIndexed_vector h hd ha hs _, fun ha hs => pairIndexed_scalar h hd ha hs _⟩

theorem moveBetweenClasses : MoveBetweenClasses := by
  unfold MoveBetweenClasses
  intro s g d a b h
  dsimp only [exec]
  exact ⟨fun hs => gate_of_settled h hs rfl, fun hs => gate_of_settled h hs rfl, fun hs => gate_of_settled h hs rfl,
    fun hs => gate_of_settled h hs rfl⟩

/-- Settles O3: sums, products and addresses by the forms on pairs, and each move by the gate's one rule for settled registers. -/
theorem pairsAndMoves : Obligations.PairsAndMoves := ⟨pairResult, pairSingleSources, moveBetweenClasses⟩

/-! ### Predicates (01 R13; 07 R181, R182) -/

/-- Each operation on predicates is the form with its function; `pnot` has one source, and its function reads that alone. -/
theorem exec_predicateOps (d a b : BitVec 4) :
    ∀ e ∈ predicateOps d a b, ∃ b', (∀ s, exec e.1 s = predicateOp s d.toNat a.toNat b' e.2) ∧
      (b' = b.toNat ∨ ∀ x y z, e.2 x y = e.2 x z) := by
  simp only [predicateOps, List.forall_mem_cons]
  refine ⟨⟨_, ?_, .inl rfl⟩, ⟨_, ?_, .inl rfl⟩, ⟨_, ?_, .inl rfl⟩, ⟨a.toNat, ?_, .inr fun _ _ _ => trivial⟩, List.forall_mem_nil _⟩
  all_goals (intro s; unfold exec; rfl)

/-- Each read of a predicate is the form with its function of the lanes. -/
theorem exec_predicateReads (d : BitVec 7) (a : BitVec 4) :
    ∀ e ∈ predicateReads d a, ∀ s, exec e.1 s = predicateRead s d.toNat a.toNat e.2 := by
  simp only [predicateReads, List.forall_mem_cons]
  refine ⟨fun s => ?test, fun s => ?count, fun s => ?first, List.forall_mem_nil _⟩
  all_goals unfold exec
  case test => exact congrArg (predicateRead s d.toNat a.toNat) (by funext lanes; cases lanes <;> rfl)
  case count => rfl
  case first => exact congrArg (predicateRead s d.toNat a.toNat) (by funext lanes; cases lanes <;> rfl)

theorem predicateResult : PredicateResult := by
  unfold PredicateResult
  intro s g h
  refine ⟨fun d a b e he => ?operation, fun d a hs e he => ?read, fun d a hd hs => ?bits, fun d a ha hs => ?set⟩
  case operation =>
    obtain ⟨b', hexec, rfl | hone⟩ := exec_predicateOps d a b e he
    · rw [hexec, predicateOp_of_issues h]
    · rw [hexec, predicateOp_of_issues h]
      simp only [fun l => hone (g.preg a.toNat l) (g.preg b' l) (g.preg b.toNat l)]
  case read => exact (exec_predicateReads d a e he s).trans (predicateRead_of_settled h hs e.2)
  case bits =>
    dsimp only [exec]
    exact gate_of_settled h hs (by simp [hd])
  case set =>
    dsimp only [exec]
    exact gate_of_settled h hs (by simp [ha])

/-- A lane is in the mask of a list exactly where the list holds it. -/
theorem getLsbD_maskOf (lanes : List Nat) {l : Nat} (hl : l < 64) : (maskOf lanes).getLsbD l = decide (l ∈ lanes) := by
  have h := getLsbD_foldl_twoPow (fun _ : Nat => true) id lanes 0 hl
  rw [Bool.eq_iff_iff, decide_eq_true_eq]
  simpa [maskOf] using h

theorem predicateZeroReadsTrue : PredicateZeroReadsTrue := fun _ _ _ _ => ⟨rfl, rfl⟩

theorem predicateWriteLanes : PredicateWriteLanes := by
  unfold PredicateWriteLanes
  intro g i lanes f l hi hl _
  have hi' : (i == 0) = false := by simpa using hi
  simp only [Gang.preg, Gang.setP, hi', if_neg hi, Cells.get_set, ↓reduceIte, Bool.false_or, BitVec.getLsbD_or, BitVec.getLsbD_and,
    BitVec.getLsbD_not, getLsbD_maskOf _ hl, hl, List.mem_filter]
  by_cases hmem : l ∈ lanes <;> simp [hmem]

/-- Settles O4: predicate operations by their forms, and a predicate's lanes by the bits of the mask of the lanes written. -/
theorem predicateOperations : Obligations.PredicateOperations := ⟨predicateResult, predicateZeroReadsTrue, predicateWriteLanes⟩

end Sys2Proof.Machine
end

section
/-!
PROOFS. Transfers, joins, `regang` and `exit`, software traps and the entry of a stop-class trap (07 R184-R186, R189; 11 R245, R246, R251; 19
R366, R367).
-/
namespace Sys2Proof.Machine
open Sys2Proof.Claim

/-! ### Jumps and calls (07 R184, R185) -/

/-- A transfer to the address of a settled pair, in the order of its checks. -/
theorem jumpTo_of_settled {s : State} {g : Gang} (h : s.Issues g) {a : Nat} (ha : a % 2 = 0) (hs : s.Settled g [] [a, a + 1]) :
    jumpTo s a =
      if (g.spair a).toNat ≥ 2 ^ 48 then .next (s.trapAt (s.issuing g) .protection (g.enabled s.group) 0)
      else if (g.spair a).toNat % 4 ≠ 0 then .next (s.trapAt (s.issuing g) .misaligned (g.enabled s.group) 0)
      else .next (s.proceed (s.issuing g) 1 fun _ sl => { sl with pc := g.spair a }) :=
  gate_of_settled h hs (by simp [ha])

theorem exec_jumps (a : BitVec 7) (s : State) : ∀ i ∈ [Instr.jmp a, .ret a], exec i s = jumpTo s a.toNat := by
  simp only [List.forall_mem_cons]
  refine ⟨?_, ?_, List.forall_mem_nil _⟩
  all_goals (unfold exec; rfl)

theorem jumpResult : JumpResult := by
  unfold JumpResult
  intro s g h
  refine ⟨fun a ha hs => ?even, fun a ha i hi => ?odd, fun o hs => ?call⟩
  case even =>
    have hrun := fun i hi => (exec_jumps a s i hi).trans (jumpTo_of_settled h ha hs)
    refine ⟨fun hlow hword => ?goes, fun i hi => ⟨fun hhigh => ?protection, fun hlow hodd => ?misaligned⟩⟩
    case goes =>
      have hgo := fun i hi => (hrun i hi).trans ((if_neg (not_le.2 hlow)).trans (if_neg (not_not.2 hword)))
      exact ⟨hgo _ (by simp), hgo _ (by simp)⟩
    case protection => exact (hrun i hi).trans (if_pos hhigh)
    case misaligned => exact (hrun i hi).trans ((if_neg (not_le.2 hlow)).trans (if_pos hodd))
  case odd => exact (exec_jumps a s i hi).trans (gate_of_trap h (issueTrap_of_odd (r := a.toNat) (by simp) ha))
  case call =>
    unfold exec
    exact gate_of_settled h hs rfl

/-! ### Joins (11 R245) -/

/-- The loop of a join reads the entries it is given, and not the stack that it replaces. -/
theorem Slice.unwind_setStack (sl : Slice) (st : List MaskEntry) (j : DWord) (atEnd : Bool) (l : List MaskEntry) :
    ({ sl with stack := st } : Slice).unwind j atEnd l = sl.unwind j atEnd l := by
  induction l with
  | nil => rfl
  | cons e rest ih => simp only [Slice.unwind, ih]

theorem Slice.join_of_single {sl : Slice} {x : MaskEntry} (h : sl.stack = [x]) (j : Nat) :
    Slice.join j sl = { sl with pc := sl.pc + 4 } := by
  simp only [Slice.join, h]

theorem Slice.join_of_two {sl : Slice} {x y : MaskEntry} {rest : List MaskEntry} (h : sl.stack = x :: y :: rest) (j : Nat) :
    Slice.join j sl = sl.unwind sl.pc false (y :: rest) := by
  simp only [Slice.join, h]

theorem joinResult : JoinResult := by
  unfold JoinResult
  intro s g h
  refine ⟨?runs, fun sl j x y rest => ⟨fun hst => Slice.join_of_single hst j, fun hst hk => ?pending, fun hst hk haddr hrest => ?drops,
    fun hst hk => ?past⟩⟩
  case runs =>
    unfold exec
    exact gate_of_noNeeds h
  case pending => simp only [Slice.join_of_two hst, Slice.unwind, hk]
  case drops =>
    obtain ⟨z, rest', rfl⟩ := List.exists_cons_of_ne_nil hrest
    rw [Slice.join_of_two hst, Slice.join_of_two (sl := { sl with stack := y :: z :: rest' }) rfl,
      Slice.unwind_setStack sl (y :: z :: rest'), Slice.unwind]
    simp [hk, haddr]
  case past =>
    rw [Slice.join_of_two hst, Slice.unwind]
    obtain hk | hk | ⟨hk, hend⟩ := hk
    · simp [hk]
    · simp [hk]
    · have hstay : ¬((decide (y.addr = sl.pc) && !rest.isEmpty) = true) := by simpa [← imp_iff_not_or] using hend
      simp only [hk, if_neg hstay]
      rfl

/-! ### The gang after a group has gone on (11 R248, R251) -/

/-- A release of parked slices changes of a gang its slices and its count of words alone. -/
theorem Gang.releaseParked_eq (g : Gang) (stop : Option DWord) :
    ∃ slices words, g.releaseParked stop = { g with slices := slices, words := words } := by
  unfold Gang.releaseParked
  extract_lets running go leader
  split
  · exact ⟨_, _, rfl⟩
  · exact ⟨_, _, rfl⟩

/-- Going on changes of a gang its slices, its count of words and its last group alone. -/
theorem Gang.proceed_eq (g : Gang) (group words : Nat) (stop : Option DWord) (f : Nat → Slice → Slice) :
    ∃ slices n last, g.proceed group words stop f = { g with slices := slices, words := n, lastGroup := last } := by
  cases stop with
  | none => exact ⟨_, _, _, rfl⟩
  | some a =>
    obtain ⟨slices, n, h⟩ := Gang.releaseParked_eq _ (some a)
    exact ⟨slices, n, _, h⟩

theorem State.find_proceed (s : State) (g : Gang) (words : Nat) (f : Nat → Slice → Slice) :
    (s.proceed g words f).gangs.find s.gang = some (g.proceed s.group words (s.stepEnd g) f) := by
  rw [State.proceed, State.setGang_gangs, Table.find_put, if_pos rfl]

/-! ### `nop`, `regang` and `exit` (02 R53; 07 R186; 11 R246, R251) -/

theorem nopRegangExit : NopRegangExit := by
  unfold NopRegangExit
  intro s g h
  dsimp only [exec]
  refine ⟨gate_of_noNeeds h, ⟨fun hparked => ?parks, fun hfree => ?released⟩, fun hr => ⟨_, State.find_proceed .., ?exits⟩, fun hr => ?refill⟩
  case parks =>
    obtain ⟨sl, hmem, hstatus, hpark⟩ := hparked
    exact (gate_of_noNeeds h).trans (if_pos (List.any_eq_true.2 ⟨sl, hmem, by simp [hstatus, hpark]⟩))
  case released =>
    refine (gate_of_noNeeds h).trans (if_neg fun hany => ?_)
    obtain ⟨sl, hmem, hsl⟩ := List.any_eq_true.1 hany
    simp only [Bool.and_eq_true, beq_iff_eq] at hsl
    exact Bool.false_ne_true ((hfree sl hmem hsl.1).symm.trans hsl.2)
  case exits =>
    refine (gate_of_noNeeds h).trans ?_
    simp only [State.issuing_refill, hr, Option.isSome_none, Bool.false_eq_true, ↓reduceIte, State.find_proceed]
    split <;> rfl
  case refill => exact (gate_of_noNeeds h).trans (if_pos (Option.isSome_iff_ne_none.2 hr))

/-- What stays of a stack after empty entries have been discarded is part of it. -/
theorem discardEmpty_subset (last : Option MaskEntry) (l : List MaskEntry) : (discardEmpty last l).2 ⊆ l := by
  induction l generalizing last with
  | nil => exact List.Subset.refl _
  | cons e rest ih =>
    unfold discardEmpty
    split
    · exact List.subset_cons_of_subset e (ih _)
    · exact List.Subset.refl _

/-- A stack of empty entries is discarded whole. -/
theorem discardEmpty_of_empty (last : Option MaskEntry) {l : List MaskEntry} (h : ∀ e ∈ l, e.mask = 0) : (discardEmpty last l).2 = [] := by
  induction l generalizing last with
  | nil => rfl
  | cons e rest ih =>
    rw [discardEmpty, if_pos (h e List.mem_cons_self)]
    exact ih _ fun x hx => h x (List.mem_cons_of_mem e hx)

/-- The loop of a join leaves entries with masks that it was given. -/
theorem Slice.unwind_masks (sl : Slice) (j : DWord) (atEnd : Bool) (l : List MaskEntry) :
    ∀ e ∈ (sl.unwind j atEnd l).stack, ∃ e' ∈ l, e.mask = e'.mask := by
  induction l with
  | nil => exact fun e he => absurd he List.not_mem_nil
  | cons x rest ih =>
    have hkept : ∀ e ∈ x :: rest, ∃ e' ∈ x :: rest, e.mask = e'.mask := fun e he => ⟨e, he, rfl⟩
    unfold Slice.unwind
    split
    · exact List.forall_mem_cons.2 ⟨⟨x, List.mem_cons_self, rfl⟩, fun e he => hkept e (List.mem_cons_of_mem x he)⟩
    · split
      · exact fun e he => (ih e he).imp fun e' h => ⟨List.mem_cons_of_mem x h.1, h.2⟩
      · split <;> exact hkept
    · split <;> exact hkept

/-- The entries of a slice after lanes have been removed have the masks of former ones without those lanes. -/
theorem Slice.dropLanes_masks (sl : Slice) (lanes : BitVec 4) (gone : SliceStatus) (stop : Option DWord) :
    ∀ e ∈ (sl.dropLanes lanes gone stop).stack, ∃ e' ∈ sl.stack, e.mask = e'.mask &&& ~~~lanes := by
  unfold Slice.dropLanes
  extract_lets left
  have hleft : ∀ e ∈ (discardEmpty none left).2, ∃ e' ∈ sl.stack, e.mask = e'.mask &&& ~~~lanes := by
    intro e he
    obtain ⟨e', he', rfl⟩ := List.mem_map.1 (discardEmpty_subset none left he)
    exact ⟨e', he', rfl⟩
  split
  · exact fun e he => absurd he List.not_mem_nil
  next x rest hd =>
    rw [hd] at hleft
    exact hleft
  next z x rest hd =>
    rw [hd] at hleft
    split
    · exact List.forall_mem_cons.2 ⟨hleft x List.mem_cons_self, fun e he => hleft e (List.mem_cons_of_mem x he)⟩
    · intro e he
      obtain ⟨e', he', heq⟩ := Slice.unwind_masks _ _ _ _ e he
      exact heq ▸ hleft e' he'
    · exact hleft

/-- A slice without lanes left has no entry, and the status of one that is gone. -/
theorem Slice.dropLanes_all {sl : Slice} {lanes : BitVec 4} (h : ∀ e ∈ sl.stack, e.mask &&& ~~~lanes = 0) (gone : SliceStatus)
    (stop : Option DWord) : sl.dropLanes lanes gone stop = { sl with stack := [], status := gone } := by
  unfold Slice.dropLanes
  extract_lets left
  have hleft : (discardEmpty none left).2 = [] := discardEmpty_of_empty none (by simpa [left] using h)
  split
  · rfl
  next hd => simp [hd] at hleft
  next hd => simp [hd] at hleft

theorem exitRemovesLanes : ExitRemovesLanes := by
  unfold ExitRemovesLanes
  refine fun sl lanes => ⟨fun e he => ?removed, fun hall => ?ended⟩
  case removed =>
    obtain ⟨e', -, heq⟩ := sl.dropLanes_masks lanes .ended none e he
    rw [heq, BitVec.and_assoc, BitVec.not_and_self]
    exact BitVec.and_zero
  case ended => exact ⟨by rw [Slice.dropLanes_all hall], by rw [Slice.dropLanes_all hall]⟩

/-- Settles O14: transfers by their checks in order, joins by the entry below the top, and `exit` by the masks that it leaves. -/
theorem jumpsJoinsExits : Obligations.JumpsJoinsExits := ⟨jumpResult, joinResult, nopRegangExit, exitRemovesLanes⟩

/-! ### Software traps (07 R189) -/

/-- The result stops the acting gang after its instruction, with a record of the cause, the code and the lanes. -/
def StopsAfter (s : State) (g : Gang) (r : Result) (cause : Trap) (code : Nat) (lanes : List Nat) : Prop :=
  ∃ t h rec_, r = .next t ∧ t.gangs.find s.gang = some h ∧ h.stop = some rec_ ∧ rec_.cause = cause ∧ rec_.code = code ∧
    rec_.laneMask = maskOf lanes ∧ rec_.pc = g.pc s.group + 4 ∧ rec_.trapPc = g.pc s.group ∧
    h.v = g.v ∧ h.s = g.s ∧ h.p = g.p ∧ h.k = g.k ∧ t.mem = s.mem

/-- The gang that stops has its stop record from then on (19 R366). -/
theorem State.find_stopGang (s : State) (key : Nat) (g : Gang) (e : TrapEvent) :
    (s.stopGang key g e).gangs.find key = some { g with stop := some (s.stopRecord key g e) } := by
  rw [State.stopGang, State.raiseLine_gangs, State.setGang_gangs, Table.find_put, if_pos rfl]

theorem softwareTrap_stopsAfter (s : State) (g : Gang) (cause : Trap) (code : Nat) (lanes : List Nat) :
    StopsAfter s g (softwareTrap s g cause code lanes) cause code lanes := by
  obtain ⟨slices, n, last, hgo⟩ := g.proceed_eq s.group 1 (s.stepEnd g) (Slice.next 1)
  unfold softwareTrap
  dsimp only
  rw [State.find_advance, hgo]
  exact ⟨_, _, _, rfl, State.find_stopGang .., rfl, rfl, rfl, rfl, rfl, rfl, rfl, rfl, rfl, rfl, rfl⟩

theorem softwareTrapResult : SoftwareTrapResult := by
  unfold SoftwareTrapResult
  intro s g c h
  have hstops := fun cause => softwareTrap_stopsAfter s (s.issuing g) cause c.toNat
  dsimp only [exec]
  refine ⟨?trap, ?brk, fun p => ⟨fun hnone => ?passes, fun hsome => ?trapif⟩⟩
  case trap =>
    rw [execTrap, gate_of_noNeeds h]
    exact hstops .userTrap (g.enabled s.group)
  case brk =>
    rw [execBrk, gate_of_noNeeds h]
    exact hstops .breakpoint (g.enabled s.group)
  case passes => exact (gate_of_noNeeds h).trans (if_pos (List.isEmpty_iff.2 hnone))
  case trapif =>
    have hrun : execTrapif p c s = softwareTrap s (s.issuing g) .userTrap c.toNat ((g.active s.group).filter fun l => g.preg p.toNat l) :=
      (gate_of_noNeeds h).trans (if_neg (mt List.isEmpty_iff.1 hsome))
    rw [hrun]
    exact hstops .userTrap _

/-! ### The entry of a stop-class trap (19 R366, R367) -/

/-- The context whose line is raised enters the halt that the line brings (19 R367). -/
theorem State.find_raiseLine (s : State) (ctx : Nat) (cause : Trap) :
    (s.raiseLine ctx cause).contexts.find ctx =
      (s.contexts.find ctx).map fun c => c.raise cause false ctx (s.clock + clocksOf s.killNs) := by
  rw [State.raiseLine, Table.find_update]
  simp only [if_pos]

theorem Context.raise_of_running {c : Context} (h : c.state = .running) (cause : Trap) (inherited : Bool) (root deadline : Nat) :
    c.raise cause inherited root deadline =
      { c with
        state := .halting
        halt := some { forced := true, cause := cause, deadline := deadline, records := [], resume := inherited,
                       inherited := inherited, root := root } } := by
  unfold Context.raise
  rw [h]

theorem stopTrapEntry : StopTrapEntry := by
  unfold StopTrapEntry
  intro s g c cause lanes addr hg hc hrun t
  have hfound : t.contexts.find g.ctx = some (c.raise cause false g.ctx (s.clock + clocksOf s.killNs)) := by
    refine (State.find_raiseLine ..).trans ?_
    rw [State.setGang_contexts, hc]
    rfl
  rw [Context.raise_of_running hrun] at hfound
  refine ⟨⟨_, _, State.find_stopGang .., rfl, rfl, rfl, rfl, rfl, rfl, rfl, rfl⟩, ⟨_, _, hfound, rfl, rfl, rfl, rfl, rfl⟩, rfl,
    fun k hk => ?others, rfl⟩
  case others => exact (Table.find_put ..).trans (if_neg hk.symm)

/-- Settles O17: a software trap stops the gang that has gone on, and a stop at an instruction raises the line of its running context. -/
theorem softwareTraps : Obligations.SoftwareTraps := ⟨softwareTrapResult, stopTrapEntry⟩

end Sys2Proof.Machine
end

section
/-!
PROOFS. Frames: what an instruction on registers leaves alone, whatever it answers, and what going on to the next word changes (01 R20; 02 R35;
07 R168).
-/
namespace Sys2Proof.Machine
open Sys2Proof.Claim

/-! ### Halts that a trap begins (19 R367) -/

/-- The line raised changes of a context its state and its halt alone. -/
theorem Context.raise_keeps (c : Context) (cause : Trap) (inherited : Bool) (root deadline : Nat) :
    { c.raise cause inherited root deadline with state := .running, halt := none } = { c with state := .running, halt := none } := by
  unfold Context.raise
  split
  · rfl
  · split <;> rfl
  · rfl

/-- A line raised in a state with the contexts of `s` leaves these as they are but for the halts. -/
theorem onlyHalts_raiseLine {s t : State} (h : t.contexts = s.contexts) (ctx : Nat) (cause : Trap) : OnlyHalts s (t.raiseLine ctx cause) := by
  intro n
  rw [State.raiseLine, Table.find_update, h, Option.map_map]
  refine congrArg (fun f => (s.contexts.find n).map f) (funext fun c => ?_)
  dsimp only [Function.comp]
  split
  · exact Context.raise_keeps ..
  · split
    · exact Context.raise_keeps ..
    · rfl

/-! ### Instructions on registers (07 R168) -/

/-- What an instruction on v and s registers leaves alone, the acting gang `g` having become `h`: the gang's other registers and counters,
the bytes of memory, every other gang, and the contexts but for a halt that begins. -/
def KeepsBesideRegisters (s t : State) (g h : Gang) : Prop :=
  h.p = g.p ∧ h.k = g.k ∧ h.srkey = g.srkey ∧ h.trim = g.trim ∧ h.fpflags = g.fpflags ∧
  h.loads = g.loads ∧ h.rc = g.rc ∧ (h.stamp = g.stamp ∨ h.stamp = (s.issuing g).stamp) ∧ h.chain = g.chain ∧ h.convoy = g.convoy ∧
  (∀ a, t.byte a = s.byte a) ∧ (∀ k, k ≠ s.gang → t.gangs.find k = s.gangs.find k) ∧ OnlyHalts s t ∧
  { t with gangs := s.gangs, contexts := s.contexts, idle := s.idle } = s

theorem keeps_waiting (s : State) (g : Gang) : KeepsBesideRegisters s { s with idle := true } g g :=
  ⟨rfl, rfl, rfl, rfl, rfl, rfl, rfl, .inl rfl, rfl, rfl, fun _ => rfl, fun _ _ => rfl, fun _ => rfl, rfl⟩

theorem keeps_trapAt (s : State) (g : Gang) (cause : Trap) (lanes : List Nat) (r : Option StopRecord) :
    KeepsBesideRegisters s (s.trapAt g cause lanes 0) g { g with stop := r } :=
  ⟨rfl, rfl, rfl, rfl, rfl, rfl, rfl, .inl rfl, rfl, rfl, fun _ => rfl, fun _ hk => (Table.find_put ..).trans (if_neg hk.symm),
    onlyHalts_raiseLine rfl _ _, rfl⟩

theorem keeps_advance (s : State) (g : Gang) (v s' : Cells 32) (n : Nat) :
    ∃ h, (s.advance { s.issuing g with v := v, s := s' } n).gangs.find s.gang = some h ∧ h.v = v ∧ h.s = s' ∧
      KeepsBesideRegisters s (s.advance { s.issuing g with v := v, s := s' } n) g h := by
  obtain ⟨slices, words, last, hgo⟩ := Gang.proceed_eq { s.issuing g with v := v, s := s' } s.group n
    (s.stepEnd { s.issuing g with v := v, s := s' }) (Slice.next n)
  exact ⟨_, (State.find_advance ..).trans (congrArg some hgo), rfl, rfl, rfl, rfl, rfl, rfl, rfl, rfl, rfl, .inr rfl, rfl, rfl, fun _ => rfl,
    fun _ hk => (Table.find_put ..).trans (if_neg hk.symm), fun _ => rfl, rfl⟩

/-- An instruction whose body writes v and s registers of the issuing gang and goes on: whatever it answers, the registers are as they were
or as the body leaves them, and everything beside them is kept. -/
theorem gate_finish_frame {s t : State} {g : Gang} {needs : Gang → Needs} {v s' : Gang → Cells 32} (hg : s.gangs.find s.gang = some g)
    (ht : gate s needs (fun g => s.finish { g with v := v g, s := s' g }) = .next t) :
    ∃ h, t.gangs.find s.gang = some h ∧ (h.v = g.v ∧ h.s = g.s ∨ h.v = v (s.issuing g) ∧ h.s = s' (s.issuing g)) ∧
      KeepsBesideRegisters s t g h := by
  obtain h1 | h1 | ⟨g', c, hg', h1⟩ | ⟨g', hi, -, -, h1⟩ := gate_cases s needs fun g => s.finish { g with v := v g, s := s' g }
  · exact nomatch h1.symm.trans ht
  · cases h1.symm.trans ht
    exact ⟨g, hg, .inl ⟨rfl, rfl⟩, keeps_waiting s g⟩
  · cases h1.symm.trans ht
    cases hg.symm.trans hg'
    exact ⟨_, State.find_stopGang .., .inl ⟨rfl, rfl⟩, keeps_trapAt ..⟩
  · cases h1.symm.trans ht
    cases hg.symm.trans hi.resident
    obtain ⟨h, hfound, hv, hs, hkeeps⟩ := keeps_advance s g (v (s.issuing g)) (s' (s.issuing g)) 1
    exact ⟨h, hfound, .inr ⟨hv, hs⟩, hkeeps⟩

/-- The result is that of an instruction that computes v register `d` in active lanes. -/
def WritesVector (s : State) (d : Nat) (r : Result) : Prop :=
  ∃ (needs : Gang → Needs) (f : Gang → Nat → Word), r = gate s needs fun g => s.finish (g.setV d (g.active s.group) (f g))

/-- The result is that of an instruction that computes s register `d`. -/
def WritesScalar (s : State) (d : Nat) (r : Result) : Prop :=
  ∃ (needs : Gang → Needs) (x : Gang → Word), r = gate s needs fun g => s.finish (g.setS d (x g))

theorem ternary_writesVector (s : State) (d a b : Nat) (f : Word → Word → Word → Word) : WritesVector s d (ternary s false d a b f) := by
  unfold ternary
  rw [if_neg Bool.false_ne_true]
  exact ⟨_, fun g l => f (g.vreg d l) (g.vreg a l) (g.vreg b l), rfl⟩

theorem unary_writesVector (s : State) (d a : Nat) (f : Word → Word) : WritesVector s d (unary s false d a f) := by
  unfold unary
  rw [if_neg Bool.false_ne_true]
  exact ⟨_, fun g l => f (g.vreg a l), rfl⟩

theorem ternary_writesScalar (s : State) (d a b : Nat) (f : Word → Word → Word → Word) : WritesScalar s d (ternary s true d a b f) := by
  unfold ternary
  rw [if_pos rfl]
  exact ⟨_, fun g => f (g.sreg d) (g.sreg a) (g.sreg b), rfl⟩

theorem unary_writesScalar (s : State) (d a : Nat) (f : Word → Word) : WritesScalar s d (unary s true d a f) := by
  unfold unary
  rw [if_pos rfl]
  exact ⟨_, fun g => f (g.sreg a), rfl⟩

theorem IntegerForm.writesVector {d a b : Nat} {op : IntegerOp} (h : IntegerForm d a b op) (s : State) :
    WritesVector s d (exec (op.1 false) s) := by
  cases h with
  | ternary f hexec _ => exact hexec false s ▸ ternary_writesVector s d a b f
  | unary f hexec _ => exact hexec false s ▸ unary_writesVector s d a f
  | inPlace f hexec _ => exact hexec false s ▸ unary_writesVector s d d f

theorem IntegerForm.writesScalar {d a b : Nat} {op : IntegerOp} (h : IntegerForm d a b op) (s : State) :
    WritesScalar s d (exec (op.1 true) s) := by
  cases h with
  | ternary f hexec _ => exact hexec true s ▸ ternary_writesScalar s d a b f
  | unary f hexec _ => exact hexec true s ▸ unary_writesScalar s d a f
  | inPlace f hexec _ => exact hexec true s ▸ unary_writesScalar s d d f

/-- `pack` and `unpack` are instructions of the one form of two sources. -/
theorem packOps_writesVector (s : State) (d a b : BitVec 7) : ∀ e ∈ packOps d a b, WritesVector s d.toNat (exec e.1 s) := by
  simp only [packOps, List.forall_mem_cons]
  and_intros
  iterate 6 (unfold exec; exact ternary_writesVector ..)
  exact List.forall_mem_nil _

theorem Gang.lt_of_mem_active {g : Gang} {group l : Nat} (h : l ∈ g.active group) : l < 64 :=
  List.mem_range.1 (List.mem_filter.1 h).1

/-- A write of v register `d` in some lanes reaches no other register and no other lane. -/
theorem Gang.vreg_setV_other (g : Gang) {r d l : Nat} {lanes : List Nat} (f : Nat → Word) (hl : l < 64) (hlanes : ∀ x ∈ lanes, x < 64)
    (h : ¬(r = d ∧ l ∈ lanes)) : (g.setV d lanes f).vreg r l = g.vreg r l := by
  refine Cells.get_setAll_other _ _ _ _ _ fun x hx hkey => h ?_
  have hx64 := hlanes x hx
  obtain rfl : x = l := by omega
  exact ⟨by omega, hx⟩

theorem vectorRegisterFrame : VectorRegisterFrame := by
  unfold VectorRegisterFrame
  intro s t g d a b i j n hg e he ht
  have hw : WritesVector s d.toNat (exec e s) := by
    rcases List.mem_append.1 he with h1 | h1
    · obtain ⟨op, hop, rfl⟩ := List.mem_map.1 h1
      exact (integerOps_form d a b i j n op hop).writesVector s
    · obtain ⟨op, hop, rfl⟩ := List.mem_map.1 h1
      exact packOps_writesVector s d a b op hop
  obtain ⟨needs, f, hrun⟩ := hw
  obtain ⟨h, hfound, hregs, hkeeps⟩ := gate_finish_frame hg (hrun.symm.trans ht)
  refine ⟨h, hfound, fun r l _ hl hother => ?_, hregs.elim And.right And.right, hkeeps⟩
  rcases hregs with ⟨hv, -⟩ | ⟨hv, -⟩
  · exact congrArg (fun c => Cells.get c (r * 64 + l)) hv
  · exact (congrArg (fun c => Cells.get c (r * 64 + l)) hv).trans
      ((s.issuing g).vreg_setV_other _ hl (fun _ => Gang.lt_of_mem_active) hother)

theorem scalarRegisterFrame : ScalarRegisterFrame := by
  unfold ScalarRegisterFrame
  intro s t g d a b i j n hg e he ht
  obtain ⟨needs, x, hrun⟩ := (integerOps_form d a b i j n e he).writesScalar s
  obtain ⟨h, hfound, hregs, hkeeps⟩ := gate_finish_frame hg (hrun.symm.trans ht)
  refine ⟨h, hfound, fun r hr => ?_, hregs.elim And.left And.left, hkeeps⟩
  rcases hregs with ⟨-, hs⟩ | ⟨-, hs⟩
  · exact congrArg (fun c => Cells.get c r) hs
  · exact (congrArg (fun c => Cells.get c r) hs).trans ((Cells.get_set ..).trans (if_neg hr.symm))

/-! ### The advance of the pc (01 R20; 02 R35; 11 R248) -/

theorem State.stepEnd_of_outside (s : State) {g : Gang} (h : g.refill = none) : s.stepEnd g = none := by
  simp only [State.stepEnd, h]

/-- A regrouping keeps of each slice everything but its group. -/
theorem Gang.getElem?_regroup (g : Gang) (members : List Nat) {j : Nat} {sl : Slice} (h : g.slices[j]? = some sl) :
    ∃ group, (g.regroup members).slices[j]? = some { sl with group := group } := by
  unfold Gang.regroup
  extract_lets leader
  rw [List.getElem?_mapIdx, h, Option.map_some]
  split
  · exact ⟨_, rfl⟩
  · exact ⟨_, rfl⟩

/-- Outside refill mode a slice of the group goes on as `f` says, and no other slice does. -/
theorem Gang.getElem?_proceed (g : Gang) (group words : Nat) (f : Nat → Slice → Slice) {j : Nat} {sl : Slice} (h : g.slices[j]? = some sl) :
    ∃ group', (g.proceed group words none f).slices[j]? =
      some { (if sl.issues group then f j sl else sl) with group := group' } := by
  refine Gang.getElem?_regroup (g.mapMembers group f) (g.members group) ?_
  rw [Gang.mapMembers, List.getElem?_mapIdx, h, Option.map_some]

theorem Gang.length_proceed (g : Gang) (group words : Nat) (f : Nat → Slice → Slice) :
    (g.proceed group words none f).slices.length = g.slices.length := by
  simp [Gang.proceed, Gang.regroup, Gang.mapMembers]

theorem advanceMovesPc : AdvanceMovesPc := by
  unfold AdvanceMovesPc
  intro s g n _ hr
  have hfound := State.find_advance s g n
  rw [s.stepEnd_of_outside hr] at hfound
  refine ⟨_, hfound, rfl, rfl, rfl, rfl, g.length_proceed .., fun j sl hj => ?slices, fun k hk => ?others, rfl⟩
  case slices =>
    obtain ⟨group, hj'⟩ := g.getElem?_proceed s.group n (Slice.next n) hj
    refine ⟨_, hj', ?_⟩
    split <;> exact ⟨rfl, rfl, rfl⟩
  case others => exact (Table.find_put ..).trans (if_neg (Ne.symm hk))

/-- Settles O19: the gate waits, traps or runs the body, whose one write is of the register named; and an advance moves the slices of the
group. -/
theorem registerFrames : Obligations.RegisterFrames := ⟨vectorRegisterFrame, scalarRegisterFrame, advanceMovesPc⟩

end Sys2Proof.Machine
end

section
/-!
PROOFS. Floating-point instructions computed element by element, and the register instructions of 08: packing, shuffles and random bits.
Each is of one shape, which writes its result in the active lanes and goes on where no exception of a lane has its trap enabled (08
R190-R198, R207, R209, R211; 01 R21).
-/
namespace Sys2Proof.Machine
open Sys2Proof.Claim

/-! ### Instructions on elements at the gate (08 R190, R191) -/

/-- An instruction that names settled registers, even ones where it takes pairs, and whose format is accepted runs its body. -/
theorem gate_of_accepted {s : State} {g : Gang} {needs : Gang → Needs} {body : Gang → Result} {vs ss even : List Nat} {ok : Bool}
    (h : s.Issues g) (hs : s.Settled g vs ss) (heven : ∀ r ∈ even, r % 2 = 0) (hok : ok = true)
    (hneeds : needs g = { v := vs, s := ss, even := even, format := ok }) : gate s needs body = body (s.issuing g) := by
  obtain ⟨ht, hb⟩ := Settled.passes hs { v := vs, s := ss, even := even, format := ok } rfl rfl (by simpa using heven) rfl hok rfl rfl
    rfl rfl
  exact gate_of_issues h (hneeds ▸ ht) (hneeds ▸ hb)

/-- Registers settled apart are settled together. -/
theorem State.Settled.append {s : State} {g : Gang} {vs ss vs' ss' : List Nat} (h : s.Settled g vs ss) (h' : s.Settled g vs' ss') :
    s.Settled g (vs ++ vs') (ss ++ ss') :=
  ⟨List.forall_mem_append.2 ⟨h.1, h'.1⟩, List.forall_mem_append.2 ⟨h.2, h'.2⟩⟩

/-- The registers that must be even are those of pairs, which FP64 alone takes (08 R190). -/
theorem even_of_pairs {code : Nat} {regs : List Nat} (h : code = 8 → ∀ r ∈ regs, r % 2 = 0) :
    ∀ r ∈ (if code = 8 then regs else []), r % 2 = 0 := by
  split
  next h8 => exact h h8
  next => exact List.forall_mem_nil _

/-! ### Instructions that go on with their exceptions (06 R158; 08 R192) -/

@[simp] theorem Gang.setElements_trim (g : Gang) (code r : Nat) (lanes : List Nat) (f : Nat → List Nat) :
    (g.setElements code r lanes f).trim = g.trim := by
  unfold Gang.setElements
  split <;> simp

@[simp] theorem Gang.setLow_trim (g : Gang) (code r : Nat) (lanes : List Nat) (f : Nat → Nat) :
    (g.setLow code r lanes f).trim = g.trim := by
  unfold Gang.setLow
  split <;> simp

/-- An instruction that has left the trim of the gang as it was, none of whose lanes raised an exception with its trap enabled, goes on
with the exceptions of its lanes joined. -/
theorem State.finishFloat_of_disabled {s : State} {g h : Gang} {lanes : List Nat} {f : Nat → Flags} (words : Nat) (htrim : h.trim = g.trim)
    (hen : g.enabledTraps (laneFlags lanes f) = 0) :
    s.finishFloat h words (lanes.map fun l => (l, f l)) = .next (floatDone s h words (laneFlags lanes f)) := by
  have hfl : joinFlags ((lanes.map fun l => (l, f l)).map (·.2)) = laneFlags lanes f := by
    rw [List.map_map]
    rfl
  have hen' : h.enabledTraps (laneFlags lanes f) = 0 := by rwa [Gang.enabledTraps, htrim]
  unfold State.finishFloat
  rw [hfl]
  exact if_pos hen'

/-- Settles O7: each instruction is the element-wise shape with its function, and the shape goes on where no trap is enabled. -/
theorem floatElementResult : Obligations.FloatElementResult := by
  unfold Obligations.FloatElementResult
  intro s g d a b h e he hr r fl hen
  exact ((exec_elementOps s d a b e he).trans (elementwise_of_ready h hr none e.2.2.2)).trans
    (State.finishFloat_of_disabled 1 (Gang.setElements_trim ..) hen)

/-! ### Packing, shuffles and random bits (08 R207, R209, R211) -/

/-- `pack` and `unpack` are the form of two sources with the functions of the statements. -/
theorem exec_packOps (s : State) (d a b : BitVec 7) :
    ∀ e ∈ packOps d a b, exec e.1 s = ternary s false d.toNat a.toNat b.toNat e.2 := by
  simp only [packOps, List.forall_mem_cons]
  and_intros
  iterate 6 (unfold exec; rfl)
  exact List.forall_mem_nil _

/-- Each shuffle by an s register is the one shape with its source lane. -/
theorem exec_shuffles (s : State) (d a b : BitVec 7) :
    ∀ e ∈ shuffles d a b, exec e.1 s = shuffle s d.toNat a.toNat b.toNat e.2 := by
  simp only [shuffles, List.forall_mem_cons]
  and_intros
  iterate 4 (unfold exec; rfl)
  exact List.forall_mem_nil _

/-- Settles O5: packing by the form of two sources, and every shuffle by a body that reads the registers as they stood before its one
write. -/
theorem packShuffleRandom : Obligations.PackShuffleRandom := by
  unfold Obligations.PackShuffleRandom
  intro s g d a b h
  refine ⟨fun hs => ⟨fun e he => ?pack, ?index, ?random⟩, fun hs e he => ?shuffle⟩
  case pack => exact (exec_packOps s d a b e he).trans (ternary_vector h hs e.2)
  case index =>
    unfold exec
    exact gate_of_settled h hs rfl
  case random =>
    unfold exec
    exact gate_of_settled h hs rfl
  case shuffle => exact (exec_shuffles s d a b e he).trans (gate_of_settled h hs rfl)

end Sys2Proof.Machine
end

section
/-!
PROOFS. Reductions and scans: a tree over lane positions folds the present lanes in their order where its operation is associative, and the
running sums of lanes in rising order are the sums over the lanes below (08 R212, R213).
-/
namespace Sys2Proof.Machine
open Sys2Proof.Claim

/-! ### A tree of an associative operation (08 R212) -/

/-- An associative operation on words with a value that leaves each word as it is. -/
structure FoldsFrom (f : Word → Word → Word) (e : Word) : Prop where
  assoc : ∀ x y z, f (f x y) z = f x (f y z)
  left : ∀ x, f e x = x
  right : ∀ x, f x e = x

/-- The operation on words as a reduction combines values, without exceptions. -/
def wordCombine (f : Word → Word → Word) : Combine := fun x y => ((f (BitVec.ofNat 32 x) (BitVec.ofNat 32 y)).toNat, 0)

/-- The word of a lane's value, or the empty reduction's where the lane is absent. -/
def wordOr (e : Word) (x : Option Nat) : Word :=
  match x with
  | none => e
  | some n => BitVec.ofNat 32 n

/-- Two neighbours of a level, joined: a lone value passes up unchanged. -/
def joined (f : Combine) (x y : Option Nat) : Option Nat :=
  match x, y with
  | some a, some b => some (f a b).1
  | some a, none => some a
  | none, b => b

theorem reduceLevel_pair (f : Combine) (x y : Option Nat) (rest : List (Option Nat)) :
    (reduceLevel f (x :: y :: rest)).1 = joined f x y :: (reduceLevel f rest).1 := by
  cases x <;> cases y <;> rfl

/-- A level of the tree halves the number of values. -/
theorem length_reduceLevel (f : Combine) : ∀ xs : List (Option Nat), (reduceLevel f xs).1.length = (xs.length + 1) / 2
  | [] => rfl
  | [_] => by simp [reduceLevel]
  | x :: y :: rest => by
    rw [reduceLevel_pair, List.length_cons, length_reduceLevel f rest, List.length_cons, List.length_cons]
    omega

section
variable {f : Word → Word → Word} {e : Word} (h : FoldsFrom f e)
include h

theorem FoldsFrom.joined (x y : Option Nat) : wordOr e (joined (wordCombine f) x y) = f (wordOr e x) (wordOr e y) := by
  cases x with
  | none => exact (h.left _).symm
  | some a =>
    cases y with
    | none => exact (h.right _).symm
    | some b => simp [Machine.joined, wordOr, wordCombine]

/-- A level of the tree keeps the fold of the values. -/
theorem FoldsFrom.foldl_reduceLevel : ∀ (xs : List (Option Nat)) (acc : Word),
    ((reduceLevel (wordCombine f) xs).1.map (wordOr e)).foldl f acc = (xs.map (wordOr e)).foldl f acc
  | [], _ => rfl
  | [_], _ => rfl
  | x :: y :: rest, acc => by
    rw [reduceLevel_pair, List.map_cons, List.foldl_cons, FoldsFrom.foldl_reduceLevel rest, h.joined, ← h.assoc]
    rfl

theorem FoldsFrom.wordOr_headD {xs : List (Option Nat)} (hxs : xs.length ≤ 1) :
    wordOr e (xs.headD none) = (xs.map (wordOr e)).foldl f e := by
  match xs, hxs with
  | [], _ => rfl
  | [x], _ => exact (h.left _).symm

/-- A tree with levels enough for its values gives the fold of the present ones in their order. -/
theorem FoldsFrom.wordOr_reduceTree {k : Nat} {xs : List (Option Nat)} (hxs : xs.length ≤ 2 ^ k) :
    wordOr e (reduceTree (wordCombine f) k xs).1 = (xs.map (wordOr e)).foldl f e := by
  induction k generalizing xs with
  | zero => exact h.wordOr_headD hxs
  | succ k ih =>
    unfold reduceTree
    split
    next hone => exact h.wordOr_headD hone
    next =>
      rw [pow_succ] at hxs
      exact (ih (by rw [length_reduceLevel]; omega)).trans (h.foldl_reduceLevel xs e)

/-- The tree over the 64 lane positions gives the fold over the lanes of a test. -/
theorem FoldsFrom.reduceTree_lanes (p : Nat → Bool) (v : Nat → Word) :
    wordOr e (reduceTree (wordCombine f) 7 ((List.range 64).map fun l => if p l then some (v l).toNat else none)).1 =
      (((List.range 64).filter p).map v).foldl f e := by
  rw [h.wordOr_reduceTree (by simp), List.map_map, List.foldl_map, List.foldl_map, List.foldl_filter]
  congr 1
  funext x l
  cases hp : p l <;> simp [wordOr, hp, h.right]

end

/-! ### Integer reductions (08 R212) -/

theorem foldsFrom_add : FoldsFrom (fun x y => x + y) 0 := ⟨BitVec.add_assoc, BitVec.zero_add, BitVec.add_zero⟩

theorem toInt_maxSigned (x y : Word) : (maxSigned x y).toInt = max x.toInt y.toInt := by
  unfold maxSigned
  split_ifs <;> omega

theorem toInt_minSigned (x y : Word) : (minSigned x y).toInt = min x.toInt y.toInt := by
  unfold minSigned
  split_ifs <;> omega

/-- The lowest integer is below every word. -/
theorem foldsFrom_maxSigned : FoldsFrom maxSigned 0x80000000 := by
  have hlow : ∀ x : Word, (0x80000000 : Word).toInt ≤ x.toInt := BitVec.le_toInt
  refine ⟨fun x y z => ?_, fun x => ?_, fun x => ?_⟩ <;> apply BitVec.eq_of_toInt_eq
  · simp only [toInt_maxSigned, max_assoc]
  · rw [toInt_maxSigned, max_eq_right (hlow x)]
  · rw [toInt_maxSigned, max_eq_left (hlow x)]

/-- The highest integer is above every word. -/
theorem foldsFrom_minSigned : FoldsFrom minSigned 0x7FFFFFFF := by
  have hhigh : ∀ x : Word, x.toInt ≤ (0x7FFFFFFF : Word).toInt := fun _ => BitVec.toInt_le
  refine ⟨fun x y z => ?_, fun x => ?_, fun x => ?_⟩ <;> apply BitVec.eq_of_toInt_eq
  · simp only [toInt_minSigned, min_assoc]
  · rw [toInt_minSigned, min_eq_right (hhigh x)]
  · rw [toInt_minSigned, min_eq_left (hhigh x)]

theorem reduceInt_eq (s : State) (d a : Nat) (f : Word → Word → Word) (e : Word) :
    reduceInt s d a f e = gate s (fun _ => { v := [a], s := [d] }) fun g =>
      s.finish (g.setS d (wordOr e (reduceTree (wordCombine f) 7 ((List.range 64).map fun l =>
        if g.isEnabled s.group l && g.guard l then some (g.vreg a l).toNat else none)).1)) := by
  unfold reduceInt wordCombine
  refine congrArg (gate s _) (funext fun g => ?_)
  dsimp only
  generalize (reduceTree _ _ _).1 = r
  cases r <;> rfl

/-- An integer reduction gives the fold over the active lanes. -/
theorem reduceInt_of_settled {s : State} {g : Gang} {d a : Nat} {f : Word → Word → Word} {e : Word} (h : s.Issues g)
    (hs : s.Settled g [a] [d]) (hf : FoldsFrom f e) :
    reduceInt s d a f e = .next (scalarDone s g d (((g.active s.group).map fun l => g.vreg a l).foldl f e)) := by
  rw [Gang.active, ← hf.reduceTree_lanes, reduceInt_eq]
  exact gate_of_settled h hs rfl

/-! ### Integer scans (08 R213) -/

/-- A lane's place among lanes that rise holds the sum over the lanes below it, and that sum with its own value. -/
theorem prefixSums_at (v : Nat → Word) {lanes : List Nat} (hlanes : lanes.Pairwise (· < ·)) {l : Nat} (hl : l ∈ lanes) (acc : Word) :
    (prefixSums acc (lanes.map v)).getD (lanes.idxOf l) (0, 0) =
      (((lanes.filter fun m => decide (m < l)).map v).foldl (fun x y => x + y) acc,
        ((lanes.filter fun m => decide (m < l)).map v).foldl (fun x y => x + y) acc + v l) := by
  induction lanes generalizing acc with
  | nil => cases hl
  | cons m rest ih =>
    obtain ⟨hm, hrest⟩ := List.pairwise_cons.1 hlanes
    by_cases hml : m = l
    · subst hml
      have hnone : (m :: rest).filter (fun n => decide (n < m)) = [] := by
        refine List.filter_eq_nil_iff.2 fun n hn => ?_
        obtain rfl | hn := List.mem_cons.1 hn
        · simp
        · simpa using (hm n hn).le
      rw [hnone, List.idxOf_cons_self]
      rfl
    · have hl' : l ∈ rest := (List.mem_cons.1 hl).resolve_left (Ne.symm hml)
      rw [List.idxOf_cons_ne _ hml, List.filter_cons_of_pos (by simpa using hm l hl')]
      exact ih hrest hl' (acc + v m)

theorem Gang.active_rising (g : Gang) (group : Nat) : (g.active group).Pairwise (· < ·) := List.Pairwise.filter _ List.pairwise_lt_range

/-- A write of a v register depends on the values of the lanes written alone. -/
theorem Gang.setV_congr (g : Gang) (r : Nat) {lanes : List Nat} {f f' : Nat → Word} (h : ∀ l ∈ lanes, f l = f' l) :
    g.setV r lanes f = g.setV r lanes f' := by
  have hfold : ∀ c : Cells 32, lanes.foldl (fun acc l => acc.set (r * 64 + l) (f l)) c =
      lanes.foldl (fun acc l => acc.set (r * 64 + l) (f' l)) c := fun c => List.foldl_ext _ _ c fun acc l hl => by rw [h l hl]
  unfold Gang.setV Cells.setAll
  rw [hfold]

/-- The sum over the active lanes below a lane. -/
def sumBelow (s : State) (g : Gang) (a l : Nat) : Word :=
  (((g.active s.group).filter fun m => decide (m < l)).map fun m => g.vreg a m).foldl (fun x y => x + y) 0

/-- An integer scan picks from the sum below each active lane, and that sum with the lane's own value. -/
theorem scanInt_of_settled {s : State} {g : Gang} {d a : Nat} (h : s.Issues g) (hs : s.Settled g [d, a] []) (pick : Word × Word → Word) :
    scanInt s d a pick = .next (vectorDone s g d fun l => pick (sumBelow s g a l, sumBelow s g a l + g.vreg a l)) := by
  refine (gate_of_settled h hs rfl).trans ?_
  refine congrArg (fun h => (.next (s.advance h 1) : Result)) (Gang.setV_congr _ _ fun l hl => ?_)
  exact congrArg pick (prefixSums_at (fun m => g.vreg a m) (g.active_rising s.group) hl 0)

theorem integerReduceAndScan : IntegerReduceAndScan := by
  unfold IntegerReduceAndScan
  intro s g d a h
  simp only [← maxSigned_eq, ← minSigned_eq]
  dsimp only [exec]
  exact ⟨fun hs => ⟨reduceInt_of_settled h hs foldsFrom_add, reduceInt_of_settled h hs foldsFrom_maxSigned,
    reduceInt_of_settled h hs foldsFrom_minSigned⟩, fun hs => ⟨scanInt_of_settled h hs _, scanInt_of_settled h hs _⟩⟩

/-! ### Floating-point reductions and scans (08 R212, R213) -/

/-- Each floating-point reduction is the one shape with its combination and the value where no lane is active. -/
theorem exec_floatReductions (s : State) (d a : BitVec 7) :
    ∀ e ∈ floatReductions d a, exec e.1 s = reduceFloat s d.toNat a.toNat e.2.1 e.2.2 := by
  simp only [floatReductions, List.forall_mem_cons]
  and_intros
  iterate 3 (unfold exec; rfl)
  exact List.forall_mem_nil _

/-- The values at the lane positions, by the test of the active lanes and by their list. -/
theorem presentLanes_eq (g : Gang) (group : Nat) (v : Nat → Nat) :
    ((List.range 64).map fun l => if g.isEnabled group l && g.guard l then some (v l) else none) =
      (List.range 64).map fun l => if l ∈ g.active group then some (v l) else none := by
  refine List.map_congr_left fun l hl => if_congr ?_ rfl rfl
  rw [Gang.active, List.mem_filter, and_iff_right hl]

/-- A floating-point reduction over active lanes, none of whose exceptions is enabled (08 R212). -/
theorem reduceFloat_of_ready {s : State} {g : Gang} {d a : Nat} (h : s.Issues g) (hr : ElementsReady s g arithmeticCode [a])
    (hs : s.Settled g [] (if s.elementCode g = 8 then [d, d + 1] else [d])) (hd : s.elementCode g = 8 → d % 2 = 0)
    (f : Nat → Bool → Combine) (empty : Nat → Nat) :
    let code := s.elementCode g
    let lanes := g.active s.group
    let r (j : Nat) : Option Nat × Flags := reduceTree (f code (g.trim.getLsbD 11)) 7 ((List.range 64).map fun l =>
      if l ∈ lanes then some (g.element code a l j) else none)
    let parts := (List.range (elementCount code)).map r
    let x := joinElements code (parts.map fun p => p.1.getD (empty code))
    let fl := laneFlags lanes fun _ => joinFlags (parts.map (·.2))
    g.enabledTraps fl = 0 → reduceFloat s d a f empty = .next (floatDone s (if code = 8 then (s.issuing g).setSpair d x
      else (s.issuing g).setS d (lowWord x)) 1 fl) := by
  intro code lanes r parts x fl hen
  have heven : s.elementCode g = 8 → ∀ r ∈ [d, a], r % 2 = 0 := fun h8 => List.forall_mem_cons.2 ⟨hd h8, hr.even h8⟩
  unfold reduceFloat
  simp only [presentLanes_eq]
  exact (gate_of_accepted h ⟨hr.settled.1, hs.2⟩ (even_of_pairs heven) hr.accepted rfl).trans
    (State.finishFloat_of_disabled 1 (by split <;> simp) hen)

/-- `vscan.fadd` (08 R213). -/
theorem execVscanFadd_of_ready {s : State} {g : Gang} {d a : BitVec 7} (h : s.Issues g)
    (hr : ElementsReady s g arithmeticCode [d.toNat, a.toNat]) :
    let code := s.elementCode g
    let lanes := g.active s.group
    let parts := (List.range (elementCount code)).map fun j =>
      scanValues (combineAdd code (g.trim.getLsbD 11)) none (lanes.map fun l => g.element code a.toNat l j)
    let fl := laneFlags lanes fun _ => joinFlags (parts.map (·.2))
    g.enabledTraps fl = 0 →
      execVscanFadd d a s = .next (floatDone s ((s.issuing g).setElements code d.toNat lanes fun l =>
        parts.map fun p => p.1.getD (lanes.idxOf l) 0) 1 fl) := by
  intro code lanes parts fl hen
  exact (gate_of_accepted h hr.settled (even_of_pairs hr.even) hr.accepted rfl).trans
    (State.finishFloat_of_disabled 1 (Gang.setElements_trim ..) hen)

theorem floatReduceAndScan : FloatReduceAndScan := by
  unfold FloatReduceAndScan
  intro s g d a h code flush lanes
  refine ⟨fun hr hs hd e he => ?reduce, fun hr => ?scan⟩
  case reduce =>
    intro r parts x fl hen
    exact (exec_floatReductions s d a e he).trans (reduceFloat_of_ready h hr hs hd e.2.1 e.2.2 hen)
  case scan =>
    intro parts fl hen
    unfold exec
    exact execVscanFadd_of_ready h hr hen

/-- Settles O6: integer operations fold the active lanes whatever the tree, sums of lanes are running sums, and floating-point values go
through the tree and the scan of the statements. -/
theorem reduceAndScan : Obligations.ReduceAndScan := ⟨integerReduceAndScan, floatReduceAndScan⟩

end Sys2Proof.Machine
end

section
/-!
PROOFS. Floating-point comparisons, classes and conversions: the instructions' shapes, the order of values, conversion to an integer by the
split at the point, conversion between formats by the class of the value, and class masks and histogram bins by the fields of the bits (06
R145, R146, R154, R155, R159, R163; 08 R201-R205).
-/
namespace Sys2Proof.Machine
open Sys2Proof.Claim

/-! ### Comparisons and classes (08 R201, R202) -/

/-- Each float comparison is the one shape with the statements' use of NaNs and order. -/
theorem exec_floatComparisons_eq (s : State) (d : BitVec 4) (a b : BitVec 7) :
    ∀ e ∈ floatComparisons d a b, exec e.1 s = floatCompare s d.toNat a.toNat b.toNat e.2.1 e.2.2 := by
  have hne : (fun (u : Bool) (c : Int) => u || c != 0) = fun u c => u || decide (c ≠ 0) := by
    funext u c
    rw [bne, beq_eq_decide, decide_not]
  simp only [floatComparisons, List.forall_mem_cons, ← hne]
  and_intros
  iterate 8 (unfold exec; rfl)
  exact List.forall_mem_nil _

/-- A float comparison writes the predicate of its order in the active lanes (08 R201). -/
theorem floatCompare_of_ready {s : State} {g : Gang} {d a b : Nat} (h : s.Issues g) (hr : ElementsReady s g arithmeticCode [a, b])
    (strict : Bool) (f : Bool → Int → Bool) :
    let code := s.elementCode g
    let val (r l : Nat) : Num := operand code (g.trim.getLsbD 11) (g.element code r l 0)
    let nan (l : Nat) : Bool := isNaN (val a l) || isNaN (val b l)
    let fl := laneFlags (g.active s.group) fun l =>
      if strict && nan l then 1 else nanFlags code [g.element code a l 0, g.element code b l 0]
    g.enabledTraps fl = 0 →
      floatCompare s d a b strict f = .next (floatDone s ((s.issuing g).setP d (g.active s.group) fun l =>
        f (nan l) (compareNum (val a l) (val b l))) 1 fl) := by
  intro code val nan fl hen
  exact (gate_of_accepted h hr.settled (even_of_pairs hr.even) hr.accepted rfl).trans
    (State.finishFloat_of_disabled 1 (Gang.setP_trim ..) hen)

/-- `fclass` writes the class masks of the elements of a lane, the second in the upper half (08 R202). -/
theorem execFclass_of_ready {s : State} {g : Gang} {d a : BitVec 7} (h : s.Issues g) (hr : ElementsReady s g arithmeticCode [a.toNat])
    (hd : s.Settled g [d.toNat] []) :
    execFclass d a s = .next (vectorDone s g d.toNat fun l =>
      let c (j : Nat) : Nat := classMask (s.elementCode g) (g.element (s.elementCode g) a.toNat l j)
      BitVec.ofNat 32 (c 0 + (if elementCount (s.elementCode g) = 2 then 65536 * c 1 else 0))) := by
  refine (gate_of_accepted h (hd.append hr.settled) (even_of_pairs hr.even) hr.accepted rfl).trans ?_
  refine congrArg (fun f => (.next (vectorDone s g d.toNat f) : Result)) (funext fun l => ?_)
  by_cases h2 : elementCount (s.elementCode g) = 2
  · exact (if_pos h2).trans (by simp only [if_pos h2]; rfl)
  · exact (if_neg h2).trans (by simp only [if_neg h2]; rfl)

theorem floatCompareClass : FloatCompareClass := by
  unfold FloatCompareClass
  intro s g a b h code flush val
  refine ⟨fun d hr e he => ?compare, fun d hr hd => ?classes⟩
  case compare =>
    intro nan fl hen
    exact (exec_floatComparisons_eq s d a b e he).trans (floatCompare_of_ready h hr e.2.1 e.2.2 hen)
  case classes =>
    unfold exec
    exact execFclass_of_ready h hr hd

/-- Numbers compare as their reals do, and infinities lie beyond them. -/
theorem compareOrder : CompareOrder := by
  unfold CompareOrder
  exact ⟨fun a b m n e f => ⟨compareNum_num a b m n e f, rfl, rfl⟩, rfl, rfl, rfl, rfl⟩

/-! ### The shapes of conversions (08 R203-R205) -/

section
variable {s : State} {g : Gang} (h : s.Issues g)
include h

theorem execCvt_of_settled {d a : BitVec 7} {f : BitVec 3} :
    let code := s.elementCode g
    let src := ((s.slotWord g f.toNat).extractLsb 3 0).toNat
    code ≤ 8 → src ≤ 8 → s.Settled g (elementRegs code d.toNat ++ elementRegs src a.toNat) [] →
    (code = 8 → d.toNat % 2 = 0) → (src = 8 → a.toNat % 2 = 0) →
    let r (l : Nat) : Nat × Flags := convertElement (s.fpEnv g l none) src code (g.lowElement src a.toNat l)
    let fl := laneFlags (g.active s.group) fun l => (r l).2
    g.enabledTraps fl = 0 →
      execCvt d a f s = .next (floatDone s ((s.issuing g).setLow code d.toNat (g.active s.group) fun l => (r l).1) 1 fl) := by
  intro code src hcode hsrc hs hd ha r fl hen
  have heven : ∀ x ∈ (if code = 8 then [d.toNat] else []) ++ (if src = 8 then [a.toNat] else []), x % 2 = 0 :=
    List.forall_mem_append.2 ⟨even_of_pairs (by simpa using hd), even_of_pairs (by simpa using ha)⟩
  have hok : (decide (code ≤ 8) && decide (src ≤ 8)) = true := by simp [hcode, hsrc]
  unfold execCvt cvtWith
  exact (gate_of_accepted h hs heven hok rfl).trans (State.finishFloat_of_disabled 1 (Gang.setLow_trim ..) hen)

theorem convertToInt_of_ready {d a : Nat} (signed : Bool) (hr : ElementsReady s g floatCode [a]) (hd : s.Settled g [d] []) :
    let code := s.elementCode g
    let r (l : Nat) : Word × Flags := toInteger signed (s.fpEnv g l none).mode ((s.fpEnv g l none).draw 0)
      ((s.fpEnv g l none).read code (g.lowElement code a l)) (nanFlags code [g.lowElement code a l])
    let fl := laneFlags (g.active s.group) fun l => (r l).2
    g.enabledTraps fl = 0 →
      convertToInt s signed d a = .next (floatDone s ((s.issuing g).setV d (g.active s.group) fun l => (r l).1) 1 fl) := by
  intro code r fl hen
  exact (gate_of_accepted h (hd.append hr.settled) (even_of_pairs hr.even) hr.accepted rfl).trans
    (State.finishFloat_of_disabled 1 (Gang.setV_trim ..) hen)

theorem convertFromInt_of_ready {d a : Nat} (signed : Bool) (hr : ElementsReady s g floatCode [d]) (ha : s.Settled g [a] []) :
    let r (l : Nat) : Nat × Flags := integerValue s g none signed a l
    let fl := laneFlags (g.active s.group) fun l => (r l).2
    g.enabledTraps fl = 0 → convertFromInt none s signed d a =
      .next (floatDone s ((s.issuing g).setLow (s.elementCode g) d (g.active s.group) fun l => (r l).1) 1 fl) := by
  intro r fl hen
  exact (gate_of_accepted h (ha.append hr.settled) (even_of_pairs hr.even) hr.accepted rfl).trans
    (State.finishFloat_of_disabled 1 (Gang.setLow_trim ..) hen)

end

theorem exec_cvti (signed : Bool) (d a : BitVec 7) (s : State) :
    exec (if signed then .cvti d a else .cvtiU d a) s = convertToInt s signed d.toNat a.toNat := by
  cases signed <;> (unfold exec; rfl)

theorem exec_cvtf (signed : Bool) (d a : BitVec 7) (s : State) :
    exec (if signed then .cvtf d a else .cvtfU d a) s = convertFromInt none s signed d.toNat a.toNat := by
  cases signed <;> (unfold exec; rfl)

theorem conversionResult : ConversionResult := by
  unfold ConversionResult
  intro s g d a h code lanes
  refine ⟨fun f => ?formats, fun signed hr hd => ?toInteger, fun signed hr ha => ?fromInteger⟩
  case formats =>
    intro src hcode hsrc hs hd ha r hen
    unfold exec
    exact execCvt_of_settled h hcode hsrc hs hd ha hen
  case toInteger =>
    intro r hen
    exact (exec_cvti signed d a s).trans (convertToInt_of_ready h signed hr hd hen)
  case fromInteger =>
    intro r hen
    exact (exec_cvtf signed d a s).trans (convertFromInt_of_ready h signed hr ha hen)

/-! ### Conversion to an integer (06 R154, R155; 08 R204) -/

/-- Rounding to an integer takes a neighbour at the point, and is inexact where something is discarded. -/
theorem roundNum_integer {m : Nat} (hm : m ≠ 0) (mode r : Nat) (neg : Bool) (e : Int) :
    roundNum 6 mode r (.num neg m e false) =
      (.num neg ((splitAt m e 0 false).taken mode r neg) 0 false, if (splitAt m e 0 false).exact then 0 else 16) := by
  simp only [roundNum, hm, decide_false, Bool.false_and, Bool.false_eq_true, ↓reduceIte, show isInteger 6 = true from rfl]
  rfl

/-- The neighbour taken is the value itself just where nothing is discarded. -/
theorem Discards.taken_eq_iff {p : Split} {t : ℚ} (h : Discards p t) (mode r : Nat) (neg : Bool) :
    (p.taken mode r neg : ℚ) = p.lo + t ↔ t = 0 := by
  constructor
  · intro heq
    obtain hc | hc := p.taken_cases mode r neg <;> rw [hc] at heq
    · linarith
    · push_cast at heq
      linarith [h.lt_one]
  · intro h0
    rw [Split.taken_of_exact (h.exact_iff.2 h0), h0, add_zero]

/-- `k` is what a mode takes of the magnitude `v`: itself where it is an integer, and one of the integers beside it where it is none. -/
def IntegerChosen (mode r : Nat) (neg : Bool) (v : ℚ) (k : Nat) : Prop :=
  (k : ℚ) = v ∨ (∀ j : Nat, (j : ℚ) ≠ v) ∧
    ∃ lo : Nat, (lo : ℚ) < v ∧ v < (lo : ℚ) + 1 ∧ picks mode r neg lo v ((lo : ℚ) + 1) k

/-- Rounding to an integer gives the magnitude chosen, and is inexact where that is another. -/
theorem roundNum_integerChosen {mode : Nat} (hmode : mode < 6) (r : Nat) (neg : Bool) (m : Nat) (e : Int) :
    ∃ k, IntegerChosen mode r neg ((m : ℚ) * 2 ^ e) k ∧
      (roundNum 6 mode r (.num neg m e false)).1.toInt = (if neg then -(k : Int) else k) ∧
      (roundNum 6 mode r (.num neg m e false)).2 = if (k : ℚ) = (m : ℚ) * 2 ^ e then 0 else 16 := by
  by_cases hm : m = 0
  · subst hm
    have hround : roundNum 6 mode r (.num neg 0 e false) = (.num neg 0 e false, 0) := rfl
    refine ⟨0, .inl (by simp), ?_, ?_⟩
    · simp [hround, Num.toInt]
    · simp [hround]
  obtain ⟨t, ht, hv⟩ := splitAt_discards (m := m) (e := e) (q := 0) (more := false) ⟨hm, rfl⟩ nofun
  rw [roundNum_integer hm]
  set p := splitAt m e 0 false
  simp only [zpow_zero, mul_one] at hv
  refine ⟨p.taken mode r neg, ?chosen, ?value, ?inexact⟩
  case value => simp [Num.toInt]
  case chosen =>
    by_cases h0 : t = 0
    · exact .inl (hv ▸ (ht.taken_eq_iff mode r neg).2 h0)
    have hpos : 0 < t := lt_of_le_of_ne ht.nonneg (Ne.symm h0)
    have hlt := ht.lt_one
    refine .inr ⟨fun j hj => ?_, p.lo, by linarith, by linarith, ?_⟩
    · rw [hv] at hj
      have h1 : p.lo < j := by exact_mod_cast (show (p.lo : ℚ) < j by linarith)
      have h2 : j < p.lo + 1 := by exact_mod_cast (show (j : ℚ) < p.lo + 1 by linarith)
      omega
    · have hpicks := ht.picks_taken h0 hmode r neg 0
      simp only [zpow_zero, mul_one, ← hv, Nat.cast_add, Nat.cast_one] at hpicks
      exact hpicks
  case inexact =>
    rw [hv]
    exact if_congr (ht.exact_iff.trans (ht.taken_eq_iff mode r neg).symm) rfl rfl

theorem toInteger_num (signed : Bool) (mode r : Nat) (own : Flags) (neg : Bool) (m : Nat) (e : Int) :
    toInteger signed mode r (.num neg m e false) own =
      let low : Int := if signed then -2147483648 else 0
      let high : Int := if signed then 2147483647 else 4294967295
      let v := (roundNum 6 mode r (.num neg m e false)).1.toInt
      if high < v then (BitVec.ofInt 32 high, 1) else if v < low then (BitVec.ofInt 32 low, 1)
      else (BitVec.ofInt 32 v, own ||| (roundNum 6 mode r (.num neg m e false)).2) := rfl

theorem integerFromFloat : IntegerFromFloat := by
  unfold IntegerFromFloat
  intro signed mode r own low high
  refine ⟨fun neg => ⟨rfl, rfl⟩, fun neg m e hmode => ?_⟩
  obtain ⟨k, hk, hvalue, hflags⟩ := roundNum_integerChosen hmode r neg m e
  refine ⟨k, hk, ?_⟩
  rw [toInteger_num, hvalue, hflags]

/-! ### Conversion between formats (06 R159; 08 R203) -/

theorem nanFlags_of_signalling {code bits : Nat} (h : classOf code bits = .signalling) : nanFlags code [bits] = 1 := by
  simp [nanFlags, isSignalling, h]

theorem nanFlags_single {code bits : Nat} (h : classOf code bits ≠ .signalling) : nanFlags code [bits] = 0 :=
  nanFlags_of_not_signalling (by simpa using h)

/-- A NaN is converted as the canonical one, every other value as it stands. -/
def quieted (x : Num) : Num :=
  match x with
  | .nan _ => .canonical
  | x => x

/-- A conversion that may not keep the bits rounds the value read. -/
theorem convertElement_of_rounded {env : FpEnv} {src dst bits : Nat} {x : Num} (hx : env.read src bits = x)
    (h : ¬(src = dst ∧ env.modifier = none) ∨ classOf src bits = .signalling) :
    convertElement env src dst bits = env.result dst 0 (quieted x) (nanFlags src [bits]) := by
  subst hx
  refine if_neg fun hkept => ?_
  simp only [Bool.and_eq_true, decide_eq_true_eq, beq_iff_eq, Option.isNone_iff_eq_none] at hkept
  obtain ⟨⟨hsame, hown⟩, hmod⟩ := hkept
  obtain hnot | hsig := h
  · exact hnot ⟨hsame, hmod⟩
  · rw [nanFlags_of_signalling hsig] at hown
    exact absurd hown (by decide)

theorem format_cases {code : Nat} (h : code ≤ 8) : isFloat code = true ∨ code = 6 ∨ code = 7 := by
  simp only [isFloat, Bool.or_eq_true, decide_eq_true_eq, beq_iff_eq]
  omega

theorem classOf_integer {code bits : Nat} (h : code = 6 ∨ code = 7) : classOf code bits = .zero ∨ classOf code bits = .normal := by
  obtain rfl | rfl := h <;> exact ite_eq_or_eq ..

/-- A finite value reads as a number that stands for it. -/
theorem exactly_decodeNum_of_finite {code bits : Nat} (hc : code ≤ 8) (h : FiniteBits code bits) :
    Exactly (decodeNum code bits) (valueOf code bits) := by
  obtain hf | rfl | rfl := format_cases hc
  · exact exactly_decodeNum hf h
  · exact ⟨_, _, _, rfl, rfl⟩
  · exact ⟨_, _, _, rfl, rfl⟩

theorem quieted_of_exactly {x : Num} {v : ℚ} (h : Exactly x v) : quieted x = x := by
  obtain ⟨neg, m, e, rfl, -⟩ := h
  rfl

/-- A value of a class that integers do not have is of a floating-point format. -/
theorem isFloat_of_class {code bits : Nat} {c : NumClass} (hc : code ≤ 8) (hclass : classOf code bits = c) (h0 : c ≠ .zero)
    (h1 : c ≠ .normal) : isFloat code = true := by
  refine (format_cases hc).resolve_right fun hi => ?_
  obtain h | h := classOf_integer (bits := bits) hi
  · exact h0 (hclass.symm.trans h)
  · exact h1 (hclass.symm.trans h)

/-- An operand that is no subnormal reads as its bits stand for. -/
theorem FpEnv.read_of_class (env : FpEnv) {code bits : Nat} {c : NumClass} (hclass : classOf code bits = c) (hc : c ≠ .subnormal) :
    env.read code bits = decodeNum code bits := by
  refine if_neg fun hcond => hc ?_
  simp only [Bool.and_eq_true, beq_iff_eq] at hcond
  exact hclass.symm.trans hcond.2

theorem convertedElement : ConvertedElement := by
  unfold ConvertedElement
  intro env src dst bits hsrc hdst flushed kept
  refine ⟨?kept, ?flushed, ?finite, ?infinite, ?quiet, ?signalling⟩
  case kept =>
    rintro ⟨hsame, hmod⟩ hclass
    refine if_pos ?_
    rw [nanFlags_single hclass, hmod, decide_eq_true hsame]
    rfl
  case flushed =>
    rintro hnot ⟨hflush, h5, -, -, hsub⟩
    have hf := isFloat_of_class hsrc hsub (by decide) (by decide)
    have hread : env.read src bits = .num (signOf src bits) 0 0 false := by
      simp [FpEnv.read, operand, hflush, hsub, flushable, hf, h5, Num.zero]
    rw [convertElement_of_rounded hread (.inl hnot), nanFlags_single (by simp [hsub])]
    rfl
  case finite =>
    intro hnot hflushed hfinite
    have hexact := exactly_decodeNum_of_finite hsrc hfinite
    have hread : env.read src bits = decodeNum src bits := by
      refine if_neg fun hcond => hflushed ?_
      simp only [Bool.and_eq_true, beq_iff_eq, flushable, bne_iff_ne] at hcond
      obtain ⟨⟨hflush, hf, h5⟩, hsub⟩ := hcond
      exact ⟨hflush, h5, (code_ne_of_isFloat hf).1, (code_ne_of_isFloat hf).2, hsub⟩
    refine ⟨_, hexact, ?_⟩
    rw [convertElement_of_rounded hread (.inl hnot), nanFlags_single (finiteBits_not_signalling hfinite), quieted_of_exactly hexact]
  case infinite =>
    intro hnot hclass
    have hdecoded := decodeNum_of_infinite (isFloat_of_class hsrc hclass (by decide) (by decide)) hclass
    rw [convertElement_of_rounded (env.read_of_class hclass (by decide)) (.inl hnot), hdecoded, nanFlags_single (by simp [hclass])]
    rfl
  case quiet =>
    intro hnot hclass
    have hdecoded := decodeNum_of_nan (isFloat_of_class hsrc hclass (by decide) (by decide)) (.inr hclass)
    rw [convertElement_of_rounded (env.read_of_class hclass (by decide)) (.inl hnot), hdecoded, nanFlags_single (by simp [hclass])]
    rfl
  case signalling =>
    intro hclass
    have hdecoded := decodeNum_of_nan (isFloat_of_class hsrc hclass (by decide) (by decide)) (.inl hclass)
    rw [convertElement_of_rounded (env.read_of_class hclass (by decide)) (.inr hclass), hdecoded, nanFlags_of_signalling hclass]
    rfl

/-! ### Class masks and histogram bins (06 R145, R146, R163; 08 R202) -/

section
variable {code bits : Nat}

/-- The sign is the highest bit. -/
theorem signOf_iff (hf : isFloat code = true) (hb : bits < 2 ^ formatWidth code) :
    signOf code bits = true ↔ 2 ^ (formatWidth code - 1) ≤ bits := by
  obtain ⟨h6, h7⟩ := code_ne_of_isFloat hf
  rw [formatWidth_eq hf, pow_succ] at hb
  rw [formatWidth_eq hf, Nat.add_sub_cancel, signOf, if_neg h6, if_neg h7, beq_iff_eq]
  have hlt : bits / 2 ^ (fractionBits code + exponentBits code) < 2 := Nat.div_lt_of_lt_mul hb
  have hle : 1 ≤ bits / 2 ^ (fractionBits code + exponentBits code) ↔ 2 ^ (fractionBits code + exponentBits code) ≤ bits := by
    rw [Nat.le_div_iff_mul_le (Nat.two_pow_pos _), one_mul]
  rw [← hle]
  generalize bits / 2 ^ (fractionBits code + exponentBits code) = q at hlt ⊢
  omega

/-- The class of a floating-point value by its exponent field and its fraction. -/
theorem classOf_float (hf : isFloat code = true) {ex fr : Nat} (hex : bits / 2 ^ fractionBits code % 2 ^ exponentBits code = ex)
    (hfr : bits % 2 ^ fractionBits code = fr) :
    classOf code bits =
      if code = 5 ∧ bits % 16 = 8 then .zero
      else if ex = 0 then (if fr = 0 then .zero else .subnormal)
      else if code = 5 then .normal
      else if ex = 2 ^ exponentBits code - 1 then
        if code = 3 then (if fr = 7 then .quiet else .normal)
        else if fr = 0 then .infinite
        else if fr / 2 ^ (fractionBits code - 1) = 1 then .quiet else .signalling
      else .normal := by
  subst hex hfr
  unfold classOf
  simp only [isInteger_of_isFloat hf, Bool.false_eq_true, ↓reduceIte]

/-- A fraction is a quiet NaN's just where its highest bit is set. -/
theorem quiet_iff {f fr : Nat} (hf : f ≠ 0) (h : fr < 2 ^ f) : fr / 2 ^ (f - 1) = 1 ↔ ¬fr < 2 ^ (f - 1) := by
  obtain ⟨n, rfl⟩ := Nat.exists_eq_succ_of_ne_zero hf
  have hpos := Nat.two_pow_pos n
  rw [Nat.succ_eq_add_one, Nat.pow_succ] at h
  rw [Nat.succ_eq_add_one, Nat.add_sub_cancel, Nat.div_eq_iff hpos]
  omega

theorem classMask_eq_classBits (hc : arithmeticCode code = true) (hb : bits < 2 ^ formatWidth code) :
    classMask code bits = classBits code bits := by
  have hf := isFloat_of_arithmeticCode hc
  have hcode : code ≠ 5 ∧ code ≠ 3 ∧ fractionBits code ≠ 0 ∧ 0 ≠ 2 ^ exponentBits code - 1 := by
    obtain rfl | rfl | rfl | rfl := arithmeticCode_cases hc <;> decide
  obtain ⟨h5, h3, hwide, htop0⟩ := hcode
  have hfrlt : bits % 2 ^ fractionBits code < 2 ^ fractionBits code := Nat.mod_lt _ (Nat.two_pow_pos _)
  unfold classMask classBits
  simp only [← signOf_iff hf hb, classOf_float hf rfl rfl, h5, h3, false_and, ↓reduceIte, quiet_iff hwide hfrlt]
  generalize bits / 2 ^ fractionBits code % 2 ^ exponentBits code = ex
  by_cases h0 : ex = 0
  · by_cases hfr : bits % 2 ^ fractionBits code = 0 <;> simp [h0, hfr, htop0]
  by_cases htop : ex = 2 ^ exponentBits code - 1
  · rw [if_neg h0, if_pos htop]
    by_cases hfr : bits % 2 ^ fractionBits code = 0
    · simp [htop, hfr]
    · by_cases hq : bits % 2 ^ fractionBits code < 2 ^ (fractionBits code - 1) <;> simp [htop, hfr, hq]
  · simp [h0, htop]

/-- The bin of a normal value by its exponent field. -/
def normalBin (code ex : Nat) : Nat := (min (max ((ex : Int) - bias code) (-32)) 31 + 32).toNat

/-- The bin of a value of a class whose exponent field is `ex`. -/
def classBin (code ex : Nat) (c : NumClass) : Nat :=
  match c with
  | .zero => 64
  | .subnormal => 65
  | .infinite => 66
  | .normal => normalBin code ex
  | _ => 67

theorem binOf_float (hf : isFloat code = true) :
    binOf code bits = classBin code (bits / 2 ^ fractionBits code % 2 ^ exponentBits code) (classOf code bits) :=
  (if_neg (by simp [isInteger_of_isFloat hf])).trans (by cases classOf code bits <;> rfl)

theorem binOf_eq_exponentBin (hf : isFloat code = true) (hb : bits < 2 ^ formatWidth code) : binOf code bits = exponentBin code bits := by
  rw [binOf_float hf, classOf_float hf rfl rfl]
  have htop0 : 2 ^ exponentBits code - 1 ≠ 0 := by
    obtain rfl | rfl | rfl | rfl | rfl | rfl | rfl := isFloat_cases hf <;> decide
  unfold exponentBin
  dsimp only
  by_cases hesc : code = 5 ∧ bits % 16 = 8
  · obtain ⟨rfl, h8⟩ := hesc
    obtain rfl : bits = 8 := (Nat.mod_eq_of_lt hb).symm.trans h8
    decide
  rw [if_neg hesc]
  generalize bits / 2 ^ fractionBits code % 2 ^ exponentBits code = ex
  generalize bits % 2 ^ fractionBits code = fr
  by_cases h0 : ex = 0
  · by_cases hfr : fr = 0 <;> simp [h0, hfr, classBin]
  by_cases h5 : code = 5
  · simp [h0, h5, classBin, normalBin]
  by_cases htop : ex = 2 ^ exponentBits code - 1
  · by_cases h3 : code = 3
    · subst h3
      by_cases h7 : fr = 7 <;> simp [htop0, htop, h7, classBin, normalBin]
    · by_cases hfr : fr = 0
      · simp [htop0, h5, htop, h3, hfr, classBin]
      · by_cases hq : fr / 2 ^ (fractionBits code - 1) = 1 <;> simp [htop0, h5, htop, h3, hfr, hq, classBin]
  · simp [h0, h5, htop, classBin, normalBin]

theorem signOf_integer (hc : code = 6 ∨ code = 7) :
    signOf code bits = decide (2 ^ (formatWidth code - 1) ≤ bits % 2 ^ formatWidth code) := by
  obtain rfl | rfl := hc <;> rfl

/-- An integer's magnitude, whose bits are those of the two's complement. -/
theorem decodeNum_integer (hc : code = 6 ∨ code = 7) : decodeNum code bits = .num (signOf code bits)
    (if signOf code bits then 2 ^ formatWidth code - bits % 2 ^ formatWidth code else bits % 2 ^ formatWidth code) 0 false := by
  obtain rfl | rfl := hc <;> rfl

/-- An integer is binned by its magnitude. -/
theorem binOf_integer (hc : code = 6 ∨ code = 7) (hb : bits < 2 ^ formatWidth code) :
    let v : Nat := if bits < 2 ^ (formatWidth code - 1) then bits else 2 ^ formatWidth code - bits
    binOf code bits = if v = 0 then 64 else v.log2 + 32 := by
  intro v
  have hv : decodeNum code bits = .num (signOf code bits) v 0 false := by
    rw [decodeNum_integer hc, signOf_integer hc, Nat.mod_eq_of_lt hb]
    by_cases hlt : bits < 2 ^ (formatWidth code - 1) <;> simp [v, hlt]
  have hi : isInteger code = true := by obtain rfl | rfl := hc <;> rfl
  simp only [binOf, hi, ↓reduceIte, hv]

end

theorem classesAndBins : ClassesAndBins := by
  unfold ClassesAndBins
  exact ⟨fun _ _ hc hb => classMask_eq_classBits hc hb, fun _ _ hf hb => binOf_eq_exponentBin hf hb,
    fun _ _ hc hb => binOf_integer hc hb⟩

/-- Settles O10: the shapes of the instructions, and beside them what order, integer, conversion, class and bin are of a value. -/
theorem compareClassConvert : Obligations.CompareClassConvert :=
  ⟨floatCompareClass, compareOrder, conversionResult, integerFromFloat, convertedElement, classesAndBins⟩

end Sys2Proof.Machine
end

section
/-!
PROOFS. Scaling, dot products and histograms: the shapes of the instructions, the sum of a dot product by induction on its products, and
counters in scratchpad, whose bytes lie apart (06 R144, R158, R163; 08 R200, R208, R210).
-/
namespace Sys2Proof.Machine
open Sys2Proof.Claim

/-! ### `fscale` and the dot products (08 R200, R208) -/

theorem execFscale_of_ready {s : State} {g : Gang} {d a b : BitVec 7} (h : s.Issues g)
    (hr : ElementsReady s g arithmeticCode [d.toNat, a.toNat]) (hb : s.Settled g [b.toNat] []) :
    let lanes := g.active s.group
    let r := scaledValues s g none a.toNat b.toNat
    let fl := laneFlags lanes fun l => joinFlags ((r l).map (·.2))
    g.enabledTraps fl = 0 → execFscale d a b s =
      .next (floatDone s ((s.issuing g).setElements (s.elementCode g) d.toNat lanes fun l => (r l).map (·.1)) 1 fl) := by
  intro lanes r fl hen
  unfold execFscale fscaleWith
  exact (gate_of_accepted h (hr.settled.append hb) (even_of_pairs hr.even) hr.accepted rfl).trans
    (State.finishFloat_of_disabled 1 (Gang.setElements_trim ..) hen)

theorem dotWith_of_settled {s : State} {g : Gang} {accept : Nat → Bool} {d a b : Nat} (h : s.Issues g) (hs : s.Settled g [d, a, b] [])
    (hok : accept (s.elementCode g) = true) :
    let lanes := g.active s.group
    let r := dotValue s g none d a b
    let fl := laneFlags lanes fun l => (r l).2
    g.enabledTraps fl = 0 → dotWith none accept d a b s =
      .next (floatDone s ((s.issuing g).setV d lanes fun l => BitVec.ofNat 32 (r l).1) 1 fl) := by
  intro lanes r fl hen
  exact (gate_of_accepted h hs (List.forall_mem_nil _) hok rfl).trans (State.finishFloat_of_disabled 1 (Gang.setV_trim ..) hen)

/-- Each dot product is the one shape, and accepts its element types. -/
theorem exec_dots (s : State) (d a b : BitVec 7) :
    ∀ e ∈ dots d a b, ∃ accept, exec e.1 s = dotWith none accept d.toNat a.toNat b.toNat s ∧ ∀ code ∈ e.2, accept code = true := by
  simp only [dots, List.forall_mem_cons]
  refine ⟨⟨dot2Code, ?_, by decide⟩, ⟨dot4Code, ?_, by decide⟩, ⟨dot8Code, ?_, by decide⟩, List.forall_mem_nil _⟩
  all_goals (unfold exec; rfl)

theorem scaleAndDotResult : ScaleAndDotResult := by
  unfold ScaleAndDotResult
  intro s g d a b h code lanes
  refine ⟨fun hr hb => ?scale, fun hs e he hcode => ?dot⟩
  case scale =>
    intro r fl hen
    unfold exec
    exact execFscale_of_ready h hr hb hen
  case dot =>
    intro r fl hen
    obtain ⟨accept, hrun, haccept⟩ := exec_dots s d a b e he
    exact hrun.trans (dotWith_of_settled h hs (haccept _ hcode) hen)

/-! ### The sum of a dot product (06 R144, R158) -/

@[simp] theorem dotSum_nil (mode : Nat) (acc : Num × Flags) : dotSum mode [] acc = acc := rfl

theorem dotSum_cons (mode : Nat) (p : Num × Num) (ps : List (Num × Num)) (acc : Num × Flags) :
    dotSum mode (p :: ps) acc = dotSum mode ps ((addNum mode acc.1 (mulNum p.1 p.2).1).1,
      acc.2 ||| (mulNum p.1 p.2).2 ||| (addNum mode acc.1 (mulNum p.1 p.2).1).2) := rfl

/-- The value is no infinity. -/
def NotInf (x : Num) : Prop := ∀ a, x ≠ .inf a

theorem exactly_of_num {x : Num} (h : ∃ neg m e, x = .num neg m e false) : Exactly x (realOf x) := by
  obtain ⟨neg, m, e, rfl⟩ := h
  exact ⟨neg, m, e, rfl, rfl⟩

/-- Of finite values the sum is exact. -/
theorem dotSum_exactly (mode : Nat) (f : Flags) {ps : List (Num × Num)}
    (hps : ∀ p ∈ ps, (∃ neg m e, p.1 = .num neg m e false) ∧ ∃ neg m e, p.2 = .num neg m e false) {v : Num} {w : ℚ} (hv : Exactly v w) :
    Exactly (dotSum mode ps (v, f)).1 (w + (ps.map fun p => realOf p.1 * realOf p.2).sum) := by
  induction ps generalizing v w f with
  | nil => simpa using hv
  | cons p ps ih =>
    obtain ⟨⟨hp1, hp2⟩, hps⟩ := List.forall_mem_cons.1 hps
    obtain ⟨x, hx, hxv⟩ := mulNum_exactly (exactly_of_num hp1) (exactly_of_num hp2)
    obtain ⟨y, hy, hyv⟩ := addNum_exactly hv hxv mode
    rw [dotSum_cons, hx, List.map_cons, List.sum_cons, ← add_assoc]
    simp only [hy]
    exact ih _ hps hyv

/-- Products and sums without infinities raise nothing and are no infinities. -/
theorem mulNum_notInf {x y : Num} (hx : NotInf x) (hy : NotInf y) : (mulNum x y).2 = 0 ∧ NotInf (mulNum x y).1 := by
  cases x with
  | inf a => exact (hx a rfl).elim
  | nan a => exact ⟨rfl, nofun⟩
  | num a m e st =>
    cases y with
    | inf b => exact (hy b rfl).elim
    | nan b => exact ⟨rfl, nofun⟩
    | num b n k st' => exact ⟨rfl, nofun⟩

theorem addNum_notInf (mode : Nat) {x y : Num} (hx : NotInf x) (hy : NotInf y) :
    (addNum mode x y).2 = 0 ∧ NotInf (addNum mode x y).1 := by
  cases x with
  | inf a => exact (hx a rfl).elim
  | nan a => exact ⟨rfl, nofun⟩
  | num a m e st =>
    cases y with
    | inf b => exact (hy b rfl).elim
    | nan b => exact ⟨rfl, nofun⟩
    | num b n k st' =>
      simp only [addNum]
      split_ifs <;> exact ⟨rfl, nofun⟩

theorem dotSum_flags_of_notInf (mode : Nat) (f : Flags) {ps : List (Num × Num)} (hps : ∀ p ∈ ps, NotInf p.1 ∧ NotInf p.2) {v : Num}
    (hv : NotInf v) : (dotSum mode ps (v, f)).2 = f := by
  induction ps generalizing v f with
  | nil => rfl
  | cons p ps ih =>
    obtain ⟨⟨hp1, hp2⟩, hps⟩ := List.forall_mem_cons.1 hps
    obtain ⟨hm, hmv⟩ := mulNum_notInf hp1 hp2
    obtain ⟨ha, hav⟩ := addNum_notInf mode hv hmv
    rw [dotSum_cons, ih _ hps hav, hm, ha]
    exact BitVec.or_zero.trans BitVec.or_zero

theorem isNaN_iff {x : Num} : isNaN x = true ↔ ∃ a, x = .nan a := by cases x <;> simp [isNaN]

theorem mulNum_nan_left (a : Bool) (y : Num) : mulNum (.nan a) y = (.canonical, 0) := rfl

theorem mulNum_nan_right (x : Num) (a : Bool) : mulNum x (.nan a) = (.canonical, 0) := by cases x <;> rfl

theorem addNum_nan_left (mode : Nat) (a : Bool) (y : Num) : addNum mode (.nan a) y = (.canonical, 0) := rfl

theorem addNum_nan_right (mode : Nat) (x : Num) (a : Bool) : addNum mode x (.nan a) = (.canonical, 0) := by cases x <;> rfl

/-- A product or a sum with a NaN is one. -/
theorem isNaN_mulNum {x y : Num} (h : isNaN x = true ∨ isNaN y = true) : isNaN (mulNum x y).1 = true := by
  obtain h | h := h <;> obtain ⟨a, rfl⟩ := isNaN_iff.1 h
  · rw [mulNum_nan_left]
    rfl
  · rw [mulNum_nan_right]
    rfl

theorem isNaN_addNum (mode : Nat) {x y : Num} (h : isNaN x = true ∨ isNaN y = true) : isNaN (addNum mode x y).1 = true := by
  obtain h | h := h <;> obtain ⟨a, rfl⟩ := isNaN_iff.1 h
  · rw [addNum_nan_left]
    rfl
  · rw [addNum_nan_right]
    rfl

/-- A NaN addend, or a product that is one, makes the sum a NaN. -/
theorem dotSum_nan (mode : Nat) (f : Flags) {ps : List (Num × Num)} {v : Num}
    (h : isNaN v = true ∨ ∃ p ∈ ps, isNaN (mulNum p.1 p.2).1 = true) : isNaN (dotSum mode ps (v, f)).1 = true := by
  induction ps generalizing v f with
  | nil => simpa using h
  | cons p ps ih =>
    rw [dotSum_cons]
    refine ih _ ?_
    rw [List.exists_mem_cons_iff] at h
    obtain hv | hp | hps := h
    · exact .inl (isNaN_addNum mode (.inl hv))
    · exact .inl (isNaN_addNum mode (.inr hp))
    · exact .inr hps

/-- Invalid, once raised or raised by a product, stays raised. -/
theorem dotSum_invalid (mode : Nat) {f : Flags} {ps : List (Num × Num)} {v : Num}
    (h : f.getLsbD 0 = true ∨ ∃ p ∈ ps, (mulNum p.1 p.2).2.getLsbD 0 = true) : (dotSum mode ps (v, f)).2.getLsbD 0 = true := by
  induction ps generalizing v f with
  | nil => simpa using h
  | cons p ps ih =>
    rw [dotSum_cons]
    refine ih ?_
    rw [List.exists_mem_cons_iff] at h
    simp only [BitVec.getLsbD_or, Bool.or_eq_true]
    tauto

/-- The product of a zero and an infinity is a NaN, and raises invalid. -/
theorem mulNum_zero_inf {p : Num × Num} (h : (∃ a b e, p = (.inf a, .num b 0 e false)) ∨ ∃ a b e, p = (.num b 0 e false, .inf a)) :
    mulNum p.1 p.2 = (.canonical, 1) := by
  obtain ⟨a, b, e, rfl⟩ | ⟨a, b, e, rfl⟩ := h <;> rfl

theorem dotSum_single (mode : Nat) (x y v : Num) (f : Flags) :
    dotSum mode [(x, y)] (v, f) = ((addNum mode v (mulNum x y).1).1, f ||| (mulNum x y).2 ||| (addNum mode v (mulNum x y).1).2) := rfl

/-- An infinite addend meets the infinity of a product, which is one of the same sign or makes the sum invalid. -/
theorem dotSum_inf_inf (mode : Nat) (a b c : Bool) (e : Int) (m : Nat) (f : Flags) :
    dotSum mode [(.inf a, .num b (m + 1) e false)] (.inf c, f) = if (a != b) = c then (.inf c, f) else (.nan false, f ||| 1) := by
  have hmul : mulNum (.inf a) (.num b (m + 1) e false) = (.inf (a != b), 0) := rfl
  rw [dotSum_single, hmul]
  by_cases hsign : (a != b) = c
  · simp [hsign, addNum]
  · simp [hsign, addNum, Ne.symm hsign, Num.canonical]

theorem dotSumExact : DotSumExact := by
  unfold DotSumExact
  intro mode ps v f finite
  refine ⟨fun hps hv => ?exact, fun hv hps => ?flags, fun hnan => ?nan, fun ⟨p, hp, hzero⟩ => ?invalid, fun a b c e m n => ⟨?both, ?one⟩⟩
  case exact => exact dotSum_exactly mode f hps (exactly_of_num hv)
  case flags => exact dotSum_flags_of_notInf mode f (fun p hp => ⟨fun a => (hps p hp a).1, fun a => (hps p hp a).2⟩) hv
  case nan => exact dotSum_nan mode f (hnan.imp_right fun ⟨p, hp, h⟩ => ⟨p, hp, isNaN_mulNum h⟩)
  case invalid =>
    have hprod := mulNum_zero_inf hzero
    exact ⟨dotSum_nan mode f (.inr ⟨p, hp, by rw [hprod]; rfl⟩), dotSum_invalid mode (.inr ⟨p, hp, by rw [hprod]; rfl⟩)⟩
  case both => exact dotSum_inf_inf mode a b c e m f
  case one =>
    rw [dotSum_single]
    simp [mulNum, addNum]

/-! ### `xhist` (08 R210) -/

/-- The bins that `xhist` counts are those of the fields of the elements. -/
theorem histBins_eq {code : Nat} (hf : floatCode code = true) (g : Gang) (group a : Nat) :
    histBins code g group a = (g.active group).flatMap fun l => (List.range (elementCount code)).map fun j =>
      exponentBin code (if elementCount code = 2 then (g.vreg a l).toNat / 65536 ^ j % 65536
        else if code = 8 then (g.vpair a l).toNat else (g.vreg a l).toNat % 2 ^ formatWidth code) := by
  unfold histBins
  refine congrArg (fun f => (g.active group).flatMap f) (funext fun l => ?_)
  by_cases h2 : elementCount code = 2
  · have hcode : code = 1 ∨ code = 2 := by
      by_contra hc
      simp [elementCount, hc] at h2
    have hbin : ∀ j, binOf code (g.element code a l j) = exponentBin code ((g.vreg a l).toNat / 65536 ^ j % 65536) := by
      intro j
      have helement : g.element code a l j = (g.vreg a l).toNat / 65536 ^ j % 65536 := by
        rw [Gang.element, if_neg (by omega), if_pos hcode, pow_mul]
        norm_num
      rw [helement, binOf_eq_exponentBin hf]
      have hwidth : formatWidth code = 16 := by obtain rfl | rfl := hcode <;> rfl
      rw [hwidth]
      exact Nat.mod_lt _ (by decide)
    rw [if_pos h2, hbin, hbin, h2]
    rfl
  · have h1 : elementCount code = 1 := by
      unfold elementCount at h2 ⊢
      split_ifs at h2 ⊢ <;> simp_all
    have hbits : g.lowElement code a l < 2 ^ formatWidth code := by
      unfold Gang.lowElement
      split
      next h8 =>
        subst h8
        exact (g.vpair a l).isLt
      next => exact Nat.mod_lt _ (Nat.two_pow_pos _)
    rw [if_neg h2, h1, binOf_eq_exponentBin hf hbits]
    rfl

/-- `xhist` checks its table and then counts. -/
theorem execXhist_of_settled {s : State} {g : Gang} {crew : Crew} {a b : BitVec 7} (h : s.Issues g)
    (hcrew : s.crews.find g.crew = some crew) (hf : floatCode (s.elementCode g) = true)
    (hs : s.Settled g (elementRegs (s.elementCode g) a.toNat) [b.toNat]) (ha : s.elementCode g = 8 → a.toNat % 2 = 0) :
    let table := (g.sreg b.toNat).toNat
    exec (.xhist a b) s =
      if table % 4 ≠ 0 then .next (s.trapAt (s.issuing g) .misaligned (g.enabled s.group) 0)
      else if crew.padSize < table + 272 then .next (s.trapAt (s.issuing g) .scratchpadRange (g.enabled s.group) 0)
      else .next ((s.countBins (coreOf s.gang) crew table (histBins (s.elementCode g) g s.group a.toNat)).advance (s.issuing g) 1) := by
  intro table
  have hs' : s.Settled g ([a.toNat].flatMap (elementRegs (s.elementCode g))) [b.toNat] := by simpa using hs
  unfold exec
  refine (gate_of_accepted h hs' (even_of_pairs (by simpa using ha)) hf rfl).trans ?_
  have hcrew' : s.crews.find (s.issuing g).crew = some crew := hcrew
  simp only [hcrew']
  rfl

theorem histogramResult : HistogramResult := by
  unfold HistogramResult
  intro s g crew a b h hcrew hf hs ha haligned hrange bins
  rw [execXhist_of_settled h hcrew hf hs ha, if_neg (by simpa using haligned), if_neg (by omega), histBins_eq hf]

theorem histogramTraps : HistogramTraps := by
  unfold HistogramTraps
  intro s g crew a b h hcrew hf hs ha
  rw [execXhist_of_settled h hcrew hf hs ha]
  exact ⟨fun hodd => if_pos hodd, fun haligned hrange => (if_neg (by simpa using haligned)).trans (if_pos hrange)⟩

/-! ### Bytes of a crew's scratchpad (06 R163) -/

/-- The bytes of a crew's scratchpad lie apart, as its granules do. -/
theorem Crew.padByte_inj {c : Crew} (hc : c.granules.Nodup) {o o' : Nat} (ho : o < 4096 * c.granules.length)
    (ho' : o' < 4096 * c.granules.length) (h : c.padByte o = c.padByte o') : o = o' := by
  unfold Crew.padByte at h
  have hi : o / 4096 < c.granules.length := by omega
  have hi' : o' / 4096 < c.granules.length := by omega
  rw [List.getD_eq_getElem _ _ hi, List.getD_eq_getElem _ _ hi'] at h
  have hgranule : o / 4096 = o' / 4096 := (hc.getElem_inj_iff).1 (by omega)
  omega

section
variable (m : Cells 8) (c : Crew) (off n v : Nat)

/-- A write of bytes reaches no other byte. -/
theorem get_padWriteBytes_other {o : Nat} (h : ∀ i < n, c.padByte (off + i) ≠ o) : (padWriteBytes m c off n v).get o = m.get o := by
  induction n generalizing m off v with
  | zero => rfl
  | succ n ih =>
    rw [padWriteBytes, ih, Cells.get_set]
    · exact if_neg (h 0 (by omega))
    intro i hi
    rw [add_assoc, add_comm 1]
    exact h (i + 1) (by omega)

/-- Bytes that lie apart hold what has been written. -/
theorem get_padWriteBytes_self (h : ∀ i < n, ∀ j < n, c.padByte (off + i) = c.padByte (off + j) → i = j) {i : Nat} (hi : i < n) :
    (padWriteBytes m c off n v).get (c.padByte (off + i)) = BitVec.ofNat 8 (v / 256 ^ i) := by
  induction n generalizing m off v i with
  | zero => omega
  | succ n ih =>
    rw [padWriteBytes]
    cases i with
    | zero =>
      rw [get_padWriteBytes_other, add_zero, Cells.get_set, if_pos rfl, pow_zero, Nat.div_one]
      intro j hj heq
      rw [add_assoc, add_comm 1] at heq
      have := h (j + 1) (by omega) 0 (by omega) heq
      omega
    | succ i =>
      rw [show off + (i + 1) = off + 1 + i by omega, ih _ _ _ _ (by omega), Nat.div_div_eq_div_mul, ← pow_succ']
      intro j hj k hk heq
      have := h (j + 1) (by omega) (k + 1) (by omega) (by rwa [show off + (j + 1) = off + 1 + j by omega,
        show off + (k + 1) = off + 1 + k by omega])
      omega

end

theorem readLE_congr {f f' : Nat → Byte} {a n : Nat} (h : ∀ i < n, f (a + i) = f' (a + i)) : readLE f a n = readLE f' a n := by
  induction n generalizing a with
  | zero => rfl
  | succ n ih =>
    have hfirst : f a = f' a := h 0 (by omega)
    rw [readLE, readLE, hfirst, ih]
    intro i hi
    rw [add_assoc, add_comm 1]
    exact h (i + 1) (by omega)

/-! ### Writes of scratchpad -/

/-- A core once it has been replaced, and the others. -/
theorem State.core_setCore (s : State) (n : Nat) (c : Core) (k : Nat) : (s.setCore n c).core k = if n = k then c else s.core k := by
  unfold State.core
  rw [State.setCore_cores, Table.find_put]
  split <;> rfl

/-- `t` differs from `s` in scratchpad bytes of a core that satisfy `p` alone. -/
structure PadOnly (core : Nat) (p : Nat → Prop) (s t : State) : Prop where
  bytes : ∀ o, ¬p o → (t.core core).scratch.get o = (s.core core).scratch.get o
  ownCore : { t.core core with scratch := (s.core core).scratch } = s.core core
  otherCores : ∀ n, n ≠ core → t.core n = s.core n
  rest : { t with cores := s.cores } = s

theorem PadOnly.refl (core : Nat) (p : Nat → Prop) (s : State) : PadOnly core p s s := ⟨fun _ _ => rfl, rfl, fun _ _ => rfl, rfl⟩

theorem PadOnly.trans {core : Nat} {p : Nat → Prop} {s t u : State} (h : PadOnly core p s t) (h' : PadOnly core p t u) :
    PadOnly core p s u where
  bytes o ho := (h'.bytes o ho).trans (h.bytes o ho)
  ownCore := (congrArg (fun c : Core => { c with scratch := (s.core core).scratch }) h'.ownCore).trans h.ownCore
  otherCores n hn := (h'.otherCores n hn).trans (h.otherCores n hn)
  rest := (congrArg (fun x : State => { x with cores := s.cores }) h'.rest).trans h.rest

section
variable (s : State) (core : Nat) (c : Crew) (off n v : Nat)

theorem State.scratch_padWrite : ((s.padWrite core c off n v).core core).scratch = padWriteBytes (s.core core).scratch c off n v := by
  rw [State.padWrite, State.core_setCore, if_pos rfl]

theorem State.padOnly_padWrite {p : Nat → Prop} (hp : ∀ i < n, p (c.padByte (off + i))) :
    PadOnly core p s (s.padWrite core c off n v) where
  bytes o ho := by
    rw [State.scratch_padWrite]
    exact get_padWriteBytes_other _ _ _ _ _ fun i hi heq => ho (heq ▸ hp i hi)
  ownCore := by rw [State.padWrite, State.core_setCore, if_pos rfl]
  otherCores k hk := by rw [State.padWrite, State.core_setCore, if_neg (Ne.symm hk)]
  rest := rfl

/-- Bytes that lie apart read as the value just written. -/
theorem State.padRead_padWrite_same (h : ∀ i < n, ∀ j < n, c.padByte (off + i) = c.padByte (off + j) → i = j) :
    (s.padWrite core c off n v).padRead core c off n = v % 256 ^ n := by
  unfold State.padRead
  rw [State.scratch_padWrite]
  exact readLE_of_bytes fun i hi => get_padWriteBytes_self _ _ _ _ _ h hi

/-- Bytes that lie apart from those written read as before. -/
theorem State.padRead_padWrite_other {off' n' : Nat} (h : ∀ i < n, ∀ j < n', c.padByte (off + i) ≠ c.padByte (off' + j)) :
    (s.padWrite core c off n v).padRead core c off' n' = s.padRead core c off' n' := by
  unfold State.padRead
  rw [State.scratch_padWrite]
  exact readLE_congr fun j hj => get_padWriteBytes_other _ _ _ _ _ fun i hi => h i hi j hj

end

/-! ### Counting (06 R163) -/

theorem State.countBins_cons (s : State) (core : Nat) (crew : Crew) (table i : Nat) (bins : List Nat) :
    s.countBins core crew table (i :: bins) =
      (s.padWrite core crew (table + 4 * i) 4 (s.padRead core crew (table + 4 * i) 4 + 1)).countBins core crew table bins := rfl

/-- Bytes read together stay below the power of 256 that their number gives. -/
theorem readLE_lt (f : Nat → Byte) (a n : Nat) : readLE f a n < 256 ^ n := by
  induction n generalizing a with
  | zero => exact Nat.one_pos
  | succ n ih =>
    have hlow : (f a).toNat < 256 := (f a).isLt
    have hrest := ih (a + 1)
    rw [readLE, pow_succ]
    omega

section
variable {core : Nat} {crew : Crew} {table : Nat} (hgranules : crew.granules.Nodup) (hsize : crew.padSize ≤ 4096 * crew.granules.length)
  (htable : table + 272 ≤ crew.padSize)
include hgranules hsize htable

/-- Adding one to a counter adds one, modulo 2^32, to it and to no other. -/
theorem padRead_increment (s : State) {i j : Nat} (hi : i < 68) (hj : j < 68) :
    (s.padWrite core crew (table + 4 * i) 4 (s.padRead core crew (table + 4 * i) 4 + 1)).padRead core crew (table + 4 * j) 4 =
      if i = j then (s.padRead core crew (table + 4 * j) 4 + 1) % 2 ^ 32 else s.padRead core crew (table + 4 * j) 4 := by
  have hinj : ∀ x < 4, ∀ y < 4, crew.padByte (table + 4 * i + x) = crew.padByte (table + 4 * j + y) → 4 * i + x = 4 * j + y := by
    intro x hx y hy heq
    have := Crew.padByte_inj hgranules (by omega) (by omega) heq
    omega
  split
  next hij =>
    subst hij
    exact s.padRead_padWrite_same core crew _ 4 _ fun x hx y hy heq => by
      have := hinj x hx y hy heq
      omega
  next hij =>
    exact s.padRead_padWrite_other core crew _ 4 _ fun x hx y hy heq => by
      have := hinj x hx y hy heq
      omega

theorem padRead_countBins (s : State) {bins : List Nat} (hbins : ∀ i ∈ bins, i < 68) {j : Nat} (hj : j < 68) :
    (s.countBins core crew table bins).padRead core crew (table + 4 * j) 4 =
      (s.padRead core crew (table + 4 * j) 4 + bins.count j) % 2 ^ 32 := by
  induction bins generalizing s with
  | nil => exact (Nat.mod_eq_of_lt (readLE_lt ..)).symm
  | cons i rest ih =>
    obtain ⟨hi, hrest⟩ := List.forall_mem_cons.1 hbins
    rw [State.countBins_cons, ih _ hrest, padRead_increment hgranules hsize htable s hi hj, List.count_cons]
    by_cases hij : i = j
    · simp only [hij, ↓reduceIte, beq_self_eq_true]
      omega
    · simp [hij]

end

/-- Counting reaches the bytes of the table alone. -/
theorem padOnly_countBins (s : State) (core : Nat) (crew : Crew) (table : Nat) {bins : List Nat} (hbins : ∀ i ∈ bins, i < 68) :
    PadOnly core (fun o => ∃ i < 272, crew.padByte (table + i) = o) s (s.countBins core crew table bins) := by
  induction bins generalizing s with
  | nil => exact .refl ..
  | cons i rest ih =>
    obtain ⟨hi, hrest⟩ := List.forall_mem_cons.1 hbins
    refine (s.padOnly_padWrite core crew _ 4 _ fun x hx => ⟨4 * i + x, by omega, ?_⟩).trans (ih _ hrest)
    rw [← add_assoc]

theorem binsCounted : BinsCounted := by
  unfold BinsCounted
  intro s core crew table bins hgranules hsize htable hbins t
  obtain ⟨hbytes, hcore, hcores, hstate⟩ := padOnly_countBins s core crew table hbins
  refine ⟨fun i hi => padRead_countBins hgranules hsize htable s hbins hi, fun o ho => hbytes o ?_, hcore, hcores, hstate⟩
  rintro ⟨i, hi, heq⟩
  exact ho i hi heq

/-- Settles O11: the shapes of scaling and of dot products, the exact sum product by product, and the counters as bytes that lie apart. -/
theorem scaleDotHistogram : Obligations.ScaleDotHistogram :=
  ⟨scaleAndDotResult, dotSumExact, histogramResult, histogramTraps, binsCounted⟩

end Sys2Proof.Machine
end
